-- ==== Sys2Proof/Word.lean ====
section
/-! DEFINITION. The word types of the OC2-M1024: bytes, 64-bit words, lane masks, cache lines. -/

namespace Sys2Proof

/-- A byte of memory (00 R4). -/
abbrev Byte := BitVec 8

/-- A 64-bit word: a virtual register (15 R482), a scalar register, a uniform register. -/
abbrev Word := BitVec 64

/-- One bit for each of the 64 lanes of a group (02, "Threads, groups and lanes"). -/
abbrev LaneMask := BitVec 64

/-- A 64-byte line: byte `k` holds bits `[8k+7 : 8k]` (00 R4). -/
abbrev Line := BitVec 512

end Sys2Proof
end

