-- ==== Sys2Proof/Syntax.lean ====
section
/-! DEFINITION. The abstract syntax: one constructor of `Instr` for each row of the opcode table,
in the table's order. Instructions of the catalogue carry their guard and their operands; the
steps of the module's other agents carry what names the unit that acts. -/

namespace Sys2Proof

/-- The four memory spaces (04 Table 4.1), with the space numbers of 17 R349. -/
inductive Space where
  | g | l | c | w
  deriving DecidableEq, Repr

/-- Scope codes 0 to 6 of 05 Table 5.1. -/
inductive Scope where
  | core | group | cluster | die | device | host | fabric
  deriving DecidableEq, Repr

/-- The orderings of 05 R117, in the MOD code order of 15 Table 15.7. -/
inductive MemOrder where
  | rlx | acq | rel | ar
  deriving DecidableEq, Repr

/-- The scalar type set of 15 Table 15.6, in code order 0 to 12. -/
inductive STy where
  | i8 | i16 | i32 | i64 | n8 | n16 | n32 | n64 | b32 | b64 | f32 | f16 | bf16
  deriving DecidableEq, Repr

/-- The element type set of 15 Table 15.6, in code order 0 to 14. -/
inductive ETy where
  | i8 | n8 | i16 | n16 | i32 | n32 | b32 | f32 | f16 | bf16 | e4m3 | e5m2 | e2m1 | e8m0 | bpi
  deriving DecidableEq, Repr

/-- Rounding codes 0 to 4 of 09 Table 9.3. -/
inductive Rounding where
  | rne | rz | ru | rd | rs
  deriving DecidableEq, Repr

/-- The guard of 02 Table 2.4: unguarded, or predicate `n` with its sense bit. -/
inductive Guard where
  | always
  | pred (n : Nat) (neg : Bool)
  deriving DecidableEq, Repr

/-- The special registers of 02 Table 2.5, in that table's order. -/
inductive Special where
  | tidX | tidY | tidZ | bidX | bidY | bidZ | bdimX | bdimY | bdimZ | gdimX | gdimY | gdimZ
  | lane | gid | stage | core | cluster | die | lsn
  deriving DecidableEq, Repr

/-- An operand of either carrier: virtual codes by 15 Table 15.2, native codes by 15 R326.
`imm` holds the value of 15 R316: sign-extended for integer types, the FP32 pattern for float
types. `creg` and `nextCreg` name registers of the slot's own and of the next cluster. -/
inductive Operand where
  | v (n : Nat)
  | k (n : Nat)
  | p (n : Nat)
  | imm (x : Word)
  | special (r : Special)
  | creg (n : Nat)
  | nextCreg (n : Nat)
  | s (n : Nat)
  deriving DecidableEq, Repr

/-- A memory operand `[base + off]`: `idx` is the native offset operand (15 Table 15.13), `sw` the
swizzle mode (15 R317). -/
structure MemRef where
  space : Space
  base : Operand
  off : Int := 0
  idx : Option Operand := none
  sw : Nat := 0
  deriving DecidableEq, Repr

/-- The consumed tokens of a TOK parcel (15 Table 15.4) or of native A, B, C (15 R241 of 11). -/
structure Toks where
  c0 : Option Nat := none
  c1 : Option Nat := none
  c2 : Option Nat := none
  deriving DecidableEq, Repr

/-- Comparison codes of ICMP (19 R410). -/
inductive Cond where
  | eq | ne | lt | le | gt | ge
  deriving DecidableEq, Repr

/-- Operation numbers of ATOM (11 Table 11.4, 17 R349). -/
inductive AtomOp where
  | add | sub | min | max | and | or | xor | xchg | incw | decw
  deriving DecidableEq, Repr

/-- Operations of GRED and GSCAN (19 Table 19.2). -/
inductive CollOp where
  | add | min | max | and | or | xor
  deriving DecidableEq, Repr

/-- Modes of SHFL (21 R449). -/
inductive ShflMode where
  | idx | up | down | xor
  deriving DecidableEq, Repr

/-- Modes of VOTE (21 R469). -/
inductive VoteMode where
  | all | any | uni
  deriving DecidableEq, Repr

/-- The kinds of ROWOP (11 Table 11.8). -/
inductive RowKind where
  | copy | zero | ones | and | or | not | xor
  deriving DecidableEq, Repr

/-- The forms of FENCE (05 R118). -/
inductive FenceKind where
  | acq | rel | ar
  deriving DecidableEq, Repr

/-- The actions of a treadle message (13 Table 13.5). -/
inductive TreadleAction where
  | start | stop | filter | freeze
  deriving DecidableEq, Repr

/-- The element operand of a queue instruction (18 R380): one 64-bit register per lane, or `size`
bytes at a per-lane `.l` address. For a dequeue the register is the destination. -/
inductive ElemForm where
  | reg (e : Operand)
  | spad (e : Operand) (sw : Nat) (size : Nat)
  deriving DecidableEq, Repr

/-- The arrival of a COPY (11 Table 11.2, offsets 22 and 23). -/
inductive Arrival where
  | none
  | tile (t : Nat)
  | bar (b : Nat) (k : Nat)
  deriving DecidableEq, Repr

/-- The operands of a Fleper COPY (18 Table 18.1). -/
structure CopyArgs where
  scope : Scope
  dstSpace : Space
  srcSpace : Space
  dst : Operand
  src : Operand
  count : Operand
  arrival : Arrival
  deriving DecidableEq, Repr

/-- The operands of a Fleper ROWOP (20 R442). -/
structure RowArgs where
  dst : Operand
  srcA : Option Operand
  srcB : Option Operand
  count : Operand
  deriving DecidableEq, Repr

/-- The staging sets of 21 Table 21.2. -/
inductive StageSet where
  | sh | te | re | ro
  deriving DecidableEq, Repr

/-- What the verification and training of a boot report (14 R304): whether step 1 verifies, the banks (pseudo-channel,
bank) that fail training, the sparing status (pseudo-channel, state, bank: 11 R265) and the banks whose wipe fails (11
R266). -/
structure BootReport where
  verified : Bool
  failing : List (Nat × Nat)
  sparing : List (Nat × Nat × Nat) := []
  unwiped : List (Nat × Nat) := []
  deriving DecidableEq, Repr

/-- An upstream reset (14 R303): a hot reset, or a function-level reset of one interface. -/
inductive ResetKind where
  | hot
  | flr (vi : Nat)
  deriving DecidableEq, Repr

/-- The life-cycle states (14 Table 14.6). -/
inductive LifeCycle where
  | manufacture | provisioned | deployed | rma | decommissioned
  deriving DecidableEq, Repr

/-- Whose signature a LIFECYCLE request carries (14 R305). -/
inductive Signer where
  | brodari | owner
  deriving DecidableEq, Repr

/-- A LIFECYCLE request (14 R305): the state asked for, the hosting field, and the signer whose
signature the enclave verified (`none`: it did not verify). -/
structure LifeCycleReq where
  next : LifeCycle
  hosting : Bool
  signer : Option Signer
  deriving DecidableEq, Repr

/-- The place of an uncorrectable error (12 Table 12.5). -/
inductive ErrPlace where
  | block (b : Nat)
  | launchVersion (l : Nat)
  | memory (pa : Nat)
  | queue (cb : Nat)
  | versionEntry (l : Nat)
  | draft (key : Nat)
  | appCore
  deriving DecidableEq, Repr

/-- A treadle message (13 Table 13.5). -/
structure TreadleMsg where
  action : Nat
  vi : Nat
  origin : Nat
  mask : BitVec 32
  stamp : Nat
  lsn : Nat
  deriving DecidableEq, Repr

/-- An election message (14 R308): round, the sender's identity, and whether its report verifies. -/
structure ElectionMsg where
  round : Nat
  identity : Nat
  valid : Bool
  deriving DecidableEq, Repr

/-- A peer's draft request (03 R76): the key, whether its chain is valid and shows a DEPLOYED part
of the same stepping, and the image signing key it names. -/
structure DraftRequest where
  peer : Nat
  key : Nat
  chainOk : Bool
  imageKey : Nat
  deriving DecidableEq, Repr

/-- A peer's answer (03 R76): the key and generation of the draft, the three checks, the draft. -/
structure DraftAnswer where
  key : Nat
  generation : Nat
  chainOk : Bool
  signatureOk : Bool
  keyMatches : Bool
  deriving DecidableEq, Repr

/-- An incoming fabric access (14 R309): requester device and interface, address, bytes to store
(`none`: a load of `size` bytes). -/
structure FabricReq where
  device : Nat
  vi : Nat
  exportVi : Nat
  addr : Nat
  size : Nat
  store : Option (List Byte)
  deriving DecidableEq, Repr

/-- An image push of a pod leader (14 R308). -/
structure ImagePush where
  leader : Nat
  vi : Nat
  addr : Nat
  digestMatches : Bool
  deriving DecidableEq, Repr

/-- One constructor for each row of the opcode table, in its order. -/
inductive Instr where
  -- control flow
  | nop (g : Guard) (pad : Bool)
  | bra (g : Guard) (disp : Int)
  | brx (g : Guard) (ty : STy) (a : Operand)
  | call (g : Guard) (d : Operand) (disp : Int)
  | callx (g : Guard) (ty : STy) (d a : Operand)
  | ret (g : Guard) (ty : STy) (a : Operand)
  | exit (g : Guard)
  | trap (g : Guard) (code : Nat)
  | trapHandler (g : Guard) (code : Nat) (d : Operand) (disp : Int)
  | tret (g : Guard)
  | brk (g : Guard) (code : Nat)
  | yield (g : Guard)
  | reform (g : Guard) (target : Option Int)
  -- integer arithmetic
  | iadd (g : Guard) (ty : STy) (sat : Bool) (d a b : Operand)
  | isub (g : Guard) (ty : STy) (sat : Bool) (d a b : Operand)
  | imul (g : Guard) (ty : STy) (d a b : Operand)
  | imulhi (g : Guard) (ty : STy) (d a b : Operand)
  | imad (g : Guard) (ty : STy) (sat : Bool) (d a b c : Operand)
  | idiv (g : Guard) (ty : STy) (d a b : Operand)
  | irem (g : Guard) (ty : STy) (d a b : Operand)
  | ineg (g : Guard) (ty : STy) (sat : Bool) (d a : Operand)
  | iabs (g : Guard) (ty : STy) (sat : Bool) (d a : Operand)
  | imin (g : Guard) (ty : STy) (d a b : Operand)
  | imax (g : Guard) (ty : STy) (d a b : Operand)
  | icmp (g : Guard) (ty : STy) (cond : Cond) (d a b : Operand)
  | lea (g : Guard) (ty : STy) (shift : Nat) (sx : Bool) (d a b : Operand)
  -- bits
  | and (g : Guard) (ty : STy) (d a b : Operand)
  | andn (g : Guard) (ty : STy) (d a b : Operand)
  | or (g : Guard) (ty : STy) (d a b : Operand)
  | xor (g : Guard) (ty : STy) (d a b : Operand)
  | not (g : Guard) (ty : STy) (d a : Operand)
  | shl (g : Guard) (ty : STy) (d a b : Operand)
  | shr (g : Guard) (ty : STy) (d a b : Operand)
  | bfi (g : Guard) (ty : STy) (d a b c : Operand)
  | bfx (g : Guard) (ty : STy) (d a b : Operand)
  | brev (g : Guard) (ty : STy) (d a : Operand)
  | clz (g : Guard) (ty : STy) (d a : Operand)
  | ctz (g : Guard) (ty : STy) (d a : Operand)
  | popc (g : Guard) (ty : STy) (d a : Operand)
  | sel (g : Guard) (ty : STy) (d a b c : Operand)
  | mov (g : Guard) (ty : STy) (d a : Operand)
  -- floating point
  | fadd (g : Guard) (ty : STy) (rm : Rounding) (d a b : Operand)
  | fsub (g : Guard) (ty : STy) (rm : Rounding) (d a b : Operand)
  | fmul (g : Guard) (ty : STy) (rm : Rounding) (d a b : Operand)
  | ffma (g : Guard) (ty : STy) (rm : Rounding) (d a b c : Operand)
  | fdiv (g : Guard) (ty : STy) (rm : Rounding) (d a b : Operand)
  | fsqrt (g : Guard) (ty : STy) (rm : Rounding) (d a : Operand)
  | frcp (g : Guard) (ty : STy) (d a : Operand)
  | frsq (g : Guard) (ty : STy) (d a : Operand)
  | fexp2 (g : Guard) (ty : STy) (d a : Operand)
  | flog2 (g : Guard) (ty : STy) (d a : Operand)
  | ftanh (g : Guard) (ty : STy) (d a : Operand)
  | fmin (g : Guard) (ty : STy) (d a b : Operand)
  | fmax (g : Guard) (ty : STy) (d a b : Operand)
  | fcmp (g : Guard) (ty : STy) (d a b : Operand)
  | fsgn (g : Guard) (ty : STy) (x : Bool) (d a b : Operand)
  | fclass (g : Guard) (ty : STy) (d a : Operand)
  | fcvt (g : Guard) (dst src : ETy) (rm : Rounding) (d a : Operand)
  | fcvti (g : Guard) (dst : STy) (src : ETy) (rm : Rounding) (d a : Operand)
  | icvtf (g : Guard) (dst : ETy) (src : STy) (rm : Rounding) (d a : Operand)
  | bpenc (g : Guard) (d a : Operand)
  | bpdec (g : Guard) (p : Nat) (d a : Operand)
  -- predicates and collectives
  | plop (g : Guard) (tt : Nat) (d a b : Nat)
  | pmov (g : Guard) (toPred : Bool) (p : Nat) (r : Operand)
  | ballot (g : Guard) (d a : Operand)
  | vote (g : Guard) (mode : VoteMode) (d a : Operand)
  | shfl (g : Guard) (ty : STy) (mode : ShflMode) (d a b : Operand)
  | gred (g : Guard) (op : CollOp) (ty : STy) (d a : Operand)
  | gscan (g : Guard) (op : CollOp) (excl : Bool) (ty : STy) (d a : Operand)
  -- memory
  | ld (g : Guard) (ty : STy) (ord : MemOrder) (sc : Scope) (d : Operand) (m : MemRef)
  | st (g : Guard) (ty : STy) (ord : MemOrder) (sc : Scope) (m : MemRef) (a : Operand) (wait : Toks)
  | ldt (g : Guard) (ty : STy) (d : Operand) (tile : Nat) (row col : Operand)
  | stt (g : Guard) (ty : STy) (tile : Nat) (row col a : Operand)
  | fence (g : Guard) (kind : FenceKind) (sc : Scope) (wait : Toks)
  | drain (g : Guard) (sc : Scope) (wait : Toks)
  | lock (g : Guard) (d a cnt : Operand)
  | unlock (g : Guard) (d a cnt : Operand)
  | atom (g : Guard) (op : AtomOp) (ty : STy) (ord : MemOrder) (sc : Scope) (nr : Bool)
      (d : Option Operand) (m : MemRef) (a : Operand) (wait : Toks)
  | atombadd (g : Guard) (ty : STy) (ord : MemOrder) (sc : Scope) (nr : Bool) (d : Option Operand)
      (q : Nat) (m : MemRef) (a n : Operand) (wait : Toks)
  | atomcas (g : Guard) (ty : STy) (ord : MemOrder) (sc : Scope) (d : Operand) (m : MemRef)
      (cmp new : Operand) (wait : Toks)
  | enq (g : Guard) (sc : Scope) (cb : Operand) (e : ElemForm)
  | enqtry (g : Guard) (sc : Scope) (d cb : Operand) (e : ElemForm)
  | deq (g : Guard) (sc : Scope) (cb : Operand) (e : ElemForm)
  | deqtry (g : Guard) (sc : Scope) (q : Nat) (cb : Operand) (e : ElemForm)
  | qinit (g : Guard) (sc : Scope) (cb base shape : Operand)
  | qstat (g : Guard) (sc : Scope) (d cb : Operand)
  -- barriers
  | bararm (g : Guard) (bar : Nat) (depth arrivals bytes : Operand)
  | bararr (g : Guard) (bar k : Nat) (count : Operand)
  | barwait (g : Guard) (bar k : Nat)
  | barrot (g : Guard) (bar : Nat)
  | barsync (g : Guard)
  | pollbk (g : Guard) (sc : Scope) (d : Operand) (m : MemRef)
  -- tiles and engines
  | tdecl (g : Guard) (fmt : ETy) (sw tile : Nat) (shape : Operand) (bar slot : Nat)
  | tfree (g : Guard) (tile : Nat)
  | tstateRead (g : Guard) (w1 : Bool) (d : Operand) (tile : Nat)
  | tstateReady (g : Guard) (tile : Nat)
  | tload (g : Guard) (tk : Nat) (wait : Toks) (src : Option Operand)
  | tstore (g : Guard) (release : Bool) (tk : Nat) (wait : Toks) (src : Option Operand)
  | copy (g : Guard) (tk : Nat) (wait : Toks) (args : Option CopyArgs)
  | reduce (g : Guard) (tk : Nat) (wait : Toks) (src : Option Operand)
  | rowop (g : Guard) (kind : RowKind) (tk : Nat) (wait : Toks) (args : Option RowArgs)
  | flush (g : Guard) (sc : Scope) (tk : Nat) (wait : Toks) (a cnt : Operand)
  | inval (g : Guard) (sc : Scope) (tk : Nat) (wait : Toks) (a cnt : Operand)
  | trig (g : Guard) (action : TreadleAction) (tk : Nat) (mask : Option Operand)
  | stgw (g : Guard) (set : StageSet) (idx : Nat) (a : Operand)
  -- matrix
  | mma (g : Guard) (fa fb : ETy) (p q : Nat) (flag : Bool) (acc gl sl : Nat)
  | latch (g : Guard) (f : ETy) (q : Nat) (row col : Operand) (lat tile : Nat)
  | gatherTile (g : Guard) (f : ETy) (p tk gl tile : Nat) (idx col : Operand)
  | gatherSpad (g : Guard) (f : ETy) (p tk gl sw : Nat) (off : Operand)
  | accscale (g : Guard) (acc pt ta ts c : Nat) (origin : Operand)
  | accrd (g : Guard) (f : ETy) (i32 : Bool) (rm : Rounding) (tile acc : Nat)
  | accwr (g : Guard) (f : ETy) (acc tile : Nat)
  | accclr (g : Guard) (pt : Bool) (n c : Nat)
  -- system
  | sysrd (g : Guard) (d a : Operand)
  | syswr (g : Guard) (a b : Operand)
  | clock (g : Guard) (d : Operand)
  | satarm (g : Guard)
  | satclr (g : Guard) (a : Operand)
  | satrd (g : Guard) (d : Operand)
  -- the sequencers and paths
  | groupSelect (core : Nat)
  | issueStarvationLimit (core : Nat)
  | regionCommit
  | pathRotation (grp : Nat)
  | bobbinDraw (core bob : Nat)
  | resultArrival (grp path : Nat)
  | gatherComplete (core gl : Nat)
  | remoteLoadReturn (grp path : Nat)
  | queuePollReoffer (cb : Nat)
  | pollbkBackoffExpire (grp path : Nat)
  -- engines
  | engineStart (op : Nat)
  | shuttlePiece (op piece : Nat)
  | tensorPartPerform (op part : Nat)
  | engineBytesArrive (op : Nat)
  | tokenDone (op : Nat)
  | rowOperationRow (op : Nat)
  | pageWalk (core launch va : Nat) (write : Bool)
  -- faults, blocks, launches
  | faultRecordDeliver (vi ctx : Nat)
  | blockPlace (launch stage : Nat)
  | compactorMove (launch stage : Nat)
  | blockEvict (block : Nat)
  | blockRetire (block : Nat)
  | blockHalt (block : Nat)
  | launchDequeue (lq : Nat)
  | conditionalNodeEval (launch : Nat)
  | launchBind (launch : Nat)
  | launchCommit (launch : Nat)
  | deferredEnqueueAppend (launch : Nat)
  | shadowWriteback (launch line : Nat)
  | irrevocableGrant (launch : Nat)
  | launchAbort (launch : Nat)
  -- drafts
  | draftCreate (slot : Nat)
  | peerDraftRequest (r : DraftRequest)
  | peerDraftReceive (r : DraftAnswer)
  | profileWindowJudge (draft record : Nat)
  | redraft (draft : Nat)
  -- schedulers
  | sliceBoundary
  | quantumBoundary
  | stageRebalance (launch : Nat)
  | stageCoreMove (launch : Nat)
  -- power, fabric, memory, boot
  | powerWithhold (core : Nat)
  | thermalCapReduce (cap : Nat)
  | thermalPowerOff
  | fabricAccessReceive (r : FabricReq)
  | fabricAccessTimeout (acc : Nat)
  | shootdownComplete (id : Nat)
  | bankRetire (pc bank : Nat)
  | sparingRowCopy (pc : Nat)
  | boot (r : BootReport)
  | upstreamReset (k : ResetKind)
  | lifecycle (r : LifeCycleReq)
  | uncorrectableError (place : ErrPlace) (domain unit addr : Nat)
  | correctedError (domain unit addr : Nat)
  -- debug, trace, election
  | sampleTake (core : Nat)
  | treadleMessageReceive (m : TreadleMsg)
  | treadleAct
  | electionTimeout
  | electionReportReceive (m : ElectionMsg)
  | electionChoice
  | leaderHeartbeat
  | heartbeatReceive (leader : Nat)
  | imagePushReceive (p : ImagePush)
  -- queue port and management commands
  | queuePortStart (vi slot : Nat) (content : BitVec 512) (host : Bool)
  | dbgCaptureWrite (vi : Nat) (value : Word)
  | publish (vi : Nat)
  | unpublish (vi : Nat)
  | registerLq (vi : Nat)
  | contextCreate (vi : Nat)
  | contextDestroy (vi : Nat)
  | shootdown (vi : Nat)
  | service (vi : Nat)
  | release (vi : Nat)
  | kill (vi : Nat)
  | stop (vi : Nat)
  | profile (vi : Nat)
  | treadle (vi : Nat)
  | notifyTarget (vi : Nat)
  | enrolKey (vi : Nat)
  | attest (vi : Nat)
  | viConfig (vi : Nat)
  | debugAttach (vi : Nat)
  | debugDetach (vi : Nat)
  | debugResume (vi : Nat)
  | controlWrite (vi : Nat)
  | controlRead (vi : Nat)
  | unknownCommand (vi : Nat)
  -- points of service, batten, supply
  | accessPerformedAtPointOfService (acc : Nat)
  | battenGranuleReduction (op granule : Nat)
  | supplyAndCoolantWithinLimits
  deriving DecidableEq, Repr

end Sys2Proof
end

