-- ==== Sys2Proof/WellFormed.lean ====
section
/-! DEFINITION. Which terms of `Instr` stand for something the part can be given: for the instructions of the
catalogue, the forms that the Fleper encoding tables admit (15, 17 to 21), and for STGW, which has no Fleper form (15
R329), its native form; for the other steps, units that exist (01 R13, R14; 14 R296). -/

namespace Sys2Proof

/-- The width in bits of a scalar type (09 R208, R209). -/
def STy.width : STy → Nat
  | .i8 | .n8 => 8
  | .i16 | .n16 | .f16 | .bf16 => 16
  | .i32 | .n32 | .b32 | .f32 => 32
  | .i64 | .n64 | .b64 => 64

/-- The signed integer types. -/
def STy.signed : STy → Bool
  | .i8 | .i16 | .i32 | .i64 => true
  | _ => false

/-- The float types of the scalar set. -/
def STy.isFloat : STy → Bool
  | .f32 | .f16 | .bf16 => true
  | _ => false

/-- TY of the integer arithmetic rows (19 Table 19.1). -/
def STy.isArith : STy → Bool
  | .i32 | .i64 | .n32 | .n64 => true
  | _ => false

/-- TY of the bitwise rows (17 Table 17.1). -/
def STy.isBits : STy → Bool
  | .b32 | .b64 => true
  | _ => false

/-- The integer types of the scalar set, codes 0 to 7. -/
def STy.isInt : STy → Bool
  | .i8 | .i16 | .i32 | .i64 | .n8 | .n16 | .n32 | .n64 => true
  | _ => false

/-- Element codes 7 to 13: the formats FCVT, FCVTI and ICVTF accept (18 R392, 19 R411). -/
def ETy.isFloat : ETy → Bool
  | .f32 | .f16 | .bf16 | .e4m3 | .e5m2 | .e2m1 | .e8m0 => true
  | _ => false

/-- Formats of 16 bits or fewer, into which RS is accepted (09 R216). -/
def ETy.isNarrow : ETy → Bool
  | .f16 | .bf16 | .e4m3 | .e5m2 | .e2m1 | .e8m0 => true
  | _ => false

/-- Integer destinations of 16 bits or fewer (18 R392). -/
def STy.isNarrow : STy → Bool
  | .i8 | .i16 | .n8 | .n16 => true
  | _ => false

/-- The A and B formats of the matrix unit (10 Table 10.1). -/
def ETy.isMatrix : ETy → Bool
  | .i8 | .f16 | .bf16 | .e4m3 | .e5m2 | .e2m1 | .bpi => true
  | _ => false

/-- The guard codes of 02 Table 2.4. -/
def Guard.ok : Guard → Bool
  | .always => true
  | .pred n _ => n < 12

/-- Virtual registers run to v983039 (15 R314); uniform registers, predicates as in 15 Table 15.2. -/
def Operand.isReg : Operand → Bool
  | .v n => n < 983040
  | .k n => n < 64
  | .p n => n < 12
  | .special _ => true
  | _ => false

/-- A source that may also be the immediate (15 Table 15.2). -/
def Operand.isSrc (o : Operand) : Bool :=
  match o with
  | .imm _ => true
  | _ => o.isReg

/-- A register destination (15 Table 15.2): a virtual register or a predicate. -/
def Operand.isDst : Operand → Bool
  | .v n => n < 983040
  | .p n => n < 12
  | _ => false

/-- A link register of CALL (18 Table 18.1). -/
def Operand.isLink : Operand → Bool
  | .v n => n < 983040
  | _ => false

/-- The destinations of MOV (20 R426): also a uniform register. -/
def Operand.isMovDst (o : Operand) : Bool :=
  match o with
  | .k n => n < 64
  | _ => o.isDst

/-- Whether the FP32 pattern `x` is exact in the float type (15 R316): NaNs, infinities and zeros
always are. -/
def f32Exact (ty : STy) (x : BitVec 32) : Bool :=
  let e := (x.toNat / 2 ^ 23) % 256
  let m := x.toNat % 2 ^ 23
  match ty with
  | .bf16 => e == 255 || m % 2 ^ 16 == 0
  | .f16 =>
    e == 255 || (e == 0 && m == 0)
      || (decide (113 ≤ e) && decide (e ≤ 142) && m % 2 ^ 13 == 0)
      || (decide (103 ≤ e) && decide (e ≤ 112) && (2 ^ 23 + m) % 2 ^ (126 - e) == 0)
  | _ => true

/-- The float immediates the encoding holds (15 R316): bits [3:0] of the pattern zero, exact. -/
def floatImmOk (ty : STy) (x : Word) : Bool :=
  x.toNat < 2 ^ 32 && x.toNat % 16 == 0 && f32Exact ty (x.setWidth 32)

/-- How many IMM and IMMHI parcels an integer immediate takes (16 R334). -/
def immParcels (x : Word) : Nat :=
  if (x.setWidth 28).signExtend 64 = x then 1
  else if (x.setWidth 56).signExtend 64 = x then 2
  else 3

/-- The immediate operands of a list. -/
def immsOf : List Operand → List Word
  | [] => []
  | .imm x :: os => x :: immsOf os
  | _ :: os => immsOf os

/-- Whether a D, A or B operand needs the REGHI parcel (15 R314). -/
def Operand.isHigh : Operand → Bool
  | .v n => 3840 ≤ n
  | _ => false

/-- Operand parcels of a form (15 R315): `dab` stand in D, A and B, `c` in SRCC; `ty` is the type by
which an immediate is read; `extra` counts the OFFS, TOK and OBJ parcels. At most three in all, and
one immediate value only. -/
def parcelsOk (ty : STy) (dab : List Operand) (c : List Operand) (extra : Nat) : Bool :=
  let imms := immsOf (dab ++ c)
  let hi := if dab.any Operand.isHigh then 1 else 0
  let im := match imms with
    | [] => 0
    | x :: _ => if ty.isFloat then 1 else immParcels x
  (match imms with
    | [] => true
    | x :: xs => xs.all (· == x) && (!ty.isFloat || floatImmOk ty x))
  && decide (hi + c.length + im + extra ≤ 3)

/-- The immediates of STT (15 R316), each read by the type of its own operand (DEDUCED, log entry 50): the indices are
integers and the value has the type of the instruction, so of a float type the one payload is read in two ways. -/
def sttImmsOk (ty : STy) (r c a : Operand) : Bool :=
  if ty.isFloat = false then parcelsOk ty [r, c] [a] 1
  else
    match immsOf [a] with
    | [] => parcelsOk .n32 [r, c] [a] 1
    | y :: _ => parcelsOk ty ([r, c].filter fun o => immsOf [o] == []) [a] 1
        && (immsOf [r, c]).all fun x => x == (BitVec.ofNat 28 (y.toNat / 16)).signExtend 64

/-- A signed byte displacement of an OFFS parcel (15 R317). -/
def dispOk (d : Int) : Bool :=
  decide (-(2 ^ 27) ≤ d) && decide (d < 2 ^ 27) && d % 4 == 0

/-- The offset and swizzle of a memory operand (15 R317). -/
def MemRef.ok (m : MemRef) : Bool :=
  m.base.isReg && m.idx.isNone &&
  match m.space with
  | .g => m.sw == 0 && decide (-(2 ^ 27) ≤ m.off) && decide (m.off < 2 ^ 27)
  | _ => decide (m.sw < 8) && decide (-(2 ^ 24) ≤ m.off) && decide (m.off < 2 ^ 24)

/-- Whether a memory operand takes an OFFS parcel (16 R334). -/
def MemRef.parcels (m : MemRef) : Nat := if m.off = 0 ∧ m.sw = 0 then 0 else 1

/-- Token indices in range. -/
def Toks.ok (t : Toks) : Bool :=
  [t.c0, t.c1, t.c2].all fun c => match c with
    | none => true
    | some n => decide (n < 16)

/-- Whether a TOK parcel names a consumed token. -/
def Toks.any (t : Toks) : Bool := t.c0.isSome || t.c1.isSome || t.c2.isSome

/-- One TOK parcel when a token is named. -/
def Toks.parcels (t : Toks) : Nat := if t.any then 1 else 0

/-- A size of 8 to 256 bytes, a multiple of 8 (18 R380). -/
def elemSizeOk (n : Nat) : Bool := decide (8 ≤ n) && decide (n ≤ 256) && n % 8 == 0

/-- The element operand as a source (ENQ). -/
def ElemForm.okSrc : ElemForm → Bool
  | .reg e => e.isReg
  | .spad e sw n => e.isReg && decide (sw < 8) && elemSizeOk n

/-- The element operand as a destination (DEQ). -/
def ElemForm.okDst : ElemForm → Bool
  | .reg e => e.isDst
  | .spad e sw n => e.isReg && decide (sw < 8) && elemSizeOk n

/-- The register that the element operand names. -/
def ElemForm.op : ElemForm → Operand
  | .reg e => e
  | .spad e _ _ => e

/-- One OBJ parcel in the scratchpad form (18 Table 18.1). -/
def ElemForm.parcels : ElemForm → Nat
  | .reg _ => 0
  | .spad _ _ _ => 1

/-- The width codes of BPI (15 R321): 2 to 8 for `.bp`, and 0 where the format is another one. -/
def bpOk (f : ETy) (p : Nat) : Bool :=
  match f with
  | .bpi => decide (2 ≤ p) && decide (p ≤ 8)
  | _ => p == 0

/-- The types each ATOM operation lists (11 Table 11.4). -/
def AtomOp.tyOk (op : AtomOp) (ty : STy) : Bool :=
  match op with
  | .add | .min | .max => ty.isArith || ty == .f32
  | .sub => ty.isArith
  | .and | .or | .xor | .xchg => ty.isBits
  | .incw | .decw => ty == .n32 || ty == .n64

/-- The types each collective operation lists (19 Table 19.2). -/
def CollOp.tyOk (op : CollOp) (ty : STy) : Bool :=
  match op with
  | .add | .min | .max => ty.isArith || ty == .f32
  | .and | .or | .xor => ty.isBits

/-- LDT and STT types (19 Table 19.5). -/
def ldtTyOk : STy → Bool
  | .i64 | .n64 | .b64 => false
  | _ => true

/-- The MMA pairs (10 Table 10.1, 20 Table 20.2), with `.unscaled` or `.sat` in `flag`. -/
def mmaPairOk (fa fb : ETy) (p q : Nat) : Bool :=
  match fa, fb with
  | .i8, .i8 | .f16, .f16 | .bf16, .bf16 | .e2m1, .e2m1 => p == 0 && q == 0
  | .e4m3, .e4m3 | .e4m3, .e5m2 | .e5m2, .e4m3 | .e5m2, .e5m2 => p == 0 && q == 0
  | .bpi, .bpi => bpOk .bpi p && bpOk .bpi q
  | _, _ => false

/-- Whether a pair accumulates as FP32. -/
def mmaIsFloat : ETy → Bool
  | .i8 | .bpi => false
  | _ => true

/-- The combinations of 17 Table 17.2. -/
def accrdOk (f : ETy) (i32 : Bool) (rm : Rounding) : Bool :=
  match i32, f with
  | false, .f32 => rm != .rs
  | false, .f16 | false, .bf16 | false, .e4m3 | false, .e5m2 | false, .e2m1 => true
  | false, .bpi => rm == .rne
  | true, .i32 | true, .i8 | true, .n8 | true, .bpi => rm == .rne
  | _, _ => false

/-- ACCWR formats (17 Table 17.1). -/
def accwrOk : ETy → Bool
  | .i32 | .b32 | .f32 | .f16 | .bf16 => true
  | _ => false

/-- Which sources a row kind takes (20 R442). -/
def rowArgsOk (k : RowKind) (r : RowArgs) : Bool :=
  r.dst.isReg && r.count.isReg &&
  match k, r.srcA, r.srcB with
  | .zero, none, none | .ones, none, none => true
  | .copy, some a, none | .not, some a, none => a.isReg
  | .and, some a, some b | .or, some a, some b | .xor, some a, some b => a.isReg && b.isReg
  | _, _, _ => false

/-- FLUSH and INVAL scopes (11 R249). -/
def flushScopeOk : Scope → Bool
  | .die | .device => true
  | _ => false

/-- COPY's arrival names an object that exists (11 Table 11.2, 18 R378). -/
def Arrival.ok : Arrival → Bool
  | .none => true
  | .tile t => t < 64
  | .bar b k => decide (b < 32) && decide (k < 8)

/-- One OBJ parcel when a COPY arrives somewhere. -/
def Arrival.parcels : Arrival → Nat
  | .none => 0
  | _ => 1

/-- The forms the Fleper encoding admits (15 R330), one line per row of the encoding tables. -/
def Instr.wf : Instr → Bool
  | .nop g _ => g.ok
  | .bra g disp => g.ok && dispOk disp
  | .brx g ty a => g.ok && (ty == .n32 || ty == .n64) && a.isReg && parcelsOk ty [a] [] 0
  | .call g d disp => g.ok && d.isLink && dispOk disp && parcelsOk .b32 [d] [] 1
  | .callx g ty d a => g.ok && (ty == .n32 || ty == .n64) && d.isLink && a.isReg
      && parcelsOk ty [d, a] [] 0
  | .ret g ty a => g.ok && (ty == .n32 || ty == .n64) && a.isReg && parcelsOk ty [a] [] 0
  | .exit g => g.ok
  | .trap g code => g.ok && decide (code < 512)
  | .trapHandler g code d disp => g.ok && decide (code < 512) && d.isDst && dispOk disp
      && parcelsOk .b32 [d] [] 2
  | .tret g => g.ok
  | .brk g code => g.ok && decide (code < 512)
  | .yield g => g.ok
  | .reform g target => g.ok && (match target with | none => true | some d => dispOk d)
  | .iadd g ty _ d a b | .isub g ty _ d a b => g.ok && ty.isArith && d.isDst && a.isSrc && b.isSrc
      && parcelsOk ty [d, a, b] [] 0
  | .imul g ty d a b | .imulhi g ty d a b | .idiv g ty d a b | .irem g ty d a b
  | .imin g ty d a b | .imax g ty d a b | .icmp g ty _ d a b => g.ok && ty.isArith && d.isDst
      && a.isSrc && b.isSrc && parcelsOk ty [d, a, b] [] 0
  | .imad g ty _ d a b c => g.ok && ty.isArith && d.isDst && a.isSrc && b.isSrc && c.isSrc
      && parcelsOk ty [d, a, b] [c] 0
  | .ineg g ty _ d a | .iabs g ty _ d a => g.ok && (ty == .i32 || ty == .i64) && d.isDst && a.isReg
      && parcelsOk ty [d, a] [] 0
  | .lea g ty sh _ d a b => g.ok && (ty == .n32 || ty == .n64) && decide (sh < 8) && d.isDst
      && a.isSrc && b.isSrc && parcelsOk ty [d, a, b] [] 0
  | .and g ty d a b | .andn g ty d a b | .or g ty d a b | .xor g ty d a b => g.ok && ty.isBits
      && d.isDst && a.isSrc && b.isSrc && parcelsOk ty [d, a, b] [] 0
  | .not g ty d a | .brev g ty d a | .clz g ty d a | .ctz g ty d a | .popc g ty d a => g.ok
      && ty.isBits && d.isDst && a.isReg && parcelsOk ty [d, a] [] 0
  | .shl g ty d a b => g.ok && (ty.isArith || ty.isBits) && d.isDst && a.isSrc && b.isSrc
      && parcelsOk ty [d, a, b] [] 0
  | .shr g ty d a b | .bfx g ty d a b => g.ok && ty.isArith && d.isDst && a.isSrc && b.isSrc
      && parcelsOk ty [d, a, b] [] 0
  | .bfi g ty d a b c | .sel g ty d a b c => g.ok && ty.isBits && d.isDst && a.isSrc && b.isSrc
      && c.isSrc && parcelsOk ty [d, a, b] [c] 0
  | .mov g ty d a => g.ok && ty.isBits && d.isMovDst && a.isSrc && parcelsOk ty [d, a] [] 0
  | .fadd g ty rm d a b | .fsub g ty rm d a b | .fmul g ty rm d a b | .fdiv g ty rm d a b =>
      g.ok && ty.isFloat && rm != .rs && d.isDst && a.isSrc && b.isSrc
      && parcelsOk ty [d, a, b] [] 0
  | .ffma g ty rm d a b c => g.ok && ty.isFloat && rm != .rs && d.isDst && a.isSrc && b.isSrc
      && c.isSrc && parcelsOk ty [d, a, b] [c] 0
  | .fsqrt g ty rm d a => g.ok && ty.isFloat && rm != .rs && d.isDst && a.isReg
      && parcelsOk ty [d, a] [] 0
  | .frcp g ty d a | .frsq g ty d a | .fexp2 g ty d a | .flog2 g ty d a | .ftanh g ty d a
  | .fclass g ty d a => g.ok && ty.isFloat && d.isDst && a.isReg && parcelsOk ty [d, a] [] 0
  | .fmin g ty d a b | .fmax g ty d a b | .fcmp g ty d a b | .fsgn g ty _ d a b => g.ok
      && ty.isFloat && d.isDst && a.isSrc && b.isSrc && parcelsOk ty [d, a, b] [] 0
  | .fcvt g dst src rm d a => g.ok && dst.isFloat && src.isFloat && dst != src
      && (rm != .rs || dst.isNarrow) && d.isDst && a.isReg && parcelsOk .b32 [d, a] [] 0
  | .fcvti g dst src rm d a => g.ok && dst.isInt && src.isFloat && (rm != .rs || dst.isNarrow)
      && d.isDst && a.isReg && parcelsOk .b32 [d, a] [] 0
  | .icvtf g dst src rm d a => g.ok && dst.isFloat && src.isInt && (rm != .rs || dst.isNarrow)
      && d.isDst && a.isReg && parcelsOk .b32 [d, a] [] 0
  | .bpenc g d a => g.ok && d.isDst && a.isReg && parcelsOk .b32 [d, a] [] 0
  | .bpdec g p d a => g.ok && bpOk .bpi p && d.isDst && a.isReg && parcelsOk .b32 [d, a] [] 0
  | .plop g tt d a b => g.ok && decide (tt < 16) && decide (d < 12) && decide (a < 12)
      && decide (b < 12)
  | .pmov g toPred p r => g.ok && decide (p < 12)
      && (match r with
          | .p _ => false
          | _ => if toPred then r.isReg else r.isDst)
      && parcelsOk .b64 [r] [] 0
  | .ballot g d a => g.ok && d.isDst && a.isReg && parcelsOk .b64 [d, a] [] 0
  | .vote g _ d a => g.ok && d.isDst && a.isReg && parcelsOk .b64 [d, a] [] 0
  | .shfl g ty _ d a b => g.ok && ty.isBits && d.isDst && a.isSrc && b.isSrc
      && parcelsOk ty [d, a, b] [] 0
  | .gred g op ty d a => g.ok && op.tyOk ty && d.isDst && a.isReg && parcelsOk .b32 [d, a] [] 0
  | .gscan g op _ ty d a => g.ok && op.tyOk ty && d.isDst && a.isReg
      && parcelsOk .b32 [d, a] [] 0
  | .ld g _ ord _ d m => g.ok && (ord == .rlx || ord == .acq) && d.isDst && m.ok
      && parcelsOk .b32 [d, m.base] [] m.parcels
  | .st g ty ord _ m a w => g.ok && (ord == .rlx || ord == .rel) && m.ok && a.isSrc && w.ok
      && (ord == .rel || !w.any) && parcelsOk ty [m.base, a] [] (m.parcels + w.parcels)
  | .ldt g ty d t r c => g.ok && ldtTyOk ty && d.isDst && decide (t < 64) && r.isSrc && c.isSrc
      && parcelsOk .n32 [d, r, c] [] 1
  | .stt g ty t r c a => g.ok && ldtTyOk ty && decide (t < 64) && r.isSrc && c.isSrc && a.isSrc
      && sttImmsOk ty r c a
  | .fence g k _ w => g.ok && w.ok && (k != .acq || !w.any)
  | .drain g _ w => g.ok && w.ok
  | .lock g d a cnt | .unlock g d a cnt => g.ok && d.isDst && a.isReg && cnt.isSrc
      && parcelsOk .n32 [d, a, cnt] [] 0
  | .atom g op ty ord _ nr d m a w => g.ok && op.tyOk ty && m.ok && a.isSrc && w.ok
      && (ord == .rel || ord == .ar || !w.any)
      && (match nr, d with
          | true, none => ord == .rlx || ord == .rel
          | false, some d => d.isDst
          | _, _ => false)
      && parcelsOk ty (d.toList ++ [m.base, a]) [] (m.parcels + w.parcels)
  | .atombadd g ty ord _ nr d q m a n w => g.ok && w.ok
      && (ord == .rel || ord == .ar || !w.any) && (ty == .n32 || ty == .n64) && decide (q < 12)
      && m.ok && a.isSrc && n.isSrc
      && (match nr, d with
          | true, none => ord == .rlx || ord == .rel
          | false, some d => d.isDst
          | _, _ => false)
      && parcelsOk ty (d.toList ++ [m.base, a]) [n] (m.parcels + w.parcels + 1)
  | .atomcas g ty ord _ d m cmp new w => g.ok && w.ok
      && (ord == .rel || ord == .ar || !w.any) && ty.isBits && d.isDst && m.ok && cmp.isSrc && new.isSrc
      && parcelsOk ty [d, m.base, cmp] [new] (m.parcels + w.parcels)
  | .enq g _ cb e => g.ok && cb.isReg && e.okSrc && parcelsOk .b64 [cb, e.op] [] e.parcels
  | .enqtry g _ d cb e => g.ok && d.isDst && cb.isReg && e.okSrc
      && parcelsOk .b64 [d, cb, e.op] [] e.parcels
  | .deq g _ cb e => g.ok && cb.isReg && e.okDst && parcelsOk .b64 [cb, e.op] [] e.parcels
  | .deqtry g _ q cb e => g.ok && decide (q < 12) && cb.isReg && e.okDst
      && parcelsOk .b64 [cb, e.op] [] 1
  | .qinit g _ cb base shape => g.ok && cb.isReg && base.isReg && shape.isReg
      && parcelsOk .b64 [cb, base] [shape] 0
  | .qstat g _ d cb => g.ok && d.isDst && cb.isReg && parcelsOk .b64 [d, cb] [] 0
  | .bararm g b dp ar by_ => g.ok && decide (b < 32) && dp.isSrc && ar.isSrc && by_.isSrc
      && parcelsOk .n32 [dp, ar] [by_] 1
  | .bararr g b k cnt => g.ok && decide (b < 32) && decide (k < 8) && cnt.isSrc
      && parcelsOk .n32 [cnt] [] 1
  | .barwait g b k => g.ok && decide (b < 32) && decide (k < 8)
  | .barrot g b => g.ok && decide (b < 32)
  | .barsync g => g.ok
  | .pollbk g _ d m => g.ok && d.isDst && m.ok && m.space == .g
      && parcelsOk .n64 [d, m.base] [] m.parcels
  | .tdecl g _ sw t sh b k => g.ok && decide (sw < 8) && decide (t < 64) && sh.isReg
      && decide (b < 32) && decide (k < 8) && parcelsOk .b64 [sh] [] 1
  | .tfree g t => g.ok && decide (t < 64)
  | .tstateRead g _ d t => g.ok && d.isDst && decide (t < 64) && parcelsOk .b64 [d] [] 1
  | .tstateReady g t => g.ok && decide (t < 64)
  | .tload g tk w src | .tstore g _ tk w src | .reduce g tk w src => g.ok && decide (tk < 16)
      && w.ok && (match src with | some a => a.isReg && parcelsOk .b32 [a] [] 1 | none => false)
  | .copy g tk w args => g.ok && decide (tk < 16) && w.ok
      && (match args with
          | some r => r.dst.isReg && r.src.isReg && r.count.isSrc && r.arrival.ok
              && parcelsOk .b32 [r.dst, r.src] [r.count] (1 + r.arrival.parcels)
          | none => false)
  | .rowop g k tk w args => g.ok && decide (tk < 16) && w.ok
      && (match args with
          | some r => rowArgsOk k r
              && parcelsOk .b32 (r.count :: r.dst :: r.srcA.toList) r.srcB.toList 1
          | none => false)
  | .flush g sc tk w a cnt | .inval g sc tk w a cnt => g.ok && flushScopeOk sc && decide (tk < 16)
      && w.ok && a.isReg && cnt.isSrc && parcelsOk .b32 [a, cnt] [] 1
  | .trig g act tk mask => g.ok && decide (tk < 16)
      && (match act, mask with
          | .filter, some m => m.isReg && parcelsOk .b32 [m] [] 1
          | .filter, none => false
          | _, none => true
          | _, some _ => false)
  | .stgw g _ idx a => g.ok && decide (idx < 8) && (match a with
      | .s n => decide (n < 64)
      | .imm x => decide (x.toNat < 16)
      | _ => false)
  | .mma g fa fb p q flag acc gl sl => g.ok && mmaPairOk fa fb p q && decide (gl < 2)
      && decide (sl < 8) && decide (acc < if flag && mmaIsFloat fa then 64 else 128)
  | .latch g f q r c lat t => g.ok && f.isMatrix && bpOk f q && r.isSrc && c.isSrc
      && decide (lat < 8) && decide (t < 64) && parcelsOk .n32 [r, c] [] 1
  | .gatherTile g f p tk gl t ix c => g.ok && f.isMatrix && bpOk f p && decide (tk < 16)
      && decide (gl < 2) && decide (t < 64) && ix.isReg && c.isSrc && parcelsOk .n32 [ix, c] [] 2
  | .gatherSpad g f p tk gl sw o => g.ok && f.isMatrix && bpOk f p && decide (tk < 16)
      && decide (gl < 2) && decide (sw < 8) && o.isReg
      && parcelsOk .n32 [o] [] (2 + if sw = 0 then 0 else 1)
  | .accscale g acc pt ta ts c o => g.ok && decide (acc < 128) && decide (pt < 64)
      && decide (ta < 64) && decide (ts < 64) && decide (1 ≤ c) && decide (c ≤ 8) && o.isReg
      && parcelsOk .n32 [o] [] 2
  | .accrd g f i32 rm t acc => g.ok && accrdOk f i32 rm && decide (t < 64) && decide (acc < 128)
  | .accwr g f acc t => g.ok && accwrOk f && decide (acc < 128) && decide (t < 64)
  | .accclr g pt n c => g.ok && decide (n < if pt then 64 else 128) && decide (1 ≤ c)
      && decide (c ≤ 8)
  | .sysrd g d a => g.ok && d.isDst && a.isSrc && parcelsOk .n64 [d, a] [] 0
  | .syswr g a b => g.ok && a.isSrc && b.isSrc && parcelsOk .n64 [a, b] [] 0
  | .clock g d | .satrd g d => g.ok && d.isDst && parcelsOk .n64 [d] [] 0
  | .satarm g => g.ok
  | .satclr g a => g.ok && a.isSrc && parcelsOk .n64 [a] [] 0
  | .groupSelect c | .issueStarvationLimit c | .powerWithhold c | .sampleTake c => decide (c < 1536)
  | .bobbinDraw c b => decide (c < 1536) && decide (b < 64)
  | .gatherComplete c gl => decide (c < 1536) && decide (gl < 2)
  | .pageWalk c _ va _ => decide (c < 1536) && decide (va < 2 ^ 64)
  | .blockPlace _ sg | .compactorMove _ sg => decide (sg < 16)
  | .faultRecordDeliver vi ctx => decide (vi < 64) && decide (ctx ≤ 256)
  | .bankRetire pc b => decide (pc < 1024) && decide (b < 32)
  | .sparingRowCopy pc => decide (pc < 1024)
  | .queuePortStart vi sl _ _ => decide (vi < 64) && decide (sl < 64)
  | .dbgCaptureWrite vi _ => decide (vi < 64)
  | .publish vi | .unpublish vi | .registerLq vi | .contextCreate vi | .contextDestroy vi
  | .shootdown vi | .service vi | .release vi | .kill vi | .stop vi | .profile vi | .treadle vi
  | .notifyTarget vi | .enrolKey vi | .attest vi | .viConfig vi | .debugAttach vi | .debugDetach vi
  | .debugResume vi | .controlWrite vi | .controlRead vi | .unknownCommand vi => decide (vi < 64)
  | .uncorrectableError _ d _ _ | .correctedError d _ _ => decide (d ≤ 10)
  | .draftCreate sl => decide (sl < 8)
  | .regionCommit | .pathRotation _ | .resultArrival _ _ | .remoteLoadReturn _ _
  | .queuePollReoffer _ | .pollbkBackoffExpire _ _ | .engineStart _ | .shuttlePiece _ _
  | .tensorPartPerform _ _ | .engineBytesArrive _ | .tokenDone _ | .rowOperationRow _
  | .blockEvict _ | .blockRetire _ | .blockHalt _ | .launchDequeue _ | .conditionalNodeEval _
  | .launchBind _ | .launchCommit _ | .deferredEnqueueAppend _ | .shadowWriteback _ _
  | .irrevocableGrant _ | .launchAbort _ | .peerDraftRequest _ | .peerDraftReceive _
  | .profileWindowJudge _ _ | .redraft _ | .sliceBoundary | .quantumBoundary | .stageRebalance _
  | .stageCoreMove _ | .thermalCapReduce _ | .thermalPowerOff | .fabricAccessReceive _
  | .fabricAccessTimeout _ | .shootdownComplete _ | .boot _ | .upstreamReset _ | .lifecycle _
  | .treadleMessageReceive _ | .treadleAct | .electionTimeout | .electionReportReceive _
  | .electionChoice | .leaderHeartbeat | .heartbeatReceive _ | .imagePushReceive _
  | .accessPerformedAtPointOfService _ | .battenGranuleReduction _ _
  | .supplyAndCoolantWithinLimits => true

end Sys2Proof
end

