-- ==== Sys2Proof/Decode.lean ====
section
/-! DEFINITION. The Fleper encoding (15): bytes to an instruction or a named refusal, and, after it,
the encoder of a well-formed instruction. Bit fields are read as `Nat` arithmetic. -/

namespace Sys2Proof

/-- Why a byte string is no Fleper instruction (15 R330). -/
inductive DecodeError where
  | truncated | opcode | typeCode | guard | scope | modifier | operand | parcel | matrixIndex
  deriving DecidableEq, Repr

/-- The `n` bits of `w` from bit `lo` up. -/
def bitsOf (w lo n : Nat) : Nat := w / 2 ^ lo % 2 ^ n

/-- `n` bits read as a two's complement number. -/
def signedOf (n w : Nat) : Int := if w < 2 ^ (n - 1) then (w : Int) else (w : Int) - 2 ^ n

/-- The low `n` bits of an integer's two's complement form. -/
def unsignedOf (n : Nat) (x : Int) : Nat := (x % 2 ^ n).toNat

/-- Little-endian bytes as a number (15 R311). -/
def leNat : List Byte → Nat
  | [] => 0
  | b :: bs => b.toNat + 256 * leNat bs

/-- A number as `n` little-endian bytes. -/
def leBytes : Nat → Nat → List Byte
  | 0, _ => []
  | n + 1, w => BitVec.ofNat 8 w :: leBytes n (w / 256)

/-- Scalar type codes (15 Table 15.6). -/
def STy.code : STy → Nat
  | .i8 => 0 | .i16 => 1 | .i32 => 2 | .i64 => 3 | .n8 => 4 | .n16 => 5 | .n32 => 6 | .n64 => 7
  | .b32 => 8 | .b64 => 9 | .f32 => 10 | .f16 => 11 | .bf16 => 12

def STy.ofCode : Nat → Option STy
  | 0 => some .i8 | 1 => some .i16 | 2 => some .i32 | 3 => some .i64 | 4 => some .n8
  | 5 => some .n16 | 6 => some .n32 | 7 => some .n64 | 8 => some .b32 | 9 => some .b64
  | 10 => some .f32 | 11 => some .f16 | 12 => some .bf16 | _ => none

/-- Element type codes (15 Table 15.6). -/
def ETy.code : ETy → Nat
  | .i8 => 0 | .n8 => 1 | .i16 => 2 | .n16 => 3 | .i32 => 4 | .n32 => 5 | .b32 => 6 | .f32 => 7
  | .f16 => 8 | .bf16 => 9 | .e4m3 => 10 | .e5m2 => 11 | .e2m1 => 12 | .e8m0 => 13 | .bpi => 14

def ETy.ofCode : Nat → Option ETy
  | 0 => some .i8 | 1 => some .n8 | 2 => some .i16 | 3 => some .n16 | 4 => some .i32
  | 5 => some .n32 | 6 => some .b32 | 7 => some .f32 | 8 => some .f16 | 9 => some .bf16
  | 10 => some .e4m3 | 11 => some .e5m2 | 12 => some .e2m1 | 13 => some .e8m0 | 14 => some .bpi
  | _ => none

def Rounding.code : Rounding → Nat
  | .rne => 0 | .rz => 1 | .ru => 2 | .rd => 3 | .rs => 4

def Rounding.ofCode : Nat → Option Rounding
  | 0 => some .rne | 1 => some .rz | 2 => some .ru | 3 => some .rd | 4 => some .rs | _ => none

def MemOrder.code : MemOrder → Nat
  | .rlx => 0 | .acq => 1 | .rel => 2 | .ar => 3

def MemOrder.ofCode : Nat → Option MemOrder
  | 0 => some .rlx | 1 => some .acq | 2 => some .rel | 3 => some .ar | _ => none

def Scope.code : Scope → Nat
  | .core => 0 | .group => 1 | .cluster => 2 | .die => 3 | .device => 4 | .host => 5 | .fabric => 6

def Scope.ofCode : Nat → Option Scope
  | 0 => some .core | 1 => some .group | 2 => some .cluster | 3 => some .die | 4 => some .device
  | 5 => some .host | 6 => some .fabric | _ => none

def Space.code : Space → Nat
  | .g => 0 | .l => 1 | .c => 2 | .w => 3

def Space.ofCode : Nat → Option Space
  | 0 => some .g | 1 => some .l | 2 => some .c | 3 => some .w | _ => none

def Cond.code : Cond → Nat
  | .eq => 0 | .ne => 1 | .lt => 2 | .le => 3 | .gt => 4 | .ge => 5

def Cond.ofCode : Nat → Option Cond
  | 0 => some .eq | 1 => some .ne | 2 => some .lt | 3 => some .le | 4 => some .gt | 5 => some .ge
  | _ => none

def AtomOp.code : AtomOp → Nat
  | .add => 0 | .sub => 1 | .min => 2 | .max => 3 | .and => 4 | .or => 5 | .xor => 6 | .xchg => 7
  | .incw => 8 | .decw => 9

def AtomOp.ofCode : Nat → Option AtomOp
  | 0 => some .add | 1 => some .sub | 2 => some .min | 3 => some .max | 4 => some .and
  | 5 => some .or | 6 => some .xor | 7 => some .xchg | 8 => some .incw | 9 => some .decw | _ => none

def CollOp.code : CollOp → Nat
  | .add => 0 | .min => 1 | .max => 2 | .and => 3 | .or => 4 | .xor => 5

def CollOp.ofCode : Nat → Option CollOp
  | 0 => some .add | 1 => some .min | 2 => some .max | 3 => some .and | 4 => some .or
  | 5 => some .xor | _ => none

def ShflMode.code : ShflMode → Nat
  | .idx => 0 | .up => 1 | .down => 2 | .xor => 3

def ShflMode.ofCode : Nat → Option ShflMode
  | 0 => some .idx | 1 => some .up | 2 => some .down | 3 => some .xor | _ => none

def VoteMode.code : VoteMode → Nat
  | .all => 0 | .any => 1 | .uni => 2

def VoteMode.ofCode : Nat → Option VoteMode
  | 0 => some .all | 1 => some .any | 2 => some .uni | _ => none

def RowKind.code : RowKind → Nat
  | .copy => 0 | .zero => 1 | .ones => 2 | .and => 3 | .or => 4 | .not => 5 | .xor => 6

def RowKind.ofCode : Nat → Option RowKind
  | 0 => some .copy | 1 => some .zero | 2 => some .ones | 3 => some .and | 4 => some .or
  | 5 => some .not | 6 => some .xor | _ => none

def FenceKind.code : FenceKind → Nat
  | .acq => 1 | .rel => 2 | .ar => 3

def FenceKind.ofCode : Nat → Option FenceKind
  | 1 => some .acq | 2 => some .rel | 3 => some .ar | _ => none

def TreadleAction.code : TreadleAction → Nat
  | .start => 1 | .stop => 2 | .filter => 3 | .freeze => 4

def TreadleAction.ofCode : Nat → Option TreadleAction
  | 1 => some .start | 2 => some .stop | 3 => some .filter | 4 => some .freeze | _ => none

/-- Virtual codes of the special registers (02 Table 2.5). -/
def Special.code : Special → Nat
  | .tidX => 0xF80 | .tidY => 0xF81 | .tidZ => 0xF82 | .bidX => 0xF84 | .bidY => 0xF85
  | .bidZ => 0xF86 | .bdimX => 0xF88 | .bdimY => 0xF89 | .bdimZ => 0xF8A | .gdimX => 0xF8C
  | .gdimY => 0xF8D | .gdimZ => 0xF8E | .lane => 0xF90 | .gid => 0xF91 | .stage => 0xF92
  | .core => 0xF93 | .cluster => 0xF94 | .die => 0xF95 | .lsn => 0xF96

def Special.ofCode : Nat → Option Special
  | 0xF80 => some .tidX | 0xF81 => some .tidY | 0xF82 => some .tidZ | 0xF84 => some .bidX
  | 0xF85 => some .bidY | 0xF86 => some .bidZ | 0xF88 => some .bdimX | 0xF89 => some .bdimY
  | 0xF8A => some .bdimZ | 0xF8C => some .gdimX | 0xF8D => some .gdimY | 0xF8E => some .gdimZ
  | 0xF90 => some .lane | 0xF91 => some .gid | 0xF92 => some .stage | 0xF93 => some .core
  | 0xF94 => some .cluster | 0xF95 => some .die | 0xF96 => some .lsn | _ => none

/-- The fields of a base word and the payloads of its parcels (15 Table 15.1, Table 15.3). -/
structure Raw where
  opc : Nat
  ty : Nat := 0
  gp : Nat := 15
  gs : Nat := 0
  sc : Nat := 0
  md : Nat := 0
  d : Nat := 0
  a : Nat := 0
  b : Nat := 0
  hi : Option Nat := none
  srcc : Option Nat := none
  imm : Option Nat := none
  immhi : Option Nat := none
  immhi2 : Option Nat := none
  offs : Option Nat := none
  tok : Option Nat := none
  obj : Option Nat := none
  deriving DecidableEq, Repr

/-- Takes one parcel of kind `k` off the front of the list (15 R315). -/
def takeParcel (k : Nat) : List Nat → Option Nat × List Nat
  | [] => (none, [])
  | p :: ps => if bitsOf p 28 4 = k then (some (bitsOf p 0 28), ps) else (none, p :: ps)

/-- The base word's fields, then the parcels in increasing kind order, IMMHI at most twice; a parcel
left over is of a reserved kind, out of order or repeated (15 R315). -/
def Raw.parse (w : Nat) (ps : List Nat) : Except DecodeError Raw :=
  let (hi, p1) := takeParcel 1 ps
  let (srcc, p2) := takeParcel 2 p1
  let (imm, p3) := takeParcel 3 p2
  let (immhi, p4) := takeParcel 4 p3
  let (immhi2, p5) := takeParcel 4 p4
  let (offs, p6) := takeParcel 5 p5
  let (tok, p7) := takeParcel 6 p6
  let (obj, p8) := takeParcel 7 p7
  if p8 = [] then
    .ok { opc := bitsOf w 54 10, ty := bitsOf w 50 4, gp := bitsOf w 46 4, gs := bitsOf w 45 1,
          sc := bitsOf w 42 3, md := bitsOf w 36 4, d := bitsOf w 24 12, a := bitsOf w 12 12,
          b := bitsOf w 0 12, hi, srcc, imm, immhi, immhi2, offs, tok, obj }
  else .error .parcel

/-- The guard (02 Table 2.4): GP 0 to 11 with its sense, 15 with sense 0 unguarded. -/
def Raw.guard (r : Raw) : Except DecodeError Guard :=
  if r.gp < 12 then .ok (.pred r.gp (r.gs == 1))
  else if r.gp = 15 ∧ r.gs = 0 then .ok .always
  else .error .guard

/-- The high bytes of D, A and B (15 Table 15.3). -/
def Raw.hD (r : Raw) : Nat := bitsOf (r.hi.getD 0) 16 8
def Raw.hA (r : Raw) : Nat := bitsOf (r.hi.getD 0) 8 8
def Raw.hB (r : Raw) : Nat := bitsOf (r.hi.getD 0) 0 8

/-- The immediate (15 R316): for a float type the FP32 pattern. -/
def Raw.immValue (r : Raw) (isFloat : Bool) : Option Word :=
  match r.imm, r.immhi, r.immhi2 with
  | none, _, _ => none
  | some x, none, none =>
    some (if isFloat then BitVec.ofNat 64 (x * 16) else (BitVec.ofNat 28 x).signExtend 64)
  | some x, some y, none =>
    if isFloat then none else some ((BitVec.ofNat 56 (x + y * 2 ^ 28)).signExtend 64)
  | some x, some y, some z =>
    if isFloat then none else some (BitVec.ofNat 64 (x + y * 2 ^ 28 + z % 256 * 2 ^ 56))
  | some _, none, some _ => none

/-- One operand code with its high byte (15 Table 15.2, R314); roles are checked by `Instr.wf`. -/
def Raw.operand (r : Raw) (isFloat : Bool) (h f : Nat) : Except DecodeError Operand :=
  if f < 0xF00 then .ok (.v (h * 3840 + f))
  else if h ≠ 0 then .error .operand
  else if f < 0xF40 then .ok (.k (f - 0xF00))
  else if f < 0xF4C then .ok (.p (f - 0xF40))
  else if f = 0xF7F then
    match r.immValue isFloat with
    | some x => .ok (.imm x)
    | none => .error .parcel
  else
    match Special.ofCode f with
    | some s => .ok (.special s)
    | none => .error .operand

/-- Which fields and parcels a form takes (15 R312, R315): `ty` the TY code where the entry fixes
it; `offs` 0 none, 1 allowed, 2 required; `tok` 0 none, 1 consumed tokens allowed, 2 a produced
token required; `md` the MOD bits the form uses. -/
structure Form where
  ty : Option Nat := some 0
  sc : Bool := false
  md : Nat := 0
  d : Bool := false
  a : Bool := false
  b : Bool := false
  c : Bool := false
  offs : Nat := 0
  tok : Nat := 0
  obj : Bool := false
  deriving DecidableEq, Repr

/-- Whether a parcel's presence suits what the form says of it. -/
def parcelFits (need : Nat) (p : Option Nat) : Bool :=
  match need, p with
  | 0, some _ => false
  | 2, none => false
  | _, _ => true

/-- The immediate's code in a field the form uses. -/
def Raw.namesImm (r : Raw) (f : Form) : Bool :=
  (f.a && r.a == 0xF7F) || (f.b && r.b == 0xF7F)
    || (match r.srcc with | some c => bitsOf c 0 12 == 0xF7F | none => false)

/-- Everything a form says about zero fields and parcels (15 R312, R315, R318, R322). A form without a register field
takes no REGHI: the rows of EXIT, BARSYNC and SATARM say XN 0, and NOP's allows no parcel but OFFS (20 R427). -/
def Raw.fits (r : Raw) (f : Form) : Except DecodeError Unit :=
  if (match f.ty with | some t => r.ty != t | none => false) then .error .typeCode
  else if !f.sc && r.sc != 0 then .error .scope
  else if r.sc == 7 then .error .scope
  else if r.md &&& f.md != r.md then .error .modifier
  else if (!f.d && (r.d != 0 || r.hD != 0)) || (!f.a && (r.a != 0 || r.hA != 0))
      || (!f.b && (r.b != 0 || r.hB != 0)) then .error .operand
  else if bitsOf (r.hi.getD 0) 24 4 != 0 || (r.hi.isSome && !f.d && !f.a && !f.b) then .error .parcel
  else if f.c != r.srcc.isSome || bitsOf (r.srcc.getD 0) 20 8 != 0 then .error .parcel
  else if r.namesImm f != r.imm.isSome then .error .parcel
  else if (r.immhi.isSome && r.imm.isNone) || 256 ≤ r.immhi2.getD 0 then .error .parcel
  else if !parcelFits f.offs r.offs || !parcelFits f.tok r.tok || f.obj != r.obj.isSome then
    .error .parcel
  else .ok ()

/-- The fields of an OBJ parcel (15 Table 15.5). -/
def Raw.x (r : Raw) : Nat := bitsOf (r.obj.getD 0) 20 8
def Raw.y (r : Raw) : Nat := bitsOf (r.obj.getD 0) 12 8
def Raw.z (r : Raw) : Nat := bitsOf (r.obj.getD 0) 4 8
def Raw.n (r : Raw) : Nat := bitsOf (r.obj.getD 0) 0 4

/-- The OBJ fields an entry leaves unused are zero (15 R319). -/
def Raw.objZero (r : Raw) (x y z n : Bool) : Except DecodeError Unit :=
  if (x && r.x != 0) || (y && r.y != 0) || (z && r.z != 0) || (n && r.n != 0) then .error .parcel
  else .ok ()

/-- One consumed entry of a TOK parcel: with V = 0 its index is zero (15 R318). -/
def tokEntry (v c : Nat) : Except DecodeError (Option Nat) :=
  if v = 1 then .ok (some c) else if c = 0 then .ok none else .error .parcel

/-- The TOK parcel: produced token and consumed tokens (15 Table 15.4). -/
def Raw.tokens (r : Raw) (produces : Bool) : Except DecodeError (Nat × Toks) :=
  let t := r.tok.getD 0
  if bitsOf t 0 8 ≠ 0 ∨ (bitsOf t 27 1 == 1) ≠ produces ∨ (!produces && bitsOf t 23 4 != 0) then
    .error .parcel
  else do
    let c0 ← tokEntry (bitsOf t 22 1) (bitsOf t 18 4)
    let c1 ← tokEntry (bitsOf t 17 1) (bitsOf t 13 4)
    let c2 ← tokEntry (bitsOf t 12 1) (bitsOf t 8 4)
    .ok (bitsOf t 23 4, { c0, c1, c2 })

/-- A required code of a table: an absent row is unassigned. -/
def need {α : Type} (e : DecodeError) : Option α → Except DecodeError α
  | some x => .ok x
  | none => .error e

/-- The memory operand of base A (15 R317). -/
def Raw.mem (r : Raw) (space : Nat) : Except DecodeError MemRef := do
  let sp ← need .opcode (Space.ofCode space)
  let base ← r.operand false r.hA r.a
  match r.offs with
  | none => .ok { space := sp, base }
  | some o =>
    match sp with
    | .g => .ok { space := .g, base, off := signedOf 28 o }
    | sp => .ok { space := sp, base, off := signedOf 25 (bitsOf o 0 25), sw := bitsOf o 25 3 }

/-- The form of an opcode (the Virtual columns of the tables that open 17 to 21). -/
def Raw.form (r : Raw) : Option Form :=
  let o := r.opc
  let d1 : Form := { ty := none, d := true, a := true }
  let d2 : Form := { ty := none, d := true, a := true, b := true }
  if o = 0x000 then some { offs := 1 }
  else if o = 0x001 then some { offs := 2 }
  else if o = 0x002 then some { ty := none, a := true }
  else if o = 0x003 then some { d := true, offs := 2 }
  else if o = 0x004 then some d1
  else if o = 0x005 then some { ty := none, a := true }
  else if o = 0x006 then some {}
  else if o = 0x007 then
    some (if r.md = 1 then { md := 1, d := true, b := true, offs := 2 } else { b := true })
  else if o = 0x008 then some {}
  else if o = 0x009 then some { b := true }
  else if o = 0x00A then some {}
  else if o = 0x00B then some (if r.md = 1 then { md := 1, offs := 2 } else {})
  else if o = 0x040 ∨ o = 0x041 then some { d2 with md := 1 }
  else if o = 0x044 then some { d2 with md := 1, c := true }
  else if o = 0x047 ∨ o = 0x048 then some { d1 with md := 1 }
  else if o = 0x04B then some { d2 with md := 7 }
  else if o = 0x04C then some { d2 with md := 15 }
  else if 0x042 ≤ o ∧ o ≤ 0x04A then some d2
  else if o = 0x084 then some d1
  else if o = 0x087 ∨ o = 0x08D then some { d2 with c := true }
  else if 0x089 ≤ o ∧ o ≤ 0x08C then some d1
  else if o = 0x08E then some d1
  else if 0x080 ≤ o ∧ o ≤ 0x08E then some d2
  else if o = 0x0C0 ∨ o = 0x0C1 ∨ o = 0x0C2 ∨ o = 0x0C4 then some { d2 with md := 7 }
  else if o = 0x0C3 then some { d2 with md := 7, c := true }
  else if o = 0x0C5 then some { d1 with md := 7 }
  else if 0x0C6 ≤ o ∧ o ≤ 0x0CA then some d1
  else if 0x0CB ≤ o ∧ o ≤ 0x0CD then some d2
  else if o = 0x0CE then some { d2 with md := 8 }
  else if o = 0x0CF then some d1
  else if (0x107 ≤ o ∧ o ≤ 0x10D) ∨ (0x117 ≤ o ∧ o ≤ 0x11D) ∨ (0x120 ≤ o ∧ o ≤ 0x127) then
    some { d1 with md := 7 }
  else if o = 0x130 then some { d1 with ty := some 14 }
  else if o = 0x131 then some { d1 with ty := some 14, md := 7 }
  else if o = 0x140 then some { d2 with ty := some 0, md := 15 }
  else if o = 0x141 then some { d1 with ty := some 9, md := 1 }
  else if o = 0x142 then some { d1 with ty := some 9 }
  else if o = 0x143 then some { d1 with ty := some 0, md := 3 }
  else if o = 0x144 then some { d2 with md := 3 }
  else if o = 0x145 then some { d1 with md := 7 }
  else if o = 0x146 then some { d1 with md := 15 }
  else if 0x180 ≤ o ∧ o ≤ 0x183 then
    some { ty := none, sc := true, md := 3, d := true, a := true, offs := 1 }
  else if 0x184 ≤ o ∧ o ≤ 0x187 then
    some { ty := none, sc := true, md := 3, a := true, b := true, offs := 1,
           tok := if r.md = 2 then 1 else 0 }
  else if o = 0x188 then some { ty := none, d := true, a := true, b := true, obj := true }
  else if o = 0x189 then some { ty := none, a := true, b := true, c := true, obj := true }
  else if o = 0x18A then some { sc := true, md := 3, tok := if r.md = 1 then 0 else 1 }
  else if o = 0x18B then some { sc := true, tok := 1 }
  else if o = 0x18C ∨ o = 0x18D then some { d2 with ty := some 6 }
  else if 0x1C0 ≤ o ∧ o ≤ 0x1EF then
    some { ty := none, sc := true, md := if o < 0x1EC then 7 else 3, d := r.md / 4 % 2 == 0,
           a := true, b := true, c := decide (0x1E8 ≤ o), offs := 1,
           tok := if 2 ≤ r.md % 4 then 1 else 0, obj := decide (0x1E8 ≤ o) && decide (o < 0x1EC) }
  else if 0x1F0 ≤ o ∧ o ≤ 0x1F3 then
    some { ty := none, sc := true, md := if r.ty = 0 then 7 else 0,
           d := o == 0x1F1 || (0x1F2 ≤ o && r.ty != 0), a := true, b := o < 0x1F2 || r.ty == 0,
           obj := o == 0x1F3 || r.ty == 0 }
  else if o = 0x1F4 then some { sc := true, a := true, b := true, c := true }
  else if o = 0x1F5 then some { sc := true, d := true, a := true }
  else if o = 0x200 then some { ty := some 6, a := true, b := true, c := true, obj := true }
  else if o = 0x201 then some { ty := some 6, a := true, obj := true }
  else if o = 0x202 ∨ o = 0x203 then some { obj := true }
  else if o = 0x204 then some {}
  else if o = 0x205 then some { ty := some 7, sc := true, md := 3, d := true, a := true, offs := 1 }
  else if o = 0x240 then some { ty := none, md := 7, a := true, obj := true }
  else if o = 0x241 then some { obj := true }
  else if o = 0x242 then some { md := 3, d := r.md < 2, obj := true }
  else if o = 0x243 ∨ o = 0x246 then some { a := true, tok := 2 }
  else if o = 0x244 then some { md := 1, a := true, tok := 2 }
  else if o = 0x245 then
    some { sc := true, md := 15, a := true, b := true, c := true, tok := 2,
           obj := r.obj.isSome }
  else if o = 0x247 then
    some { md := 7, d := true, a := true, b := r.md != 1 && r.md != 2, c := 3 ≤ r.md && r.md != 5,
           tok := 2 }
  else if o = 0x248 ∨ o = 0x249 then some { sc := true, a := true, b := true, tok := 2 }
  else if o = 0x24A then some { md := 7, a := r.md == 3, tok := 2 }
  else if (0x280 = o) ∨ (0x288 ≤ o ∧ o ≤ 0x28C) ∨ o = 0x28E then
    some { ty := none, md := 15, obj := true }
  else if o = 0x290 then some { ty := none, md := 7, a := true, b := true, obj := true }
  else if o = 0x291 then some { ty := none, md := 7, a := true, b := true, tok := 2, obj := true }
  else if o = 0x292 then some { ty := none, md := 7, a := true, offs := 1, tok := 2, obj := true }
  else if o = 0x293 then some { a := true, b := true, obj := true }
  else if o = 0x294 then some { ty := none, md := 15, obj := true }
  else if o = 0x295 then some { ty := none, obj := true }
  else if o = 0x296 then some { md := 1, obj := true }
  else if o = 0x2C0 then some { d := true, a := true }
  else if o = 0x2C1 then some { a := true, b := true }
  else if o = 0x2C2 then some { ty := some 7, d := true }
  else if o = 0x2C3 then some {}
  else if o = 0x2C4 then some { a := true }
  else if o = 0x2C5 then some { d := true }
  else none

/-- A branch displacement (15 R317). -/
def Raw.disp (r : Raw) : Int := signedOf 28 (r.offs.getD 0)

/-- A read width of BPI carried as `p - 1` (15 R321); other formats carry 0. -/
def bpWidth (f : ETy) (m : Nat) : Except DecodeError Nat :=
  match f with
  | .bpi => if 1 ≤ m ∧ m ≤ 7 then .ok (m + 1) else .error .modifier
  | _ => if m = 0 then .ok 0 else .error .modifier

/-- The old-value destination of an atomic, absent with `.nr` (17 Table 17.1). -/
def Raw.atomDest (r : Raw) : Except DecodeError (Option Operand) :=
  if r.md / 4 % 2 = 1 then .ok none else some <$> r.operand false r.hD r.d

/-- The element operand of a queue instruction held in field code `f` with high byte `h`. -/
def Raw.elem (r : Raw) (h f : Nat) : Except DecodeError ElemForm := do
  let e ← r.operand false h f
  if r.ty = 9 then .ok (.reg e)
  else if r.ty = 0 then .ok (.spad e r.md (8 * r.x))
  else .error .typeCode

/-- A predicate field (PLOP). -/
def predOf (o : Operand) : Except DecodeError Nat :=
  match o with
  | .p n => .ok n
  | _ => .error .operand

/-- The code of a TRAP or BRK: an immediate of 0 to 511. -/
def codeOf (o : Operand) : Except DecodeError Nat :=
  match o with
  | .imm x => .ok x.toNat
  | _ => .error .operand

/-- The arrival of a COPY (18 Table 18.1; 11 Table 11.2 offset 23). -/
def Raw.arrival (r : Raw) : Except DecodeError Arrival :=
  match r.obj with
  | none => .ok .none
  | some _ => do
    r.objZero false true true false
    if r.n = 1 then .ok (.tile r.x)
    else if r.n = 2 then .ok (.bar (r.x % 32) (r.x / 32))
    else .error .parcel

/-- Whether an index of a latch, an accumulator tile or a partial tile is beyond those there are: the loader names
another reason for it than for the other encodings it refuses (10 R236). -/
def Instr.matrixIndexBad : Instr → Bool
  | .mma _ fa _ _ _ flag acc gl sl =>
    decide (2 ≤ gl) || decide (8 ≤ sl) || decide ((if flag && mmaIsFloat fa then 64 else 128) ≤ acc)
  | .latch _ _ _ _ _ lat _ => decide (8 ≤ lat)
  | .gatherTile _ _ _ _ gl _ _ _ | .gatherSpad _ _ _ _ gl _ _ => decide (2 ≤ gl)
  | .accscale _ acc pt _ _ _ _ => decide (128 ≤ acc) || decide (64 ≤ pt)
  | .accrd _ _ _ _ _ acc | .accwr _ _ acc _ => decide (128 ≤ acc)
  | .accclr _ pt n _ => decide ((if pt then 64 else 128) ≤ n)
  | _ => false

/-- The instruction that fields of a known form stand for, before the check of `Instr.wf`. -/
def Raw.buildWith (r : Raw) (g : Guard) (sc : Scope) : Except DecodeError Instr :=
  let o := r.opc
  let sty := need .typeCode (STy.ofCode r.ty)
  let ety := need .typeCode (ETy.ofCode r.ty)
  let isF := match STy.ofCode r.ty with | some t => t.isFloat | none => false
  let D := r.operand false r.hD r.d
  let A := r.operand false r.hA r.a
  let B := r.operand false r.hB r.b
  let C := r.operand false (bitsOf (r.srcc.getD 0) 12 8) (bitsOf (r.srcc.getD 0) 0 12)
  let Af := r.operand isF r.hA r.a
  let Bf := r.operand isF r.hB r.b
  let Cf := r.operand isF (bitsOf (r.srcc.getD 0) 12 8) (bitsOf (r.srcc.getD 0) 0 12)
  let rm := need .modifier (Rounding.ofCode r.md)
  let ord := need .modifier (MemOrder.ofCode (r.md % 4))
  match o with
  | 0x000 =>
    if r.offs = none then .ok (.nop g false)
    else if r.offs = some 0 then .ok (.nop g true)
    else .error .parcel
  | 0x001 => .ok (.bra g r.disp)
  | 0x002 => do return .brx g (← sty) (← A)
  | 0x003 => do return .call g (← D) r.disp
  | 0x004 => do return .callx g (← sty) (← D) (← A)
  | 0x005 => do return .ret g (← sty) (← A)
  | 0x006 => .ok (.exit g)
  | 0x007 => do if r.md = 1 then return .trapHandler g (← codeOf (← B)) (← D) r.disp else return .trap g (← codeOf (← B))
  | 0x008 => .ok (.tret g)
  | 0x009 => do return .brk g (← codeOf (← B))
  | 0x00A => .ok (.yield g)
  | 0x00B => .ok (.reform g (if r.md = 1 then some r.disp else none))
  | 0x040 => do return .iadd g (← sty) (r.md == 1) (← D) (← A) (← B)
  | 0x041 => do return .isub g (← sty) (r.md == 1) (← D) (← A) (← B)
  | 0x042 => do return .imul g (← sty) (← D) (← A) (← B)
  | 0x043 => do return .imulhi g (← sty) (← D) (← A) (← B)
  | 0x044 => do return .imad g (← sty) (r.md == 1) (← D) (← A) (← B) (← C)
  | 0x045 => do return .idiv g (← sty) (← D) (← A) (← B)
  | 0x046 => do return .irem g (← sty) (← D) (← A) (← B)
  | 0x047 => do return .ineg g (← sty) (r.md == 1) (← D) (← A)
  | 0x048 => do return .iabs g (← sty) (r.md == 1) (← D) (← A)
  | 0x049 => do return .imin g (← sty) (← D) (← A) (← B)
  | 0x04A => do return .imax g (← sty) (← D) (← A) (← B)
  | 0x04B => do return .icmp g (← sty) (← need .modifier (Cond.ofCode r.md)) (← D) (← A) (← B)
  | 0x04C => do return .lea g (← sty) (r.md % 8) (r.md / 8 == 1) (← D) (← A) (← B)
  | 0x080 => do return .and g (← sty) (← D) (← A) (← B)
  | 0x081 => do return .andn g (← sty) (← D) (← A) (← B)
  | 0x082 => do return .or g (← sty) (← D) (← A) (← B)
  | 0x083 => do return .xor g (← sty) (← D) (← A) (← B)
  | 0x084 => do return .not g (← sty) (← D) (← A)
  | 0x085 => do return .shl g (← sty) (← D) (← A) (← B)
  | 0x086 => do return .shr g (← sty) (← D) (← A) (← B)
  | 0x087 => do return .bfi g (← sty) (← D) (← A) (← B) (← C)
  | 0x088 => do return .bfx g (← sty) (← D) (← A) (← B)
  | 0x089 => do return .brev g (← sty) (← D) (← A)
  | 0x08A => do return .clz g (← sty) (← D) (← A)
  | 0x08B => do return .ctz g (← sty) (← D) (← A)
  | 0x08C => do return .popc g (← sty) (← D) (← A)
  | 0x08D => do return .sel g (← sty) (← D) (← A) (← B) (← C)
  | 0x08E => do return .mov g (← sty) (← D) (← A)
  | 0x0C0 => do return .fadd g (← sty) (← rm) (← D) (← Af) (← Bf)
  | 0x0C1 => do return .fsub g (← sty) (← rm) (← D) (← Af) (← Bf)
  | 0x0C2 => do return .fmul g (← sty) (← rm) (← D) (← Af) (← Bf)
  | 0x0C3 => do return .ffma g (← sty) (← rm) (← D) (← Af) (← Bf) (← Cf)
  | 0x0C4 => do return .fdiv g (← sty) (← rm) (← D) (← Af) (← Bf)
  | 0x0C5 => do return .fsqrt g (← sty) (← rm) (← D) (← A)
  | 0x0C6 => do return .frcp g (← sty) (← D) (← A)
  | 0x0C7 => do return .frsq g (← sty) (← D) (← A)
  | 0x0C8 => do return .fexp2 g (← sty) (← D) (← A)
  | 0x0C9 => do return .flog2 g (← sty) (← D) (← A)
  | 0x0CA => do return .ftanh g (← sty) (← D) (← A)
  | 0x0CB => do return .fmin g (← sty) (← D) (← Af) (← Bf)
  | 0x0CC => do return .fmax g (← sty) (← D) (← Af) (← Bf)
  | 0x0CD => do return .fcmp g (← sty) (← D) (← Af) (← Bf)
  | 0x0CE => do return .fsgn g (← sty) (r.md == 8) (← D) (← Af) (← Bf)
  | 0x0CF => do return .fclass g (← sty) (← D) (← A)
  | 0x130 => do return .bpenc g (← D) (← A)
  | 0x131 => do return .bpdec g (← bpWidth .bpi r.md) (← D) (← A)
  | 0x140 => do return .plop g r.md (← predOf (← D)) (← predOf (← A)) (← predOf (← B))
  | 0x141 => do
    if r.md = 1 then return .pmov g true (← predOf (← D)) (← A) else
        return .pmov g false (← predOf (← A)) (← D)
  | 0x142 => do return .ballot g (← D) (← A)
  | 0x143 => do return .vote g (← need .modifier (VoteMode.ofCode r.md)) (← D) (← A)
  | 0x144 => do return .shfl g (← sty) (← need .modifier (ShflMode.ofCode r.md)) (← D) (← A) (← B)
  | 0x145 => do return .gred g (← need .modifier (CollOp.ofCode r.md)) (← sty) (← D) (← A)
  | 0x146 => do
    return .gscan g (← need .modifier (CollOp.ofCode (r.md % 8))) (r.md / 8 == 1) (← sty)
        (← D) (← A)
  | 0x188 => do
    r.objZero false true true true
    return .ldt g (← sty) (← D) r.x (← A) (← B)
  | 0x189 => do
    r.objZero false true true true
    return .stt g (← sty) r.x (← A) (← B) (← Cf)
  | 0x18A => do return .fence g (← need .modifier (FenceKind.ofCode r.md)) sc (← r.tokens false).2
  | 0x18B => do return .drain g sc (← r.tokens false).2
  | 0x18C => do return .lock g (← D) (← A) (← B)
  | 0x18D => do return .unlock g (← D) (← A) (← B)
  | 0x1F0 => do
    r.objZero false true true true
    return .enq g sc (← A) (← r.elem r.hB r.b)
  | 0x1F1 => do
    r.objZero false true true true
    return .enqtry g sc (← D) (← A) (← r.elem r.hB r.b)
  | 0x1F2 => do
    r.objZero false true true true
    return .deq g sc (← A) (← if r.ty = 9 then r.elem r.hD r.d else r.elem r.hB r.b)
  | 0x1F3 => do
    r.objZero (r.ty == 9) true true false
    return .deqtry g sc r.n (← A) (← if r.ty = 9 then r.elem r.hD r.d else r.elem r.hB r.b)
  | 0x1F4 => do return .qinit g sc (← A) (← B) (← C)
  | 0x1F5 => do return .qstat g sc (← D) (← A)
  | 0x200 => do
    r.objZero false true true true
    return .bararm g r.x (← A) (← B) (← C)
  | 0x201 => do
    r.objZero false true true false
    return .bararr g r.x r.n (← A)
  | 0x202 => do
    r.objZero false true true false
    return .barwait g r.x r.n
  | 0x203 => do
    r.objZero false true true true
    return .barrot g r.x
  | 0x204 => .ok (.barsync g)
  | 0x205 => do if r.md = 1 then return .pollbk g sc (← D) (← r.mem 0) else .error .modifier
  | 0x240 => do
    r.objZero false false true false
    return .tdecl g (← ety) r.md r.x (← A) r.y r.n
  | 0x241 => do
    r.objZero false true true true
    return .tfree g r.x
  | 0x242 => do
    r.objZero false true true true
    if r.md < 2 then return .tstateRead g (r.md == 1) (← D) r.x
    else if r.md = 2 then return .tstateReady g r.x
    else .error .modifier
  | 0x243 => do
    let (tk, w) ← r.tokens true
    return .tload g tk w (some (← A))
  | 0x244 => do
    let (tk, w) ← r.tokens true
    return .tstore g (r.md == 1) tk w (some (← A))
  | 0x245 => do
    let (tk, w) ← r.tokens true
    let ds ← need .modifier (Space.ofCode (r.md % 4))
    let ss ← need .modifier (Space.ofCode (r.md / 4))
    return .copy g tk w (some { scope := sc, dstSpace := ds, srcSpace := ss, dst := ← A, src := ← B,
                                count := ← C, arrival := ← r.arrival })
  | 0x246 => do
    let (tk, w) ← r.tokens true
    return .reduce g tk w (some (← A))
  | 0x247 => do
    let (tk, w) ← r.tokens true
    let k ← need .modifier (RowKind.ofCode r.md)
    let sa ← if r.md = 1 ∨ r.md = 2 then .ok none else some <$> B
    let sb ← if r.srcc.isSome then some <$> C else .ok none
    return .rowop g k tk w (some { dst := ← A, srcA := sa, srcB := sb, count := ← D })
  | 0x248 => do
    let (tk, w) ← r.tokens true
    return .flush g sc tk w (← A) (← B)
  | 0x249 => do
    let (tk, w) ← r.tokens true
    return .inval g sc tk w (← A) (← B)
  | 0x24A => do
    let (tk, w) ← r.tokens true
    let act ← need .modifier (TreadleAction.ofCode r.md)
    if w.any then .error .parcel
    else return .trig g act tk (← if r.md = 3 then some <$> A else .ok none)
  | 0x290 => do
    r.objZero false false true true
    let f ← ety
    return .latch g f (← bpWidth f r.md) (← A) (← B) r.x r.y
  | 0x291 => do
    r.objZero false false true true
    let f ← ety
    let (tk, w) ← r.tokens true
    if w.any then .error .parcel
    else return .gatherTile g f (← bpWidth f r.md) tk r.x r.y (← A) (← B)
  | 0x292 => do
    r.objZero false true true true
    let f ← ety
    let (tk, w) ← r.tokens true
    if w.any ∨ bitsOf (r.offs.getD 0) 0 25 ≠ 0 then .error .parcel
    else return .gatherSpad g f (← bpWidth f r.md) tk r.x (bitsOf (r.offs.getD 0) 25 3) (← A)
  | 0x293 => do
    match ← B with
    | .imm x => return .accscale g r.x r.y r.z x.toNat (r.n + 1) (← A)
    | _ => .error .operand
  | 0x294 => do
    r.objZero false false true true
    return .accrd g (← ety) (r.md / 8 == 1) (← need .modifier (Rounding.ofCode (r.md % 8))) r.x r.y
  | 0x295 => do
    r.objZero false false true true
    return .accwr g (← ety) r.x r.y
  | 0x296 => do
    r.objZero false true true false
    return .accclr g (r.md == 1) r.x (r.n + 1)
  | 0x2C0 => do return .sysrd g (← D) (← A)
  | 0x2C1 => do return .syswr g (← A) (← B)
  | 0x2C2 => do return .clock g (← D)
  | 0x2C3 => .ok (.satarm g)
  | 0x2C4 => do return .satclr g (← A)
  | 0x2C5 => do return .satrd g (← D)
  | _ =>
    if 0x180 ≤ o ∧ o ≤ 0x183 then return .ld g (← sty) (← ord) sc (← D) (← r.mem (o - 0x180))
    else if 0x184 ≤ o ∧ o ≤ 0x187 then
      return .st g (← sty) (← ord) sc (← r.mem (o - 0x184)) (← Bf) (← r.tokens false).2
    else if 0x1C0 ≤ o ∧ o ≤ 0x1E7 then
      return .atom g (← need .opcode (AtomOp.ofCode ((o - 0x1C0) / 4))) (← sty) (← ord) sc
        (4 ≤ r.md) (← r.atomDest) (← r.mem (o % 4)) (← Bf) (← r.tokens false).2
    else if 0x1E8 ≤ o ∧ o ≤ 0x1EB then do
      r.objZero true true true false
      return .atombadd g (← sty) (← ord) sc (4 ≤ r.md) (← r.atomDest) r.n (← r.mem (o % 4)) (← B)
        (← C) (← r.tokens false).2
    else if 0x1EC ≤ o ∧ o ≤ 0x1EF then
      return .atomcas g (← sty) (← ord) sc (← D) (← r.mem (o % 4)) (← B) (← C)
        (← r.tokens false).2
    else if 0x107 ≤ o ∧ o ≤ 0x10D then
      return .fcvt g (← ety) (← need .opcode (ETy.ofCode (o % 16))) (← rm) (← D) (← A)
    else if 0x117 ≤ o ∧ o ≤ 0x11D then
      return .fcvti g (← sty) (← need .opcode (ETy.ofCode (o % 16))) (← rm) (← D) (← A)
    else if 0x120 ≤ o ∧ o ≤ 0x127 then
      return .icvtf g (← ety) (← need .opcode (STy.ofCode (o % 16))) (← rm) (← D) (← A)
    else if 0x280 ≤ o ∧ o ≤ 0x28E then do
      let fa ← ety
      let fb ← need .opcode (ETy.ofCode (o % 16))
      return .mma g fa fb (← bpWidth fa (r.md % 8)) (← bpWidth fb r.n) (r.md / 8 == 1) r.x r.y r.z
    else .error .opcode

/-- `Raw.buildWith` with the guard and the scope read. -/
def Raw.build (r : Raw) : Except DecodeError Instr := do
  r.buildWith (← r.guard) (← need .scope (Scope.ofCode r.sc))

/-- The fields of a Fleper instruction to the instruction, or the reason there is none. -/
def Raw.instr (r : Raw) : Except DecodeError Instr :=
  match r.form with
  | none => .error .opcode
  | some f => do
    r.fits f
    let i ← r.build
    if i.wf then .ok i else .error (if i.matrixIndexBad then .matrixIndex else .operand)

/-- The parcels that follow a base word: `n` little-endian 32-bit words. -/
def takeWords : Nat → List Byte → Option (List Nat)
  | 0, _ => some []
  | n + 1, b0 :: b1 :: b2 :: b3 :: bs =>
    match takeWords n bs with
    | some ws => some (leNat [b0, b1, b2, b3] :: ws)
    | none => none
  | _ + 1, _ => none

/-- A Fleper instruction at the front of a byte string, with its length of 8 + 4 x XN bytes
(15 R311). -/
def decode (bs : List Byte) : Except DecodeError (Instr × Nat) :=
  match takeWords 2 bs with
  | some [lo, hi] =>
    let w := lo + hi * 2 ^ 32
    let xn := bitsOf w 40 2
    match takeWords xn (bs.drop 8) with
    | none => .error .truncated
    | some ps => do
      let r ← Raw.parse w ps
      let i ← r.instr
      .ok (i, 8 + 4 * xn)
  | _ => .error .truncated

/-- The low operand code (15 Table 15.2). -/
def Operand.low : Operand → Nat
  | .v n => n % 3840
  | .k n => 0xF00 + n
  | .p n => 0xF40 + n
  | .imm _ => 0xF7F
  | .special r => r.code
  | _ => 0

/-- The high byte (15 R314). -/
def Operand.high : Operand → Nat
  | .v n => n / 3840
  | _ => 0

/-- An absent operand leaves its field zero. -/
def lowOf : Option Operand → Nat
  | some o => o.low
  | none => 0

def highOf : Option Operand → Nat
  | some o => o.high
  | none => 0

/-- The immediate value among the sources, if one is an immediate. -/
def immOf : List (Option Operand) → Option Word
  | [] => none
  | some (.imm x) :: _ => some x
  | _ :: os => immOf os

def Guard.gp : Guard → Nat
  | .always => 15
  | .pred n _ => n

def Guard.gs : Guard → Nat
  | .pred _ true => 1
  | _ => 0

/-- Fields and parcels from operands (16 R334): REGHI only for a register above v3839, the fewest
IMM and IMMHI parcels. `isF` says that immediates are float patterns. -/
def Raw.of (opc : Nat) (g : Guard) (ty : Nat := 0) (sc : Nat := 0) (md : Nat := 0)
    (isF : Bool := false) (d a b c : Option Operand := none)
    (offs tok obj : Option Nat := none) : Raw :=
  let x := immOf [c, b, a]
  let n := match x with
    | none => 0
    | some v => if isF then 1 else immParcels v
  let v := (x.getD 0).toNat
  let hi := highOf d * 2 ^ 16 + highOf a * 2 ^ 8 + highOf b
  { opc, ty, gp := g.gp, gs := g.gs, sc, md, d := lowOf d, a := lowOf a, b := lowOf b
    hi := if hi = 0 then none else some hi
    srcc := match c with
      | none => none
      | some o => some (o.high * 2 ^ 12 + o.low)
    imm := if n = 0 then none else some (if isF then v / 16 else v % 2 ^ 28)
    immhi := if n < 2 then none else some (v / 2 ^ 28 % 2 ^ 28)
    immhi2 := if n < 3 then none else some (v / 2 ^ 56)
    offs, tok, obj }

/-- An OBJ payload. -/
def objOf (x : Nat) (y : Nat := 0) (z : Nat := 0) (n : Nat := 0) : Option Nat :=
  some (x * 2 ^ 20 + y * 2 ^ 12 + z * 2 ^ 4 + n)

/-- One consumed entry: V with its index. -/
def entryOf : Option Nat → Nat
  | some c => 16 + c
  | none => 0

/-- The consumed entries of a TOK payload. -/
def Toks.payload (t : Toks) : Nat :=
  entryOf t.c0 * 2 ^ 18 + entryOf t.c1 * 2 ^ 13 + entryOf t.c2 * 2 ^ 8

/-- A TOK parcel of consumed tokens only, present when a token is named. -/
def Toks.parcel (t : Toks) : Option Nat := if t.any then some t.payload else none

/-- A TOK parcel with a produced token. -/
def tokOf (tk : Nat) (t : Toks := {}) : Option Nat := some (2 ^ 27 + tk * 2 ^ 23 + t.payload)

/-- A displacement parcel. -/
def dispOf (d : Int) : Option Nat := some (unsignedOf 28 d)

/-- The OFFS parcel of a memory operand (15 R317). -/
def MemRef.offs (m : MemRef) : Option Nat :=
  if m.off = 0 ∧ m.sw = 0 then none
  else match m.space with
    | .g => some (unsignedOf 28 m.off)
    | _ => some (m.sw * 2 ^ 25 + unsignedOf 25 m.off)

def ElemForm.ty : ElemForm → Nat
  | .reg _ => 9
  | .spad _ _ _ => 0

def ElemForm.md : ElemForm → Nat
  | .reg _ => 0
  | .spad _ sw _ => sw

/-- The size field X of a queue instruction's OBJ parcel. -/
def ElemForm.x : ElemForm → Nat
  | .reg _ => 0
  | .spad _ _ n => n / 8

/-- The element register where the form takes it as a destination, and as a source. -/
def ElemForm.dst : ElemForm → Option Operand
  | .reg e => some e
  | .spad _ _ _ => none

def ElemForm.src : ElemForm → Option Operand
  | .reg _ => none
  | .spad e _ _ => some e

def ElemForm.obj : ElemForm → Option Nat
  | .reg _ => none
  | e => objOf e.x

/-- The MOD value of a BPI width: `p - 1`, or 0 for other formats (15 R321). -/
def bpCode (p : Nat) : Nat := p - 1

def flag (b : Bool) (v : Nat) : Nat := if b then v else 0

/-- The arrival kind and index of a COPY. -/
def Arrival.obj : Arrival → Option Nat
  | .none => Option.none
  | .tile t => objOf t 0 0 1
  | .bar b k => objOf (k * 32 + b) 0 0 2

/-- The fields of a well-formed Fleper instruction; `none` for what has no Fleper encoding. -/
def Instr.raw : Instr → Option Raw
  | .nop g pad => some (.of 0x000 g (offs := if pad then some 0 else none))
  | .bra g disp => some (.of 0x001 g (offs := dispOf disp))
  | .brx g ty a => some (.of 0x002 g (ty := ty.code) (a := a))
  | .call g d disp => some (.of 0x003 g (d := d) (offs := dispOf disp))
  | .callx g ty d a => some (.of 0x004 g (ty := ty.code) (d := d) (a := a))
  | .ret g ty a => some (.of 0x005 g (ty := ty.code) (a := a))
  | .exit g => some (.of 0x006 g)
  | .trap g code => some (.of 0x007 g (b := some (.imm (BitVec.ofNat 64 code))))
  | .trapHandler g code d disp =>
    some (.of 0x007 g (md := 1) (d := d) (b := some (.imm (BitVec.ofNat 64 code)))
      (offs := dispOf disp))
  | .tret g => some (.of 0x008 g)
  | .brk g code => some (.of 0x009 g (b := some (.imm (BitVec.ofNat 64 code))))
  | .yield g => some (.of 0x00A g)
  | .reform g none => some (.of 0x00B g)
  | .reform g (some t) => some (.of 0x00B g (md := 1) (offs := dispOf t))
  | .iadd g ty sat d a b =>
    some (.of 0x040 g (ty := ty.code) (md := flag sat 1) (d := d) (a := a) (b := b))
  | .isub g ty sat d a b =>
    some (.of 0x041 g (ty := ty.code) (md := flag sat 1) (d := d) (a := a) (b := b))
  | .imul g ty d a b => some (.of 0x042 g (ty := ty.code) (d := d) (a := a) (b := b))
  | .imulhi g ty d a b => some (.of 0x043 g (ty := ty.code) (d := d) (a := a) (b := b))
  | .imad g ty sat d a b c =>
    some (.of 0x044 g (ty := ty.code) (md := flag sat 1) (d := d) (a := a) (b := b) (c := c))
  | .idiv g ty d a b => some (.of 0x045 g (ty := ty.code) (d := d) (a := a) (b := b))
  | .irem g ty d a b => some (.of 0x046 g (ty := ty.code) (d := d) (a := a) (b := b))
  | .ineg g ty sat d a => some (.of 0x047 g (ty := ty.code) (md := flag sat 1) (d := d) (a := a))
  | .iabs g ty sat d a => some (.of 0x048 g (ty := ty.code) (md := flag sat 1) (d := d) (a := a))
  | .imin g ty d a b => some (.of 0x049 g (ty := ty.code) (d := d) (a := a) (b := b))
  | .imax g ty d a b => some (.of 0x04A g (ty := ty.code) (d := d) (a := a) (b := b))
  | .icmp g ty c d a b =>
    some (.of 0x04B g (ty := ty.code) (md := c.code) (d := d) (a := a) (b := b))
  | .lea g ty sh sx d a b =>
    some (.of 0x04C g (ty := ty.code) (md := sh + flag sx 8) (d := d) (a := a) (b := b))
  | .and g ty d a b => some (.of 0x080 g (ty := ty.code) (d := d) (a := a) (b := b))
  | .andn g ty d a b => some (.of 0x081 g (ty := ty.code) (d := d) (a := a) (b := b))
  | .or g ty d a b => some (.of 0x082 g (ty := ty.code) (d := d) (a := a) (b := b))
  | .xor g ty d a b => some (.of 0x083 g (ty := ty.code) (d := d) (a := a) (b := b))
  | .not g ty d a => some (.of 0x084 g (ty := ty.code) (d := d) (a := a))
  | .shl g ty d a b => some (.of 0x085 g (ty := ty.code) (d := d) (a := a) (b := b))
  | .shr g ty d a b => some (.of 0x086 g (ty := ty.code) (d := d) (a := a) (b := b))
  | .bfi g ty d a b c => some (.of 0x087 g (ty := ty.code) (d := d) (a := a) (b := b) (c := c))
  | .bfx g ty d a b => some (.of 0x088 g (ty := ty.code) (d := d) (a := a) (b := b))
  | .brev g ty d a => some (.of 0x089 g (ty := ty.code) (d := d) (a := a))
  | .clz g ty d a => some (.of 0x08A g (ty := ty.code) (d := d) (a := a))
  | .ctz g ty d a => some (.of 0x08B g (ty := ty.code) (d := d) (a := a))
  | .popc g ty d a => some (.of 0x08C g (ty := ty.code) (d := d) (a := a))
  | .sel g ty d a b c => some (.of 0x08D g (ty := ty.code) (d := d) (a := a) (b := b) (c := c))
  | .mov g ty d a => some (.of 0x08E g (ty := ty.code) (d := d) (a := a))
  | .fadd g ty rm d a b =>
    some (.of 0x0C0 g (ty := ty.code) (md := rm.code) (isF := true) (d := d) (a := a) (b := b))
  | .fsub g ty rm d a b =>
    some (.of 0x0C1 g (ty := ty.code) (md := rm.code) (isF := true) (d := d) (a := a) (b := b))
  | .fmul g ty rm d a b =>
    some (.of 0x0C2 g (ty := ty.code) (md := rm.code) (isF := true) (d := d) (a := a) (b := b))
  | .ffma g ty rm d a b c => some (.of 0x0C3 g (ty := ty.code) (md := rm.code) (isF := true)
      (d := d) (a := a) (b := b) (c := c))
  | .fdiv g ty rm d a b =>
    some (.of 0x0C4 g (ty := ty.code) (md := rm.code) (isF := true) (d := d) (a := a) (b := b))
  | .fsqrt g ty rm d a => some (.of 0x0C5 g (ty := ty.code) (md := rm.code) (d := d) (a := a))
  | .frcp g ty d a => some (.of 0x0C6 g (ty := ty.code) (d := d) (a := a))
  | .frsq g ty d a => some (.of 0x0C7 g (ty := ty.code) (d := d) (a := a))
  | .fexp2 g ty d a => some (.of 0x0C8 g (ty := ty.code) (d := d) (a := a))
  | .flog2 g ty d a => some (.of 0x0C9 g (ty := ty.code) (d := d) (a := a))
  | .ftanh g ty d a => some (.of 0x0CA g (ty := ty.code) (d := d) (a := a))
  | .fmin g ty d a b =>
    some (.of 0x0CB g (ty := ty.code) (isF := true) (d := d) (a := a) (b := b))
  | .fmax g ty d a b =>
    some (.of 0x0CC g (ty := ty.code) (isF := true) (d := d) (a := a) (b := b))
  | .fcmp g ty d a b =>
    some (.of 0x0CD g (ty := ty.code) (isF := true) (d := d) (a := a) (b := b))
  | .fsgn g ty x d a b =>
    some (.of 0x0CE g (ty := ty.code) (md := flag x 8) (isF := true) (d := d) (a := a) (b := b))
  | .fclass g ty d a => some (.of 0x0CF g (ty := ty.code) (d := d) (a := a))
  | .fcvt g dst src rm d a =>
    some (.of (0x100 + src.code) g (ty := dst.code) (md := rm.code) (d := d) (a := a))
  | .fcvti g dst src rm d a =>
    some (.of (0x110 + src.code) g (ty := dst.code) (md := rm.code) (d := d) (a := a))
  | .icvtf g dst src rm d a =>
    some (.of (0x120 + src.code) g (ty := dst.code) (md := rm.code) (d := d) (a := a))
  | .bpenc g d a => some (.of 0x130 g (ty := 14) (d := d) (a := a))
  | .bpdec g p d a => some (.of 0x131 g (ty := 14) (md := bpCode p) (d := d) (a := a))
  | .plop g tt d a b =>
    some (.of 0x140 g (md := tt) (d := some (.p d)) (a := some (.p a)) (b := some (.p b)))
  | .pmov g true p r => some (.of 0x141 g (ty := 9) (md := 1) (d := some (.p p)) (a := r))
  | .pmov g false p r => some (.of 0x141 g (ty := 9) (d := r) (a := some (.p p)))
  | .ballot g d a => some (.of 0x142 g (ty := 9) (d := d) (a := a))
  | .vote g m d a => some (.of 0x143 g (md := m.code) (d := d) (a := a))
  | .shfl g ty m d a b =>
    some (.of 0x144 g (ty := ty.code) (md := m.code) (d := d) (a := a) (b := b))
  | .gred g op ty d a => some (.of 0x145 g (ty := ty.code) (md := op.code) (d := d) (a := a))
  | .gscan g op ex ty d a =>
    some (.of 0x146 g (ty := ty.code) (md := op.code + flag ex 8) (d := d) (a := a))
  | .ld g ty ord sc d m => some (.of (0x180 + m.space.code) g (ty := ty.code) (sc := sc.code)
      (md := ord.code) (d := d) (a := m.base) (offs := m.offs))
  | .st g ty ord sc m a w => some (.of (0x184 + m.space.code) g (ty := ty.code) (sc := sc.code)
      (md := ord.code) (isF := ty.isFloat) (a := m.base) (b := a) (offs := m.offs)
      (tok := w.parcel))
  | .ldt g ty d t r c =>
    some (.of 0x188 g (ty := ty.code) (d := d) (a := r) (b := c) (obj := objOf t))
  | .stt g ty t r c a => some (.of 0x189 g (ty := ty.code) (isF := ty.isFloat && immsOf [a] != [])
      (a := r) (b := c) (c := a) (obj := objOf t))
  | .fence g k sc w => some (.of 0x18A g (sc := sc.code) (md := k.code) (tok := w.parcel))
  | .drain g sc w => some (.of 0x18B g (sc := sc.code) (tok := w.parcel))
  | .lock g d a c => some (.of 0x18C g (ty := 6) (d := d) (a := a) (b := c))
  | .unlock g d a c => some (.of 0x18D g (ty := 6) (d := d) (a := a) (b := c))
  | .atom g op ty ord sc nr d m a w => some (.of (0x1C0 + 4 * op.code + m.space.code) g
      (ty := ty.code) (sc := sc.code) (md := ord.code + flag nr 4) (isF := ty.isFloat) (d := d)
      (a := m.base) (b := a) (offs := m.offs) (tok := w.parcel))
  | .atombadd g ty ord sc nr d q m a n w => some (.of (0x1E8 + m.space.code) g (ty := ty.code)
      (sc := sc.code) (md := ord.code + flag nr 4) (d := d) (a := m.base) (b := a) (c := n)
      (offs := m.offs) (tok := w.parcel) (obj := objOf 0 0 0 q))
  | .atomcas g ty ord sc d m a n w => some (.of (0x1EC + m.space.code) g (ty := ty.code)
      (sc := sc.code) (md := ord.code) (d := d) (a := m.base) (b := a) (c := n) (offs := m.offs)
      (tok := w.parcel))
  | .enq g sc cb e =>
    some (.of 0x1F0 g (ty := e.ty) (sc := sc.code) (md := e.md) (a := cb) (b := e.op)
      (obj := e.obj))
  | .enqtry g sc d cb e =>
    some (.of 0x1F1 g (ty := e.ty) (sc := sc.code) (md := e.md) (d := d) (a := cb) (b := e.op)
      (obj := e.obj))
  | .deq g sc cb e =>
    some (.of 0x1F2 g (ty := e.ty) (sc := sc.code) (md := e.md) (d := e.dst) (a := cb) (b := e.src)
      (obj := e.obj))
  | .deqtry g sc q cb e =>
    some (.of 0x1F3 g (ty := e.ty) (sc := sc.code) (md := e.md) (d := e.dst) (a := cb) (b := e.src)
      (obj := objOf e.x 0 0 q))
  | .qinit g sc cb b s => some (.of 0x1F4 g (sc := sc.code) (a := cb) (b := b) (c := s))
  | .qstat g sc d cb => some (.of 0x1F5 g (sc := sc.code) (d := d) (a := cb))
  | .bararm g b dp ar by_ =>
    some (.of 0x200 g (ty := 6) (a := dp) (b := ar) (c := by_) (obj := objOf b))
  | .bararr g b k c => some (.of 0x201 g (ty := 6) (a := c) (obj := objOf b 0 0 k))
  | .barwait g b k => some (.of 0x202 g (obj := objOf b 0 0 k))
  | .barrot g b => some (.of 0x203 g (obj := objOf b))
  | .barsync g => some (.of 0x204 g)
  | .pollbk g sc d m =>
    some (.of 0x205 g (ty := 7) (sc := sc.code) (md := 1) (d := d) (a := m.base) (offs := m.offs))
  | .tdecl g f sw t sh b k =>
    some (.of 0x240 g (ty := f.code) (md := sw) (a := sh) (obj := objOf t b 0 k))
  | .tfree g t => some (.of 0x241 g (obj := objOf t))
  | .tstateRead g w d t => some (.of 0x242 g (md := flag w 1) (d := d) (obj := objOf t))
  | .tstateReady g t => some (.of 0x242 g (md := 2) (obj := objOf t))
  | .tload g tk w src => some (.of 0x243 g (a := src) (tok := tokOf tk w))
  | .tstore g rel tk w src => some (.of 0x244 g (md := flag rel 1) (a := src) (tok := tokOf tk w))
  | .copy g tk w (some r) => some (.of 0x245 g (sc := r.scope.code)
      (md := r.dstSpace.code + 4 * r.srcSpace.code) (a := r.dst) (b := r.src) (c := r.count)
      (tok := tokOf tk w) (obj := r.arrival.obj))
  | .reduce g tk w src => some (.of 0x246 g (a := src) (tok := tokOf tk w))
  | .rowop g k tk w (some r) => some (.of 0x247 g (md := k.code) (d := r.count) (a := r.dst)
      (b := r.srcA) (c := r.srcB) (tok := tokOf tk w))
  | .flush g sc tk w a c => some (.of 0x248 g (sc := sc.code) (a := a) (b := c) (tok := tokOf tk w))
  | .inval g sc tk w a c => some (.of 0x249 g (sc := sc.code) (a := a) (b := c) (tok := tokOf tk w))
  | .trig g act tk m => some (.of 0x24A g (md := act.code) (a := m) (tok := tokOf tk))
  | .mma g fa fb p q fl acc gl sl => some (.of (0x280 + fb.code) g (ty := fa.code)
      (md := bpCode p + flag fl 8) (obj := objOf acc gl sl (bpCode q)))
  | .latch g f q r c lat t => some (.of 0x290 g (ty := f.code) (md := bpCode q) (a := r) (b := c)
      (obj := objOf lat t))
  | .gatherTile g f p tk gl t ix c => some (.of 0x291 g (ty := f.code) (md := bpCode p) (a := ix)
      (b := c) (tok := tokOf tk) (obj := objOf gl t))
  | .gatherSpad g f p tk gl sw o => some (.of 0x292 g (ty := f.code) (md := bpCode p) (a := o)
      (offs := if sw = 0 then none else some (sw * 2 ^ 25)) (tok := tokOf tk) (obj := objOf gl))
  | .accscale g acc pt ta ts c o => some (.of 0x293 g (a := o)
      (b := some (.imm (BitVec.ofNat 64 ts))) (obj := objOf acc pt ta (c - 1)))
  | .accrd g f i rm t acc =>
    some (.of 0x294 g (ty := f.code) (md := rm.code + flag i 8) (obj := objOf t acc))
  | .accwr g f acc t => some (.of 0x295 g (ty := f.code) (obj := objOf acc t))
  | .accclr g pt n c => some (.of 0x296 g (md := flag pt 1) (obj := objOf n 0 0 (c - 1)))
  | .sysrd g d a => some (.of 0x2C0 g (d := d) (a := a))
  | .syswr g a b => some (.of 0x2C1 g (a := a) (b := b))
  | .clock g d => some (.of 0x2C2 g (ty := 7) (d := d))
  | .satarm g => some (.of 0x2C3 g)
  | .satclr g a => some (.of 0x2C4 g (a := a))
  | .satrd g d => some (.of 0x2C5 g (d := d))
  | _ => none

/-- The parcels of an instruction, in increasing kind order. -/
def Raw.parcels (r : Raw) : List Nat :=
  let one (k : Nat) (p : Option Nat) : List Nat :=
    match p with
    | some x => [k * 2 ^ 28 + x]
    | none => []
  one 1 r.hi ++ one 2 r.srcc ++ one 3 r.imm ++ one 4 r.immhi ++ one 4 r.immhi2 ++ one 5 r.offs
    ++ one 6 r.tok ++ one 7 r.obj

/-- The base word (15 Table 15.1). -/
def Raw.base (r : Raw) : Nat :=
  r.opc * 2 ^ 54 + r.ty * 2 ^ 50 + r.gp * 2 ^ 46 + r.gs * 2 ^ 45 + r.sc * 2 ^ 42
    + r.parcels.length * 2 ^ 40 + r.md * 2 ^ 36 + r.d * 2 ^ 24 + r.a * 2 ^ 12 + r.b

/-- The bytes of 32-bit words, little-endian. -/
def wordsBytes : List Nat → List Byte
  | [] => []
  | w :: ws => leBytes 4 w ++ wordsBytes ws

/-- The bytes as they lie in memory (15 R311). -/
def Raw.bytes (r : Raw) : List Byte := leBytes 8 r.base ++ wordsBytes r.parcels

/-- The bytes of an instruction: those of its Fleper encoding. -/
def encode (i : Instr) : Option (List Byte) :=
  match i.raw with
  | some r => some r.bytes
  | none => none

/-- The instruction the decoder reads from an instruction of `nbits` bits with the value `w`, bit 0
the least significant bit of the first byte, and zeros above, up to the longest of 20 bytes. -/
def decodeTableWord (nbits w : Nat) : Option Instr :=
  match decode (leBytes 20 (w % 2 ^ nbits)) with
  | .ok (i, _) => some i
  | .error _ => none

end Sys2Proof
end

