-- ==== Sys2Proof/Machine/Maps.lean ====
section
/-! DEFINITION. Sparse storage as plain data: lists of pairs with strictly rising keys. `AMap` holds
what is present; `Cells` holds words of which an unlisted one reads as zero and a zero is never
listed, so that equal contents are equal lists. -/

namespace Sys2Proof.Machine

/-- Entries by key, keys strictly rising. -/
abbrev AMap (α : Type) := List (Nat × α)

/-- Words by key; an unlisted word is zero. -/
abbrev Cells (w : Nat) := List (Nat × BitVec w)

/-- The entry of a key. -/
def AMap.find? {α : Type} : AMap α → Nat → Option α
  | [], _ => none
  | (k, v) :: m, n => if k = n then some v else AMap.find? m n

/-- Sets the entry of a key. -/
def AMap.put {α : Type} : AMap α → Nat → α → AMap α
  | [], n, v => [(n, v)]
  | (k, x) :: m, n, v =>
    if k = n then (n, v) :: m else if n < k then (n, v) :: (k, x) :: m else (k, x) :: AMap.put m n v

/-- Removes a key. -/
def AMap.del {α : Type} (m : AMap α) (n : Nat) : AMap α := m.filter fun e => e.1 != n

/-- Changes the entry of a key, if there is one. -/
def AMap.upd {α : Type} (m : AMap α) (n : Nat) (f : α → α) : AMap α :=
  match AMap.find? m n with
  | some x => AMap.put m n (f x)
  | none => m

/-- Keeps the entries that satisfy a test. -/
def AMap.keep {α : Type} (p : Nat → α → Bool) (m : AMap α) : AMap α := m.filter fun e => p e.1 e.2

/-- The word of a key. -/
def Cells.get {w : Nat} (m : Cells w) (n : Nat) : BitVec w := (AMap.find? m n).getD 0

/-- Writes a word; a zero is not listed. -/
def Cells.set {w : Nat} (m : Cells w) (n : Nat) (v : BitVec w) : Cells w :=
  if v = 0 then AMap.del m n else AMap.put m n v

/-- Clears every word with a key from `lo` up to below `hi`. -/
def Cells.clear {w : Nat} (m : Cells w) (lo hi : Nat) : Cells w :=
  AMap.keep (fun k _ => k < lo || hi ≤ k) m

/-- The words with a key from `lo` up to below `hi`, their keys counted from `lo`. -/
def Cells.slice {w : Nat} (m : Cells w) (lo hi : Nat) : Cells w :=
  (AMap.keep (fun k _ => lo ≤ k && k < hi) m).map fun e => (e.1 - lo, e.2)

/-- Writes the words of a slice at `lo` up. -/
def Cells.paste {w : Nat} (m : Cells w) (lo : Nat) (sl : Cells w) : Cells w :=
  sl.foldl (fun acc e => Cells.set acc (lo + e.1) e.2) m

/-- Keys strictly rising from `lo` up. -/
def risingFrom {α : Type} : Nat → AMap α → Bool
  | _, [] => true
  | lo, (k, _) :: m => decide (lo ≤ k) && risingFrom (k + 1) m

/-- The canonical form of `AMap`: keys strictly rising. -/
def AMap.rising {α : Type} (m : AMap α) : Bool := risingFrom 0 m

/-- The canonical form of `Cells`: keys strictly rising and no zero listed. -/
def Cells.wf {w : Nat} (m : Cells w) : Bool := AMap.rising m && m.all fun e => e.2 != 0

/-- The first element with an index that satisfies a test, counted from `i`. -/
def findIdx {α : Type} (p : α → Bool) : List α → Nat → Option Nat
  | [], _ => none
  | x :: xs, i => if p x then some i else findIdx p xs (i + 1)

/-- Replaces the element at an index. -/
def setAt {α : Type} : List α → Nat → α → List α
  | [], _, _ => []
  | _ :: xs, 0, v => v :: xs
  | x :: xs, i + 1, v => x :: setAt xs i v

/-- Changes the element at an index. -/
def updAt {α : Type} (f : α → α) : List α → Nat → List α
  | [], _ => []
  | x :: xs, 0 => f x :: xs
  | x :: xs, i + 1 => x :: updAt f xs i

/-- The numbers from `lo` on, `n` of them. -/
def span (lo : Nat) : Nat → List Nat
  | 0 => []
  | n + 1 => lo :: span (lo + 1) n

end Sys2Proof.Machine
end

