-- ==== Sys2Proof/Machine/Float.lean ====
section
/-! DEFINITION. Number formats and rounding (09): the value of a code, exact arithmetic on dyadic
numbers, RoundTo, the IEEE rounding of arithmetic, and Convert with its saturation and flags. -/

namespace Sys2Proof.Machine

/-- A floating-point value: NaN, an infinity, or `m` x 2^`e` with a sign. -/
inductive FVal where
  | nan
  | inf (neg : Bool)
  | fin (neg : Bool) (m : Nat) (e : Int)
  deriving DecidableEq, Repr

/-- A format with exponent and fraction (09 Table 9.1): exponent and fraction bits, bias, the
largest finite magnitude code, and the codes of infinity and of the canonical NaN where it has
them. -/
structure Fmt where
  eb : Nat
  mb : Nat
  bias : Nat
  maxCode : Nat
  infCode : Option Nat
  nanCode : Option Nat
  deriving DecidableEq, Repr

def fmtF32 : Fmt := ⟨8, 23, 127, 0x7F7FFFFF, some 0x7F800000, some 0x7FC00000⟩
def fmtF16 : Fmt := ⟨5, 10, 15, 0x7BFF, some 0x7C00, some 0x7E00⟩
def fmtBf16 : Fmt := ⟨8, 7, 127, 0x7F7F, some 0x7F80, some 0x7FC0⟩
def fmtE4m3 : Fmt := ⟨4, 3, 7, 0x7E, none, some 0x7F⟩
def fmtE5m2 : Fmt := ⟨5, 2, 15, 0x7B, some 0x7C, some 0x7E⟩
def fmtE2m1 : Fmt := ⟨2, 1, 1, 0x7, none, none⟩

/-- Bits of a code without its sign. -/
def Fmt.magBits (f : Fmt) : Nat := f.eb + f.mb

/-- The sign bit of a code. -/
def Fmt.sign (f : Fmt) (neg : Bool) : Nat := if neg then 2 ^ f.magBits else 0

/-- The exponent of the spacing of subnormals. -/
def Fmt.qmin (f : Fmt) : Int := 1 - (f.bias : Int) - (f.mb : Int)

/-- The exponent of the spacing of the top binade (09 R217). -/
def Fmt.qmax (f : Fmt) : Int := f.qmin + ((f.maxCode / 2 ^ f.mb : Nat) : Int) - 1

/-- The value of a magnitude code that is finite. -/
def Fmt.finite (f : Fmt) (neg : Bool) (c : Nat) : FVal :=
  if c < 2 ^ f.mb then .fin neg c f.qmin
  else .fin neg (2 ^ f.mb + c % 2 ^ f.mb) (f.qmin + ((c / 2 ^ f.mb : Nat) : Int) - 1)

/-- The value of a code (09 R209). -/
def Fmt.value (f : Fmt) (code : Nat) : FVal :=
  let c := code % 2 ^ f.magBits
  let neg := code / 2 ^ f.magBits % 2 == 1
  if c ≤ f.maxCode then f.finite neg c
  else if f.infCode = some c then .inf neg
  else .nan

/-- The value of an E8M0 code (09 Table 9.1). -/
def e8m0Value (c : Nat) : FVal := if c % 256 = 255 then .nan else .fin false 1 ((c % 256 : Nat) - 127)

/-- The value of an integer. -/
def intValue (x : Int) : FVal := .fin (decide (x < 0)) x.natAbs 0

/-- Floor of the base-2 logarithm of `m` x 2^`e`, for `m` above 0. -/
def topExp (m : Nat) (e : Int) : Int := (Nat.log2 m : Int) + e

/-- How `m` x 2^`e` lies on the grid of spacing 2^`q`: the whole part, and the fraction as a
numerator over 2^shift. -/
def onGrid (m : Nat) (e q : Int) : Nat × Nat × Nat :=
  if q ≤ e then (m * 2 ^ (e - q).toNat, 0, 0)
  else
    let sh := (q - e).toNat
    (m / 2 ^ sh, m % 2 ^ sh, sh)

/-- Whether the magnitude goes up to the next grid point (09 Table 9.3, R218): `even` says that the
lower neighbour's lowest code bit is 0, `u` is the stream value for RS. -/
def roundsUp (mode : Rounding) (neg even : Bool) (frac sh u : Nat) : Bool :=
  if frac = 0 then false
  else
    match mode with
    | .rne => decide (2 ^ sh < 2 * frac) || (2 * frac == 2 ^ sh && !even)
    | .rz => false
    | .ru => !neg
    | .rd => neg
    | .rs => decide (u < frac * 2 ^ 32 / 2 ^ sh)

/-- RoundTo (09 R217) as a magnitude code on the continued grid of a format. -/
def Fmt.roundMag (f : Fmt) (mode : Rounding) (neg : Bool) (m : Nat) (e : Int) (u : Nat) : Nat :=
  if m = 0 then 0
  else
    let q := min (max f.qmin (topExp m e - (f.mb : Int))) f.qmax
    let (n, frac, sh) := onGrid m e q
    let n := if roundsUp mode neg (n % 2 == 0) frac sh u then n + 1 else n
    (q - f.qmin).toNat * 2 ^ f.mb + n

/-- RoundTo onto the integers. -/
def roundInt (mode : Rounding) (neg : Bool) (m : Nat) (e : Int) (u : Nat) : Int :=
  let (n, frac, sh) := onGrid m e 0
  let n := if roundsUp mode neg (n % 2 == 0) frac sh u then n + 1 else n
  if neg then -(n : Int) else (n : Int)

/-- The canonical NaN of an arithmetic format (09 R212). -/
def Fmt.nan (f : Fmt) : Nat := f.nanCode.getD 0

/-- IEEE rounding of an exact result, overflowing to infinity or to the largest finite value by the
mode (09 R217). -/
def Fmt.ieee (f : Fmt) (mode : Rounding) : FVal → Nat
  | .nan => f.nan
  | .inf neg => f.sign neg + f.infCode.getD 0
  | .fin neg m e =>
    let c := f.roundMag mode neg m e 0
    let toInf := match mode with
      | .rne | .rs => true
      | .rz => false
      | .ru => !neg
      | .rd => neg
    f.sign neg + (if c ≤ f.maxCode then c else if toInf then f.infCode.getD 0 else f.maxCode)

/-- RNE32 (09 R217). -/
def rne32 (x : FVal) : Nat := fmtF32.ieee .rne x

/-- The magnitudes of two finite values at one exponent. -/
def alignPair (m₁ : Nat) (e₁ : Int) (m₂ : Nat) (e₂ : Int) : Nat × Nat × Int :=
  let e := min e₁ e₂
  (m₁ * 2 ^ (e₁ - e).toNat, m₂ * 2 ^ (e₂ - e).toNat, e)

/-- The exact sum, and whether the operation is invalid (09 R212). An exact zero sum of operands of
different signs is +0, or -0 when rounding down (IEEE 754; 09 R211). -/
def FVal.add (mode : Rounding) : FVal → FVal → FVal × Bool
  | .nan, _ | _, .nan => (.nan, false)
  | .inf a, .inf b => if a = b then (.inf a, false) else (.nan, true)
  | .inf a, .fin _ _ _ => (.inf a, false)
  | .fin _ _ _, .inf b => (.inf b, false)
  | .fin a m₁ e₁, .fin b m₂ e₂ =>
    let (x, y, e) := alignPair m₁ e₁ m₂ e₂
    if a = b then (.fin a (x + y) e, false)
    else if x = y then (.fin (mode == .rd) 0 e, false)
    else if y < x then (.fin a (x - y) e, false)
    else (.fin b (y - x) e, false)

/-- The negated value. -/
def FVal.neg : FVal → FVal
  | .nan => .nan
  | .inf a => .inf (!a)
  | .fin a m e => .fin (!a) m e

/-- The exact product, and whether the operation is invalid. -/
def FVal.mul : FVal → FVal → FVal × Bool
  | .nan, _ | _, .nan => (.nan, false)
  | .inf a, .inf b => (.inf (a != b), false)
  | .inf a, .fin b m _ => if m = 0 then (.nan, true) else (.inf (a != b), false)
  | .fin a m _, .inf b => if m = 0 then (.nan, true) else (.inf (a != b), false)
  | .fin a m₁ e₁, .fin b m₂ e₂ => (.fin (a != b) (m₁ * m₂) (e₁ + e₂), false)

/-- `a` x `b` + `c`: 0 x infinity is invalid whatever `c` is (18 R-table of FFMA). -/
def FVal.fma (mode : Rounding) (a b c : FVal) : FVal × Bool :=
  match a.mul b with
  | (_, true) => (.nan, true)
  | (p, false) => p.add mode c

/-- The quotient to 96 bits, its last bit set when it is inexact, which rounds as the exact
quotient does in every arithmetic format. -/
def FVal.div : FVal → FVal → FVal × Bool
  | .nan, _ | _, .nan => (.nan, false)
  | .inf _, .inf _ => (.nan, true)
  | .inf a, .fin b _ _ => (.inf (a != b), false)
  | .fin a _ _, .inf b => (.fin (a != b) 0 0, false)
  | .fin a m₁ e₁, .fin b m₂ e₂ =>
    if m₂ = 0 then (if m₁ = 0 then (.nan, true) else (.inf (a != b), false))
    else
      let k := 96 + Nat.log2 m₂
      let n := m₁ * 2 ^ k
      let q := n / m₂ * 2 + (if n % m₂ = 0 then 0 else 1)
      (.fin (a != b) q (e₁ - e₂ - (k : Int) - 1), false)

/-- The integer square root of `n`, from bit `i` down. -/
def isqrtFrom (n : Nat) : Nat → Nat → Nat
  | 0, r => if (r + 1) * (r + 1) ≤ n then r + 1 else r
  | i + 1, r =>
    let t := r + 2 ^ (i + 1)
    isqrtFrom n i (if t * t ≤ n then t else r)

def isqrt (n : Nat) : Nat := isqrtFrom n (Nat.log2 n / 2 + 1) 0

/-- The square root, its last bit set when it is inexact; of -0 it is -0. -/
def FVal.sqrt : FVal → FVal × Bool
  | .nan => (.nan, false)
  | .inf false => (.inf false, false)
  | .inf true => (.nan, true)
  | .fin a m e =>
    if m = 0 then (.fin a 0 e, false)
    else if a then (.nan, true)
    else
      let (m, e) := if e % 2 = 0 then (m, e) else (2 * m, e - 1)
      let n := m * 2 ^ 128
      let r := isqrt n
      (.fin false (r * 2 + (if r * r = n then 0 else 1)) ((e - 128) / 2 - 1), false)

/-- Whether a value lies below another, both finite or infinite; zeros are equal. -/
def FVal.lt : FVal → FVal → Bool
  | .nan, _ | _, .nan => false
  | .inf a, .inf b => a && !b
  | .inf a, .fin _ _ _ => a
  | .fin _ _ _, .inf b => !b
  | .fin a m₁ e₁, .fin b m₂ e₂ =>
    let (x, y, _) := alignPair m₁ e₁ m₂ e₂
    let sx : Int := if a then -(x : Int) else x
    let sy : Int := if b then -(y : Int) else y
    decide (sx < sy)

/-- What a conversion gives: the code, and whether it sets SAT and INVALID. -/
structure Conv where
  code : Nat
  sat : Bool := false
  inv : Bool := false
  deriving DecidableEq, Repr

/-- Convert into a format with exponent and fraction (09 R220). -/
def Fmt.convert (f : Fmt) (mode : Rounding) (u : Nat) : FVal → Conv
  | .nan => match f.nanCode with
    | some c => { code := c }
    | none => { code := 0, inv := true }
  | .inf neg => match f.infCode with
    | some c => { code := f.sign neg + c }
    | none => { code := f.sign neg + f.maxCode, sat := true }
  | .fin neg m e =>
    let c := f.roundMag mode neg m e u
    if c ≤ f.maxCode then { code := f.sign neg + c }
    else { code := f.sign neg + f.maxCode, sat := true }

/-- Convert into E8M0 (09 R220): the grid is the powers of two. -/
def convertE8m0 (mode : Rounding) (u : Nat) : FVal → Conv
  | .nan => { code := 0xFF }
  | .inf neg => { code := if neg then 0 else 0xFE, sat := true }
  | .fin neg m e =>
    if neg ∨ m = 0 ∨ topExp m e < -127 then { code := 0, sat := true }
    else
      let p := topExp m e
      let c := (p + 127).toNat
      let (_, frac, sh) := onGrid m e p
      let c := if roundsUp mode false (c % 2 == 0) frac sh u then c + 1 else c
      if c ≤ 254 then { code := c } else { code := 254, sat := true }

/-- Convert into an integer range (09 R220). -/
def convertInt (lo hi : Int) (width : Nat) (mode : Rounding) (u : Nat) : FVal → Conv
  | .nan => { code := 0, inv := true }
  | .inf neg => { code := unsignedOf width (if neg then lo else hi), sat := true }
  | .fin neg m e =>
    let y := roundInt mode neg m e u
    if hi < y then { code := unsignedOf width hi, sat := true }
    else if y < lo then { code := unsignedOf width lo, sat := true }
    else { code := unsignedOf width y }

/-- The least and greatest value of an integer type. -/
def tyMin (t : STy) : Int := if t.signed then -(2 ^ (t.width - 1)) else 0
def tyMax (t : STy) : Int := if t.signed then 2 ^ (t.width - 1) - 1 else 2 ^ t.width - 1

/-- Bits of an element (04 R89). -/
def elementBits : ETy → Nat
  | .i8 | .n8 | .e4m3 | .e5m2 | .e8m0 | .bpi => 8
  | .i16 | .n16 | .f16 | .bf16 => 16
  | .i32 | .n32 | .b32 | .f32 => 32
  | .e2m1 => 4

/-- Convert into an element format (09 R220). Bit strings take the integer value unsigned. -/
def convertTo (t : ETy) (mode : Rounding) (u : Nat) (x : FVal) : Conv :=
  match t with
  | .f32 => fmtF32.convert mode u x
  | .f16 => fmtF16.convert mode u x
  | .bf16 => fmtBf16.convert mode u x
  | .e4m3 => fmtE4m3.convert mode u x
  | .e5m2 => fmtE5m2.convert mode u x
  | .e2m1 => fmtE2m1.convert mode u x
  | .e8m0 => convertE8m0 mode u x
  | .i8 | .bpi => convertInt (-128) 127 8 mode u x
  | .n8 => convertInt 0 255 8 mode u x
  | .i16 => convertInt (-32768) 32767 16 mode u x
  | .n16 => convertInt 0 65535 16 mode u x
  | .i32 => convertInt (-(2 ^ 31)) (2 ^ 31 - 1) 32 mode u x
  | .n32 | .b32 => convertInt 0 (2 ^ 32 - 1) 32 mode u x

/-- The value of an element code. -/
def elementValue (t : ETy) (code : Nat) : FVal :=
  match t with
  | .f32 => fmtF32.value code
  | .f16 => fmtF16.value code
  | .bf16 => fmtBf16.value code
  | .e4m3 => fmtE4m3.value code
  | .e5m2 => fmtE5m2.value code
  | .e2m1 => fmtE2m1.value code
  | .e8m0 => e8m0Value code
  | .i8 | .bpi => intValue (signedOf 8 (code % 2 ^ 8))
  | .i16 => intValue (signedOf 16 (code % 2 ^ 16))
  | .i32 => intValue (signedOf 32 (code % 2 ^ 32))
  | .n8 => intValue (code % 2 ^ 8 : Nat)
  | .n16 => intValue (code % 2 ^ 16 : Nat)
  | .n32 | .b32 => intValue (code % 2 ^ 32 : Nat)

/-- The arithmetic format of a scalar float type. -/
def fmtOf : STy → Fmt
  | .f16 => fmtF16
  | .bf16 => fmtBf16
  | _ => fmtF32

/-- One step of a rounding stream (09 R218). -/
def lfsrStep (x : BitVec 32) : BitVec 32 :=
  if x.getLsbD 0 then (x >>> 1) ^^^ 0x80200003 else x >>> 1

/-- The seed of a thread's rounding stream (09 R218). -/
def lfsrSeed (block thread stage : Nat) : BitVec 32 :=
  let x := BitVec.ofNat 32 (block * 0x9E3779B1 + thread * 0x85EBCA6B + stage * 0xC2B2AE35)
    ^^^ 0x5EED0001
  if x = 0 then 1 else x

end Sys2Proof.Machine
end

