-- ==== Sys2Proof/Config.lean ====
section
/-! DEFINITION. What the implementation fixes and the spec leaves open. Every constant without a
body is a free value: nothing can be proved of the value it has. -/

namespace Sys2Proof.Config

/-- A free value of any width up to the caller's truncation, indexed by the counter `State.free`
(log entry 1). -/
opaque free : Nat → Nat

/-- The choice among several enabled internal events: given the counter and the number of
candidates, which one acts (log entry 2). Callers reduce it modulo the number. -/
opaque pick : Nat → Nat

/-- The die-cache set that a physical line number falls in (04 R99 names sets and gives no index
function; log entry 3). -/
opaque dieSet : Nat → Nat

/-- The signature the enclave makes with a key of its own over a digest (03 R75; 14 R307; log entry 4). -/
opaque enclaveSign : List Byte → List Byte

/-- A draft as the enclave makes it of a key in a generation: its native code, side tables and twins (03 R73, R75; the
spec fixes what it does and not its bytes; log entry 4). -/
opaque draftBytes : List Byte → Nat → List Byte

/-- The device certificate chain that ATTEST returns (14 R307; log entry 4). -/
opaque deviceChain : List Byte

/-- What the window of a latch that holds bit planes shows at a byte of a line, given the eight planes of the line (04
Table 4.2 gives the planes no layout; log entry 1). -/
opaque planeByte : List (BitVec 512) → Nat → BitVec 8

/-- The stepping number of the part (06 R136 compares an image's stepping with it; log entry 5). -/
opaque stepping : Nat

/-- What the boot reports: whether the firmware of every die verifies (14 R304 step 1), and the banks that fail
training (step 2), the sparing status (11 R265) and the banks whose wipe fails (R266) (log entry 6). -/
opaque bootVerified : Bool
opaque failingBanks : List (Nat × Nat)
opaque sparingStatus : List (Nat × Nat × Nat)
opaque unwipedBanks : List (Nat × Nat)

/-- Where the device puts the management queue of an interface: the line of its control block, the line of its
element area, the log2 of its capacity and its flags (14 R297, R487 give none of them; log entry 7). -/
opaque mqBlock : Nat → Nat
opaque mqArea : Nat → Nat
opaque mqLog2 : Nat → Nat
opaque mqFlags : Nat → Nat

/-- Where the management error queue lies: the lines of its control block and of its elements, the log2 of its
capacity and its flags (12 R283 gives none of them; log entry 7). -/
opaque errBlock : Nat
opaque errArea : Nat
opaque errLog2 : Nat
opaque errFlags : Nat

/-- The first GiB of the memory that an interface is given (14 R487 gives only its size; log entry 8). -/
opaque memBase : Nat → Nat

/-- Whether a device number is configured into the load-store domain of this device (04 R103; 14 R309: no rule gives the
configuration; log entry 67). -/
opaque inDomain : Nat → Bool

/-- Whether the 16 export entries at an address cover an access (14 R309 gives an entry no layout; log entry 9). -/
opaque exportCovers : Nat → FabricReq → Bool

/-- The identity public key of this device (14 R306; log entry 4). -/
opaque identityKey : List Byte

/-- The digests of the verified firmware and of the drafting code (14 Table 14.7; log entry 4). -/
opaque firmwareDigest : List Byte
opaque draftingDigest : List Byte

/-- Whether a signing key identifier is one of Brodari's test or diagnostic keys, and its public key (14 Table
14.6; log entry 4). -/
opaque brodariKey : Nat → Option (List Byte)

/-- A byte of host memory as a read over the host link returns it (14 R299, R302; log entry 20). -/
opaque hostByte : Nat → Nat → Byte

end Sys2Proof.Config
end

