-- ==== Sys2Proof/Machine/State.lean ====
section
/-! DEFINITION. The state of the machine: plain data, holding everything the spec gives it, the
reasons a step can stop, and the state after reset. -/

namespace Sys2Proof.Machine

/-- Why the machine stops. Every error that the spec describes as the device's own (Table 12.1, an
abort, a refused command) is a next state and none of these. -/
inductive Fault where
  /-- Raised by an instruction of the catalogue when no path is selected to issue it: the spec gives
  an instruction an effect only when a path of a group issues it. Safe: the machine stops. -/
  | noIssuer
  /-- Raised by `step` when the bytes at an issuing path's program counter are no instruction. The
  loader refuses such code at publication (15 R330), so no published code reaches it. Safe. -/
  | undecodable
  /-- Raised by `step` when the device is off after a thermal shutdown (01 R19). Safe. -/
  | powerOff
  /-- Raised by `step` when the boot stopped in ROM recovery (14 R304). Safe. -/
  | romRecovery
  deriving DecidableEq, Repr

/-- Why an instruction has no meaning here. -/
inductive Refusal where
  /-- Raised only by an arm of `exec` for an instruction whose meaning is not written. Safe: the
  machine stops. -/
  | notModelled (mnemonic : String)
  deriving DecidableEq, Repr

/-- The fault codes of 12 Table 12.1, 0x01 to 0x14 in order. -/
inductive FaultCode where
  | fetchNx | illegalOperand | align | pageNotPresent | permission | regionUnclaimed
  | attrMismatch | tileBusy | tileShape | uniformConflict | queueCorrupt | queueElementSize
  | barrierOverrun | satTrap | softwareTrap | debugBreak | windowDenied | rowopGeometry
  | tokenInvalid | callDepth
  deriving DecidableEq, Repr

/-- A fault as an instruction or an engine raises it: code, detail word (12 Table 12.1), address,
lanes. `lost` marks no fault of that table: the access would use what an uncorrectable error has destroyed, and its launch
aborts (12 R279). -/
structure Flt where
  code : FaultCode
  detail : Nat := 0
  addr : Nat := 0
  lanes : LaneMask := 0
  lost : Bool := false
  deriving DecidableEq, Repr

/-- The native slot that issues (15 R325): the lookahead, the cluster (0 to 3; 4 for SCL), the position, whether no
matrix slot of its region stands before it, the fixed latency (0: variable), the alias byte and the bundle's scope. -/
structure Slot where
  la : Nat
  cluster : Nat
  pos : Nat
  first : Bool
  lat : Nat
  aliasByte : Nat
  scope : Scope
  deriving DecidableEq, Repr

/-- What issues in this step: a path of a group, the length of the instruction in bytes, and the
slot when the carrier is native. The model's own field. -/
structure Cur where
  grp : Nat
  path : Nat
  len : Nat := 8
  slot : Option Slot := none
  deriving DecidableEq, Repr

/-- What a path waits on: the wake conditions of 12 Table 12.3, and the waits that are no blocking point (02 R45; 05
R125, R127; 08 R204; 10 R225). `stalled` is a wait for the token of a transfer that an unserviced page fault stalls
(04 R110); the stamp of a `page` is the time of its record with the core (12 R271, R274); `fault` is the end of a path
whose fault froze its block (12 R270). -/
inductive Wait where
  | none
  | poll
  | bar (b slot : Nat)
  | tile (t : Nat)
  | queue (cb : Nat) (full : Bool) (n : Nat)
  | remote (acc : Nat)
  | page (va : Nat) (stamp : Nat)
  | window (h : Nat)
  | backoff (wakeAt : Nat)
  | sync
  | token (ts : List Nat)
  | stalled (ts : List Nat)
  | landing
  | matrix
  | latch (gl : Nat)
  | fault
  deriving DecidableEq, Repr

/-- One byte-addressed place an access reaches. `chip` is an on-chip address (04 R83). `g` is a
physical address with the tag (a launch, or 0), whether caches may hold the line (04 R98) and the
scope of the access. `peer` is memory of another device (14 R309). `held` is a window address whose
target is not RESIDENT, with its swizzle mode; only a store reaches it (04 R85). -/
inductive Place where
  | g (pa : Nat) (tag : Nat) (cached : Bool) (sc : Scope)
  | chip (oc : Nat)
  | peer (dev : Nat) (va : Nat)
  | held (addr sw : Nat)
  deriving DecidableEq, Repr

/-- One gated lane-store (03 R62); `mask` says which bits of each byte it writes, all of them when it
is empty (21 R456). `via` is the window address and swizzle mode of a native store through a handle, which is resolved
again when the store performs (04 R85); `rel` is the scope at which a native store releases before it writes
(05 R132). `born` orders it among shootdowns (04 R111). -/
structure GStore where
  lane : Nat
  dst : Place
  data : List Byte
  mask : List Byte := []
  via : Option (Nat × Nat) := none
  rel : Option Scope := none
  born : Nat := 0
  deriving DecidableEq, Repr

/-- An entry of the alias-detection table (03 R66). -/
structure AliasEntry where
  space : Space
  granule : Nat
  lanes : LaneMask
  lid : Nat
  deriving DecidableEq, Repr

/-- Where a native result lands: a cluster register of the core (key of `State.cregs`), a scalar or a
staging register, or a thread's predicate. -/
inductive RegDst where
  | creg (key : Nat)
  | sreg (n : Nat)
  | stage (n : Nat)
  | pred (thread n : Nat)
  deriving DecidableEq, Repr

/-- A native result in flight (03 R57, R58): the cycle it lands when its latency is fixed, the
bundles its lookahead still lets issue otherwise. -/
structure InFlight where
  due : Option Nat
  left : Nat
  dst : RegDst
  val : Word
  deriving DecidableEq, Repr

/-- The state of one thread that lives with it (02 R40; 09 R218; 18 R373; 21 R465). `regs` holds its
cluster registers while it is filed in a bobbin (02 R34), keyed by file x 1536 + register. -/
structure Thread where
  preds : BitVec 12 := 0
  rs : BitVec 32 := 0
  depth : Nat := 0
  link : Nat := 0
  trap : Bool := false
  regs : Cells 32 := []
  deriving DecidableEq, Repr

/-- A slot whose effect comes at the commit of its region: a GATHER or an ACCRD of a matrix region (10 R225, R231), a
SATARM (21 R446). It holds the lanes that execute it and its virtual PC. -/
structure Held where
  instr : Instr
  lanes : LaneMask
  vpc : Nat
  deriving DecidableEq, Repr

/-- Shadow copies taken at a region commit (03 R62). `cregs` are the lanes' cluster registers, by keys that count from
the group's base; `tokens` are the PENDING and the DONE bits of the group's tokens, `table` the group's path table. A
rollback restores neither of these two: it acts on the rolling path alone, and no slot that it undoes changes them
(log entry 33). -/
structure Snap where
  pc : Nat
  mask : LaneMask
  threads : AMap Thread
  cregs : Cells 32
  sregs : Cells 64
  staging : Cells 64
  tokens : BitVec 16 × BitVec 16 := (0, 0)
  table : List (Option Nat × Nat × LaneMask) := []
  deriving DecidableEq, Repr

/-- The engines (11 Table 11.1; TRIG is 13 R293). -/
inductive EngineKind where
  | copy | tload | tstore | reduce | rowop | flush | inval | trig
  deriving DecidableEq, Repr

/-- An engine command from its hand-over to its completion (11 R242 to R249). `todo` lists the
pieces, parts or rows still to perform; `link` is the physical barrier slot on which bytes arrive;
`stall` is the page on which a transfer waits, and the time of its record (04 R110). `total` counts the
bytes that will land on the link, `landed` those that have performed, `counted` those that have
arrived (07 R176). `waits` are the operations whose tokens it consumes; `orphan` says that its group
context has been freed (05 R125); `served` orders the COPYs of a die by their last piece (11 R247). -/
structure EngineOp where
  kind : EngineKind
  launch : Nat
  block : Nat
  grp : Nat
  core : Nat
  vpc : Nat
  lanes : LaneMask
  token : Nat
  waits : List Nat
  scope : Scope
  params : List Byte
  started : Bool := false
  todo : List Nat := []
  total : Nat := 0
  landed : Nat := 0
  counted : Nat := 0
  tile : Option Nat := none
  link : Option (Nat × Nat) := none
  stall : Option (Nat × Nat) := none
  orphan : Bool := false
  served : Nat := 0
  deriving DecidableEq, Repr

/-- One execution of a region that is under way on a path (03 R73): its commit record, its number, the cycle at
which its commit point issued, and the stall counters of its group then. -/
structure Exec where
  record : Nat
  num : Nat
  began : Nat
  seen : Cells 64
  deriving DecidableEq, Repr

/-- A path (02 R29) with the region state of 03 R61. `entry` is its path-table entry; without one its threads are
parked, since `since`. `staging` is keyed by set x 8 + index. `branch` holds the targets of a native branch whose
delay bundle has not issued (03 R59). `run` is one more than the instructions of a matrix run under way, 0 outside one
(10 R238), and `held` keeps its GATHERs and ACCRDs for the region's commit (10 R225, R231). `got` holds the values
that lanes of a POLLBK have read, by slot x 64 + lane (07 R184). `clrSat` and `clrInv` are what a SATCLR of the region
will clear of the context's committed flags (21 R447). `woken` lists the slots of the bundle (0: the Fleper
instruction) whose event has happened, of a BARWAIT, a queue operation or a load from a peer, and `waiter` is the slot
that waits; `reply` and `replyFault` are what a queue's home answered. `oldRegs` and `oldPreds` keep the virtual
registers and predicates that an open matrix run has written as its last commit left them (02 R61; 17 R363; 20 R430).
`execs` are the executions of regions that are under way on the path, more than one after a join (03 R73). `sealed`
says that the bundle at the program counter has issued but for its irreversible slot, which performs at the commit of
its one-bundle region (03 R62, R63). `fresh` keeps what cluster registers held whose result landed in the very cycle
of the bundle that issues (03 Table 3.1). `begun` says that the instruction or bundle at the program counter has begun
to issue and is not complete; `met` that the path has left a blocking point and not issued since (12 R272 step 1);
`mark` is the last boundary mark since the commit point, whose record a fault uses (03 R71). -/
structure Path where
  entry : Option Nat := none
  since : Nat := 0
  pc : Nat := 0
  mask : LaneMask := 0
  turn : Nat := 0
  wait : Wait := .none
  sregs : Cells 64 := []
  staging : Cells 64 := []
  sat : Bool := false
  inv : Bool := false
  clrSat : Bool := false
  clrInv : Bool := false
  gated : List GStore := []
  aliases : List AliasEntry := []
  conservative : Bool := true
  cp : Nat := 0
  run : Nat := 0
  held : List Held := []
  reserved : Nat := 0
  branch : List (Nat × LaneMask) := []
  inflight : List InFlight := []
  fresh : List (Nat × BitVec 32) := []
  snap : Option Snap := none
  got : AMap Word := []
  woken : List Nat := []
  waiter : Nat := 0
  reply : List (List Byte) := []
  replyFault : Option Flt := none
  oldRegs : AMap Word := []
  oldPreds : AMap (BitVec 12) := []
  execs : List Exec := []
  sealed : Bool := false
  begun : Bool := false
  met : Bool := false
  mark : Option Nat := none
  deriving DecidableEq, Repr

/-- A group context (02 R22, R29, R30): the thread of each lane that holds one, its paths, the entry of the path that
issues and, without one, the entry last left, tokens (05 R125), committed sticky flags (09 R221), back-off level (07
R184), stall counters (13 R284). -/
structure Group where
  block : Nat
  gid : Nat
  lanes : AMap Nat
  paths : List Path
  issuing : Option Nat := none
  last : Nat := 7
  pend : BitVec 16 := 0
  done : BitVec 16 := 0
  sat : Bool := false
  inv : Bool := false
  backoff : Nat := 0
  stalls : Cells 64 := []
  placed : Nat := 0
  passed : Nat := 0
  deriving DecidableEq, Repr

/-- The states of 02 Table 2.2; `discarded` blocks are removed. -/
inductive BlockState where
  | pending | resident | retired | evicted | frozen | halted
  deriving DecidableEq, Repr

/-- A bobbin (02 R34): the block and program counter of its key, its threads in filing order, the
cycle of the first filing and the age limit then in force (02 R37). -/
structure Bobbin where
  block : Nat
  pc : Nat
  threads : List Nat
  born : Nat
  limit : Nat
  deriving DecidableEq, Repr

/-- The state of an evicted block (12 R273) outside its fixed record, offsets counted from the
start of each allocation. -/
structure Saved where
  spad : Cells 8
  cregs : Cells 32
  acc : Cells 32
  bobbins : List Bobbin
  deriving DecidableEq, Repr

/-- A debug stop asked of a block (13 R287): its cause, and for a BRK the group context, the virtual
PC and the lanes that executed it; `resume` says that the debugger has detached meanwhile (14 R300). -/
structure StopReq where
  cause : Nat
  resume : Bool := false
  gid : Nat := 0
  vpc : Nat := 0
  lanes : LaneMask := 0
  deriving DecidableEq, Repr

/-- A block. Register, accumulator and scratchpad bases are those of 08 R198; `owners` maps a uniform register to the
group context that owns it in the present interval (02 R42). `faultAt` is the time of the record of `fault` (12 R270);
`moving` holds the bases that a compaction under way gives the block (08 R201). -/
structure Block where
  launch : Nat
  stage : Nat
  linear : Nat
  st : BlockState := .pending
  core : Nat := 0
  spadBase : Nat := 0
  regBase : Nat := 0
  accBase : Nat := 0
  owners : AMap Nat := []
  armed : Bool := false
  resSat : Bool := false
  resInv : Bool := false
  resStall : Cells 64 := []
  phases : Cells 64 := []
  evict : Bool := false
  stop : Option StopReq := none
  stopped : Bool := false
  moving : Option (Nat × Nat × Nat) := none
  everEvicted : Bool := false
  everHalted : Bool := false
  otherCore : Bool := false
  fault : Option Flt := none
  faultAt : Nat := 0
  placedAt : Nat := 0
  endedAt : Nat := 0
  saved : Option Saved := none
  deriving DecidableEq, Repr

/-- A resolved region claim (06 R139): first byte, one past the last, access. -/
structure Claim where
  lo : Nat
  hi : Nat
  rd : Bool
  wr : Bool
  deriving DecidableEq, Repr

/-- A valid entry of the attribute snapshot (04 R102, R103): first byte, one past the last, flags
word. -/
structure Attr where
  lo : Nat
  hi : Nat
  flags : BitVec 64
  deriving DecidableEq, Repr

/-- The states of 06 Table 6.13 that a dequeued record is in. A launch that has ended is removed;
`committing` has left U and still owes deferred enqueues or its completion record (06 R148). -/
inductive LState where
  | waitEligible | checking | waiting | bound | overflowed | irrevocable | completed
  | committing | aborting
  deriving DecidableEq, Repr

/-- Cores of one stage and the core, or the cluster, from which its placer looks on (08 R194, R199, R200); `leaving`
are cores that the stage gives up once their blocks are saved (08 R190). -/
structure StageRun where
  cores : List Nat
  leaving : List Nat := []
  pointer : Nat := 0
  nextPending : Nat := 0
  deriving DecidableEq, Repr

/-- A deferred enqueue (06 R154): control block, element size, the elements in lane order. -/
structure Deferred where
  cb : Nat
  esize : Nat
  elems : List (List Byte)
  deriving DecidableEq, Repr

/-- A launch from dequeue to its end (06 R141 to R156). `attempt` tags the version and the blocks of the present
attempt; `seq` is the place of the record in its launch queue; `checked` says that the attempt has passed the checks
before step 4 of 06 R144, `shadow` counts its lines in the shadow pool at the last look (R151); `freeAt` and
`commitAt` order the launches that become free to commit, and the versions that commit (R148, R154). `prio` is the
effective priority that it has taken over (08 R190). `move` is a core move of 08 R196 that is pending: donor and
recipient; `decidedAt` is the cycle of the last decision on one, and `fills` sums, over the core cycles since, the
fill of each queue declared. -/
structure Launch where
  vi : Nat
  ctx : Nat
  lq : Nat
  seq : Nat
  lsn : Nat
  first : Nat
  st : LState
  attempt : Nat
  record : List Byte
  dequeuedAt : Nat
  image : Nat := 0
  drafts : List Nat := []
  save : Nat := 0
  params : List Byte := []
  claims : List Claim := []
  attrs : List Attr := []
  replays : Nat := 0
  yielded : Bool := false
  irrevocable : Bool := false
  killed : Bool := false
  cause : Nat := 0
  code : Nat := 0
  codeAt : Nat := 0
  reason : Nat := 0
  offset : Nat := 0
  boundAt : Nat := 0
  stages : List StageRun := []
  deferred : List Deferred := []
  shadow : Nat := 0
  move : Option (Nat × Nat) := none
  descheduled : Bool := false
  checked : Bool := false
  freeAt : Option Nat := none
  commitAt : Option Nat := none
  prio : Nat := 0
  decidedAt : Nat := 0
  fills : List Rat := []
  deriving DecidableEq, Repr

/-- A registered launch queue (08 R191; 06 R485). -/
structure LaunchQueue where
  vi : Nat
  ctx : Nat
  cb : Nat
  prio : Nat
  age : Nat := 0
  slot : Option Nat := none
  since : Nat := 0
  lastDeq : Nat := 0
  givenUp : Bool := false
  nextSeq : Nat := 0
  deriving DecidableEq, Repr

/-- A published image (06 R140): the verified copy from which launches fetch (03 R78), the address it was read
from, and whether its handle still stands. -/
structure Image where
  vi : Nat
  addr : Nat
  published : Bool := true
  digest : List Byte
  bytes : List Byte
  deriving DecidableEq, Repr

/-- A context (14 Table 14.4). `dump` is the current dump address (14 R300). -/
structure Context where
  vi : Nat
  num : Nat
  satp : Nat
  attrTable : Nat
  handleBase : Nat
  handleLen : Nat
  weight : Nat
  prio : Nat
  grantQuota : Nat
  shadowBase : Nat
  shadowSize : Nat
  saveBase : Nat
  saveSize : Nat
  faultQ : Nat
  recordQ : Nat
  sampleQ : Nat
  dump : Nat
  nextLsn : Nat := 1
  grant : Nat := 0
  deficit : Rat := 0
  closing : Bool := false
  deriving DecidableEq, Repr

/-- A virtual interface (14 Table 14.2) with its control words. -/
structure Iface where
  configured : Bool := false
  hostOwned : Bool := true
  quota : Nat := 0
  memBase : Nat := 0
  hgatp : Nat := 0
  stagingBase : Nat := 0
  stagingSize : Nat := 0
  exports : Nat := 0
  mq : Nat := 0
  keys : AMap (List Byte) := []
  schVi : BitVec 64 := 1536#64 <<< 32 ||| 256#64 <<< 8
  reformAge : BitVec 64 := 256
  drfProfile : BitVec 64 := 192#64 <<< 24 ||| 60#64 <<< 16 ||| 2#64 <<< 8 ||| 1
  lockQuota : BitVec 64 := 0
  ldrReplay : BitVec 64 := 7#64 <<< 4 ||| 2
  dbgCapture : BitVec 64 := 2#64 <<< 8
  filter : BitVec 32 := 0
  port : Cells 8 := []
  grant : Nat := 0
  deficit : Rat := 0
  deriving DecidableEq, Repr

/-- A cached line (04 R96): its bytes and which of them are dirty. -/
structure CLine where
  data : Line
  dirty : LaneMask
  deriving DecidableEq, Repr

/-- A TLB entry: one page of 2^`bits` bytes of an address space (04 R106, R109). `dirty` says that
the walk set D (04 R108). -/
structure TlbEntry where
  asid : Nat
  vmid : Nat
  va : Nat
  bits : Nat
  pa : Nat
  rd : Bool
  wr : Bool
  dirty : Bool
  deriving DecidableEq, Repr

/-- A record the device has still to deliver to a context's queue (12 R269), the launch and the attempt it is about
and whether it is of a recoverable fault. -/
structure Delivery where
  vi : Nat
  ctx : Nat
  cb : Nat
  launch : Nat
  attempt : Nat
  recoverable : Bool
  bytes : List Byte
  deriving DecidableEq, Repr

/-- Whose request stands at a queue's home: the path of a group that holds the executing lanes given, a
deferred append of a launch (06 R148 step 3), or a delivery of the device. -/
inductive Asker where
  | group (grp : Nat) (lanes : LaneMask)
  | append (launch : Nat)
  | delivery (d : Delivery)
  deriving DecidableEq, Repr

/-- A pending request at a queue's home (07 R166): an enqueue of elements (`full`) or a dequeue of `n`,
in the order of `stamp`; `va` is the address of the control block in the asker's space (04 R111). -/
structure Request where
  who : Asker
  full : Bool
  n : Nat
  elems : List (List Byte)
  stamp : Nat
  va : Nat := 0
  deriving DecidableEq, Repr

/-- What the home keeps of a queue beside its control block (07 R157, R159, R161, R166): the failed
check that made it corrupt (0: none), and whether a change has been broadcast to polling waiters. -/
structure Home where
  wake : List Request := []
  polling : List Request := []
  bound : Option Nat := none
  corrupt : Nat := 0
  offer : Bool := false
  deriving DecidableEq, Repr

/-- Where a notification goes (07 R183): the IMSIC file and the identity. -/
structure NotifyTarget where
  imsic : Nat
  ident : Nat
  deriving DecidableEq, Repr

/-- A shootdown under way (04 R111). -/
structure Shootdown where
  vi : Nat
  kind : Nat
  ident : Nat
  base : Nat
  pages : Nat
  word : Nat
  deriving DecidableEq, Repr

/-- Per-core registers that belong to the core and not to a block (08 R204, R205; 02 R26): the group that owns the
matrix unit, the context whose block last used it, the count of free values at the last choice of a group (log entry
2), the cycle of the last sample, the group sampled last (13 R288), and for each gather latch its row mask, and the
earliest cycle at which each fill under way completes (10 R225). -/
structure CoreRegs where
  owner : Option Nat := none
  lastCtx : Option Nat := none
  turn : Nat := 0
  sampled : Nat := 0
  sampleGroup : Nat := 0
  rowMask : List (BitVec 16) := [0, 0]
  filling : List (List Nat) := [[], []]
  deriving DecidableEq, Repr

/-- Counters of a commit record, as PROFILE reports them (13 Table 13.6). -/
structure Profile where
  execs : Nat := 0
  conflicts : Nat := 0
  rollbacks : Nat := 0
  branches : List (Nat × Nat) := []
  stalls : Cells 64 := []
  deriving DecidableEq, Repr

/-- The counters of one window of 64 executions of a region (03 R73). -/
structure Window where
  conflicts : Nat := 0
  branches : List (Nat × Nat) := []
  cycles : Nat := 0
  stalled : Nat := 0
  deriving DecidableEq, Repr

/-- A draft of the draft cache (03 R73 to R77): its key, the interface whose launch first asked for it, the key its
image was signed under, its generation, the drafting core at work on it or on its next generation, since when it waits
for one, and when its generation was installed. `signature` is the enclave's over the draft (03 R75). `native` is a
signed native image, which is counted and never drafted. Profiles are keyed by commit record, windows by record x 2^32
+ window. -/
structure Draft where
  key : List Byte
  vi : Nat := 0
  imageKey : Nat
  native : Bool := false
  gen : Nat := 0
  ready : Bool := false
  signature : List Byte := []
  core : Option Nat := none
  waits : Option Nat := none
  installedAt : Nat := 0
  triggered : Bool := false
  profiles : AMap Profile := []
  windows : AMap Window := []
  deriving DecidableEq, Repr

/-- Where the boot stands (14 R304). -/
inductive Phase where
  | due | recovery | running | off
  deriving DecidableEq, Repr

/-- A message the device has sent to another party: an MSI (07 R183), a treadle message (13 R291), a
candidacy or heartbeat (14 R308), a request for a draft or an answer to one (03 R76), a fabric or
host store (14 R309, R302). -/
inductive Sent where
  | msi (imsic ident : Nat)
  | treadle (m : TreadleMsg)
  | candidacy (round : Nat)
  | heartbeat (round : Nat)
  | draftRequest (key : Nat)
  | draftAnswer (peer key : Nat)
  | fabricReply (device : Nat) (data : Option (List Byte))
  | peerStore (device va : Nat) (data : List Byte)
  | hostStore (addr : Nat) (data : List Byte)
  deriving DecidableEq, Repr

/-- A remote access that has not performed (04 R85; 05 R127; 14 R309): a load from a fabric peer, a
store to one, or a store through a window handle whose target is not RESIDENT, with the address value
it names, its bytes and its swizzle mode. `vpc` and `lanes` are what a fault of it reports; `threads` are the threads
that made it, wherever a REFORM has put them since; `op` is the engine operation that makes it. -/
structure Remote where
  grp : Nat
  gid : Nat
  block : Nat
  core : Nat
  issued : Nat
  load : Bool
  window : Bool
  addr : Nat
  sw : Nat
  data : List Byte
  vpc : Nat
  lanes : LaneMask
  threads : List Nat := []
  op : Option Nat := none
  deriving DecidableEq, Repr

/-- The state. Keys of the maps: `blocks` attempt x 2^36 + stage x 2^32 + linear index; `groups` block x 64 + group
context; `threads` block x 2^11 + thread index; `vregs` thread x 2^20 + register; `uregs` and `tiles` block x 64 +
index (`tiles`: x 2 + word; `fills`: the barrier and physical slot on which a FILLING tile's bytes arrive, 04 R91);
`spad` core x 2^21 + offset; `cregs` ((core x 4 + file) x 1536 + register) x 64 + lane; `acc` and `pt` (core x 128 +
tile) x 512 + element; `latches` ((core x 10 + latch) x 32 + line) x 16 + plane; `accOld`, `ptOld` and `latchOld`
hold, until the cycle given, what a native write to a tile or a latch (with its tag) has not yet replaced (10 R234);
`mem` physical address; `shadow` attempt x 2^35 + line, as `poison` (12 R279; attempt 0: committed memory) and
`spills`, the lines that lie in a shadow pool (06 R147); caches (tag x 2^11 + unit) x 2^35 + line; `pins` (context x 8
+ die) x 2^35 + line; contexts interface x 512 + number; `versions` lists the version entries by attempt, each with
the key of its context (06 R147). `sliceAt` and `quantumAt` are the cycles of the last slice and quantum boundary,
`filledAt` the cycle up to which the fills of queues are summed (08 R196). `errors` are error records on their way to
the management error queue, and `corrected` counts the corrected errors of a domain since its last report (12 R283);
`further` lists the pseudo-channels of which a further bank has failed while one was copied (11 R264). `cur`, `agenda`
and `free` are the model's own: what issues, the events that come from outside or are asked for, in order, and the
number of the next free value. -/
structure State where
  cur : Option Cur := none
  agenda : List Instr := []
  free : Nat := 0
  cycle : Nat := 0
  next : Nat := 1
  vregs : Cells 64 := []
  cregs : Cells 32 := []
  uregs : Cells 64 := []
  threads : AMap Thread := []
  groups : AMap Group := []
  blocks : AMap Block := []
  bobbins : AMap Bobbin := []
  spad : Cells 8 := []
  acc : Cells 32 := []
  pt : Cells 32 := []
  latches : Cells 512 := []
  latchTags : Cells 8 := []
  accOld : List (Nat × Nat × Cells 32) := []
  ptOld : List (Nat × Nat × Cells 32) := []
  latchOld : List (Nat × Nat × Nat × Cells 512) := []
  tiles : Cells 64 := []
  fills : AMap (Nat × Nat) := []
  cores : AMap CoreRegs := []
  mem : Cells 8 := []
  poison : Cells 1 := []
  shadow : AMap Line := []
  spills : Cells 1 := []
  coreCache : AMap CLine := []
  dieCache : AMap CLine := []
  pins : Cells 1 := []
  coreTlb : AMap (List TlbEntry) := []
  clusterTlb : AMap (List TlbEntry) := []
  dieTlb : AMap (List TlbEntry) := []
  spaces : List (Nat × Nat) := []
  shootdowns : AMap Shootdown := []
  homes : AMap Home := []
  notify : AMap NotifyTarget := []
  deliveries : List Delivery := []
  engines : AMap EngineOp := []
  remote : AMap Remote := []
  launches : AMap Launch := []
  queues : AMap LaunchQueue := []
  versions : AMap Nat := []
  images : AMap Image := []
  drafts : AMap Draft := []
  contexts : AMap Context := []
  ifaces : AMap Iface := []
  sent : List Sent := []
  phase : Phase := .due
  life : LifeCycle := .manufacture
  selfHosted : Bool := false
  dcNext : Nat := 4
  dcSize : Nat := 0
  hotReset : Bool := true
  device : Nat := 0
  errcnt : Cells 64 := []
  errors : List (List Byte) := []
  corrected : Cells 64 := []
  spare : Cells 64 := []
  further : List Nat := []
  schPolicy : BitVec 64 := 1000#64 <<< 32 ||| 100#64 <<< 16 ||| 4
  cap : Nat := 7500
  supplyOk : Bool := true
  withheld : List Nat := []
  treadles : List TreadleMsg := []
  round : Nat := 0
  leader : Option Nat := none
  heard : Nat := 0
  roundAt : Nat := 0
  sliceAt : Nat := 0
  quantumAt : Nat := 0
  filledAt : Nat := 0
  reports : List Nat := []
  deriving DecidableEq, Repr

/-- The machine right after a power-on or cold reset, before BOOT runs: storage empty, every control
word at the reset value of its field map, and what no rule gives as the log names it. -/
def State.reset : State := {}

end Sys2Proof.Machine
end

