-- ==== Sys2Proof/Machine/Memory.lean ====
section
/-! DEFINITION. Memory: bytes at the base dies and in a launch's version, the two cache levels and
their maintenance by scope (04 R96, R97; 05 R116), the on-chip map (04 R83), and translation (04
R106 to R110). -/

namespace Sys2Proof.Machine

/-- Core, cluster and die numbers (01 R13). -/
def clusterOf (core : Nat) : Nat := core / 4
def dieOf (core : Nat) : Nat := core / 192

/-- The cell that a physical address reaches, as its row-local address (11 R259, Table 11.6). The interleaved window
covers the same cells; of its map the spec says only that consecutive 4 KiB granules fall on different stacks (01
R12). Here bits [15:12] give the stack and the bits above them the granule within it: DESIGN CHOICE, unsafe (log entry
14). -/
def cellOf (pa : Nat) : Nat :=
  if bitsOf pa 40 1 = 0 then pa
  else pa / 2 ^ 41 * 2 ^ 41 + bitsOf pa 12 4 * 2 ^ 36 + bitsOf pa 16 24 * 2 ^ 12 + bitsOf pa 0 12

/-- The line of cells that a line of physical addresses reaches: a granule keeps its lines together. -/
def cellLine (ln : Nat) : Nat := cellOf (ln * 64) / 64

/-- The row of the subarray that a physical address reaches (11 Table 11.6). -/
def rowOf (pa : Nat) : Nat := bitsOf (cellOf pa) 10 9

/-- The stack that a physical address reaches (01 R12; 11 Table 11.6); through the interleaved window by the choice that
`cellOf` makes. -/
def stackOf (pa : Nat) : Nat := bitsOf (cellOf pa) 36 4

/-- Whether a physical address reaches a control row (11 R259). -/
def isControlRow (pa : Nat) : Bool := decide (508 ≤ rowOf pa)

/-- A byte of committed memory. Loads of control rows return zero, or all ones for row 510
(11 R259). -/
def State.memByte (s : State) (pa : Nat) : Byte :=
  if isControlRow pa then (if rowOf pa = 510 then 0xFF else 0) else Cells.get s.mem (cellOf pa)

/-- Writes a byte of committed memory; a control row takes none. -/
def State.setMemByte (s : State) (pa : Nat) (b : Byte) : State :=
  if isControlRow pa then s else { s with mem := Cells.set s.mem (cellOf pa) b }

/-- `n` bytes of committed memory, as the base dies serve them. -/
def State.memBytes (s : State) (pa n : Nat) : List Byte := (span pa n).map s.memByte

def State.setMemBytes (s : State) (pa : Nat) : List Byte → State
  | [] => s
  | b :: bs => State.setMemBytes (s.setMemByte pa b) (pa + 1) bs

/-- Byte `i` of a line. -/
def lineByte (d : Line) (i : Nat) : Byte := (d >>> (8 * i)).setWidth 8

/-- A line with byte `i` replaced. -/
def setLineByte (d : Line) (i : Nat) (b : Byte) : Line :=
  (d &&& ~~~(0xFF#512 <<< (8 * i))) ||| (b.setWidth 512 <<< (8 * i))

/-- The bytes of `new` where `mask` is set, of `old` elsewhere. -/
def mergeLine (old new : Line) (mask : LaneMask) : Line :=
  (span 0 64).foldl (fun d i => if mask.getLsbD i then setLineByte d i (lineByte new i) else d) old

/-- Bytes as a line, and back. -/
def lineOfBytes (bs : List Byte) : Line := BitVec.ofNat 512 (leNat bs)

/-- Keys of a launch's shadow line, by its cells, and of a cached line, by its physical address. -/
def shadowKey (tag ln : Nat) : Nat := tag * 2 ^ 35 + cellLine ln
def cacheKey (tag unit ln : Nat) : Nat := (tag * 2 ^ 11 + unit) * 2 ^ 35 + ln

/-- A committed line. -/
def State.memLine (s : State) (ln : Nat) : Line := lineOfBytes (s.memBytes (ln * 64) 64)

/-- A line as the base die serves it to version `tag` (06 R147): the shadow line where one exists,
the committed line otherwise. Tag 0 is committed memory. -/
def State.baseLine (s : State) (tag ln : Nat) : Line :=
  match (if tag = 0 then none else AMap.find? s.shadow (shadowKey tag ln)) with
  | some d => d
  | none => s.memLine ln

/-- Whether a line is poisoned as a version reads it (12 R279). -/
def State.poisoned (s : State) (tag ln : Nat) : Bool :=
  let k := if tag != 0 && (AMap.find? s.shadow (shadowKey tag ln)).isSome then shadowKey tag ln
    else shadowKey 0 ln
  Cells.get s.poison k == 1

/-- Whether the DRAM cache layer of the stack of a line holds its 1 GiB of shadow lines, so that a further one goes to a
shadow pool (06 R147). Lines of every launch are there until they are written home. -/
def State.layerFull (s : State) (ln : Nat) : Bool :=
  let k := stackOf (ln * 64)
  decide (2 ^ 24 ≤ (s.shadow.filter fun (e : Nat × Line) =>
    stackOf (e.1 % 2 ^ 35 * 64) == k && Cells.get s.spills e.1 == 0).length)

/-- Writes the masked bytes of a line at the base die: in place for tag 0, to the shadow line of the
version otherwise (06 R147). A shadow line starts as the committed line. A line stays poisoned until
all of it is written (12 Table 12.5). There is no line outside the 41 bits of physical addresses (01 R12). -/
def State.setBaseLine (s : State) (tag ln : Nat) (d : Line) (mask : LaneMask) : State :=
  let bad : BitVec 1 := if mask ≠ BitVec.allOnes 64 ∧ s.poisoned tag ln then 1 else 0
  let t := { s with poison := Cells.set s.poison (shadowKey tag ln) bad }
  if tag = 0 then
    (span 0 64).foldl
      (fun t i => if mask.getLsbD i then t.setMemByte (ln * 64 + i) (lineByte d i) else t) t
  else if ln < 2 ^ 35 then
    let k := shadowKey tag ln
    let spill : BitVec 1 := if (AMap.find? s.shadow k).isNone && s.layerFull ln then 1 else Cells.get s.spills k
    { t with shadow := AMap.put s.shadow k (mergeLine (s.baseLine tag ln) d mask), spills := Cells.set s.spills k spill }
  else t

/-- Shadow lines go, with all that is kept of them. -/
def State.dropShadow (s : State) (gone : Nat → Bool) : State :=
  { s with
    shadow := AMap.keep (fun k _ => !gone k) s.shadow
    spills := AMap.keep (fun k _ => !gone k) s.spills }

/-- A line in the die cache, fetched clean when absent. -/
def State.dieLine (s : State) (die tag ln : Nat) : CLine × State :=
  match AMap.find? s.dieCache (cacheKey tag die ln) with
  | some c => (c, s)
  | none =>
    let c : CLine := { data := s.baseLine tag ln, dirty := 0 }
    (c, { s with dieCache := AMap.put s.dieCache (cacheKey tag die ln) c })

/-- A line in the core data cache, fetched clean when absent. -/
def State.coreLine (s : State) (core tag ln : Nat) : CLine × State :=
  match AMap.find? s.coreCache (cacheKey tag core ln) with
  | some c => (c, s)
  | none =>
    let (d, t) := s.dieLine (dieOf core) tag ln
    let c : CLine := { data := d.data, dirty := 0 }
    (c, { t with coreCache := AMap.put t.coreCache (cacheKey tag core ln) c })

/-- Writes back the dirty bytes of one line of a die cache. -/
def State.flushDieLine (s : State) (die tag ln : Nat) : State :=
  match AMap.find? s.dieCache (cacheKey tag die ln) with
  | none => s
  | some c =>
    if c.dirty = 0 then s
    else { s.setBaseLine tag ln c.data c.dirty with
           dieCache := AMap.put s.dieCache (cacheKey tag die ln) { c with dirty := 0 } }

/-- Writes back the dirty bytes of one line of a core data cache to the die cache. -/
def State.flushCoreLine (s : State) (core tag ln : Nat) : State :=
  match AMap.find? s.coreCache (cacheKey tag core ln) with
  | none => s
  | some c =>
    if c.dirty = 0 then s
    else
      let (d, t) := s.dieLine (dieOf core) tag ln
      { t with
        dieCache := AMap.put t.dieCache (cacheKey tag (dieOf core) ln)
          { data := mergeLine d.data c.data c.dirty, dirty := d.dirty ||| c.dirty }
        coreCache := AMap.put t.coreCache (cacheKey tag core ln) { c with dirty := 0 } }

/-- Whether a scope is served at the core data cache, at the die cache, or beyond (05 Table 5.1):
0, 1, 2. -/
def serviceLevel : Scope → Nat
  | .core | .group => 0
  | .cluster | .die => 1
  | _ => 2

/-- Writes the own core's dirty bytes of a line out to the point of service of a scope, so that a
thread reads its own latest write there (05 R114). -/
def State.pushLine (s : State) (core tag ln : Nat) (sc : Scope) : State :=
  match serviceLevel sc with
  | 0 => s
  | 1 => s.flushCoreLine core tag ln
  | _ => (s.flushCoreLine core tag ln).flushDieLine (dieOf core) tag ln

/-- A line as an access at a scope reads it (05 R116). -/
def State.readLine (s : State) (core tag : Nat) (cached : Bool) (sc : Scope) (ln : Nat) :
    Line × State :=
  if !cached then (s.baseLine tag ln, s)
  else
    let t := s.pushLine core tag ln sc
    match serviceLevel sc with
    | 0 => let (c, u) := t.coreLine core tag ln; (c.data, u)
    | 1 => let (c, u) := t.dieLine (dieOf core) tag ln; (c.data, u)
    | _ => (t.baseLine tag ln, t)

/-- Puts bytes into a cached copy, if there is one, leaving them clean. -/
def refresh (m : AMap CLine) (key : Nat) (d : Line) (mask : LaneMask) : AMap CLine :=
  AMap.upd m key fun c => { data := mergeLine c.data d mask, dirty := c.dirty &&& ~~~mask }

/-- Writes the masked bytes of a line at a scope's point of service (05 R116); narrower copies on
the way take the bytes too. -/
def State.writeLine (s : State) (core tag : Nat) (cached : Bool) (sc : Scope) (ln : Nat) (d : Line)
    (mask : LaneMask) : State :=
  if !cached then s.setBaseLine tag ln d mask
  else
    match serviceLevel sc with
    | 0 =>
      let (c, t) := s.coreLine core tag ln
      let c' : CLine := { data := mergeLine c.data d mask, dirty := c.dirty ||| mask }
      { t with coreCache := AMap.put t.coreCache (cacheKey tag core ln) c' }
    | 1 =>
      let (c, t) := (s.flushCoreLine core tag ln).dieLine (dieOf core) tag ln
      { t with
        dieCache := AMap.put t.dieCache (cacheKey tag (dieOf core) ln)
          { data := mergeLine c.data d mask, dirty := c.dirty ||| mask }
        coreCache := refresh t.coreCache (cacheKey tag core ln) d mask }
    | _ =>
      let t := (s.pushLine core tag ln sc).setBaseLine tag ln d mask
      { t with
        dieCache := refresh t.dieCache (cacheKey tag (dieOf core) ln) d mask
        coreCache := refresh t.coreCache (cacheKey tag core ln) d mask }

/-- The unit, tag and line of a cache key. -/
def keyUnit (k : Nat) : Nat := k / 2 ^ 35 % 2 ^ 11
def keyTag (k : Nat) : Nat := k / 2 ^ 46
def keyLine (k : Nat) : Nat := k % 2 ^ 35

/-- Writes back every dirty line of a core data cache. -/
def State.flushCore (s : State) (core : Nat) : State :=
  s.coreCache.foldl
    (fun t e => if keyUnit e.1 = core then t.flushCoreLine core (keyTag e.1) (keyLine e.1) else t) s

/-- Writes back every dirty line of a die cache. -/
def State.flushDie (s : State) (die : Nat) : State :=
  s.dieCache.foldl
    (fun t e => if keyUnit e.1 = die then t.flushDieLine die (keyTag e.1) (keyLine e.1) else t) s

/-- A core data cache gives up a line, written back first (04 R96: the caches are finite). -/
def State.replaceCoreLine (s : State) (key : Nat) : State :=
  let t := s.flushCoreLine (keyUnit key) (keyTag key) (keyLine key)
  { t with coreCache := AMap.del t.coreCache key }

/-- Whether any context has pinned a cached line of a die (04 R100). -/
def State.heldLine (s : State) (key : Nat) : Bool :=
  s.pins.any fun (e : Nat × BitVec 1) => e.1 % 2 ^ 38 == keyUnit key * 2 ^ 35 + keyLine key

/-- A die cache gives up a line, written back first; a pinned line is never chosen (04 R100). -/
def State.replaceDieLine (s : State) (key : Nat) : State :=
  if s.heldLine key then s
  else
    let t := s.flushDieLine (keyUnit key) (keyTag key) (keyLine key)
    { t with dieCache := AMap.del t.dieCache key }

/-- The write-back of a release (04 Table 4.7). -/
def State.releaseCaches (s : State) (core : Nat) (sc : Scope) : State :=
  match serviceLevel sc with
  | 0 => s
  | 1 => s.flushCore core
  | _ => (s.flushCore core).flushDie (dieOf core)

/-- The invalidation of an acquire (04 Table 4.7). Dirty bytes are written back first, so that a line
that stays holds nothing stale. -/
def State.acquireCaches (s : State) (core : Nat) (sc : Scope) : State :=
  match serviceLevel sc with
  | 0 => s
  | 1 =>
    let t := s.flushCore core
    { t with coreCache := AMap.keep (fun k _ => keyUnit k != core) t.coreCache }
  | _ =>
    let t := (s.flushCore core).flushDie (dieOf core)
    { t with coreCache := AMap.keep (fun k _ => keyUnit k != core) t.coreCache
             dieCache := AMap.keep (fun k _ => keyUnit k != dieOf core) t.dieCache }

/-- An error record (12 Table 12.8): domain, kind, unit, interface, context, address, LSN, and the time. -/
def State.errorRecord (s : State) (domain kind unit vi ctx addr lsn : Nat) : List Byte :=
  leBytes 1 domain ++ leBytes 1 kind ++ leBytes 2 unit ++ leBytes 1 vi ++ [0]
    ++ leBytes 2 ctx ++ leBytes 8 addr ++ leBytes 8 lsn ++ leBytes 8 (s.cycle * 20 / 21)

/-- The UNCORR field of an error domain rises, saturating (12 R282). -/
def State.bumpUncorr (s : State) (domain : Nat) : State :=
  let w := (Cells.get s.errcnt domain).toNat
  let n := w / 2 ^ 32 % 2 ^ 16
  { s with
    errcnt := Cells.set s.errcnt domain (BitVec.ofNat 64 (w % 2 ^ 32 + (if n = 65535 then n else n + 1) * 2 ^ 32)) }

/-- Counts an event in the UNCORR field of an error domain, and reports it (12 R282, R283). -/
def State.countError (s : State) (domain kind unit vi ctx addr lsn : Nat) : State :=
  { s.bumpUncorr domain with errors := s.errors ++ [s.errorRecord domain kind unit vi ctx addr lsn] }

/-- A configuration event in domain 10 (12 Table 12.6) that no launch is named for. -/
def State.configEvent (s : State) : State := s.countError 10 3 0 0xFF 0xFFFF 0 0

/-- The device timebase in nanoseconds (13 R289): the core clock is 1.05 GHz (01 R19). -/
def State.time (s : State) : Nat := s.cycle * 20 / 21

/-- Byte `i` of a word. -/
def wordByte {w : Nat} (v : BitVec w) (i : Nat) : Byte := (v >>> (8 * i)).setWidth 8

/-- A word with byte `i` replaced. -/
def setWordByte {w : Nat} (v : BitVec w) (i : Nat) (b : Byte) : BitVec w :=
  (v &&& ~~~(0xFF#w <<< (8 * i))) ||| (b.setWidth w <<< (8 * i))

/-- Keys of a core's cluster register, accumulator element, partial-tile element, latch line. -/
def cregKey (core file reg lane : Nat) : Nat := ((core * 4 + file) * 1536 + reg) * 64 + lane
def accKey (core tile el : Nat) : Nat := (core * 128 + tile) * 512 + el
def latchKey (core latch line plane : Nat) : Nat := ((core * 10 + latch) * 32 + line) * 16 + plane
def spadKey (core off : Nat) : Nat := core * 2 ^ 21 + off

/-- What a tile held before native writes to it that have not landed (10 R234). -/
def oldTile (l : List (Nat × Nat × Cells 32)) (cycle tile : Nat) : Option (Cells 32) :=
  match l.find? fun e => e.2.1 == tile && decide (cycle < e.1) with
  | some e => some e.2.2
  | none => none

/-- An element of an accumulator tile, or of a partial tile, as it reads at this cycle. -/
def State.accSeen (s : State) (core tile el : Nat) : BitVec 32 :=
  match oldTile s.accOld s.cycle (core * 128 + tile) with
  | some o => Cells.get o el
  | none => Cells.get s.acc (accKey core tile el)

def State.ptSeen (s : State) (core tile el : Nat) : BitVec 32 :=
  match oldTile s.ptOld s.cycle (core * 128 + tile) with
  | some o => Cells.get o el
  | none => Cells.get s.pt (accKey core tile el)

/-- Whether an on-chip address is reserved (04 R83, Table 4.2). -/
def chipReserved (oc : Nat) : Bool := decide (1536 ≤ oc / 0x800000) || decide (0x3E4800 ≤ oc % 0x800000)

/-- Byte `i` of a line of a latch as its window shows it: the packed codes, or what the window shows of bit planes,
which no rule lays out (log entry 1). -/
def State.latchByte (s : State) (core latch line i : Nat) : Byte :=
  if Cells.get s.latchTags (core * 10 + latch) = 2 then
    Config.planeByte ((span 0 8).map fun p => Cells.get s.latches (latchKey core latch line p)) i
  else wordByte (Cells.get s.latches (latchKey core latch line 15)) i

/-- A byte of the on-chip map (04 Table 4.2). Reserved addresses read zero. -/
def State.chipByte (s : State) (oc : Nat) : Byte :=
  let core := oc / 0x800000
  let o := oc % 0x800000
  if chipReserved oc then 0
  else if o < 0x200000 then Cells.get s.spad (spadKey core o)
  else if o < 0x380000 then
    let r := (o - 0x200000) % 0x60000
    wordByte (Cells.get s.cregs (cregKey core ((o - 0x200000) / 0x60000) (r / 256) (r % 256 / 4)))
      (r % 4)
  else if o < 0x3C0000 then
    let r := o - 0x380000
    wordByte (s.accSeen core (r / 2048) (r % 2048 / 4)) (r % 4)
  else if o < 0x3E0000 then
    let r := o - 0x3C0000
    wordByte (s.ptSeen core (r / 2048) (r % 2048 / 4)) (r % 4)
  else if o < 0x3E4000 then
    let r := o - 0x3E0000
    s.latchByte core (r / 2048) (r % 2048 / 64) (r % 64)
  else
    let r := o - 0x3E4000
    s.latchByte core (8 + r / 1024) (r % 1024 / 64) (r % 64)

/-- Writes a byte through the on-chip map; a reserved address takes nothing (04 R83). No grant names a latch (04 R84), so
no write of a program reaches one here. -/
def State.setChipByte (s : State) (oc : Nat) (b : Byte) : State :=
  let core := oc / 0x800000
  let o := oc % 0x800000
  if chipReserved oc then s
  else if o < 0x200000 then { s with spad := Cells.set s.spad (spadKey core o) b }
  else if o < 0x380000 then
    let r := (o - 0x200000) % 0x60000
    let k := cregKey core ((o - 0x200000) / 0x60000) (r / 256) (r % 256 / 4)
    { s with cregs := Cells.set s.cregs k (setWordByte (Cells.get s.cregs k) (r % 4) b) }
  else if o < 0x3C0000 then
    let r := o - 0x380000
    let k := accKey core (r / 2048) (r % 2048 / 4)
    { s with acc := Cells.set s.acc k (setWordByte (Cells.get s.acc k) (r % 4) b) }
  else if o < 0x3E0000 then
    let r := o - 0x3C0000
    let k := accKey core (r / 2048) (r % 2048 / 4)
    { s with pt := Cells.set s.pt k (setWordByte (Cells.get s.pt k) (r % 4) b) }
  else if o < 0x3E4000 then
    let r := o - 0x3E0000
    let k := latchKey core (r / 2048) (r % 2048 / 64) 15
    { s with latches := Cells.set s.latches k (setWordByte (Cells.get s.latches k) (r % 64) b) }
  else
    let r := o - 0x3E4000
    let k := latchKey core (8 + r / 1024) (r % 1024 / 64) 15
    { s with latches := Cells.set s.latches k (setWordByte (Cells.get s.latches k) (r % 64) b) }

def State.chipBytes (s : State) (oc n : Nat) : List Byte := (span oc n).map s.chipByte

def State.setChipBytes (s : State) (oc : Nat) : List Byte → State
  | [] => s
  | b :: bs => State.setChipBytes (s.setChipByte oc b) (oc + 1) bs

/-- An access to `n` bytes of the on-chip map that touches a reserved address is counted, once (04 R83). -/
def State.noteReserved (s : State) (oc n : Nat) : State :=
  if (span oc n).any chipReserved then s.configEvent else s

/-- The bytes of a line at offsets from `o` up, as a line and a mask. -/
def lineSlice (o : Nat) (bs : List Byte) : Line × LaneMask :=
  (BitVec.ofNat 512 (leNat bs * 2 ^ (8 * o)), BitVec.ofNat 64 ((2 ^ bs.length - 1) * 2 ^ o))

/-- Reads `n` bytes at a place; an access never crosses a line, since it is aligned (04 R80). Memory
of a peer answers with a value that is no part of this machine (log entry 20). -/
def State.readPlace (s : State) (core : Nat) (p : Place) (n : Nat) : List Byte × State :=
  match p with
  | .g pa tag cached sc =>
    let (d, t) := s.readLine core tag cached sc (pa / 64)
    ((span (pa % 64) n).map (lineByte d), t)
  | .chip oc => (s.chipBytes oc n, s.noteReserved oc n)
  | .peer _ _ => (leBytes n (Config.free s.free), { s with free := s.free + 1 })
  | .held _ _ => (leBytes n 0, s)

/-- Writes bytes at a place. A store to a peer leaves the device; a held one waits (04 R85). -/
def State.writePlace (s : State) (core : Nat) (p : Place) (bs : List Byte) : State :=
  match p with
  | .g pa tag cached sc =>
    let (d, m) := lineSlice (pa % 64) bs
    s.writeLine core tag cached sc (pa / 64) d m
  | .chip oc => (s.setChipBytes oc bs).noteReserved oc bs.length
  | .peer dev va => { s with sent := s.sent ++ [.peerStore dev va bs] }
  | .held _ _ => s

/-- Writes bytes of committed memory at the base dies, inside one line. -/
def State.putBytes (s : State) (pa : Nat) (bs : List Byte) : State :=
  let (d, m) := lineSlice (pa % 64) bs
  s.setBaseLine 0 (pa / 64) d m

/-- The parts of `n` bytes from an address on, each inside one line: address and length. -/
def lineParts (a n : Nat) : List (Nat × Nat) :=
  if n = 0 then []
  else (span (a / 64) ((a + n - 1) / 64 + 1 - a / 64)).map fun k =>
    (max a (k * 64), min (a + n) (k * 64 + 64) - max a (k * 64))

/-- Writes the bytes of a list into runs of physical memory, none of which crosses a line. -/
def State.putRuns (s : State) : List (Nat × Nat) → List Byte → State
  | [], _ => s
  | (pa, k) :: l, bs => (s.putBytes pa (bs.take k)).putRuns l (bs.drop k)

/-- An 8-byte word of committed memory at the base dies. -/
def State.memWord (s : State) (pa : Nat) : Nat := leNat (s.memBytes pa 8)

/-- What a walk found: physical page base, page size in bits, permissions, and the page-table
entries it updates with A and D (04 R108). -/
structure Leaf where
  pa : Nat
  bits : Nat
  rd : Bool
  wr : Bool
  updates : List (Nat × Nat)
  deriving DecidableEq, Repr

/-- A page fault or permission fault of a walk (12 Table 12.1). -/
def pageFault (write g : Bool) (va : Nat) : Flt :=
  { code := .pageNotPresent, detail := (if write then 1 else 0) + (if g then 2 else 0), addr := va }

def permFault (reason va : Nat) : Flt := { code := .permission, detail := reason, addr := va }

/-- What meets an access to what an uncorrectable error has destroyed (12 R279). -/
def lostAt (va : Nat) : Flt := { code := .permission, addr := va, lost := true }

/-- Judges one page-table entry at `level` (04 Table 4.12): a fault, a leaf (its base, bits and
permissions) or the next table. -/
def judgePte (pte level : Nat) (write g : Bool) (va : Nat) : Except Flt (Option (Nat × Nat) × Nat) :=
  let bit (i : Nat) : Bool := bitsOf pte i 1 = 1
  let ppn := bitsOf pte 10 44
  if !bit 0 then .error (pageFault write g va)
  else if (bit 2 && !bit 1) || bitsOf pte 54 7 ≠ 0 then .error (permFault 2 va)
  else if !bit 1 && !bit 2 && !bit 3 then
    if bit 63 || level = 0 then .error (permFault 2 va) else .ok (none, ppn * 4096)
  else if 3 ≤ level then .error (permFault 2 va)
  else if bit 63 && (level ≠ 0 || ppn % 16 ≠ 8) then .error (permFault 2 va)
  else if ppn % 2 ^ (9 * level) ≠ 0 then .error (permFault 2 va)
  else if !bit 4 then .error (permFault 2 va)
  else if (write && !bit 2) || (!write && !bit 1) then .error (permFault 2 va)
  else
    let bits := if bit 63 then 16 else 12 + 9 * level
    .ok (some (ppn * 4096 / 2 ^ bits * 2 ^ bits, bits), ppn)

/-- A walk from `level` down. `look` reads one entry: its value, the physical address it lies at and
the entries updated on the way to it. -/
def walk (look : Nat → Except Flt (Nat × Nat × List (Nat × Nat))) (write g : Bool) (va addr : Nat) :
    Nat → Nat → Except Flt Leaf
  | level, base =>
    let idx := if level = 4 ∧ g then bitsOf addr 48 11 else bitsOf addr (12 + 9 * level) 9
    match look (base + 8 * idx) with
    | .error f => .error f
    | .ok (pte, at_, ups) =>
      match judgePte pte level write g va with
      | .error f => .error f
      | .ok (some (pa, bits), _) =>
        let new := pte ||| 0x40 ||| (if write then 0x80 else 0)
        .ok { pa, bits, rd := bitsOf pte 1 1 = 1, wr := bitsOf pte 2 1 = 1,
              updates := if new = pte then ups else ups ++ [(at_, new)] }
      | .ok (none, next) =>
        match level with
        | 0 => .error (permFault 2 va)
        | l + 1 =>
          match walk look write g va addr l next with
          | .error f => .error f
          | .ok leaf => .ok { leaf with updates := ups ++ leaf.updates }

/-- Whether an hgatp value may be used (04 R106): none, or MODE 10 with a VMID of 8 bits in its field [57:44], and
zero in the two bits above, which the format reserves. -/
def gStageOk (hgatp : Nat) : Bool :=
  hgatp == 0 || (bitsOf hgatp 60 4 == 10 && bitsOf hgatp 52 8 == 0)

/-- The physical address behind a guest physical one (04 R106, R108): the G-stage, Sv57x4, or none. -/
def State.gStage (s : State) (hgatp gpa : Nat) (write : Bool) (va : Nat) : Except Flt Leaf :=
  if hgatp = 0 then .ok { pa := gpa / 2 ^ 30 * 2 ^ 30, bits := 30, rd := true, wr := true, updates := [] }
  else if 2 ^ 59 ≤ gpa then .error (permFault 2 va)
  else walk (fun a => .ok (s.memWord a, a, [])) write true va gpa 4 (bitsOf hgatp 0 44 * 4096)

/-- A leaf's address of an offset. -/
def Leaf.addr (l : Leaf) (a : Nat) : Nat := l.pa + a % 2 ^ l.bits

/-- Both stages for a `.g` address (04 R106 to R108). Table 4.12 names no outcome for an address past the 2^41 of the two
windows; it faults as a bad entry does, PERMISSION with detail 2: DESIGN CHOICE (log entry 39). -/
def State.walkBoth (s : State) (satp hgatp va : Nat) (write : Bool) : Except Flt Leaf :=
  let top := if bitsOf satp 60 4 = 10 then 4 else 3
  let look (a : Nat) : Except Flt (Nat × Nat × List (Nat × Nat)) :=
    match s.gStage hgatp a false va with
    | .error f => .error f
    | .ok l => .ok (s.memWord (l.addr a), l.addr a, l.updates)
  match walk look write false va va top (bitsOf satp 0 44 * 4096) with
  | .error f => .error f
  | .ok l =>
    let gpa := l.addr va
    match s.gStage hgatp gpa write va with
    | .error f => .error f
    | .ok g =>
      let bits := Nat.min l.bits g.bits
      let pa := g.addr gpa
      if 2 ^ 41 ≤ pa then .error (permFault 2 va)
      else .ok { pa := pa / 2 ^ bits * 2 ^ bits, bits, rd := l.rd && g.rd, wr := l.wr && g.wr,
                 updates := l.updates ++ g.updates }

/-- The physical addresses of the entries that a walk from `level` down reads. `look` answers an entry and what was
read on the way to it. -/
def walkReads (look : Nat → Option (Nat × List Nat)) (g : Bool) (addr : Nat) : Nat → Nat → List Nat
  | level, base =>
    let idx := if level = 4 ∧ g then bitsOf addr 48 11 else bitsOf addr (12 + 9 * level) 9
    match look (base + 8 * idx) with
    | none => []
    | some (pte, reads) =>
      match judgePte pte level false g addr, level with
      | .ok (none, next), l + 1 => reads ++ walkReads look g addr l next
      | _, _ => reads

/-- The page-table entries that a walk for a `.g` address reads, those of the G-stage among them. -/
def State.ptesOf (s : State) (satp hgatp va : Nat) : List Nat :=
  let guest (gpa : Nat) : List Nat :=
    if hgatp = 0 then [] else walkReads (fun a => some (s.memWord a, [a])) true gpa 4 (bitsOf hgatp 0 44 * 4096)
  let look (a : Nat) : Option (Nat × List Nat) :=
    match s.gStage hgatp a false va with
    | .error _ => none
    | .ok l => some (s.memWord (l.addr a), guest a ++ [l.addr a])
  let top := if bitsOf satp 60 4 = 10 then 4 else 3
  let root := bitsOf satp 0 44 * 4096
  let reads := walkReads look false va top root
  match walk (fun a => (s.gStage hgatp a false va).map fun l => (s.memWord (l.addr a), l.addr a, [])) false false va va
      top root with
  | .ok l => reads ++ guest (l.addr va)
  | .error _ => reads

/-- Whether a walk would read a page-table entry that an uncorrectable error has destroyed (12 Table 12.5). -/
def State.walkLost (s : State) (satp hgatp va : Nat) : Bool :=
  !s.poison.isEmpty && (s.ptesOf satp hgatp va).any fun a => s.poisoned 0 (a / 64)

/-- Whether a `.g` address is canonical (04 R107). -/
def canonical (satp va : Nat) : Bool :=
  if bitsOf satp 60 4 = 10 then bitsOf va 57 7 = (if bitsOf va 56 1 = 1 then 127 else 0)
  else bitsOf va 48 16 = (if bitsOf va 47 1 = 1 then 65535 else 0)

/-- Whether a TLB entry serves an access; a store needs the entry's D (04 R108). -/
def TlbEntry.serves (e : TlbEntry) (asid vmid va : Nat) (write : Bool) : Bool :=
  e.asid == asid && e.vmid == vmid && va / 2 ^ e.bits == e.va / 2 ^ e.bits
    && (if write then e.wr && e.dirty else e.rd)

/-- Adds an entry to a structure of `n` entries, the oldest leaving. -/
def addTlb (n : Nat) (e : TlbEntry) (l : List TlbEntry) : List TlbEntry := (e :: l).take n

/-- The entries of a unit. -/
def tlbOf (m : AMap (List TlbEntry)) (unit : Nat) : List TlbEntry := (AMap.find? m unit).getD []

/-- Sets page-table entries by atomic updates at the base die (04 R108). -/
def State.setPtes (s : State) : List (Nat × Nat) → State
  | [] => s
  | (a, v) :: us => State.setPtes (s.setMemBytes a (leBytes 8 v)) us

/-- Puts an entry into the three structures a core uses (04 Table 4.13). -/
def State.fillTlbs (s : State) (core : Nat) (e : TlbEntry) : State :=
  { s with
    coreTlb := AMap.put s.coreTlb core (addTlb 64 e (tlbOf s.coreTlb core))
    clusterTlb := AMap.put s.clusterTlb (clusterOf core)
      (addTlb 2048 e (tlbOf s.clusterTlb (clusterOf core)))
    dieTlb := AMap.put s.dieTlb (dieOf core) (addTlb 32768 e (tlbOf s.dieTlb (dieOf core))) }

/-- A walk that a core's access makes: the entry found, with A and D set (04 R108, R109). -/
def State.walkAndFill (s : State) (core satp hgatp va : Nat) (write : Bool) :
    Except Flt (TlbEntry × State) :=
  match s.walkBoth satp hgatp va write with
  | .error f => .error f
  | .ok l =>
    let e : TlbEntry := { asid := bitsOf satp 44 16, vmid := bitsOf hgatp 44 8, va, bits := l.bits,
                          pa := l.pa, rd := l.rd, wr := l.wr, dirty := write }
    .ok (e, (s.setPtes l.updates).fillTlbs core e)

/-- The TLB entry that serves an access of a core, if one does. -/
def State.tlbHit (s : State) (core satp hgatp va : Nat) (write : Bool) : Option TlbEntry :=
  (tlbOf s.coreTlb core ++ tlbOf s.clusterTlb (clusterOf core) ++ tlbOf s.dieTlb (dieOf core)).find? fun e =>
    e.serves (bitsOf satp 44 16) (bitsOf hgatp 44 8) va write

/-- Translation for a core: a TLB entry if one serves, else a walk (04 R106 to R109). -/
def State.translate (s : State) (core satp hgatp va : Nat) (write : Bool) :
    Except Flt (Nat × State) :=
  if !canonical satp va then .error (permFault 1 va)
  else
    match s.tlbHit core satp hgatp va write with
    | some e => .ok (e.pa + va % 2 ^ e.bits, s)
    | none =>
      if s.walkLost satp hgatp va then .error (lostAt va)
      else match s.walkAndFill core satp hgatp va write with
      | .error f => .error f
      | .ok (e, t) => .ok (e.pa + va % 2 ^ e.bits, t)

/-- The flags word of the attribute range that covers an address; 0, the default attributes, when
none does (04 R104). -/
def attrFlags (attrs : List Attr) (va : Nat) : Nat :=
  match attrs.find? fun a => decide (a.lo ≤ va) && decide (va < a.hi) with
  | some a => a.flags.toNat
  | none => 0

/-- Fields of a flags word (04 Table 4.11). -/
def isImmediate (f : Nat) : Bool := bitsOf f 1 1 = 1
def isMside (f : Nat) : Bool := bitsOf f 2 1 = 1
def isCcap (f : Nat) : Bool := bitsOf f 3 1 = 1
def isFabric (f : Nat) : Bool := bitsOf f 8 1 = 1
def peerOf (f : Nat) : Nat := bitsOf f 9 10
def cachePolicy (f : Nat) : Nat := bitsOf f 4 2

/-- Whether the bytes from `lo` up to below `hi` lie in claims with a right, which may join end to
end. -/
def covered (cs : List Claim) (write : Bool) (hi : Nat) : Nat → Nat → Bool
  | 0, lo => decide (hi ≤ lo)
  | n + 1, lo =>
    if hi ≤ lo then true
    else
      match cs.find? fun c => (if write then c.wr else c.rd) && decide (c.lo ≤ lo) && decide (lo < c.hi) with
      | some c => covered cs write hi n c.hi
      | none => false

/-- Whether `n` bytes lie in the read set or the write set (06 R139, R146). -/
def claimed (cs : List Claim) (write : Bool) (va n : Nat) : Bool :=
  covered cs write (va + n) cs.length va

/-- The version tag of a launch's access: its attempt in a transactional range, 0 in an immediate
one or when the launch is irrevocable (05 R123, R124; 06 R150). -/
def Launch.tag (l : Launch) (flags : Nat) : Nat :=
  if isImmediate flags || l.irrevocable then 0 else l.attempt

/-- The place of a physical address of a launch under a range's attributes (04 R98). -/
def Launch.place (l : Launch) (flags va pa : Nat) (sc : Scope) : Place :=
  if isFabric flags then .peer (peerOf flags) va
  else .g pa (l.tag flags) (!isMside flags && cachePolicy flags != 2) sc

end Sys2Proof.Machine
end

