-- ==== Sys2Proof/Machine/Image.lean ====
section
/-! DEFINITION. Reading a schedule image (06 R135 to R139): header, directory, stage entries, and
the code a path fetches. -/

namespace Sys2Proof.Machine

/-- `n` bytes of a byte string at an offset, as a number; past the end it reads zeros. -/
def field (bs : List Byte) (off n : Nat) : Nat := leNat ((bs.drop off).take n)

/-- One directory entry (06 Table 6.2). -/
structure Section where
  kind : Nat
  link : Nat
  off : Nat
  size : Nat
  deriving DecidableEq, Repr

/-- Directory entry `i`. -/
def sectionAt (img : List Byte) (i : Nat) : Section :=
  let e := img.drop (64 + 16 * i)
  { kind := field e 0 1, link := field e 1 1, off := field e 8 4, size := field e 12 4 }

/-- The number of sections (06 Table 6.1). -/
def sectionCount (img : List Byte) : Nat := field img 12 2

/-- The directory, with each entry's index. -/
def sections (img : List Byte) : List (Nat × Section) :=
  (span 0 (sectionCount img)).map fun i => (i, sectionAt img i)

/-- The bytes of a section. -/
def Section.bytes (img : List Byte) (x : Section) : List Byte := (img.drop x.off).take x.size

/-- The first section of a kind. -/
def sectionOf (img : List Byte) (kind : Nat) : Option Section :=
  match (sections img).find? fun e => e.2.kind == kind with
  | some e => some e.2
  | none => none

/-- The bytes of the first section of a kind; empty when there is none. -/
def sectionBytes (img : List Byte) (kind : Nat) : List Byte :=
  match sectionOf img kind with
  | some x => x.bytes img
  | none => []

/-- Whether the image carries native code (06 Table 6.1). -/
def isNative (img : List Byte) : Bool := field img 6 1 == 1

/-- The number of stages. -/
def stageCount (img : List Byte) : Nat := (sectionBytes img 1).length / 64

/-- A stage entry (06 Table 6.4). -/
structure Stage where
  entry : Nat
  code : Nat
  quad : Bool
  weight : Nat
  gdim : Nat × Nat × Nat
  bdim : Nat × Nat × Nat
  minCores : Nat
  maxCores : Nat
  spadLog : Nat
  accTiles : Nat
  regs : Nat
  contexts : Nat
  deriving DecidableEq, Repr

/-- Stage `i` of an image. -/
def stageAt (img : List Byte) (i : Nat) : Stage :=
  let e := (sectionBytes img 1).drop (64 * i)
  { entry := field e 0 4, code := field e 4 1, quad := field e 5 1 % 2 == 1, weight := field e 6 2
    gdim := (field e 8 4, field e 12 4, field e 16 4)
    bdim := (field e 20 2, field e 22 2, field e 24 2)
    minCores := field e 26 2, maxCores := field e 28 2, spadLog := field e 30 1
    accTiles := field e 31 1, regs := field e 32 2, contexts := field e 34 1 }

/-- Threads of a block, and blocks of a grid (02 R22, Table 2.1). -/
def Stage.threads (x : Stage) : Nat := x.bdim.1 * x.bdim.2.1 * x.bdim.2.2
def Stage.blocks (x : Stage) : Nat := x.gdim.1 * x.gdim.2.1 * x.gdim.2.2

/-- The scratchpad allocation in bytes. -/
def Stage.spadSize (x : Stage) : Nat := 2 ^ x.spadLog

/-- The smallest power of two that is at least `n`, from `p` up. -/
def powUp (n : Nat) : Nat → Nat → Nat
  | 0, p => p
  | f + 1, p => if n ≤ p then p else powUp n f (2 * p)

/-- The register range of a block in one file (08 R198), and its range of accumulator tiles. -/
def Stage.regRange (x : Stage) : Nat := powUp (x.regs * x.contexts) 13 16
def Stage.accRange (x : Stage) : Nat := if x.accTiles = 0 then 0 else powUp x.accTiles 8 1

/-- The code section of a stage: its directory index and bytes. -/
def codeOf (img : List Byte) (stage : Nat) : List Byte :=
  (sectionAt img (stageAt img stage).code).bytes img

/-- The twin section of a code section. -/
def twinSection (img : List Byte) (code : Nat) : Option Section :=
  ((sections img).find? fun e => e.2.kind == 12 && e.2.link == code).map fun e => e.2

/-- The code that a stage's program counters count in: the code section, with its twin directly after it (log entry
10). -/
def codeSpace (img : List Byte) (stage : Nat) : List Byte :=
  codeOf img stage ++ ((twinSection img (stageAt img stage).code).map fun t => t.bytes img).getD []

/-- Block coordinates of a linear index (02 R22). -/
def Stage.bid (x : Stage) (linear : Nat) : Nat × Nat × Nat :=
  (linear % x.gdim.1, linear / x.gdim.1 % x.gdim.2.1, linear / x.gdim.1 / x.gdim.2.1)

/-- Thread coordinates of a linear index (02 R22). -/
def Stage.tid (x : Stage) (t : Nat) : Nat × Nat × Nat :=
  (t % x.bdim.1, t / x.bdim.1 % x.bdim.2.1, t / x.bdim.1 / x.bdim.2.1)

end Sys2Proof.Machine
end

