-- ==== Sys2Proof/Machine/Places.lean ====
section
/-! DEFINITION. Where an on-chip access leads: the checks and places of the `.l`, `.c` and `.w` spaces (04 R80 to R87; 07
R173). -/

namespace Sys2Proof.Machine

/-- The image the launch runs. -/
def State.imageBytes (s : State) (l : Launch) : List Byte :=
  match AMap.find? s.images l.image with
  | some i => i.bytes
  | none => []

/-- The stage entry of a block. -/
def State.stageOf (s : State) (b : Block) (l : Launch) : Stage := stageAt (s.imageBytes l) b.stage

/-- What an access needs: its size, the right it uses, and whether it is an atomic. -/
structure Need where
  n : Nat
  write : Bool := false
  atomic : Bool := false
  deriving DecidableEq, Repr

/-- How an access resolves: its place, a fault, or a window target that is not RESIDENT. -/
inductive Resolved where
  | ok (p : Place)
  | fault (f : Flt)
  | hold (h : Nat)
  deriving DecidableEq, Repr

/-- The on-chip address of a physical scratchpad offset of a core. -/
def spadChip (core x : Nat) : Nat := core * 0x800000 + x

/-- The swizzle of an offset within an allocation (04 R87). -/
def swizzle (m a : Nat) : Nat := if m = 0 then a else a ^^^ (a / 2 ^ (10 + m) % 32 * 64)

/-- Whether `n` bytes at an offset of an allocation touch its barrier page (07 R173). -/
def touchesPage (size a n : Nat) : Bool := decide (size < a + n + 4096)

/-- Bounds and barrier page of an access to a scratchpad allocation (04 Table 4.1; 07 R173). -/
def spadFault (size a : Nat) (need : Need) : Option Flt :=
  if size < a + need.n then some { code := .permission, detail := 3, addr := a }
  else if need.write ∧ touchesPage size a need.n then some { code := .permission, detail := 5, addr := a }
  else none

/-- A `.l` address (04 R80). -/
def State.resolveL (s : State) (b : Block) (l : Launch) (sw a : Nat) (need : Need) : Resolved :=
  let size := (s.stageOf b l).spadSize
  match spadFault size a need with
  | some f => .fault f
  | none => .ok (.chip (spadChip b.core (b.spadBase + swizzle sw a)))

/-- Grant `h` of an image (04 Table 4.3): kind, rights, stage, block, offset, size. -/
structure Grant where
  kind : Nat
  rights : Nat
  stage : Nat
  block : Nat
  off : Nat
  size : Nat
  deriving DecidableEq, Repr

def grantCount (img : List Byte) : Nat := (sectionBytes img 4).length / 16

def grantAt (img : List Byte) (h : Nat) : Grant :=
  let e := (sectionBytes img 4).drop (16 * h)
  { kind := field e 0 1, rights := field e 1 1, stage := field e 2 1, block := field e 4 4,
    off := field e 8 4, size := field e 12 4 }

/-- The rights an access needs (04 R84). -/
def Grant.permits (g : Grant) (need : Need) : Bool :=
  if need.atomic then bitsOf g.rights 2 1 == 1
  else if need.write then bitsOf g.rights 1 1 == 1
  else bitsOf g.rights 0 1 == 1

def windowFault (h step addr : Nat) : Flt :=
  { code := .windowDenied, detail := h % 256 + step * 256, addr }

/-- The key of a block of a launch's present attempt. -/
def blockKey (l : Launch) (stage linear : Nat) : Nat := l.attempt * 2 ^ 36 + stage * 2 ^ 32 + linear

/-- Whether a block stands on its core: RESIDENT, FROZEN or HALTED, and not saved. -/
def Block.onCore (b : Block) : Bool :=
  (b.st == .resident || b.st == .frozen || b.st == .halted) && b.saved.isNone

/-- Whether `n` bytes at a physical scratchpad offset of a core touch the barrier page of a block that stands there
(07 R173). -/
def State.pageAt (s : State) (core x n : Nat) : Bool :=
  s.blocks.any fun (e : Nat × Block) =>
    e.2.onCore && e.2.core == core &&
      (match AMap.find? s.launches e.2.launch with
      | some l =>
        let hi := e.2.spadBase + (s.stageOf e.2 l).spadSize
        decide (hi < x + n + 4096) && decide (x < hi)
      | none => false)

/-- A `.c` address (04 R81): of a quad, the peer block's allocation; of another block, the physical scratchpad of the
peer core under a CLUSTER_SCRATCH grant. No rule says what an access to a quad block that holds no allocation meets,
since it has retired, is saved or is not there: PERMISSION with detail 3, DESIGN CHOICE (log entry 35). -/
def State.resolveC (s : State) (b : Block) (l : Launch) (sw a : Nat) (need : Need) : Resolved :=
  let img := s.imageBytes l
  let st := s.stageOf b l
  let q := bitsOf a 21 2
  let off := a % 2 ^ 21 + bitsOf a 23 9 * 2 ^ 21
  if st.quad then
    match AMap.find? s.blocks (blockKey l b.stage (b.linear / 4 * 4 + q)) with
    | some x =>
      if !x.onCore then .fault (permFault 3 a)
      else
        match spadFault st.spadSize off need with
        | some f => .fault { f with addr := a }
        | none => .ok (.chip (spadChip x.core (x.spadBase + swizzle sw off)))
    | none => .fault (permFault 3 a)
  else
    let covers := (span 0 (grantCount img)).any fun h =>
      let g := grantAt img h
      g.kind == 6 && decide (g.off ≤ off) && decide (off + need.n ≤ g.off + g.size)
        && g.permits need
    let core := b.core / 4 * 4 + q
    if !covers then .fault (windowFault 0 1 a)
    else if need.write ∧ s.pageAt core off need.n then .fault (permFault 5 a)
    else .ok (.chip (spadChip core (swizzle sw off)))

/-- Whether the target block of a window handle holds accesses back (04 R85); so does one that is being moved (08
R201). -/
def State.windowHeld (s : State) (l : Launch) (h : Nat) : Bool :=
  let g := grantAt (s.imageBytes l) h
  match AMap.find? s.blocks (blockKey l g.stage g.block) with
  | some b => b.st != .retired && (!b.onCore || b.moving.isSome)
  | none => true

/-- A `.w` address (04 R84, R85). A CLUSTER_SCRATCH grant covers `.c` alone; an access through its handle fails the first
check, as one whose handle is not granted: DESIGN CHOICE (log entry 35). -/
def State.resolveW (s : State) (l : Launch) (sw a : Nat) (need : Need) : Resolved :=
  let img := s.imageBytes l
  let h := bitsOf a 48 8
  let off := a % 2 ^ 48
  let g := grantAt img h
  if 2 ^ 56 ≤ a ∨ grantCount img ≤ h ∨ 6 ≤ g.kind then .fault (windowFault h 1 a)
  else if g.size < off + need.n then .fault (windowFault h 2 a)
  else if !g.permits need then .fault (windowFault h 3 a)
  else if need.atomic ∧ g.kind ≠ 0 then .fault (windowFault h 4 a)
  else
    match AMap.find? s.blocks (blockKey l g.stage g.block) with
    | none => .hold h
    | some b =>
      if b.st = .retired then .fault (windowFault h 5 a)
      else if !b.onCore || b.moving.isSome then .hold h
      else
        let o := g.off + off
        let size := (stageAt img g.stage).spadSize
        if g.kind = 0 then
          if need.write ∧ touchesPage size o need.n then .fault (permFault 5 a)
          else .ok (.chip (spadChip b.core (b.spadBase + swizzle sw o)))
        else if g.kind < 5 then
          .ok (.chip (b.core * 0x800000 + 0x200000 + (g.kind - 1) * 0x60000 + b.regBase * 256 + o))
        else .ok (.chip (b.core * 0x800000 + 0x380000 + b.accBase * 0x800 + o))

end Sys2Proof.Machine
end

