-- ==== Sys2Proof/Machine/Ops.lean ====
section
/-! DEFINITION. The shared operations of the machine: who issues and for which lanes, paths and
their regrouping, region commit and rollback, and taking a fault. -/

namespace Sys2Proof.Machine

/-- What an instruction acts for: the issuing path with its group, block and launch, its active
lanes and its executing lanes (02 R27), in increasing order. -/
structure Ctx where
  cur : Cur
  g : Group
  p : Path
  b : Block
  l : Launch
  lanes : List Nat
  exec : List Nat
  deriving DecidableEq, Repr

/-- The lanes of a mask, in increasing order. -/
def lanesOf (m : LaneMask) : List Nat := (span 0 64).filter fun i => m.getLsbD i

/-- The mask of a list of lanes. -/
def maskOf (ls : List Nat) : LaneMask := ls.foldl (fun m i => m ||| 1#64 <<< i) 0

/-- The key of the thread that a lane of a group holds. -/
def Group.thread (g : Group) (lane : Nat) : Nat :=
  g.block * 2 ^ 11 + (AMap.find? g.lanes lane).getD 0

/-- A thread's state; every thread of a placed block has one. -/
def State.thread (s : State) (t : Nat) : Thread := (AMap.find? s.threads t).getD {}

def State.setThread (s : State) (t : Nat) (x : Thread) : State :=
  { s with threads := AMap.put s.threads t x }

/-- Whether a guard is true for a thread (02 R39). -/
def guardTrue (g : Guard) (x : Thread) : Bool :=
  match g with
  | .always => true
  | .pred n neg => x.preds.getLsbD n != neg

/-- The issuing context under a guard, if a path is selected. -/
def State.ctx (s : State) (gd : Guard) : Option Ctx :=
  match s.cur with
  | none => none
  | some cur =>
    match AMap.find? s.groups cur.grp with
    | none => none
    | some g =>
      match g.paths[cur.path]?, AMap.find? s.blocks g.block with
      | some p, some b =>
        match AMap.find? s.launches b.launch with
        | none => none
        | some l =>
          let lanes := lanesOf p.mask
          some { cur, g, p, b, l, lanes,
                 exec := lanes.filter fun i => guardTrue gd (s.thread (g.thread i)) }
      | _, _ => none

/-- Runs an instruction's effect for the issuing context; without one the machine stops. -/
def State.issue (s : State) (gd : Guard) (f : Ctx → State) : Host.Outcome State Fault Refusal :=
  match s.ctx gd with
  | some c => .next (f c)
  | none => .fault .noIssuer

/-- Whether the issuing slot is native. -/
def Ctx.native (c : Ctx) : Bool := c.cur.slot.isSome

/-- Whether a matrix slot of the region stands before what issues (03 R64). -/
def Ctx.afterMatrix (c : Ctx) : Bool :=
  match c.cur.slot with
  | some x => !x.first
  | none => c.p.run != 0

/-- The first register of the group context's range in a cluster file (08 R198). -/
def State.regBase (s : State) (c : Ctx) : Nat := c.b.regBase + c.g.gid * (s.stageOf c.b c.l).regs

/-- Whether a cluster-register key lies in a group's range and in a lane of a mask. -/
def inLanes (core base regs : Nat) (m : LaneMask) (k : Nat) : Bool :=
  m.getLsbD (k % 64) && k / 64 / 1536 / 4 == core && decide (base ≤ k / 64 % 1536)
    && decide (k / 64 % 1536 < base + regs)

/-- A cluster register's key counted from the base of its group's range, which an eviction keeps, and back. -/
def relKey (base k : Nat) : Nat := (k / 64 / 1536 % 4 * 1536 + (k / 64 % 1536 - base)) * 64 + k % 64
def absKey (core base r : Nat) : Nat := cregKey core (r / 64 / 1536) (base + r / 64 % 1536) (r % 64)

/-- The lead lane of 17 R340: the lowest executing lane. -/
def Ctx.lead (c : Ctx) : Nat := c.exec.headD 0

/-- Changes a group, a block, a launch, a core's registers. -/
def State.updGroup (s : State) (k : Nat) (f : Group → Group) : State :=
  { s with groups := AMap.upd s.groups k f }
def State.updBlock (s : State) (k : Nat) (f : Block → Block) : State :=
  { s with blocks := AMap.upd s.blocks k f }
def State.updLaunch (s : State) (k : Nat) (f : Launch → Launch) : State :=
  { s with launches := AMap.upd s.launches k f }
def State.coreRegs (s : State) (core : Nat) : CoreRegs := (AMap.find? s.cores core).getD {}
def State.setCoreRegs (s : State) (core : Nat) (r : CoreRegs) : State :=
  { s with cores := AMap.put s.cores core r }
def State.iface (s : State) (vi : Nat) : Iface := (AMap.find? s.ifaces vi).getD {}
def State.updIface (s : State) (vi : Nat) (f : Iface → Iface) : State :=
  { s with ifaces := AMap.put s.ifaces vi (f (s.iface vi)) }

/-- The key of a context of an interface, and the context. -/
def ctxKey (vi ctx : Nat) : Nat := vi * 512 + ctx
def State.context (s : State) (vi ctx : Nat) : Option Context := AMap.find? s.contexts (ctxKey vi ctx)
def State.updContext (s : State) (vi ctx : Nat) (f : Context → Context) : State :=
  { s with contexts := AMap.upd s.contexts (ctxKey vi ctx) f }

/-- Changes one path of a group. -/
def State.updPath (s : State) (gk i : Nat) (f : Path → Path) : State :=
  s.updGroup gk fun g => { g with paths := updAt f g.paths i }

/-- The path that issues, as it stands in the state. -/
def State.path (s : State) (c : Ctx) : Path :=
  match AMap.find? s.groups c.cur.grp with
  | some g => (g.paths[c.cur.path]?).getD c.p
  | none => c.p

def State.updCur (s : State) (c : Ctx) (f : Path → Path) : State :=
  s.updPath c.cur.grp c.cur.path f

/-- Whether a wait is one of the blocking points of 02 R45 other than a poll point: with BARSYNC's (17 R359), a window's
(04 R85) and the token of a transfer that a page fault stalls (04 R110). -/
def Wait.blocking : Wait → Bool
  | .bar _ _ | .tile _ | .queue _ _ _ | .remote _ | .page _ _ | .window _ | .backoff _ | .sync | .stalled _ => true
  | _ => false

/-- Whether a path has a region open: a native one, or a matrix run. -/
def Path.open (p : Path) : Bool := p.run != 0 || p.snap.isSome || p.sealed

/-- Whether a path may join another at one program counter: no open region (03 R61), and no unmet blocking point but a
poll point (02 R29). One that passes a blocking point joins behind it. -/
def Path.canJoin (p : Path) : Bool :=
  !p.open && p.branch.isEmpty && p.woken.isEmpty && !p.wait.blocking && p.wait != .fault

/-- A path-table entry as a rank; a parked path ranks after all. -/
def Path.rank (p : Path) : Nat := p.entry.getD 8

/-- The executions of two paths, each once. -/
def joinExecs (a b : List Exec) : List Exec :=
  a ++ b.filter fun x => a.all fun y => y.record != x.record || y.num != x.num

/-- Joins two paths: the scalar copy of the lower entry stays (03 R61). What they waited for they look at again. -/
def Path.join (p q : Path) : Path :=
  let both (x : Path) : Path :=
    { x with mask := p.mask ||| q.mask, got := p.got ++ q.got, begun := p.begun && q.begun, met := p.met && q.met
             execs := joinExecs p.execs q.execs, wait := if p.wait = q.wait then p.wait else .none }
  if p.rank ≤ q.rank then both p else both q

/-- Adds a path to a list, joining where 02 R29 joins. -/
def addPath (p : Path) : List Path → List Path
  | [] => [p]
  | q :: qs =>
    if p.pc = q.pc ∧ p.canJoin ∧ q.canJoin then q.join p :: qs else q :: addPath p qs

/-- Drops empty paths and joins those of one program counter (02 R29). -/
def joinPaths (ps : List Path) : List Path :=
  ps.foldl (fun acc p => if p.mask = 0 then acc else addPath p acc) []

/-- The lowest path-table entry that no path holds. -/
def freeEntry (ps : List Path) : Option Nat :=
  (span 0 8).find? fun e => ps.all fun p => p.entry != some e

/-- The index of the parked path that has waited longest. -/
def oldestParked (ps : List Path) : Option Nat :=
  let parked := ps.filter fun p => p.entry.isNone
  match parked with
  | [] => none
  | q :: qs =>
    let o := qs.foldl (fun m p => if p.since < m.since then p else m) q
    findIdx (fun p => p.entry.isNone && p.since == o.since && p.mask == o.mask) ps 0

/-- Gives free entries to parked paths, longest waiting first (02 R29, R30). -/
def giveEntries : Nat → List Path → List Path
  | 0, ps => ps
  | n + 1, ps =>
    match freeEntry ps, oldestParked ps with
    | some e, some i => giveEntries n (updAt (fun p => { p with entry := some e }) ps i)
    | _, _ => ps

/-- The issuing path's index in a group: the path that holds the selected entry. -/
def Group.issuingIndex (g : Group) : Option Nat :=
  match g.issuing with
  | none => none
  | some e => findIdx (fun p => p.entry == some e) g.paths 0

/-- The lowest lane of the issuing path, and the bundles it has issued since it was selected. -/
def Group.issuingTurn (g : Group) : Option (Nat × Nat) :=
  match g.issuingIndex with
  | none => none
  | some i =>
    match g.paths[i]? with
    | none => none
    | some p => ((lanesOf p.mask).head?).map fun l => (l, p.turn)

/-- The paths of a group after their program counters changed (02 R29). The path that issues goes on issuing when
another joins it; when it has gone, the entry it left is kept for the rotation (02 R30). -/
def Group.regroup (g : Group) : Group :=
  let ps := giveEntries 8 (joinPaths g.paths)
  match g.issuingTurn with
  | some (l, n) =>
    { g with
      paths := ps.map fun p => if p.mask.getLsbD l then { p with turn := n } else p
      issuing := match List.find? (fun (p : Path) => p.mask.getLsbD l) ps with
        | some p => p.entry
        | none => none
      last := g.issuing.getD g.last }
  | none => { g with paths := ps, issuing := none, last := g.issuing.getD g.last }

/-- The bits of `new` where a mask byte is set, of `old` elsewhere. -/
def maskBytes (old new mask : List Byte) : List Byte :=
  (span 0 old.length).map fun i =>
    (old.getD i 0 &&& ~~~(mask.getD i 0)) ||| (new.getD i 0 &&& mask.getD i 0)

/-- The bytes of the side table of a code section (03 R68), if there is one. -/
def sideTable (img : List Byte) (code : Nat) : Option (List Byte) :=
  match (sections img).find? fun e => e.2.kind == 11 && e.2.link == code with
  | some e => some (e.2.bytes img)
  | none => none

/-- A field of side-table record `n` (03 Table 3.4). -/
def recordField (side : List Byte) (n off w : Nat) : Nat :=
  field side (field side (field side 12 4 + 4 * n) 4 + off) w

/-- The virtual PC that a record of a path gives (03 R53, R71): in Fleper code the program counter, in
native code the one of the last side-table record. -/
def State.vpcAt (s : State) (b : Block) (l : Launch) (p : Path) : Nat :=
  let img := s.imageBytes l
  if isNative img then
    match sideTable img (s.stageOf b l).code with
    | some side => recordField side (p.mark.getD p.cp) 0 8
    | none => p.pc
  else p.pc

/-- The numbers of the fault codes (12 Table 12.1). -/
def FaultCode.num : FaultCode → Nat
  | .fetchNx => 1 | .illegalOperand => 2 | .align => 3 | .pageNotPresent => 4 | .permission => 5
  | .regionUnclaimed => 6 | .attrMismatch => 7 | .tileBusy => 8 | .tileShape => 9
  | .uniformConflict => 10 | .queueCorrupt => 11 | .queueElementSize => 12 | .barrierOverrun => 13
  | .satTrap => 14 | .softwareTrap => 15 | .debugBreak => 16 | .windowDenied => 17
  | .rowopGeometry => 18 | .tokenInvalid => 19 | .callDepth => 20

/-- LDR_REPLAY.HOLD of an interface (06 Table 6.10). -/
def Iface.hold (v : Iface) : Bool := bitsOf v.ldrReplay.toNat 8 1 = 1

/-- The 64 bytes of a fault or stop record (12 Table 12.2). -/
def State.faultRecord (s : State) (b : Block) (l : Launch) (gid code flags vpc addr detail : Nat)
    (lanes : LaneMask) : List Byte :=
  let st := s.stageOf b l
  let (x, y, z) := st.bid b.linear
  leBytes 1 code ++ leBytes 1 flags ++ leBytes 1 b.stage ++ leBytes 1 st.code ++ leBytes 2 b.core
    ++ leBytes 1 gid ++ [0] ++ leBytes 8 vpc ++ leBytes 8 lanes.toNat ++ leBytes 8 addr
    ++ leBytes 4 x ++ leBytes 4 y ++ leBytes 4 z ++ leBytes 4 detail
    ++ leBytes 8 (l.lsn % 2 ^ 48) ++ leBytes 8 s.time

/-- Hands a record to the device for delivery to the fault queue of a launch's context (12 R269). -/
def State.deliver (s : State) (lk : Nat) (l : Launch) (recoverable : Bool) (bytes : List Byte) :
    State :=
  let cb := match s.context l.vi l.ctx with
    | some x => x.faultQ
    | none => 0
  { s with deliveries := s.deliveries ++
      [{ vi := l.vi, ctx := l.ctx, cb, launch := lk, attempt := l.attempt, recoverable, bytes }] }

/-- Whether a launch is bound and has not ended or begun to commit or abort. -/
def LState.running : LState → Bool
  | .bound | .overflowed | .irrevocable | .completed => true
  | _ => false

/-- An abort of a launch begins (06 R152, R153); LAUNCH_ABORT carries it out. The code kept is that
of the earliest record, the lower core on a tie (12 R270). A kill changes the outcome of an abort
under way. -/
def State.beginAbort (s : State) (lk cause code stamp : Nat) : State :=
  s.updLaunch lk fun l =>
    if l.st.running then
      { l with st := .aborting, cause, code, codeAt := stamp, killed := l.killed || cause == 4 }
    else if l.st = .aborting then
      let l := if cause = 4 then { l with cause := 4, killed := true } else l
      if code ≠ 0 ∧ (l.code = 0 ∨ stamp < l.codeAt) then { l with code, codeAt := stamp } else l
    else l

/-- The order of records: by time, then by core (12 R270). -/
def stampAt (time core : Nat) : Nat := time * 2 ^ 11 + core

/-- Engine operations end without their tokens, and with them those that wait for these tokens (05 R126). -/
def State.dropOps (s : State) (test : Nat → EngineOp → Bool) : State :=
  let gone := s.engines.foldl (fun (l : List Nat) (e : Nat × EngineOp) =>
    if test e.1 e.2 || e.2.waits.any fun k => l.contains k then e.1 :: l else l) []
  { s with engines := AMap.keep (fun k _ => !gone.contains k) s.engines }

/-- A non-recoverable fault freezes the block and, unless HOLD keeps it, aborts the launch (12 R270).
Only the first fault of a block is reported. What an uncorrectable error has destroyed aborts the launch (12 R279). -/
def State.freeze (s : State) (bk : Nat) (gid vpc : Nat) (engine : Bool) (f : Flt) : State :=
  match AMap.find? s.blocks bk with
  | none => s
  | some b =>
    if f.lost then s.beginAbort b.launch 2 0 (stampAt s.time b.core)
    else if b.fault.isSome then s
    else
      match AMap.find? s.launches b.launch with
      | none => s
      | some l =>
        let hold := (s.iface l.vi).hold && !l.irrevocable
        let flags := (if engine then 2 else 0) + (if l.irrevocable then 4 else 0)
          + (if hold then 8 else 0)
        let t := s.updBlock bk fun b => { b with st := .frozen, fault := some f, faultAt := s.time }
        let t := t.deliver b.launch l false (t.faultRecord b l gid f.code.num flags vpc f.addr f.detail f.lanes)
        if hold then t else t.beginAbort b.launch 1 f.code.num (stampAt s.time b.core)

/-- Where a gated store goes when it performs: a native one through a window is resolved again then (04 R85). -/
def State.storeTarget (s : State) (l : Launch) (w : GStore) : Resolved :=
  match w.via with
  | none => .ok w.dst
  | some (addr, sw) => s.resolveW l sw addr { n := w.data.length, write := true }

/-- A store under way, of one lane (04 R85; 05 R127; 14 R309). -/
def State.addRemoteStore (s : State) (gk : Nat) (g : Group) (p : Path) (b : Block) (l : Launch) (w : GStore)
    (addr sw : Nat) (window : Bool) : State :=
  { s with
    remote := AMap.put s.remote s.next
      { grp := gk, gid := g.gid, block := g.block, core := b.core, issued := s.cycle, load := false
        window, addr, sw, data := w.data, vpc := s.vpcAt b l p, lanes := maskOf [w.lane]
        threads := [g.thread w.lane] }
    next := s.next + 1 }

/-- A store of a lane writes its place. A store to a peer, or through a window whose target is not RESIDENT, is
under way from then on (04 R85; 05 R127; 14 R309). -/
def State.performAt (s : State) (gk : Nat) (g : Group) (p : Path) (b : Block) (l : Launch) (w : GStore) (dst : Place) :
    State :=
  match dst with
  | .peer _ va => (s.addRemoteStore gk g p b l w va 0 false).writePlace b.core dst w.data
  | .held addr sw => s.addRemoteStore gk g p b l w addr sw true
  | _ =>
    if w.mask.isEmpty then s.writePlace b.core dst w.data
    else
      let (old, t) := s.readPlace b.core dst w.data.length
      t.writePlace b.core dst (maskBytes old w.data w.mask)

/-- One gated store performs. A native release writes back first (05 R132); a window whose target has retired denies
the store (04 R85). -/
def State.performStore (s : State) (gk : Nat) (g : Group) (p : Path) (b : Block) (l : Launch)
    (w : GStore) : State :=
  let s := match w.rel with
    | some sc => s.releaseCaches b.core sc
    | none => s
  match s.storeTarget l w with
  | .ok dst => s.performAt gk g p b l w dst
  | .hold _ =>
    let v := w.via.getD (0, 0)
    s.addRemoteStore gk g p b l w v.1 v.2 true
  | .fault f => s.freeze g.block g.gid (s.vpcAt b l p) false { f with lanes := maskOf [w.lane] }

/-- Performs the gated stores of a region in issue order (03 R62). -/
def State.performStores (s : State) (gk : Nat) (g : Group) (p : Path) (b : Block) (l : Launch) :
    State :=
  p.gated.foldl (fun t w => t.performStore gk g p b l w) s

/-- Steps 1 to 3 of a region commit (03 R62): results in flight land, gated stores perform, the
pending sticky flags join the group's (09 R221), alias entries go free, and the group's ownership of the matrix
unit ends with its last open matrix region (08 R204). -/
def State.closeRegion (s : State) (gk i : Nat) : State :=
  match AMap.find? s.groups gk with
  | none => s
  | some g =>
    match g.paths[i]?, AMap.find? s.blocks g.block with
    | some p, some b =>
      let t := match AMap.find? s.launches b.launch with
        | some l => s.performStores gk g p b l
        | none => s
      let r := t.coreRegs b.core
      let last := p.run != 0 && ((g.paths.filter fun q => q.run != 0).length == 1)
      let t := if (r.owner == some gk) && last then t.setCoreRegs b.core { r with owner := none } else t
      t.updGroup gk fun g =>
        { g with
          sat := (g.sat && !p.clrSat) || p.sat
          inv := (g.inv && !p.clrInv) || p.inv
          paths := updAt (fun p => { p with gated := [], aliases := [], sat := false, inv := false,
                                            clrSat := false, clrInv := false,
                                            run := 0, held := [], reserved := 0, snap := none,
                                            oldRegs := [], oldPreds := [], mark := none })
            g.paths i }
    | _, _ => s

/-- The distinct values of a function over a list, in order of first appearance. -/
def distinct (f : Nat → Nat) : List Nat → List Nat
  | [] => []
  | x :: xs => let r := distinct f xs; f x :: r.filter fun y => y != f x

/-- The paths that a path's lanes form when lane `l` goes to `dest l` (02 R29): the first target keeps
the entry, every other child is a copy without one. -/
def splitPath (p : Path) (lanes : List Nat) (dest : Nat → Nat) (since : Nat) : List Path :=
  match distinct dest lanes with
  | [] => []
  | d :: ds =>
    { p with pc := d, mask := maskOf (lanes.filter fun l => dest l == d) }
      :: ds.map fun d => { p with pc := d, entry := none, since,
                                  mask := maskOf (lanes.filter fun l => dest l == d) }

/-- Replaces a path by the paths its lanes go to. -/
def replaceAt (ps : List Path) (i : Nat) (new : List Path) : List Path :=
  ps.take i ++ new ++ ps.drop (i + 1)

/-- Sets or clears bit `n` of a thread's predicates. -/
def setPred (p : BitVec 12) (n : Nat) (b : Bool) : BitVec 12 :=
  if b then p ||| 1#12 <<< n else p &&& ~~~(1#12 <<< n)

def State.setThreadPred (s : State) (t n : Nat) (b : Bool) : State :=
  let x := s.thread t
  s.setThread t { x with preds := setPred x.preds n b }

/-- One result in flight lands; one for a thread that has ended is lost. -/
def State.land (s : State) (gk i : Nat) (e : InFlight) : State :=
  match e.dst with
  | .creg k =>
    let old := Cells.get s.cregs k
    let now := e.due == some s.cycle
    { s with cregs := Cells.set s.cregs k (e.val.setWidth 32) }.updPath gk i fun p =>
      if now && p.fresh.all fun f => f.1 != k then { p with fresh := (k, old) :: p.fresh } else p
  | .sreg n => s.updPath gk i fun p => { p with sregs := Cells.set p.sregs n e.val }
  | .stage n => s.updPath gk i fun p => { p with staging := Cells.set p.staging n e.val }
  | .pred t n => if (AMap.find? s.threads t).isSome then s.setThreadPred t n (e.val != 0) else s

/-- Puts a result behind those that land no later. -/
def insertDue (e : InFlight) : List InFlight → List InFlight
  | [] => [e]
  | x :: xs => if e.due.getD 0 < x.due.getD 0 then e :: x :: xs else x :: insertDue e xs

/-- Lands the results in flight that satisfy a test: in the order in which they are due, of one cycle in issue
order (03 R57). -/
def State.landIf (s : State) (gk i : Nat) (test : InFlight → Bool) : State :=
  match AMap.find? s.groups gk with
  | none => s
  | some g =>
    match g.paths[i]? with
    | none => s
    | some p =>
      let es := (p.inflight.filter test).foldl (fun l e => insertDue e l) []
      let t := es.foldl (fun t e => t.land gk i e) s
      t.updPath gk i fun p => { p with inflight := p.inflight.filter fun e => !test e }

/-- The cycle at which the last result of fixed latency of a path lands. -/
def Path.lastDue (p : Path) (now : Nat) : Nat :=
  p.inflight.foldl (fun m e => max m (e.due.getD 0)) now

/-- Whether a native slot issues with its bundle, and does not act at the commit of its one-bundle region (03 R63). -/
def Ctx.midBundle (c : Ctx) : Bool := c.native && !c.p.sealed

/-- What the end of an instruction does to the issuing path before its lanes go on: outside a matrix run a Fleper
instruction is a region of its own, which commits (log entry 30), and it counts as one bundle of the 64 of 02 R30, a
count that the spec gives for native bundles alone: DESIGN CHOICE (log entry 30). So ends an irreversible native
bundle too, with what it still has in flight landed (03 R62, R63). -/
def State.endInstr (s : State) (c : Ctx) : State :=
  let s := if c.native then s.landIf c.cur.grp c.cur.path fun _ => true else s
  let s := s.updCur c fun p =>
    { p with wait := .none, woken := [], got := [], reply := [], replyFault := none,
             turn := p.turn + 1, begun := false, met := false, sealed := false }
  if (s.path c).run = 0 then s.closeRegion c.cur.grp c.cur.path
  else s.updCur c fun p => { p with run := p.run + 1 }

/-- The end of an instruction whose lanes go on at `dest`; then paths split and join. A slot that issues with its bundle
does not move the program counter, so only its branch is noted (03 R59). -/
def State.finishTo (s : State) (c : Ctx) (lanes : List Nat) (dest : Nat → Nat) : State :=
  if c.midBundle then
    s.updCur c fun p =>
      { p with branch := (distinct dest lanes).map fun d =>
                (d, maskOf (lanes.filter fun l => dest l == d)) }
  else
    let s := (s.endInstr c).updGroup c.cur.grp fun g =>
      Group.regroup { g with
        paths := replaceAt g.paths c.cur.path
          (splitPath ((g.paths[c.cur.path]?).getD c.p) lanes dest s.next) }
    { s with next := s.next + 1 }

/-- The program counter after the instruction. -/
def Ctx.after (c : Ctx) : Nat := c.p.pc + c.cur.len

/-- The end of an instruction that goes on at the next one. -/
def State.finish (s : State) (c : Ctx) : State :=
  if c.midBundle then
    s.updCur c fun p => { p with wait := .none, reply := [], replyFault := none }
  else s.finishTo c c.lanes fun _ => c.after

/-- The place of the issuing slot in its bundle; 0 for a Fleper instruction. -/
def Ctx.pos (c : Ctx) : Nat :=
  match c.cur.slot with
  | some x => x.pos
  | none => 0

/-- Whether the event for which the issuing slot waited has happened. -/
def Ctx.woken (c : Ctx) : Bool := c.p.woken.contains c.pos

/-- The path waits; it executes the instruction, or the bundle, again when it is woken. -/
def State.waitOn (s : State) (c : Ctx) (w : Wait) : State :=
  s.updCur c fun p => { p with wait := w, waiter := c.pos }

/-- A path goes on because what its waiting slot waits for has happened. -/
def Path.wake (p : Path) : Path := { p with wait := .none, met := p.wait.blocking, woken := p.waiter :: p.woken }

/-- A path looks again at what it waits for. -/
def Path.retry (p : Path) : Path := { p with wait := .none, met := p.wait.blocking }

/-- Rollback (03 R67): the path's state comes back from its shadows and it goes on at the twin entry
in conservative mode. The entry is read from the side table by the caller. -/
def State.rollback (s : State) (c : Ctx) (twin : Nat) (x : Snap) : State :=
  let base := s.regBase c
  let kept := AMap.keep (fun k _ => !inLanes c.b.core base (s.stageOf c.b c.l).regs c.p.mask k) s.cregs
  let t := { s with
    threads := c.lanes.foldl (fun (m : AMap Thread) l =>
      match AMap.find? x.threads (c.g.thread l) with
      | some y => AMap.put m (c.g.thread l) y
      | none => m) s.threads
    cregs := x.cregs.foldl (fun (m : Cells 32) (e : Nat × BitVec 32) =>
      if c.p.mask.getLsbD (e.1 % 64) then Cells.set m (absKey c.b.core base e.1) e.2 else m) kept }
  t.updCur c fun p =>
    { p with pc := twin, sregs := x.sregs, staging := x.staging, sat := false, inv := false,
             clrSat := false, clrInv := false,
             gated := [], aliases := [], inflight := [], branch := [], run := 0, held := [],
             conservative := true, begun := true, mark := none, wait := .none, woken := [], got := []
             reply := [], replyFault := none, met := false, sealed := false }

/-- The virtual PC that a record of this instruction gives. -/
def State.vpc (s : State) (c : Ctx) : Nat := s.vpcAt c.b c.l { s.path c with pc := c.p.pc }

/-- The twin entry of the region a path is in (03 Table 3.4). -/
def State.twinOf (s : State) (c : Ctx) : Nat :=
  match sideTable (s.imageBytes c.l) (s.stageOf c.b c.l).code with
  | some side => recordField side (s.path c).cp 12 4
  | none => c.p.pc

/-- TAKING A FAULT. Outside conservative mode the path rolls back (03 R67, Table 3.2). A page that is
not present stops the group, with a recoverable record (04 R110, 12 R271). Every other fault freezes the block
(12 R270), and so does any fault after the first matrix slot of a region (03 R64). -/
def State.raise (s : State) (c : Ctx) (f : Flt) : State :=
  let p := s.path c
  if f.lost then s.beginAbort c.b.launch 2 0 (stampAt s.time c.b.core)
  else match (if p.conservative || c.afterMatrix then none else p.snap) with
  | some x => s.rollback c (s.twinOf c) x
  | none =>
    if f.code = .pageNotPresent ∧ !c.afterMatrix then
      let flags := 1 + (if c.l.irrevocable then 4 else 0)
      (s.waitOn c (.page f.addr (stampAt s.time c.b.core))).deliver c.b.launch c.l true
        (s.faultRecord c.b c.l c.g.gid f.code.num flags (s.vpc c) f.addr f.detail f.lanes)
    else (s.freeze c.g.block c.g.gid (s.vpc c) false f).waitOn c .fault

/-- A fault of a per-group action names every executing lane (17 R340). -/
def State.raiseAll (s : State) (c : Ctx) (f : Flt) : State :=
  s.raise c { f with lanes := maskOf c.exec }

/-- Per-lane faults (17 R340): the record names the fault of the lowest faulting lane and the lanes
that raised it. -/
def State.raiseLanes (s : State) (c : Ctx) (fs : List (Nat × Flt)) : State :=
  match fs with
  | [] => s
  | (_, f) :: _ =>
    s.raise c { f with lost := fs.any fun e => e.2.lost
                       lanes := maskOf ((fs.filter fun e => e.2.code == f.code
                         && e.2.detail == f.detail).map fun e => e.1) }

/-- Sets the pending sticky flags of the issuing path (09 R221). -/
def State.flag (s : State) (c : Ctx) (sat inv : Bool) : State :=
  if sat || inv then s.updCur c fun p => { p with sat := p.sat || sat, inv := p.inv || inv } else s

end Sys2Proof.Machine
end

