-- ==== Sys2Proof/Machine/Operands.lean ====
section
/-! DEFINITION. Every operand form of both carriers: reads of registers, uniform registers,
predicates, special registers and immediates at a type, and writes of results (02 R39 to R44, R51;
15 R316, R326, R482). -/

namespace Sys2Proof.Machine

/-- Keys of a thread's virtual register and of a block's uniform register. -/
def vregKey (thread n : Nat) : Nat := thread * 2 ^ 20 + n
def uregKey (block n : Nat) : Nat := block * 64 + n

/-- A special register's value in a lane (02 Table 2.5). -/
def State.special (s : State) (c : Ctx) (lane : Nat) (r : Special) : Nat :=
  let st := s.stageOf c.b c.l
  let t := st.tid ((AMap.find? c.g.lanes lane).getD 0)
  let b := st.bid c.b.linear
  match r with
  | .tidX => t.1 | .tidY => t.2.1 | .tidZ => t.2.2
  | .bidX => b.1 | .bidY => b.2.1 | .bidZ => b.2.2
  | .bdimX => st.bdim.1 | .bdimY => st.bdim.2.1 | .bdimZ => st.bdim.2.2
  | .gdimX => st.gdim.1 | .gdimY => st.gdim.2.1 | .gdimZ => st.gdim.2.2
  | .lane => lane | .gid => c.g.gid | .stage => c.b.stage
  | .core => c.b.core | .cluster => clusterOf c.b.core | .die => dieOf c.b.core
  | .lsn => c.l.lsn % 2 ^ 48

/-- The cluster a native slot drives; 4 is none. -/
def Ctx.file (c : Ctx) : Nat :=
  match c.cur.slot with
  | some x => x.cluster
  | none => 4

/-- A cluster register of a lane, or the pair that holds 64 bits (15 R326). The next cluster is seen one cycle
later than the own one (03 Table 3.1). -/
def State.clusterReg (s : State) (c : Ctx) (next : Bool) (n lane : Nat) (wide : Bool) : Word :=
  let file := if next then c.file + 1 else c.file
  let look (i : Nat) : BitVec 32 :=
    let k := cregKey c.b.core (file % 4) (s.regBase c + i) lane
    match (if next then (s.path c).fresh.find? fun e => e.1 == k else none) with
    | some e => e.2
    | none => Cells.get s.cregs k
  (if wide then look (n + 1) else 0) ++ look n

/-- The 64 bits an operand gives in a lane. Immediates are given as R316 reads them. -/
def State.reg (s : State) (c : Ctx) (wide : Bool) (lane : Nat) (o : Operand) : Word :=
  match o with
  | .v n => Cells.get s.vregs (vregKey (c.g.thread lane) n)
  | .k n => Cells.get s.uregs (uregKey c.g.block n)
  | .p n => if (s.thread (c.g.thread lane)).preds.getLsbD n then 1 else 0
  | .imm x => x
  | .special r => BitVec.ofNat 64 (s.special c lane r)
  | .creg n => s.clusterReg c false n lane wide
  | .nextCreg n => s.clusterReg c true n lane wide
  | .s n => Cells.get (s.path c).sregs n

/-- A float immediate in its type: the FP32 value taken exactly; a NaN is the canonical one
(15 R316). -/
def floatImm (ty : STy) (x : Word) : Nat :=
  match fmtF32.value (x.toNat % 2 ^ 32) with
  | .nan => (fmtOf ty).nan
  | v => (fmtOf ty).ieee .rne v

/-- An operand at a type, as its bits. -/
def State.bits (s : State) (c : Ctx) (ty : STy) (lane : Nat) (o : Operand) : Nat :=
  match ty.isFloat, o with
  | true, .imm x => floatImm ty x
  | _, _ => (s.reg c (ty.width == 64) lane o).toNat % 2 ^ ty.width

/-- An operand at an integer type, as the number it stands for. -/
def State.int (s : State) (c : Ctx) (ty : STy) (lane : Nat) (o : Operand) : Int :=
  if ty.signed then signedOf ty.width (s.bits c ty lane o) else s.bits c ty lane o

/-- An operand at a float type, as a value. -/
def State.fval (s : State) (c : Ctx) (ty : STy) (lane : Nat) (o : Operand) : FVal :=
  (fmtOf ty).value (s.bits c ty lane o)

/-- An operand as an unsigned 64-bit number; a native cluster operand is a pair only where the
instruction's type is 64 bits wide (15 R326). An operand as an unsigned 32-bit number. -/
def State.u64 (s : State) (c : Ctx) (wide : Bool) (lane : Nat) (o : Operand) : Nat :=
  (s.reg c wide lane o).toNat
def State.u32 (s : State) (c : Ctx) (lane : Nat) (o : Operand) : Nat :=
  (s.reg c false lane o).toNat % 2 ^ 32

/-- The 64 bits a result of a type leaves in a register (15 R482). -/
def extendTo (ty : STy) (x : Nat) : Word :=
  match ty with
  | .i8 => ((BitVec.ofNat 8 x).signExtend 32).setWidth 64
  | .i16 => ((BitVec.ofNat 16 x).signExtend 32).setWidth 64
  | _ => BitVec.ofNat 64 (x % 2 ^ ty.width)

/-- Whether the slot acts once for the path and not once per lane. -/
def Ctx.scalar (c : Ctx) : Bool := c.native && c.file == 4

/-- The path of a group, other than the issuing one, that holds a lane. -/
def State.otherPath (s : State) (c : Ctx) (lane : Nat) : Option Path :=
  match AMap.find? s.groups c.cur.grp with
  | none => none
  | some g => g.paths.find? fun p => p.mask.getLsbD lane && !(s.path c).mask.getLsbD lane

/-- A thread's predicates as its last region commit left them. -/
def Path.oldPred (p : Path) (t : Nat) (now : BitVec 12) : BitVec 12 :=
  match AMap.find? p.oldPreds t with
  | some x => x
  | none =>
    match p.snap with
    | some x => match AMap.find? x.threads t with
      | some y => y.preds
      | none => now
    | none => now

/-- A cluster register as a path's last region commit left it. -/
def Path.oldCreg (p : Path) (k : Nat) (now : BitVec 32) : BitVec 32 :=
  match p.snap with
  | some x => Cells.get x.cregs k
  | none => now

/-- A cluster register of a lane of another path, as that path's last region commit left it. -/
def State.oldWord (s : State) (c : Ctx) (p : Path) (file n lane : Nat) : Nat :=
  let k := cregKey c.b.core file (s.regBase c + n) lane
  (p.oldCreg (relKey (s.regBase c) k) (Cells.get s.cregs k)).toNat

/-- A 32-bit operand of any lane: of the issuing path as it stands, of another path as its last region
commit left it, of an empty lane 0 (17 R363). -/
def State.laneWord (s : State) (c : Ctx) (lane : Nat) (o : Operand) : Nat :=
  if (AMap.find? c.g.lanes lane).isNone then 0
  else
    match s.otherPath c lane with
    | none => (s.reg c false lane o).toNat % 2 ^ 32
    | some p =>
      let t := c.g.thread lane
      match o with
      | .v n => (match AMap.find? p.oldRegs (vregKey t n) with
        | some x => x
        | none => s.reg c false lane o).toNat % 2 ^ 32
      | .creg n => s.oldWord c p (c.file % 4) n lane
      | .nextCreg n => s.oldWord c p ((c.file + 1) % 4) n lane
      | .p n => if (p.oldPred t (s.thread t).preds).getLsbD n then 1 else 0
      | _ => (s.reg c false lane o).toNat % 2 ^ 32

/-- A predicate as a 64-bit lane mask (20 R430). -/
def State.predMask (s : State) (c : Ctx) (n : Nat) : Word :=
  maskOf ((span 0 64).filter fun l => s.laneWord c l (.p n) == 1)

/-- The lanes a computation runs in: each executing lane, or the lead lane of a scalar slot. -/
def Ctx.work (c : Ctx) : List Nat :=
  if c.scalar then c.exec.take 1 else c.exec

/-- The register parts that a native destination names in a lane. -/
def State.nativeDst (s : State) (c : Ctx) (wide : Bool) (d : Operand) (lane : Nat) (x : Word) :
    List (RegDst × Word) :=
  match d with
  | .creg n =>
    let k (i : Nat) : RegDst := .creg (cregKey c.b.core (c.file % 4) (s.regBase c + n + i) lane)
    (k 0, x &&& 0xFFFFFFFF) :: (if wide then [(k 1, x >>> 32)] else [])
  | .s n => [(.sreg n, x)]
  | .p n => [(.pred (c.g.thread lane) n, if x = 0 then 0 else 1)]
  | _ => []

/-- Inside an open matrix run, keeps what a destination held at the last commit (02 R61). -/
def State.keepOld (s : State) (c : Ctx) (d : Operand) (lane : Nat) : State :=
  if (s.path c).run = 0 then s
  else
    let t := c.g.thread lane
    match d with
    | .v n =>
      s.updCur c fun p =>
        if (AMap.find? p.oldRegs (vregKey t n)).isSome then p
        else { p with oldRegs := AMap.put p.oldRegs (vregKey t n) (Cells.get s.vregs (vregKey t n)) }
    | .p _ =>
      s.updCur c fun p =>
        if (AMap.find? p.oldPreds t).isSome then p
        else { p with oldPreds := AMap.put p.oldPreds t (s.thread t).preds }
    | _ => s

/-- Writes a result of the Fleper carrier in one lane. -/
def State.putReg (s : State) (c : Ctx) (d : Operand) (lane : Nat) (x : Word) : State :=
  let s := s.keepOld c d lane
  match d with
  | .v n => { s with vregs := Cells.set s.vregs (vregKey (c.g.thread lane) n) x }
  | .p n => s.setThreadPred (c.g.thread lane) n (x != 0)
  | _ => s

/-- Puts native results in flight, to land after the slot's latency or on arrival (03 R57, R58). -/
def State.launchResults (s : State) (c : Ctx) (x : Slot) (rs : List (RegDst × Word)) : State :=
  let due := if x.lat = 0 then none else some (s.cycle + x.lat)
  s.updCur c fun p =>
    { p with inflight := p.inflight ++ rs.map fun e => { due, left := x.la, dst := e.1, val := e.2 } }

/-- Writes results to a destination, per lane, all at once. -/
def State.write (s : State) (c : Ctx) (wide : Bool) (d : Operand) (vs : List (Nat × Word)) : State :=
  match c.cur.slot with
  | none => vs.foldl (fun t e => t.putReg c d e.1 e.2) s
  | some x =>
    let vs := match d, c.scalar, vs with
      | .p _, true, e :: _ => c.exec.map fun l => (l, e.2)
      | .s _, _, e :: _ => [e]
      | _, _, _ => vs
    s.launchResults c x (vs.flatMap fun e => s.nativeDst c wide d e.1 e.2)

/-- Writes one value in every executing lane. -/
def State.writeAll (s : State) (c : Ctx) (wide : Bool) (d : Operand) (x : Word) : State :=
  s.write c wide d (c.exec.map fun l => (l, x))

/-- Writes a lane's bit of a predicate named by number. -/
def State.writePred (s : State) (c : Ctx) (n : Nat) (vs : List (Nat × Bool)) : State :=
  s.write c false (.p n) (vs.map fun e => (e.1, if e.2 then 1 else 0))

end Sys2Proof.Machine
end

