-- ==== Sys2Proof/Machine/Flags.lean ====
section
/-! DEFINITION. Results with their sticky flags: wrapping and clamping of integer results, rounding
of float results, and the one way in which a computation of a lane becomes a write (19 R408; 09
R217, R220, R221). -/

namespace Sys2Proof.Machine

/-- A lane's result: its bits, and whether it sets SAT or INVALID. -/
structure Res where
  val : Nat
  sat : Bool := false
  inv : Bool := false
  deriving DecidableEq, Repr

/-- An exact integer result written without `.sat`: it wraps (19 R408). -/
def wrapRes (ty : STy) (x : Int) : Res := { val := unsignedOf ty.width x }

/-- An exact integer result written with `.sat`: clamped, and a clamp sets SAT (19 R408). -/
def clampRes (ty : STy) (x : Int) : Res :=
  if x < tyMin ty then { val := unsignedOf ty.width (tyMin ty), sat := true }
  else if tyMax ty < x then { val := unsignedOf ty.width (tyMax ty), sat := true }
  else { val := unsignedOf ty.width x }

def intRes (sat : Bool) (ty : STy) (x : Int) : Res := if sat then clampRes ty x else wrapRes ty x

/-- An exact float result rounded to its type; the operation may be invalid (18 R388). -/
def floatRes (ty : STy) (mode : Rounding) (x : FVal × Bool) : Res :=
  { val := (fmtOf ty).ieee mode x.1, inv := x.2 }

/-- The result of a conversion. -/
def convRes (x : Conv) : Res := { val := x.code, sat := x.sat, inv := x.inv }

/-- A per-lane register instruction: every lane's result is computed from the state before it, the
flags are set once, the results are written at the type, and the path goes on. -/
def State.compute (s : State) (c : Ctx) (ty : STy) (d : Operand) (f : Nat → Res) : State :=
  let rs := c.work.map fun l => (l, f l)
  let t := s.flag c (rs.any fun e => e.2.sat) (rs.any fun e => e.2.inv)
  (t.write c (ty.width == 64) d (rs.map fun e => (e.1, extendTo ty e.2.val))).finish c

/-- A per-lane register instruction without flags. -/
def State.computeBits (s : State) (c : Ctx) (ty : STy) (d : Operand) (f : Nat → Nat) : State :=
  s.compute c ty d fun l => { val := f l }

/-- The stream values of the executing lanes after one Step each (09 R218). -/
def State.stepStreams (s : State) (c : Ctx) : State :=
  c.exec.foldl (fun t l =>
    let k := c.g.thread l
    let x := t.thread k
    t.setThread k { x with rs := lfsrStep x.rs }) s

/-- A per-lane conversion: with RS every executing lane takes one Step of its own stream and rounds
with the value it gives (09 R218, R220). -/
def State.convertLanes (s : State) (c : Ctx) (ty : STy) (d : Operand) (mode : Rounding)
    (f : Nat → Nat → Conv) : State :=
  let t := if mode = .rs then s.stepStreams c else s
  t.compute c ty d fun l => convRes (f l (t.thread (c.g.thread l)).rs.toNat)

end Sys2Proof.Machine
end

