-- ==== Sys2Proof/Machine/Arithmetic.lean ====
section
/-! DEFINITION. The integer and bit instructions (17 R348, R361, R362, R366; 18 R377; 19 R408 to R410,
R418; 20 R425 to R428; 21 R448, R450, R470). -/

namespace Sys2Proof.Machine

/-- The exact results of the integer instructions over their operands as numbers (19 Table 19.3). -/
def mulHigh (w : Nat) (a b : Int) : Int := (a * b) / 2 ^ w

/-- Quotient and remainder with truncation towards zero; by zero all ones and the dividend; the most
negative number by -1 wraps (19 R409). -/
def divide (ty : STy) (a b : Int) : Int × Int :=
  if b = 0 then (2 ^ ty.width - 1, a)
  else if ty.signed ∧ a = tyMin ty ∧ b = -1 then (a, 0)
  else (a.tdiv b, a.tmod b)

/-- Whether a relation holds (19 R410). -/
def Cond_holds (k : Cond) (a b : Int) : Bool :=
  match k with
  | .eq => a == b | .ne => a != b | .lt => decide (a < b)
  | .le => decide (a ≤ b) | .gt => decide (b < a) | .ge => decide (b ≤ a)

/-- The bits of a word reversed, its bit `i` to bit `w - 1 - i` (17 R366). -/
def reverseBits (w x : Nat) : Nat :=
  (span 0 w).foldl (fun acc i => acc + bitsOf x i 1 * 2 ^ (w - 1 - i)) 0

/-- Zero bits above the highest 1 bit and below the lowest (18 R377). -/
def leadingZeros (w x : Nat) : Nat := if x = 0 then w else w - 1 - Nat.log2 x
def trailingZeros (w x : Nat) : Nat :=
  match (span 0 w).find? fun i => bitsOf x i 1 == 1 with
  | some i => i
  | none => w

/-- The number of 1 bits (20 R428). -/
def popCount (w x : Nat) : Nat := (span 0 w).foldl (fun acc i => acc + bitsOf x i 1) 0

/-- BFI's result (17 R361). -/
def insertField (w base ins ctl : Nat) : Nat :=
  let pos := bitsOf ctl 0 8
  let len := bitsOf ctl 8 8
  if len = 0 ∨ w ≤ pos then base
  else
    let len := min len (w - pos)
    base - bitsOf base pos len * 2 ^ pos + ins % 2 ^ len * 2 ^ pos

/-- BFX's result (17 R362); `a` is the operand as a number, so that its bits above the width are the
extension. -/
def extractField (signed : Bool) (a : Int) (ctl : Nat) : Int :=
  let pos := bitsOf ctl 0 8
  let len := bitsOf ctl 8 8
  if len = 0 then 0
  else
    let f := a / 2 ^ pos % 2 ^ len
    if signed && decide (2 ^ (len - 1) ≤ f) then f - 2 ^ len else f

/-- A shift left and right by any number (21 R450). -/
def shiftLeft (w x n : Nat) : Nat := if w ≤ n then 0 else x * 2 ^ n % 2 ^ w
def shiftRight (w : Nat) (x : Int) (n : Nat) : Int := x / 2 ^ min n w

def execIadd (g : Guard) (ty : STy) (sat : Bool) (d a b : Operand) (s : State) :
    Host.Outcome State Fault Refusal :=
  s.issue g fun c => s.compute c ty d fun l => intRes sat ty (s.int c ty l a + s.int c ty l b)

def execIsub (g : Guard) (ty : STy) (sat : Bool) (d a b : Operand) (s : State) :
    Host.Outcome State Fault Refusal :=
  s.issue g fun c => s.compute c ty d fun l => intRes sat ty (s.int c ty l a - s.int c ty l b)

def execImul (g : Guard) (ty : STy) (d a b : Operand) (s : State) :
    Host.Outcome State Fault Refusal :=
  s.issue g fun c => s.compute c ty d fun l => wrapRes ty (s.int c ty l a * s.int c ty l b)

def execImulhi (g : Guard) (ty : STy) (d a b : Operand) (s : State) :
    Host.Outcome State Fault Refusal :=
  s.issue g fun c => s.compute c ty d fun l =>
    wrapRes ty (mulHigh ty.width (s.int c ty l a) (s.int c ty l b))

def execImad (g : Guard) (ty : STy) (sat : Bool) (d a b e : Operand) (s : State) :
    Host.Outcome State Fault Refusal :=
  s.issue g fun c => s.compute c ty d fun l =>
    intRes sat ty (s.int c ty l a * s.int c ty l b + s.int c ty l e)

def execIdiv (g : Guard) (ty : STy) (d a b : Operand) (s : State) :
    Host.Outcome State Fault Refusal :=
  s.issue g fun c => s.compute c ty d fun l =>
    wrapRes ty (divide ty (s.int c ty l a) (s.int c ty l b)).1

def execIrem (g : Guard) (ty : STy) (d a b : Operand) (s : State) :
    Host.Outcome State Fault Refusal :=
  s.issue g fun c => s.compute c ty d fun l =>
    wrapRes ty (divide ty (s.int c ty l a) (s.int c ty l b)).2

def execIneg (g : Guard) (ty : STy) (sat : Bool) (d a : Operand) (s : State) :
    Host.Outcome State Fault Refusal :=
  s.issue g fun c => s.compute c ty d fun l => intRes sat ty (-(s.int c ty l a))

def execIabs (g : Guard) (ty : STy) (sat : Bool) (d a : Operand) (s : State) :
    Host.Outcome State Fault Refusal :=
  s.issue g fun c => s.compute c ty d fun l => intRes sat ty ((s.int c ty l a).natAbs : Int)

def execImin (g : Guard) (ty : STy) (d a b : Operand) (s : State) :
    Host.Outcome State Fault Refusal :=
  s.issue g fun c => s.compute c ty d fun l => wrapRes ty (min (s.int c ty l a) (s.int c ty l b))

def execImax (g : Guard) (ty : STy) (d a b : Operand) (s : State) :
    Host.Outcome State Fault Refusal :=
  s.issue g fun c => s.compute c ty d fun l => wrapRes ty (max (s.int c ty l a) (s.int c ty l b))

def execIcmp (g : Guard) (ty : STy) (k : Cond) (d a b : Operand) (s : State) :
    Host.Outcome State Fault Refusal :=
  s.issue g fun c => s.computeBits c ty d fun l =>
    if Cond_holds k (s.int c ty l a) (s.int c ty l b) then 1 else 0

/-- `.sx` reads bits [31:0] of the index operand as a signed number (19 R418). -/
def execLea (g : Guard) (ty : STy) (shift : Nat) (sx : Bool) (d a b : Operand) (s : State) :
    Host.Outcome State Fault Refusal :=
  s.issue g fun c => s.compute c ty d fun l =>
    let i : Int := if sx then signedOf 32 (s.bits c ty l b % 2 ^ 32) else s.bits c ty l b
    wrapRes ty (s.bits c ty l a + i * 2 ^ shift)

def execAnd (g : Guard) (ty : STy) (d a b : Operand) (s : State) :
    Host.Outcome State Fault Refusal :=
  s.issue g fun c => s.computeBits c ty d fun l => s.bits c ty l a &&& s.bits c ty l b

def execAndn (g : Guard) (ty : STy) (d a b : Operand) (s : State) :
    Host.Outcome State Fault Refusal :=
  s.issue g fun c => s.computeBits c ty d fun l =>
    s.bits c ty l a &&& (2 ^ ty.width - 1 - s.bits c ty l b)

def execOr (g : Guard) (ty : STy) (d a b : Operand) (s : State) :
    Host.Outcome State Fault Refusal :=
  s.issue g fun c => s.computeBits c ty d fun l => s.bits c ty l a ||| s.bits c ty l b

def execXor (g : Guard) (ty : STy) (d a b : Operand) (s : State) :
    Host.Outcome State Fault Refusal :=
  s.issue g fun c => s.computeBits c ty d fun l => s.bits c ty l a ^^^ s.bits c ty l b

def execNot (g : Guard) (ty : STy) (d a : Operand) (s : State) :
    Host.Outcome State Fault Refusal :=
  s.issue g fun c => s.computeBits c ty d fun l => 2 ^ ty.width - 1 - s.bits c ty l a

/-- The shift amount is an unsigned 64-bit value, whatever the type (21 R450). -/
def execShl (g : Guard) (ty : STy) (d a b : Operand) (s : State) :
    Host.Outcome State Fault Refusal :=
  s.issue g fun c => s.computeBits c ty d fun l =>
    shiftLeft ty.width (s.bits c ty l a) (s.u64 c (ty.width == 64) l b)

def execShr (g : Guard) (ty : STy) (d a b : Operand) (s : State) :
    Host.Outcome State Fault Refusal :=
  s.issue g fun c => s.compute c ty d fun l =>
    wrapRes ty (shiftRight ty.width (s.int c ty l a) (s.u64 c (ty.width == 64) l b))

def execBfi (g : Guard) (ty : STy) (d a b e : Operand) (s : State) :
    Host.Outcome State Fault Refusal :=
  s.issue g fun c => s.computeBits c ty d fun l =>
    insertField ty.width (s.bits c ty l a) (s.bits c ty l b) (s.bits c ty l e)

def execBfx (g : Guard) (ty : STy) (d a b : Operand) (s : State) :
    Host.Outcome State Fault Refusal :=
  s.issue g fun c => s.compute c ty d fun l =>
    wrapRes ty (extractField ty.signed (s.int c ty l a) (s.bits c ty l b))

def execBrev (g : Guard) (ty : STy) (d a : Operand) (s : State) :
    Host.Outcome State Fault Refusal :=
  s.issue g fun c => s.computeBits c ty d fun l => reverseBits ty.width (s.bits c ty l a)

def execClz (g : Guard) (ty : STy) (d a : Operand) (s : State) :
    Host.Outcome State Fault Refusal :=
  s.issue g fun c => s.computeBits c ty d fun l => leadingZeros ty.width (s.bits c ty l a)

def execCtz (g : Guard) (ty : STy) (d a : Operand) (s : State) :
    Host.Outcome State Fault Refusal :=
  s.issue g fun c => s.computeBits c ty d fun l => trailingZeros ty.width (s.bits c ty l a)

def execPopc (g : Guard) (ty : STy) (d a : Operand) (s : State) :
    Host.Outcome State Fault Refusal :=
  s.issue g fun c => s.computeBits c ty d fun l => popCount ty.width (s.bits c ty l a)

/-- The selector is read at 64 bits (21 R448). -/
def execSel (g : Guard) (ty : STy) (d a b e : Operand) (s : State) :
    Host.Outcome State Fault Refusal :=
  s.issue g fun c => s.computeBits c ty d fun l =>
    if s.u64 c (ty.width == 64) l e ≠ 0 then s.bits c ty l a else s.bits c ty l b

/-- Writes a uniform register: the first group context to write it in an ownership interval owns it,
any other write faults (02 R42). -/
def State.writeUniform (s : State) (c : Ctx) (m : Nat) (x : Word) : State :=
  match AMap.find? c.b.owners m with
  | none =>
    ({ s with uregs := Cells.set s.uregs (uregKey c.g.block m) x }.updBlock c.g.block fun b =>
      { b with owners := AMap.put b.owners m c.g.gid }).finish c
  | some o =>
    if o = c.g.gid then
      { s with uregs := Cells.set s.uregs (uregKey c.g.block m) x }.finish c
    else s.raiseAll c { code := .uniformConflict, detail := m % 64 + o % 64 * 256 }

/-- A uniform register takes the value of the lowest executing lane (02 R43; 20 R426). -/
def execMov (g : Guard) (ty : STy) (d a : Operand) (s : State) : Host.Outcome State Fault Refusal :=
  s.issue g fun c =>
    match d with
    | .k m =>
      if c.exec.isEmpty then s.finish c
      else s.writeUniform c m (BitVec.ofNat 64 (s.bits c ty c.lead a))
    | _ => s.computeBits c ty d fun l => s.bits c ty l a

end Sys2Proof.Machine
end

