-- ==== Sys2Proof/Machine/Functions.lean ====
section
/-! DEFINITION. The approximate functions, which this part rounds correctly (18 R395): their exact
values to 256 bits and more, with the last bit set where the value is no binary fraction, so that one
rounding by RNE32 gives the correctly rounded result (log entry 31). -/

namespace Sys2Proof.Machine

/-- Bits of the fixed-point fractions. -/
def fracBits : Nat := 320

def oneFix : Nat := 2 ^ fracBits
def mulFix (a b : Nat) : Nat := a * b / oneFix

/-- The sum of terms 1/(k 2^k) from `k` on: ln 2. -/
def ln2From : Nat → Nat → Nat
  | 0, _ => 0
  | n + 1, k => oneFix / (k * 2 ^ k) + ln2From n (k + 1)

def ln2Fix : Nat := ln2From 330 1

/-- The exponential series from term `k`, whose value is `t`. -/
def expFrom (x : Nat) : Nat → Nat → Nat → Nat
  | 0, _, _ => 0
  | n + 1, k, t => t + expFrom x n (k + 1) (t * x / oneFix / (k + 1))

/-- e to a fixed-point number below 1. -/
def expFix (x : Nat) : Nat := expFrom x 90 0 oneFix

/-- The odd series y + y^3/3 + …, of which `p` is the current power. -/
def atanhFrom (y2 : Nat) : Nat → Nat → Nat → Nat
  | 0, _, _ => 0
  | n + 1, k, p => p / k + atanhFrom y2 n (k + 2) (mulFix p y2)

/-- ln of 1 + `f`, both fixed-point, for `f` below 1. -/
def ln1pFix (f : Nat) : Nat :=
  let y := f * oneFix / (2 * oneFix + f)
  2 * atanhFrom (mulFix y y) 110 1 y

/-- Repeated squaring. -/
def squareFix : Nat → Nat → Nat
  | 0, x => x
  | n + 1, x => squareFix n (mulFix x x)

/-- FRCP: the reciprocal. -/
def FVal.recip (x : FVal) : FVal := ((FVal.fin false 1 0).div x).1

/-- FRSQ: the reciprocal square root (18 Table 18.3); of -0 it is -infinity. -/
def FVal.rsqrt : FVal → FVal × Bool
  | .nan => (.nan, false)
  | .inf false => (.fin false 0 0, false)
  | .inf true => (.nan, true)
  | .fin a m e =>
    if m = 0 then (.inf a, false)
    else if a then (.nan, true)
    else
      let (m, e) := if e % 2 = 0 then (m, e) else (2 * m, e - 1)
      let r := isqrt (2 ^ 320 / m)
      (.fin false (r * 2 + (if r * r * m = 2 ^ 320 then 0 else 1)) (-(e / 2) - 161), false)

/-- FEXP2: 2 to the operand. -/
def FVal.exp2 : FVal → FVal
  | .nan => .nan
  | .inf neg => if neg then .fin false 0 0 else .inf false
  | .fin neg m e =>
    if m = 0 then .fin false 1 0
    else if 8 ≤ topExp m e then (if neg then .fin false 0 0 else .inf false)
    else
      let x : Int := m * 2 ^ (e + 320).toNat
      let x := if neg then -x else x
      let n := x / (oneFix : Int)
      let f := (x % (oneFix : Int)).toNat
      if f = 0 then .fin false 1 n
      else .fin false (2 * expFix (mulFix f ln2Fix) + 1) (n - 321)

/-- FLOG2: the base-2 logarithm. -/
def FVal.log2 : FVal → FVal × Bool
  | .nan => (.nan, false)
  | .inf false => (.inf false, false)
  | .inf true => (.nan, true)
  | .fin a m e =>
    if m = 0 then (.inf true, false)
    else if a then (.nan, true)
    else
      let k := topExp m e
      let f := m * 2 ^ (320 - Nat.log2 m) - oneFix
      if f = 0 then (.fin (decide (k < 0)) k.natAbs 0, false)
      else
        let v := 2 * (k * (oneFix : Int) + ((ln1pFix f * oneFix / ln2Fix : Nat) : Int)) + 1
        (.fin (decide (v < 0)) v.natAbs (-321), false)

/-- FTANH: an odd function, which rounds to 1 from 9.1 on. -/
def FVal.tanh : FVal → FVal
  | .nan => .nan
  | .inf neg => .fin neg 1 0
  | .fin neg m e =>
    if m = 0 then .fin neg 0 0
    else if 4 ≤ topExp m e then .fin neg 1 0
    else
      let t := 2 * m * 2 ^ (e + 320).toNat
      let x := squareFix 6 (expFix (t / 64))
      .fin neg (2 * ((x - oneFix) * oneFix / (x + oneFix)) + 1) (-321)

/-- The result of an approximate function in a type: rounded by RNE32, then converted with RNE without
a flag (18 R395). -/
def approx (ty : STy) (x : FVal × Bool) : Nat × Bool :=
  let r := rne32 x.1
  (match ty with
    | .f16 => (fmtF16.convert .rne 0 (fmtF32.value r)).code
    | .bf16 => (fmtBf16.convert .rne 0 (fmtF32.value r)).code
    | _ => r, x.2)

end Sys2Proof.Machine
end

