-- ==== Sys2Proof/Machine/FloatInstrs.lean ====
section
/-! DEFINITION. The floating-point instructions, the conversions and the bit-plane instructions (17
R363, R364; 18 R388 to R398; 19 R411). -/

namespace Sys2Proof.Machine

/-- The lesser (`max` false) or greater of two codes of a format (18 R397). -/
def minMaxCode (ty : STy) (max : Bool) (a b : Nat) : Nat :=
  let f := fmtOf ty
  let x := f.value a
  let y := f.value b
  if x = .nan then (if y = .nan then f.nan else b)
  else if y = .nan then a
  else
    let less := x.lt y || (!y.lt x && decide (2 ^ f.magBits ≤ a))
    if less != max then a else b

/-- FCMP's mask (18 R391). -/
def compareMask (x y : FVal) : Nat :=
  if x = .nan ∨ y = .nan then 8 else if x.lt y then 1 else if y.lt x then 4 else 2

/-- FCLASS's mask (18 R390). -/
def classMask (ty : STy) (code : Nat) : Nat :=
  let f := fmtOf ty
  let c := code % 2 ^ f.magBits
  let neg := code / 2 ^ f.magBits % 2 == 1
  match f.value code with
  | .nan => 256
  | .inf n => if n then 1 else 128
  | .fin _ _ _ =>
    if c = 0 then (if neg then 8 else 16)
    else if c < 2 ^ f.mb then (if neg then 4 else 32)
    else (if neg then 2 else 64)

/-- FSGN's code (18 R398). -/
def signCode (ty : STy) (x : Bool) (a b : Nat) : Nat :=
  let f := fmtOf ty
  if f.value a = .nan then f.nan
  else
    let sb := b / 2 ^ f.magBits % 2
    let sa := a / 2 ^ f.magBits % 2
    let sign := if x then (sa + sb) % 2 else sb
    a % 2 ^ f.magBits + sign * 2 ^ f.magBits

def execFadd (g : Guard) (ty : STy) (rm : Rounding) (d a b : Operand) (s : State) :
    Host.Outcome State Fault Refusal :=
  s.issue g fun c => s.compute c ty d fun l =>
    floatRes ty rm ((s.fval c ty l a).add rm (s.fval c ty l b))

def execFsub (g : Guard) (ty : STy) (rm : Rounding) (d a b : Operand) (s : State) :
    Host.Outcome State Fault Refusal :=
  s.issue g fun c => s.compute c ty d fun l =>
    floatRes ty rm ((s.fval c ty l a).add rm (s.fval c ty l b).neg)

def execFmul (g : Guard) (ty : STy) (rm : Rounding) (d a b : Operand) (s : State) :
    Host.Outcome State Fault Refusal :=
  s.issue g fun c => s.compute c ty d fun l =>
    floatRes ty rm ((s.fval c ty l a).mul (s.fval c ty l b))

def execFfma (g : Guard) (ty : STy) (rm : Rounding) (d a b e : Operand) (s : State) :
    Host.Outcome State Fault Refusal :=
  s.issue g fun c => s.compute c ty d fun l =>
    floatRes ty rm (FVal.fma rm (s.fval c ty l a) (s.fval c ty l b) (s.fval c ty l e))

def execFdiv (g : Guard) (ty : STy) (rm : Rounding) (d a b : Operand) (s : State) :
    Host.Outcome State Fault Refusal :=
  s.issue g fun c => s.compute c ty d fun l =>
    floatRes ty rm ((s.fval c ty l a).div (s.fval c ty l b))

def execFsqrt (g : Guard) (ty : STy) (rm : Rounding) (d a : Operand) (s : State) :
    Host.Outcome State Fault Refusal :=
  s.issue g fun c => s.compute c ty d fun l => floatRes ty rm (s.fval c ty l a).sqrt

/-- The result of an approximate function as a lane's result. -/
def approxRes (ty : STy) (x : FVal × Bool) : Res :=
  { val := (approx ty x).1, inv := (approx ty x).2 }

def execFrcp (g : Guard) (ty : STy) (d a : Operand) (s : State) :
    Host.Outcome State Fault Refusal :=
  s.issue g fun c => s.compute c ty d fun l => approxRes ty ((s.fval c ty l a).recip, false)

def execFrsq (g : Guard) (ty : STy) (d a : Operand) (s : State) :
    Host.Outcome State Fault Refusal :=
  s.issue g fun c => s.compute c ty d fun l => approxRes ty (s.fval c ty l a).rsqrt

def execFexp2 (g : Guard) (ty : STy) (d a : Operand) (s : State) :
    Host.Outcome State Fault Refusal :=
  s.issue g fun c => s.compute c ty d fun l => approxRes ty ((s.fval c ty l a).exp2, false)

def execFlog2 (g : Guard) (ty : STy) (d a : Operand) (s : State) :
    Host.Outcome State Fault Refusal :=
  s.issue g fun c => s.compute c ty d fun l => approxRes ty (s.fval c ty l a).log2

def execFtanh (g : Guard) (ty : STy) (d a : Operand) (s : State) :
    Host.Outcome State Fault Refusal :=
  s.issue g fun c => s.compute c ty d fun l => approxRes ty ((s.fval c ty l a).tanh, false)

def execFmin (g : Guard) (ty : STy) (d a b : Operand) (s : State) :
    Host.Outcome State Fault Refusal :=
  s.issue g fun c => s.computeBits c ty d fun l =>
    minMaxCode ty false (s.bits c ty l a) (s.bits c ty l b)

def execFmax (g : Guard) (ty : STy) (d a b : Operand) (s : State) :
    Host.Outcome State Fault Refusal :=
  s.issue g fun c => s.computeBits c ty d fun l =>
    minMaxCode ty true (s.bits c ty l a) (s.bits c ty l b)

def execFcmp (g : Guard) (ty : STy) (d a b : Operand) (s : State) :
    Host.Outcome State Fault Refusal :=
  s.issue g fun c => s.computeBits c .b32 d fun l =>
    compareMask (s.fval c ty l a) (s.fval c ty l b)

def execFsgn (g : Guard) (ty : STy) (x : Bool) (d a b : Operand) (s : State) :
    Host.Outcome State Fault Refusal :=
  s.issue g fun c => s.computeBits c ty d fun l =>
    signCode ty x (s.bits c ty l a) (s.bits c ty l b)

def execFclass (g : Guard) (ty : STy) (d a : Operand) (s : State) :
    Host.Outcome State Fault Refusal :=
  s.issue g fun c => s.computeBits c .b32 d fun l => classMask ty (s.bits c ty l a)

/-- An operand in an element format: the low bits of a 32-bit register (18, after Table 18.1). -/
def State.elem (s : State) (c : Ctx) (f : ETy) (lane : Nat) (o : Operand) : FVal :=
  elementValue f (s.u32 c lane o)

def execFcvt (g : Guard) (dst src : ETy) (rm : Rounding) (d a : Operand) (s : State) :
    Host.Outcome State Fault Refusal :=
  s.issue g fun c => s.convertLanes c .b32 d rm fun l u => convertTo dst rm u (s.elem c src l a)

def execFcvti (g : Guard) (dst : STy) (src : ETy) (rm : Rounding) (d a : Operand) (s : State) :
    Host.Outcome State Fault Refusal :=
  s.issue g fun c => s.convertLanes c dst d rm fun l u =>
    convertInt (tyMin dst) (tyMax dst) dst.width rm u (s.elem c src l a)

def execIcvtf (g : Guard) (dst : ETy) (src : STy) (rm : Rounding) (d a : Operand) (s : State) :
    Host.Outcome State Fault Refusal :=
  s.issue g fun c => s.convertLanes c .b32 d rm fun l u =>
    convertTo dst rm u (intValue (s.int c src l a))

/-- What BPENC converts in a lane: an executing lane's FP32 value, 0 elsewhere (17 R364). -/
def State.encodeLane (s : State) (c : Ctx) (a : Operand) (l : Nat) : Conv :=
  if c.exec.contains l then convertTo .bpi .rne 0 (s.elem c .f32 l a) else { code := 0 }

/-- Plane `j` of the 32 codes of a block: bit 7 - j of each (09 R213). -/
def planeWord (codes : Nat → Nat) (j : Nat) : Nat :=
  (span 0 32).foldl (fun acc e => acc + bitsOf (codes e) (7 - j) 1 * 2 ^ e) 0

/-- Lanes 32 b + j below 8 that execute take plane j of their block; the flags are those of every
executing lane (17 R364). -/
def execBpenc (g : Guard) (d a : Operand) (s : State) : Host.Outcome State Fault Refusal :=
  s.issue g fun c =>
    let t := s.flag c (c.exec.any fun l => (s.encodeLane c a l).sat)
      (c.exec.any fun l => (s.encodeLane c a l).inv)
    (t.write c false d ((c.exec.filter fun l => l % 32 < 8).map fun l =>
      (l, BitVec.ofNat 64 (planeWord (fun e => (s.encodeLane c a (l / 32 * 32 + e)).code) (l % 32))))).finish c

/-- The truncated value of element `e` of a block from its first `p` planes (17 R363). -/
def planesValue (p : Nat) (plane : Nat → Nat) (e : Nat) : Int :=
  let v := (span 0 p).foldl (fun acc j => 2 * acc + bitsOf (plane j) e 1) 0
  if bitsOf v (p - 1) 1 = 1 then (v : Int) - 2 ^ p else v

def execBpdec (g : Guard) (p : Nat) (d a : Operand) (s : State) :
    Host.Outcome State Fault Refusal :=
  s.issue g fun c => s.compute c .i32 d fun l =>
    wrapRes .i32 (planesValue p (fun j => s.laneWord c (l / 32 * 32 + j) a) (l % 32))

end Sys2Proof.Machine
end

