-- ==== Sys2Proof/Machine/Access.lean ====
section
/-! DEFINITION. The checks of 04 Table 4.1 on an access, its place, the launch's shadow and the gated
stores of a region (04 R80 to R87, R105; 06 R146, R147, R150, R151; 07 R173; 11 R259). -/

namespace Sys2Proof.Machine

/-- A `.g` address: canonical form, translation, then claims (04 Table 4.1; 06 R146; 11 R259).
`attr` is the attribute requirement of the instruction. -/
def State.resolveG (s : State) (core : Nat) (l : Launch) (sc : Scope) (va : Nat) (need : Need)
    (attr : Nat → Bool) : Resolved × State :=
  match s.context l.vi l.ctx with
  | none => (.fault (permFault 2 va), s)
  | some x =>
    match s.translate core x.satp (s.iface l.vi).hgatp va need.write with
    | .error f => (.fault f, s)
    | .ok (pa, t) =>
      let flags := attrFlags l.attrs va
      if !attr flags then
        (.fault { code := .attrMismatch, detail := flags % 65536, addr := va }, t)
      else if (!need.write || need.atomic) && !claimed l.claims false va need.n then
        (.fault { code := .regionUnclaimed, detail := 0, addr := va }, t)
      else if need.write && !claimed l.claims true va need.n then
        (.fault { code := .regionUnclaimed, detail := 1, addr := va }, t)
      else if need.write && isControlRow pa then (.fault (permFault 6 va), t)
      else (.ok (l.place flags va pa sc), t)

/-- The memory operand's address value in a lane: base plus offset, kept to the width of the space
(04 Table 4.1). -/
def State.addrOf (s : State) (c : Ctx) (lane : Nat) (m : MemRef) : Nat :=
  let wide := m.space == .g || m.space == .w
  let base := s.u64 c wide lane m.base
  let idx := match m.idx with
    | some o => s.u64 c wide lane o
    | none => 0
  unsignedOf (if wide then 64 else 32) ((base : Int) + m.off + idx)

/-- An access of a lane: alignment first, then the checks of its space (04 R80). -/
def State.resolve (s : State) (c : Ctx) (sp : Space) (sw : Nat) (sc : Scope) (addr : Nat)
    (need : Need) (attr : Nat → Bool) : Resolved × State :=
  if addr % need.n ≠ 0 then (.fault { code := .align, detail := need.n, addr }, s)
  else
    match sp with
    | .g => s.resolveG c.b.core c.l sc addr need attr
    | .l => (s.resolveL c.b c.l sw addr need, s)
    | .c => (s.resolveC c.b c.l sw addr need, s)
    | .w => (s.resolveW c.l sw addr need, s)

/-- Resolves an access for each lane of a list. -/
def State.resolveLanes (s : State) (c : Ctx) (m : MemRef) (sc : Scope) (need : Need)
    (attr : Nat → Bool) : List Nat → List (Nat × Resolved) × State
  | [] => ([], s)
  | l :: ls =>
    let (r, t) := s.resolve c m.space m.sw sc (s.addrOf c l m) need attr
    let (rs, u) := t.resolveLanes c m sc need attr ls
    ((l, r) :: rs, u)

/-- The faults of resolved accesses. -/
def resolvedFaults (rs : List (Nat × Resolved)) : List (Nat × Flt) :=
  rs.filterMap fun e => match e.2 with
    | .fault f => some (e.1, f)
    | _ => none

/-- The first window handle whose target is not RESIDENT. -/
def resolvedHold (rs : List (Nat × Resolved)) : Option Nat :=
  rs.findSome? fun e => match e.2 with
    | .hold h => some h
    | _ => none

/-- The places of resolved accesses. -/
def resolvedPlaces (rs : List (Nat × Resolved)) : List (Nat × Place) :=
  rs.filterMap fun e => match e.2 with
    | .ok p => some (e.1, p)
    | _ => none

/-- Whether a place lies at a fabric peer. -/
def Place.isPeer : Place → Bool
  | .peer _ _ => true
  | _ => false

/-- The key of a place's first byte among places of one kind. -/
def Place.key : Place → Nat × Nat
  | .g pa tag _ _ => (3 * tag, pa)
  | .chip oc => (1, oc)
  | .peer dev va => (3 * dev + 4, va)
  | .held addr _ => (2, addr)

/-- The bytes a lane reads: its own gated stores lie over what the place holds (03 R62). -/
def overlay (p : Place) (bs : List Byte) (lane : Nat) (gs : List GStore) : List Byte :=
  gs.foldl (fun bs g =>
    let k := p.key
    let j := g.dst.key
    if g.lane = lane ∧ k.1 = j.1 then
      (span 0 bs.length).map fun i =>
        let a := k.2 + i
        let old := bs.getD i 0
        if j.2 ≤ a ∧ a < j.2 + g.data.length then
          let m := if g.mask.isEmpty then 0xFF else g.mask.getD (a - j.2) 0
          (old &&& ~~~m) ||| (g.data.getD (a - j.2) 0 &&& m)
        else old
    else bs) bs

/-- Reads each lane's place. -/
def State.readLanes (s : State) (c : Ctx) (n : Nat) :
    List (Nat × Place) → List (Nat × List Byte) × State
  | [] => ([], s)
  | (l, p) :: ps =>
    let (bs, t) := s.readPlace c.b.core p n
    let (rest, u) := t.readLanes c n ps
    ((l, overlay p bs l (s.path c).gated) :: rest, u)

/-- Gates stores of the issuing path (03 R62). -/
def State.gate (s : State) (c : Ctx) (ws : List GStore) : State :=
  s.updCur c fun p => { p with gated := p.gated ++ ws.map fun w => { w with born := s.next } }

/-- A load from fabric peer memory is under way (02 R45; 14 R309); answers its key. -/
def State.addRemoteLoad (s : State) (c : Ctx) (addr : Nat) (lanes : List Nat) : Nat × State :=
  (s.next, { s with
    remote := AMap.put s.remote s.next
      { grp := c.cur.grp, gid := c.g.gid, block := c.g.block, core := c.b.core, issued := s.cycle
        load := true, window := false, addr, sw := 0, data := [], vpc := s.vpc c, lanes := maskOf lanes
        threads := lanes.map c.g.thread }
    next := s.next + 1 })

/-- Whether threads of the issuing path made a remote access, wherever a REFORM has put them since. -/
def Ctx.made (c : Ctx) (r : Remote) : Bool := c.lanes.any fun l => r.threads.contains (c.g.thread l)

/-- Whether remote accesses of the issuing path's threads have yet to perform (05 R127). -/
def State.remotePending (s : State) (c : Ctx) : Bool := s.remote.any fun e => c.made e.2

/-- The shadow lines a launch's present attempt holds (06 R147). -/
def State.shadowCount (s : State) (tag : Nat) : Nat :=
  (s.shadow.filter fun e => e.1 / 2 ^ 35 == tag).length

/-- The shadow lines in the pool of a context: those of its versions, committed ones among them until they are written
home, that found the DRAM cache layer of their stack full (06 R147). -/
def State.spilled (s : State) (vi ctx : Nat) : Nat :=
  (s.spills.filter fun e => AMap.find? s.versions (e.1 / 2 ^ 35) == some (ctxKey vi ctx)).length

/-- Those of one attempt. -/
def State.spilledBy (s : State) (attempt : Nat) : Nat := (s.spills.filter fun e => e.1 / 2 ^ 35 == attempt).length

/-- Whether a launch may be granted irrevocable mode now (06 R150). -/
def State.grantable (s : State) (l : Launch) : Bool :=
  s.launches.all fun e =>
    !(e.2.vi == l.vi && e.2.ctx == l.ctx) || (decide (l.first ≤ e.2.first) && !e.2.irrevocable)

/-- Whether a launch exceeds its shadow budget or its deferred enqueue limit (06 R150). -/
def State.exceeds (s : State) (l : Launch) : Bool :=
  let budget := field (s.imageBytes l) 24 4
  (budget != 0 && decide (budget * 2 ^ 20 < 64 * s.shadowCount l.attempt))
    || decide (4096 < (l.deferred.map fun d => d.elems.length).foldl (· + ·) 0)

/-- After accesses of a launch: overflow (06 R150), and a further line for a shadow pool that is exhausted (06 R151).
A launch that has been granted irrevocable mode meets neither. -/
def State.noteOverflow (s : State) (lk : Nat) : State :=
  match AMap.find? s.launches lk with
  | none => s
  | some l =>
    if l.irrevocable ∨ (l.st ≠ .bound ∧ l.st ≠ .overflowed) then s
    else
      let pool := match s.context l.vi l.ctx with
        | some x => x.shadowSize
        | none => 0
      let mine := s.spilledBy l.attempt
      let t := s.updLaunch lk fun l => { l with shadow := mine }
      if l.shadow < mine ∧ pool < 64 * s.spilled l.vi l.ctx then
        if s.grantable l then t.updLaunch lk fun l => { l with st := .overflowed }
        else t.beginAbort lk 3 0 s.time
      else if l.st = .bound ∧ s.exceeds l then t.updLaunch lk fun l => { l with st := .overflowed }
      else t

/-- Whether a place reads poisoned data (12 R279). -/
def State.poisonedAt (s : State) (p : Place) : Bool :=
  match p with
  | .g pa tag _ _ => s.poisoned tag (pa / 64)
  | _ => false

/-- Resolves an access of each lane and goes on with the places. The first fault of Table 4.1 is taken;
a window target that is not RESIDENT holds a load or an atomic (04 R85); poisoned data ends the launch
(12 R279). -/
def State.access (s : State) (c : Ctx) (m : MemRef) (sc : Scope) (need : Need) (attr : Nat → Bool)
    (lanes : List Nat) (k : State → List (Nat × Place) → State) : State :=
  let (rs, t) := s.resolveLanes c m sc need attr lanes
  match resolvedFaults rs, resolvedHold rs with
  | [], some h => t.waitOn c (.window h)
  | [], none =>
    let ps := resolvedPlaces rs
    if ps.any fun e => t.poisonedAt e.2 then t.beginAbort c.b.launch 2 0 t.time else k t ps
  | fs, _ => t.raiseLanes c fs

/-- The consumed tokens of an instruction. -/
def tokList (w : Toks) : List Nat := [w.c0, w.c1, w.c2].filterMap id

/-- The group as it stands in the state. -/
def State.grp (s : State) (c : Ctx) : Group := (AMap.find? s.groups c.cur.grp).getD c.g

/-- The first token of a list that is NONE, and whether every one is DONE (05 R125). -/
def Group.noneToken (g : Group) (ts : List Nat) : Option Nat :=
  ts.find? fun t => !g.pend.getLsbD t && !g.done.getLsbD t

def Group.tokensDone (g : Group) (ts : List Nat) : Bool := ts.all fun t => g.done.getLsbD t

/-- The wait for tokens of the issuing path's group: a blocking point when a transfer that one of them stands for is
stalled on a page (04 R110). -/
def State.tokenWait (s : State) (c : Ctx) (ts : List Nat) : Wait :=
  if s.engines.any fun e => e.2.grp == c.cur.grp && !e.2.orphan && ts.contains e.2.token && e.2.stall.isSome then .stalled ts
  else .token ts

/-- Acts after the named tokens are DONE (05 R127, R128); a NONE token faults. -/
def State.afterTokens (s : State) (c : Ctx) (w : Toks) (k : State → State) : State :=
  let g := s.grp c
  match g.noneToken (tokList w) with
  | some t => s.raiseAll c { code := .tokenInvalid, detail := t }
  | none => if g.tokensDone (tokList w) then k s else s.waitOn c (s.tokenWait c (tokList w))

/-- Waits while the produced token is PENDING (05 R125). -/
def State.afterPending (s : State) (c : Ctx) (tk : Nat) (k : State → State) : State :=
  if (s.grp c).pend.getLsbD tk ∧ !c.exec.isEmpty then s.waitOn c (s.tokenWait c [tk]) else k s

/-- A token of a group becomes DONE (05 R125). -/
def State.setDone (s : State) (gk tk : Nat) : State :=
  s.updGroup gk fun g =>
    { g with pend := g.pend &&& ~~~(1#16 <<< tk), done := g.done ||| 1#16 <<< tk }

/-- Acts after every earlier access of the path's threads has performed (05 R127). -/
def State.afterEarlier (s : State) (c : Ctx) (k : State → State) : State :=
  if s.remotePending c then s.waitOn c .landing else k s

/-- The release part of an ordering (05 R117, R128, R132): the named tokens, then the earlier accesses, then the
write-back. In native code a DRAIN of an earlier bundle gives the first two; a store that releases writes back when it
performs (`GStore.rel`). -/
def State.release (s : State) (c : Ctx) (on : Bool) (sc : Scope) (w : Toks) (k : State → State) :
    State :=
  if !on then k s
  else if c.native then k (s.releaseCaches c.b.core sc)
  else s.afterTokens c w fun t => t.afterEarlier c fun u => k (u.releaseCaches c.b.core sc)

/-- Whether an ordering releases, and whether it acquires. -/
def releases : MemOrder → Bool
  | .rel | .ar => true
  | _ => false
def acquires : MemOrder → Bool
  | .acq | .ar => true
  | _ => false

/-- The acquire part of an ordering (05 R117). -/
def State.acquire (s : State) (c : Ctx) (on : Bool) (sc : Scope) : State :=
  if on then s.acquireCaches c.b.core sc else s

end Sys2Proof.Machine
end

