-- ==== Sys2Proof/Machine/TileTable.lean ====
section
/-! DEFINITION. The tile table of a block and the barrier objects of its barrier page, as words, and
what an element of a tile occupies (04 R88 to R94; 07 R172 to R176; 09 R210, R213). -/

namespace Sys2Proof.Machine

/-- Key of a word of a block's tile entry. -/
def tileKey (block t w : Nat) : Nat := (block * 64 + t) * 2 + w

/-- A tile entry's fields (04 Table 4.4). -/
structure Tile where
  state : Nat
  cfg : Bool
  bar : Nat
  slot : Nat
  sw : Nat
  fmt : Nat
  pitch : Nat
  rows : Nat
  cols : Nat
  base : Nat
  deriving DecidableEq, Repr

/-- The fields of the two words of an entry. -/
def tileOf (w0 w1 : Nat) : Tile :=
  { state := bitsOf w0 62 2, cfg := bitsOf w0 61 1 == 1, bar := bitsOf w0 56 5
    slot := bitsOf w0 53 3, sw := bitsOf w0 50 3, fmt := bitsOf w0 46 4
    pitch := bitsOf w1 49 15, rows := bitsOf w1 38 11, cols := bitsOf w1 24 14
    base := bitsOf w1 6 15 * 64 }

def State.tileWord (s : State) (block t w : Nat) : Word := Cells.get s.tiles (tileKey block t w)

def State.tile (s : State) (block t : Nat) : Tile :=
  tileOf (s.tileWord block t 0).toNat (s.tileWord block t 1).toNat

def State.setTileWord (s : State) (block t w : Nat) (x : Word) : State :=
  { s with tiles := Cells.set s.tiles (tileKey block t w) x }

/-- Word W0 with its STATE field, or its CFG bit, replaced. -/
def withState (w : Word) (st : Nat) : Word :=
  (w &&& 0x3FFFFFFFFFFFFFFF) ||| (BitVec.ofNat 64 st <<< 62)
def withCfg (w : Word) (b : Bool) : Word :=
  (w &&& ~~~(1#64 <<< 61)) ||| (if b then 1#64 <<< 61 else 0)

def State.setTileState (s : State) (block t st : Nat) : State :=
  s.setTileWord block t 0 (withState (s.tileWord block t 0) st)

/-- STATE codes (04 Table 4.4). -/
def tileEmpty : Nat := 0
def tileFilling : Nat := 1
def tileReady : Nat := 2
def tileDraining : Nat := 3

/-- Bits of one element of a tile row (04 R89). -/
def tileBits (fmt : Nat) : Nat :=
  match ETy.ofCode fmt with
  | some f => elementBits f
  | none => 8

/-- Bytes of a tile row, and of a whole tile as a fill counts it (04 R89, R94). -/
def Tile.rowBytes (t : Tile) : Nat := (t.cols * tileBits t.fmt + 7) / 8
def Tile.bytes (t : Tile) : Nat := t.rows * t.rowBytes

/-- The shape checks of TDECL (04 R89; 21 R460). -/
def Tile.shapeOk (t : Tile) (alloc : Nat) : Bool :=
  let packed := t.fmt == 12 || t.fmt == 14
  !(packed && t.cols % 32 != 0) && t.pitch != 0 && t.rows != 0 && decide (t.rows ≤ 1024)
    && t.cols != 0 && decide (t.cols ≤ 8192) && decide (t.rowBytes ≤ t.pitch * 64)
    && decide (t.base + (t.rows - 1) * t.pitch * 64 + t.rowBytes ≤ alloc)

/-- The bytes of element (r, c), as offsets in the allocation, each with the mask of its bits that the
element has: whole bytes, a nibble of E2M1 (09 R210), one bit in each plane of BPI (09 R213). -/
def Tile.elementBytes (t : Tile) (r c : Nat) : List (Nat × Byte) :=
  let row := t.base + r * t.pitch * 64
  match ETy.ofCode t.fmt with
  | some .bpi =>
    (span 0 8).map fun j => (row + c / 32 * 32 + 4 * j + c % 32 / 8, 1#8 <<< (c % 8))
  | some .e2m1 => [(row + c / 2, if c % 2 = 0 then 0x0F else 0xF0)]
  | _ =>
    let z := tileBits t.fmt / 8
    (span 0 z).map fun i => (row + c * z + i, 0xFF)

/-- The code of an element from the bytes it occupies. -/
def Tile.gather (t : Tile) (c : Nat) (bs : List Byte) : Nat :=
  match ETy.ofCode t.fmt with
  | some .bpi => (span 0 8).foldl (fun acc j => 2 * acc + bitsOf (bs.getD j 0).toNat (c % 8) 1) 0
  | some .e2m1 => bitsOf (bs.getD 0 0).toNat (c % 2 * 4) 4
  | _ => leNat bs

/-- The bytes that hold an element's code, in the places of `elementBytes`. -/
def Tile.scatter (t : Tile) (c x : Nat) : List Byte :=
  match ETy.ofCode t.fmt with
  | some .bpi => (span 0 8).map fun j => BitVec.ofNat 8 (bitsOf x (7 - j) 1 * 2 ^ (c % 8))
  | some .e2m1 => [BitVec.ofNat 8 (x % 16 * (if c % 2 = 0 then 1 else 16))]
  | _ => leBytes (tileBits t.fmt / 8) x

/-- The place of a byte of a tile (04 R87). -/
def tilePlace (b : Block) (t : Tile) (a : Nat) : Place :=
  .chip (spadChip b.core (b.spadBase + swizzle t.sw a))

/-- The code of element (r, c) as the scratchpad holds it. -/
def State.tileElem (s : State) (b : Block) (t : Tile) (r c : Nat) : Nat :=
  t.gather c ((t.elementBytes r c).map fun e =>
    s.chipByte (spadChip b.core (b.spadBase + swizzle t.sw e.1)))

/-- Writes element (r, c) of a tile. -/
def State.setTileElem (s : State) (b : Block) (t : Tile) (r c x : Nat) : State :=
  ((t.elementBytes r c).zip (t.scatter c x)).foldl (fun u e =>
    let oc := spadChip b.core (b.spadBase + swizzle t.sw e.1.1)
    u.setChipByte oc ((u.chipByte oc &&& ~~~e.1.2) ||| (e.2 &&& e.1.2))) s

/-- Whether the bytes of a tile overlap `n` bytes at an offset. -/
def Tile.overlaps (t : Tile) (a n : Nat) : Bool :=
  decide (a < t.base + (t.rows - 1) * t.pitch * 64 + t.rowBytes) && decide (t.base < a + n)

end Sys2Proof.Machine
end

