-- ==== Sys2Proof/Machine/LoadStore.lean ====
section
/-! DEFINITION. Loads and stores, tile elements, fences and drains, and die-cache pins (05 R117, R118,
R127, R128; 18 R383, R393; 19 R414 to R417, R419; 21 R451 to R453, R456, R468). -/

namespace Sys2Proof.Machine

/-- No attribute requirement. -/
def anyAttr : Nat → Bool := fun _ => true

/-- The requirement of atomics (04 R105). -/
def memorySide : Nat → Bool := isMside

/-- Rolls the issuing path back, where it has shadows (03 R67). -/
def State.rollBack (s : State) (c : Ctx) : State :=
  match (s.path c).snap with
  | some x => s.rollback c (s.twinOf c) x
  | none => s

/-- The alias byte of the issuing slot (03 R65). -/
def Ctx.aliasByte (c : Ctx) : Nat :=
  match c.cur.slot with
  | some x => x.aliasByte
  | none => 0

/-- The granule of an address (03 R66). -/
def granuleOf (a : Nat) : Nat := a / 8 % 2 ^ 54

/-- Free entries of a core's alias table (03 R66). -/
def State.aliasFree (s : State) (core : Nat) : Nat :=
  256 - ((s.groups.filter fun e =>
      (match AMap.find? s.blocks e.2.block with
      | some b => b.core == core && b.st != .evicted
      | none => false)).flatMap fun e => e.2.paths.flatMap fun p => p.aliases).length

/-- The entries of a hoisted load: one for each distinct granule. -/
def aliasEntries (sp : Space) (lid : Nat) (as : List (Nat × Nat)) : List AliasEntry :=
  (distinct (fun x => x) (as.map fun e => granuleOf e.2)).map fun g =>
    { space := sp, granule := g, lid
      lanes := maskOf ((as.filter fun e => granuleOf e.2 == g).map fun e => e.1) }

/-- Whether a store conflicts with a hoisted load (03 R66). -/
def AliasEntry.conflicts (e : AliasEntry) (sp : Space) (k : Nat) (as : List (Nat × Nat)) : Bool :=
  decide (k ≤ e.lid) && e.space == sp && as.any (fun a => granuleOf a.2 == e.granule)
    && (e.lanes &&& maskOf (as.map fun a => a.1)) != 0

/-- The lanes that a load runs in: a scalar destination takes one, as by the lead lane (19 R414). -/
def Ctx.loadLanes (c : Ctx) (d : Operand) : List Nat :=
  match d with
  | .s _ => c.exec.take 1
  | _ => c.exec

/-- The address of each lane. -/
def State.addrs (s : State) (c : Ctx) (m : MemRef) (lanes : List Nat) : List (Nat × Nat) :=
  lanes.map fun l => (l, s.addrOf c l m)

/-- Whether a store through a window of the path's threads is still held. -/
def State.heldStore (s : State) (c : Ctx) : Bool := s.remote.any fun e => e.2.window && c.made e.2

/-- What a load does once its places are known: it waits for a peer, or reads, extends, acquires and
goes on. -/
def State.loadFrom (s : State) (c : Ctx) (ty : STy) (ord : MemOrder) (sc : Scope) (d : Operand)
    (m : MemRef) (ps : List (Nat × Place)) : State :=
  let lid := c.aliasByte
  let new := aliasEntries m.space lid (s.addrs c m (ps.map fun e => e.1))
  if (ps.any fun e => e.2.isPeer) && !c.woken then
    let (k, t) := s.addRemoteLoad c (s.addrOf c c.lead m) (ps.map fun e => e.1)
    t.waitOn c (.remote k)
  else if m.space = .w ∧ s.heldStore c then s.waitOn c .landing
  else if lid ≠ 0 ∧ s.aliasFree c.b.core < new.length then s.rollBack c
  else
    let s := if lid = 0 then s else s.updCur c fun p => { p with aliases := p.aliases ++ new }
    let (vs, t) := s.readLanes c (ty.width / 8) ps
    let u := t.write c (ty.width == 64) d (vs.map fun e => (e.1, extendTo ty (leNat e.2)))
    ((u.acquire c (acquires ord) sc).finish c).noteOverflow c.b.launch

def execLd (g : Guard) (ty : STy) (ord : MemOrder) (sc : Scope) (d : Operand) (m : MemRef)
    (s : State) : Host.Outcome State Fault Refusal :=
  s.issue g fun c =>
    if c.exec.isEmpty then s.finish c
    else
      s.access c m sc { n := ty.width / 8 } anyAttr (c.loadLanes d) fun t ps =>
        t.loadFrom c ty ord sc d m ps

/-- The place of a store: a window target that is not RESIDENT holds it (04 R85). -/
def storePlaces (as : List (Nat × Nat)) (sw : Nat) (rs : List (Nat × Resolved)) :
    List (Nat × Place) :=
  rs.filterMap fun e => match e.2 with
    | .ok p => some (e.1, p)
    | .hold _ => some (e.1, .held (((as.find? fun x => x.1 == e.1).map fun x => x.2).getD 0) sw)
    | .fault _ => none

/-- The gated lane-stores of a store, in lane order. In native code the first carries the release, and each that goes
through a window its address, for when the region commits (04 R85; 05 R132). -/
def State.storesOf (s : State) (c : Ctx) (ty : STy) (ord : MemOrder) (sc : Scope) (m : MemRef) (a : Operand)
    (as : List (Nat × Nat)) (ps : List (Nat × Place)) : List GStore :=
  let via (l : Nat) : Option (Nat × Nat) :=
    if c.native && m.space == .w then (as.find? fun x => x.1 == l).map fun x => (x.2, m.sw) else none
  let ws : List GStore := ps.map fun e =>
    { lane := e.1, dst := e.2, data := leBytes (ty.width / 8) (s.bits c ty e.1 a), via := via e.1 }
  match ws with
  | w :: rest => { w with rel := if c.native && releases ord then some sc else none } :: rest
  | [] => []

/-- A store's checks, then its release part, then its gated lane-stores in lane order (05 R115;
21 R452). -/
def execSt (g : Guard) (ty : STy) (ord : MemOrder) (sc : Scope) (m : MemRef) (a : Operand)
    (w : Toks) (s : State) : Host.Outcome State Fault Refusal :=
  s.issue g fun c =>
    if c.exec.isEmpty then s.finish c
    else
      let n := ty.width / 8
      let as := s.addrs c m c.exec
      let (rs, t) := s.resolveLanes c m sc { n, write := true } anyAttr c.exec
      match resolvedFaults rs with
      | [] =>
        if c.aliasByte ≠ 0 ∧ c.p.aliases.any (fun e => e.conflicts m.space c.aliasByte as) then
          t.rollBack c
        else
          t.release c (releases ord && !c.native) sc w fun u =>
            ((u.gate c (u.storesOf c ty ord sc m a as (storePlaces as m.sw rs))).finish c).noteOverflow
              c.b.launch
      | fs => t.raiseLanes c fs

/-- The type that LDT and STT take for a tile format (19 Table 19.5). -/
def tileType : Nat → Option STy
  | 0 | 14 => some .i8
  | 1 | 10 | 11 | 12 | 13 => some .n8
  | 2 => some .i16
  | 3 => some .n16
  | 4 => some .i32
  | 5 => some .n32
  | 6 => some .b32
  | 7 => some .f32
  | 8 => some .f16
  | 9 => some .bf16
  | _ => none

/-- The shape fault of an element access (19 R417; 21 R456). -/
def State.elementFault (s : State) (c : Ctx) (t : Tile) (n : Nat) (ty : STy) (row col : Operand) :
    Option Flt :=
  let f : Flt := { code := .tileShape, detail := n }
  if !t.cfg || tileType t.fmt != some ty then some { f with lanes := maskOf c.exec }
  else
    match c.exec.filter fun l => decide (t.rows ≤ s.u32 c l row) || decide (t.cols ≤ s.u32 c l col) with
    | [] => none
    | ls => some { f with lanes := maskOf ls }

def execLdt (g : Guard) (ty : STy) (d : Operand) (tile : Nat) (row col : Operand) (s : State) :
    Host.Outcome State Fault Refusal :=
  s.issue g fun c =>
    let t := s.tile c.g.block tile
    if c.exec.isEmpty then s.finish c
    else if t.state ≠ tileReady then s.waitOn c (.tile tile)
    else
      match s.elementFault c t tile ty row col with
      | some f => s.raise c f
      | none =>
        (s.write c (ty.width == 64) d (c.exec.map fun l =>
          let r := s.u32 c l row
          let k := s.u32 c l col
          let bs := (t.elementBytes r k).flatMap fun e =>
            let p := tilePlace c.b t e.1
            overlay p (s.readPlace c.b.core p 1).1 l (s.path c).gated
          (l, extendTo ty (t.gather k bs)))).finish c

def execStt (g : Guard) (ty : STy) (tile : Nat) (row col a : Operand) (s : State) :
    Host.Outcome State Fault Refusal :=
  s.issue g fun c =>
    let t := s.tile c.g.block tile
    if c.exec.isEmpty then s.finish c
    else if t.state = tileFilling ∨ t.state = tileDraining then
      s.raiseAll c { code := .tileBusy, detail := tile }
    else
      match s.elementFault c t tile ty row col with
      | some f => s.raise c f
      | none =>
        (s.gate c (c.exec.flatMap fun l =>
          let k := s.u32 c l col
          ((t.elementBytes (s.u32 c l row) k).zip (t.scatter k (s.bits c ty l a))).map fun e =>
            { lane := l, dst := tilePlace c.b t e.1.1, data := [e.2], mask := [e.1.2] })).finish c

/-- FENCE (05 R118; 18 R393). -/
def execFence (g : Guard) (kind : FenceKind) (sc : Scope) (w : Toks) (s : State) :
    Host.Outcome State Fault Refusal :=
  s.issue g fun c =>
    if c.exec.isEmpty then s.finish c
    else
      s.release c (kind != .acq) sc w fun t =>
        ((t.acquire c (kind != .rel) sc).finish c).noteOverflow c.b.launch

/-- DRAIN (05 R127; 18 R383). -/
def execDrain (g : Guard) (sc : Scope) (w : Toks) (s : State) : Host.Outcome State Fault Refusal :=
  s.issue g fun c =>
    if c.exec.isEmpty then s.finish c
    else if tokList w = [] then
      s.afterEarlier c fun t =>
        ((t.releaseCaches c.b.core sc).finish c).noteOverflow c.b.launch
    else s.afterTokens c w fun t => t.finish c

/-- The first byte and the last of each 4 KiB page that a range touches. -/
def pagesOf (a n : Nat) : List (Nat × Nat) :=
  (span (a / 4096) ((a + n - 1) / 4096 + 1 - a / 4096)).map fun p =>
    (max a (p * 4096), min (a + n - 1) (p * 4096 + 4095))

/-- Translates the pages of a range for a core's launch: the 64-byte lines that cover the range, each
with its virtual address. -/
def State.rangeLines (s : State) (core satp hgatp : Nat) :
    List (Nat × Nat) → Except Flt (List (Nat × Nat) × State)
  | [] => .ok ([], s)
  | (lo, hi) :: ps =>
    match s.translate core satp hgatp lo false with
    | .error f => .error f
    | .ok (pa, t) =>
      match t.rangeLines core satp hgatp ps with
      | .error f => .error f
      | .ok (ls, u) =>
        .ok ((span 0 (hi / 64 + 1 - lo / 64)).map (fun i => ((lo / 64 + i) * 64, pa / 64 + i)) ++ ls, u)

/-- The checks of LOCK, UNLOCK, FLUSH and INVAL on a range: count, canonical form, pages, read set
(18 R396; 19 R419). -/
def State.checkRange (s : State) (c : Ctx) (a n : Nat) :
    Except Flt (List (Nat × Nat) × State) :=
  match s.context c.l.vi c.l.ctx with
  | none => .error (permFault 2 a)
  | some x =>
    if n < 1 ∨ 2 ^ 30 < n then .error { code := .illegalOperand, detail := 2 }
    else if !canonical x.satp a || !canonical x.satp (a + n - 1) || decide (2 ^ 64 < a + n) then
      .error (permFault 1 a)
    else
      match s.rangeLines c.b.core x.satp (s.iface c.l.vi).hgatp (pagesOf a n) with
      | .error f => .error f
      | .ok (ls, t) =>
        if claimed c.l.claims false a n then .ok (ls, t)
        else .error { code := .regionUnclaimed, addr := a }

/-- The key of a context's pin of a line on a die (04 R100). -/
def pinKey (vi ctx die ln : Nat) : Nat := (ctxKey vi ctx * 8 + die) * 2 ^ 35 + ln

def State.pinned (s : State) (vi ctx die ln : Nat) : Bool :=
  Cells.get s.pins (pinKey vi ctx die ln) == 1

/-- The lines of a context that are pinned on a die, and the distinct lines of all contexts. -/
def State.pinCount (s : State) (vi ctx die : Nat) : Nat :=
  (s.pins.filter fun e => e.1 / 2 ^ 35 == ctxKey vi ctx * 8 + die).length

def State.pinnedLines (s : State) (die : Nat) : List Nat :=
  distinct (fun x => x) ((s.pins.filter fun e => e.1 / 2 ^ 35 % 8 == die).map fun e => e.1 % 2 ^ 35)

/-- The set of a line in a die cache of 96 MiB and 16 ways (04 R96; log entry 3). -/
def dieSetOf (ln : Nat) : Nat := Config.dieSet ln % 98304

/-- MEM_LOCK_QUOTA.LINES as it acts (04 Table 4.9). -/
def Iface.lockLines (v : Iface) : Nat := min 1179648 (bitsOf v.lockQuota.toNat 0 21)

/-- The status of a LOCK (19 R419; 04 Table 4.8). -/
def State.lockStatus (s : State) (c : Ctx) (ls : List (Nat × Nat)) : Nat :=
  let die := dieOf c.b.core
  let lines := distinct (fun x => x) (ls.map fun e => e.2)
  let new := lines.filter fun ln => !s.pinned c.l.vi c.l.ctx die ln
  let all := distinct (fun x => x) (s.pinnedLines die ++ lines)
  if ls.any fun e =>
      let f := attrFlags c.l.attrs e.1
      isMside f || isFabric f || cachePolicy f == 2 then 3
  else if (s.iface c.l.vi).lockLines < new.length + s.pinCount c.l.vi c.l.ctx die then 1
  else if new.any fun ln => decide (12 < (all.filter fun x => dieSetOf x == dieSetOf ln).length) then 2
  else 0

/-- LOCK (19 R419): the status goes to every executing lane; only status 0 pins. -/
def execLock (g : Guard) (d a cnt : Operand) (s : State) : Host.Outcome State Fault Refusal :=
  s.issue g fun c =>
    if c.exec.isEmpty then s.finish c
    else
      match s.checkRange c (s.u64 c true c.lead a) (s.u32 c c.lead cnt) with
      | .error f => s.raiseAll c f
      | .ok (ls, t) =>
        let st := t.lockStatus c ls
        let die := dieOf c.b.core
        let u := if st ≠ 0 then t else
          ls.foldl (fun (u : State) (e : Nat × Nat) =>
            let tag := c.l.tag (attrFlags c.l.attrs e.1)
            { (u.dieLine die tag e.2).2 with
              pins := Cells.set u.pins (pinKey c.l.vi c.l.ctx die e.2) 1 }) t
        (u.writeAll c false d (BitVec.ofNat 64 st)).finish c

/-- UNLOCK (21 R468). -/
def execUnlock (g : Guard) (d a cnt : Operand) (s : State) : Host.Outcome State Fault Refusal :=
  s.issue g fun c =>
    if c.exec.isEmpty then s.finish c
    else
      match s.checkRange c (s.u64 c true c.lead a) (s.u32 c c.lead cnt) with
      | .error f => s.raiseAll c f
      | .ok (ls, t) =>
        let die := dieOf c.b.core
        let all := ls.all fun e => t.pinned c.l.vi c.l.ctx die e.2
        let u := { t with
          pins := ls.foldl (fun (m : Cells 1) (e : Nat × Nat) =>
            Cells.set m (pinKey c.l.vi c.l.ctx die e.2) 0) t.pins }
        (u.writeAll c false d (if all then 0 else 4)).finish c

end Sys2Proof.Machine
end

