-- ==== Sys2Proof/Machine/Atomics.lean ====
section
/-! DEFINITION. Atomic read-modify-writes and POLLBK (07 R184; 11 R250 to R254; 17 R349 to R353; 20
R431, R432). -/

namespace Sys2Proof.Machine

/-- The new value of ATOM (11 Table 11.4, R252). `old` and `a` are bits of the type. -/
def atomOp (op : AtomOp) (ty : STy) (old a : Nat) : Nat :=
  let w := ty.width
  let num (x : Nat) : Int := if ty.signed then signedOf w x else x
  match op with
  | .add =>
    if ty.isFloat then (floatRes ty .rne (FVal.add .rne ((fmtOf ty).value old) ((fmtOf ty).value a))).val
    else (old + a) % 2 ^ w
  | .sub => (wrapRes ty ((old : Int) - a)).val
  | .min =>
    if ty.isFloat then minMaxCode ty false old a else if num a < num old then a else old
  | .max =>
    if ty.isFloat then minMaxCode ty true old a else if num old < num a then a else old
  | .and => old &&& a
  | .or => old ||| a
  | .xor => old ^^^ a
  | .xchg => a
  | .incw => if a ≤ old then 0 else old + 1
  | .decw => if old = 0 ∨ a < old then a else old - 1

/-- Runs one operation in each lane's place in increasing lane order (05 R115): `f` gives, from the
lane and the old value, the new value, if one is written. Answers the old values. -/
def State.rmw (s : State) (core n : Nat) (f : Nat → Nat → Option Nat) :
    List (Nat × Place) → List (Nat × Nat) × State
  | [] => ([], s)
  | (l, p) :: ps =>
    let (bs, t) := s.readPlace core p n
    let old := leNat bs
    let t := match f l old with
      | some x => t.writePlace core p (leBytes n x)
      | none => t
    let (rest, u) := t.rmw core n f ps
    ((l, old) :: rest, u)

/-- The attribute requirement of an atomic by its space (04 R105). -/
def atomAttr (m : MemRef) : Nat → Bool := if m.space == .g then memorySide else anyAttr

/-- An atomic instruction: its checks, the release part, each lane's operation, its results by `k`,
the acquire part (17 R350, R351). -/
def State.atomic (s : State) (c : Ctx) (ty : STy) (ord : MemOrder) (sc : Scope) (m : MemRef) (w : Toks)
    (f : Nat → Nat → Option Nat) (k : State → List (Nat × Nat) → State) : State :=
  let n := ty.width / 8
  if c.exec.isEmpty then s.finish c
  else
    s.access c m sc { n, write := true, atomic := true } (atomAttr m) c.exec fun t ps =>
      t.release c (releases ord) sc w fun u =>
        let (olds, v) := u.rmw c.b.core n f ps
        (((k v olds).acquire c (acquires ord) sc).finish c).noteOverflow c.b.launch

/-- Writes the old values, unless `.nr` names no destination. -/
def State.writeOlds (s : State) (c : Ctx) (ty : STy) (d : Option Operand) (olds : List (Nat × Nat)) :
    State :=
  match d with
  | some d => s.write c (ty.width == 64) d (olds.map fun e => (e.1, extendTo ty e.2))
  | none => s

def execAtom (g : Guard) (op : AtomOp) (ty : STy) (ord : MemOrder) (sc : Scope) (nr : Bool)
    (d : Option Operand) (m : MemRef) (a : Operand) (w : Toks) (s : State) :
    Host.Outcome State Fault Refusal :=
  s.issue g fun c =>
    s.atomic c ty ord sc m w (fun l old => some (atomOp op ty old (s.bits c ty l a)))
      fun t olds => t.writeOlds c ty (if nr then none else d) olds

/-- Whether a bounded add succeeds (11 R253). -/
def baddFits (ty : STy) (old a bound : Nat) : Bool :=
  decide (old + a ≤ bound) && decide (old + a < 2 ^ ty.width)

def execAtombadd (g : Guard) (ty : STy) (ord : MemOrder) (sc : Scope) (nr : Bool)
    (d : Option Operand) (q : Nat) (m : MemRef) (a n : Operand) (w : Toks) (s : State) :
    Host.Outcome State Fault Refusal :=
  s.issue g fun c =>
    let fits (l old : Nat) : Bool := baddFits ty old (s.bits c ty l a) (s.bits c ty l n)
    s.atomic c ty ord sc m w
      (fun l old => if fits l old then some (old + s.bits c ty l a) else none)
      fun t olds => (t.writePred c q (olds.map fun e => (e.1, fits e.1 e.2))).writeOlds c ty
        (if nr then none else d) olds

def execAtomcas (g : Guard) (ty : STy) (ord : MemOrder) (sc : Scope) (d : Operand) (m : MemRef)
    (cmp new : Operand) (w : Toks) (s : State) : Host.Outcome State Fault Refusal :=
  s.issue g fun c =>
    s.atomic c ty ord sc m w
      (fun l old => if old = s.bits c ty l cmp then some (s.bits c ty l new) else none)
      fun t olds => t.writeOlds c ty (some d) olds

/-- A scope as POLLBK and the queue instructions take it: one narrower than DEVICE acts as DEVICE
(18 R380; 20 R431). -/
def atLeastDevice : Scope → Scope
  | .host => .host
  | .fabric => .fabric
  | _ => .device

/-- One poll of the lanes that have read no non-zero value yet (07 R184): on success every lane's value
is written; otherwise the level rises and the path backs off. -/
def execPollbk (g : Guard) (sc : Scope) (d : Operand) (m : MemRef) (s : State) :
    Host.Outcome State Fault Refusal :=
  s.issue g fun c =>
    if c.exec.isEmpty then s.finish c
    else
      s.access c m (atLeastDevice sc) { n := 8 } memorySide c.exec fun t ps =>
        let t := t.acquireCaches c.b.core (atLeastDevice sc)
        let key (l : Nat) : Nat := c.pos * 64 + l
        let (vs, t) := t.readLanes c 8 (ps.filter fun e => (AMap.find? c.p.got (key e.1)).isNone)
        let got := vs.foldl (fun (m : AMap Word) (e : Nat × List Byte) =>
          if leNat e.2 = 0 then m else AMap.put m (key e.1) (BitVec.ofNat 64 (leNat e.2))) c.p.got
        let t := t.updCur c fun p => { p with got }
        if c.exec.all fun l => (AMap.find? got (key l)).isSome then
          let t := t.updGroup c.cur.grp fun g => { g with backoff := 0 }
          (t.write c true d (c.exec.map fun l => (l, (AMap.find? got (key l)).getD 0))).finish c
        else
          let b := min ((s.grp c).backoff + 1) 7
          (t.updGroup c.cur.grp fun g => { g with backoff := b }).waitOn c
            (.backoff (s.cycle + 2 ^ b * 64))

end Sys2Proof.Machine
end

