-- ==== Sys2Proof/Machine/Threads.lean ====
section
/-! DEFINITION. Rotation among paths, the end of threads and of group contexts, the bobbin store, and
the completion of the block barrier (02 R30, R34 to R36; 09 R221, R222; 17 R358; 18 R387; 20 R439). -/

namespace Sys2Proof.Machine

/-- Whether a path may issue: it waits on nothing but a poll point. -/
def Path.issuable (p : Path) : Bool := p.wait == .none || p.wait == .poll

/-- Whether a launch lets its groups issue (06 R156). -/
def Launch.issues (l : Launch) : Bool :=
  l.st == .bound || l.st == .overflowed || l.st == .irrevocable

/-- Whether a path stands at a poll point (02 R45): in Fleper code every boundary outside a matrix run
(log entry 30), in native code a bundle with the POLL mark. -/
def Path.atPoll (native : Bool) (p : Path) : Bool :=
  if native then p.wait == .poll else p.run == 0 && (p.wait == .none || p.wait == .poll)

/-- Whether a block is marked, for a stop, for eviction, or by its launch's overflow (06 R150; 12 R272; 13 R287). -/
def Block.marked (b : Block) (l : Launch) : Bool := b.stop.isSome || b.evict || l.st == .overflowed

/-- Whether a block lets a path issue. One that is asked to stop, or that a fault has frozen, lets a path run on to
the end of its open region (03 R71; 12 R270; 13 R287); one that is to give up its core, or that an overflow holds, to
its next poll point (06 R150; 12 R272). A path that has left a blocking point meanwhile stays there. A block that is
being moved issues nothing (08 R201). -/
def Block.issues (b : Block) (l : Launch) (native : Bool) (p : Path) : Bool :=
  let stops := b.stop.isSome || b.st == .frozen
  let holds := b.evict || l.st == .overflowed
  (b.st == .resident || (b.st == .frozen && b.fault.isSome)) && b.moving.isNone
    && (!stops || (p.open && !p.met)) && (!holds || !(p.atPoll native || p.met))

/-- Whether a path may be selected: it stands at no unmet blocking point, and its block does not hold it (02 R30). -/
def State.selectable (s : State) (g : Group) (p : Path) : Bool :=
  !p.wait.blocking && p.wait != .fault &&
    (match AMap.find? s.blocks g.block with
    | none => false
    | some b =>
      match AMap.find? s.launches b.launch with
      | none => false
      | some l => l.issues && b.issues l (isNative (s.imageBytes l)) p)

/-- The next entry after `e` in round-robin order whose path may be selected (02 R30). -/
def Group.nextEntry (g : Group) (ok : Path → Bool) (e : Nat) : Option Nat :=
  ((span 1 8).map fun k => (e + k) % 8).find? fun x => g.paths.any fun p => p.entry == some x && ok p

/-- The path that was left yields its entry to the parked program counter that has waited longest,
unless all of its threads are at an unmet blocking point (02 R30). -/
def Group.yieldEntry (g : Group) (i since : Nat) : Group :=
  match g.paths[i]?, oldestParked g.paths with
  | some p, some j =>
    if !p.wait.blocking && p.entry.isSome then
      let left := updAt (fun (q : Path) => { q with entry := none, since := since }) g.paths i
      let ps := updAt (fun (q : Path) => { q with entry := p.entry }) left j
      { g with paths := ps }
    else g
  | _, _ => g

/-- The group leaves its issuing path and selects the next one, counting entries from the one it left (02 R30). -/
def Group.rotate (g : Group) (ok : Path → Bool) (since : Nat) : Group :=
  let e := g.issuing.getD g.last
  let g := match g.issuingIndex with
    | some i => g.yieldEntry i since
    | none => g
  let next := g.nextEntry ok e
  { g with
    issuing := next
    last := e
    paths := g.paths.map fun p => if p.entry == next then { p with turn := 0 } else p }

/-- Rotates a group. -/
def State.rotate (s : State) (gk : Nat) : State :=
  { s.updGroup gk fun g => g.rotate (s.selectable g) s.next with next := s.next + 1 }

/-- Adds stall counters. -/
def addStalls (a b : Cells 64) : Cells 64 :=
  b.foldl (fun m e => Cells.set m e.1 (Cells.get m e.1 + e.2)) a

/-- Frees a group context that holds no thread: its flags and counters go to the block's residual
ones (02 R35; 09 R221; 13 R284). -/
def State.freeGroup (s : State) (gk : Nat) : State :=
  match AMap.find? s.groups gk with
  | none => s
  | some g =>
    if !g.lanes.isEmpty then s
    else
      let left : AMap EngineOp := s.engines.map fun (e : Nat × EngineOp) =>
        (e.1, if e.2.grp = gk then { e.2 with orphan := true } else e.2)
      { s with groups := AMap.del s.groups gk, engines := left }.updBlock g.block fun b =>
        { b with resSat := b.resSat || g.sat, resInv := b.resInv || g.inv,
                 resStall := addStalls b.resStall g.stalls }

/-- Takes threads out of the lanes of the issuing path. The path keeps what is left of it. -/
def State.leaveLanes (s : State) (c : Ctx) (lanes : List Nat) : State :=
  s.updGroup c.cur.grp fun g =>
    { g with
      lanes := AMap.keep (fun l _ => !lanes.contains l) g.lanes
      paths := updAt (fun p => { p with mask := p.mask &&& ~~~maskOf lanes }) g.paths c.cur.path }

/-- The groups of a block, with their keys. -/
def State.groupsOf (s : State) (bk : Nat) : AMap Group := AMap.keep (fun _ g => g.block == bk) s.groups

/-- The bobbins of a block. -/
def State.bobbinsOf (s : State) (bk : Nat) : AMap Bobbin := AMap.keep (fun _ x => x.block == bk) s.bobbins

/-- The live threads of a block: in lanes and in bobbins (02 R27, R34). -/
def State.liveThreads (s : State) (bk : Nat) : Nat :=
  ((s.groupsOf bk).map fun e => e.2.lanes.length).foldl (· + ·) 0
    + ((s.bobbinsOf bk).map fun e => e.2.threads.length).foldl (· + ·) 0

/-- The arrivals at a block's barrier: the lanes of paths that wait there (17 R358). -/
def State.arrivals (s : State) (bk : Nat) : Nat :=
  ((s.groupsOf bk).map fun e =>
    ((e.2.paths.filter fun p => p.wait == .sync).map fun p => (lanesOf p.mask).length).foldl (· + ·) 0).foldl
    (· + ·) 0

/-- The virtual PC of the BARSYNC at which a block waits: of the group context named, else of the
lowest one that waits (09 R222). A Fleper BARSYNC is 8 bytes before the path. -/
def State.barsyncPc (s : State) (bk : Nat) (gk : Option Nat) : Nat :=
  match AMap.find? s.blocks bk with
  | none => 0
  | some b =>
    match AMap.find? s.launches b.launch with
    | none => 0
    | some l =>
      let native := isNative (s.imageBytes l)
      let waits := (s.groupsOf bk).flatMap fun e =>
        (e.2.paths.filter fun p => p.wait == .sync).map fun p =>
          (e.1, if native then s.vpcAt b l p else p.pc - 8)
      match waits.find? fun e => some e.1 == gk with
      | some e => e.2
      | none => (waits.map fun e => e.2).headD 0

/-- Judges ARMED at the completion of a BARSYNC (09 R222); `pc` gives the BARSYNC's virtual PC for a
group context. -/
def State.judgeArmed (s : State) (bk : Nat) (pc : Option Nat → Nat) : State :=
  match AMap.find? s.blocks bk with
  | none => s
  | some b =>
    if !b.armed then s
    else
      match List.find? (fun (e : Nat × Group) => e.2.sat || e.2.inv) (s.groupsOf bk) with
      | some (gk, g) =>
        let bits := g.sat.toNat + 2 * g.inv.toNat
        (s.updBlock bk fun b => { b with armed := false }).freeze bk g.gid (pc (some gk)) false
          { code := .satTrap, detail := bits, lanes := maskOf (g.lanes.map fun e => e.1) }
      | none =>
        if b.resSat || b.resInv then
          (s.updBlock bk fun b => { b with armed := false }).freeze bk 0xFF (pc none) false
            { code := .satTrap, detail := b.resSat.toNat + 2 * b.resInv.toNat }
        else s

/-- Completes the block barrier when every live thread has arrived: the ownership interval ends,
ARMED is judged, and the paths go on (17 R358). -/
def State.completeBarsync (s : State) (bk : Nat) : State :=
  if s.arrivals bk = 0 ∨ s.arrivals bk ≠ s.liveThreads bk then s
  else
    let t := s.updBlock bk fun b => { b with owners := [] }
    let t := (s.groupsOf bk).foldl (fun (t : State) (e : Nat × Group) =>
      t.updGroup e.1 fun g => Group.regroup
        { g with paths := g.paths.map fun p => if p.wait == .sync then p.retry else p }) t
    t.judgeArmed bk (s.barsyncPc bk)

/-- The age limit of bobbins of an interface, in core cycles (02 Table 2.3). -/
def Iface.ageLimit (v : Iface) : Nat := max 16 (bitsOf v.reformAge.toNat 0 16)

/-- The bobbin that takes a thread of a key: one with the key and room, else a free one (02 R34); of several the one of
the lowest number, on which no rule speaks: DESIGN CHOICE (log entry 65). -/
def State.bobbinFor (s : State) (core bk pc : Nat) : Option Nat :=
  let keys := (span 0 64).map fun i => core * 64 + i
  match keys.find? fun k => match AMap.find? s.bobbins k with
      | some x => x.block == bk && x.pc == pc && decide (x.threads.length < 64)
      | none => false with
  | some k => some k
  | none => keys.find? fun k => (AMap.find? s.bobbins k).isNone

/-- Whether a cluster-register key lies in a lane's range, and its key inside the range. -/
def inLane (core base regs lane k : Nat) : Bool :=
  k % 64 == lane && k / 64 / 1536 / 4 == core && decide (base ≤ k / 64 % 1536)
    && decide (k / 64 % 1536 < base + regs)

/-- The cluster registers of a lane in a group context's range. -/
def State.laneRegs (s : State) (core base regs lane : Nat) : Cells 32 :=
  (AMap.keep (fun k _ => inLane core base regs lane k) s.cregs).map fun e =>
    (e.1 / 64 / 1536 % 4 * 1536 + (e.1 / 64 % 1536 - base), e.2)

/-- Gives a lane a thread's cluster registers. -/
def State.setLaneRegs (s : State) (core base regs lane : Nat) (r : Cells 32) : State :=
  let cleared := AMap.keep (fun k _ => !inLane core base regs lane k) s.cregs
  { s with cregs := r.foldl (fun m e =>
      Cells.set m (cregKey core (e.1 / 1536) (base + e.1 % 1536) lane) e.2) cleared }

/-- Loads the registers of drawn threads into their lanes. -/
def State.loadDrawn (s : State) (bk gid core base regs : Nat) (lanes : AMap Nat) : State :=
  lanes.foldl (fun t e =>
    let k := bk * 2 ^ 11 + e.2
    let x := t.thread k
    (t.setLaneRegs core (base + gid * regs) regs e.1 x.regs).setThread k { x with regs := [] }) s

/-- Files a thread, if a bobbin takes it. -/
def State.fileThread (s : State) (core bk pc limit thread : Nat) : Option State :=
  match s.bobbinFor core bk pc with
  | none => none
  | some k =>
    let x : Bobbin := match AMap.find? s.bobbins k with
      | some x => { x with threads := x.threads ++ [thread] }
      | none => { block := bk, pc, threads := [thread], born := s.cycle, limit }
    some { s with bobbins := AMap.put s.bobbins k x }

/-- Whether every live thread of a block is filed or stands in a group whose every path is at an
unmet blocking point (02 R36). -/
def State.blockParked (s : State) (bk : Nat) : Bool :=
  (s.groupsOf bk).all fun e => e.2.paths.all fun p => p.wait.blocking

/-- Whether a bobbin is to be drawn (02 R36). -/
def State.drawDue (s : State) (x : Bobbin) : Bool :=
  x.threads.length == 64 || decide (x.born + x.limit ≤ s.cycle) || s.blockParked x.block

/-- Lanes 0 upward for threads in filing order. -/
def fillLanes : List Nat → List Nat → AMap Nat × List Nat
  | l :: ls, t :: ts => let r := fillLanes ls ts; ((l, t) :: r.1, r.2)
  | _, ts => ([], ts)

/-- Places threads into the empty lanes of the groups listed, as paths at a program counter
(02 R36). -/
def State.placeInLanes (s : State) (b : Block) (regs pc : Nat) : List Nat → List Nat → State
  | [], _ => s
  | gk :: gks, ts =>
    match AMap.find? s.groups gk with
    | none => s.placeInLanes b regs pc gks ts
    | some g =>
      let empty := (span 0 64).filter fun l => (AMap.find? g.lanes l).isNone
      let (new, rest) := fillLanes empty ts
      let s := if new.isEmpty then s else
        { s.updGroup gk fun g => Group.regroup
            { g with
              lanes := new.foldl (fun (m : AMap Nat) (e : Nat × Nat) => AMap.put m e.1 e.2) g.lanes
              paths := g.paths ++ [{ pc, since := s.next, mask := maskOf (new.map fun e => e.1) }] }
          with next := s.next + 1 }
      (s.loadDrawn g.block g.gid b.core b.regBase regs new).placeInLanes b regs pc gks rest

/-- Groups in order of their number of live threads, fewest first (02 R36). Of groups with as many the lower context
comes first, on which no rule speaks: DESIGN CHOICE (log entry 65). -/
def insertByLive (e : Nat × Group) : AMap Group → AMap Group
  | [] => [e]
  | x :: xs => if e.2.lanes.length ≤ x.2.lanes.length then e :: x :: xs else x :: insertByLive e xs

/-- Draws a bobbin: a new group in a free context of the block, else the empty lanes of its groups
(02 R36). Of several free contexts the lowest is taken, on which no rule speaks: DESIGN CHOICE (log entry 65). -/
def State.drawBobbin (s : State) (k : Nat) : State :=
  match AMap.find? s.bobbins k with
  | none => s
  | some x =>
    match AMap.find? s.blocks x.block with
    | none => s
    | some b =>
      match AMap.find? s.launches b.launch with
      | none => s
      | some l =>
        let t := { s with bobbins := AMap.del s.bobbins k }
        let st := s.stageOf b l
        match (span 0 st.contexts).find? fun gid => (AMap.find? s.groups (x.block * 64 + gid)).isNone with
        | some gid =>
          let lanes := (fillLanes (span 0 64) x.threads).1
          let g : Group := { block := x.block, gid, lanes, issuing := some 0, placed := s.cycle
                             paths := [{ entry := some 0, pc := x.pc,
                                         mask := maskOf (lanes.map fun e => e.1) }] }
          { t with groups := AMap.put t.groups (x.block * 64 + gid) g }.loadDrawn x.block gid b.core
            b.regBase st.regs lanes
        | none =>
          t.placeInLanes b st.regs x.pc
            (((t.groupsOf x.block).foldr insertByLive []).map fun e => e.1) x.threads

/-- Draws every bobbin of a core for which a condition of R36 holds. -/
def State.drawReady (s : State) (core : Nat) : State :=
  ((span 0 64).map fun i => core * 64 + i).foldl (fun t k =>
    match AMap.find? t.bobbins k with
    | some x => if t.drawDue x then t.drawBobbin k else t
    | none => t) s

/-- The end of threads of the issuing path (18 R387). -/
def State.endThreads (s : State) (c : Ctx) (lanes : List Nat) : State :=
  let t := s.leaveLanes c lanes
  { t with threads := lanes.foldl (fun (m : AMap Thread) l => AMap.del m (c.g.thread l)) t.threads }

end Sys2Proof.Machine
end

