-- ==== Sys2Proof/Machine/Control.lean ====
section
/-! DEFINITION. Control flow: NOP, branches, calls, the end of threads, software traps, breakpoints,
YIELD and REFORM (17 R365 to R369; 18 R373 to R375, R387; 20 R427, R438 to R441; 21 R465, R466, R471). -/

namespace Sys2Proof.Machine

/-- Whether a byte offset is the first byte of an instruction of a Fleper section: instructions follow
one another, each 8 bytes and 4 for each parcel (15 R311). -/
def boundaryFrom (code : List Byte) (t : Nat) : Nat → Nat → Bool
  | 0, _ => false
  | n + 1, pos =>
    if pos = t then true
    else if t < pos then false
    else boundaryFrom code t n (pos + 8 + 4 * bitsOf (field code pos 8) 40 2)

def isBoundary (code : List Byte) (t : Nat) : Bool :=
  decide (t < code.length) && boundaryFrom code t (code.length / 8 + 1) 0

/-- Whether the bundle at a byte offset of a native section is a commit point (15 Table 15.8). -/
def isCommitPoint (code : List Byte) (t : Nat) : Bool := bitsOf (field code t 8) 53 1 == 1

/-- The code section that a path runs. -/
def State.codeBytes (s : State) (c : Ctx) : List Byte := codeSpace (s.imageBytes c.l) c.b.stage

/-- Where a static displacement leads: bytes in Fleper code, bundles in native code (17 R365). -/
def Ctx.target (c : Ctx) (disp : Int) : Nat :=
  ((c.p.pc : Int) + (if c.native then 64 * disp else disp)).toNat

/-- Where a thread that does not take a branch goes on: after the delay bundle in native code
(03 R59). -/
def Ctx.fall (c : Ctx) : Nat := if c.native then c.p.pc + 128 else c.after

/-- The fault of an indirect transfer to a target, if it has one: a twin is no code section (03 R79; 17 R369; 18 R374; 20
R441). -/
def State.targetFault (s : State) (c : Ctx) (t : Nat) : Option Flt :=
  let code := s.codeBytes c
  if (codeOf (s.imageBytes c.l) c.b.stage).length ≤ t ∨ (c.native ∧ t % 64 ≠ 0) then some { code := .fetchNx, addr := t }
  else if (if c.native then isCommitPoint code t else isBoundary code t) then none
  else some { code := .illegalOperand, detail := 1 }

/-- The lanes that fault, with their faults. -/
def laneFaults (lanes : List Nat) (f : Nat → Option Flt) : List (Nat × Flt) :=
  lanes.filterMap fun l => (f l).map fun x => (l, x)

/-- The executing lanes go to `dest`, the others go on. -/
def State.branch (s : State) (c : Ctx) (dest : Nat → Nat) : State :=
  s.finishTo c c.lanes fun l => if c.exec.contains l then dest l else c.fall

/-- Changes the thread of each executing lane. -/
def State.mapThreads (s : State) (c : Ctx) (f : Nat → Thread → Thread) : State :=
  c.exec.foldl (fun t l => t.setThread (c.g.thread l) (f l (t.thread (c.g.thread l)))) s

def execNop (g : Guard) (_ : Bool) (s : State) : Host.Outcome State Fault Refusal :=
  s.issue g fun c => s.finish c

def execBra (g : Guard) (disp : Int) (s : State) : Host.Outcome State Fault Refusal :=
  s.issue g fun c => s.branch c fun _ => c.target disp

def execBrx (g : Guard) (ty : STy) (a : Operand) (s : State) : Host.Outcome State Fault Refusal :=
  s.issue g fun c =>
    match laneFaults c.exec fun l => s.targetFault c (s.bits c ty l a) with
    | [] => s.branch c fun l => s.bits c ty l a
    | fs => s.raiseLanes c fs

/-- A call's effect in the threads that execute it: link, depth, transfer (18 R374, R375). -/
def State.callTo (s : State) (c : Ctx) (d : Operand) (dest : Nat → Nat) : State :=
  ((s.writeAll c true d (BitVec.ofNat 64 c.fall)).mapThreads c fun _ x =>
    { x with depth := x.depth + 1 }).branch c dest

def State.depthFault (s : State) (c : Ctx) (depth lane : Nat) : Option Flt :=
  if (s.thread (c.g.thread lane)).depth = depth then some { code := .callDepth, detail := depth }
  else none

def execCall (g : Guard) (d : Operand) (disp : Int) (s : State) : Host.Outcome State Fault Refusal :=
  s.issue g fun c =>
    match laneFaults c.exec (s.depthFault c 32) with
    | [] => s.callTo c d fun _ => c.target disp
    | fs => s.raiseLanes c fs

def execCallx (g : Guard) (ty : STy) (d a : Operand) (s : State) :
    Host.Outcome State Fault Refusal :=
  s.issue g fun c =>
    match laneFaults c.exec fun l =>
        (s.depthFault c 32 l).or (s.targetFault c (s.bits c ty l a)) with
    | [] => s.callTo c d fun l => s.bits c ty l a
    | fs => s.raiseLanes c fs

def execRet (g : Guard) (ty : STy) (a : Operand) (s : State) : Host.Outcome State Fault Refusal :=
  s.issue g fun c =>
    match laneFaults c.exec fun l =>
        (s.depthFault c 0 l).or (s.targetFault c (s.bits c ty l a)) with
    | [] => (s.mapThreads c fun _ x => { x with depth := x.depth - 1 }).branch c
        fun l => s.bits c ty l a
    | fs => s.raiseLanes c fs

/-- The lanes of the issuing path that do not execute. -/
def Ctx.others (c : Ctx) : List Nat := c.lanes.filter fun l => !c.exec.contains l

/-- The region commits, the executing threads end, the others go on; a context left empty is freed
and the block barrier may complete (18 R387). -/
def execExit (g : Guard) (s : State) : Host.Outcome State Fault Refusal :=
  s.issue g fun c =>
    let t := (s.closeRegion c.cur.grp c.cur.path).endThreads c c.exec
    let t := t.finishTo c c.others fun _ => c.after
    (t.freeGroup c.cur.grp).completeBarsync c.g.block

def execTrap (g : Guard) (code : Nat) (s : State) : Host.Outcome State Fault Refusal :=
  s.issue g fun c =>
    if c.exec.isEmpty then s.finish c
    else s.raiseAll c { code := .softwareTrap, detail := code }

/-- The handler form, which has no delay bundle: a nested trap faults; otherwise the link, the active bit and the code
are set and control goes to the handler (21 R465). -/
def execTrapHandler (g : Guard) (code : Nat) (d : Operand) (disp : Int) (s : State) :
    Host.Outcome State Fault Refusal :=
  s.issue g fun c =>
    match laneFaults c.exec fun l =>
        if (s.thread (c.g.thread l)).trap then some { code := .softwareTrap, detail := code } else none with
    | [] =>
      let t := (s.writeAll c true d (BitVec.ofNat 64 code)).mapThreads c fun _ x =>
        { x with link := c.after, trap := true }
      t.finishTo c c.lanes fun l => if c.exec.contains l then c.target disp else c.after
    | fs => s.raiseLanes c fs

def execTret (g : Guard) (s : State) : Host.Outcome State Fault Refusal :=
  s.issue g fun c =>
    match laneFaults c.exec fun l =>
        if (s.thread (c.g.thread l)).trap then none else some { code := .illegalOperand } with
    | [] => (s.mapThreads c fun _ x => { x with trap := false }).branch c
        fun l => (s.thread (c.g.thread l)).link
    | fs => s.raiseLanes c fs

/-- With a debugger attached a BRK asks for a debug stop and the path stands after it; without one it
faults (17 R367). -/
def execBrk (g : Guard) (code : Nat) (s : State) : Host.Outcome State Fault Refusal :=
  s.issue g fun c =>
    if c.exec.isEmpty then s.finish c
    else
      match s.context c.l.vi c.l.ctx with
      | some x =>
        if x.dump = 0 then s.raiseAll c { code := .debugBreak, detail := code }
        else
          (s.updBlock c.g.block fun b =>
            { b with stop := some ((b.stop).getD
              { cause := 2, gid := c.g.gid, vpc := s.vpc c, lanes := maskOf c.exec }) }).finish c
      | none => s.raiseAll c { code := .debugBreak, detail := code }

/-- The group leaves its path as at the end of its turn (21 R471). -/
def execYield (g : Guard) (s : State) : Host.Outcome State Fault Refusal :=
  s.issue g fun c =>
    if c.exec.isEmpty then s.finish c else (s.finish c).rotate c.cur.grp

/-- Files the executing threads in lane order; answers the lanes that stay (02 R34, R35; 20 R439). -/
def State.fileLanes (s : State) (c : Ctx) (pc limit : Nat) : List Nat → State × List Nat
  | [] => (s, [])
  | l :: ls =>
    let k := c.g.thread l
    let x := s.thread k
    let base := s.regBase c
    let regs := (s.stageOf c.b c.l).regs
    match (s.setThread k { x with regs := s.laneRegs c.b.core base regs l }).fileThread
        c.b.core c.g.block pc limit ((AMap.find? c.g.lanes l).getD 0) with
    | none => let r := s.fileLanes c pc limit ls; (r.1, l :: r.2)
    | some t => t.fileLanes c pc limit ls

/-- REFORM: the region commits, the executing threads are filed by their next program counter, what
cannot be filed goes on there, and every bobbin that is due is drawn (20 R439). -/
def execReform (g : Guard) (target : Option Int) (s : State) : Host.Outcome State Fault Refusal :=
  s.issue g fun c =>
    let pc := match target with
      | some disp => c.target disp
      | none => c.after
    let t := s.closeRegion c.cur.grp c.cur.path
    let (t, stay) := t.fileLanes c pc (s.iface c.l.vi).ageLimit c.exec
    let t := t.leaveLanes c (c.exec.filter fun l => !stay.contains l)
    let t := t.finishTo c (c.lanes.filter fun l => !c.exec.contains l || stay.contains l)
      fun l => if c.exec.contains l then pc else c.after
    (t.freeGroup c.cur.grp).drawReady c.b.core

end Sys2Proof.Machine
end

