-- ==== Sys2Proof/Machine/Barriers.lean ====
section
/-! DEFINITION. The barrier page of a block, arrivals on its slots, and the barrier instructions (07
R173 to R180; 17 R355 to R360). -/

namespace Sys2Proof.Machine

/-- The on-chip address of a byte of barrier object `n` (07 R173). -/
def State.barAddr (s : State) (b : Block) (l : Launch) (n off : Nat) : Nat :=
  spadChip b.core (b.spadBase + (s.stageOf b l).spadSize - 4096 + n * 128 + off)

/-- A field of a barrier object (07 Table 7.5). -/
def State.barField (s : State) (b : Block) (l : Launch) (n off w : Nat) : Nat :=
  leNat (s.chipBytes (s.barAddr b l n off) w)

def State.setBarField (s : State) (b : Block) (l : Launch) (n off w x : Nat) : State :=
  s.setChipBytes (s.barAddr b l n off) (leBytes w x)

/-- The depth and the rotating base. -/
def State.barDepth (s : State) (b : Block) (l : Launch) (n : Nat) : Nat := s.barField b l n 0 1
def State.barBase (s : State) (b : Block) (l : Launch) (n : Nat) : Nat := s.barField b l n 1 1

/-- The physical slot of an offset, or the fault that an unarmed object or an offset past the depth
gives (07 R175 to R177; 12 Table 12.1). -/
def State.barSlot (s : State) (b : Block) (l : Launch) (n k : Nat) : Except Flt Nat :=
  let d := s.barDepth b l n
  if d ≤ k then .error { code := .barrierOverrun, detail := n + k * 256 + 2048 }
  else .ok ((s.barBase b l n + k) % d)

/-- A slot: arrivals remaining, complete, bytes remaining. -/
structure BarSlot where
  arrivals : Nat
  complete : Bool
  bytes : Nat
  deriving DecidableEq, Repr

def State.slotAt (s : State) (b : Block) (l : Launch) (n t : Nat) : BarSlot :=
  { arrivals := s.barField b l n (16 + 8 * t) 2
    complete := s.barField b l n (18 + 8 * t) 1 % 2 == 1
    bytes := s.barField b l n (20 + 8 * t) 4 }

def State.setSlot (s : State) (b : Block) (l : Launch) (n t : Nat) (x : BarSlot) : State :=
  s.setChipBytes (s.barAddr b l n (16 + 8 * t))
    (leBytes 2 x.arrivals ++ leBytes 1 x.complete.toNat ++ [0] ++ leBytes 4 x.bytes)

/-- A slot armed with expected counts (07 R174). -/
def armedSlot (arrivals bytes : Nat) : BarSlot :=
  { arrivals, complete := arrivals == 0 && bytes == 0, bytes }

def slotFault (n t : Nat) : Flt := { code := .barrierOverrun, detail := n + t * 256 }

/-- Changes the paths of a block's groups that wait on a condition. -/
def State.wakeBlock (s : State) (bk : Nat) (test : Wait → Bool) (f : Path → Path) : State :=
  (s.groupsOf bk).foldl (fun (u : State) (e : Nat × Group) =>
    u.updGroup e.1 fun g =>
      { g with paths := g.paths.map fun p => if test p.wait then f p else p }) s

/-- A slot that completes wakes its waiters, which go on (07 R175). -/
def State.wakeSlot (s : State) (bk n t : Nat) : State :=
  s.wakeBlock bk (fun w => w == Wait.bar n t) fun p => p.wake

/-- Arrivals and bytes on a physical slot; none when they overrun it (07 R175, R176). -/
def State.arrive (s : State) (bk : Nat) (b : Block) (l : Launch) (n t arrivals bytes : Nat) :
    Option State :=
  let x := s.slotAt b l n t
  if x.arrivals < arrivals ∨ x.bytes < bytes then none
  else
    let y : BarSlot := { arrivals := x.arrivals - arrivals, bytes := x.bytes - bytes
                         complete := x.complete || (x.arrivals == arrivals && x.bytes == bytes) }
    let u := s.setSlot b l n t y
    some (if y.complete then u.wakeSlot bk n t else u)

/-- The tiles of a block that are FILLING on a slot become READY, and their waiting paths go on
(04 Table 4.5, R91). -/
def State.fillDone (s : State) (bk n t : Nat) : State :=
  (s.fills.filter fun e => e.1 / 64 == bk && e.2 == (n, t)).foldl
    (fun (u : State) (e : Nat × (Nat × Nat)) =>
      let u := u.setTileState bk (e.1 % 64) tileReady
      State.wakeBlock { u with fills := AMap.del u.fills e.1 } bk (fun w => w == Wait.tile (e.1 % 64))
        Path.retry) s

/-- Engine bytes arrive on a slot (07 R176); when the slot's byte count is met, its tiles are READY. An
overrun is none. -/
def State.arriveBytes (s : State) (bk : Nat) (b : Block) (l : Launch) (n t bytes : Nat) :
    Option State :=
  match s.arrive bk b l n t 0 bytes with
  | none => none
  | some u => some (if (u.slotAt b l n t).bytes = 0 then u.fillDone bk n t else u)

/-- The slot to which a tile links, or the fault of an unarmed barrier or an offset past its depth
(10 R231; 11 R246; 21 R463). -/
def State.tileLink (s : State) (b : Block) (l : Launch) (t : Tile) : Except Flt (Nat × Nat) :=
  match s.barSlot b l t.bar t.slot with
  | .error f => .error f
  | .ok x => .ok (t.bar, x)

/-- Whether an engine transfer will still arrive on an object (07 R174). -/
def State.transferDue (s : State) (bk n : Nat) : Bool :=
  s.engines.any fun e => e.2.block == bk && decide (e.2.counted < e.2.total)
    && (match e.2.link with
      | some k => k.1 == n
      | none => false)

/-- Whether a group waits on an object. -/
def State.barWaiter (s : State) (bk n : Nat) : Bool :=
  (s.groupsOf bk).any fun e => e.2.paths.any fun p =>
    match p.wait with
    | .bar m _ => m == n
    | _ => false

/-- Writes an armed object (17 R355). -/
def State.armBarrier (s : State) (b : Block) (l : Launch) (n depth arrivals bytes : Nat) : State :=
  let t := s.setChipBytes (s.barAddr b l n 0)
    (leBytes 1 depth ++ [0] ++ leBytes 2 arrivals ++ leBytes 4 bytes)
  (span 0 8).foldl (fun t i =>
    t.setSlot b l n i (if i < depth then armedSlot arrivals bytes else ⟨0, false, 0⟩)) t

def execBararm (g : Guard) (bar : Nat) (depth arrivals bytes : Operand) (s : State) :
    Host.Outcome State Fault Refusal :=
  s.issue g fun c =>
    let d := s.u32 c c.lead depth
    let a := s.u32 c c.lead arrivals
    if c.exec.isEmpty then s.finish c
    else if d < 1 ∨ 8 < d then s.raiseAll c { code := .illegalOperand, detail := 1 }
    else if 65535 < a then s.raiseAll c { code := .illegalOperand, detail := 2 }
    else if s.barWaiter c.g.block bar || s.transferDue c.g.block bar then
      s.raiseAll c { code := .barrierOverrun, detail := bar + 2048 }
    else (s.armBarrier c.b c.l bar d a (s.u32 c c.lead bytes)).finish c

def execBararr (g : Guard) (bar k : Nat) (count : Operand) (s : State) :
    Host.Outcome State Fault Refusal :=
  s.issue g fun c =>
    if c.exec.isEmpty then s.finish c
    else
      match laneFaults c.exec fun l =>
          if 65535 < s.u32 c l count then some { code := .illegalOperand, detail := 1 } else none with
      | [] =>
        match s.barSlot c.b c.l bar k with
        | .error f => s.raiseAll c f
        | .ok t =>
          let total := (c.exec.map fun l => s.u32 c l count).foldl (· + ·) 0
          match s.arrive c.g.block c.b c.l bar t total 0 with
          | some u => u.finish c
          | none => s.raiseAll c (slotFault bar t)
      | fs => s.raiseLanes c fs

def execBarwait (g : Guard) (bar k : Nat) (s : State) : Host.Outcome State Fault Refusal :=
  s.issue g fun c =>
    if c.exec.isEmpty || c.woken then s.finish c
    else
      match s.barSlot c.b c.l bar k with
      | .error f => s.raiseAll c f
      | .ok t =>
        if (s.slotAt c.b c.l bar t).complete then s.finish c else s.waitOn c (.bar bar t)

/-- BARROT re-arms the slot at the base, which must be complete, and moves the base (17 R357). -/
def execBarrot (g : Guard) (bar : Nat) (s : State) : Host.Outcome State Fault Refusal :=
  s.issue g fun c =>
    let d := s.barDepth c.b c.l bar
    let t := s.barBase c.b c.l bar
    if c.exec.isEmpty then s.finish c
    else if d = 0 then s.raiseAll c { code := .barrierOverrun, detail := bar + 2048 }
    else if !(s.slotAt c.b c.l bar t).complete then s.raiseAll c (slotFault bar t)
    else
      let u := s.setSlot c.b c.l bar t
        (armedSlot (s.barField c.b c.l bar 2 2) (s.barField c.b c.l bar 4 4))
      let u := u.setBarField c.b c.l bar 1 1 ((t + 1) % d)
      (u.updBlock c.g.block fun b =>
        let n := BitVec.ofNat 64 (((Cells.get b.phases bar).toNat + 1) % 65536)
        { b with phases := Cells.set b.phases bar n }).finish c

/-- The paths that a BARSYNC leaves: the threads that executed it wait, the others go on, both after it;
the path of the lowest lane keeps the entry (02 R29; 17 R358). -/
def syncPaths (p : Path) (c : Ctx) (since : Nat) : List Path :=
  let entry (l : Nat) : Option Nat := if c.lanes.headD 0 = l then p.entry else none
  let q := { p with pc := c.after, since }
  [{ q with mask := maskOf c.exec, wait := .sync, entry := entry c.lead },
   { q with mask := maskOf c.others, entry := entry (c.others.headD 64) }]

/-- BARSYNC (17 R358, R359): the threads that execute it arrive and wait behind it. -/
def execBarsync (g : Guard) (s : State) : Host.Outcome State Fault Refusal :=
  s.issue g fun c =>
    if c.exec.isEmpty then s.finish c
    else
      let t := (s.endInstr c).updGroup c.cur.grp fun g =>
        let ps := syncPaths ((g.paths[c.cur.path]?).getD c.p) c s.next
        Group.regroup { g with paths := replaceAt g.paths c.cur.path ps }
      { t with next := t.next + 1 }.completeBarsync c.g.block

end Sys2Proof.Machine
end

