-- ==== Sys2Proof/Machine/QueueHome.lean ====
section
/-! DEFINITION. The home of a queue: the control block, its checks, enqueue and dequeue as one step,
the wake list and polling waiters, and the notification (07 R157 to R172, R181, R183, R483, R486). -/

namespace Sys2Proof.Machine

/-- The bytes that interfaces are offered (01 R17): 1,024 GiB less 64 MiB in each stack and less the draft cache. -/
def State.capacity (s : State) : Nat := 2 ^ 40 - 16 * 2 ^ 26 - s.dcSize * 2 ^ 29

/-- The place of a cell in the memory on offer, none for one that is held back (01 R17). Where the held-back parts lie
is a DESIGN CHOICE (log entry 8): the last 64 MiB of each stack, and the draft cache below the last of them. -/
def State.offered (s : State) (cell : Nat) : Option Nat :=
  let part := 2 ^ 36 - 2 ^ 26
  let a := cell % 2 ^ 40 / 2 ^ 36 * part + cell % 2 ^ 36
  if part ≤ cell % 2 ^ 36 ∨ s.capacity ≤ a then none else some a

/-- Whether a physical address lies in the memory of an interface (log entry 8): what is on offer and no other interface
holds is interface 0's. -/
def State.owns (s : State) (vi pa : Nat) : Bool :=
  match s.offered (cellOf pa) with
  | none => false
  | some at_ =>
    let a := at_ / 2 ^ 30
    let holds (v : Iface) : Bool := v.configured && decide (v.memBase ≤ a) && decide (a < v.memBase + v.quota)
    if vi = 0 then s.ifaces.all fun e => e.1 == 0 || !holds e.2 else holds (s.iface vi)

/-- Where the control blocks of the management queue of an interface, and of the management error queue, lie (log
entry 7). -/
def mqAddress (vi : Nat) : Nat := Config.mqBlock vi % 2 ^ 34 * 64
def errorQueue : Nat := Config.errBlock % 2 ^ 34 * 64

/-- Whether a queue belongs to an interface: a management queue to its own, the error queue to interface 0, any other
to the interface in whose memory its control block lies (07 R161; 12 R283: DEDUCED, log entry 7). -/
def State.ownsQueue (s : State) (vi cb : Nat) : Bool :=
  match List.find? (fun (e : Nat × Iface) => e.2.configured && e.2.mq == cb) s.ifaces with
  | some e => e.1 == vi
  | none => (s.owns vi cb && (vi == 0 || cb != errorQueue)) || (vi == 0 && cb == errorQueue)

/-- The fields of a control block (07 Table 7.1). -/
structure Queue where
  head : Nat
  tail : Nat
  base : Nat
  log2 : Nat
  flags : Nat
  esize : Nat
  free : Nat
  owner : Nat
  code : Nat
  rest : Nat
  deriving DecidableEq, Repr

def queueOf (bs : List Byte) : Queue :=
  { head := field bs 0 8, tail := field bs 8 8, base := field bs 16 8, log2 := field bs 24 1
    flags := field bs 25 1, esize := field bs 26 2, free := field bs 28 4, owner := field bs 40 4
    code := field bs 44 2, rest := field bs 46 18 }

def Queue.cap (q : Queue) : Nat := 2 ^ q.log2
def Queue.count (q : Queue) : Nat := unsignedOf 64 ((q.tail : Int) - q.head)
def Queue.blk (q : Queue) : Bool := bitsOf q.flags 0 1 == 1
def Queue.mdie (q : Queue) : Bool := bitsOf q.flags 1 1 == 1
def Queue.eager (q : Queue) : Bool := bitsOf q.flags 2 1 == 1
def Queue.notify (q : Queue) : Bool := bitsOf q.flags 3 1 == 1

/-- One bit of the CRC-16 of 07 R158, and the eight bits of a byte, most significant first. -/
def crcBit (crc : Nat) (b : Bool) : Nat :=
  let top := bitsOf crc 15 1 == 1
  let sh := crc * 2 % 65536
  if top != b then sh ^^^ 0x1021 else sh

def crcByte (crc : Nat) (x : Byte) : Nat :=
  (span 0 8).foldl (fun c i => crcBit c (x.getLsbD (7 - i))) crc

def crc16 (bs : List Byte) : Nat := bs.foldl crcByte 0xFFFF

/-- The check code of a control block: over bytes 16 to 27 and 40 to 43. -/
def checkCode (bs : List Byte) : Nat := crc16 ((bs.drop 16).take 12 ++ (bs.drop 40).take 4)

/-- The check of 07 R159 that a block fails: 1 code, 2 reserved or range, 3 invariant; 0 none. -/
def failedCheck (bs : List Byte) : Nat :=
  let q := queueOf bs
  if q.code ≠ checkCode bs then 1
  else if q.rest ≠ 0 ∨ q.log2 < 1 ∨ 20 < q.log2 ∨ 16 ≤ q.flags ∨ q.esize < 8 ∨ 256 < q.esize
      ∨ q.esize % 8 ≠ 0 then 2
  else if q.cap < q.free ∨ q.cap < q.count ∨ q.free + q.count ≠ q.cap then 3
  else 0

def State.queue (s : State) (cb : Nat) : Queue := queueOf (s.memBytes cb 64)
def State.home (s : State) (cb : Nat) : Home := (AMap.find? s.homes cb).getD {}
def State.setHome (s : State) (cb : Nat) (h : Home) : State :=
  { s with homes := AMap.put s.homes cb h }

/-- The waiter summary (07 Table 7.3). -/
def Home.summary (h : Home) : Nat :=
  (match h.bound with
    | some d => d % 8 * 2 ^ 17 + 2 ^ 16
    | none => 0)
  + (if h.polling.isEmpty then 0 else 2 ^ 12)
  + (h.wake.filter fun r => r.full).length * 2 ^ 6
  + (h.wake.filter fun r => !r.full).length

/-- The home writes the summary after each operation (07 Table 7.3). -/
def State.putSummary (s : State) (cb : Nat) : State :=
  s.setMemBytes (cb + 32) (leBytes 8 (s.home cb).summary)

/-- Writes head, tail and free slots; a change is broadcast to polling waiters. -/
def State.putCounts (s : State) (cb : Nat) (q : Queue) : State :=
  let h := s.home cb
  let t := (s.setMemBytes cb (leBytes 8 q.head ++ leBytes 8 q.tail)).setMemBytes (cb + 28)
    (leBytes 4 q.free)
  t.setHome cb { h with offer := h.offer || !h.polling.isEmpty }

/-- The address space and attributes that an operation is made in (07 R483). -/
structure Space2 where
  satp : Nat
  hgatp : Nat
  attrs : List Attr
  deriving DecidableEq, Repr

/-- Translation at the base dies, as a load (04 R108; 07 R483). -/
def State.homeAddr (s : State) (sp : Space2) (va : Nat) : Except Flt (Nat × State) :=
  if !canonical sp.satp va then .error (permFault 1 va)
  else if s.walkLost sp.satp sp.hgatp va then .error (lostAt va)
  else
    match s.walkBoth sp.satp sp.hgatp va false with
    | .error f => .error f
    | .ok l => .ok (l.addr va, s.setPtes l.updates)

/-- The home of a control block, as the row-local address of its cells: through whichever window it is reached, a
block has one home (07 R161; 11 R259). -/
def State.homeOf (s : State) (sp : Space2) (va : Nat) : Except Flt (Nat × State) :=
  match s.homeAddr sp va with
  | .error f => .error f
  | .ok (pa, t) => .ok (cellOf pa, t)

/-- The physical addresses of the parts of a range, with their lengths. -/
def State.partAddrs (s : State) (sp : Space2) : List (Nat × Nat) → Except Flt (List (Nat × Nat) × State)
  | [] => .ok ([], s)
  | (va, n) :: ps =>
    match s.homeAddr sp va with
    | .error f => .error f
    | .ok (pa, t) =>
      match t.partAddrs sp ps with
      | .error f => .error f
      | .ok (pas, u) => .ok ((pa, n) :: pas, u)

/-- `n` units of 8 bytes of committed memory at a virtual address, as the loader or a home reads them. -/
def State.readVa (s : State) (sp : Space2) (va n : Nat) : Except Flt (List Byte × State) :=
  match s.partAddrs sp (lineParts va (8 * n)) with
  | .error f => .error f
  | .ok (pas, t) => .ok (pas.flatMap fun e => s.memBytes e.1 e.2, t)

/-- Whether what an uncorrectable error has destroyed would be read with `n` bytes at a virtual address, or on the walk to
them (12 Table 12.5). -/
def State.readLost (s : State) (sp : Space2) (va n : Nat) : Bool :=
  !s.poison.isEmpty && (lineParts va n).any fun e =>
    match s.homeAddr sp e.1 with
    | .ok (pa, _) => s.poisoned 0 (pa / 64)
    | .error f => f.lost

/-- The entries of a context's attribute region table that are valid (04 R102): their index and their
32 bytes; or the byte offset of the first entry that could not be read (04 R103). -/
def State.readTable (s : State) (sp : Space2) (base : Nat) :
    List Nat → Except Nat (List (Nat × List Byte))
  | [] => .ok []
  | i :: is =>
    match s.readVa sp (base + 32 * i) 4 with
    | .error _ => .error (32 * i)
    | .ok (bs, _) =>
      match s.readTable sp base is with
      | .error o => .error o
      | .ok rest => .ok (if bitsOf (field bs 16 8) 0 1 = 1 then (i, bs) :: rest else rest)

/-- The range of a table entry (04 Table 4.10). -/
def attrOf (bs : List Byte) : Attr :=
  let base := field bs 0 8
  { lo := base, hi := base + field bs 8 8 * 4096, flags := BitVec.ofNat 64 (field bs 16 8) }

/-- The address space of a context, with the attributes its table gives now. -/
def State.contextSpace (s : State) (x : Context) : Space2 :=
  let sp : Space2 := { satp := x.satp, hgatp := (s.iface x.vi).hgatp, attrs := [] }
  match s.readTable sp x.attrTable (span 0 64) with
  | .ok es => { sp with attrs := es.map fun e => attrOf e.2 }
  | .error _ => sp

/-- The address space of a launch, with its snapshot (04 R103). -/
def State.launchSpace (s : State) (l : Launch) : Space2 :=
  let x := s.context l.vi l.ctx
  { satp := (x.map fun x => x.satp).getD 0, hgatp := (s.iface l.vi).hgatp, attrs := l.attrs }

/-- The attribute entry of an element area, when one immediate memory-side entry holds all of it
(07 R160). -/
def areaFlags (attrs : List Attr) (base n : Nat) : Except Flt Unit :=
  let f := attrFlags attrs base
  let one := attrs.any fun a => decide (a.lo ≤ base) && decide (base + n ≤ a.hi)
  if one && isImmediate f && isMside f then .ok ()
  else .error { code := .attrMismatch, detail := f % 65536, addr := base }

/-- The check that an uncorrectable error makes a queue fail; which one is open (12 Table 12.5; log entry 1). -/
def State.lostCheck (s : State) : Nat := Config.free s.free % 3 + 1

/-- The check that a queue fails, 0 for none; a failed check sticks until QINIT (07 R159), and what an uncorrectable
error has destroyed is corrupt (12 Table 12.5). -/
def State.corruption (s : State) (cb : Nat) : Nat :=
  let h := s.home cb
  if h.corrupt ≠ 0 then h.corrupt
  else if s.poisoned 0 (cb / 64) then s.lostCheck
  else failedCheck (s.memBytes cb 64)

def corruptFault (k : Nat) : Flt := { code := .queueCorrupt, detail := k }

/-- A queue is corrupt from now on. -/
def State.setCorrupt (s : State) (cb k : Nat) : State := s.setHome cb { s.home cb with corrupt := k }

/-- The queue becomes corrupt by an error, at a check that is open. -/
def State.loseQueue (s : State) (cb : Nat) : State := State.setCorrupt { s with free := s.free + 1 } cb s.lostCheck

/-- The parts of the elements that an operation reads or writes: `n` of them, from the head or at the tail (07 R160). -/
def Queue.parts (q : Queue) (full : Bool) (n : Nat) : List (Nat × Nat) :=
  (span 0 n).flatMap fun j =>
    lineParts (q.base + ((if full then q.tail else q.head) + j) % q.cap * q.esize) q.esize

/-- Whether a control block, or the elements that a dequeue of `n` reads, have been destroyed by an uncorrectable
error (12 Table 12.5). -/
def State.queueLost (s : State) (cb : Nat) (sp : Space2) (full : Bool) (n : Nat) : Bool :=
  s.poisoned 0 (cb / 64)
    || (!full && ((s.queue cb).parts full n).any fun e => s.readLost sp e.1 e.2)

/-- The address of a control block that the loader or the device uses: aligned, and in an immediate memory-side range (07
R157). -/
def State.cbAddr (s : State) (sp : Space2) (va : Nat) : Except Flt (Nat × State) :=
  let f := attrFlags sp.attrs va
  if va % 64 ≠ 0 then .error { code := .align, detail := 64, addr := va }
  else if !(isImmediate f && isMside f) then .error { code := .attrMismatch, detail := f % 65536, addr := va }
  else s.homeOf sp va

/-- A queue that has become non-empty notifies its target (07 R183). -/
def State.notifyFor (s : State) (cb : Nat) (q : Queue) (n : Nat) : State :=
  if q.notify ∧ q.count = 0 ∧ 0 < n then
    match AMap.find? s.notify cb with
    | some m => { s with sent := s.sent ++ [.msi m.imsic m.ident] }
    | none => s.configEvent
  else s

/-- Lines of memory are poisoned from now on (12 R279). -/
def State.poisonLines (s : State) (pas : List Nat) : State :=
  pas.foldl (fun (t : State) pa => { t with poison := Cells.set t.poison (shadowKey 0 (pa / 64)) 1 }) s

/-- Writes elements at the tail, or reads them from the head, in one step (07 R162, R163). An element without bytes
stands for one that is written from poisoned data, and is poisoned in turn (12 R279). -/
def State.homePerform (s : State) (cb : Nat) (sp : Space2) (full : Bool) (n : Nat)
    (elems : List (List Byte)) : Except Flt (List (List Byte) × State) :=
  let q := s.queue cb
  match s.partAddrs sp (q.parts full n) with
  | .error f => .error f
  | .ok (pas, t) =>
    if full then
      let t := t.putRuns pas (elems.flatMap fun e => e.take q.esize)
      let t := if elems.any List.isEmpty then t.poisonLines (pas.map fun e => e.1) else t
      .ok ([], (t.putCounts cb { q with tail := (q.tail + n) % 2 ^ 64, free := q.free - n }).notifyFor cb q n)
    else
      let bytes := pas.flatMap fun e => s.memBytes e.1 e.2
      .ok ((span 0 n).map fun j => (bytes.drop (q.esize * j)).take q.esize,
        t.putCounts cb { q with head := (q.head + n) % 2 ^ 64, free := q.free + n })

/-- Whether a request's condition holds (07 R162, R163). -/
def Queue.holds (q : Queue) (full : Bool) (n : Nat) : Bool :=
  if full then decide (n ≤ q.free) else decide (n ≤ q.count)

/-- A recoverable fault of a launch becomes an abort (12 R269, R271): its record's time orders it, and the transfers
that it stalls end. -/
def State.failPage (s : State) (lk time core : Nat) : State :=
  (s.dropOps fun _ o => o.launch == lk && (o.stall.map fun x => x.2) == some time).beginAbort lk 1
    FaultCode.pageNotPresent.num (stampAt time core)

/-- A delivery fails: a configuration event, and a recoverable fault of the present attempt becomes an abort (12 R269). -/
def State.failDelivery (s : State) (d : Delivery) : State :=
  let t := s.configEvent
  match AMap.find? s.launches d.launch with
  | some l =>
    if d.recoverable ∧ l.attempt = d.attempt then t.failPage d.launch (field d.bytes 56 8) (field d.bytes 4 2) else t
  | none => t

/-- The space a waiting request is made in. -/
def State.askerSpace (s : State) (who : Asker) : Option Space2 :=
  match who with
  | .group gk _ =>
    match AMap.find? s.groups gk with
    | none => none
    | some g =>
      match AMap.find? s.blocks g.block with
      | none => none
      | some b => (AMap.find? s.launches b.launch).map s.launchSpace
  | .append lk => (AMap.find? s.launches lk).map s.launchSpace
  | .delivery d => (s.context d.vi d.ctx).map s.contextSpace

/-- Answers a waiting request: a group goes on with its elements or its fault; a deferred append is
done, or its elements are discarded (18 R386); a delivery is done, or fails. -/
def State.answer (s : State) (who : Asker) (r : Except Flt (List (List Byte))) : State :=
  match who, r with
  | .group gk lanes, _ =>
    s.updGroup gk fun g =>
      { g with paths := g.paths.map fun p =>
          match p.wait with
          | .queue _ _ _ =>
            if (p.mask &&& lanes) != 0 then
              match r with
              | .ok es => { p.wake with reply := es }
              | .error f => { p.wake with replyFault := some f }
            else p
          | _ => p }
  | .append lk, .ok _ => s.updLaunch lk fun l => { l with deferred := l.deferred.drop 1 }
  | .append lk, .error _ =>
    s.configEvent.updLaunch lk fun l => { l with deferred := l.deferred.drop 1 }
  | .delivery _, .ok _ => s
  | .delivery d, .error _ => s.failDelivery d

/-- Removes a request from the home's lists. -/
def Home.drop (h : Home) (r : Request) : Home :=
  { h with wake := h.wake.filter fun x => x.stamp != r.stamp
           polling := h.polling.filter fun x => x.stamp != r.stamp
           offer := h.offer || !h.polling.isEmpty }

/-- Whether a request is the oldest of its condition (07 R167). -/
def Home.oldest (h : Home) (r : Request) : Bool :=
  (h.wake ++ h.polling).all fun x => x.full != r.full || decide (r.stamp ≤ x.stamp)

/-- A waiting request would read what an uncorrectable error has destroyed: the launch of a group aborts, any other asker
meets a corrupt queue (12 Table 12.5). -/
def State.lostRequest (s : State) (who : Asker) (k : Nat) : State :=
  match who with
  | .group gk _ =>
    match (AMap.find? s.groups gk).bind fun g => AMap.find? s.blocks g.block with
    | some b => s.beginAbort b.launch 2 0 s.time
    | none => s
  | _ => s.answer who (.error (corruptFault k))

/-- Performs one waiting request, or faults it, after the checks that every operation makes (07 R159, R160). -/
def State.performRequest (s : State) (cb : Nat) (r : Request) : State :=
  let t := s.setHome cb ((s.home cb).drop r)
  match t.askerSpace r.who with
  | none => t
  | some sp =>
    if t.queueLost cb sp r.full r.n then
      (t.loseQueue cb).lostRequest r.who t.lostCheck
    else
      let q := t.queue cb
      match t.corruption cb, areaFlags sp.attrs q.base (q.cap * q.esize) with
      | 0, .ok () =>
        match t.homePerform cb sp r.full r.n r.elems with
        | .ok (es, u) => u.answer r.who (.ok es)
        | .error f => t.answer r.who (.error f)
      | 0, .error f => t.answer r.who (.error f)
      | k, _ => (t.setCorrupt cb k).answer r.who (.error (corruptFault k))

/-- After an operation: listed requests perform while the oldest of a condition holds (07 R166); one
that is evaluated on a corrupt queue faults (07 R171). -/
def State.serveQueue (s : State) (cb : Nat) : Nat → State
  | 0 => s.putSummary cb
  | k + 1 =>
    let h := s.home cb
    let bad := s.corruption cb ≠ 0
    match h.wake.find? fun r => h.oldest r && (bad || (s.queue cb).holds r.full r.n) with
    | some r => (s.performRequest cb r).serveQueue cb k
    | none => s.putSummary cb

def State.serve (s : State) (cb : Nat) : State := s.serveQueue cb ((s.home cb).wake.length + 1)

/-- How the home answers an operation; `lost` is one that would read what an uncorrectable error has destroyed (12 Table
12.5). -/
inductive HomeAns where
  | fault (f : Flt) (s : State)
  | lost (s : State)
  | done (elems : List (List Byte)) (s : State)
  | turned (s : State)
  deriving DecidableEq, Repr

/-- The state that an answer leaves. -/
def HomeAns.state : HomeAns → State
  | .fault _ s | .lost s | .done _ s | .turned s => s

/-- Who operates on a queue: a group's launch on a die, for its context; the loader or a queue port, for an interface; or
the device, for a context (07 R161, R486). -/
inductive Party where
  | core (vi ctx die : Nat)
  | agent (vi : Nat)
  | device (vi ctx : Nat)
  deriving DecidableEq, Repr

/-- Whether the home lets a party operate on a queue (07 Table 7.1, R161, R486). -/
def State.homeAllows (s : State) (cb : Nat) (who : Party) : Bool :=
  let q := s.queue cb
  match who with
  | .agent vi => s.ownsQueue vi cb
  | .device vi ctx => s.ownsQueue vi cb && (q.owner == 0 || q.owner == ctx)
  | .core vi ctx die =>
    s.ownsQueue vi cb && (q.owner == 0 || q.owner == ctx) && (q.mdie || ((s.home cb).bound).all fun d => d == die)

/-- The first operation of a core that does not fault binds its die (07 R161, R164). -/
def State.bindHome (s : State) (cb : Nat) (who : Party) : State :=
  match who with
  | .core _ _ die =>
    let h := s.home cb
    if !(s.queue cb).mdie && h.bound.isNone then s.setHome cb { h with bound := some die } else s
  | _ => s

/-- Access, R159 and R160: what stops an operation, if anything does. -/
def State.homeSound (s : State) (cb : Nat) (sp : Space2) (who : Party) : Option HomeAns :=
  if !s.homeAllows cb who then some (.fault (permFault 4 0) (s.serve cb))
  else if (s.home cb).corrupt = 0 ∧ s.poisoned 0 (cb / 64) then some (.lost ((s.loseQueue cb).serve cb))
  else
    match s.corruption cb with
    | 0 =>
      let q := s.queue cb
      match areaFlags sp.attrs q.base (q.cap * q.esize) with
      | .error f => some (.fault f (s.serve cb))
      | .ok () => none
    | k => some (.fault (corruptFault k) ((s.setCorrupt cb k).serve cb))

/-- The size and count checks of 07 R162 to R164; `block` is a form that sleeps. -/
def Queue.countFault (q : Queue) (n size : Nat) (block : Bool) : Option Flt :=
  if size ≠ q.esize then some { code := .queueElementSize, detail := size }
  else if q.cap < n then some { code := .illegalOperand, detail := 1 }
  else if block ∧ !q.blk then some { code := .illegalOperand, detail := 1 }
  else none

/-- One operation at the home: performed at once when its condition holds and no request waits for the
condition, else turned away (07 R162, R163, R166). After every operation the home looks at its list again. -/
def State.homeTry (s : State) (cb : Nat) (sp : Space2) (who : Party) (full : Bool) (n size : Nat)
    (block : Bool) (elems : List (List Byte)) : HomeAns :=
  match s.homeSound cb sp who with
  | some a => a
  | none =>
    let q := s.queue cb
    let h := s.home cb
    match q.countFault n size block with
    | some f => .fault f (s.serve cb)
    | none =>
      if !q.holds full n || (h.wake ++ h.polling).any fun r => r.full == full then
        .turned ((s.bindHome cb who).serve cb)
      else if s.queueLost cb sp full n then .lost ((s.loseQueue cb).serve cb)
      else
        match s.homePerform cb sp full n elems with
        | .error f => .fault f (s.serve cb)
        | .ok (es, u) => .done es ((u.bindHome cb who).serve cb)

/-- A request waits: it joins the list of 32, or polls (07 R166). -/
def State.addRequest (s : State) (cb va : Nat) (who : Asker) (full : Bool) (n : Nat)
    (elems : List (List Byte)) : State :=
  let h := s.home cb
  let r : Request := { who, full, n, elems, stamp := s.next, va }
  let listed := match who with
    | .group _ _ => decide (h.wake.length < 32)
    | _ => false
  let h := if listed then { h with wake := h.wake ++ [r] } else { h with polling := h.polling ++ [r] }
  { s.setHome cb h with next := s.next + 1 }.putSummary cb

/-- Puts a request into the list in the order of its first sleep. -/
def insertRequest (r : Request) : List Request → List Request
  | [] => [r]
  | x :: xs => if r.stamp < x.stamp then r :: x :: xs else x :: insertRequest r xs

/-- The polling waiters offer their requests again, oldest first: one performs when it is the oldest of
its condition and the condition holds; a group's enters the list while there is room (07 R166). -/
def State.offerAll (s : State) (cb : Nat) : List Request → State
  | [] => s
  | r :: rs =>
    let h := s.home cb
    let t :=
      if h.oldest r && (s.corruption cb != 0 || (s.queue cb).holds r.full r.n) then
        s.performRequest cb r
      else
        match r.who with
        | .group _ _ =>
          if h.wake.length < 32 then
            s.setHome cb { h.drop r with wake := insertRequest r h.wake }
          else s
        | _ => s
    t.offerAll cb rs

/-- Withdraws the requests of askers that satisfy a test (07 R169, R170). -/
def State.withdraw (s : State) (test : Asker → Bool) : State :=
  s.homes.foldl (fun (t : State) (e : Nat × Home) =>
    if (e.2.wake ++ e.2.polling).any fun r => test r.who then
      let h := t.home e.1
      (t.setHome e.1 { h with wake := h.wake.filter fun r => !test r.who
                              polling := h.polling.filter fun r => !test r.who
                              offer := !h.polling.isEmpty }).serve e.1
    else t) s

/-- The bytes of a fresh control block (07 R157, R158). -/
def freshBlock (base log2 flags esize owner : Nat) : List Byte :=
  let fixed := leBytes 8 base ++ leBytes 1 log2 ++ leBytes 1 flags ++ leBytes 2 esize
  let own := leBytes 4 owner
  leBytes 16 0 ++ fixed ++ leBytes 4 (2 ^ log2) ++ leBytes 8 0 ++ own
    ++ leBytes 2 (crc16 (fixed ++ own)) ++ leBytes 18 0

/-- The physical address of a launch queue's control block, translated for the context that registered
it (07 R483). -/
def State.lqAddr (s : State) (q : LaunchQueue) : Except Flt (Nat × State) :=
  match s.context q.vi q.ctx with
  | none => .error (permFault 2 q.cb)
  | some x => s.cbAddr (s.contextSpace x) q.cb

/-- Whether a launch queue stands on a control block. -/
def State.standsOn (s : State) (q : LaunchQueue) (cb : Nat) : Bool :=
  match s.lqAddr q with
  | .ok (pa, _) => pa == cb
  | .error _ => false

/-- Initialises a queue: its block is written and every waiting request faults (07 R165, R171). A
launch queue on it is served again (06 R485). -/
def State.initQueue (s : State) (cb : Nat) (bytes : List Byte) : State :=
  let h := s.home cb
  let t := (s.putBytes cb bytes).setHome cb {}
  let t := (h.wake ++ h.polling).foldl
    (fun (t : State) (r : Request) => t.answer r.who (.error (corruptFault 4))) t
  { t with queues := t.queues.map fun e =>
      (e.1, if s.standsOn e.2 cb then { e.2 with givenUp := false } else e.2) }

end Sys2Proof.Machine
end

