-- ==== Sys2Proof/Machine/Queues.lean ====
section
/-! DEFINITION. The queue instructions (07 R162 to R168; 18 R380 to R386; 20 R433 to R435). -/

namespace Sys2Proof.Machine

/-- What a queue instruction carries: its element size, and each executing lane's element. -/
def elemSize : ElemForm → Nat
  | .reg _ => 8
  | .spad _ _ n => n

/-- The scratchpad faults of an element operand (18 R380). -/
def State.elemFaults (s : State) (c : Ctx) (e : ElemForm) : List (Nat × Flt) :=
  match e with
  | .reg _ => []
  | .spad a _ n =>
    laneFaults c.exec fun l =>
      let x := s.u32 c l a
      if x % 8 ≠ 0 then some { code := .align, detail := 8, addr := x }
      else spadFault (s.stageOf c.b c.l).spadSize x { n, write := true }

/-- The place of a byte of a lane's element. -/
def elemPlace (c : Ctx) (sw a : Nat) : Place := .chip (spadChip c.b.core (c.b.spadBase + swizzle sw a))

/-- A lane's element to enqueue. -/
def State.elemBytes (s : State) (c : Ctx) (e : ElemForm) (lane : Nat) : List Byte :=
  match e with
  | .reg o => leBytes 8 (s.u64 c true lane o)
  | .spad a sw n =>
    (span (s.u32 c lane a) n).flatMap fun x =>
      let p := elemPlace c sw x
      overlay p (s.readPlace c.b.core p 1).1 lane (s.path c).gated

/-- Gives each executing lane its dequeued element. -/
def State.takeElems (s : State) (c : Ctx) (e : ElemForm) (es : List (List Byte)) : State :=
  let pairs := c.exec.zip es
  match e with
  | .reg d => s.write c true d (pairs.map fun x => (x.1, BitVec.ofNat 64 (leNat x.2)))
  | .spad a sw n =>
    pairs.foldl (fun t x =>
      ((span (s.u32 c x.1 a) n).zip x.2).foldl
        (fun u y => u.writePlace c.b.core (elemPlace c sw y.1) [y.2]) t) s

/-- The issue checks on a control block: alignment, translation as a load, attributes, the check
`area` that an entry makes there, write set (18 R380; 20 R434). Answers its home. -/
def State.controlBlock (s : State) (c : Ctx) (va : Nat) (area : Except Flt Unit := .ok ()) :
    Except Flt (Nat × State) :=
  if va % 64 ≠ 0 then .error { code := .align, detail := 64, addr := va }
  else
    match s.context c.l.vi c.l.ctx with
    | none => .error (permFault 2 va)
    | some x =>
      match s.translate c.b.core x.satp (s.iface c.l.vi).hgatp va false with
      | .error f => .error f
      | .ok (pa, t) =>
        let flags := attrFlags c.l.attrs va
        if !(isImmediate flags && isMside flags) then
          .error { code := .attrMismatch, detail := flags % 65536, addr := va }
        else
          match area with
          | .error f => .error f
          | .ok () =>
            if !claimed c.l.claims true va 64 then
              .error { code := .regionUnclaimed, detail := 1, addr := va }
            else .ok (cellOf pa, t)

/-- The party of a group's operation. -/
def Ctx.party (c : Ctx) : Party := .core c.l.vi c.l.ctx (dieOf c.b.core)

/-- Whether a control block address is one of the launch's internal queues (06 R138). -/
def State.isInternal (s : State) (l : Launch) (cb : Nat) : Bool :=
  let bs := sectionBytes (s.imageBytes l) 2
  (span 0 (bs.length / 32)).any fun i =>
    let d := bs.drop (32 * i)
    field d 0 1 == 0 && field l.params (8 * field d 8 2) 8 == cb

/-- The elements as a service queue takes them: the home fills in the LSN (07 R181). -/
def stampElems (q : Queue) (internal : Bool) (lsn : Nat) (es : List (List Byte)) : List (List Byte) :=
  if q.eager && q.notify && q.esize == 64 && !internal then
    es.map fun e => e.take 16 ++ leBytes 8 (lsn % 2 ^ 48) ++ e.drop 24
  else es

/-- The end of a path's operation that slept: its fault, or what the home answered. An operation that has faulted is not
answered: when the page it needs has been mapped, it is made anew (07 R483). -/
def State.wokenQueue (s : State) (c : Ctx) (k : State → List (List Byte) → State) : State :=
  match c.p.replyFault with
  | some f =>
    (s.updCur c fun p => { p with replyFault := none, woken := p.woken.filter fun x => x != c.pos }).raiseAll c f
  | none => k s c.p.reply

/-- An enqueue (18 R385, R386): checked, released, then deferred or performed at the home; `k` takes
the status of a form that does not sleep. -/
def State.enqueue (s : State) (c : Ctx) (sc : Scope) (cb : Operand) (e : ElemForm) (block : Bool)
    (k : State → Bool → State) : State :=
  let n := c.exec.length
  if n = 0 then s.finish c
  else if c.woken then s.wokenQueue c fun t _ => t.finish c
  else
    let va := s.u64 c true c.lead cb
    match s.controlBlock c va, s.elemFaults c e with
    | .error f, _ => s.raiseAll c f
    | .ok (pa, t), [] =>
      t.afterEarlier c fun t =>
        let t := t.releaseCaches c.b.core (atLeastDevice sc)
        let sp := t.launchSpace c.l
        let internal := t.isInternal c.l va
        let q := t.queue pa
        let es := stampElems q internal c.l.lsn (c.exec.map (s.elemBytes c e))
        if !q.eager && !internal && !c.l.irrevocable then
          match t.homeSound pa sp c.party, q.countFault n (elemSize e) block with
          | some (.fault f u), _ => u.raiseAll c f
          | some a, _ => a.state.beginAbort c.b.launch 2 0 t.time
          | none, some f => (t.serve pa).raiseAll c f
          | none, none =>
            ((k (((t.bindHome pa c.party).serve pa).updLaunch c.b.launch fun l =>
              { l with deferred := l.deferred ++ [{ cb := va, esize := elemSize e, elems := es }] })
              true).finish c).noteOverflow c.b.launch
        else
          match t.homeTry pa sp c.party true n (elemSize e) block es with
          | .fault f u => u.raiseAll c f
          | .lost u => u.beginAbort c.b.launch 2 0 u.time
          | .done _ u => (k u true).finish c
          | .turned u =>
            if block then
              (u.addRequest pa va (.group c.cur.grp (maskOf c.exec)) true n es).waitOn c (.queue pa true n)
            else (k u false).finish c
    | .ok (_, t), fs => t.raiseLanes c fs

/-- A dequeue (18 R381, R382). -/
def State.dequeue (s : State) (c : Ctx) (sc : Scope) (cb : Operand) (e : ElemForm) (block : Bool)
    (k : State → Bool → State) : State :=
  let n := c.exec.length
  let take (t : State) (es : List (List Byte)) : State :=
    ((k (t.takeElems c e es) true).acquireCaches c.b.core (atLeastDevice sc)).finish c
  if n = 0 then s.finish c
  else if c.woken then s.wokenQueue c take
  else
    let va := s.u64 c true c.lead cb
    match s.controlBlock c va, s.elemFaults c e with
    | .error f, _ => s.raiseAll c f
    | .ok (pa, t), [] =>
      match t.homeTry pa (t.launchSpace c.l) c.party false n (elemSize e) block [] with
      | .fault f u => u.raiseAll c f
      | .lost u => u.beginAbort c.b.launch 2 0 u.time
      | .done es u => take u es
      | .turned u =>
        if block then
          (u.addRequest pa va (.group c.cur.grp (maskOf c.exec)) false n []).waitOn c (.queue pa false n)
        else (k u false).finish c
    | .ok (_, t), fs => t.raiseLanes c fs

def execEnq (g : Guard) (sc : Scope) (cb : Operand) (e : ElemForm) (s : State) :
    Host.Outcome State Fault Refusal :=
  s.issue g fun c => s.enqueue c sc cb e true fun t _ => t

def execEnqtry (g : Guard) (sc : Scope) (d cb : Operand) (e : ElemForm) (s : State) :
    Host.Outcome State Fault Refusal :=
  s.issue g fun c => s.enqueue c sc cb e false fun t ok => t.writeAll c false d (if ok then 1 else 0)

def execDeq (g : Guard) (sc : Scope) (cb : Operand) (e : ElemForm) (s : State) :
    Host.Outcome State Fault Refusal :=
  s.issue g fun c => s.dequeue c sc cb e true fun t _ => t

def execDeqtry (g : Guard) (sc : Scope) (q : Nat) (cb : Operand) (e : ElemForm) (s : State) :
    Host.Outcome State Fault Refusal :=
  s.issue g fun c => s.dequeue c sc cb e false fun t ok =>
    t.writePred c q (c.exec.map fun l => (l, ok))

/-- The fault of QINIT's operands (20 R434): alignment, then the fields of the shape word. -/
def State.qinitFault (s : State) (c : Ctx) (cb base shape : Nat) : Option Flt :=
  let owner := bitsOf shape 32 32
  let size := bitsOf shape 16 16
  let log2 := bitsOf shape 0 8
  if cb % 64 ≠ 0 then some { code := .align, detail := 64, addr := cb }
  else if base % 64 ≠ 0 then some { code := .align, detail := 64, addr := base }
  else if log2 < 1 ∨ 20 < log2 ∨ bitsOf shape 12 4 ≠ 0 ∨ size < 8 ∨ 256 < size ∨ size % 8 ≠ 0
      ∨ (owner ≠ 0 ∧ (s.context c.l.vi owner).isNone) then
    some { code := .illegalOperand, detail := 3 }
  else none

/-- QINIT (20 R434). -/
def execQinit (g : Guard) (sc : Scope) (cb base shape : Operand) (s : State) :
    Host.Outcome State Fault Refusal :=
  s.issue g fun c =>
    let va := s.u64 c true c.lead cb
    let b := s.u64 c true c.lead base
    let w := s.u64 c true c.lead shape
    let log2 := bitsOf w 0 8
    let size := bitsOf w 16 16
    if c.exec.isEmpty then s.finish c
    else
      match s.qinitFault c va b w,
          s.controlBlock c va (areaFlags c.l.attrs b (2 ^ log2 * size)) with
      | some f, _ => s.raiseAll c f
      | none, .error f => s.raiseAll c f
      | none, .ok (pa, t) =>
        t.afterEarlier c fun t =>
          let t := t.releaseCaches c.b.core (atLeastDevice sc)
          let q := t.queue pa
          if t.corruption pa = 0 ∧ q.owner ≠ 0 ∧ q.owner ≠ c.l.ctx then
            t.raiseAll c (permFault 4 0)
          else
            (t.initQueue pa (freshBlock b log2 (bitsOf w 8 4) size (bitsOf w 32 32))).finish c

/-- QSTAT (20 R435, Table 20.4). -/
def execQstat (g : Guard) (sc : Scope) (d cb : Operand) (s : State) :
    Host.Outcome State Fault Refusal :=
  s.issue g fun c =>
    if c.exec.isEmpty then s.finish c
    else
      match s.controlBlock c (s.u64 c true c.lead cb) with
      | .error f => s.raiseAll c f
      | .ok (pa, t) =>
        match t.homeSound pa (t.launchSpace c.l) c.party with
        | some (.fault f u) => u.raiseAll c f
        | some a => a.state.beginAbort c.b.launch 2 0 t.time
        | none =>
          let q := t.queue pa
          let x := q.count % 2 ^ 24 + q.free % 2 ^ 24 * 2 ^ 24 + q.flags * 2 ^ 48
          ((((t.bindHome pa c.party).serve pa).writeAll c true d (BitVec.ofNat 64 x)).acquireCaches c.b.core sc).finish c

end Sys2Proof.Machine
end

