-- ==== Sys2Proof/Machine/Collectives.lean ====
section
/-! DEFINITION. Predicates and group collectives (17 R354; 19 R404 to R407; 20 R429, R430; 21 R449,
R469). -/

namespace Sys2Proof.Machine

/-- The predicate bit of a lane's thread. -/
def State.predBit (s : State) (c : Ctx) (lane n : Nat) : Bool :=
  (s.thread (c.g.thread lane)).preds.getLsbD n

def execPlop (g : Guard) (tt d a b : Nat) (s : State) : Host.Outcome State Fault Refusal :=
  s.issue g fun c =>
    (s.writePred c d (c.exec.map fun l =>
      (l, bitsOf tt (2 * (s.predBit c l a).toNat + (s.predBit c l b).toNat) 1 == 1))).finish c

/-- PMOV to a predicate writes bit l from the lane's own value; to a register it gives the whole lane
mask (20 R430). -/
def execPmov (g : Guard) (toPred : Bool) (p : Nat) (r : Operand) (s : State) :
    Host.Outcome State Fault Refusal :=
  s.issue g fun c =>
    if toPred then
      (s.writePred c p (c.exec.map fun l => (l, (s.reg c true l r).getLsbD l))).finish c
    else (s.writeAll c true r (s.predMask c p)).finish c

def execBallot (g : Guard) (d a : Operand) (s : State) : Host.Outcome State Fault Refusal :=
  s.issue g fun c =>
    (s.writeAll c true d (maskOf (c.exec.filter fun l => s.u64 c true l a != 0))).finish c

/-- Whether a vote passes over the executing lanes' values (21 R469). -/
def voteHolds (mode : VoteMode) (vs : List Bool) : Bool :=
  match mode with
  | .all => vs.all id
  | .any => vs.any id
  | .uni => vs.all id || vs.all (!·)

def execVote (g : Guard) (mode : VoteMode) (d a : Operand) (s : State) :
    Host.Outcome State Fault Refusal :=
  s.issue g fun c =>
    (s.writeAll c false d
      (if voteHolds mode (c.exec.map fun l => s.u64 c false l a != 0) then 1 else 0)).finish c

/-- The source lane of an exchange (21 R449). -/
def shflSource (mode : ShflMode) (l x : Nat) : Int :=
  match mode with
  | .idx => x
  | .up => (l : Int) - x
  | .down => (l : Int) + x
  | .xor => (l ^^^ x : Nat)

def execShfl (g : Guard) (ty : STy) (mode : ShflMode) (d a b : Operand) (s : State) :
    Host.Outcome State Fault Refusal :=
  s.issue g fun c => s.computeBits c ty d fun l =>
    let src := shflSource mode l (s.u64 c (ty.width == 64) l b)
    if 0 ≤ src ∧ c.exec.contains src.toNat then s.bits c ty src.toNat a else s.bits c ty l a

/-- An operand as a result carries it: a NaN is the canonical one (09 R212). -/
def canonNan (ty : STy) (x : Nat) : Nat :=
  if ty.isFloat then (match (fmtOf ty).value x with
    | .nan => (fmtOf ty).nan
    | _ => x)
  else x

/-- One collective operation on two codes (19 Table 19.2), and whether it is invalid. -/
def collOp (op : CollOp) (ty : STy) (x y : Nat) : Nat × Bool :=
  if ty.isFloat then
    match op with
    | .add =>
      let r := ((fmtOf ty).value x).add .rne ((fmtOf ty).value y)
      ((fmtOf ty).ieee .rne r.1, r.2)
    | .min => (minMaxCode ty false x y, false)
    | .max => (minMaxCode ty true x y, false)
    | _ => (x, false)
  else
    let n (v : Nat) : Int := if ty.signed then signedOf ty.width v else v
    (match op with
      | .add => (x + y) % 2 ^ ty.width
      | .min => if n x ≤ n y then x else y
      | .max => if n x ≤ n y then y else x
      | .and => x &&& y
      | .or => x ||| y
      | .xor => x ^^^ y, false)

/-- The identity of an operation (19 Table 19.2). -/
def collIdentity (op : CollOp) (ty : STy) : Nat :=
  match op with
  | .add | .or | .xor => 0
  | .and => 2 ^ ty.width - 1
  | .min => if ty.isFloat then (fmtOf ty).infCode.getD 0 else unsignedOf ty.width (tyMax ty)
  | .max => if ty.isFloat then (fmtOf ty).ieee .rne (.inf true) else unsignedOf ty.width (tyMin ty)

/-- One level of the reduction tree; absent nodes pass the other one on (19 R405). -/
def reduceLevel (f : Nat → Nat → Nat × Bool) : List (Option Nat) → List (Option Nat) × Bool
  | x :: y :: rest =>
    let r := reduceLevel f rest
    match x, y with
    | none, z | z, none => (z :: r.1, r.2)
    | some u, some v => (some (f u v).1 :: r.1, (f u v).2 || r.2)
  | rest => (rest, false)

/-- `n` levels of the tree. -/
def reduceTree (f : Nat → Nat → Nat × Bool) : Nat → List (Option Nat) → Option Nat × Bool
  | 0, xs => (xs.headD none, false)
  | n + 1, xs =>
    let r := reduceLevel f xs
    let t := reduceTree f n r.1
    (t.1, r.2 || t.2)

def execGred (g : Guard) (op : CollOp) (ty : STy) (d a : Operand) (s : State) :
    Host.Outcome State Fault Refusal :=
  s.issue g fun c =>
    let r := reduceTree (collOp op ty) 6
      ((span 0 64).map fun l => if c.exec.contains l then some (canonNan ty (s.bits c ty l a)) else none)
    ((s.flag c false r.2).writeAll c (ty.width == 64) d (extendTo ty (r.1.getD 0))).finish c

/-- Prefixes in increasing lane order: each lane's value and the running value (19 R406). -/
def scanLanes (f : Nat → Nat → Nat × Bool) (excl : Bool) (ident : Nat) (val : Nat → Nat) :
    Option Nat → List Nat → List (Nat × Nat) × Bool
  | _, [] => ([], false)
  | run, l :: ls =>
    let next := match run with
      | none => (val l, false)
      | some x => f x (val l)
    let r := scanLanes f excl ident val (some next.1) ls
    ((l, if excl then run.getD ident else next.1) :: r.1, next.2 || r.2)

def execGscan (g : Guard) (op : CollOp) (excl : Bool) (ty : STy) (d a : Operand) (s : State) :
    Host.Outcome State Fault Refusal :=
  s.issue g fun c =>
    let r := scanLanes (collOp op ty) excl (collIdentity op ty) (fun l => canonNan ty (s.bits c ty l a)) none c.exec
    ((s.flag c false r.2).write c (ty.width == 64) d
      (r.1.map fun e => (e.1, extendTo ty e.2))).finish c

end Sys2Proof.Machine
end

