-- ==== Sys2Proof/Machine/Engines.lean ====
section
/-! DEFINITION. The engines after hand-over: how they reach memory, their pieces, parts, granules and
rows, the arrival of their bytes, and the end of an operation (04 R92 to R95, R110; 05 R125, R126; 07
R176; 11 R240 to R263). -/

namespace Sys2Proof.Machine

/-- An engine's read at a place: a die-side engine reads cacheable lines through the issuing die's
cache, a base-die engine (`home`) at the base dies (11 R240). -/
def State.engineRead (s : State) (core : Nat) (home : Bool) (p : Place) (n : Nat) :
    List Byte × State :=
  match p with
  | .g pa tag cached _ =>
    if cached && !home then
      let r := s.dieLine (dieOf core) tag (pa / 64)
      ((span (pa % 64) n).map (lineByte r.1.data), r.2)
    else ((span (pa % 64) n).map (lineByte (s.baseLine tag (pa / 64))), s)
  | _ => s.readPlace core p n

/-- Drops a line from the issuing core's data cache and the issuing die's die cache (11 R243); dirty
bytes that the engine did not write are written back first (log entry 32). -/
def State.dropLine (s : State) (core tag ln : Nat) (m : LaneMask) : State :=
  let back (s : State) (c : Option CLine) : State :=
    match c with
    | some c => if c.dirty &&& ~~~m = 0 then s else s.setBaseLine tag ln c.data (c.dirty &&& ~~~m)
    | none => s
  let dk := cacheKey tag (dieOf core) ln
  let ck := cacheKey tag core ln
  let t := back s (AMap.find? s.dieCache dk)
  let t := back t (AMap.find? t.coreCache ck)
  { t with dieCache := AMap.del t.dieCache dk, coreCache := AMap.del t.coreCache ck }

/-- An engine's write at a place, of the bits that `mask` names (all when it is empty): global memory
takes it at its home base die; a peer's memory when the peer has answered (11 R244). -/
def State.engineWrite (s : State) (key : Nat) (op : EngineOp) (p : Place) (bs mask : List Byte) :
    State :=
  match p with
  | .g pa tag _ _ =>
    let ln := pa / 64
    let old := (span (pa % 64) bs.length).map (lineByte (s.baseLine tag ln))
    let (d, m) := lineSlice (pa % 64) (if mask.isEmpty then bs else maskBytes old bs mask)
    (s.setBaseLine tag ln d m).dropLine op.core tag ln m
  | .chip oc =>
    s.setChipBytes oc (if mask.isEmpty then bs else maskBytes (s.chipBytes oc bs.length) bs mask)
  | .peer _ va =>
    let t := s.writePlace op.core p bs
    { t with
      remote := AMap.put t.remote t.next
        { grp := op.grp, gid := op.grp % 64, block := op.block, core := op.core, issued := t.cycle
          load := false, window := false, addr := va, sw := 0, data := bs, vpc := op.vpc
          lanes := op.lanes, op := some key }
      next := t.next + 1 }
  | .held _ _ => s

/-- An engine operation meets what an uncorrectable error has destroyed: it ends, and its launch aborts (12 R279). -/
def State.engineLost (s : State) (key : Nat) (op : EngineOp) : State :=
  (s.dropOps fun k _ => k == key).beginAbort op.launch 2 0 (stampAt s.time op.core)

/-- The address in the record of a fault of an engine operation: the tensor base for a tensor request (12 Table 12.2). -/
def EngineOp.faultAddr (op : EngineOp) (a : Nat) : Nat :=
  if op.kind = .tload ∨ op.kind = .tstore then field op.params 64 8 else a

/-- A fault of an engine operation after hand-over: a page that is not present stalls it and is
reported; any other fault freezes the issuing block and ends the operation (04 R110; 11 R242). -/
def State.engineFault (s : State) (key : Nat) (op : EngineOp) (f : Flt) : State :=
  let addr := op.faultAddr f.addr
  if f.lost then s.engineLost key op
  else if f.code = .pageNotPresent then
    let t := { s with engines := AMap.put s.engines key { op with stall := some (f.addr / 4096, s.time) } }
    let t := t.updGroup op.grp fun g =>
      { g with paths := g.paths.map fun p =>
          match p.wait with
          | .token ts => if !op.orphan && ts.contains op.token then { p with wait := .stalled ts } else p
          | _ => p }
    match AMap.find? s.blocks op.block, AMap.find? s.launches op.launch with
    | some b, some l =>
      t.deliver op.launch l true (t.faultRecord b l (op.grp % 64) f.code.num
        (3 + (if l.irrevocable then 4 else 0)) op.vpc addr (f.detail + 4) op.lanes)
    | _, _ => t
  else
    (s.dropOps fun k _ => k == key).freeze op.block (op.grp % 64) op.vpc true { f with lanes := op.lanes, addr }

/-- The place of a unit of an engine operand (11 R242). -/
def State.enginePlace (s : State) (op : EngineOp) (b : Block) (l : Launch) (sp : Space)
    (a n : Nat) (write : Bool) : Resolved × State :=
  match sp with
  | .l => (s.resolveL b l 0 (a % 2 ^ 32) { n, write }, s)
  | .c => (s.resolveC b l 0 (a % 2 ^ 32) { n, write }, s)
  | .w => (s.resolveW l 0 a { n, write }, s)
  | .g =>
    match s.context l.vi l.ctx with
    | none => (.fault (permFault 2 a), s)
    | some x =>
      match s.translate op.core x.satp (s.iface l.vi).hgatp a write with
      | .error f => (.fault f, s)
      | .ok (pa, t) =>
        if write && isControlRow pa then (.fault (permFault 6 a), t)
        else (.ok (l.place (attrFlags l.attrs a) a pa .device), t)

/-- Resolves units of an operand: their places, a fault, or a window target that is not RESIDENT, which
holds the transfer (04 R85; 18 R379). -/
def State.enginePlaces (s : State) (op : EngineOp) (b : Block) (l : Launch) (sp : Space) (n : Nat)
    (write : Bool) : List Nat → Except (Option Flt) (List Place) × State
  | [] => (.ok [], s)
  | a :: as =>
    match s.enginePlace op b l sp a n write with
    | (.fault f, t) => (.error (some f), t)
    | (.hold _, t) => (.error none, t)
    | (.ok p, t) =>
      match t.enginePlaces op b l sp n write as with
      | (.ok ps, u) => (.ok (p :: ps), u)
      | (e, u) => (e, u)

/-- Reads places in order. -/
def State.engineReads (s : State) (core : Nat) (home : Bool) (n : Nat) :
    List Place → List (List Byte) × State
  | [] => ([], s)
  | p :: ps =>
    let r := s.engineRead core home p n
    let rs := r.2.engineReads core home n ps
    (r.1 :: rs.1, rs.2)

/-- Replaces an operation. -/
def State.setEngine (s : State) (key : Nat) (op : EngineOp) : State :=
  { s with engines := AMap.put s.engines key op }

/-- A COPY has had its turn (11 R247). -/
def State.takeTurn (s : State) (key : Nat) (op : EngineOp) : State :=
  { s.setEngine key { op with served := s.next } with next := s.next + 1 }

/-- The target of a window is not RESIDENT: the transfer waits (04 R85), but in a launch that aborts, whose blocks are
discarded, it ends (06 R152). -/
def State.engineHeld (s : State) (key : Nat) (op : EngineOp) (l : Launch) : State :=
  if l.st = .aborting then s.dropOps fun k _ => k == key else s.takeTurn key op

/-- Goes on with the places of an operand's units; a fault or a poisoned line ends or stalls the
operation, a held window makes it wait. -/
def State.withPlaces (s : State) (key : Nat) (op : EngineOp) (b : Block) (l : Launch) (sp : Space)
    (n : Nat) (write : Bool) (as : List Nat) (k : State → List Place → State) : State :=
  match s.enginePlaces op b l sp n write as with
  | (.error (some f), t) => t.engineFault key op f
  | (.error none, t) => t.engineHeld key op l
  | (.ok ps, t) =>
    if !write && ps.any t.poisonedAt then t.engineLost key op else k t ps

/-- An operation that may act now: handed over, started, with its block and launch. -/
def State.acting (s : State) (key : Nat) (k : EngineOp → Block → Launch → State) : State :=
  match AMap.find? s.engines key with
  | none => s
  | some op =>
    match AMap.find? s.blocks op.block, AMap.find? s.launches op.launch with
    | some b, some l => if op.started && op.stall.isNone then k op b l else s
    | _, _ => s

/-- The spaces and addresses of a COPY (11 Table 11.2). -/
def EngineOp.dst (op : EngineOp) : Nat := field op.params 0 8
def EngineOp.src (op : EngineOp) : Nat := field op.params 8 8
def EngineOp.count (op : EngineOp) : Nat := field op.params 16 4
def EngineOp.dstSpace (op : EngineOp) : Space :=
  (Space.ofCode (bitsOf (field op.params 20 1) 0 2)).getD .g
def EngineOp.srcSpace (op : EngineOp) : Space :=
  (Space.ofCode (bitsOf (field op.params 20 1) 2 2)).getD .g

/-- Where the piece that begins at `off` ends: at a granule edge of a `.g` operand, after 4 KiB, or at
the end (11 R247). -/
def pieceEnd (gs : List Nat) (n off : Nat) : Nat :=
  gs.foldl (fun m a => min m ((a + off) / 4096 * 4096 + 4096 - a)) (min n (off + 4096))

/-- The offsets at which the pieces of a COPY begin. -/
def piecesFrom (gs : List Nat) (n : Nat) : Nat → Nat → List Nat
  | 0, _ => []
  | f + 1, off => if n ≤ off then [] else off :: piecesFrom gs n f (pieceEnd gs n off)

def EngineOp.granules (op : EngineOp) : List Nat :=
  (if op.dstSpace = .g then [op.dst] else []) ++ (if op.srcSpace = .g then [op.src] else [])

def EngineOp.pieces (op : EngineOp) : List Nat :=
  piecesFrom op.granules op.count (3 * (op.count / 4096) + 4) 0

/-- Whether a COPY is the one of its die that was served longest ago, the older hand-over on a tie (11 R247). -/
def State.nextServed (s : State) (key : Nat) (op : EngineOp) : Bool :=
  s.engines.all fun e =>
    !(e.2.kind == .copy && e.2.started && e.2.stall.isNone && !e.2.todo.isEmpty && dieOf e.2.core == dieOf op.core)
      || decide (op.served < e.2.served) || (op.served == e.2.served && decide (key ≤ e.1))

/-- One piece of a COPY is read and written (11 R246, R247). Bytes for a peer land when they have performed (07 R176). -/
def State.shuttlePiece (s : State) (key piece : Nat) : State :=
  s.acting key fun op b l =>
    if op.kind ≠ .copy ∨ !op.todo.contains piece ∨ !s.nextServed key op then s
    else
      let n := pieceEnd op.granules op.count piece - piece
      let at_ (a : Nat) : List Nat := (span 0 (n / 8)).map fun i => a + piece + 8 * i
      s.withPlaces key op b l op.srcSpace 8 false (at_ op.src) fun t ps =>
        t.withPlaces key op b l op.dstSpace 8 true (at_ op.dst) fun t qs =>
          let r := t.engineReads op.core false 8 ps
          let u := (qs.zip r.1).foldl (fun u e => u.engineWrite key op e.1 e.2 []) r.2
          let here := n - 8 * (qs.filter Place.isPeer).length
          (u.takeTurn key
            { op with
              todo := op.todo.filter fun x => x != piece
              landed := op.landed + (if op.link.isSome then here else 0) }).noteOverflow op.launch

/-- A tensor descriptor (04 Table 4.6). -/
structure Tensor where
  base : Nat
  dims : Nat
  elem : Nat
  layout : Nat
  selvedge : Nat
  extents : List Nat
  strides : List Nat
  deriving DecidableEq, Repr

def tensorOf (bs : List Byte) : Tensor :=
  { base := field bs 0 8, dims := field bs 8 1, elem := field bs 9 1, layout := field bs 10 1
    selvedge := field bs 12 4
    extents := (span 0 5).map fun k => if k < field bs 8 1 then field bs (16 + 4 * k) 4 else 1
    strides := (span 0 5).map fun k =>
      if k = 0 ∨ field bs 8 1 ≤ k then 0 else field bs (30 + 6 * k) 6 }

/-- Whether a descriptor is valid (04 R92). Beyond the five conditions that the rule lists, a non-zero extent of an
unused dimension, a base at or above 2^57, and non-zero type bits [7:4] or flag bits [7:1], which the field map
reserves, make one invalid: DESIGN CHOICE (log entry 48). -/
def tensorValid (bs : List Byte) : Bool :=
  let n := field bs 8 1
  decide (field bs 0 8 < 2 ^ 57) && decide (1 ≤ n) && decide (n ≤ 5) && decide (field bs 9 1 < 16)
    && decide (field bs 10 1 < 3) && field bs 11 1 == 1 && field bs 60 4 == 0
    && (span 0 5).all fun k => (field bs (16 + 4 * k) 4 != 0) == decide (k < n)

/-- The offset of an element in half bytes (04 R93). A BPI element is located by its block of 32. -/
def Tensor.half (t : Tensor) (i : List Nat) : Nat :=
  let bpi := t.elem == 14
  let x (k : Nat) : Nat := i.getD k 0
  let st (k : Nat) : Nat := t.strides.getD k 0
  let x0 := if bpi then x 0 / 32 * 32 else x 0
  let z := if bpi then 2 else tileBits t.elem / 4
  let high := 2 * (x 2 * st 2 + x 3 * st 3 + x 4 * st 4)
  let rows := x0 * z + 2 * (x 1 * st 1) + high
  match t.layout with
  | 1 => x 1 / 16 * st 1 * 2 + x0 / 32 * 512 * z + x 1 % 16 * 32 * z + x0 % 32 * z + high
  | 2 => (rows / 2 ^^^ (rows / 8192 % 4 * 1024)) * 2 + rows % 2
  | _ => rows

/-- The virtual addresses of the bytes that hold an element, with the bits of each (04 R93). -/
def Tensor.elementBytes (t : Tensor) (i : List Nat) : List (Nat × Byte) :=
  let h := t.half i
  let a := t.base + h / 2
  match ETy.ofCode t.elem with
  | some .bpi =>
    let e := i.getD 0 0 % 32
    (span 0 8).map fun j => (a + 4 * j + e / 8, 1#8 <<< (e % 8))
  | some .e2m1 => [(a, if h % 2 = 0 then 0x0F else 0xF0)]
  | _ => (span 0 (tileBits t.elem / 8)).map fun j => (a + j, 0xFF)

/-- A tensor request: the tensor, the origin, the tile (11 Table 11.3; 04 R94). -/
structure TensorReq where
  tensor : Tensor
  origin : List Int
  tile : Tile
  deriving DecidableEq, Repr

/-- The request of an operation: its block, with the descriptor behind it. -/
def tensorReq (params : List Byte) (t : Tile) : TensorReq :=
  { tensor := tensorOf (params.drop 64)
    origin := (span 0 5).map fun k => signedOf 32 (field params (8 + 4 * k) 4), tile := t }

/-- The coordinates of the element that tile row `r` and column `c` take, when it is in range
(04 R94). -/
def TensorReq.element (q : TensorReq) (r c : Nat) : Option (List Nat) :=
  let o (k : Nat) : Int := q.origin.getD k 0
  let i : List Int := [o 0 + c, o 1 + r, o 2, o 3, o 4]
  if (i.zip q.tensor.extents).all fun e => decide (0 ≤ e.1) && decide (e.1 < e.2) then
    some (i.map Int.toNat)
  else none

/-- The rows and columns of the tile. -/
def Tile.elements (t : Tile) : List (Nat × Nat) :=
  (span 0 t.rows).flatMap fun r => (span 0 t.cols).map fun c => (r, c)

/-- The part that an element belongs to: 0 for one out of range, else one more than the 4 KiB granule
of its first byte (04 R95). -/
def TensorReq.part (q : TensorReq) (e : Nat × Nat) : Nat :=
  match q.element e.1 e.2 with
  | none => 0
  | some i => ((q.tensor.elementBytes i).map fun x => x.1).headD 0 / 4096 + 1

/-- The bytes of the elements in range: the footprint (04 R95). -/
def TensorReq.footprint (q : TensorReq) : List Nat :=
  q.tile.elements.flatMap fun e =>
    match q.element e.1 e.2 with
    | none => []
    | some i => (q.tensor.elementBytes i).map fun x => x.1

/-- The parts of a request; a store has none for elements out of range. -/
def TensorReq.parts (q : TensorReq) (store : Bool) : List Nat :=
  (distinct (fun x => x) (q.tile.elements.map q.part)).filter fun p => !store || p != 0

/-- Fills the elements of one part of a tile from memory, or with the selvedge value (04 R94). -/
def State.fillElements (s : State) (key : Nat) (op : EngineOp) (b : Block) (l : Launch)
    (q : TensorReq) (done : State → State) : List (Nat × Nat) → State
  | [] => done s
  | e :: es =>
    match q.element e.1 e.2 with
    | none => (s.setTileElem b q.tile e.1 e.2 q.tensor.selvedge).fillElements key op b l q done es
    | some i =>
      s.withPlaces key op b l .g 1 false ((q.tensor.elementBytes i).map fun x => x.1) fun t ps =>
        let r := t.engineReads op.core false 1 ps
        (r.2.setTileElem b q.tile e.1 e.2 (q.tile.gather (i.getD 0 0) r.1.flatten)).fillElements
          key op b l q done es

/-- Stores the elements of one part of a tile, in range only (04 R94). -/
def State.storeElements (s : State) (key : Nat) (op : EngineOp) (b : Block) (l : Launch)
    (q : TensorReq) (done : State → State) : List (Nat × Nat) → State
  | [] => done s
  | e :: es =>
    match q.element e.1 e.2 with
    | none => s.storeElements key op b l q done es
    | some i =>
      let bytes := q.tensor.elementBytes i
      let vals := q.tile.scatter (i.getD 0 0) (s.tileElem b q.tile e.1 e.2)
      s.withPlaces key op b l .g 1 true (bytes.map fun x => x.1) fun t ps =>
        ((ps.zip (vals.zip (bytes.map fun x => x.2))).foldl
          (fun u x => u.engineWrite key op x.1 [x.2.1] [x.2.2]) t).storeElements key op b l q done es

/-- One part of a tensor transfer is performed (04 R95; 11 R248). A part that meets a fault performs
again from its first element when it goes on. -/
def State.tensorPart (s : State) (key part : Nat) : State :=
  s.acting key fun op b l =>
    if (op.kind ≠ .tload ∧ op.kind ≠ .tstore) ∨ !op.todo.contains part then s
    else
      let q := tensorReq op.params (s.tile op.block (op.tile.getD 0))
      let todo := op.todo.filter fun x => x != part
      let left := (q.tile.elements.filter fun e => todo.contains (q.part e)).length
      let landed := if op.link.isSome then (op.total * 8 - left * tileBits q.tile.fmt) / 8 else 0
      let mine := q.tile.elements.filter fun e => q.part e == part
      let done (t : State) : State :=
        (t.setEngine key { op with todo, landed }).noteOverflow op.launch
      if op.kind = .tload then s.fillElements key op b l q done mine
      else s.storeElements key op b l q done mine

/-- A reduction's fields (11 Table 11.5), its sources behind the block. -/
def EngineOp.redBytes (op : EngineOp) : Nat := if field op.params 29 1 = 0 then 4 else 2
def EngineOp.redDst (op : EngineOp) : Nat := field op.params 16 8
def EngineOp.redSize (op : EngineOp) : Nat := field op.params 24 4 * op.redBytes
def EngineOp.redSources (op : EngineOp) : List Nat :=
  (span 0 (field op.params 28 1)).map fun k => field op.params (64 + 8 * k) 8

/-- The destination element from the matching source elements, by the fixed tree (11 R257). -/
def reduceElement (bf : Bool) (xs : List Nat) : Nat :=
  let add (x y : Nat) : Nat × Bool :=
    (rne32 (FVal.add .rne (fmtF32.value x) (fmtF32.value y)).1, false)
  let leaf (x : Nat) : Nat := if bf then x * 65536 else x
  let r := ((reduceTree add 4 ((span 0 16).map fun k => (xs[k]?).map leaf)).1).getD 0
  if bf then fmtBf16.ieee .rne (fmtF32.value r)
  else if xs.length = 1 then (match fmtF32.value r with
    | .nan => fmtF32.nan
    | _ => r)
  else r

/-- Reduces elements of the destination one by one. -/
def State.reduceElements (s : State) (key : Nat) (op : EngineOp) (b : Block) (l : Launch)
    (done : State → State) : List Nat → State
  | [] => done s
  | i :: is =>
    let z := op.redBytes
    s.withPlaces key op b l .g z false (op.redSources.map fun a => a + i * z) fun t ps =>
      t.withPlaces key op b l .g z true [op.redDst + i * z] fun t qs =>
        let r := t.engineReads op.core true z ps
        let v := reduceElement (z == 2) (r.1.map leNat)
        (qs.foldl (fun u q => u.engineWrite key op q (leBytes z v) []) r.2).reduceElements
          key op b l done is

/-- One granule of a reduction's destination is reduced by the batten of its home (11 R257). -/
def State.battenGranule (s : State) (key granule : Nat) : State :=
  s.acting key fun op b l =>
    if op.kind ≠ .reduce ∨ !op.todo.contains granule then s
    else
      let z := op.redBytes
      let mine := (span 0 (op.redSize / z)).filter fun i => (op.redDst + i * z) / 4096 == granule
      s.reduceElements key op b l
        (fun t => (t.setEngine key { op with todo := op.todo.filter fun x => x != granule }).noteOverflow
          op.launch) mine

/-- The operands of a row operation (11 Table 11.7): its kind, and which sources it has. -/
def EngineOp.rowKind (op : EngineOp) : RowKind := (RowKind.ofCode (field op.params 26 1)).getD .copy
def rowSources : RowKind → Nat
  | .zero | .ones => 0
  | .copy | .not => 1
  | _ => 2

/-- What a row operation makes of two bytes (11 Table 11.8). -/
def rowByte (k : RowKind) (a b : Byte) : Byte :=
  match k with
  | .copy => a
  | .zero => 0
  | .ones => 0xFF
  | .and => a &&& b
  | .or => a ||| b
  | .not => ~~~a
  | .xor => a ^^^ b

/-- Writes 8 bytes of a row at the DRAM arrays. A row operation writes whole lines, so that the poison of a line goes with
the last of its units (12 Table 12.5; log entry 45). -/
def State.setRowUnit (s : State) (pa : Nat) (bs : List Byte) : State :=
  let t := s.putBytes pa bs
  if pa % 64 = 56 then { t with poison := Cells.set t.poison (shadowKey 0 (pa / 64)) 0 } else t

/-- The physical address of a place in committed memory. -/
def Place.addr : Place → Nat
  | .g pa _ _ _ => pa
  | _ => 0

/-- The next 8-byte unit of the rows of a row operation is performed at the DRAM arrays, in increasing order: two
operations on the same bytes interleave at these units (11 R262, R263). `todo` holds the unit, counted from the first
row on. -/
def State.rowRow (s : State) (key : Nat) : State :=
  s.acting key fun op b l =>
    match op.kind, op.todo with
    | .rowop, u :: _ =>
      let srcs := (span 0 (rowSources op.rowKind)).map fun k => field op.params (8 + 8 * k) 8 + 8 * u
      s.withPlaces key op b l .g 8 false srcs fun t ps =>
        t.withPlaces key op b l .g 8 true [op.dst + 8 * u] fun t qs =>
          let rows := ps.map fun p => t.memBytes p.addr 8
          let bytes := (span 0 8).map fun j =>
            rowByte op.rowKind ((rows.getD 0 []).getD j 0) ((rows.getD 1 []).getD j 0)
          let todo := if u + 1 < 128 * field op.params 24 2 then [u + 1] else []
          (qs.foldl (fun u q => u.setRowUnit q.addr bytes) t).setEngine key { op with todo }
    | _, _ => s

/-- Writes back, and drops when `drop` is set, the lines that cover a range from the issuing core's data
cache and from the die caches of the scope; lines in memory-side and fabric ranges are skipped (11
R249). `ls` gives each line's virtual address and number. -/
def State.maintain (s : State) (core : Nat) (dies : List Nat) (l : Launch) (drop : Bool)
    (ls : List (Nat × Nat)) : State :=
  ls.foldl (fun s e =>
    let f := attrFlags l.attrs e.1
    if isMside f || isFabric f then s
    else
      let tag := l.tag f
      let t := s.flushCoreLine core tag e.2
      let t := (dieOf core :: dies).foldl (fun t d => t.flushDieLine d tag e.2) t
      if drop then
        { t with
          coreCache := AMap.del t.coreCache (cacheKey tag core e.2)
          dieCache := dies.foldl (fun (m : AMap CLine) d => AMap.del m (cacheKey tag d e.2)) t.dieCache }
      else t) s

/-- The dies of a maintenance scope (11 R249). -/
def maintenanceDies (core : Nat) (sc : Scope) : List Nat :=
  if sc = .die then [dieOf core] else span 0 8

/-- Whether the operations that an operation waits for have all completed (05 R126). -/
def State.waitsDone (s : State) (op : EngineOp) : Bool :=
  op.waits.all fun k => (AMap.find? s.engines k).isNone

/-- A message of 13 Table 13.5 from its bytes. -/
def treadleOf (bs : List Byte) : TreadleMsg :=
  { action := field bs 0 1, vi := field bs 1 1, origin := field bs 2 2
    mask := BitVec.ofNat 32 (field bs 4 4), stamp := field bs 8 8, lsn := field bs 16 8 }

/-- The granules of a reduction's destination. -/
def EngineOp.redGranules (op : EngineOp) : List Nat :=
  span (op.redDst / 4096) ((op.redDst + op.redSize - 1) / 4096 + 1 - op.redDst / 4096)

/-- An operation starts: its consumed tokens are DONE (05 R126). FLUSH and INVAL act at once; TRIG's
message leaves, its own copy with it (13 R291); the others have pieces, parts, granules or rows to perform. -/
def State.startEngine (s : State) (key : Nat) : State :=
  match AMap.find? s.engines key with
  | none => s
  | some op =>
    match AMap.find? s.launches op.launch with
    | none => s
    | some l =>
      if op.started || op.stall.isSome || !s.waitsDone op then s
      else
        let go (todo : List Nat) : State := s.setEngine key { op with started := true, todo }
        let care (drop : Bool) : State :=
          match s.context l.vi l.ctx with
          | none => s
          | some x =>
            match s.rangeLines op.core x.satp (s.iface l.vi).hgatp
                (pagesOf (field op.params 0 8) (field op.params 8 8)) with
            | .error f => s.engineFault key op f
            | .ok (ls, t) =>
              (t.maintain op.core (maintenanceDies op.core op.scope) l drop ls).setEngine key
                { op with started := true }
        match op.kind with
        | .copy => go op.pieces
        | .tload => go ((tensorReq op.params (s.tile op.block (op.tile.getD 0))).parts false)
        | .tstore => go ((tensorReq op.params (s.tile op.block (op.tile.getD 0))).parts true)
        | .reduce => go op.redGranules
        | .rowop => go [0]
        | .flush => care false
        | .inval => care true
        | .trig =>
          let m := treadleOf op.params
          { go [] with sent := s.sent ++ [.treadle m], agenda := s.agenda ++ [.treadleMessageReceive m] }

/-- Landed bytes arrive on the slot; an overrun is not counted and freezes the block (07 R176). -/
def State.landBytes (s : State) (key : Nat) : State :=
  match AMap.find? s.engines key with
  | none => s
  | some op =>
    match op.link, AMap.find? s.blocks op.block, AMap.find? s.launches op.launch with
    | some (n, t), some b, some l =>
      if op.landed ≤ op.counted then s
      else
        match s.arriveBytes op.block b l n t (op.landed - op.counted) with
        | some u => u.setEngine key { op with counted := op.landed }
        | none => s.engineFault key op (slotFault n t)
    | _, _, _ => s

/-- Whether an operation has performed all it has to, and its bytes have arrived. -/
def State.engineDone (s : State) (key : Nat) (op : EngineOp) : Bool :=
  op.started && op.stall.isNone && op.todo.isEmpty && (op.link.isNone || op.counted == op.landed)
    && s.remote.all fun e => e.2.op != some key

/-- The tile of a store leaves DRAINING, and the paths that wait for it go on (04 Table 4.5). -/
def State.drained (s : State) (op : EngineOp) : State :=
  let t := op.tile.getD 0
  if bitsOf (field op.params 3 1) 1 1 = 1 then
    s.setTileWord op.block t 0 (withCfg (withState (s.tileWord op.block t 0) tileEmpty) false)
  else
    (s.setTileState op.block t tileReady).wakeBlock op.block (fun w => w == Wait.tile t)
      Path.retry

/-- Drops the destination lines of a row operation, dirty or clean, from every die cache and from the
issuing core's data cache (11 R263). -/
def State.dropRows (s : State) (op : EngineOp) (pas : List Nat) : State :=
  let hit (k : Nat) : Bool := keyTag k == 0 && pas.any fun pa => keyLine k / 16 == pa / 1024
  { s with
    dieCache := AMap.keep (fun k _ => !hit k) s.dieCache
    coreCache := AMap.keep (fun k _ => !(hit k && keyUnit k == op.core)) s.coreCache }

/-- The operation ends: its token is DONE, and the paths that wait for it go on (05 R125). -/
def State.endEngine (s : State) (key : Nat) (op : EngineOp) : State :=
  let t := { s with engines := AMap.del s.engines key }
  if op.orphan then t
  else
    (t.setDone op.grp op.token).updGroup op.grp fun g =>
      { g with paths := g.paths.map fun p =>
          match p.wait with
          | .token _ | .stalled _ => p.retry
          | _ => p }

/-- An operation completes at its scope (05 R125; 11 R244): a reduction first writes its flag (R258). -/
def State.completeEngine (s : State) (key : Nat) : State :=
  s.acting key fun op b l =>
    if !s.engineDone key op then s
    else
      match op.kind with
      | .tstore => (s.drained op).endEngine key op
      | .reduce =>
        s.withPlaces key op b l .g 8 true [field op.params 32 8] fun t qs =>
          ((qs.foldl (fun u q => u.engineWrite key op q (leBytes 8 (field op.params 40 8)) []) t).endEngine
            key op).noteOverflow op.launch
      | .rowop =>
        s.withPlaces key op b l .g 1 true
            ((span 0 (field op.params 24 2)).map fun i => field op.params 0 8 + 1024 * i) fun t qs =>
          (t.dropRows op (qs.map Place.addr)).endEngine key op
      | _ => s.endEngine key op

def execEngineStart (op : Nat) (s : State) : Host.Outcome State Fault Refusal :=
  .next (s.startEngine op)

def execShuttlePiece (op piece : Nat) (s : State) : Host.Outcome State Fault Refusal :=
  .next (s.shuttlePiece op piece)

def execTensorPartPerform (op part : Nat) (s : State) : Host.Outcome State Fault Refusal :=
  .next (s.tensorPart op part)

def execBattenGranuleReduction (op granule : Nat) (s : State) : Host.Outcome State Fault Refusal :=
  .next (s.battenGranule op granule)

def execRowOperationRow (op : Nat) (s : State) : Host.Outcome State Fault Refusal :=
  .next (s.rowRow op)

def execEngineBytesArrive (op : Nat) (s : State) : Host.Outcome State Fault Refusal :=
  .next (s.landBytes op)

def execTokenDone (op : Nat) (s : State) : Host.Outcome State Fault Refusal :=
  .next (s.completeEngine op)

end Sys2Proof.Machine
end

