-- ==== Sys2Proof/Machine/NativeDecode.lean ====
section
/-! DEFINITION. The native carrier (15 R323 to R330): a bundle's header and slots, and the instruction each slot
holds. -/

namespace Sys2Proof

/-- The static displacement of a Fleper transfer. -/
def Instr.disp : Instr → Option Int
  | .bra _ d => some d
  | .call _ _ d => some d
  | .trapHandler _ _ _ d => some d
  | .reform _ t => t
  | _ => none

/-- Matrix slots (03 R64). -/
def Instr.isMatrix : Instr → Bool
  | .mma .. | .latch .. | .gatherTile .. | .gatherSpad .. | .accscale .. | .accrd .. | .accwr .. | .accclr .. => true
  | _ => false

/-- Why a bundle is none: an unassigned encoding (15 R330), or a structural fault (03 R72). -/
inductive BundleError where
  | header | encoding (e : DecodeError)
  deriving DecidableEq, Repr

/-- The class of a slot position (15 Table 15.9); a vector or memory slot names its cluster. -/
inductive SlotClass where
  | scl | vec (x : Nat) | mem (x : Nat) | eng | mma | acc
  deriving DecidableEq, Repr

/-- The classes of positions 1 to 7 of a template (15 Table 15.9). -/
def templateClasses (t : Nat) : Option (List SlotClass) :=
  let v : List SlotClass := [.vec 0, .vec 1, .vec 2, .vec 3]
  if t < 10 then
    let xs := [0, 0, 0, 0, 1, 1, 1, 2, 2, 3]
    let ys := [0, 1, 2, 3, 1, 2, 3, 2, 3, 3]
    some ([.scl] ++ v ++ [.mem (xs.getD t 0), .mem (ys.getD t 0)])
  else if t < 14 then some ([.scl, .scl] ++ v ++ [.mem (t - 10)])
  else if t < 18 then
    let x := [0, 2, 0, 1].getD (t - 14) 0
    let y := [1, 3, 2, 3].getD (t - 14) 0
    some [.scl, .vec x, .vec y, .mem x, .mem y, .mma, .acc]
  else if t < 22 then some [.scl, .vec (t - 18), .mem (t - 18), .eng, .mma, .acc, .scl]
  else if t = 22 then some ([.scl, .scl] ++ v ++ [.eng])
  else if t < 27 then some ([.scl, .eng] ++ v ++ [.mem (t - 23)])
  else if t < 31 then some ([.scl] ++ v ++ [.mem (t - 27), .acc])
  else if t = 31 then some ([.scl] ++ v ++ [.mma, .acc])
  else if t < 36 then some (v ++ [.mma, .acc, .mem (t - 32)])
  else none

/-- The fields of a native slot (15 Table 15.10). -/
structure NSlot where
  opc : Nat
  ty : Nat
  gp : Nat
  gs : Nat
  la : Nat
  swz : Nat
  md : Nat
  d : Nat
  a : Nat
  b : Nat
  c : Nat
  deriving DecidableEq, Repr

def NSlot.parse (w : Nat) : NSlot :=
  { opc := bitsOf w 54 10, ty := bitsOf w 50 4, gp := bitsOf w 46 4, gs := bitsOf w 45 1, la := bitsOf w 41 4
    swz := bitsOf w 38 3, md := bitsOf w 32 6, d := bitsOf w 24 8, a := bitsOf w 16 8, b := bitsOf w 8 8
    c := bitsOf w 0 8 }

/-- The guard (02 Table 2.4). -/
def NSlot.guard (x : NSlot) : Except DecodeError Guard :=
  if x.gp < 12 then .ok (.pred x.gp (x.gs == 1))
  else if x.gp = 15 ∧ x.gs = 0 then .ok .always
  else .error .guard

/-- Which classes may hold an opcode (15 Table 15.11). -/
def classHolds (k : SlotClass) (o : Nat) : Bool :=
  o == 0 || (match k with
    | .scl => decide (o < 0x0C0) || o == 0x24B || decide (0x2C0 ≤ o)
    | .vec _ => decide (0x040 ≤ o) && decide (o < 0x180)
    | .mem _ => (decide (0x180 ≤ o) && decide (o ≤ 0x242)) || (decide (0x248 ≤ o) && decide (o ≤ 0x24A))
        || (decide (0x290 ≤ o) && decide (o ≤ 0x292))
    | .eng => decide (0x243 ≤ o) && decide (o ≤ 0x247)
    | .mma => decide (0x280 ≤ o) && decide (o ≤ 0x28E)
    | .acc => decide (0x293 ≤ o) && decide (o ≤ 0x296))

/-- How a short immediate reads: not at all, as an integer, as a float value (15 Table 15.12). -/
inductive ImmKind where
  | no | int | float
  deriving DecidableEq, Repr

/-- The short immediates of a type (15 R328). -/
def STy.immKind (t : STy) : ImmKind := if t.isFloat then .float else .int

def ETy.immKind : ETy → ImmKind
  | .f32 | .f16 | .bf16 => .float
  | _ => .no

/-- The FP32 patterns of the float short immediates (15 Table 15.12). -/
def shortFloat (n : Nat) : Nat :=
  [0x00000000, 0x3F800000, 0x40000000, 0x40800000, 0x41000000, 0x3F000000, 0x3E800000, 0x3E000000, 0x80000000,
   0xBF800000, 0xC0000000, 0xC0800000, 0xC1000000, 0xBF000000, 0xBE800000, 0xBE000000].getD n 0

/-- How operands are read: `virt` gives stand-ins of the virtual carrier, on which the limits of the entry are
checked; `scl` is an SCL slot; `regs` the registers per group context (15 R326). -/
structure Reader where
  virt : Bool
  scl : Bool
  regs : Nat
  deriving DecidableEq, Repr

/-- A cluster register code: inside the range, even when it names a pair. -/
def Reader.cluster (r : Reader) (wide : Bool) (n : Nat) : Bool :=
  !r.scl && decide (n % 96 + (if wide then 1 else 0) < (if n < 96 then min 96 r.regs else min 32 r.regs))
    && (!wide || n % 2 == 0)

/-- A source operand (15 R326). -/
def Reader.src (r : Reader) (k : ImmKind) (wide : Bool) (code : Nat) : Except DecodeError Operand :=
  if code < 128 then
    if !r.cluster wide code then .error .operand
    else if r.virt then .ok (.v 0)
    else if code < 96 then .ok (.creg code)
    else .ok (.nextCreg (code - 96))
  else if code < 192 then .ok (if r.virt then .v 0 else .s (code - 128))
  else if code < 204 then .ok (.p (code - 192))
  else if code < 220 then .error .operand
  else if code < 239 then
    match [Special.tidX, .tidY, .tidZ, .bidX, .bidY, .bidZ, .bdimX, .bdimY, .bdimZ, .gdimX, .gdimY, .gdimZ, .lane,
        .gid, .stage, .core, .cluster, .die, .lsn][code - 220]? with
    | some s => .ok (.special s)
    | none => .error .operand
  else if code = 239 then .error .operand
  else
    match k with
    | .no => .error .operand
    | .int => .ok (if r.virt then .v 0 else .imm (BitVec.ofNat 64 (code - 240)))
    | .float => .ok (if r.virt then .v 0 else .imm (BitVec.ofNat 64 (shortFloat (code - 240))))

/-- A destination (15 R326): a register of the own cluster, a scalar register or a predicate. -/
def Reader.dst (r : Reader) (wide : Bool) (code : Nat) : Except DecodeError Operand :=
  if code < 96 ∨ (128 ≤ code ∧ code < 204) then r.src .no wide code else .error .operand

/-- A scalar register, or also a short immediate. -/
def Reader.sOnly (r : Reader) (code : Nat) : Except DecodeError Operand :=
  if 128 ≤ code ∧ code < 192 then r.src .no false code else .error .operand

def Reader.sOrImm (r : Reader) (code : Nat) : Except DecodeError Operand :=
  if (128 ≤ code ∧ code < 192) ∨ 240 ≤ code then r.src .int false code else .error .operand

/-- An even pair of the own cluster, or a scalar register. -/
def Reader.pair (r : Reader) (code : Nat) : Except DecodeError Operand :=
  if code < 96 ∨ (128 ≤ code ∧ code < 192) then r.src .no true code else .error .operand

/-- The operand in the successor of a code (17 R341). -/
def Reader.succ (r : Reader) (wide : Bool) (code : Nat) : Except DecodeError Operand :=
  if code < 128 then
    let n := if wide then code + 2 else code + 1
    if (code < 96) = (n < 96) ∧ n < 128 then r.src .no wide n else .error .operand
  else if code < 191 then r.sOnly (code + 1)
  else .error .operand

/-- A token code, or 0 where none is named (11 R241). -/
def tokenCode (code : Nat) : Except DecodeError (Option Nat) :=
  if code = 0 then .ok none
  else if 204 ≤ code ∧ code < 220 then .ok (some (code - 204))
  else .error .operand

def producedToken (code : Nat) : Except DecodeError Nat :=
  if 204 ≤ code ∧ code < 220 then .ok (code - 204) else .error .operand

/-- A predicate code. -/
def predCode (code : Nat) : Except DecodeError Nat :=
  if 192 ≤ code ∧ code < 204 then .ok (code - 192) else .error .operand

/-- An object index below a limit. -/
def below (n x : Nat) : Except DecodeError Nat := if x < n then .ok x else .error .operand

/-- A short immediate that names a slot offset. -/
def smallImm (code : Nat) : Except DecodeError Nat :=
  if 240 ≤ code ∧ code < 248 then .ok (code - 240) else .error .operand

/-- The consumed tokens of A, B and C. -/
def NSlot.consumed (x : NSlot) : Except DecodeError Toks := do
  return { c0 := ← tokenCode x.a, c1 := ← tokenCode x.b, c2 := ← tokenCode x.c }

/-- The signed displacement in bundles of A, B and C (15 Table 15.13). -/
def NSlot.disp (x : NSlot) : Int := signedOf 24 (x.a * 65536 + x.b * 256 + x.c)

/-- The displacement of a transfer; in the stand-in 0, since the limits of an entry are those of a virtual offset. -/
def NSlot.target (x : NSlot) (r : Reader) : Int := if r.virt then 0 else x.disp

/-- The code of TRAP and BRK. -/
def NSlot.code (x : NSlot) : Nat := x.md + x.swz * 64

/-- The address of a memory slot (15 Table 15.13). -/
def NSlot.mem (x : NSlot) (r : Reader) (space : Nat) : Except DecodeError MemRef := do
  let sp ← need .opcode (Space.ofCode space)
  let wide := sp == .g || sp == .w
  let base ← if wide then r.pair x.a else r.src .no false x.a
  if sp = .g ∧ x.swz ≠ 0 then .error .modifier
  else if 240 ≤ x.b then
    .ok { space := sp, base, off := if r.virt then 0 else (x.b : Int) - 240, sw := x.swz }
  else do
    let idx ← r.src .no false x.b
    .ok { space := sp, base, idx := if r.virt then none else some idx, sw := x.swz }

/-- The element operand of a queue instruction. -/
def NSlot.elem (x : NSlot) (r : Reader) (reg : Nat) : Except DecodeError ElemForm :=
  if x.ty = 9 then
    if x.swz ≠ 0 ∨ x.md ≠ 0 then .error .modifier else do return .reg (← r.pair reg)
  else if x.ty = 0 then
    if 32 ≤ x.md then .error .modifier else do return .spad (← r.src .no false x.b) x.swz (8 * (x.md + 1))
  else .error .typeCode

/-- The old-value destination of an atomic. -/
def NSlot.old (x : NSlot) (r : Reader) (wide : Bool) : Except DecodeError (Option Operand) :=
  if x.md / 4 % 2 = 1 then (if x.d = 0 then .ok none else .error .operand) else some <$> r.dst wide x.d

/-- Which fields an opcode uses in a native slot (17 to 21, the Native columns): MOD bits, SWZ, and D, A, B, C. A
TY code that the entry fixes stands first. -/
structure NForm where
  ty : Option Nat := some 0
  md : Nat := 0
  swz : Nat := 0
  d : Bool := false
  a : Bool := false
  b : Bool := false
  c : Bool := false
  deriving DecidableEq, Repr

def NSlot.form (x : NSlot) : Option NForm :=
  let o := x.opc
  let d1 : NForm := { ty := none, d := true, a := true }
  let d2 : NForm := { ty := none, d := true, a := true, b := true }
  let all : NForm := { d := true, a := true, b := true, c := true }
  if o = 0x000 then some {}
  else if o = 0x001 then some { a := true, b := true, c := true }
  else if o = 0x002 ∨ o = 0x005 then some { ty := none, a := true }
  else if o = 0x003 then some all
  else if o = 0x004 then some d1
  else if o = 0x007 then some (if x.d = 0 then { md := 63, swz := 7 } else { all with md := 63, swz := 7 })
  else if o = 0x009 then some { md := 63, swz := 7 }
  else if o = 0x00B then some (if x.md = 1 then { md := 1, a := true, b := true, c := true } else {})
  else if 0x006 ≤ o ∧ o ≤ 0x00A then some {}
  else if o = 0x040 ∨ o = 0x041 then some { d2 with md := 1 }
  else if o = 0x044 then some { d2 with md := 1, c := true }
  else if o = 0x047 ∨ o = 0x048 then some { d1 with md := 1 }
  else if o = 0x04B then some { d2 with md := 7 }
  else if o = 0x04C then some { d2 with md := 15 }
  else if 0x042 ≤ o ∧ o ≤ 0x04A then some d2
  else if o = 0x084 ∨ (0x089 ≤ o ∧ o ≤ 0x08C) then some d1
  else if o = 0x087 ∨ o = 0x08D then some { d2 with c := true }
  else if o = 0x08E then some (if x.d = 239 ∨ x.a = 239 then { d1 with md := 63 } else d1)
  else if 0x080 ≤ o ∧ o ≤ 0x088 then some d2
  else if o = 0x0C0 ∨ o = 0x0C1 ∨ o = 0x0C2 ∨ o = 0x0C4 then some { d2 with md := 7 }
  else if o = 0x0C3 then some { d2 with md := 7, c := true }
  else if o = 0x0C5 then some { d1 with md := 7 }
  else if 0x0C6 ≤ o ∧ o ≤ 0x0CA then some d1
  else if 0x0CB ≤ o ∧ o ≤ 0x0CD then some d2
  else if o = 0x0CE then some { d2 with md := 8 }
  else if o = 0x0CF then some d1
  else if (0x107 ≤ o ∧ o ≤ 0x10D) ∨ (0x117 ≤ o ∧ o ≤ 0x11D) ∨ (0x120 ≤ o ∧ o ≤ 0x127) then
    some { d1 with md := 7 }
  else if o = 0x130 then some { d1 with ty := some 14 }
  else if o = 0x131 then some { d1 with ty := some 14, md := 7 }
  else if o = 0x140 then some { d2 with ty := some 0, md := 15 }
  else if o = 0x141 then some { d1 with ty := some 9, md := 1 }
  else if o = 0x142 then some { d1 with ty := some 9 }
  else if o = 0x143 then some { d1 with ty := some 0, md := 3 }
  else if o = 0x144 then some { d2 with md := 3 }
  else if o = 0x145 then some { d1 with md := 7 }
  else if o = 0x146 then some { d1 with md := 15 }
  else if 0x180 ≤ o ∧ o ≤ 0x187 then some { all with ty := none, md := 3, swz := 7 }
  else if o = 0x188 ∨ o = 0x189 then some { all with ty := none }
  else if o = 0x18A then some { md := 3 }
  else if o = 0x18B then some { a := true, b := true, c := true }
  else if o = 0x18C ∨ o = 0x18D then some { d2 with ty := some 6 }
  else if 0x1C0 ≤ o ∧ o ≤ 0x1E7 then some { all with ty := none, md := 7, swz := 7 }
  else if 0x1E8 ≤ o ∧ o ≤ 0x1EB then some { all with ty := none, md := 63, swz := 7 }
  else if 0x1EC ≤ o ∧ o ≤ 0x1EF then some { all with ty := none, md := 3, swz := 7 }
  else if 0x1F0 ≤ o ∧ o ≤ 0x1F3 then
    some { ty := none, md := 31, swz := 7, d := o == 0x1F1 || (0x1F2 ≤ o && x.ty == 9), a := true
           b := o < 0x1F2 || x.ty == 0, c := o == 0x1F3 }
  else if o = 0x1F4 then some { a := true, b := true, c := true }
  else if o = 0x1F5 then some { d := true, a := true }
  else if o = 0x200 then some { ty := some 6, md := 31, a := true, b := true, c := true }
  else if o = 0x201 then some { ty := some 6, md := 31, a := true, b := true }
  else if o = 0x202 then some { md := 31, b := true }
  else if o = 0x203 then some { md := 31 }
  else if o = 0x204 then some {}
  else if o = 0x205 then some { ty := some 7, md := 3, d := true, a := true, b := true }
  else if o = 0x240 then some { all with ty := none, swz := 7 }
  else if o = 0x241 then some { d := true }
  else if o = 0x242 then some { md := 3, d := x.md < 2, b := true }
  else if o = 0x243 ∨ o = 0x245 ∨ o = 0x246 then some all
  else if o = 0x244 then some { all with md := 1 }
  else if o = 0x247 then some { all with md := 7 }
  else if o = 0x248 ∨ o = 0x249 then some all
  else if o = 0x24A then some { md := 7, d := true, a := x.md == 3 }
  else if o = 0x24B then some { md := 63, a := true }
  else if o = 0x280 ∨ (0x288 ≤ o ∧ o ≤ 0x28C) ∨ o = 0x28E then
    some { ty := none, md := 63, swz := 1, d := true, a := true, b := true }
  else if o = 0x290 ∨ o = 0x291 then some { all with ty := none, md := 7 }
  else if o = 0x292 then some { ty := none, md := 7, swz := 7, d := true, a := true, c := true }
  else if o = 0x293 then some { all with md := 63, swz := 7 }
  else if o = 0x294 then some { ty := none, md := 15, d := true, a := true }
  else if o = 0x295 then some { ty := none, d := true, a := true }
  else if o = 0x296 then some { md := 15, d := true }
  else if o = 0x2C0 then some { d := true, a := true }
  else if o = 0x2C1 then some { a := true, b := true }
  else if o = 0x2C2 then some { ty := some 7, d := true }
  else if o = 0x2C3 then some {}
  else if o = 0x2C4 then some { a := true }
  else if o = 0x2C5 then some { d := true }
  else none

/-- Every field that the entry does not name is zero (17 R340). -/
def NSlot.fits (x : NSlot) (f : NForm) : Except DecodeError Unit :=
  if (match f.ty with | some t => x.ty != t | none => false) then .error .typeCode
  else if x.md &&& f.md != x.md || x.swz &&& f.swz != x.swz then .error .modifier
  else if (!f.d && x.d != 0) || (!f.a && x.a != 0) || (!f.b && x.b != 0) || (!f.c && x.c != 0) then .error .operand
  else .ok ()

/-- The latency of a slot in core cycles (03 Table 3.1), for results that land after a fixed time. -/
def fixedLatency (k : SlotClass) (o : Nat) : Option Nat :=
  match k with
  | .scl => if (0x040 ≤ o ∧ o ≤ 0x08E) ∧ o ≠ 0x045 ∧ o ≠ 0x046 then some 1 else none
  | .vec _ =>
    if o = 0x042 ∨ o = 0x043 ∨ o = 0x044 then some 4
    else if o = 0x045 ∨ o = 0x046 ∨ o = 0x0C4 ∨ o = 0x0C5 then none
    else if 0x040 ≤ o ∧ o ≤ 0x08E then some 2
    else if 0x0C6 ≤ o ∧ o ≤ 0x0CA then some 8
    else if 0x0C0 ≤ o ∧ o ≤ 0x131 then some 4
    else if 0x140 ≤ o ∧ o ≤ 0x143 then some 2
    else none
  | _ => none

/-- Whether a slot must carry LA = 0 (03 R58; 05 R132; 17 R342; 20 Table 20.1): fixed latency, no result to wait
for, or an acquire. -/
def NSlot.noLookahead (x : NSlot) (k : SlotClass) : Bool :=
  let o := x.opc
  (fixedLatency k o).isSome || o == 0 || o == 0x205 || decide (0x280 ≤ o ∧ o ≤ 0x293) || o == 0x295 || o == 0x296
    || (decide (0x180 ≤ o ∧ o ≤ 0x183) && x.md % 4 == 1)
    || (decide (0x1C0 ≤ o ∧ o ≤ 0x1EF) && x.md % 2 == 1)

/-- The instruction of a slot whose fields fit its form. -/
def NSlot.build (x : NSlot) (r : Reader) (g : Guard) (sc : Scope) : Except DecodeError Instr :=
  let o := x.opc
  let sty := need .typeCode (STy.ofCode x.ty)
  let ety := need .typeCode (ETy.ofCode x.ty)
  let k := match STy.ofCode x.ty with
    | some t => t.immKind
    | none => .no
  let w := match STy.ofCode x.ty with
    | some t => t.width == 64
    | none => false
  let D := r.dst w x.d
  let D1 := r.dst false x.d
  let A := r.src k w x.a
  let B := r.src k w x.b
  let B1 := r.src k false x.b
  let C := r.src k w x.c
  let C1 := r.src k false x.c
  let rm := need .modifier (Rounding.ofCode (x.md % 8))
  let ord := need .modifier (MemOrder.ofCode (x.md % 4))
  match o with
  | 0x000 => .ok (.nop g false)
  | 0x001 => .ok (.bra g (x.target r))
  | 0x002 => do return .brx g (← sty) (← r.sOnly x.a)
  | 0x003 => do return .call g (← r.sOnly x.d) (x.target r)
  | 0x004 => do return .callx g (← sty) (← r.sOnly x.d) (← r.sOnly x.a)
  | 0x005 => do return .ret g (← sty) (← r.sOnly x.a)
  | 0x006 => .ok (.exit g)
  | 0x007 => do
    if x.d = 0 then return .trap g x.code else return .trapHandler g x.code (← r.sOnly x.d) (x.target r)
  | 0x008 => .ok (.tret g)
  | 0x009 => .ok (.brk g x.code)
  | 0x00A => .ok (.yield g)
  | 0x00B => .ok (.reform g (if x.md = 1 then some (x.target r) else none))
  | 0x040 => do return .iadd g (← sty) (x.md == 1) (← D) (← A) (← B)
  | 0x041 => do return .isub g (← sty) (x.md == 1) (← D) (← A) (← B)
  | 0x042 => do return .imul g (← sty) (← D) (← A) (← B)
  | 0x043 => do return .imulhi g (← sty) (← D) (← A) (← B)
  | 0x044 => do return .imad g (← sty) (x.md == 1) (← D) (← A) (← B) (← C)
  | 0x045 => do return .idiv g (← sty) (← D) (← A) (← B)
  | 0x046 => do return .irem g (← sty) (← D) (← A) (← B)
  | 0x047 => do return .ineg g (← sty) (x.md == 1) (← D) (← A)
  | 0x048 => do return .iabs g (← sty) (x.md == 1) (← D) (← A)
  | 0x049 => do return .imin g (← sty) (← D) (← A) (← B)
  | 0x04A => do return .imax g (← sty) (← D) (← A) (← B)
  | 0x04B => do return .icmp g (← sty) (← need .modifier (Cond.ofCode x.md)) (← D1) (← A) (← B)
  | 0x04C => do
    return .lea g (← sty) (x.md % 8) (x.md / 8 == 1) (← D) (← A) (← if x.md / 8 = 1 then B1 else B)
  | 0x080 => do return .and g (← sty) (← D) (← A) (← B)
  | 0x081 => do return .andn g (← sty) (← D) (← A) (← B)
  | 0x082 => do return .or g (← sty) (← D) (← A) (← B)
  | 0x083 => do return .xor g (← sty) (← D) (← A) (← B)
  | 0x084 => do return .not g (← sty) (← D) (← A)
  | 0x085 => do return .shl g (← sty) (← D) (← A) (← B)
  | 0x086 => do return .shr g (← sty) (← D) (← A) (← B)
  | 0x087 => do return .bfi g (← sty) (← D) (← A) (← B) (← C1)
  | 0x088 => do return .bfx g (← sty) (← D) (← A) (← B1)
  | 0x089 => do return .brev g (← sty) (← D) (← A)
  | 0x08A => do return .clz g (← sty) (← D1) (← A)
  | 0x08B => do return .ctz g (← sty) (← D1) (← A)
  | 0x08C => do return .popc g (← sty) (← D1) (← A)
  | 0x08D => do return .sel g (← sty) (← D) (← A) (← B) (← C1)
  | 0x08E => do
    let uniform : Except DecodeError Operand := .ok (.k x.md)
    if x.d = 239 ∧ x.a = 239 then .error .operand
    else return .mov g (← sty) (← if x.d = 239 then uniform else D) (← if x.a = 239 then uniform else A)
  | 0x0C0 => do return .fadd g (← sty) (← rm) (← D) (← A) (← B)
  | 0x0C1 => do return .fsub g (← sty) (← rm) (← D) (← A) (← B)
  | 0x0C2 => do return .fmul g (← sty) (← rm) (← D) (← A) (← B)
  | 0x0C3 => do return .ffma g (← sty) (← rm) (← D) (← A) (← B) (← C)
  | 0x0C4 => do return .fdiv g (← sty) (← rm) (← D) (← A) (← B)
  | 0x0C5 => do return .fsqrt g (← sty) (← rm) (← D) (← A)
  | 0x0C6 => do return .frcp g (← sty) (← D) (← A)
  | 0x0C7 => do return .frsq g (← sty) (← D) (← A)
  | 0x0C8 => do return .fexp2 g (← sty) (← D) (← A)
  | 0x0C9 => do return .flog2 g (← sty) (← D) (← A)
  | 0x0CA => do return .ftanh g (← sty) (← D) (← A)
  | 0x0CB => do return .fmin g (← sty) (← D) (← A) (← B)
  | 0x0CC => do return .fmax g (← sty) (← D) (← A) (← B)
  | 0x0CD => do return .fcmp g (← sty) (← D1) (← A) (← B)
  | 0x0CE => do return .fsgn g (← sty) (x.md == 8) (← D) (← A) (← B)
  | 0x0CF => do return .fclass g (← sty) (← D1) (← A)
  | 0x130 => do return .bpenc g (← D1) (← r.src .no false x.a)
  | 0x131 => do return .bpdec g (← bpWidth .bpi x.md) (← D1) (← r.src .no false x.a)
  | 0x140 => do return .plop g x.md (← predCode x.d) (← predCode x.a) (← predCode x.b)
  | 0x141 => do
    if x.md = 1 then return .pmov g true (← predCode x.d) (← A)
    else return .pmov g false (← predCode x.a) (← D)
  | 0x142 => do return .ballot g (← D) (← A)
  | 0x143 => do return .vote g (← need .modifier (VoteMode.ofCode x.md)) (← D1) (← r.src .int false x.a)
  | 0x144 => do return .shfl g (← sty) (← need .modifier (ShflMode.ofCode x.md)) (← D) (← A) (← B1)
  | 0x145 => do return .gred g (← need .modifier (CollOp.ofCode x.md)) (← sty) (← D) (← A)
  | 0x146 => do
    return .gscan g (← need .modifier (CollOp.ofCode (x.md % 8))) (x.md / 8 == 1) (← sty) (← D) (← A)
  | 0x188 => do return .ldt g (← sty) (← D) (← below 64 x.c) (← r.src .int false x.a) (← r.src .int false x.b)
  | 0x189 => do
    return .stt g (← sty) (← below 64 x.c) (← r.src .int false x.a) (← r.src .int false x.b) (← r.src k w x.d)
  | 0x18A => do return .fence g (← need .modifier (FenceKind.ofCode x.md)) sc {}
  | 0x18B => do return .drain g sc (← x.consumed)
  | 0x18C => do return .lock g (← D1) (← r.pair x.a) (← r.sOrImm x.b)
  | 0x18D => do return .unlock g (← D1) (← r.pair x.a) (← r.sOrImm x.b)
  | 0x1F0 => do return .enq g sc (← r.sOnly x.a) (← x.elem r x.b)
  | 0x1F1 => do return .enqtry g sc (← D1) (← r.sOnly x.a) (← x.elem r x.b)
  | 0x1F2 => do return .deq g sc (← r.sOnly x.a) (← x.elem r x.d)
  | 0x1F3 => do return .deqtry g sc (← predCode x.c) (← r.sOnly x.a) (← x.elem r x.d)
  | 0x1F4 => do return .qinit g sc (← r.sOnly x.a) (← r.sOnly x.b) (← r.sOnly x.c)
  | 0x1F5 => do return .qstat g sc (← r.pair x.d) (← r.sOnly x.a)
  | 0x200 => do return .bararm g x.md (← A) (← B) (← C)
  | 0x201 => do return .bararr g x.md (← smallImm x.b) (← A)
  | 0x202 => do return .barwait g x.md (← smallImm x.b)
  | 0x203 => .ok (.barrot g x.md)
  | 0x204 => .ok (.barsync g)
  | 0x205 => do if x.md = 1 then return .pollbk g sc (← r.pair x.d) (← x.mem r 0) else .error .modifier
  | 0x240 => do
    return .tdecl g (← ety) x.swz (← below 64 x.d) (← r.sOnly x.a) (← below 32 x.b) (← below 8 x.c)
  | 0x241 => do return .tfree g (← below 64 x.d)
  | 0x242 => do
    if x.md < 2 then return .tstateRead g (x.md == 1) (← r.pair x.d) (← below 64 x.b)
    else if x.md = 2 then return .tstateReady g (← below 64 x.b)
    else .error .modifier
  | 0x243 => do return .tload g (← producedToken x.d) (← x.consumed) none
  | 0x244 => do return .tstore g (x.md == 1) (← producedToken x.d) (← x.consumed) none
  | 0x245 => do return .copy g (← producedToken x.d) (← x.consumed) none
  | 0x246 => do return .reduce g (← producedToken x.d) (← x.consumed) none
  | 0x247 => do
    return .rowop g (← need .modifier (RowKind.ofCode x.md)) (← producedToken x.d) (← x.consumed) none
  | 0x248 => do
    return .flush g sc (← producedToken x.d) { c0 := ← tokenCode x.c } (← r.sOnly x.a) (← r.sOrImm x.b)
  | 0x249 => do
    return .inval g sc (← producedToken x.d) { c0 := ← tokenCode x.c } (← r.sOnly x.a) (← r.sOrImm x.b)
  | 0x24A => do
    return .trig g (← need .modifier (TreadleAction.ofCode x.md)) (← producedToken x.d)
      (← if x.md = 3 then some <$> r.sOrImm x.a else .ok none)
  | 0x24B => do
    let set ← need .modifier (match x.md / 8 with
      | 0 => some StageSet.sh
      | 2 => some .te
      | 3 => some .re
      | 4 => some .ro
      | _ => none)
    return .stgw g set (x.md % 8) (← r.sOrImm x.a)
  | 0x290 => do
    let f ← ety
    return .latch g f (← bpWidth f x.md) (← r.sOrImm x.a) (← r.sOrImm x.b) x.d (← below 64 x.c)
  | 0x291 => do
    let f ← ety
    if 128 ≤ x.a ∨ 128 ≤ x.c then .error .operand
    else
      return .gatherTile g f (← bpWidth f x.md) (← producedToken x.d) (x.c / 64) (x.c % 64) (← r.src .no false x.a)
        (← r.sOrImm x.b)
  | 0x292 => do
    let f ← ety
    if 128 ≤ x.a ∨ x.c % 64 ≠ 0 ∨ 128 ≤ x.c then .error .operand
    else return .gatherSpad g f (← bpWidth f x.md) (← producedToken x.d) (x.c / 64) x.swz (← r.src .no false x.a)
  | 0x293 => do
    return .accscale g x.d x.md (← below 64 x.b) (← below 64 x.c) (x.swz + 1) (← r.sOnly x.a)
  | 0x294 => do return .accrd g (← ety) (x.md / 8 == 1) (← rm) (← below 64 x.d) x.a
  | 0x295 => do return .accwr g (← ety) x.d (← below 64 x.a)
  | 0x296 => do return .accclr g (x.md % 2 == 1) x.d (x.md / 2 + 1)
  | 0x2C0 => do return .sysrd g (← r.sOnly x.d) (← r.sOnly x.a)
  | 0x2C1 => do return .syswr g (← r.sOnly x.a) (← r.sOrImm x.b)
  | 0x2C2 => do return .clock g (← r.sOnly x.d)
  | 0x2C3 => .ok (.satarm g)
  | 0x2C4 => do return .satclr g (← r.sOrImm x.a)
  | 0x2C5 => do return .satrd g (← r.sOnly x.d)
  | _ =>
    if 0x180 ≤ o ∧ o ≤ 0x183 then
      if 32 ≤ x.c then .error .operand else return .ld g (← sty) (← ord) sc (← D) (← x.mem r (o - 0x180))
    else if 0x184 ≤ o ∧ o ≤ 0x187 then
      if 32 ≤ x.c then .error .operand
      else return .st g (← sty) (← ord) sc (← x.mem r (o - 0x184)) (← r.src k w x.d) {}
    else if 0x1C0 ≤ o ∧ o ≤ 0x1E7 then
      return .atom g (← need .opcode (AtomOp.ofCode ((o - 0x1C0) / 4))) (← sty) (← ord) sc (4 ≤ x.md) (← x.old r w)
        (← x.mem r (o % 4)) (← C) {}
    else if 0x1E8 ≤ o ∧ o ≤ 0x1EB then
      return .atombadd g (← sty) (← ord) sc (x.md / 4 % 2 == 1) (← x.old r w) (x.md / 8) (← x.mem r (o % 4)) (← C)
        (← r.succ w x.c) {}
    else if 0x1EC ≤ o ∧ o ≤ 0x1EF then
      return .atomcas g (← sty) (← ord) sc (← D) (← x.mem r (o % 4)) (← C) (← r.succ w x.c) {}
    else if 0x107 ≤ o ∧ o ≤ 0x10D then do
      let f ← need .opcode (ETy.ofCode (o % 16))
      return .fcvt g (← ety) f (← rm) (← D1) (← r.src f.immKind false x.a)
    else if 0x117 ≤ o ∧ o ≤ 0x11D then do
      let f ← need .opcode (ETy.ofCode (o % 16))
      return .fcvti g (← sty) f (← rm) (← D) (← r.src f.immKind false x.a)
    else if 0x120 ≤ o ∧ o ≤ 0x127 then do
      let t ← need .opcode (STy.ofCode (o % 16))
      return .icvtf g (← ety) t (← rm) (← D1) (← r.src .int (t.width == 64) x.a)
    else if 0x280 ≤ o ∧ o ≤ 0x28E then do
      let fa ← ety
      let fb ← need .opcode (ETy.ofCode (o % 16))
      return .mma g fa fb (← bpWidth fa (x.md % 8)) (← bpWidth fb (x.md / 8)) (x.swz == 1) x.d x.a x.b
    else .error .opcode

/-- Whether the limits of an entry are checked on the virtual twin of the slot. The fields of an ENG slot, which takes
its operands from a staging set (11 R241), and of STGW, which has no virtual form (21 R455), are checked where they are
read. -/
def NSlot.checks (x : NSlot) : Bool := !(decide (0x243 ≤ x.opc ∧ x.opc ≤ 0x247)) && x.opc != 0x24B

/-- The instruction that a slot of a class holds (15 R325 to R328), or why it holds none. -/
def NSlot.instr (x : NSlot) (k : SlotClass) (sc : Scope) (regs : Nat) : Except DecodeError Instr :=
  match x.form with
  | none => .error .opcode
  | some f =>
    if !classHolds k x.opc then .error .opcode
    else if x.noLookahead k && x.la != 0 then .error .modifier
    else do
      x.fits f
      let g ← x.guard
      let scl := k == .scl || k == .eng || k == .mma || k == .acc
      let i ← x.build { virt := false, scl, regs } g sc
      let v ← x.build { virt := true, scl, regs } g sc
      if x.checks && !v.wf then .error (if v.matrixIndexBad then .matrixIndex else .operand) else .ok i

/-- A bundle (15 Table 15.8): its header, and its slots in position order. -/
structure Bundle where
  commit : Bool
  cpidx : Nat
  poll : Bool
  scope : Scope
  slots : List (SlotClass × NSlot × Instr)
  deriving DecidableEq, Repr

/-- Decodes the slots of a bundle, at byte offset 8 up. -/
def decodeSlots (bs : List Byte) (sc : Scope) (regs : Nat) :
    List SlotClass → Except BundleError (List (SlotClass × NSlot × Instr))
  | [] => .ok []
  | k :: ks =>
    let x := NSlot.parse (leNat (bs.take 8))
    match x.instr k sc regs with
    | .error e => .error (.encoding e)
    | .ok i =>
      match decodeSlots (bs.drop 8) sc regs ks with
      | .error e => .error e
      | .ok l => .ok ((k, x, i) :: l)

/-- A bundle of 64 bytes (15 R323 to R328; 05 R131). -/
def decodeBundle (bs : List Byte) (regs : Nat) : Except BundleError Bundle :=
  let h := leNat (bs.take 8)
  let scp := bitsOf h 57 1
  let code := bitsOf h 54 3
  if bs.length < 64 ∨ bitsOf h 0 36 ≠ 0 ∨ (scp = 0 ∧ code ≠ 0) then .error .header
  else
    match templateClasses (bitsOf h 58 6), (if scp = 0 then some Scope.core else Scope.ofCode code) with
    | some ks, some sc =>
      match decodeSlots (bs.drop 8) sc regs ks with
      | .error e => .error e
      | .ok slots =>
        .ok { commit := bitsOf h 53 1 == 1, cpidx := bitsOf h 37 16, poll := bitsOf h 36 1 == 1, scope := sc, slots }
    | _, _ => .error .header

end Sys2Proof
end

