-- ==== Sys2Proof/Machine/Matrix.lean ====
section
/-! DEFINITION. The matrix unit: ownership, latches, partial tiles and accumulators, and the part of a
region commit that hands GATHERs and ACCRDs over (08 R204, R205; 10 R223 to R239; 17 R343 to R347; 19
R401 to R403, R413; 20 R422 to R424). -/

namespace Sys2Proof.Machine

/-- Clears what a core's matrix unit keeps between contexts (02 R26). -/
def State.clearMatrix (s : State) (core : Nat) : State :=
  { s with
    latches := Cells.clear s.latches (latchKey core 0 0 0) (latchKey core 10 0 0)
    latchTags := Cells.clear s.latchTags (core * 10) (core * 10 + 10)
    pt := Cells.clear s.pt (accKey core 0 0) (accKey core 128 0)
    latchOld := s.latchOld.filter fun e => e.2.1 / 10 != core
    ptOld := s.ptOld.filter fun e => e.2.1 / 128 != core }

/-- A matrix slot issues: the path takes the matrix unit, or waits while another owns it (08 R204) or matrix
issue is withheld (01 R19);
what another context left is cleared (02 R26). -/
def State.enterMatrix (s : State) (c : Ctx) (k : State → State) : State :=
  let core := c.b.core
  let r := s.coreRegs core
  let me := c.cur.grp
  let x := ctxKey c.l.vi c.l.ctx
  if s.withheld.contains core then s.waitOn c .matrix
  else if r.owner = none ∨ r.owner = some me then
    let fresh := r.lastCtx != some x
    let s := if fresh then s.clearMatrix core else s
    let masks := if fresh then [0, 0] else r.rowMask
    let s := s.setCoreRegs core { r with owner := some me, lastCtx := some x, rowMask := masks }
    k (s.updCur c fun p => if p.run = 0 then { p with run := 1 } else p)
  else s.waitOn c .matrix

/-- An instruction of the matrix unit: it takes the unit, then acts once when a lane executes. -/
def State.matrix (s : State) (c : Ctx) (k : State → State) : State :=
  s.enterMatrix c fun t => if c.exec.isEmpty then t.finish c else k t

/-- A matrix instruction whose source tile must be READY: the first of a region waits, a later one
faults (10 R233). -/
def State.withTile (s : State) (c : Ctx) (n : Nat) (k : State → State) : State :=
  if c.exec.isEmpty ∨ (s.tile c.g.block n).state = tileReady then s.matrix c k
  else if !c.afterMatrix then s.waitOn c (.tile n)
  else s.raiseAll c { code := .tileBusy, detail := n }

/-- The elements that a fill of a format gives each line of a latch (19 R401). -/
def fillDepth (f : ETy) (p : Nat) : Nat :=
  match f with
  | .bf16 | .f16 => 32
  | .e2m1 => 128
  | .bpi => 32 * (16 / p)
  | _ => 64

/-- The class of contents of a latch: packed codes, or bit planes. -/
def latchClass (f : ETy) : BitVec 8 := if f = .bpi then 2 else 1

/-- The tag of a latch's contents; 0 is cleared, which reads as zeros in every format. -/
def State.latchTag (s : State) (core n : Nat) : BitVec 8 := Cells.get s.latchTags (core * 10 + n)

/-- Gives a latch a class of contents. Where it held another class, what its bits mean in the new one
is left open and free (log entry 1). -/
def State.retag (s : State) (core n : Nat) (cls : BitVec 8) : State :=
  let old := s.latchTag core n
  let t := { s with latchTags := Cells.set s.latchTags (core * 10 + n) cls }
  if old = 0 ∨ old = cls then t
  else
    let planes := if cls = 2 then span 0 8 else [15]
    let keys := (span 0 32).flatMap fun line => planes.map fun p => latchKey core n line p
    keys.foldl (fun (u : State) (k : Nat) =>
      { u with latches := Cells.set u.latches k (BitVec.ofNat 512 (Config.free u.free))
               free := u.free + 1 }) t

/-- Bits `[lo, lo + n)` of a number replaced. -/
def putBits (w lo n x : Nat) : Nat := w - bitsOf w lo n * 2 ^ lo + x % 2 ^ n * 2 ^ lo

/-- Fills one line of a latch with codes: packed, or the first `p` planes of BPI (09 R213). -/
def State.fillLine (s : State) (core n line : Nat) (f : ETy) (p : Nat) (codes : List Nat) : State :=
  let put (s : State) (plane bits : Nat) (vals : List Nat) : State :=
    let k := latchKey core n line plane
    let w := (Cells.get s.latches k).toNat
    let new := (vals.zip (span 0 vals.length)).foldl
      (fun (w : Nat) (e : Nat × Nat) => putBits w (e.2 * bits) bits e.1) w
    { s with latches := Cells.set s.latches k (BitVec.ofNat 512 new) }
  match f with
  | .bpi => (span 0 p).foldl (fun s j => put s j 1 (codes.map fun x => bitsOf x (7 - j) 1)) s
  | _ => put s 15 (elementBits f) codes

/-- Before a native LATCH: what MMAs of the next 4 cycles still read (10 R234). -/
def State.noteLatch (s : State) (c : Ctx) (n : Nat) : State :=
  if c.native then
    let core := c.b.core
    { s with latchOld := s.latchOld ++ [(s.cycle + 4, core * 10 + n, (s.latchTag core n).toNat,
        Cells.slice s.latches (latchKey core n 0 0) (latchKey core (n + 1) 0 0))] }
  else s

/-- Before a native write to an accumulator or partial tile: what reads within 12 cycles still see. -/
def State.noteAcc (s : State) (c : Ctx) (tile : Nat) : State :=
  let core := c.b.core
  if c.native then
    { s with accOld := s.accOld ++ [(s.cycle + 12, core * 128 + tile,
        Cells.slice s.acc (accKey core tile 0) (accKey core (tile + 1) 0))] }
  else s

def State.notePt (s : State) (c : Ctx) (tile : Nat) : State :=
  let core := c.b.core
  if c.native then
    { s with ptOld := s.ptOld ++ [(s.cycle + 12, core * 128 + tile,
        Cells.slice s.pt (accKey core tile 0) (accKey core (tile + 1) 0))] }
  else s

def tileShapeFault (n : Nat) : Flt := { code := .tileShape, detail := n }

/-- LATCH (10 R224; 19 R413). -/
def execLatch (g : Guard) (f : ETy) (q : Nat) (row col : Operand) (lat tile : Nat) (s : State) :
    Host.Outcome State Fault Refusal :=
  s.issue g fun c =>
    let t := s.tile c.g.block tile
    let r := s.u32 c c.lead row
    let k := s.u32 c c.lead col
    let depth := fillDepth f q
    s.withTile c tile fun u =>
      if !t.cfg || t.fmt != f.code || k % 32 != 0 || decide (t.rows < r + 32)
          || decide (t.cols < k + depth) then u.raiseAll c (tileShapeFault tile)
      else
        let u := (u.noteLatch c lat).retag c.b.core lat (latchClass f)
        ((span 0 32).foldl (fun u j =>
          u.fillLine c.b.core lat j f q
            ((span 0 depth).map fun e => s.tileElem c.b t (r + j) (k + e))) u).finish c

/-- The rows of a GATHER: lanes 0 to 15 that execute (19 R402). -/
def gatherRows (c : Ctx) : List Nat := c.exec.filter fun l => l < 16

/-- Fills a gather latch and its row mask, and keeps the token for the region's commit (10 R225). -/
def State.gatherFill (s : State) (c : Ctx) (i : Instr) (f : ETy) (p gl : Nat)
    (row : Nat → List Nat) : State :=
  let core := c.b.core
  let s := s.retag core (8 + gl) (latchClass f)
  let s := (gatherRows c).foldl (fun u r => u.fillLine core (8 + gl) r f p (row r)) s
  let r := s.coreRegs core
  let m : BitVec 16 := (maskOf (gatherRows c)).setWidth 16
  let s := s.setCoreRegs core
    { r with rowMask := setAt r.rowMask gl m, filling := updAt (fun l => l ++ [s.cycle + 4]) r.filling gl }
  (s.updCur c fun p =>
    { p with held := p.held ++ [{ instr := i, lanes := maskOf c.exec, vpc := s.vpc c }] }).finish c

/-- GATHER, tile form (19 R402, R403). -/
def execGatherTile (g : Guard) (f : ETy) (p tk gl tile : Nat) (idx col : Operand) (s : State) :
    Host.Outcome State Fault Refusal :=
  s.issue g fun c =>
    let t := s.tile c.g.block tile
    let k := s.u32 c c.lead col
    let depth := fillDepth f p
    s.afterPending c tk fun s => s.withTile c tile fun u =>
      if !t.cfg || t.fmt != f.code || k % 32 != 0 || decide (t.cols < k + depth)
          || (gatherRows c).any fun l => decide (t.rows ≤ s.u32 c l idx) then
        u.raiseAll c (tileShapeFault tile)
      else
        u.gatherFill c (.gatherTile g f p tk gl tile idx col) f p gl fun l =>
          (span 0 depth).map fun e => s.tileElem c.b t (s.u32 c l idx) (k + e)

/-- The codes of `n` elements stored from a scratchpad offset (19 R402): BPI rows give the bytes of
their elements, each collected from the planes. -/
def State.spadCodes (s : State) (c : Ctx) (sw a n : Nat) (f : ETy) : List Nat :=
  let byte (i : Nat) : Byte := s.chipByte (spadChip c.b.core (c.b.spadBase + swizzle sw (a + i)))
  let t : Tile := { state := 0, cfg := true, bar := 0, slot := 0, sw := 0, fmt := f.code, pitch := 0
                    rows := 1, cols := n, base := 0 }
  (span 0 n).map fun e => t.gather e ((t.elementBytes 0 e).map fun x => byte x.1)

/-- GATHER, scratchpad form (19 R402, R403). -/
def execGatherSpad (g : Guard) (f : ETy) (p tk gl sw : Nat) (off : Operand) (s : State) :
    Host.Outcome State Fault Refusal :=
  s.issue g fun c =>
    let depth := fillDepth f p
    let size := (s.stageOf c.b c.l).spadSize
    let rowFault (l : Nat) : Option Flt :=
      let o := s.u32 c l off
      if o % 16 ≠ 0 then some { code := .align, detail := 16, addr := o }
      else if size < o + depth * elementBits f / 8 then some (permFault 3 o)
      else none
    s.afterPending c tk fun s => s.matrix c fun u =>
      match laneFaults (gatherRows c) rowFault with
      | [] =>
        u.gatherFill c (.gatherSpad g f p tk gl sw off) f p gl fun l =>
          s.spadCodes c sw (s.u32 c l off) depth f
      | fs => u.raiseLanes c fs

/-- What a latch's bits are to an MMA at this cycle: the tag and the words, by key from the latch's
first (10 R234). -/
def State.latchSeen (s : State) (core n : Nat) : BitVec 8 × Cells 512 :=
  match s.latchOld.find? fun e => e.2.1 == core * 10 + n && decide (s.cycle < e.1) with
  | some e => (BitVec.ofNat 8 e.2.2.1, e.2.2.2)
  | none => (s.latchTag core n, Cells.slice s.latches (latchKey core n 0 0) (latchKey core (n + 1) 0 0))

/-- The code of element `k` of a line in a format: from packed codes, or from the first `p` planes as
bits [p - 1 : 0]. Contents of another class give free codes (20 R424). -/
def latchCode (seen : BitVec 8 × Cells 512) (free : Nat) (f : ETy) (p line k : Nat) : Nat :=
  if seen.1 ≠ 0 ∧ seen.1 ≠ latchClass f then Config.free (free + line * 512 + k)
  else
    match f with
    | .bpi =>
      (span 0 p).foldl (fun acc j =>
        2 * acc + bitsOf (Cells.get seen.2 (line * 16 + j)).toNat k 1) 0
    | _ => bitsOf (Cells.get seen.2 (line * 16 + 15)).toNat (k * elementBits f) (elementBits f)

/-- The blocks of an MMA (20 Table 20.2). -/
def mmaBlocks (fa : ETy) (p q : Nat) : Nat :=
  match fa with
  | .bpi => 16 / max p q
  | .e2m1 => 4
  | .bf16 | .f16 => 1
  | _ => 2

/-- An FP32 sum of two values, rounded once, and whether it is invalid. -/
def addRne (x y : FVal) : FVal × Bool :=
  let r := FVal.add .rne x y
  (fmtF32.value (rne32 r.1), r.2)

/-- One level of the block tree (10 R227). -/
def treeLevel : List (FVal × Bool) → List (FVal × Bool)
  | x :: y :: zs =>
    let r := addRne x.1 y.1
    (r.1, r.2 || x.2 || y.2) :: treeLevel zs
  | zs => zs

/-- The sum of a block's products by the fixed tree, and whether an operation was invalid. -/
def blockTree (ps : List (FVal × Bool)) : FVal × Bool :=
  ((span 0 5).foldl (fun l _ => treeLevel l) ps).headD (.nan, false)

/-- The 32-bit accumulator element after one block, and whether it set SAT or INVALID. -/
structure AccRes where
  val : Nat
  sat : Bool
  inv : Bool
  deriving DecidableEq, Repr

/-- Adds a float block sum (10 R227). -/
def accFloat (old : Nat) (v : FVal × Bool) : AccRes :=
  let r := FVal.add .rne (fmtF32.value old) v.1
  { val := rne32 r.1, sat := false, inv := r.2 || v.2 }

/-- Adds an integer block sum, wrapping or clamped (10 R228). -/
def accInt (sat : Bool) (old : Nat) (v : Int) : AccRes :=
  let r := intRes sat .i32 (signedOf 32 old + v)
  { val := r.val, sat := r.sat, inv := false }

/-- Whether a pair of formats accumulates as INT32 (10 Table 10.1). -/
def intPair (fa : ETy) : Bool := fa == .i8 || fa == .bpi

/-- A latch code as the integer it stands for. -/
def latchInt (f : ETy) (p code : Nat) : Int :=
  match f with
  | .bpi => signedOf p code
  | _ => signedOf 8 code

/-- One output element of an MMA over its blocks, from the old accumulator value: the values after each
block. `x` and `y` give the codes of the two latches. -/
def mmaElement (fa fb : ETy) (p q b : Nat) (flag : Bool) (old : Nat) (x y : Nat → Nat) : List AccRes :=
  let step (acc : Nat) (blk : Nat) : AccRes :=
    let ks := span (32 * blk) 32
    if intPair fa then
      accInt flag acc ((ks.map fun k => latchInt fa p (x k) * latchInt fb q (y k)).foldl (· + ·) 0)
    else
      let v := blockTree (ks.map fun k => (elementValue fa (x k)).mul (elementValue fb (y k)))
      if flag then { val := rne32 v.1, sat := false, inv := v.2 } else accFloat acc v
  ((span 0 b).foldl (fun (st : Nat × List AccRes) blk =>
    let r := step st.1 blk
    (r.val, st.2 ++ [r])) (old, [])).2

/-- Sets elements of an accumulator or partial tile. -/
def putTile (m : Cells 32) (base : Nat) (vs : List (Nat × Nat)) : Cells 32 :=
  vs.foldl (fun (m : Cells 32) (e : Nat × Nat) => Cells.set m (base + e.1) (BitVec.ofNat 32 e.2)) m

/-- MMA (20 R423). -/
def execMma (g : Guard) (fa fb : ETy) (p q : Nat) (flag : Bool) (acc gl sl : Nat) (s : State) :
    Host.Outcome State Fault Refusal :=
  s.issue g fun c =>
    let core := c.b.core
    s.enterMatrix c fun u =>
      let r := u.coreRegs core
      if c.exec.isEmpty then u.finish c
      else if (r.filling.getD gl []) ≠ [] then u.waitOn c (.latch gl)
      else
        let b := mmaBlocks fa p q
        let rows := (span 0 16).filter fun i => (r.rowMask.getD gl 0).getLsbD i
        let ga := u.latchSeen core (8 + gl)
        let lb := u.latchSeen core sl
        let unscaled := flag && !intPair fa
        let tile := c.b.accBase + acc
        let els := rows.flatMap fun i => (span 0 32).map fun j =>
          (i * 32 + j, mmaElement fa fb p q b flag (Cells.get u.acc (accKey core tile (i * 32 + j))).toNat
            (latchCode ga u.free fa p i) (latchCode lb (u.free + 16384) fb q j))
        let all := els.flatMap fun e => e.2
        let u := { u.flag c (all.any fun r => r.sat) (all.any fun r => r.inv) with free := u.free + 32768 }
        if unscaled then
          ((span 0 b).foldl (fun (u : State) blk =>
            let vs := els.map fun e => (e.1, ((e.2[blk]?).map fun r => r.val).getD 0)
            let u := u.notePt c (acc + blk)
            { u with pt := putTile u.pt (accKey core (acc + blk) 0) vs }) u).finish c
        else
          let vs := els.map fun e => (e.1, ((e.2.getLast?).map fun r => r.val).getD 0)
          let u := u.noteAcc c tile
          { u with acc := putTile u.acc (accKey core tile 0) vs }.finish c

/-- One element of ACCSCALE over its blocks (17 R346): the accumulator value and INVALID. -/
def scaleElement (old : Nat) (terms : List (Nat × Nat × Nat)) : Nat × Bool :=
  terms.foldl (fun st e =>
    let t : FVal :=
      if e.2.1 = 255 ∨ e.2.2 = 255 then .nan
      else
        match fmtF32.value e.1 with
        | .fin n m x => fmtF32.value (rne32 (.fin n m (x + (e.2.1 : Int) + e.2.2 - 254)))
        | v => v
    let r := FVal.add .rne (fmtF32.value st.1) t
    (rne32 r.1, st.2 || r.2)) (old, false)

/-- ACCSCALE (17 R346). -/
def execAccscale (g : Guard) (acc pt ta ts n : Nat) (origin : Operand) (s : State) :
    Host.Outcome State Fault Refusal :=
  s.issue g fun c =>
    let core := c.b.core
    let a := s.tile c.g.block ta
    let b := s.tile c.g.block ts
    let o := s.u32 c c.lead origin
    let bad (t : Tile) (rows : Nat) : Bool :=
      t.fmt != ETy.code .e8m0 || decide (t.rows < rows) || decide (t.cols < o + n)
    s.matrix c fun u =>
      if a.state ≠ tileReady then u.raiseAll c { code := .tileBusy, detail := ta }
      else if b.state ≠ tileReady then u.raiseAll c { code := .tileBusy, detail := ts }
      else if bad a 16 then u.raiseAll c (tileShapeFault ta)
      else if bad b 32 then u.raiseAll c (tileShapeFault ts)
      else
        let tile := c.b.accBase + acc
        let els : List (Nat × Nat × Bool) := (span 0 512).map fun e =>
          (e, scaleElement (Cells.get u.acc (accKey core tile e)).toNat ((span 0 n).map fun k =>
            ((u.ptSeen core (pt + k) e).toNat, s.tileElem c.b a (e / 32) (o + k),
              s.tileElem c.b b (e % 32) (o + k))))
        let vs : List (Nat × Nat) := els.map fun e => (e.1, e.2.1)
        let u := (u.flag c false (els.any fun e => e.2.2)).noteAcc c tile
        { u with acc := putTile u.acc (accKey core tile 0) vs }.finish c

/-- ACCWR (17 R347). -/
def execAccwr (g : Guard) (f : ETy) (acc tile : Nat) (s : State) :
    Host.Outcome State Fault Refusal :=
  s.issue g fun c =>
    let core := c.b.core
    let t := s.tile c.g.block tile
    s.matrix c fun u =>
      if t.state ≠ tileReady then u.raiseAll c { code := .tileBusy, detail := tile }
      else if t.rows ≠ 16 ∨ t.cols ≠ 32 ∨ t.fmt ≠ f.code then u.raiseAll c (tileShapeFault tile)
      else
        let wide := f == .f16 || f == .bf16
        let els := (span 0 512).map fun e =>
          let x := s.tileElem c.b t (e / 32) (e % 32)
          (e, if wide then rne32 (elementValue f x) else x)
        let u := u.noteAcc c (c.b.accBase + acc)
        { u with acc := putTile u.acc (accKey core (c.b.accBase + acc) 0) els }.finish c

/-- ACCCLR (17 R343). -/
def execAccclr (g : Guard) (pt : Bool) (n k : Nat) (s : State) : Host.Outcome State Fault Refusal :=
  s.issue g fun c =>
    let core := c.b.core
    s.matrix c fun u =>
      if pt then
        let u := (span n k).foldl (fun u i => u.notePt c i) u
        { u with pt := Cells.clear u.pt (accKey core n 0) (accKey core (n + k) 0) }.finish c
      else
        let a := c.b.accBase + n
        let u := (span a k).foldl (fun u i => u.noteAcc c i) u
        { u with acc := Cells.clear u.acc (accKey core a 0) (accKey core (a + k) 0) }.finish c

/-- What keeps a tile from taking an ACCRD (17 R345). -/
def Tile.accrdFault (t : Tile) (n : Nat) (f : ETy) : Option Flt :=
  if t.state = tileFilling ∨ t.state = tileDraining then some { code := .tileBusy, detail := n }
  else if !t.cfg || t.rows != 16 || t.cols != 32 || t.fmt != f.code then some (tileShapeFault n)
  else none

/-- The checks of ACCRD at issue (17 R345). -/
def execAccrd (g : Guard) (f : ETy) (i32 : Bool) (rm : Rounding) (tile acc : Nat) (s : State) :
    Host.Outcome State Fault Refusal :=
  s.issue g fun c =>
    let t := s.tile c.g.block tile
    s.matrix c fun u =>
      match t.accrdFault tile f with
      | some x => u.raiseAll c x
      | none =>
        (u.updCur c fun p =>
          { p with held := p.held ++
              [{ instr := .accrd g f i32 rm tile acc, lanes := maskOf c.exec, vpc := u.vpc c }] }).finish c

/-- The conversions of an ACCRD in row-major order: with RS, each takes a Step of the stream of the lead
lane's thread (10 R231). Answers the results and the stream after them. -/
def accConvert (f : ETy) (i32 : Bool) (rm : Rounding) : List Nat → BitVec 32 → List Conv × BitVec 32
  | [], rs => ([], rs)
  | x :: xs, rs =>
    let rs := if rm = .rs then lfsrStep rs else rs
    let v : FVal := if i32 then intValue (signedOf 32 x) else fmtF32.value x
    let r := accConvert f i32 rm xs rs
    (convertTo f rm rs.toNat v :: r.1, r.2)

/-- The fault of an ACCRD at its region's commit, if it has one: the tile is judged again, as other groups may have
changed it (10 R231; 17 R345). -/
def State.accrdFault (s : State) (c : Ctx) (f : ETy) (tile : Nat) : Option Flt :=
  let t := s.tile c.g.block tile
  (t.accrdFault tile f).or <|
    match s.tileLink c.b c.l t with
    | .error f => some f
    | .ok _ => none

/-- One ACCRD at its region's commit (17 R345): its fault freezes the block, naming the ACCRD. -/
def State.commitAccrd (s : State) (c : Ctx) (h : Held) (f : ETy) (i32 : Bool) (rm : Rounding)
    (tile acc : Nat) : State :=
  let bk := c.g.block
  let t := s.tile bk tile
  match s.accrdFault c f tile, s.tileLink c.b c.l t with
  | some x, _ | none, .error x => s.freeze bk c.g.gid h.vpc false { x with lanes := h.lanes }
  | none, .ok (n, slot) =>
    let tk := c.g.thread ((lanesOf h.lanes).headD 0)
    let codes := (span 0 512).map fun e =>
      (Cells.get s.acc (accKey c.b.core (c.b.accBase + acc) e)).toNat
    let r := accConvert f i32 rm codes (s.thread tk).rs
    let u := s.setThread tk { s.thread tk with rs := r.2 }
    let u := u.flag c (r.1.any fun x => x.sat) (r.1.any fun x => x.inv)
    let u := u.setTileState bk tile tileFilling
    let u := { u with fills := AMap.put u.fills (bk * 64 + tile) (n, slot) }
    let u := (r.1.zip (span 0 512)).foldl
      (fun u e => u.setTileElem c.b t (e.2 / 32) (e.2 % 32) e.1.code) u
    match u.arriveBytes bk c.b c.l n slot (512 * elementBits f / 8) with
    | some v => v
    | none => u.freeze bk c.g.gid h.vpc true { slotFault n slot with lanes := h.lanes }

/-- Hands over what a region kept: GATHERs finish their tokens, ACCRDs convert, SATARM arms the block (10 R225, R231; 21
R446). A block that a fault froze goes no further. -/
def State.commitHeld (s : State) (c : Ctx) : List Held → State
  | [] => s
  | h :: hs =>
    let t := match h.instr with
      | .gatherTile _ _ _ tk _ _ _ _ => s.setDone c.cur.grp tk
      | .gatherSpad _ _ _ tk _ _ _ => s.setDone c.cur.grp tk
      | .accrd _ f i32 rm tile acc => s.commitAccrd c h f i32 rm tile acc
      | .satarm _ => s.updBlock c.g.block fun b => { b with armed := true }
      | _ => s
    if (t.blocks.any fun e => e.1 == c.g.block && e.2.fault.isSome) then t else t.commitHeld c hs

/-- What a matrix unit has still to replace is replaced, and time passes with it (10 R234). -/
def State.settleMatrix (s : State) (core : Nat) : State :=
  let far := ((s.accOld ++ s.ptOld).filterMap fun e => if e.2.1 / 128 = core then some e.1 else none)
    ++ s.latchOld.filterMap fun e => if e.2.1 / 10 = core then some e.1 else none
  { s with
    cycle := far.foldl max s.cycle
    accOld := s.accOld.filter fun e => e.2.1 / 128 != core
    ptOld := s.ptOld.filter fun e => e.2.1 / 128 != core
    latchOld := s.latchOld.filter fun e => e.2.1 / 10 != core }

/-- The paths of a core that wait for the matrix unit try again (08 R204). -/
def State.wakeMatrix (s : State) (core : Nat) : State :=
  (s.groups.filter fun e => (s.blocks.any fun b => b.1 == e.2.block && b.2.core == core)).foldl
    (fun (u : State) (e : Nat × Group) =>
      u.updGroup e.1 fun g =>
        { g with paths := g.paths.map fun p => if p.wait == .matrix then p.retry else p })
    s

/-- Whether a path must still wait for fills of its region's GATHERs (03 R62 step 1; 10 R225). -/
def State.fillsDue (s : State) (c : Ctx) : Bool :=
  let r := s.coreRegs c.b.core
  r.owner == some c.cur.grp && (s.path c).run != 0 && r.filling.any fun l => !l.isEmpty

/-- Steps 1 to 3 of 03 R62 for one path: time passes until its results are there, and those that `lands` accepts land;
what the region kept is handed over; its gated stores perform, its flags join the group's, and its alias entries and the
matrix unit go free. -/
def State.completeRegion (s : State) (c : Ctx) (lands : InFlight → Bool) : State :=
  let core := c.b.core
  let p := s.path c
  let mine := (s.coreRegs core).owner == some c.cur.grp && p.run != 0
  let t := { s with cycle := p.lastDue s.cycle }
  let t := if mine then t.settleMatrix core else t
  let t := t.landIf c.cur.grp c.cur.path lands
  let t := t.commitHeld c p.held
  if (t.blocks.any fun e => e.1 == c.g.block && e.2.st == .frozen) then t.waitOn c .fault
  else
    let t := t.closeRegion c.cur.grp c.cur.path
    let t := t.updCur c fun p => { p with wait := .none, conservative := true }
    if mine then t.wakeMatrix core else t

/-- The ordinal of the instruction at a byte offset of a Fleper section: the commit record of a Fleper path (log
entry 30). -/
def ordinalFrom (code : List Byte) (t : Nat) : Nat → Nat → Nat
  | 0, _ => 0
  | n + 1, pos => if t ≤ pos then 0 else ordinalFrom code t n (pos + 8 + 4 * bitsOf (field code pos 8) 40 2) + 1

def ordinal (code : List Byte) (t : Nat) : Nat := ordinalFrom code t (t / 8 + 1) 0

/-- Whether a static transfer of a Fleper section leads to a byte offset. -/
def branchesTo (code : List Byte) (t : Nat) : Nat → Nat → Bool
  | 0, _ => false
  | n + 1, pos =>
    match decode (code.drop pos) with
    | .error _ => false
    | .ok (i, len) =>
      (match Instr.disp i with
        | some d => decide ((pos : Int) + d = t)
        | none => false) || branchesTo code t n (pos + len)

/-- Whether an instruction may follow another in a matrix run (10 R238): matrix instructions, opcode groups 0x1 and
0x2, and MOV. -/
def Instr.inRun (i : Instr) (w : Nat) : Bool :=
  Instr.isMatrix i || (match i with
    | .mov .. => true
    | _ => decide (bitsOf w 60 4 = 1) || decide (bitsOf w 60 4 = 2))

/-- Whether the open region of a path ends at its program counter: a native one before a commit point (03 R62), a
matrix run of Fleper code where 10 R238 ends it. -/
def State.regionEnds (s : State) (b : Block) (l : Launch) (p : Path) : Bool :=
  let img := s.imageBytes l
  let code := codeSpace img b.stage
  if isNative img then p.snap.isSome && !p.begun && isCommitPoint code p.pc
  else
    p.run != 0 && match decode (code.drop p.pc) with
      | .error _ => true
      | .ok (i, _) => decide (33 ≤ p.run) || !Instr.inRun i (field code p.pc 8)
          || branchesTo code p.pc (code.length / 8 + 1) 0

/-- The contexts of the issuing path's group whose open regions end at its program counter, its own among them: they
complete before it issues, so that the paths join (02 R29, R33; 03 R61). -/
def State.endsHere (s : State) (c : Ctx) : List Ctx :=
  (span 0 c.g.paths.length).filterMap fun j =>
    match ({ s with cur := some { c.cur with path := j } }).ctx .always with
    | some d =>
      if d.p.pc = c.p.pc ∧ !d.p.wait.blocking ∧ d.p.wait ≠ .fault ∧ d.p.mask ≠ 0 ∧ s.regionEnds d.b d.l d.p then some d
      else none
    | none => none

/-- Region commit, steps 1 to 3 of 03 R62, of the paths whose regions end where the issuing one stands; it waits for
the fills of their GATHERs. Then paths may join (02 R29). -/
def State.commitRegion (s : State) (c : Ctx) : State :=
  let es := s.endsHere c
  if es.any s.fillsDue then s.waitOn c (.latch 0)
  else
    ((es.foldl (fun t d => t.completeRegion d fun _ => true) s).updGroup c.cur.grp Group.regroup).noteOverflow
      c.b.launch

/-- The end of an open region of the issuing path (03 R62). -/
def execRegionCommit (s : State) : Host.Outcome State Fault Refusal :=
  s.issue .always fun c => s.commitRegion c

end Sys2Proof.Machine
end

