-- ==== Sys2Proof/Machine/Sequencer.lean ====
section
/-! DEFINITION. The sequencers of the cores and what wakes a path: the choice of a group, rotation, draws from
bobbins, results that arrive, and accesses that perform late (02 R30, R36, R45; 03 R58; 04 R85, R108; 07
R166, R184; 08 R202 to R204; 10 R225; 13 R284; 14 R309). -/

namespace Sys2Proof.Machine

/-- Whether the image of a block's launch carries native code. -/
def State.nativeBlock (s : State) (b : Block) : Bool :=
  match AMap.find? s.launches b.launch with
  | some l => isNative (s.imageBytes l)
  | none => false

/-- Whether every path of a group stands at a blocking point (02 R45). -/
def Group.atBlocking (g : Group) (native : Bool) : Bool :=
  g.paths.all fun p => p.mask == 0 || p.wait.blocking || p.met || p.atPoll native

/-- The counter of 13 Table 13.1 that a path's wait names. A DRAIN that waits for earlier accesses counts as what it
waits for does, a remote access (log entry 60). -/
def Wait.reason : Wait → Nat
  | .matrix => 14
  | .backoff _ => 11
  | .latch _ => 9
  | .token _ | .stalled _ => 8
  | .queue _ false _ => 7
  | .queue _ true _ => 6
  | .bar _ _ | .sync => 5
  | .tile _ => 4
  | .remote _ | .window _ | .landing => 3
  | .none | .poll => 0
  | .page _ _ | .fault => 15

/-- Whether a path waits for a result past its lookahead (03 R58). -/
def Path.lookahead (p : Path) : Bool := !p.sealed && p.inflight.any fun e => e.due.isNone && e.left == 0

/-- Whether the next bundle of a path, or its next instruction, holds a matrix slot. -/
def State.nextIsMatrix (s : State) (b : Block) (l : Launch) (p : Path) : Bool :=
  let img := s.imageBytes l
  let code := (codeSpace img b.stage).drop p.pc
  if isNative img then
    match decodeBundle code (s.stageOf b l).regs with
    | .ok x => x.slots.any fun e => Instr.isMatrix e.2.2
    | .error _ => false
  else
    match decode code with
    | .ok (i, _) => Instr.isMatrix i
    | .error _ => false

/-- Whether a group may not use its core's matrix unit now (01 R19; 08 R204). -/
def State.unitTaken (s : State) (core gk : Nat) : Bool :=
  s.withheld.contains core || (match (s.coreRegs core).owner with
    | some o => o != gk
    | none => false)

/-- Whether a path's next bundle must wait for the matrix unit (08 R204); one that first completes a region need not. -/
def State.matrixWaits (s : State) (b : Block) (l : Launch) (g : Group) (p : Path) : Bool :=
  s.unitTaken b.core (g.block * 64 + g.gid) && !p.sealed && !s.regionEnds b l p && s.nextIsMatrix b l p

/-- The groups of a core, with their keys. -/
def State.coreGroups (s : State) (core : Nat) : AMap Group :=
  AMap.keep (fun _ g => match AMap.find? s.blocks g.block with
    | some b => b.core == core && b.onCore
    | none => false) s.groups

/-- The lane-stores that the open regions of a core's paths have reserved (03 R62). -/
def State.reservedOn (s : State) (core : Nat) : Nat :=
  ((s.coreGroups core).flatMap fun e => e.2.paths.map fun p => p.reserved).foldl (· + ·) 0

/-- Whether a native path stands at a commit point whose region cannot reserve its lane-stores (03 R62). -/
def State.storesWait (s : State) (b : Block) (l : Launch) (p : Path) : Bool :=
  let img := s.imageBytes l
  isNative img && !p.open &&
    (match decodeBundle ((codeSpace img b.stage).drop p.pc) (s.stageOf b l).regs with
    | .ok x =>
      let side := (sideTable img (s.stageOf b l).code).getD []
      x.commit && decide (8192 < s.reservedOn b.core + recordField side x.cpidx 18 2)
    | .error _ => false)

/-- The path that a group would issue now, when it is eligible (08 R202, R204). -/
def State.eligible (s : State) (g : Group) : Option Nat :=
  match AMap.find? s.blocks g.block with
  | none => none
  | some b =>
    match AMap.find? s.launches b.launch, g.issuingIndex with
    | some l, some i =>
      match g.paths[i]? with
      | some p =>
        if l.issues && b.issues l (isNative (s.imageBytes l)) p && p.issuable && !p.lookahead
            && decide (p.turn < 64) && !s.matrixWaits b l g p && !s.storesWait b l p then some i
        else none
      | none => none
    | _, _ => none

/-- Whether a wait is one on a page, or on the token of a transfer that waits on one (04 R110; 12 R271). -/
def Wait.onPage : Wait → Bool
  | .page _ _ | .stalled _ => true
  | _ => false

/-- The state of a block in 02 Table 2.2: a RESIDENT block is FROZEN while it holds a group that waits on a page, and its
other groups issue on (12 R271; log entry 63). -/
def State.tableState (s : State) (bk : Nat) (b : Block) : BlockState :=
  if b.st = .resident && ((s.groupsOf bk).any fun e => e.2.paths.any fun p => p.wait.onPage) then .frozen else b.st

/-- The highest condition of 13 Table 13.1 that holds for a group that does not issue; an eligible one counts
NOT_SELECTED (08 R202). -/
def State.stallReason (s : State) (g : Group) : Option Nat :=
  match AMap.find? s.blocks g.block with
  | none => none
  | some b =>
    match AMap.find? s.launches b.launch with
    | none => none
    | some l =>
      let held := l.st == .overflowed || l.descheduled
      if b.st == .frozen || b.st == .halted || b.evict || b.moving.isSome || held then some 15
      else if (s.eligible g).isSome then some 0
      else
        some ((g.paths.map fun p =>
          if p.lookahead then max 1 p.wait.reason
          else if p.issuable && s.matrixWaits b l g p then 14 else p.wait.reason).foldl max 0)

/-- Adds core cycles to the stall counter of a group that holds a live thread (13 R284). -/
def State.countStalls (s : State) (n gk : Nat) (g : Group) : State :=
  match s.stallReason g with
  | some i =>
    if g.lanes.isEmpty then s
    else s.updGroup gk fun g =>
      { g with stalls := Cells.set g.stalls i (Cells.get g.stalls i + BitVec.ofNat 64 n) }
  | none => s

/-- `n` core cycles in which every group of a list stalls: stall counters, the BOBBIN counters of the core's
bobbins (13 R285), and the end of matrix issue withheld (01 R19). -/
def State.passCycles (s : State) (n : Nat) (cores : Nat → Bool) (gs : AMap Group) : State :=
  let t := gs.foldl (fun (t : State) (e : Nat × Group) => t.countStalls n e.1 e.2) s
  let t := t.bobbins.foldl (fun (t : State) (e : Nat × Bobbin) =>
    if cores (e.1 / 64) then
      t.updBlock e.2.block fun b =>
        { b with resStall := Cells.set b.resStall 10 (Cells.get b.resStall 10 + BitVec.ofNat 64 n) }
    else t) t
  let free := t.withheld.filter fun c => cores c
  free.foldl (fun (t : State) (c : Nat) => t.wakeMatrix c)
    { t with cycle := t.cycle + n, withheld := t.withheld.filter fun c => !cores c }

def State.passCycle (s : State) (cores : Nat → Bool) (gs : AMap Group) : State := s.passCycles 1 cores gs

/-- Whether one eligible group is chosen before another (08 R202 steps 2 and 3). -/
def Group.before (a b : Group) : Bool :=
  if a.backoff ≠ b.backoff then decide (a.backoff < b.backoff)
  else if a.placed ≠ b.placed then decide (a.placed < b.placed)
  else decide (a.gid < b.gid)

/-- The first of a list by an order. -/
def pickBy (r : Group → Group → Bool) : AMap Group → Option (Nat × Group)
  | [] => none
  | e :: es => some (es.foldl (fun (m x : Nat × Group) => if r x.2 m.2 then x else m) e)

/-- The group that has been passed over for 1,024 cycles and waits longest (08 R202 step 1). -/
def starved (gs : AMap Group) : Option (Nat × Group) :=
  pickBy (fun a b => decide (b.passed < a.passed))
    (gs.filter fun e => decide (1024 ≤ e.2.passed))

/-- The cycles of a bundle of one group, as the other groups of its core spend them: the eligible ones are passed over
(08 R202). -/
def State.passOthers (s : State) (n core gk : Nat) : State :=
  let others := (s.coreGroups core).filter fun e => e.1 != gk
  let t := others.foldl (fun (t : State) (e : Nat × Group) =>
    t.updGroup e.1 fun g => { g with passed := if (s.eligible e.2).isSome then g.passed + n else 0 }) s
  t.passCycles n (fun c => c == core) others

/-- The path chosen issues next, once the paths that meet have joined (02 R29); the other groups of the core count
the cycle. -/
def State.select (s : State) (core gk : Nat) : State :=
  let t := s.passOthers 1 core gk
  let t := t.updGroup gk fun g => { g.regroup with passed := 0 }
  match AMap.find? t.groups gk with
  | some g => { t with cur := (t.eligible g).map fun i => { grp := gk, path := i } }
  | none => t

/-- Whether a group is to leave its issuing path (02 R30): after 64 bundles, or when that path may not be selected and
another may. At a poll point that nothing has marked a path does not wait, so it does not leave (log entry 68). -/
def State.rotates (s : State) (g : Group) : Bool :=
  match g.issuingIndex with
  | none => g.paths.any fun p => p.entry.isSome && s.selectable g p
  | some i =>
    match g.paths[i]? with
    | some p =>
      (decide (64 ≤ p.turn) || !s.selectable g p) && (g.nextEntry (s.selectable g) (p.entry.getD 0)).isSome
    | none => false

/-- The groups of a core that are to leave their issuing paths do so. -/
def State.rotateDue (s : State) (core : Nat) : State :=
  (s.coreGroups core).foldl (fun (t : State) (e : Nat × Group) =>
    match AMap.find? t.groups e.1 with
    | some g => if t.rotates g then t.rotate e.1 else t
    | none => t) s

/-- GROUP_SELECT (08 R202): groups leave the paths that they are to leave, then one is chosen; with no eligible group
the cycle passes. -/
def State.groupSelect (s : State) (core : Nat) : State :=
  let s := (s.setCoreRegs core { s.coreRegs core with turn := s.free }).rotateDue core
  let able := (s.coreGroups core).filter fun e => (s.eligible e.2).isSome
  match (starved able).or (pickBy Group.before able) with
  | some (gk, _) => s.select core gk
  | none => s.passCycle (fun c => c == core) (s.coreGroups core)

def execGroupSelect (core : Nat) (s : State) : Host.Outcome State Fault Refusal :=
  .next (s.groupSelect core)

/-- ISSUE_STARVATION_LIMIT (08 R202 step 1): a group passed over for 1,024 cycles is chosen first. -/
def execIssueStarvationLimit (core : Nat) (s : State) : Host.Outcome State Fault Refusal :=
  match starved ((s.coreGroups core).filter fun e => (s.eligible e.2).isSome) with
  | some (gk, _) => .next (s.select core gk)
  | none => .next s

/-- PATH_ROTATION (02 R30). -/
def execPathRotation (grp : Nat) (s : State) : Host.Outcome State Fault Refusal :=
  match AMap.find? s.groups grp with
  | some g => .next (if s.rotates g then s.rotate grp else s)
  | none => .next s

/-- BOBBIN_DRAW (02 R36). -/
def execBobbinDraw (core bob : Nat) (s : State) : Host.Outcome State Fault Refusal :=
  match AMap.find? s.bobbins (core * 64 + bob) with
  | some x => .next (if s.drawDue x then s.drawBobbin (core * 64 + bob) else s)
  | none => .next s

/-- RESULT_ARRIVAL (03 R58): the results of variable latency that a path waits for land. Inside the window a read may
see each lane's old or new value; here all lanes of all of them land at one instant: DESIGN CHOICE (log entry 1).
Those of a bundle whose irreversible slot has yet to perform land with its region. -/
def execResultArrival (grp path : Nat) (s : State) : Host.Outcome State Fault Refusal :=
  match (AMap.find? s.groups grp).bind fun g => g.paths[path]? with
  | some p => .next (if p.sealed then s else s.landIf grp path fun e => e.due.isNone)
  | none => .next s

/-- Changes the paths of a core's groups that wait on a condition. -/
def State.wakeCore (s : State) (core : Nat) (test : Wait → Bool) : State :=
  (s.coreGroups core).foldl (fun (t : State) (e : Nat × Group) =>
    t.updGroup e.1 fun g =>
      { g with paths := g.paths.map fun p => if test p.wait then p.retry else p }) s

/-- GATHER_COMPLETE (10 R225): one fill of a gather latch has read its rows, 4 core cycles after its issue or later. -/
def execGatherComplete (core gl : Nat) (s : State) : Host.Outcome State Fault Refusal :=
  let r := s.coreRegs core
  match r.filling.getD gl [] with
  | [] => .next s
  | t :: ts =>
    if s.cycle < t then .next s
    else
      .next ((s.setCoreRegs core { r with filling := setAt r.filling gl ts }).wakeCore core
        fun w => match w with
          | .latch _ => true
          | _ => false)

/-- The launch of a group. -/
def State.launchOf (s : State) (gk : Nat) : Option Launch :=
  match AMap.find? s.groups gk with
  | none => none
  | some g =>
    match AMap.find? s.blocks g.block with
    | none => none
    | some b => AMap.find? s.launches b.launch

/-- What a fabric peer answers to an access: acknowledged, or refused by its exports (14 R309). The peer is
no part of this machine (log entry 20). -/
def State.peerRefuses (s : State) : Bool × State :=
  (Config.free s.free % 2 == 1, { s with free := s.free + 1 })

/-- The fault of a fabric access that the peer refuses (14 R309). -/
def refusedFault (addr : Nat) (lanes : LaneMask) : Flt :=
  { code := .windowDenied, detail := 0xFF + 3 * 256, addr, lanes }

/-- A fault at an instruction that a path has issued before. -/
def State.raiseAt (s : State) (gk i : Nat) (f : Flt) : State :=
  match ({ s with cur := some { grp := gk, path := i } }).ctx .always with
  | some c => { s.raise c f with cur := s.cur }
  | none => s

/-- REMOTE_LOAD_RETURN (04 R85; 14 R309): a load from a peer answers, or is refused; a window access is
issued again once its target holds it no longer. -/
def execRemoteLoadReturn (grp path : Nat) (s : State) : Host.Outcome State Fault Refusal :=
  match AMap.find? s.groups grp with
  | none => .next s
  | some g =>
    match g.paths[path]? with
    | none => .next s
    | some p =>
      match p.wait with
      | .remote k =>
        let addr := ((AMap.find? s.remote k).map fun r => r.addr).getD 0
        let (bad, t) := s.peerRefuses
        let t := { t with remote := AMap.del t.remote k }
        if bad then .next (t.raiseAt grp path (refusedFault addr p.mask))
        else .next (t.updPath grp path fun p => p.wake)
      | .window h =>
        match s.launchOf grp with
        | some l =>
          .next (if s.windowHeld l h then s else s.updPath grp path fun p => p.retry)
        | none => .next s
      | _ => .next s

/-- QUEUE_POLL_REOFFER (07 R166): the polling waiters of a queue offer their requests again. -/
def execQueuePollReoffer (cb : Nat) (s : State) : Host.Outcome State Fault Refusal :=
  let h := s.home cb
  .next (((s.setHome cb { h with offer := false }).offerAll cb h.polling).serve cb)

/-- POLLBK_BACKOFF_EXPIRE (07 R184). -/
def execPollbkBackoffExpire (grp path : Nat) (s : State) : Host.Outcome State Fault Refusal :=
  .next (s.updPath grp path fun p =>
    match p.wait with
    | .backoff t => if t ≤ s.cycle then p.retry else p
    | _ => p)

/-- PAGE_WALK (04 R108, R109): a walk for a core and a launch fills the translation structures. -/
def execPageWalk (core launch va : Nat) (write : Bool) (s : State) :
    Host.Outcome State Fault Refusal :=
  match AMap.find? s.launches launch with
  | none => .next s
  | some l =>
    match s.context l.vi l.ctx with
    | none => .next s
    | some x =>
      if !canonical x.satp va || s.walkLost x.satp (s.iface l.vi).hgatp va then .next s
      else
        match s.walkAndFill core x.satp (s.iface l.vi).hgatp va write with
        | .ok (_, t) => .next t
        | .error _ => .next s

/-- A remote access has performed: the paths that wait for their earlier accesses look again (05 R127). -/
def State.performed (s : State) (key : Nat) (r : Remote) : State :=
  { s with remote := AMap.del s.remote key }.wakeBlock r.block (fun w => w == Wait.landing) Path.retry

/-- The bytes that an engine operation has stored at a peer have landed (07 R176). -/
def State.landRemote (s : State) (r : Remote) : State :=
  match r.op with
  | some k =>
    { s with engines := AMap.upd s.engines k fun o =>
        { o with landed := o.landed + (if o.link.isSome then r.data.length else 0) } }
  | none => s

/-- A held store through a window performs at its target, or faults when the target has retired
(04 R85). -/
def State.performHeld (s : State) (key : Nat) (r : Remote) : State :=
  match AMap.find? s.blocks r.block with
  | none => { s with remote := AMap.del s.remote key }
  | some b =>
    match AMap.find? s.launches b.launch with
    | none => { s with remote := AMap.del s.remote key }
    | some l =>
      if s.windowHeld l (bitsOf r.addr 48 8) then s
      else
        match s.resolveW l r.sw r.addr { n := r.data.length, write := true } with
        | .ok p => (s.performed key r).writePlace r.core p r.data
        | .fault f =>
          (s.performed key r).freeze r.block r.gid r.vpc r.op.isSome { f with lanes := r.lanes }
        | .hold _ => s

/-- ACCESS_PERFORMED_AT_POINT_OF_SERVICE (05 R127; 14 R309): a held window store reaches its target, or a
peer acknowledges a store or refuses it, which freezes the block. -/
def execAccessPerformedAtPointOfService (acc : Nat) (s : State) :
    Host.Outcome State Fault Refusal :=
  match AMap.find? s.remote acc with
  | none => .next s
  | some r =>
    if r.load then .next s
    else if r.window then .next (s.performHeld acc r)
    else
      let (bad, t) := s.peerRefuses
      let u := t.performed acc r
      .next (if bad then u.freeze r.block r.gid r.vpc r.op.isSome (refusedFault r.addr r.lanes) else u.landRemote r)

/-- 200 µs in core cycles at 1.05 GHz (14 R309). -/
def fabricLimit : Nat := 210000

/-- FABRIC_ACCESS_TIMEOUT (14 R309): the launch aborts with cause 2. -/
def execFabricAccessTimeout (acc : Nat) (s : State) : Host.Outcome State Fault Refusal :=
  match AMap.find? s.remote acc with
  | none => .next s
  | some r =>
    if r.window || decide (s.cycle < r.issued + fabricLimit) then .next s
    else
      let t := s.performed acc r
      match AMap.find? s.blocks r.block with
      | some b => .next (t.beginAbort b.launch 2 0 t.time)
      | none => .next t

/-- POWER_WITHHOLD (01 R19): matrix slots of a core do not issue for a cycle. -/
def execPowerWithhold (core : Nat) (s : State) : Host.Outcome State Fault Refusal :=
  .next (if s.withheld.contains core then s else { s with withheld := s.withheld ++ [core] })

end Sys2Proof.Machine
end

