-- ==== Sys2Proof/Machine/Blocks.lean ====
section
/-! DEFINITION. Blocks from placement to retirement: allocators, the placer, the compactor, eviction and resume,
debug stops, block records and the delivery of records (02 R22 to R26, R41; 08 R196 to R201, R206, R207; 12
R269, R272 to R274; 13 R286, R287). -/

namespace Sys2Proof.Machine

/-- The maximal free aligned blocks of at least `need` in a region of size `size` at `base` (08 R198). -/
def buddyFree (used : List (Nat × Nat)) (need : Nat) : Nat → Nat → Nat → List (Nat × Nat)
  | 0, _, _ => []
  | f + 1, base, size =>
    if size < need then []
    else if used.all fun e => decide (e.1 + e.2 ≤ base) || decide (base + size ≤ e.1) then [(base, size)]
    else buddyFree used need f base (size / 2) ++ buddyFree used need f (base + size / 2) (size / 2)

/-- The place that a buddy allocator grants: in the smallest free block that can hold it, the lowest of those;
a need of 0 takes none. -/
def buddyAlloc (roots used : List (Nat × Nat)) (need : Nat) : Option Nat :=
  if need = 0 then some 0
  else
    match roots.flatMap fun r => buddyFree used need 16 r.1 r.2 with
    | [] => none
    | e :: es => some (es.foldl (fun (m x : Nat × Nat) => if x.2 < m.2 then x else m) e).1

/-- The three allocators of a core: scratchpad, registers of one file, accumulator tiles. -/
def spadRoots : List (Nat × Nat) := [(0, 2097152)]
def regRoots : List (Nat × Nat) := [(0, 1024), (1024, 512)]
def accRoots : List (Nat × Nat) := [(0, 128)]

/-- The blocks that hold resources of a core, with their stage entries. -/
def State.coreBlocks (s : State) (core : Nat) : List (Nat × Block × Stage) :=
  s.blocks.filterMap fun (e : Nat × Block) =>
    if e.2.core = core ∧ e.2.onCore then
      (AMap.find? s.launches e.2.launch).map fun l => (e.1, e.2, s.stageOf e.2 l)
    else none

/-- The bases of a block: scratchpad, registers, accumulator tiles; those it holds, and those that it is being moved
to. -/
def Block.bases (b : Block) : List (Nat × Nat × Nat) := (b.spadBase, b.regBase, b.accBase) :: b.moving.toList

/-- The ranges that blocks hold of each resource. -/
def spadUsed (bs : List (Nat × Block × Stage)) : List (Nat × Nat) :=
  bs.flatMap fun e => e.2.1.bases.map fun x => (x.1, e.2.2.spadSize)
def regUsed (bs : List (Nat × Block × Stage)) : List (Nat × Nat) :=
  bs.flatMap fun e => e.2.1.bases.map fun x => (x.2.1, e.2.2.regRange)
def accUsed (bs : List (Nat × Block × Stage)) : List (Nat × Nat) :=
  (bs.flatMap fun e => e.2.1.bases.map fun x => (x.2.2, e.2.2.accRange)).filter fun e => e.2 != 0

/-- Where a block of a stage fits on a core: scratchpad, registers, accumulator tiles. -/
def State.fits (s : State) (core : Nat) (x : Stage) : Option (Nat × Nat × Nat) :=
  let bs := s.coreBlocks core
  let contexts := (bs.map fun e => e.2.2.contexts).foldl (· + ·) 0
  match buddyAlloc spadRoots (spadUsed bs) x.spadSize, buddyAlloc regRoots (regUsed bs) x.regRange,
      buddyAlloc accRoots (accUsed bs) x.accRange with
  | some a, some b, some c => if contexts + x.contexts ≤ 256 then some (a, b, c) else none
  | _, _, _ => none

/-- Whether a core has enough free space in every resource without regard to alignment (08 R201). -/
def State.roomy (s : State) (core : Nat) (x : Stage) : Bool :=
  let bs := s.coreBlocks core
  let sum (l : List (Nat × Nat)) : Nat := (l.map fun e => e.2).foldl (· + ·) 0
  decide (sum (spadUsed bs) + x.spadSize ≤ 2097152) && decide (sum (regUsed bs) + x.regRange ≤ 1536)
    && decide (sum (accUsed bs) + x.accRange ≤ 128)
    && decide ((bs.map fun e => e.2.2.contexts).foldl (· + ·) 0 + x.contexts ≤ 256)

/-- The keys of a block's cluster registers, from its range in each file. -/
def State.clearRegs (s : State) (core base n : Nat) : State :=
  { s with cregs := (span 0 4).foldl (fun (m : Cells 32) f =>
      Cells.clear m (cregKey core f base 0) (cregKey core f (base + n) 0)) s.cregs }

/-- Clears the storage that a block is given (02 R26). -/
def State.clearStorage (s : State) (core : Nat) (x : Stage) (a b c : Nat) : State :=
  { s.clearRegs core b x.regRange with
    spad := Cells.clear s.spad (spadKey core a) (spadKey core (a + x.spadSize))
    acc := Cells.clear s.acc (accKey core c 0) (accKey core (c + x.accRange) 0) }

/-- The uniform registers that an image declares for a stage (02 R41). -/
def uniformsOf (img : List Byte) (stage : Nat) : List (Nat × Nat) :=
  let bs := sectionBytes img 10
  ((span 0 (bs.length / 16)).filter fun i => field bs (16 * i + 1) 1 == stage).map fun i =>
    (field bs (16 * i) 1, field bs (16 * i + 8) 8)

/-- Where a path of a stage begins: the entry's byte offset, and in native code the bundle and the record of
its virtual PC (06 Table 6.4; 03 R69). -/
def State.entryOf (s : State) (l : Launch) (stage : Nat) : Nat × Nat :=
  let img := s.imageBytes l
  let x := stageAt img stage
  if isNative img then
    match sideTable img x.code with
    | some side =>
      match (span 0 (field side 8 4)).find? fun n =>
          recordField side n 0 8 == x.entry && recordField side n 20 1 == 0 with
      | some n => (recordField side n 8 4, n)
      | none => (x.entry, 0)
    | none => (x.entry, 0)
  else (x.entry, 0)

/-- The lanes of group `gid` at block start (02 R22). -/
def startLanes (n gid : Nat) : AMap Nat :=
  ((span 0 64).filter fun i => decide (gid * 64 + i < n)).map fun i => (i, gid * 64 + i)

/-- A group at block start: one path at the entry, holding all its threads (02 R29). -/
def startGroup (bk gid n pc cp now : Nat) : Group :=
  let lanes := startLanes n gid
  { block := bk, gid, lanes, issuing := some 0, placed := now
    paths := [{ entry := some 0, pc, cp, mask := maskOf (lanes.map fun e => e.1) }] }

/-- A PENDING block becomes RESIDENT on a core: its state is cleared, its groups formed and its uniform
registers and rounding streams set (02 R22, R25, R26, R41; 09 R218). The core acquires, as its launch did when it
was bound (04 R97). -/
def State.startBlock (s : State) (lk : Nat) (l : Launch) (stage linear core : Nat)
    (at_ : Nat × Nat × Nat) : State :=
  let x := s.stageOf { launch := lk, stage, linear } l
  let bk := blockKey l stage linear
  let n := x.threads
  let (pc, cp) := s.entryOf l stage
  let t := (s.acquireCaches core .device).clearStorage core x at_.1 at_.2.1 at_.2.2
  let b : Block := { launch := lk, stage, linear, st := .resident, core, spadBase := at_.1,
                     regBase := at_.2.1, accBase := at_.2.2, placedAt := s.time }
  let threads := (span 0 n).foldl (fun (m : AMap Thread) i =>
    AMap.put m (bk * 2 ^ 11 + i) { rs := lfsrSeed linear i stage }) t.threads
  let groups := (span 0 ((n + 63) / 64)).foldl (fun (m : AMap Group) gid =>
    AMap.put m (bk * 64 + gid) (startGroup bk gid n pc cp s.cycle)) t.groups
  let uregs := (uniformsOf (s.imageBytes l) stage).foldl (fun (m : Cells 64) e =>
    Cells.set m (uregKey bk e.1) (BitVec.ofNat 64 e.2)) t.uregs
  { t with blocks := AMap.put t.blocks bk b, threads, groups, uregs }

/-- How a path's wake condition stands at a resume (12 Table 12.3): requests, loads and polls are made
again. -/
def Wait.resumed : Wait → Wait
  | .queue _ _ _ | .remote _ | .window _ | .backoff _ => .none
  | w => w

/-- Puts saved bobbins into free bobbins of a core, each with its age at zero and the limit under which it began
filing (02 R37); what finds none is drawn at once (02 R38). -/
def State.restoreBobbins (s : State) (core : Nat) : List Bobbin → State
  | [] => s
  | x :: xs =>
    let x := { x with born := s.cycle }
    match ((span 0 64).map fun i => core * 64 + i).find? fun k => (AMap.find? s.bobbins k).isNone with
    | some k => State.restoreBobbins { s with bobbins := AMap.put s.bobbins k x } core xs
    | none =>
      (State.drawBobbin { s with bobbins := AMap.put s.bobbins (2 ^ 20) x } (2 ^ 20)).restoreBobbins
        core xs

/-- The bytes of a stop record for a group context (13 R287): that of the BRK that asked for the stop, or the
context's issuing path. -/
def State.stopRecord (s : State) (b : Block) (l : Launch) (g : Group) (r : StopReq) (frozen : Bool) :
    List Byte :=
  let mine := r.cause == 2 && r.gid == g.gid
  let p := (g.paths[(g.issuingIndex).getD 0]?).getD {}
  let flags := (if l.irrevocable then 4 else 0) + (if frozen then 8 else 0)
  s.faultRecord b l g.gid 0 flags (if mine then r.vpc else s.vpcAt b l p) 0 r.cause
    (if mine then r.lanes else p.mask)

/-- Copies the barrier page of a block to the dump address of its context (13 R287). -/
def State.dumpPage (s : State) (b : Block) (l : Launch) (x : Context) : State :=
  let base := spadChip b.core (b.spadBase + (s.stageOf b l).spadSize - 4096)
  if x.dump = 0 then s
  else
    match s.translate b.core x.satp (s.iface l.vi).hgatp x.dump true with
    | .ok (pa, t) =>
      let bytes := t.chipBytes base 4096
      (span 0 64).foldl (fun (u : State) i =>
        u.writePlace b.core (.g (pa + 64 * i) 0 false .device) ((bytes.drop (64 * i)).take 64)) t
    | .error _ => s.configEvent

/-- A block stops (13 R287): a stop record for each context that holds live threads, the dump, HALTED. A
frozen block stays FROZEN and its records say so. -/
def State.halt (s : State) (bk : Nat) (b : Block) (l : Launch) (r : StopReq) : State :=
  let frozen := b.fault.isSome
  let t := (s.groupsOf bk).foldl (fun (t : State) (e : Nat × Group) =>
    if e.2.lanes.isEmpty then t
    else t.deliver b.launch l false (t.stopRecord b l e.2 r frozen)) s
  let t := match s.context l.vi l.ctx with
    | some x => t.dumpPage b l x
    | none => t
  t.updBlock bk fun b =>
    { b with st := if frozen then .frozen else if r.resume then .resident else .halted, stop := none
             everHalted := true }

/-- Changes the cluster registers for which results of a block's paths are in flight, as the block's registers move. -/
def State.shiftFlights (s : State) (bk : Nat) (f : Nat → Nat → Nat) : State :=
  let one (gid : Nat) (e : InFlight) : InFlight := match e.dst with
    | .creg k => { e with dst := .creg (f gid k) }
    | _ => e
  { s with groups := s.groups.map fun (e : Nat × Group) =>
      (e.1, if e.2.block = bk then
        { e.2 with paths := e.2.paths.map fun p => { p with inflight := p.inflight.map (one e.2.gid) } } else e.2) }

/-- An EVICTED block is restored on a core (02 R25; 12 R274): as HALTED when it was halted or a stop was asked
of it (08 R206, R207), as FROZEN when a fault holds it (12 R277). -/
def State.resumeBlock (s : State) (bk : Nat) (b : Block) (l : Launch) (core : Nat)
    (at_ : Nat × Nat × Nat) : State :=
  let x := s.stageOf b l
  let v := b.saved.getD { spad := [], cregs := [], acc := [], bobbins := [] }
  let t := (s.acquireCaches core .device).clearStorage core x at_.1 at_.2.1 at_.2.2
  let cregs := v.cregs.foldl (fun (m : Cells 32) e =>
    Cells.set m (cregKey core (e.1 / 64 / 1536) (at_.2.1 + e.1 / 64 % 1536) (e.1 % 64)) e.2) t.cregs
  let new : Block :=
    { b with core, spadBase := at_.1, regBase := at_.2.1, accBase := at_.2.2, saved := none, stopped := false
             otherCore := b.otherCore || b.core != core
             st := if b.fault.isSome then .frozen else if b.stopped then .halted else .resident }
  let groups : AMap Group := t.groups.map fun (e : Nat × Group) =>
    (e.1, if e.2.block = bk then
      { e.2 with paths := e.2.paths.map fun p => { p with wait := p.wait.resumed } } else e.2)
  let t := { t with
    cregs, groups
    spad := Cells.paste t.spad (spadKey core at_.1) v.spad
    acc := Cells.paste t.acc (accKey core at_.2.2 0) v.acc
    blocks := AMap.put t.blocks bk new }
  let t := (t.shiftFlights bk fun gid k => absKey core (at_.2.1 + gid * x.regs) k).restoreBobbins core v.bobbins
  match new.stop with
  | some r => t.halt bk new l r
  | none => t

/-- The blocks of a stage that are EVICTED, by linear index. -/
def State.evictedOf (s : State) (l : Launch) (stage : Nat) : List Nat :=
  (s.blocks.filter fun (e : Nat × Block) =>
    e.1 / 2 ^ 32 == l.attempt * 16 + stage && e.2.st == .evicted).map fun (e : Nat × Block) => e.2.linear

/-- Numbers in order from one on, wrapping. -/
def fromOn (l : List Nat) (n : Nat) : List Nat := (l.filter fun x => decide (n ≤ x)) ++ l.filter fun x => decide (x < n)

/-- Places one block, new or evicted, on a core. -/
def State.placeOn (s : State) (lk : Nat) (l : Launch) (stage linear core : Nat) (at_ : Nat × Nat × Nat) :
    State :=
  match AMap.find? s.blocks (blockKey l stage linear) with
  | some b => s.resumeBlock (blockKey l stage linear) b l core at_
  | none => s.startBlock lk l stage linear core at_

/-- Changes what a launch keeps of a stage. -/
def State.updStage (s : State) (lk stage : Nat) (f : StageRun → StageRun) : State :=
  s.updLaunch lk fun l => { l with stages := updAt f l.stages stage }

/-- The first block of the placer of a stage: the lowest EVICTED one, else the next PENDING one
(08 R199). Answers its linear index and whether it is new. -/
def State.nextBlock (s : State) (l : Launch) (stage : Nat) (r : StageRun) : Option (Nat × Bool) :=
  match s.evictedOf l stage with
  | i :: _ => some (i, false)
  | [] =>
    if r.nextPending < (stageAt (s.imageBytes l) stage).blocks then some (r.nextPending, true) else none

/-- The first core from the pointer on that can take a block of a stage, with the ranges that it grants. -/
def State.coreFor (s : State) (r : StageRun) (x : Stage) : Option (Nat × (Nat × Nat × Nat)) :=
  (fromOn r.cores r.pointer).findSome? fun core => (s.fits core x).map fun a => (core, a)

/-- The clusters of a stage whose four cores all belong to it (08 R200). -/
def StageRun.clusters (r : StageRun) : List Nat :=
  (distinct clusterOf r.cores).filter fun k => (span (4 * k) 4).all fun c => r.cores.contains c

/-- Whether a block of a launch's stage has retired; a retired one is never placed again (02 R25). -/
def State.retiredAt (s : State) (l : Launch) (stage linear : Nat) : Bool :=
  (AMap.find? s.blocks (blockKey l stage linear)).any fun b => b.st == .retired

/-- The first cluster from the pointer on that can take a quad. -/
def State.clusterFor (s : State) (r : StageRun) (x : Stage) : Option Nat :=
  (fromOn r.clusters r.pointer).find? fun k => (span (4 * k) 4).all fun c => (s.fits c x).isSome

/-- The placer of a stage puts its next block, or its next quad, on a core (08 R199, R200); members of a quad that
have retired stay so (02 R25). -/
def State.placeNext (s : State) (lk stage : Nat) : State :=
  match AMap.find? s.launches lk with
  | none => s
  | some l =>
    match l.stages[stage]? with
    | none => s
    | some r =>
      if !l.issues || l.descheduled then s
      else
        let x := stageAt (s.imageBytes l) stage
        match s.nextBlock l stage r with
        | none => s
        | some (i, new) =>
          if x.quad then
            match s.clusterFor r x with
            | none => s
            | some k =>
              let t := (span 0 4).foldl (fun (t : State) q =>
                match t.fits (4 * k + q) x with
                | some a =>
                  if t.retiredAt l stage (i / 4 * 4 + q) then t
                  else t.placeOn lk l stage (i / 4 * 4 + q) (4 * k + q) a
                | none => t) s
              t.updStage lk stage fun r =>
                { r with pointer := k + 1, nextPending := r.nextPending + (if new then 4 else 0) }
          else
            match s.coreFor r x with
            | none => s
            | some (core, a) =>
              (s.placeOn lk l stage i core a).updStage lk stage fun r =>
                { r with pointer := core + 1, nextPending := r.nextPending + (if new then 1 else 0) }

/-- Whether every live group of a block stands at a blocking point, or counts so (02 R46; 08 R206; 12 R277),
its engine operations are complete and it is not being moved. -/
def State.settled (s : State) (bk : Nat) (b : Block) : Bool :=
  let native := s.nativeBlock b
  (b.st == .halted || b.st == .frozen || (s.groupsOf bk).all fun e => e.2.atBlocking native)
    && b.moving.isNone && s.engines.all fun e => e.2.block != bk

/-- Withdraws what a block's groups wait for outside the core (07 R169; 12 R272 step 3): queue requests and
remote loads, which are made again later. -/
def State.withdrawBlock (s : State) (bk : Nat) : State :=
  let t := s.withdraw fun a => match a with
    | .group gk _ => gk / 64 == bk
    | _ => false
  { t with remote := AMap.keep (fun _ r => !(r.grp / 64 == bk && r.load)) t.remote }

/-- A path goes back to the commit point of its region, from which it issues again outside conservative mode (03
R67, Table 3.2). -/
def State.replayPath (s : State) (gk i : Nat) : State :=
  match ({ s with cur := some { grp := gk, path := i } }).ctx .always with
  | some c =>
    match c.p.snap with
    | some x => (s.rollback c x.pc x).updPath gk i fun p => { p with conservative := false }
    | none => s.updPath gk i Path.retry
  | none => s

/-- What of a wait outlasts the rollback to the commit point: a page's, until its SERVICE (12 R274). -/
def Wait.kept : Wait → Wait
  | .page va stamp => .page va stamp
  | _ => .none

/-- Every result that a path has in flight lands, and time passes with it; those of a bundle whose irreversible slot
has yet to perform stay, as that slot reads what stood before them. -/
def State.landPath (s : State) (gk i : Nat) : State :=
  match AMap.find? s.groups gk with
  | some g =>
    match g.paths[i]? with
    | some p => if p.sealed then s else { s with cycle := p.lastDue s.cycle }.landIf gk i fun _ => true
    | none => s
  | none => s

/-- Rolls the paths of a block that wait inside a region back to their commit points (12 R272 step 4). One that waits
for a page goes on waiting for it (R274). -/
def State.rollWaiting (s : State) (bk : Nat) : State :=
  (s.groupsOf bk).foldl (fun (t : State) (e : Nat × Group) =>
    (span 0 e.2.paths.length).foldl (fun (t : State) i =>
      match e.2.paths[i]? with
      | some p =>
        match p.snap with
        | some x =>
          if p.pc ≠ x.pc ∧ p.wait.blocking ∧ p.wait ≠ .sync then
            (t.replayPath e.1 i).updPath e.1 i fun q => { q with wait := p.wait.kept }
          else t
        | none => t
      | none => t) t) s

/-- What the paths of a block have in flight lands. -/
def State.landBlock (s : State) (bk : Nat) : State :=
  (s.groupsOf bk).foldl (fun (t : State) (e : Nat × Group) =>
    (span 0 e.2.paths.length).foldl (fun (t : State) i => t.landPath e.1 i) t) s

/-- The state of R273 that is not kept by block or thread: storage of the core, and bobbins. -/
def State.savedOf (s : State) (bk : Nat) (b : Block) (x : Stage) : Saved :=
  let regs (f : Nat) : Cells 32 :=
    (Cells.slice s.cregs (cregKey b.core f b.regBase 0) (cregKey b.core f (b.regBase + x.regRange) 0)).map
      fun e => (f * 1536 * 64 + e.1, e.2)
  { spad := Cells.slice s.spad (spadKey b.core b.spadBase) (spadKey b.core (b.spadBase + x.spadSize))
    cregs := (span 0 4).flatMap regs
    acc := Cells.slice s.acc (accKey b.core b.accBase 0) (accKey b.core (b.accBase + x.accRange) 0)
    bobbins := (s.bobbinsOf bk).map fun e => e.2 }

/-- Saves one block and gives its core up (12 R272 steps 3 to 6). -/
def State.evictOne (s : State) (bk : Nat) : State :=
  match AMap.find? s.blocks bk with
  | none => s
  | some b =>
    match AMap.find? s.launches b.launch with
    | none => s
    | some l =>
      let t := ((s.withdrawBlock bk).rollWaiting bk).releaseCaches b.core .device
      let saved := t.savedOf bk b (t.stageOf b l)
      let t := t.shiftFlights bk fun gid k => relKey (b.regBase + gid * (t.stageOf b l).regs) k
      { t with bobbins := AMap.keep (fun _ x => x.block != bk) t.bobbins }.updBlock bk fun b =>
        { b with st := .evicted, evict := false, everEvicted := true, saved := some saved
                 stopped := b.st == BlockState.halted }

/-- A core that a stage gives up is free once no block of the launch stands on it (08 R190). -/
def State.dropLeaving (s : State) (lk : Nat) : State :=
  s.updLaunch lk fun l =>
    { l with stages := l.stages.map fun r =>
        { r with leaving := r.leaving.filter fun c =>
            (s.coreBlocks c).any fun e => e.2.1.launch == lk } }

/-- The blocks that are evicted together with one: its quad, or itself (02 R24). -/
def State.quadOf (s : State) (bk : Nat) (b : Block) : List Nat :=
  match AMap.find? s.launches b.launch with
  | some l =>
    if (s.stageOf b l).quad then
      ((span (b.linear / 4 * 4) 4).map fun i => blockKey l b.stage i).filter fun k =>
        match AMap.find? s.blocks k with
        | some x => x.onCore
        | none => false
    else [bk]
  | none => [bk]

/-- Whether a block and those evicted with it can be saved now. -/
def State.evictable (s : State) (bk : Nat) (b : Block) : Bool :=
  (s.quadOf bk b).all fun k => match AMap.find? s.blocks k with
    | some x => s.settled k x
    | none => true

/-- Evicts a block and those that go with it, when they can be saved; an abort or a kill that has begun ends the
eviction (12 R272). -/
def State.evict (s : State) (bk : Nat) : State :=
  match AMap.find? s.blocks bk with
  | none => s
  | some b =>
    if b.onCore && s.evictable bk b && (AMap.find? s.launches b.launch).all fun l => l.st != .aborting then
      ((s.quadOf bk b).foldl State.evictOne s).dropLeaving b.launch else s

/-- BLOCK_EVICT (12 R272): of a block that is marked. -/
def execBlockEvict (block : Nat) (s : State) : Host.Outcome State Fault Refusal :=
  match AMap.find? s.blocks block with
  | some b => .next (if b.evict then s.evict block else s)
  | none => .next s

/-- A delivery of the device to a queue that a context names (12 R269; 13 R286): performed at once, turned
away when the queue is full, or none when the queue is missing, corrupt or refuses it. -/
def State.offerDevice (s : State) (x : Context) (cb : Nat) (bytes : List Byte) :
    Option (Except (Nat × State) State) :=
  let sp := s.contextSpace x
  if cb = 0 ∨ cb % 64 ≠ 0 then none
  else
    match s.cbAddr sp cb with
    | .error _ => none
    | .ok (pa, t) =>
      match t.homeTry pa sp (.device x.vi x.num) true 1 bytes.length false [bytes] with
      | .fault _ _ | .lost _ => none
      | .done _ u => some (.ok u)
      | .turned u => some (.error (pa, u))

/-- A record that is dropped when its queue cannot take it (13 R286, R288). -/
def State.dropOrEnqueue (s : State) (x : Context) (cb : Nat) (bytes : List Byte) : State :=
  match s.offerDevice x cb bytes with
  | some (.ok t) => t
  | _ => s.configEvent

/-- The block record (13 Table 13.2). -/
def State.blockRecord (s : State) (bk : Nat) (b : Block) (l : Launch) : List Byte :=
  let (x, y, z) := (s.stageOf b l).bid b.linear
  let flags := b.everEvicted.toNat + 2 * b.everHalted.toNat + 4 * b.otherCore.toNat
  let stalls := (s.groupsOf bk).foldl (fun m (e : Nat × Group) => addStalls m e.2.stalls) b.resStall
  leBytes 4 x ++ leBytes 4 y ++ leBytes 4 z ++ leBytes 1 b.stage ++ leBytes 1 flags ++ leBytes 2 b.core
    ++ leBytes 8 (l.lsn % 2 ^ 48) ++ leBytes 8 b.placedAt ++ leBytes 8 s.time
    ++ ((span 0 32).flatMap fun i => leBytes 2 (Cells.get b.phases i).toNat)
    ++ leBytes 24 0 ++ ((span 0 16).flatMap fun i => leBytes 8 (Cells.get stalls i).toNat)

/-- Whether every block of a launch's attempt has retired (06, "Commit and completion"). -/
def State.allRetired (s : State) (l : Launch) : Bool :=
  (span 0 (stageCount (s.imageBytes l))).all fun i =>
    match l.stages[i]? with
    | some r =>
      r.nextPending == (stageAt (s.imageBytes l) i).blocks
        && s.blocks.all fun (e : Nat × Block) =>
          e.1 / 2 ^ 32 != l.attempt * 16 + i || e.2.st == .retired
    | none => false

/-- A bound launch all of whose blocks have retired is COMPLETED (06 Table 6.13). -/
def State.noteCompletion (s : State) (lk : Nat) : State :=
  match AMap.find? s.launches lk with
  | some l =>
    if l.st = .bound ∧ s.allRetired l ∧ s.engines.all fun e => e.2.launch != lk then
      s.updLaunch lk fun l => { l with st := .completed }
    else s
  | none => s

/-- A block whose threads have all exited retires (02 Table 2.2; 13 R286): its record is written and its
resources go free. -/
def State.retire (s : State) (bk : Nat) : State :=
  match AMap.find? s.blocks bk with
  | none => s
  | some b =>
    match AMap.find? s.launches b.launch with
    | none => s
    | some l =>
      if b.st ≠ .resident ∨ s.liveThreads bk ≠ 0 ∨ (s.engines.any fun e => e.2.block == bk) then s
      else
        let t := match s.context l.vi l.ctx with
          | some x => s.dropOrEnqueue x x.recordQ (s.blockRecord bk b l)
          | none => s
        let t := { t with
          groups := AMap.keep (fun _ g => g.block != bk) t.groups
          uregs := Cells.clear t.uregs (uregKey bk 0) (uregKey (bk + 1) 0)
          tiles := Cells.clear t.tiles (tileKey bk 0 0) (tileKey (bk + 1) 0 0)
          vregs := Cells.clear t.vregs (vregKey (bk * 2 ^ 11) 0) (vregKey ((bk + 1) * 2 ^ 11) 0) }
        ((t.updBlock bk fun b => { b with st := .retired, endedAt := s.time }).dropLeaving
          b.launch).noteCompletion b.launch

/-- BLOCK_RETIRE (02 R25). -/
def execBlockRetire (block : Nat) (s : State) : Host.Outcome State Fault Refusal :=
  .next (s.retire block)

/-- Whether every path of a block stands at an instruction boundary where a stop takes effect (03 R71). -/
def State.atBoundary (s : State) (bk : Nat) (b : Block) : Bool :=
  let native := s.nativeBlock b
  (s.groupsOf bk).all fun e => e.2.paths.all fun p =>
    p.mask == 0 || p.wait.blocking
      || (if native then (match p.snap with
          | some x => p.pc == x.pc
          | none => true) else p.run == 0)

/-- BLOCK_HALT (13 R287): a block asked to stop, once its groups stand at boundaries. -/
def execBlockHalt (block : Nat) (s : State) : Host.Outcome State Fault Refusal :=
  match AMap.find? s.blocks block with
  | none => .next s
  | some b =>
    match b.stop, AMap.find? s.launches b.launch with
    | some r, some l =>
      .next (if (b.st == .resident && s.atBoundary block b) || b.st == .frozen then
          (s.rollWaiting block).halt block b l r
        else s)
    | _, _ => .next s

/-- FAULT_RECORD_DELIVER (12 R269): the oldest record due to a context is enqueued, waits for room at the
home, or fails. -/
def execFaultRecordDeliver (vi ctx : Nat) (s : State) : Host.Outcome State Fault Refusal :=
  match s.deliveries.find? fun d => d.vi == vi && d.ctx == ctx with
  | none => .next s
  | some d =>
    let rest := s.deliveries.erase d
    let t := { s with deliveries := rest }
    match s.context vi ctx with
    | none => .next (t.failDelivery d)
    | some x =>
      match t.offerDevice x d.cb d.bytes with
      | some (.ok u) => .next u
      | some (.error (pa, u)) => .next (u.addRequest pa d.cb (.delivery d) true 1 [d.bytes])
      | none => .next (t.failDelivery d)

/-- What overlaps a range. -/
def overlapsAt (e : Nat × Nat) (base n : Nat) : Bool := decide (e.1 < base + n) && decide (base < e.1 + e.2)

/-- Ranges (block, place, size) by size, largest first. -/
def insertBySize (e : Nat × Nat × Nat) : List (Nat × Nat × Nat) → List (Nat × Nat × Nat)
  | [] => [e]
  | x :: xs => if x.2.2 < e.2.2 then e :: x :: xs else x :: insertBySize e xs

/-- A plan: where an aligned range opens, the moves (block, new place) that open it, in order, the units they move,
the ranges that they take, and those that may still be moved. -/
structure Plan where
  at_ : Nat
  moves : List (Nat × Nat) := []
  cost : Nat := 0
  taken : List (Nat × Nat) := []
  rest : List (Nat × Nat × Nat)
  deriving DecidableEq, Repr

/-- The cheaper of two plans, the earlier on a tie. -/
def betterPlan (a : Option Plan) (b : Option Plan) : Option Plan :=
  match a, b with
  | some x, some y => if y.cost < x.cost then some y else some x
  | some x, none => some x
  | none, y => y

/-- The cheapest plan that opens an aligned range of `need` in one resource. `fixed` are ranges that stay, `movable`
are those that may be moved, which may itself need room that other moves open (08 R201; which plan is taken: log entry
40). -/
def openRange (roots : List (Nat × Nat)) : Nat → List (Nat × Nat) → List (Nat × Nat × Nat) → Nat → Option Plan
  | fuel, fixed, movable, need =>
    if need = 0 then some { at_ := 0, rest := movable }
    else
      match buddyAlloc roots (fixed ++ movable.map fun e => (e.2.1, e.2.2)) need with
      | some a => some { at_ := a, rest := movable }
      | none =>
        match fuel with
        | 0 => none
        | n + 1 =>
          let spots := roots.flatMap fun r => (span 0 (r.2 / need)).map fun i => r.1 + i * need
          spots.foldl (fun best a =>
            if fixed.any fun e => overlapsAt e a need then best
            else
              let out := (movable.filter fun e => overlapsAt (e.2.1, e.2.2) a need).foldr insertBySize []
              let stay := movable.filter fun e => !overlapsAt (e.2.1, e.2.2) a need
              let start : Option (Plan × List (Nat × Nat)) := some ({ at_ := a, rest := stay }, (a, need) :: fixed)
              let plan := out.foldl (fun (acc : Option (Plan × List (Nat × Nat))) e =>
                match acc with
                | none => none
                | some (p, held) =>
                  match openRange roots n held p.rest e.2.2 with
                  | none => none
                  | some q =>
                    let new := (q.at_, e.2.2) :: q.taken
                    some ({ p with moves := p.moves ++ q.moves ++ [(e.1, q.at_)], cost := p.cost + q.cost + e.2.2
                                   taken := new ++ p.taken, rest := q.rest }, new ++ held)) start
              betterPlan best (plan.map fun x => x.1)) none

/-- The plans of a core for a block of a stage: scratchpad, registers, accumulators, and the bytes moved. -/
def State.compaction (s : State) (core : Nat) (x : Stage) :
    Option (List (Nat × Nat) × List (Nat × Nat) × List (Nat × Nat) × Nat) :=
  let bs := s.coreBlocks core
  let free := bs.filter fun e => s.settled e.1 e.2.1
  let fixed := bs.filter fun e => !s.settled e.1 e.2.1
  let n := free.length
  let sp := openRange spadRoots n (spadUsed fixed)
    (free.map fun e => (e.1, e.2.1.spadBase, e.2.2.spadSize)) x.spadSize
  let rg := openRange regRoots n (regUsed fixed)
    (free.map fun e => (e.1, e.2.1.regBase, e.2.2.regRange)) x.regRange
  let ac := openRange accRoots n (accUsed fixed)
    ((free.map fun e => (e.1, e.2.1.accBase, e.2.2.accRange)).filter fun e => e.2.2 != 0) x.accRange
  match sp, rg, ac with
  | some a, some b, some c => some (a.moves, b.moves, c.moves, a.cost + b.cost * 1024 + c.cost * 2048)
  | _, _, _ => none

/-- The first move of a plan whose new place is free of other blocks: the block, and the bases that it goes to. -/
def State.firstMove (s : State) (core : Nat) (sp rg ac : List (Nat × Nat)) : Option (Nat × (Nat × Nat × Nat)) :=
  let bs := s.coreBlocks core
  let goes (used : List (Nat × Block × Stage) → List (Nat × Nat)) (size : Stage → Nat) (e : Nat × Nat) :
      Option (Block × Nat) :=
    match bs.find? fun b => b.1 == e.1 with
    | some b =>
      if (used (bs.filter fun x => x.1 != e.1)).any fun r => overlapsAt r e.2 (size b.2.2) then none
      else some (b.2.1, e.2)
    | none => none
  let a := sp.findSome? fun e => (goes spadUsed Stage.spadSize e).map fun x => (e.1, (x.2, x.1.regBase, x.1.accBase))
  let b := rg.findSome? fun e => (goes regUsed Stage.regRange e).map fun x => (e.1, (x.1.spadBase, x.2, x.1.accBase))
  let c := ac.findSome? fun e => (goes accUsed Stage.accRange e).map fun x => (e.1, (x.1.spadBase, x.1.regBase, x.2))
  (a.or b).or c

/-- Where a place of the on-chip map lies once a block of a core has moved to new bases. -/
def movedPlace (core : Nat) (b : Block) (x : Stage) (new : Nat × Nat × Nat) (p : Place) : Place :=
  let shift (base oc lo n to_ : Nat) : Option Place :=
    if base + lo ≤ oc ∧ oc < base + lo + n then some (.chip (oc - (base + lo) + (base + to_))) else none
  match p with
  | .chip oc =>
    let at_ := core * 0x800000
    let spad := shift at_ oc b.spadBase x.spadSize new.1
    let regs := (span 0 4).findSome? fun f =>
      shift (at_ + 0x200000 + f * 0x60000) oc (b.regBase * 256) (x.regRange * 256) (new.2.1 * 256)
    let accs := shift (at_ + 0x380000) oc (b.accBase * 2048) (x.accRange * 2048) (new.2.2 * 2048)
    ((spad.or regs).or accs).getD p
  | _ => p

/-- The move of a block ends: what its ranges hold, results in flight and stores not yet performed go with it (08
R201). -/
def State.endMove (s : State) (bk : Nat) (b : Block) (x : Stage) (new : Nat × Nat × Nat) : State :=
  let core := b.core
  let spad := Cells.slice s.spad (spadKey core b.spadBase) (spadKey core (b.spadBase + x.spadSize))
  let regs := (span 0 4).map fun f =>
    Cells.slice s.cregs (cregKey core f b.regBase 0) (cregKey core f (b.regBase + x.regRange) 0)
  let acc := Cells.slice s.acc (accKey core b.accBase 0) (accKey core (b.accBase + x.accRange) 0)
  let t := (s.clearStorage core x b.spadBase b.regBase b.accBase).clearStorage core x new.1 new.2.1 new.2.2
  let groups : AMap Group := t.groups.map fun (e : Nat × Group) =>
    (e.1, { e.2 with paths := e.2.paths.map fun p =>
      { p with gated := p.gated.map fun w => { w with dst := movedPlace core b x new w.dst } } })
  let t := { t with
    groups
    spad := Cells.paste t.spad (spadKey core new.1) spad
    acc := Cells.paste t.acc (accKey core new.2.2 0) acc
    cregs := (regs.zip (span 0 4)).foldl (fun (m : Cells 32) (e : Cells 32 × Nat) => Cells.paste m (cregKey core e.2 new.2.1 0) e.1) t.cregs }
  (t.shiftFlights bk fun gid k =>
      absKey core (new.2.1 + gid * x.regs) (relKey (b.regBase + gid * x.regs) k)).updBlock bk fun b =>
    { b with spadBase := new.1, regBase := new.2.1, accBase := new.2.2, moving := none }

/-- The plan that moves the fewest bytes, over cores (or clusters) in order. -/
def cheapest (l : List (Nat × Nat)) : Option Nat :=
  match l with
  | [] => none
  | e :: es => some (es.foldl (fun (m x : Nat × Nat) => if x.2 < m.2 then x else m) e).1

/-- The next block that makes room on a core for a block of a stage begins to move. -/
def State.beginMove (s : State) (x : Stage) (core : Nat) : State :=
  match s.compaction core x with
  | some (a, b, c, _) =>
    match s.firstMove core a b c with
    | some (bk, new) => s.updBlock bk fun b => { b with moving := some new }
    | none => s
  | none => s

/-- The bytes that opening room on a core moves. -/
def State.compactCost (s : State) (x : Stage) (core : Nat) : Option Nat :=
  if (s.fits core x).isSome then some 0
  else if s.roomy core x then (s.compaction core x).map fun p => p.2.2.2
  else none

/-- The block on the cores of a stage that is being moved. -/
def State.movingOn (s : State) (cores : List Nat) : Option (Nat × Block × Stage) :=
  cores.findSome? fun c => List.find? (fun (e : Nat × Block × Stage) => e.2.1.moving.isSome) (s.coreBlocks c)

/-- COMPACTOR_MOVE (08 R200, R201): a block that is being moved arrives; else, when the next block of a stage fits on
no core but some core has the space, the core, or the cluster, that needs the fewest bytes moved begins to move one
block. -/
def execCompactorMove (launch stage : Nat) (s : State) : Host.Outcome State Fault Refusal :=
  match AMap.find? s.launches launch with
  | none => .next s
  | some l =>
    match l.stages[stage]? with
    | none => .next s
    | some r =>
      let x := stageAt (s.imageBytes l) stage
      match s.movingOn (r.cores ++ r.leaving) with
      | some (bk, b, y) =>
        match b.moving with
        | some new => .next (s.endMove bk b y new)
        | none => .next s
      | none =>
        if !l.issues || l.descheduled || (s.nextBlock l stage r).isNone then .next s
        else if x.quad then
          if (s.clusterFor r x).isSome then .next s
          else
            let costs := r.clusters.filterMap fun k =>
              let cs := (span (4 * k) 4).map (s.compactCost x)
              if cs.all Option.isSome then some (k, (cs.map fun c => c.getD 0).foldl (· + ·) 0) else none
            match cheapest costs with
            | some k =>
              match (span (4 * k) 4).find? fun c => (s.fits c x).isNone with
              | some c => .next (s.beginMove x c)
              | none => .next s
            | none => .next s
        else if (s.coreFor r x).isSome then .next s
        else
          match cheapest (r.cores.filterMap fun c => (s.compactCost x c).map fun n => (c, n)) with
          | some c => .next (s.beginMove x c)
          | none => .next s

/-- The fill of an internal queue, as a fraction of its capacity (08 R196). -/
def State.fill (s : State) (l : Launch) (i : Nat) : Rat :=
  let d := (sectionBytes (s.imageBytes l) 2).drop (32 * i)
  match s.homeOf (s.launchSpace l) (field l.params (8 * field d 8 2) 8) with
  | .ok (pa, t) => ((t.queue pa).count : Rat) / ((t.queue pa).cap : Rat)
  | .error _ => 0

/-- The core cycles of 64 µs, after which a stage scheduler decides again (08 R196). -/
def rebalancePeriod : Nat := 67200

/-- Sums the fills of the queues of every launch with two or more stages over the core cycles since they were last
summed, each as it stands now (08 R196; log entry 41). -/
def State.sumFills (s : State) : State :=
  let n := s.cycle - s.filledAt
  if n = 0 ∨ !s.launches.any fun e => decide (2 ≤ e.2.stages.length) then { s with filledAt := s.cycle }
  else { s with
    filledAt := s.cycle
    launches := s.launches.map fun (e : Nat × Launch) =>
      (e.1, if e.2.stages.length < 2 then e.2
        else { e.2 with fills := (span 0 ((sectionBytes (s.imageBytes e.2) 2).length / 32)).map fun i =>
          e.2.fills.getD i 0 + (n : Rat) * s.fill e.2 i }) }

/-- The mean fill of a queue since the last decision (08 R196); at the instant of one, the fill. -/
def State.meanFill (s : State) (l : Launch) (i : Nat) : Rat :=
  if s.filledAt ≤ l.decidedAt then s.fill l i else l.fills.getD i 0 / ((s.filledAt - l.decidedAt : Nat) : Rat)

/-- σ of a stage (08 R196). -/
def State.sigma (s : State) (l : Launch) (stage : Nat) : Rat :=
  let bs := sectionBytes (s.imageBytes l) 2
  let mean (off : Nat) (empty : Rat) : Rat :=
    let qs := (span 0 (bs.length / 32)).filter fun i =>
      field bs (32 * i) 1 == 0 && field bs (32 * i + off) 1 == stage
    if qs.isEmpty then empty else (qs.map (s.meanFill l)).foldl (· + ·) 0 / (qs.length : Rat)
  mean 3 1 - mean 2 0

/-- The stage of a list with the greatest value, the lower index on a tie. -/
def bestStage (f : Nat → Rat) : List Nat → Option Nat
  | [] => none
  | i :: is => some (is.foldl (fun m x => if f m < f x then x else m) i)

/-- The move that σ calls for (08 R196): donor, recipient. -/
def State.wantedMove (s : State) (l : Launch) : Option (Nat × Nat) :=
  let img := s.imageBytes l
  let all := span 0 l.stages.length
  let cores (i : Nat) : Nat := ((l.stages[i]?).map fun r => r.cores.length).getD 0
  let step (i j : Nat) : Nat := if (stageAt img i).quad || (stageAt img j).quad then 4 else 1
  let takes := all.filter fun i =>
    decide (cores i < (stageAt img i).maxCores)
      && (match l.stages[i]? with
        | some r => (s.nextBlock l i r).isSome
        | none => false)
  match bestStage (s.sigma l) takes with
  | none => none
  | some i =>
    let gives := all.filter fun j => j != i && decide ((stageAt img j).minCores < cores j)
    match bestStage (fun j => - s.sigma l j) gives with
    | none => none
    | some j =>
      let n := step i j
      if (1 / 4 : Rat) ≤ s.sigma l i - s.sigma l j ∧ (stageAt img j).minCores + n ≤ cores j
          ∧ cores i + n ≤ (stageAt img i).maxCores then some (j, i) else none

/-- STAGE_REBALANCE (08 R196, R197): every 64 µs the stage scheduler decides on at most one move; a pending one that is no
longer called for is dropped. -/
def execStageRebalance (launch : Nat) (s : State) : Host.Outcome State Fault Refusal :=
  match AMap.find? s.launches launch with
  | none => .next s
  | some l =>
    .next (if l.issues && !l.descheduled && decide (2 ≤ l.stages.length)
        && decide (l.decidedAt + rebalancePeriod ≤ s.cycle) then
      s.updLaunch launch fun l => { l with move := s.wantedMove l, decidedAt := s.cycle, fills := [] } else s)

/-- The first core, or whole cluster, of a donor whose blocks can all be saved now (08 R197). -/
def State.donorCores (s : State) (r : StageRun) (cluster : Bool) : Option (List Nat) :=
  let free (c : Nat) : Bool := (s.coreBlocks c).all fun e => s.evictable e.1 e.2.1
  if cluster then
    (r.clusters.find? fun k => (span (4 * k) 4).all free).map fun k => span (4 * k) 4
  else (r.cores.find? free).map fun c => [c]

/-- Numbers in increasing order. -/
def insertNat (n : Nat) : List Nat → List Nat
  | [] => [n]
  | x :: xs => if n < x then n :: x :: xs else x :: insertNat n xs

/-- STAGE_CORE_MOVE (08 R197): the donor's blocks on the core are evicted and stay with the donor; the core goes
to the recipient. A donor that has come to its minimum meanwhile gives none (02 R50). -/
def execStageCoreMove (launch : Nat) (s : State) : Host.Outcome State Fault Refusal :=
  match AMap.find? s.launches launch with
  | none => .next s
  | some l =>
    match l.move with
    | none => .next s
    | some (donor, recipient) =>
      match l.stages[donor]?, l.stages[recipient]? with
      | some r, some r' =>
        let img := s.imageBytes l
        match s.donorCores r ((stageAt img donor).quad || (stageAt img recipient).quad) with
        | none => .next s
        | some cs =>
          if r.cores.length < (stageAt img donor).minCores + cs.length
              ∨ (stageAt img recipient).maxCores < r'.cores.length + cs.length then .next s
          else
            let t := cs.foldl (fun (t : State) c =>
              (t.coreBlocks c).foldl (fun (t : State) e => t.evict e.1) t) s
            let t := t.updStage launch donor fun r =>
              { r with cores := r.cores.filter fun c => !cs.contains c }
            let t := t.updStage launch recipient fun r => { r with cores := cs.foldr insertNat r.cores }
            .next (t.updLaunch launch fun l => { l with move := none })
      | _, _ => .next s

end Sys2Proof.Machine
end

