-- ==== Sys2Proof/Machine/Crypto.lean ====
section
/-! DEFINITION. The digest and the signature check that the spec names: SHA-512 and ECDSA over P-521 with SHA-512 (03
R75; 06 R136; 14 R307, R308). The spec names the two and their byte formats; their constants and steps are those of the
public standards (PRESUMED, log entry 69). -/

namespace Sys2Proof.Machine

/-- A byte string as a number, first byte most significant. -/
def beNat (bs : List Byte) : Nat := bs.foldl (fun n b => 256 * n + b.toNat) 0

/-- The `n` low bytes of a number, the most significant first. -/
def beBytes : Nat → Nat → List Byte
  | 0, _ => []
  | n + 1, x => beBytes n (x / 256) ++ [BitVec.ofNat 8 x]

/-- The initial hash value. -/
def shaInit : List Word :=
  [0x6a09e667f3bcc908, 0xbb67ae8584caa73b, 0x3c6ef372fe94f82b, 0xa54ff53a5f1d36f1,
   0x510e527fade682d1, 0x9b05688c2b3e6c1f, 0x1f83d9abfb41bd6b, 0x5be0cd19137e2179]

/-- The round constants. -/
def shaRound : List Word :=
  [0x428a2f98d728ae22, 0x7137449123ef65cd, 0xb5c0fbcfec4d3b2f, 0xe9b5dba58189dbbc,
   0x3956c25bf348b538, 0x59f111f1b605d019, 0x923f82a4af194f9b, 0xab1c5ed5da6d8118,
   0xd807aa98a3030242, 0x12835b0145706fbe, 0x243185be4ee4b28c, 0x550c7dc3d5ffb4e2,
   0x72be5d74f27b896f, 0x80deb1fe3b1696b1, 0x9bdc06a725c71235, 0xc19bf174cf692694,
   0xe49b69c19ef14ad2, 0xefbe4786384f25e3, 0x0fc19dc68b8cd5b5, 0x240ca1cc77ac9c65,
   0x2de92c6f592b0275, 0x4a7484aa6ea6e483, 0x5cb0a9dcbd41fbd4, 0x76f988da831153b5,
   0x983e5152ee66dfab, 0xa831c66d2db43210, 0xb00327c898fb213f, 0xbf597fc7beef0ee4,
   0xc6e00bf33da88fc2, 0xd5a79147930aa725, 0x06ca6351e003826f, 0x142929670a0e6e70,
   0x27b70a8546d22ffc, 0x2e1b21385c26c926, 0x4d2c6dfc5ac42aed, 0x53380d139d95b3df,
   0x650a73548baf63de, 0x766a0abb3c77b2a8, 0x81c2c92e47edaee6, 0x92722c851482353b]
  ++ [0xa2bfe8a14cf10364, 0xa81a664bbc423001, 0xc24b8b70d0f89791, 0xc76c51a30654be30,
      0xd192e819d6ef5218, 0xd69906245565a910, 0xf40e35855771202a, 0x106aa07032bbd1b8,
      0x19a4c116b8d2d0c8, 0x1e376c085141ab53, 0x2748774cdf8eeb99, 0x34b0bcb5e19b48a8,
      0x391c0cb3c5c95a63, 0x4ed8aa4ae3418acb, 0x5b9cca4f7763e373, 0x682e6ff3d6b2b8a3,
      0x748f82ee5defb2fc, 0x78a5636f43172f60, 0x84c87814a1f0ab72, 0x8cc702081a6439ec,
      0x90befffa23631e28, 0xa4506cebde82bde9, 0xbef9a3f7b2c67915, 0xc67178f2e372532b,
      0xca273eceea26619c, 0xd186b8c721c0c207, 0xeada7dd6cde0eb1e, 0xf57d4f7fee6ed178,
      0x06f067aa72176fba, 0x0a637dc5a2c898a6, 0x113f9804bef90dae, 0x1b710b35131c471b,
      0x28db77f523047d84, 0x32caab7b40c72493, 0x3c9ebe0a15c9bebc, 0x431d67c49c100d4c,
      0x4cc5d4becb3e42b6, 0x597f299cfc657e2a, 0x5fcb6fab3ad6faec, 0x6c44198c4a475817]

/-- The message padded to whole blocks of 128 bytes: one bit, zeros, and the length in bits. -/
def shaPad (m : List Byte) : List Byte :=
  m ++ [0x80] ++ List.replicate ((239 - m.length % 128) % 128) 0 ++ beBytes 16 (8 * m.length)

/-- A byte string as big-endian 64-bit words; `n` is at least their number. -/
def beWords : Nat → List Byte → List Word
  | 0, _ => []
  | n + 1, bs => if bs = [] then [] else BitVec.ofNat 64 (beNat (bs.take 8)) :: beWords n (bs.drop 8)

/-- The message schedule, its latest word first, after `n` more words. -/
def shaSchedule : Nat → List Word → List Word
  | 0, ws => ws
  | n + 1, ws =>
    let w (i : Nat) : Word := ws.getD (i - 1) 0
    let s0 := (w 15).rotateRight 1 ^^^ (w 15).rotateRight 8 ^^^ w 15 >>> 7
    let s1 := (w 2).rotateRight 19 ^^^ (w 2).rotateRight 61 ^^^ w 2 >>> 6
    shaSchedule n ((s1 + w 7 + s0 + w 16) :: ws)

/-- One round on the eight working words. -/
def shaStep (v : List Word) (kw : Word) : List Word :=
  match v with
  | [a, b, c, d, e, f, g, h] =>
    let t1 := h + (e.rotateRight 14 ^^^ e.rotateRight 18 ^^^ e.rotateRight 41) + (e &&& f ^^^ ~~~e &&& g) + kw
    let t2 := (a.rotateRight 28 ^^^ a.rotateRight 34 ^^^ a.rotateRight 39) + (a &&& b ^^^ a &&& c ^^^ b &&& c)
    [t1 + t2, a, b, c, d + t1, e, f, g]
  | _ => v

/-- One block of 128 bytes into the hash value. -/
def shaBlock (h : List Word) (block : List Byte) : List Word :=
  let ws := (shaSchedule 64 (beWords 16 block).reverse).reverse
  List.zipWith (· + ·) h ((List.zipWith (· + ·) shaRound ws).foldl shaStep h)

/-- The blocks of a padded message, at most `n`. -/
def shaBlocks : Nat → List Word → List Byte → List Word
  | 0, h, _ => h
  | n + 1, h, bs => if bs = [] then h else shaBlocks n (shaBlock h (bs.take 128)) (bs.drop 128)

/-- SHA-512: the 64 bytes of the digest. -/
def sha512 (m : List Byte) : List Byte :=
  let bs := shaPad m
  (shaBlocks bs.length shaInit bs).flatMap fun w => beBytes 8 w.toNat

/-- A number written in pieces of 128 bits, the most significant first. -/
def limbs (xs : List Nat) : Nat := xs.foldl (fun n x => n * 2 ^ 128 + x) 0

/-- The field, the order, the coefficient and the generator of P-521. -/
def p521Field : Nat := 2 ^ 521 - 1
def p521Order : Nat :=
  limbs [0x1ff, 0xffffffffffffffffffffffffffffffff, 0xfffffffffffffffffffffffffffffffa,
    0x51868783bf2f966b7fcc0148f709a5d0, 0x3bb5c9b8899c47aebb6fb71e91386409]
def p521B : Nat :=
  limbs [0x51, 0x953eb9618e1c9a1f929a21a0b68540ee, 0xa2da725b99b315f3b8b489918ef109e1,
    0x56193951ec7e937b1652c0bd3bb1bf07, 0x3573df883d2c34f1ef451fd46b503f00]
def p521Gx : Nat :=
  limbs [0xc6, 0x858e06b70404e9cd9e3ecb662395b442, 0x9c648139053fb521f828af606b4d3dba,
    0xa14b5e77efe75928fe1dc127a2ffa8de, 0x3348b3c1856a429bf97e7e31c2e5bd66]
def p521Gy : Nat :=
  limbs [0x118, 0x39296a789a3bc0045c8a5fb42c7d1bd9, 0x98f54449579b446817afbd17273e662c,
    0x97ee72995ef42640c550b9013fad0761, 0x353c7086a272c24088be94769fd16650]

/-- `b` to the power of the low `n` bits of `e`, modulo `m`. -/
def powMod (m b : Nat) : Nat → Nat → Nat
  | 0, _ => 1
  | n + 1, e =>
    let h := powMod m b n (e / 2)
    h * h * (if e % 2 = 1 then b else 1) % m

/-- The inverse modulo a prime of 521 bits. -/
def invMod (m x : Nat) : Nat := powMod m x 521 (m - 2)

/-- The sum of two points of the curve; `none` is the point at infinity. -/
def addPoints : Option (Nat × Nat) → Option (Nat × Nat) → Option (Nat × Nat)
  | none, q => q
  | p, none => p
  | some (x1, y1), some (x2, y2) =>
    let f := p521Field
    if x1 = x2 ∧ (y1 + y2) % f = 0 then none
    else
      let slope :=
        if x1 = x2 then (3 * x1 * x1 + (f - 3)) * invMod f (2 * y1 % f) % f
        else (y2 + (f - y1)) * invMod f ((x2 + (f - x1)) % f) % f
      let x := (slope * slope + (f - x1) + (f - x2)) % f
      some (x, (slope * (x1 + (f - x)) + (f - y1)) % f)

/-- The multiple of a point by the low `n` bits of a number. -/
def mulPoint (p : Option (Nat × Nat)) : Nat → Nat → Option (Nat × Nat)
  | 0, _ => none
  | n + 1, k =>
    let h := mulPoint p n (k / 2)
    let d := addPoints h h
    if k % 2 = 1 then addPoints d p else d

/-- A public key of 133 bytes, uncompressed: 04, x, y (14 Table 14.3). -/
def publicKey (key : List Byte) : Option (Nat × Nat) :=
  let x := beNat ((key.drop 1).take 66)
  let y := beNat (key.drop 67)
  if key.length = 133 ∧ key.headD 0 = 4 ∧ x < p521Field ∧ y < p521Field
      ∧ (y * y + 3 * x) % p521Field = (x * x * x + p521B) % p521Field then some (x, y)
  else none

/-- Whether a signature of 132 bytes, r and s (06 Table 6.3), verifies over a digest under a public key. -/
def ecdsaOk (key digest sig : List Byte) : Bool :=
  match publicKey key with
  | none => false
  | some q =>
    let r := beNat (sig.take 66)
    let s := beNat ((sig.drop 66).take 66)
    if r = 0 ∨ p521Order ≤ r ∨ s = 0 ∨ p521Order ≤ s then false
    else
      let w := invMod p521Order s
      let u1 := beNat digest * w % p521Order
      let u2 := r * w % p521Order
      match addPoints (mulPoint (some (p521Gx, p521Gy)) 521 u1) (mulPoint (some q) 521 u2) with
      | none => false
      | some p => p.1 % p521Order == r

/-- The identity of this device in an election: bytes 0 to 7 of the digest of its identity public key, the first most
significant (14 R308). -/
def identity : Nat := beNat ((sha512 Config.identityKey).take 8)

end Sys2Proof.Machine
end

