-- ==== Sys2Proof/Machine/Scheduler.lean ====
section
/-! DEFINITION. The schedulers above the placer: grants of cores to interfaces and contexts, the cores that a
launch's stages hold, and the hardware queue slots (08 R186 to R195). -/

namespace Sys2Proof.Machine

/-- SCH_VI as it acts (08 Table 8.3). -/
def Iface.cores (v : Iface) : Nat := min 1536 (bitsOf v.schVi.toNat 32 11)
def Iface.weight (v : Iface) : Nat := max 1 (bitsOf v.schVi.toNat 8 16)
def Iface.prio (v : Iface) : Nat := bitsOf v.schVi.toNat 0 3

/-- SCH_POLICY as it acts (08 Table 8.2): the quantum in core cycles, and the aging threshold. -/
def State.quantum (s : State) : Nat := max 10 (bitsOf s.schPolicy.toNat 16 16) * 1050
def State.agingLimit (s : State) : Nat := max 1 (bitsOf s.schPolicy.toNat 0 8)

/-- The effective priority of a context, and of a launch queue, which a launch of it that stands in the way of a
higher one raises until it ends (08 R190). A launch waits under 06 R145 only for launches of its own context, whose
effective priority is no lower. -/
def State.contextPrio (s : State) (x : Context) : Nat := min x.prio (s.iface x.vi).prio
def State.queuePrio (s : State) (lq : Nat) (q : LaunchQueue) : Nat :=
  let own := match s.context q.vi q.ctx with
    | some x => min q.prio (s.contextPrio x)
    | none => 0
  s.launches.foldl (fun m (e : Nat × Launch) => if e.2.lq = lq then max m e.2.prio else m) own

/-- The effective priority of a launch, that of its queue. -/
def State.launchPrio (s : State) (l : Launch) : Nat :=
  match AMap.find? s.queues l.lq with
  | some q => s.queuePrio l.lq q
  | none => l.prio

/-- Whether a launch's claims are in U, and it may hold cores (06 R145). -/
def LState.inU : LState → Bool
  | .bound | .overflowed | .irrevocable | .completed | .aborting => true
  | _ => false

/-- The tensor entries of an image: handle index and descriptor (06 Table 6.3). -/
def tensorEntries (img : List Byte) : List (Nat × List Byte) :=
  let bs := sectionBytes img 5
  (span 0 (bs.length / 72)).map fun i => (field bs (72 * i) 2, (bs.drop (72 * i + 8)).take 64)

/-- Whether a line of a range lies in a transactional range (06 R145). -/
def transactional (attrs : List Attr) (hi : Nat) : Nat → Nat → Bool
  | 0, lo => decide (lo < hi)
  | f + 1, lo =>
    if hi ≤ lo then false
    else
      match attrs.find? fun a => decide (a.lo ≤ lo) && decide (lo < a.hi) && isImmediate a.flags.toNat with
      | some a => transactional attrs hi f a.hi
      | none => true

/-- Whether claims of two launches overlap on a transactional line, one of them written. -/
def conflicts (attrs : List Attr) (a b : List Claim) : Bool :=
  a.any fun c => b.any fun d =>
    (d.wr || c.wr) && (let lo := max c.lo d.lo
      let hi := min c.hi d.hi
      decide (lo < hi) && transactional attrs hi (attrs.length + 1) lo)

/-- Whether two launches hold one tensor handle with different descriptors (06 R145). -/
def State.handleClash (s : State) (a b : Launch) : Bool :=
  (tensorEntries (s.imageBytes a)).any fun e =>
    (tensorEntries (s.imageBytes b)).any fun f => e.1 == f.1 && e.2 != f.2

/-- Whether a launch in U comes after another in its launch queue, as only a replay can find it: its tensor handles do
not hold the replay (06 R152). -/
def Launch.follows (u l : Launch) : Bool := u.lq == l.lq && decide (l.seq < u.seq)

/-- Whether a launch must wait for another that is in U (06 R145, R152). -/
def State.mustWait (s : State) (l u : Launch) : Bool :=
  u.vi == l.vi && u.ctx == l.ctx && u.st.inU
    && (conflicts l.attrs l.claims u.claims || (s.handleClash l u && !u.follows l))

/-- The draft keys of an image's code sections (03 R75), one for each stage. -/
def draftKeys (img : List Byte) : List (List Byte) :=
  (span 0 (stageCount img)).map fun i =>
    sha512 (codeOf img i ++ sectionBytes img 7 ++ leBytes 4 Config.stepping)

/-- The draft of a key. -/
def State.draftOf (s : State) (key : List Byte) : Option (Nat × Draft) :=
  List.find? (fun (e : Nat × Draft) => e.2.key == key) s.drafts

/-- Whether every draft of a launch exists; a replay keeps the generations it was bound to (06 R152). -/
def State.draftsReady (s : State) (l : Launch) : Bool :=
  (draftKeys (s.imageBytes l)).all fun k => match s.draftOf k with
    | some d => d.2.ready
    | none => false

/-- Whether an earlier record of the queue is not bound yet (06 R143). -/
def State.heldBack (s : State) (l : Launch) : Bool :=
  s.launches.any fun e => e.2.lq == l.lq && decide (e.2.seq < l.seq)
    && (e.2.st == .waitEligible || e.2.st == .checking || e.2.st == .waiting)

/-- The cores that a launch holds, and those it still gives up. -/
def Launch.cores (l : Launch) : List Nat := l.stages.flatMap fun r => r.cores
def Launch.allCores (l : Launch) : List Nat := l.stages.flatMap fun r => r.cores ++ r.leaving

/-- The launches of a context. -/
def State.launchesOf (s : State) (vi ctx : Nat) : AMap Launch :=
  AMap.keep (fun _ l => l.vi == vi && l.ctx == ctx) s.launches

/-- The number of cores that a context's launches hold. -/
def State.heldCores (s : State) (vi ctx : Nat) : Nat :=
  ((s.launchesOf vi ctx).map fun e => e.2.cores.length).foldl (· + ·) 0

/-- The cores of the device that no launch holds, in increasing number. -/
def State.freeCores (s : State) : List Nat :=
  let used := s.launches.flatMap fun e => e.2.allCores
  (span 0 1536).filter fun c => !used.contains c

/-- The free granted cores of a context (08 R193). -/
def State.freeGranted (s : State) (x : Context) : Nat :=
  min (x.grant - s.heldCores x.vi x.num) s.freeCores.length

/-- What a launch's stages ask for: minimum, maximum, weight, co-residency. -/
def State.stageNeeds (s : State) (l : Launch) : List (Nat × Nat × Nat × Bool) :=
  (span 0 (stageCount (s.imageBytes l))).map fun i =>
    let x := stageAt (s.imageBytes l) i
    (x.minCores, x.maxCores, x.weight, x.quad)

def minima (ns : List (Nat × Nat × Nat × Bool)) : Nat := (ns.map fun e => e.1).foldl (· + ·) 0

/-- Step 3 of 08 R194: cores left go one at a time, or one cluster at a time, in increasing stage index. -/
def roundRobin (ns : List (Nat × Nat × Nat × Bool)) : Nat → List Nat → Nat → List Nat
  | 0, cs, _ => cs
  | f + 1, cs, left =>
    let step (acc : List Nat × Nat) (e : (Nat × Nat × Nat × Bool) × Nat) : List Nat × Nat :=
      let k := if e.1.2.2.2 then 4 else 1
      if k ≤ acc.2 ∧ e.2 + k ≤ e.1.2.1 then (acc.1 ++ [e.2 + k], acc.2 - k) else (acc.1 ++ [e.2], acc.2)
    let r := (ns.zip cs).foldl step ([], left)
    if r.2 = left then cs else roundRobin ns f r.1 r.2

/-- The cores each stage receives of `n` (08 R194). -/
def stageShares (ns : List (Nat × Nat × Nat × Bool)) (n : Nat) : List Nat :=
  let rest := n - minima ns
  let weights := (ns.map fun e => e.2.2.1).foldl (· + ·) 0
  let second := ns.map fun e =>
    let k := min (e.2.1 - e.1) (rest * e.2.2.1 / weights)
    e.1 + (if e.2.2.2 then k / 4 * 4 else k)
  roundRobin ns 1536 second (n - second.foldl (· + ·) 0)

/-- Whole free clusters, as many as `n` cores. -/
def takeClusters (free : List Nat) (n : Nat) : List Nat :=
  let whole := (span 0 384).filter fun k => (span (4 * k) 4).all fun c => free.contains c
  (whole.take (n / 4)).flatMap fun k => span (4 * k) 4

/-- The cores of each stage, co-residency stages first (08 R195); none when whole clusters are lacking. -/
def assignCores (free : List Nat) (wants : List (Nat × Bool)) : Option (List (List Nat)) :=
  let quads := wants.foldl (fun (acc : List Nat × List (List Nat)) w =>
    let cs := if w.2 then takeClusters acc.1 w.1 else []
    (acc.1.filter fun c => !cs.contains c, acc.2 ++ [cs])) (free, [])
  let all := (wants.zip quads.2).foldl (fun (acc : List Nat × List (List Nat)) w =>
    if w.1.2 then (acc.1, acc.2 ++ [w.2])
    else (acc.1.drop w.1.1, acc.2 ++ [acc.1.take w.1.1])) (quads.1, [])
  if (wants.zip all.2).all fun w => w.2.length == w.1.1 then some all.2 else none

/-- The cores that a launch's stages would take now, when every stage can hold its minimum (08 R193 to
R195). -/
def State.coresFor (s : State) (l : Launch) : Option (List (List Nat)) :=
  match s.context l.vi l.ctx with
  | none => none
  | some x =>
    let ns := s.stageNeeds l
    let f := s.freeGranted x
    if f < minima ns then none
    else
      let n := min f ((ns.map fun e => e.2.1).foldl (· + ·) 0)
      assignCores s.freeCores ((stageShares ns n).zip (ns.map fun e => e.2.2.2))

/-- Marks the blocks of a launch on cores for eviction (12 R272 step 1). -/
def State.markCores (s : State) (lk : Nat) (cs : List Nat) : State :=
  let blocks : AMap Block := s.blocks.map fun (e : Nat × Block) =>
    (e.1, if e.2.launch = lk ∧ e.2.onCore ∧ cs.contains e.2.core then { e.2 with evict := true } else e.2)
  { s with blocks }

/-- A launch gives up every core of every stage together (08 R190). -/
def State.deschedule (s : State) (lk : Nat) : State :=
  match AMap.find? s.launches lk with
  | none => s
  | some l =>
    let t := s.markCores lk l.cores
    (t.updLaunch lk fun l =>
      { l with descheduled := true, move := none
               stages := l.stages.map fun r => { r with cores := [], leaving := r.leaving ++ r.cores } })
      |>.dropLeaving lk

/-- Takes one core, or one cluster, from a launch (08 R190): from the stage above its minimum with the smallest
σ; when there is none the launch is descheduled. -/
def State.takeCore (s : State) (lk : Nat) (l : Launch) : State :=
  let img := s.imageBytes l
  let able := (span 0 l.stages.length).filter fun i =>
    let n := ((l.stages[i]?).map fun r => r.cores.length).getD 0
    let x := stageAt img i
    decide (x.minCores + (if x.quad then 4 else 1) ≤ n)
  match bestStage (fun i => - s.sigma l i) able with
  | none => s.deschedule lk
  | some i =>
    match l.stages[i]? with
    | none => s
    | some r =>
      let cs := if (stageAt img i).quad then
          match r.clusters with
          | k :: _ => span (4 * k) 4
          | [] => []
        else r.cores.take 1
      ((s.markCores lk cs).updStage lk i fun r =>
        { r with cores := r.cores.filter fun c => !cs.contains c, leaving := r.leaving ++ cs }).dropLeaving lk

/-- The launch of a context with the highest LSN that holds cores. -/
def State.youngest (s : State) (vi ctx : Nat) : Option (Nat × Launch) :=
  match (s.launchesOf vi ctx).filter fun (e : Nat × Launch) => !e.2.cores.isEmpty with
  | [] => none
  | e :: es => some (es.foldl (fun (m x : Nat × Launch) => if m.2.lsn < x.2.lsn then x else m) e)

/-- Takes cores from a context until it holds no more than its grant. -/
def State.shed (s : State) (vi ctx : Nat) : Nat → State
  | 0 => s
  | f + 1 =>
    match s.context vi ctx, s.youngest vi ctx with
    | some x, some (lk, l) =>
      if s.heldCores vi ctx ≤ x.grant then s else (s.takeCore lk l).shed vi ctx f
    | _, _ => s

/-- An entity of 08 R187. -/
structure Share where
  id : Nat
  prio : Nat
  weight : Nat
  limit : Nat
  grant : Nat := 0
  deficit : Rat := 0
  deriving DecidableEq, Repr

/-- The entities of a priority that may gain a core. -/
def Share.open (p : Nat) (e : Share) : Bool := e.prio == p && decide (e.grant < e.limit)

/-- One pass of 08 R187 over the entities of a priority; answers what is left. As the procedure states it, a pass may
grant more than was left at its start, by the fractions that entities carry. -/
def grantPass (p : Nat) (es : List Share) (avail : Nat) : List Share × Nat :=
  let total : Nat := ((es.filter (Share.open p)).map fun e => e.weight).foldl (· + ·) 0
  es.foldl (fun (acc : List Share × Nat) e =>
    if e.open p then
      let t : Rat := (avail : Rat) * e.weight / total + e.deficit
      let g := min t.floor.toNat (e.limit - e.grant)
      let d : Rat := if (g : Int) = t.floor then t - t.floor else 0
      (acc.1 ++ [{ e with grant := e.grant + g, deficit := d }], acc.2 - g)
    else (acc.1 ++ [e], acc.2)) ([], avail)

/-- The entity of largest deficit that may gain a core, the lower number on a tie. -/
def neediest (p : Nat) (es : List Share) : Option Nat :=
  match es.filter (Share.open p) with
  | [] => none
  | e :: r =>
    some (r.foldl (fun (m x : Share) => if m.deficit < x.deficit then x else m) e).id

/-- The passes of one priority. -/
def grantPrio (p : Nat) : Nat → List Share → Nat → List Share × Nat
  | 0, es, avail => (es, avail)
  | f + 1, es, avail =>
    if avail = 0 ∨ !es.any (Share.open p) then (es, avail)
    else
      let r := grantPass p es avail
      if r.2 < avail then grantPrio p f r.1 r.2
      else
        match neediest p r.1 with
        | some i =>
          grantPrio p f
            (r.1.map fun e => if e.id = i then { e with grant := e.grant + 1, deficit := 0 } else e)
            (avail - 1)
        | none => (r.1, avail)

/-- The grants of 08 R187. -/
def grantAll (es : List Share) (avail : Nat) : List Share × Nat :=
  (span 0 8).foldl (fun acc i => grantPrio (7 - i) 1600 acc.1 acc.2) (es, avail)

/-- Whether a bound launch has a block that no core of its stage can take (08, "Level 1"). -/
def State.lacksCores (s : State) (l : Launch) : Bool :=
  l.issues && (span 0 l.stages.length).any fun i =>
    match l.stages[i]? with
    | some r =>
      let x := stageAt (s.imageBytes l) i
      (s.nextBlock l i r).isSome
        && (l.descheduled || (if x.quad then (s.clusterFor r x).isNone else (s.coreFor r x).isNone))
    | none => false

/-- Whether a launch waits for cores alone, at step 7 of 06 R144. -/
def State.atStep7 (s : State) (l : Launch) : Bool :=
  l.st == .waiting && l.checked && !s.heldBack l && s.draftsReady l
    && s.launches.all (fun e => !s.mustWait l e.2) && decide (s.versions.length < 4096)

/-- The cores that a launch could use: its stages' maxima while it lacks cores or waits for them, else what it
holds (log entry 42). -/
def State.launchDemand (s : State) (l : Launch) : Nat :=
  if s.atStep7 l ∨ s.lacksCores l then
    ((s.stageNeeds l).map fun e => e.2.1).foldl (· + ·) 0
  else l.cores.length

/-- Whether a context has demand, and its demand in cores. -/
def State.hasDemand (s : State) (x : Context) : Bool :=
  (s.launchesOf x.vi x.num).any fun e => s.atStep7 e.2 || s.lacksCores e.2
def State.demand (s : State) (x : Context) : Nat :=
  ((s.launchesOf x.vi x.num).map fun e => s.launchDemand e.2).foldl (· + ·) 0

/-- The contexts of an interface. -/
def State.contextsOf (s : State) (vi : Nat) : List Context :=
  (s.contexts.filter fun (e : Nat × Context) => e.2.vi == vi).map fun e => e.2

/-- The interfaces that have contexts. -/
def State.activeIfaces (s : State) : List Nat := distinct (fun i => i) (s.contexts.map fun e => e.1 / 512)

/-- Grants within an interface: contexts with demand by 08 R187, the others keep what they hold while cores are
left. -/
def State.grantContexts (s : State) (vi avail : Nat) : State :=
  let xs := s.contextsOf vi
  let r := grantAll ((xs.filter s.hasDemand).map fun x =>
    { id := x.num, prio := s.contextPrio x, weight := x.weight, limit := s.demand x, deficit := x.deficit })
    avail
  let t := r.1.foldl (fun (t : State) e => t.updContext vi e.id fun x =>
    { x with grant := e.grant, deficit := e.deficit }) s
  ((xs.filter fun x => !s.hasDemand x).foldl (fun (acc : State × Nat) x =>
    let g := min (s.heldCores vi x.num) acc.2
    (acc.1.updContext vi x.num fun x => { x with grant := g }, acc.2 - g)) (t, r.2)).1

/-- SLICE_BOUNDARY (08 R187 to R190): cores are granted to interfaces and contexts, and contexts above their
grant give cores up. -/
def State.sliceBoundary (s : State) : State :=
  let vis := s.activeIfaces
  let wants (vi : Nat) : Bool := (s.contextsOf vi).any s.hasDemand
  let limit (vi : Nat) : Nat :=
    min (s.iface vi).cores (((s.contextsOf vi).map s.demand).foldl (· + ·) 0)
  let held (vi : Nat) : Nat := ((s.contextsOf vi).map fun x => s.heldCores vi x.num).foldl (· + ·) 0
  let r := grantAll ((vis.filter wants).map fun vi =>
    { id := vi, prio := (s.iface vi).prio, weight := (s.iface vi).weight, limit := limit vi
      deficit := (s.iface vi).deficit }) 1536
  let t := r.1.foldl (fun (t : State) e => t.updIface e.id fun v =>
    { v with grant := e.grant, deficit := e.deficit }) s
  let t := ((vis.filter fun vi => !wants vi).foldl (fun (acc : State × Nat) vi =>
    let g := min (min (held vi) (s.iface vi).cores) acc.2
    (acc.1.updIface vi fun v => { v with grant := g }, acc.2 - g)) (t, r.2)).1
  let t := vis.foldl (fun (t : State) vi => t.grantContexts vi (t.iface vi).grant) t
  t.contexts.foldl (fun (t : State) e => t.shed e.2.vi e.2.num 1536) t

/-- A descheduled launch takes its cores back when every stage can hold its minimum (08 R190). -/
def State.resumeLaunch (s : State) (lk : Nat) : State :=
  match AMap.find? s.launches lk with
  | none => s
  | some l =>
    match s.coresFor l with
    | some cs =>
      if l.issues && l.descheduled then
        s.updLaunch lk fun l =>
          { l with descheduled := false
                   stages := (l.stages.zip cs).map fun e => { e.1 with cores := e.2 } }
      else s
    | none => s

/-- At a slice boundary cores are granted anew, and descheduled launches resume where they can (08 R187, 24 R480). -/
def execSliceBoundary (s : State) : Host.Outcome State Fault Refusal :=
  let t := s.sliceBoundary
  .next { t.launches.foldl (fun (t : State) e => t.resumeLaunch e.1) t with sliceAt := s.cycle }

/-- A time slice in core cycles (08 Table 8.2). -/
def State.slice (s : State) : Nat := max 100 (bitsOf s.schPolicy.toNat 32 16) * 1050

/-- How far a holder stands above its share by weight of what priorities above its own leave (08 R187, R189). Each of
`all` is priority, weight, grant. -/
def excessOf (all : List (Nat × Nat × Nat)) (avail : Nat) (e : Nat × Nat × Nat) : Rat :=
  let higher : Nat := ((all.filter fun x => decide (e.1 < x.1)).map fun x => x.2.2).foldl (· + ·) 0
  let total : Nat := ((all.filter fun x => x.1 == e.1).map fun x => x.2.1).foldl (· + ·) 0
  (e.2.2 : Rat) - ((avail - higher : Nat) : Rat) * (e.2.1 : Rat) / (total : Rat)

/-- How far an interface stands above its share of the device, and a context above its share of its interface. -/
def State.ifaceExcess (s : State) (vi : Nat) : Rat :=
  let of (v : Nat) : Nat × Nat × Nat := ((s.iface v).prio, (s.iface v).weight, (s.iface v).grant)
  excessOf (s.activeIfaces.map of) 1536 (of vi)
def State.excess (s : State) (x : Context) : Rat :=
  let of (c : Context) : Nat × Nat × Nat := (s.contextPrio c, c.weight, c.grant)
  excessOf ((s.contextsOf x.vi).map of) (s.iface x.vi).grant (of x)

/-- Whether a context holds cores and every block on them is halted: it keeps them until a slice boundary (08 R190). -/
def State.onlyHalted (s : State) (x : Context) : Bool :=
  let bs := s.blocks.filter fun (e : Nat × Block) => e.2.onCore && (match AMap.find? s.launches e.2.launch with
    | some l => l.vi == x.vi && l.ctx == x.num
    | none => false)
  !bs.isEmpty && bs.all fun (e : Nat × Block) => e.2.st == .halted

/-- How many cores a context can take over from another: any within its interface, else as many as its interface
may still hold. -/
def State.takeable (s : State) (x v : Context) : Nat :=
  if v.vi = x.vi then v.grant else min v.grant ((s.iface x.vi).cores - (s.iface x.vi).grant)

/-- The context that gives cores up to `x` first: of lowest priority below its own, then of the interface furthest
above its share, then itself furthest above it. -/
def State.victim (s : State) (x : Context) : Option Context :=
  match (s.contexts.map fun e => e.2).filter fun v =>
      decide (s.contextPrio v < s.contextPrio x) && decide (0 < s.takeable x v) && !s.onlyHalted v with
  | [] => none
  | e :: es => some (es.foldl (fun m v =>
      if s.contextPrio v < s.contextPrio m then v
      else if s.contextPrio m < s.contextPrio v then m
      else if s.ifaceExcess m.vi < s.ifaceExcess v.vi then v
      else if s.ifaceExcess m.vi = s.ifaceExcess v.vi ∧ s.excess m < s.excess v then v else m) e)

/-- Moves a part of a context's grant to another context, and with it that of their interfaces. -/
def State.moveGrant (s : State) (v x : Context) (k : Nat) : State :=
  let t := (s.updContext v.vi v.num fun c => { c with grant := c.grant - k }).updContext x.vi x.num
    fun c => { c with grant := c.grant + k }
  if v.vi = x.vi then t
  else (t.updIface v.vi fun i => { i with grant := i.grant - k }).updIface x.vi
    fun i => { i with grant := i.grant + k }

/-- Cores that a context without demand holds in its grant but no launch uses go to new demand of any priority
(08 R187; 24 R480); also how many are still needed. -/
def State.takeUnused (s : State) (x : Context) (n : Nat) : State × Nat :=
  s.contexts.foldl (fun (acc : State × Nat) e =>
    let v := e.2
    let k := if s.hasDemand v then 0
      else min (min acc.2 (v.grant - s.heldCores v.vi v.num)) (acc.1.takeable x v)
    (acc.1.moveGrant v x k, acc.2 - k)) (s, n)

/-- Moves grants of lower priorities to a context until it has `n` more, and takes the cores (08 R189). -/
def State.reallocate (s : State) (x : Context) (n : Nat) : Nat → State
  | 0 => s
  | f + 1 =>
    match s.victim x with
    | none => s
    | some v =>
      if n = 0 then s
      else
        let k := min n (s.takeable x v)
        ((s.moveGrant v x k).shed v.vi v.num 1536).reallocate x (n - k) f

/-- New demand of a launch that waits for cores, or lacks them for a block (08 R187, R189): cores not granted to
anyone go to it, then those granted and not used, then cores of lower priorities; never more than the interface may
hold. -/
def State.demandCores (s : State) (l : Launch) : State :=
  match s.context l.vi l.ctx with
  | none => s
  | some x =>
    let v := s.iface x.vi
    let need := s.launchDemand l + s.heldCores x.vi x.num - x.grant
    let spare := 1536 - (s.ifaces.map fun e => e.2.grant).foldl (· + ·) 0
    let slack := v.grant - ((s.contextsOf x.vi).map fun c => c.grant).foldl (· + ·) 0
    let fresh := min (need - min need slack) (min spare (v.cores - v.grant))
    let got := min need (slack + fresh)
    let t := (s.updIface x.vi fun v => { v with grant := v.grant + fresh }).updContext x.vi x.num
      fun c => { c with grant := c.grant + got }
    let r := t.takeUnused x (need - got)
    r.1.reallocate x r.2 512

/-- BLOCK_PLACE (08 R199, R200). A block that no core of its stage can take is demand for cores (08 R189); a
descheduled launch resumes as soon as it may (08 R190). -/
def execBlockPlace (launch stage : Nat) (s : State) : Host.Outcome State Fault Refusal :=
  match AMap.find? s.launches launch with
  | some l => .next (if s.lacksCores l then ((s.demandCores l).resumeLaunch launch).placeNext launch stage
      else s.placeNext launch stage)
  | none => .next s

/-- The records in a launch queue, as its control block says. -/
def State.recordsIn (s : State) (q : LaunchQueue) : Nat :=
  match s.lqAddr q with
  | .ok (pa, _) => (s.queue pa).count
  | .error _ => 0

/-- Whether a launch queue is waiting for a slot (08 R191). -/
def State.queueWaits (s : State) (q : LaunchQueue) : Bool :=
  q.slot.isNone && !q.givenUp && decide (0 < s.recordsIn q)

/-- Whether one waiting queue is served before another: priority, age, registration number. -/
def State.queueBefore (s : State) (a b : Nat × LaunchQueue) : Bool :=
  let p := s.queuePrio a.1 a.2
  let r := s.queuePrio b.1 b.2
  if p ≠ r then decide (r < p) else if a.2.age ≠ b.2.age then decide (b.2.age < a.2.age) else decide (a.1 < b.1)

/-- The first waiting queue that satisfies a test. -/
def State.nextQueue (s : State) (test : LaunchQueue → Bool) : Option (Nat × LaunchQueue) :=
  match s.queues.filter fun (e : Nat × LaunchQueue) => s.queueWaits e.2 && test e.2 with
  | [] => none
  | e :: es => some (es.foldl (fun (m x : Nat × LaunchQueue) => if s.queueBefore x m then x else m) e)

/-- A queue takes a slot. -/
def State.giveSlot (s : State) (lq slot : Nat) : State :=
  { s with queues := AMap.upd s.queues lq fun q =>
      { q with slot := some slot, since := s.cycle, age := 0 } }

/-- Free slots go at once to waiting queues (08 R191). -/
def State.assignSlots (s : State) : Nat → State
  | 0 => s
  | f + 1 =>
    match (span 0 256).find? fun i => s.queues.all fun e => e.2.slot != some i, s.nextQueue fun _ => true with
    | some i, some (lq, _) => (s.giveSlot lq i).assignSlots f
    | _, _ => s

def State.fillSlots (s : State) : State := s.assignSlots s.queues.length

/-- The mapped queue that an eligible one displaces: of equal or lower priority, mapped for a quantum, its last
dequeue oldest; slots already reassigned at this boundary stay. -/
def State.displaced (s : State) (prio : Nat) (done : List Nat) : Option (Nat × LaunchQueue) :=
  match s.queues.filter fun (e : Nat × LaunchQueue) =>
      (match e.2.slot with
        | some i => !done.contains i
        | none => false)
      && decide (s.queuePrio e.1 e.2 ≤ prio) && decide (e.2.since + s.quantum ≤ s.cycle) with
  | [] => none
  | e :: es => some (es.foldl (fun (m x : Nat × LaunchQueue) =>
      if x.2.lastDeq < m.2.lastDeq then x else m) e)

/-- Eligible queues displace mapped ones, in the order in which waiting queues are served. -/
def State.displace (s : State) (done : List Nat) : Nat → State
  | 0 => s
  | f + 1 =>
    match s.nextQueue fun q => decide (s.agingLimit ≤ q.age) with
    | none => s
    | some (lq, q) =>
      match s.displaced (s.queuePrio lq q) done with
      | none => s
      | some (old, o) =>
        let i := o.slot.getD 0
        let t := { s with queues := AMap.upd s.queues old fun q => { q with slot := none, age := 0 } }
        (t.giveSlot lq i).displace (i :: done) f

/-- QUANTUM_BOUNDARY (08 R191): waiting queues age, mapped queues without records give their slots up, free slots
are assigned, and eligible queues displace mapped ones. -/
def execQuantumBoundary (s : State) : Host.Outcome State Fault Refusal :=
  let queues : AMap LaunchQueue := s.queues.map fun (e : Nat × LaunchQueue) =>
    (e.1, if s.queueWaits e.2 then { e.2 with age := e.2.age + 1 }
      else if e.2.slot.isSome && s.recordsIn e.2 == 0 then { e.2 with slot := none } else e.2)
  let t := { s with queues }.fillSlots
  .next { t.displace [] t.queues.length with quantumAt := s.cycle }

end Sys2Proof.Machine
end

