-- ==== Sys2Proof/Machine/Loader.lean ====
section
/-! DEFINITION. The loader up to the binding of a launch: dequeue, conditional nodes, the bind-time checks, drafts,
conflicts, versions and stages; and how a launch record ends (03 R73 to R77; 06 R138, R139, R141 to R149, R155,
R156, R485; 12 R275). -/

namespace Sys2Proof.Machine

/-- Translation at the base dies of a store (04 R108). -/
def State.storeAddr (s : State) (sp : Space2) (va : Nat) : Except Flt (Nat × State) :=
  if !canonical sp.satp va then .error (permFault 1 va)
  else if s.walkLost sp.satp sp.hgatp va then .error (lostAt va)
  else
    match s.walkBoth sp.satp sp.hgatp va true with
    | .error f => .error f
    | .ok l => .ok (l.addr va, s.setPtes l.updates)

/-- Stores bytes at a virtual address in pieces of 8, all translated before any is written. -/
def State.storeVa (s : State) (sp : Space2) (va : Nat) (bs : List Byte) : Except Flt State :=
  let step (acc : Except Flt (List Nat × State)) (a : Nat) : Except Flt (List Nat × State) :=
    match acc with
    | .error f => .error f
    | .ok (pas, t) => match t.storeAddr sp a with
      | .error f => .error f
      | .ok (pa, u) => .ok (pas ++ [pa], u)
  match ((span 0 (bs.length / 8)).map fun i => va + 8 * i).foldl step (.ok ([], s)) with
  | .error f => .error f
  | .ok (pas, t) =>
    .ok ((pas.zip (span 0 pas.length)).foldl (fun (u : State) e =>
      u.putBytes e.1 ((bs.drop (8 * e.2)).take 8)) t)

/-- The completion record (06 Table 6.9). -/
def State.completionRecord (s : State) (l : Launch) (status : Nat) : List Byte :=
  let why := if status = 3 then l.reason else if status = 4 ∨ status = 5 then l.cause else 0
  leBytes 8 (l.lsn % 2 ^ 48) ++ leBytes 1 status
    ++ leBytes 1 (l.replays % 8 + 8 * l.irrevocable.toNat + 16 * l.yielded.toNat) ++ leBytes 1 l.code
    ++ leBytes 1 why ++ leBytes 4 (if status = 3 then l.offset else 0) ++ leBytes 8 l.boundAt ++ leBytes 8 s.time

/-- Writes the completion record, with the release of its scope; when its address is unusable a configuration
event names the context and the LSN (06 R141). -/
def State.writeCompletion (s : State) (l : Launch) (status : Nat) : State :=
  let addr := field l.record 16 8
  let bad := s.countError 10 3 0 l.vi l.ctx 0 (l.lsn % 2 ^ 48)
  if addr % 8 ≠ 0 then bad
  else
    match s.storeVa (s.launchSpace l) addr (s.completionRecord l status) with
    | .ok t => t
    | .error _ => bad

/-- Drops everything that an attempt of a launch has on the device: blocks, groups, threads, registers, bobbins,
tiles, engine operations, remote accesses and pending queue requests (02 Table 2.2; 07 R170). -/
def State.discardBlocks (s : State) (lk : Nat) (l : Launch) : State :=
  let mine (shift : Nat) (k : Nat) : Bool := k / 2 ^ shift == l.attempt
  let owners := s.cores.filter fun e => match e.2.owner with
    | some gk => mine 42 gk
    | none => false
  let t := s.withdraw fun a => match a with
    | .group gk _ => mine 42 gk
    | .append k => k == lk
    | .delivery _ => false
  let t := { t with
    blocks := AMap.keep (fun k _ => !mine 36 k) t.blocks
    groups := AMap.keep (fun k _ => !mine 42 k) t.groups
    threads := AMap.keep (fun k _ => !mine 47 k) t.threads
    bobbins := AMap.keep (fun _ x => !mine 36 x.block) t.bobbins
    vregs := AMap.keep (fun k _ => !mine 67 k) t.vregs
    uregs := AMap.keep (fun k _ => !mine 42 k) t.uregs
    tiles := AMap.keep (fun k _ => !mine 43 k) t.tiles
    fills := AMap.keep (fun k _ => !mine 42 k) t.fills
    engines := AMap.keep (fun _ o => o.launch != lk) t.engines
    remote := AMap.keep (fun _ r => !mine 36 r.block) t.remote }
  owners.foldl (fun (t : State) e =>
    (t.setCoreRegs e.1 { e.2 with owner := none, filling := [[], []] }).wakeMatrix e.1) t

/-- Drops a version: its shadow lines, their poison, what caches hold of it, its entry (06 R152). -/
def State.dropVersion (s : State) (attempt : Nat) : State :=
  let s := s.dropShadow fun k => k / 2 ^ 35 == attempt
  { s with
    poison := AMap.keep (fun k _ => k / 2 ^ 35 != attempt) s.poison
    coreCache := AMap.keep (fun k _ => keyTag k != attempt) s.coreCache
    dieCache := AMap.keep (fun k _ => keyTag k != attempt) s.dieCache
    versions := AMap.del s.versions attempt }

/-- The end of a launch record: it is removed with what it holds, and a free slot goes to a waiting queue. -/
def State.removeLaunch (s : State) (lk : Nat) (l : Launch) : State :=
  let t := s.discardBlocks lk l
  { t with launches := AMap.del t.launches lk }.fillSlots

/-- A record ends without having been bound: its completion record is written. -/
def State.endUnbound (s : State) (lk : Nat) (l : Launch) (status : Nat) : State :=
  (s.writeCompletion l status).removeLaunch lk l

/-- A launch queue that the loader gives up (06 R485). -/
def State.giveUp (s : State) (lq : Nat) : State :=
  ({ s with queues := AMap.upd s.queues lq fun q => { q with slot := none, givenUp := true } }).configEvent

/-- The launch that a dequeued record makes (06 R142, R156). -/
def newLaunch (s : State) (lq : Nat) (q : LaunchQueue) (lsn : Nat) (bs : List Byte) : Launch :=
  { vi := q.vi, ctx := q.ctx, lq, seq := q.nextSeq, lsn, first := lsn, attempt := s.next + 1, record := bs
    st := if bitsOf (field bs 25 1) 0 1 = 1 then .waitEligible else .checking
    dequeuedAt := s.cycle, image := field bs 0 4 }

/-- LAUNCH_DEQUEUE (06 R142, R485). A queue without a slot dequeues nothing; a free slot goes to a waiting queue at
once (08 R191). -/
def execLaunchDequeue (lq : Nat) (s : State) : Host.Outcome State Fault Refusal :=
  match AMap.find? s.queues lq with
  | none => .next s
  | some q =>
    match q.slot, s.context q.vi q.ctx, s.lqAddr q with
    | none, _, _ => .next s.fillSlots
    | some _, none, _ => .next s
    | some _, some _, .error _ => .next (s.giveUp lq)
    | some _, some x, .ok (pa, t) =>
      match t.homeTry pa (t.contextSpace x) (.agent q.vi) false 1 64 false [] with
      | .fault _ u | .lost u => .next (u.giveUp lq)
      | .turned u => .next u
      | .done es u =>
        let l := newLaunch u lq q x.nextLsn (es.headD [])
        let u := u.updContext q.vi q.ctx fun x => { x with nextLsn := x.nextLsn + 1 }
        .next { u with
          launches := AMap.put u.launches u.next l
          queues := AMap.upd u.queues lq fun q => { q with nextSeq := q.nextSeq + 1, lastDeq := u.cycle }
          next := u.next + 2 }

/-- Whether every earlier record of a launch's queue has ended. -/
def State.predecessorsEnded (s : State) (l : Launch) : Bool :=
  s.launches.all fun e => !(e.2.lq == l.lq && decide (e.2.seq < l.seq))

/-- CONDITIONAL_NODE_EVAL (06 R155). A word that an uncorrectable error has destroyed ends the node FAILED with cause
2, since it has no attempt that could abort (12 Table 12.5; DESIGN CHOICE, log entry 45). -/
def execConditionalNodeEval (launch : Nat) (s : State) : Host.Outcome State Fault Refusal :=
  match AMap.find? s.launches launch with
  | none => .next s
  | some l =>
    if l.st ≠ .waitEligible ∨ !s.predecessorsEnded l then .next s
    else
      let va := field l.record 32 8
      let sp : Space2 := match s.context l.vi l.ctx with
        | some x => s.contextSpace x
        | none => s.launchSpace l
      match s.homeAddr sp va with
      | .error f => .next (if f.lost then s.endUnbound launch { l with cause := 2 } 4
          else s.endUnbound launch { l with reason := 16, offset := 32 } 3)
      | .ok (pa, t) =>
        let line := va / 64 * 64
        let written := t.launches.any fun e => e.2.vi == l.vi && e.2.ctx == l.ctx && e.2.st.inU
          && e.2.claims.any fun c => c.wr && decide (c.lo < line + 64) && decide (line < c.hi)
        if !isImmediate (attrFlags sp.attrs va) && written then .next s
        else if t.poisoned 0 (pa / 64) then .next (t.endUnbound launch { l with cause := 2 } 4)
        else
          let zero := t.memWord pa == 0
          if zero == (bitsOf (field l.record 25 1) 1 1 == 1) then
            .next (t.updLaunch launch fun l => { l with st := .checking })
          else .next (t.endUnbound launch l 2)

/-- The offset of the first section of a kind. -/
def sectionOff (img : List Byte) (kind : Nat) : Nat := ((sectionOf img kind).map fun x => x.off).getD 0

/-- The reason and offset with which the loader refuses. -/
abbrev Refused := Nat × Nat

/-- The fields of a launch record that need no memory read (06 R141, Table 6.8). -/
def recordFault (bs : List Byte) : Option Refused :=
  let flags := field bs 25 1
  if field bs 24 1 < 4 ∨ 6 < field bs 24 1 then some (16, 24)
  else if 4 ≤ flags then some (16, 25)
  else if bitsOf (field bs 26 1) 3 4 ≠ 0 then some (16, 26)
  else if field bs 27 5 ≠ 0 then some (16, 27)
  else if field bs 32 8 % 8 ≠ 0 ∨ (flags % 2 = 0 ∧ field bs 32 8 ≠ 0) then some (16, 32)
  else if field bs 40 24 ≠ 0 then some (16, 40)
  else none

/-- A context's satp and its interface's hgatp (04 R106). -/
def translationFault (satp hgatp : Nat) : Option Refused :=
  if (bitsOf satp 60 4 = 9 ∨ bitsOf satp 60 4 = 10) ∧ gStageOk hgatp then none
  else some (13, 0)

/-- The claims of an image, resolved by the parameters (06 R139). -/
def claimsOf (img params : List Byte) : List Claim :=
  let bs := sectionBytes img 3
  (span 0 (bs.length / 32)).map fun i =>
    let e := bs.drop (32 * i)
    let base := if field e 0 1 = 1 then (field params (8 * field e 2 2) 8 + field e 8 8) % 2 ^ 64
      else field e 8 8
    { lo := base, hi := base + field e 16 8, rd := bitsOf (field e 1 1) 0 1 == 1
      wr := bitsOf (field e 1 1) 1 1 == 1 }

/-- Reason CLAIM: a resolved range that is not canonical or is misaligned. -/
def claimsFault (img : List Byte) (satp : Nat) (cs : List Claim) : Option Refused :=
  (findIdx (fun (c : Claim) => !canonical satp c.lo || !canonical satp (c.hi - 1) || decide (2 ^ 64 < c.hi)
    || c.lo % 64 != 0 || c.hi % 64 != 0) cs 0).map fun i => (6, sectionOff img 3 + 32 * i)

/-- Whether a valid attribute entry breaks 04 R103 by itself. -/
def attrBad (bs : List Byte) : Bool :=
  let base := field bs 0 8
  let size := field bs 8 8
  let f := field bs 16 8
  base % 4096 != 0 || decide (2 ^ 57 ≤ base) || decide (size < 1) || decide (2 ^ 45 < size)
    || decide (2 ^ 19 ≤ f) || field bs 24 8 != 0 || bitsOf f 6 2 == 3 || cachePolicy f == 3
    || (isCcap f && (!isImmediate f || base % 2 ^ 21 != 0 || size % 512 != 0))
    || (isFabric f && (isMside f || isCcap f || !Config.inDomain (peerOf f)))

/-- Reason ATTRIBUTE over the valid entries of a table: the byte offset of the first that is bad or overlaps an
earlier one. -/
def attrsFault : List Attr → List (Nat × List Byte) → Option Refused
  | _, [] => none
  | seen, (i, bs) :: es =>
    let a := attrOf bs
    if attrBad bs || seen.any fun b => decide (a.lo < b.hi) && decide (b.lo < a.hi) then some (12, 32 * i)
    else attrsFault (seen ++ [a]) es

/-- Reason RECORD for the completion record address, offset 16 (06 R141). -/
def State.completionFault (s : State) (sp : Space2) (addr : Nat) : Option Refused :=
  let ok (a : Nat) : Bool := match s.storeAddr sp a with
    | .ok _ => isImmediate (attrFlags sp.attrs a)
    | .error _ => false
  if addr % 8 = 0 ∧ ok addr ∧ ok (addr + 24) then none else some (16, 16)

/-- Whether every page of a range translates. -/
def State.maps (s : State) (sp : Space2) (va n : Nat) : Bool :=
  (pagesOf va n).all fun e => match s.homeAddr sp e.1 with
    | .ok _ => true
    | .error _ => false

/-- The parts of queue declaration `i` (06 Table 6.5) with its resolved addresses. -/
structure QueueDecl where
  internal : Bool
  flags : Nat
  log2 : Nat
  esize : Nat
  cb : Nat
  area : Nat
  deriving DecidableEq, Repr

def queueDecls (img params : List Byte) : List QueueDecl :=
  let bs := sectionBytes img 2
  (span 0 (bs.length / 32)).map fun i =>
    let d := bs.drop (32 * i)
    { internal := field d 0 1 == 0, flags := field d 1 1, log2 := field d 4 1, esize := field d 6 2
      cb := field params (8 * field d 8 2) 8, area := field params (8 * field d 10 2) 8 }

/-- Whether a queue declaration fails 06 R138 at bind. -/
def State.declFails (s : State) (sp : Space2) (d : QueueDecl) : Bool :=
  let flags := attrFlags sp.attrs d.cb
  if d.internal then
    let n := 2 ^ d.log2 * d.esize
    d.cb % 64 != 0 || d.area % 64 != 0 || !s.maps sp d.cb 64 || !s.maps sp d.area n
      || !(isImmediate flags && isMside flags)
      || (match areaFlags sp.attrs d.area n with
        | .ok () => false
        | .error _ => true)
  else
    match s.homeOf sp d.cb with
    | .error _ => true
    | .ok (pa, t) => d.cb % 64 != 0 || t.corruption pa != 0

/-- The size of a save of one block, bobbins apart (12 R273). -/
def Stage.saveSize (x : Stage) : Nat :=
  4 * 256 * x.regRange + x.spadSize + 2048 * x.accTiles + 1024 + 512
    + (1024 + 512 * x.contexts + 16 * x.threads)

/-- How many blocks of a stage fit one core. -/
def Stage.perCore (x : Stage) : Nat :=
  let regs := 1024 / x.regRange + 512 / x.regRange
  let acc := if x.accRange = 0 then 256 else 128 / x.accRange
  min (min (2097152 / x.spadSize) regs) (min acc (256 / max 1 x.contexts))

/-- The save areas that the loader reserves for an image (12 R275): each core's bobbins are 64 at most. -/
def saveNeed (img : List Byte) : Nat :=
  ((span 0 (stageCount img)).map fun i =>
    let x := stageAt img i
    x.maxCores * (x.perCore * x.saveSize + 96 * 64)).foldl (· + ·) 0

/-- Reason QUOTA (06 Table 6.7; 12 R275). The other launches of the context that have passed their checks hold their save
areas until they end. -/
def State.quotaFault (s : State) (l : Launch) (img : List Byte) (x : Context) : Option Refused :=
  let used := ((s.launchesOf l.vi l.ctx).map fun e =>
    if e.2.first ≠ l.first ∧ (e.2.st.inU || e.2.st == .waiting) then e.2.save else 0).foldl (· + ·) 0
  if (s.iface l.vi).cores < minima (s.stageNeeds l) ∨ x.shadowSize < field img 24 4 * 2 ^ 20
      ∨ x.grantQuota < grantCount img ∨ x.saveSize < used + saveNeed img then some (14, 0)
  else none

/-- The first failure of a list of checks. -/
def firstFault (fs : List (Option Refused)) : Except Refused Unit :=
  match fs.findSome? id with
  | some f => .error f
  | none => .ok ()

/-- The checks that come before step 1 of 06 R144. -/
def State.earlyFault (s : State) (l : Launch) (im : Image) (x : Context) : Option Refused :=
  if im.vi ≠ l.vi ∨ !im.published then some (15, 0)
  else if leNat (im.digest.take 4) ≠ field l.record 4 4 then some (15, 4)
  else (recordFault l.record).or (translationFault x.satp (s.iface l.vi).hgatp)

/-- The checks of step 3 of 06 R144 from RECORD on, with the attribute snapshot. -/
def State.lateFaults (s : State) (l : Launch) (img : List Byte) (x : Context) (sp : Space2) : List (Option Refused) :=
  [ s.completionFault sp (field l.record 16 8),
    (findIdx (s.declFails sp) (queueDecls img l.params) 0).map fun i => (5, sectionOff img 2 + 32 * i),
    (findIdx (fun (e : Nat × List Byte) => decide (x.handleLen ≤ e.1)
      || (match s.storeAddr sp (x.handleBase + 64 * e.1) with
        | .ok _ => false
        | .error _ => true)) (tensorEntries img) 0).map fun i => (8, sectionOff img 5 + 72 * i),
    s.quotaFault l img x ]

/-- The bind-time checks of a replay (06 R144): all but steps 1 and 2, whose snapshots it keeps. -/
def State.recheckLaunch (s : State) (l : Launch) : Except Refused Launch :=
  match AMap.find? s.images l.image, s.context l.vi l.ctx with
  | some im, some x =>
    match firstFault (s.earlyFault l im x :: claimsFault im.bytes x.satp l.claims
        :: s.lateFaults l im.bytes x (s.launchSpace l)) with
    | .error f => .error f
    | .ok () => .ok { l with checked := true }
  | _, _ => .error (15, 0)

/-- The bind-time checks of 06 R144: the launch with its snapshots, or the refusal. -/
def State.checkLaunch (s : State) (l : Launch) : Except Refused Launch :=
  match AMap.find? s.images l.image, s.context l.vi l.ctx with
  | some im, some x =>
    let img := im.bytes
    let sp0 : Space2 := { satp := x.satp, hgatp := (s.iface l.vi).hgatp, attrs := [] }
    match s.earlyFault l im x with
    | some f => .error f
    | none =>
      match s.readVa sp0 (field l.record 8 8) (field img 14 2 / 8) with
      | .error _ => .error (16, 8)
      | .ok (params, t) =>
        let claims := claimsOf img params
        match claimsFault img x.satp claims with
        | some f => .error f
        | none =>
          match t.readTable sp0 x.attrTable (span 0 64) with
          | .error o => .error (12, o)
          | .ok es =>
            let attrs := es.map fun e => attrOf e.2
            let sp : Space2 := { sp0 with attrs }
            let l := { l with params, claims, attrs, save := saveNeed img, checked := true }
            match firstFault (attrsFault [] es :: t.lateFaults l img x sp) with
            | .error f => .error f
            | .ok () => .ok l
  | _, _ => .error (15, 0)

/-- Whether the loader would read what an uncorrectable error has destroyed, in the parameter block or the attribute
table of a launch that it checks (12 Table 12.5). -/
def State.bindLost (s : State) (l : Launch) : Bool :=
  match AMap.find? s.images l.image, s.context l.vi l.ctx with
  | some im, some x =>
    let sp : Space2 := { satp := x.satp, hgatp := (s.iface l.vi).hgatp, attrs := [] }
    s.readLost sp (field l.record 8 8) (field im.bytes 14 2) || s.readLost sp x.attrTable 2048
  | _, _ => false

/-- Free drafting cores take the requests that have waited longest (03 R77). -/
def State.assignDrafting (s : State) : State :=
  (span 0 8).foldl (fun (t : State) core =>
    if t.drafts.any fun e => e.2.core == some core then t
    else
      match t.drafts.filter fun (e : Nat × Draft) => e.2.waits.isSome with
      | [] => t
      | e :: es =>
        let o := es.foldl (fun (m x : Nat × Draft) => if x.2.waits.getD 0 < m.2.waits.getD 0 then x else m) e
        { t with drafts := AMap.upd t.drafts o.1 fun d => { d with core := some core, waits := none } }) s

/-- Asks for a draft that is missing (03 R76, R77): a peer may be asked, and the enclave drafts it. A native
image is its own draft. -/
def State.requestDraft (s : State) (vi : Nat) (img key : List Byte) : State :=
  match s.draftOf key with
  | some _ => s
  | none =>
    let native := isNative img
    let d : Draft := { key, vi, imageKey := field img 28 4, native, ready := native
                       waits := if native then none else some s.next, installedAt := s.cycle }
    let sent := if s.life = .deployed ∧ !native then s.sent ++ [.draftRequest (leNat key)] else s.sent
    ({ s with drafts := AMap.put s.drafts s.next d, next := s.next + 1, sent }).assignDrafting

/-- Requests every draft of a launch. -/
def State.requestDrafts (s : State) (l : Launch) : State :=
  (draftKeys (s.imageBytes l)).foldl (fun (t : State) k => t.requestDraft l.vi (s.imageBytes l) k) s

/-- The address space of a launch is bound; past 4,096 of them the one bound least recently loses its TLB
entries (04 R106). -/
def State.bindSpace (s : State) (satp hgatp : Nat) : State :=
  let me := (bitsOf hgatp 44 8, bitsOf satp 44 16)
  let all := s.spaces.filter (fun e => e != me) ++ [me]
  if all.length ≤ 4096 then { s with spaces := all }
  else
    let old := all.headD me
    let drop (m : AMap (List TlbEntry)) : AMap (List TlbEntry) :=
      m.map fun (e : Nat × List TlbEntry) => (e.1, e.2.filter fun t => (t.vmid, t.asid) != old)
    { s with spaces := all.drop 1, coreTlb := drop s.coreTlb, clusterTlb := drop s.clusterTlb
             dieTlb := drop s.dieTlb }

/-- Step 6 of 06 R144: the tensor entries, then the internal queues, for which MDIE is set (07 R161). An entry that can no
longer be written refuses the launch with TENSOR, a queue that no longer translates with QUEUE (06 R138). -/
def State.prepareLaunch (s : State) (l : Launch) (x : Context) : Except Refused State :=
  let sp := s.launchSpace l
  let img := s.imageBytes l
  let es := tensorEntries img
  let ds := queueDecls img l.params
  let t := (es.zip (span 0 es.length)).foldl (fun (acc : Except Refused State) (e : (Nat × List Byte) × Nat) =>
    match acc with
    | .error f => .error f
    | .ok t =>
      match t.storeVa sp (x.handleBase + 64 * e.1.1) e.1.2 with
      | .ok u => .ok u
      | .error _ => .error (8, sectionOff img 5 + 72 * e.2)) (.ok s)
  (ds.zip (span 0 ds.length)).foldl (fun (acc : Except Refused State) (d : QueueDecl × Nat) =>
    match acc with
    | .error f => .error f
    | .ok t =>
      if !d.1.internal then .ok t
      else
        match t.homeOf sp d.1.cb with
        | .ok (pa, u) =>
          let flags := bitsOf d.1.flags 1 1 + 2 + 4 * bitsOf d.1.flags 0 1 + 8 * bitsOf d.1.flags 2 1
          .ok (u.initQueue pa (freshBlock d.1.area d.1.log2 flags d.1.esize l.ctx))
        | .error _ => .error (5, sectionOff img 2 + 32 * d.2)) t

/-- Binds a launch: its version entry, its memory, its stages (06 R144 steps 5 to 7); or refuses it. -/
def State.bindStages (s : State) (lk : Nat) (l : Launch) (x : Context) (cores : List (List Nat)) : State :=
  let gens := if l.drafts.isEmpty then
      (draftKeys (s.imageBytes l)).map fun k => ((s.draftOf k).map fun d => d.2.gen).getD 0
    else l.drafts
  match s.prepareLaunch l x with
  | .error (reason, offset) => s.endUnbound lk { l with reason, offset } 3
  | .ok t =>
    let t := t.bindSpace x.satp (s.iface l.vi).hgatp
    { t with versions := AMap.put t.versions l.attempt (ctxKey l.vi l.ctx) }.updLaunch lk fun _ =>
      { l with st := .bound, drafts := gens, descheduled := false, decidedAt := s.cycle
               boundAt := if l.boundAt = 0 then s.time else l.boundAt
               stages := cores.map fun cs => { cores := cs } }

/-- Whether the loader takes one launch before another: effective priority, then dequeue time (08 R193). -/
def State.takenBefore (s : State) (a b : Nat × Launch) : Bool :=
  let p := s.launchPrio a.2
  let r := s.launchPrio b.2
  if p ≠ r then decide (r < p)
  else if a.2.dequeuedAt ≠ b.2.dequeuedAt then decide (a.2.dequeuedAt < b.2.dequeuedAt) else decide (a.1 < b.1)

/-- Whether the loader can go on with a head record now: its checks are due, or nothing holds it (08 R193). -/
def State.ready (s : State) (l : Launch) : Bool :=
  !s.heldBack l
    && (l.st == .checking || (l.st == .waiting && (!l.checked || (s.atStep7 l && (s.coresFor l).isSome))))

/-- The launches that keep another from binding take over its effective priority (08 R190). -/
def State.lendPrio (s : State) (lk : Nat) (l : Launch) : State :=
  let p := s.launchPrio l
  { s with launches := s.launches.map fun (e : Nat × Launch) =>
      (e.1, if e.1 ≠ lk ∧ s.mustWait l e.2 ∧ s.launchPrio e.2 < p then { e.2 with prio := p } else e.2) }

/-- Steps 4 to 7 of 06 R144, unless the loader takes another launch first (08 R193). A replay makes later bound
launches of its queue that conflict with it yield (R152). -/
def State.tryBind (s : State) (lk : Nat) (l : Launch) : State :=
  if s.heldBack l then s
  else
    let s := s.requestDrafts l
    if !s.draftsReady l then s
    else
      let later := s.launches.filter fun (e : Nat × Launch) =>
        e.2.follows l && s.mustWait l e.2 && e.2.st != .aborting
      let s := later.foldl (fun (t : State) e => t.beginAbort e.1 6 0 t.time) s
      if s.launches.any (fun e => e.1 != lk && s.mustWait l e.2) then s.lendPrio lk l
      else if decide (4096 ≤ s.versions.length)
          || s.launches.any (fun e => e.1 != lk && s.takenBefore e (lk, l) && s.ready e.2) then s
      else
        match s.context l.vi l.ctx with
        | none => s
        | some x =>
          match s.coresFor l with
          | some cs => s.bindStages lk l x cs
          | none =>
            let t := s.demandCores l
            match t.coresFor l with
            | some cs => t.bindStages lk l x cs
            | none => t

/-- LAUNCH_BIND (06 R144, R145): the checks, then the binding as soon as nothing holds it. -/
def execLaunchBind (launch : Nat) (s : State) : Host.Outcome State Fault Refusal :=
  match AMap.find? s.launches launch with
  | none => .next s
  | some l =>
    let go (r : Except Refused Launch) : State := match r with
      | .error (reason, offset) => s.endUnbound launch { l with reason, offset } 3
      | .ok l' =>
        let l' := { l' with st := .waiting }
        (s.updLaunch launch fun _ => l').tryBind launch l'
    match l.st with
    | .checking =>
      if s.bindLost l then .next (s.endUnbound launch { l with cause := 2 } 4) else .next (go (s.checkLaunch l))
    | .waiting => .next (if l.checked then s.tryBind launch l else go (s.recheckLaunch l))
    | _ => .next s

end Sys2Proof.Machine
end

