-- ==== Sys2Proof/Machine/Commit.lean ====
section
/-! DEFINITION. How a launch ends: its commit, its deferred enqueues and the write-back of its shadow lines,
irrevocable mode, its abort and its replay (06 R147, R148, R150 to R154). -/

namespace Sys2Proof.Machine

/-- The lines of a shadow that an attempt holds. -/
def State.shadowLines (s : State) (attempt : Nat) : AMap Line :=
  s.shadow.filter fun (e : Nat × Line) => e.1 / 2 ^ 35 == attempt

/-- Step 1 of 06 R148, as a DEVICE-scope release of every store of the launch: all of the version becomes
committed memory at one instant, poison included. The shadow lines stay listed until they are written home. -/
def State.commitVersion (s : State) (attempt : Nat) : State :=
  let s := (span 0 1536).foldl (fun (t : State) c =>
    if t.coreCache.any fun e => keyUnit e.1 == c then t.flushCore c else t) s
  let s := (span 0 8).foldl (fun (t : State) d => t.flushDie d) s
  let s := (s.shadowLines attempt).foldl (fun (t : State) e =>
    let ln := e.1 % 2 ^ 35
    let bad := Cells.get t.poison e.1
    { t.setMemBytes (ln * 64) ((span 0 64).map (lineByte e.2)) with
      poison := Cells.set (Cells.set t.poison ln bad) e.1 0 }) s
  { s with coreCache := AMap.keep (fun k _ => keyTag k != attempt) s.coreCache
           dieCache := AMap.keep (fun k _ => keyTag k != attempt) s.dieCache }

/-- A version entry goes free once no shadow line of it is left to write home (06 R148 step 2). -/
def State.freeVersion (s : State) (attempt : Nat) : State :=
  if (s.shadowLines attempt).isEmpty then { s with versions := AMap.del s.versions attempt } else s

/-- Whether a launch is complete (06, "Commit and completion") and free to commit (06 R148). -/
def State.freeToCommit (s : State) (l : Launch) (lk : Nat) : Bool :=
  (l.st == .completed || (l.st == .irrevocable && s.allRetired l)) && s.predecessorsEnded l
    && s.engines.all fun e => e.2.launch != lk

/-- Launches that have become free to commit are stamped, those of one step alike (06 R148). -/
def State.noteFree (s : State) : State :=
  let new (e : Nat × Launch) : Bool := e.2.st == .completed && e.2.freeAt.isNone && s.freeToCommit e.2 e.1
  if s.launches.any new then
    { s with
      launches := s.launches.map fun (e : Nat × Launch) => (e.1, if new e then { e.2 with freeAt := some s.next } else e.2)
      next := s.next + 1 }
  else s

/-- Whether no other launch became free to commit before a launch (06 R148). -/
def State.inTurn (s : State) (lk : Nat) (l : Launch) : Bool :=
  s.launches.all fun e => e.1 == lk || e.2.st != .completed
    || (e.2.freeAt.all fun k => decide (l.freeAt.getD s.next ≤ k))

/-- Step 4 of 06 R148, once no deferred enqueue is left: the completion record, and the launch has ended. -/
def State.endCommitted (s : State) (lk : Nat) : State :=
  match AMap.find? s.launches lk with
  | some l =>
    if l.st = .committing ∧ l.deferred.isEmpty then (s.writeCompletion l 1).removeLaunch lk l else s
  | none => s

/-- LAUNCH_COMMIT (06 R148): steps 1 and 2; steps 3 and 4 follow, at once when nothing is deferred. Step 1 of an
irrevocable launch came with its grant (R150, R156). -/
def execLaunchCommit (launch : Nat) (s : State) : Host.Outcome State Fault Refusal :=
  match AMap.find? s.launches launch with
  | none => .next s
  | some l =>
    if l.st = .committing then .next (s.endCommitted launch)
    else if !s.freeToCommit l launch || !(l.irrevocable || s.inTurn launch l) then .next s
    else
      let t := if l.irrevocable then s else s.commitVersion l.attempt
      let t := (t.discardBlocks launch l).freeVersion l.attempt
      .next ((State.updLaunch { t with next := t.next + 1 } launch fun l =>
        { l with st := .committing, stages := [], commitAt := some (l.commitAt.getD t.next) }).endCommitted launch)

/-- Whether a launch owes deferred enqueues now: its commit has begun, or irrevocable mode has been granted
(06 R148, R150). -/
def Launch.owesEnqueues (l : Launch) : Bool :=
  (l.st == .committing || l.irrevocable) && !l.deferred.isEmpty

/-- The groups of a launch resume once its version is committed and its enqueues are performed (06 R150). -/
def State.resumeGranted (s : State) (lk : Nat) : State :=
  s.updLaunch lk fun l =>
    if l.irrevocable && l.st == .overflowed && l.deferred.isEmpty then { l with st := .irrevocable } else l

/-- What follows when the list of deferred enqueues may have become empty. -/
def State.afterAppend (s : State) (lk : Nat) : State := (s.resumeGranted lk).endCommitted lk

/-- Whether an append of a launch waits for room already. -/
def State.appendWaits (s : State) (lk : Nat) : Bool :=
  s.homes.any fun (e : Nat × Home) => (e.2.wake ++ e.2.polling).any fun r => r.who == .append lk

/-- Whether a launch whose version was committed earlier owes an enqueue that one of this launch on a queue must not
pass: any that does not wait for room, and any on the queue itself (06 R154). -/
def State.owedBefore (s : State) (lk : Nat) (l : Launch) (cb : Nat) : Bool :=
  s.launches.any fun e =>
    e.1 != lk && e.2.owesEnqueues && decide (e.2.commitAt.getD 0 < l.commitAt.getD 0)
      && (!s.appendWaits e.1 || e.2.deferred.any fun d =>
        match s.cbAddr (s.launchSpace e.2) d.cb with
        | .ok (pa, _) => pa == cb
        | .error _ => false)

/-- DEFERRED_ENQUEUE_APPEND (06 R148 step 3, R154; 18 R386): the oldest deferred enqueue is performed at its home;
with no room it waits there. One that the home refuses is discarded and counted. -/
def execDeferredEnqueueAppend (launch : Nat) (s : State) : Host.Outcome State Fault Refusal :=
  match AMap.find? s.launches launch with
  | none => .next s
  | some l =>
    match l.deferred with
    | [] => .next (s.afterAppend launch)
    | d :: ds =>
      if !l.owesEnqueues || s.appendWaits launch then .next s
      else
        let rest (t : State) : State := (t.updLaunch launch fun l => { l with deferred := ds }).afterAppend launch
        let sp := s.launchSpace l
        match s.cbAddr sp d.cb with
        | .error _ => .next (rest s.configEvent)
        | .ok (pa, t) =>
          if s.owedBefore launch l pa then .next s
          else
          match t.homeTry pa sp (.agent l.vi) true d.elems.length d.esize false d.elems with
          | .fault _ u | .lost u => .next (rest u.configEvent)
          | .done _ u => .next (rest u)
          | .turned u => .next (u.addRequest pa d.cb (.append launch) true d.elems.length d.elems)

/-- SHADOW_WRITEBACK (06 R148): a committed shadow line of the version of an attempt is written home. Its value is
committed memory already. -/
def execShadowWriteback (launch line : Nat) (s : State) : Host.Outcome State Fault Refusal :=
  if s.launches.any fun e => e.2.attempt == launch && !e.2.irrevocable && e.2.st != .committing then .next s
  else .next ((s.dropShadow fun k => k == shadowKey launch line).freeVersion launch)

/-- IRREVOCABLE_GRANT (06 R150, R151): the version of an overflowing launch is committed; its claims stay in U. -/
def execIrrevocableGrant (launch : Nat) (s : State) : Host.Outcome State Fault Refusal :=
  match AMap.find? s.launches launch with
  | none => .next s
  | some l =>
    if l.st = .overflowed ∧ !l.irrevocable ∧ s.grantable l then
      let t := s.commitVersion l.attempt
      .next ((State.updLaunch { t with next := t.next + 1 } launch fun l =>
        { l with irrevocable := true, commitAt := some t.next }).resumeGranted launch)
    else .next s

/-- The replay limit that applies to a launch (06 Table 6.8, Table 6.10). -/
def State.replayLimit (s : State) (l : Launch) : Nat :=
  let b := field l.record 26 1
  if bitsOf b 7 1 = 1 then b % 8 else bitsOf (s.iface l.vi).ldrReplay.toNat 0 3

/-- Whether an aborted launch is replayed (06 R152, Table 6.11). -/
def State.replays (s : State) (l : Launch) : Bool :=
  if l.irrevocable || l.killed then false
  else if l.cause = 6 then true
  else (l.cause == 1 || l.cause == 2 || l.cause == 3)
    && bitsOf (s.iface l.vi).ldrReplay.toNat (3 + l.cause) 1 == 1 && decide (l.replays < s.replayLimit l)

/-- The next attempt of a launch (06 R142, R152): a new LSN and version; snapshots and draft generations stay. -/
def Launch.again (l : Launch) (lsn attempt : Nat) : Launch :=
  { l with lsn, attempt, st := .waiting, stages := [], deferred := [], move := none, descheduled := false, codeAt := 0
           shadow := 0, checked := false, freeAt := none, commitAt := none, prio := 0, replays := l.replays + (if l.cause = 6 then 0 else 1)
           yielded := l.yielded || l.cause == 6 }

/-- Whether an engine operation or an access to a peer of an aborted launch still has to finish; a transfer that a
page stalls waits for its SERVICE (06 R152 step 2). -/
def State.runsOn (s : State) (lk : Nat) (l : Launch) : Bool :=
  (s.engines.any fun e => e.2.launch == lk)
    || s.remote.any fun e => !e.2.window && e.2.block / 2 ^ 36 == l.attempt

/-- LAUNCH_ABORT (06 R152, R153): groups stop, operations under way finish, then version and deferred enqueues go, and
the launch is replayed or ends. -/
def execLaunchAbort (launch : Nat) (s : State) : Host.Outcome State Fault Refusal :=
  match AMap.find? s.launches launch with
  | none => .next s
  | some l =>
    if l.st ≠ .aborting ∨ s.runsOn launch l then .next s
    else
      let t := (s.discardBlocks launch l).dropVersion l.attempt
      if s.replays l then
        match t.context l.vi l.ctx with
        | some x =>
          let u := t.updContext l.vi l.ctx fun x => { x with nextLsn := x.nextLsn + 1 }
          .next { u.updLaunch launch fun l => l.again x.nextLsn u.next with next := u.next + 1 }
        | none => .next (t.removeLaunch launch l)
      else if l.cause = 5 then .next (t.removeLaunch launch l)
      else .next ((t.writeCompletion l (if l.killed then 5 else 4)).removeLaunch launch l)

end Sys2Proof.Machine
end

