-- ==== Sys2Proof/Machine/Drafts.lean ====
section
/-! DEFINITION. Drafts and their profile counters: what a region's executions count, the windows that judge them,
re-drafts, and the drafts that peers ask for and send (03 R73 to R77). -/

namespace Sys2Proof.Machine

/-- The draft that a block's code runs, when the generation its launch was bound to is the one in the cache
(03 R74). -/
def State.draftAt (s : State) (b : Block) (l : Launch) : Option (Nat × Draft) :=
  match (draftKeys (s.imageBytes l))[b.stage]? with
  | none => none
  | some k =>
    match s.draftOf k with
    | some e => if l.drafts[b.stage]? = some e.2.gen then some e else none
    | none => none

def State.updDraft (s : State) (dk : Nat) (f : Draft → Draft) : State :=
  { s with drafts := AMap.upd s.drafts dk f }

/-- Fields of DRF_PROFILE (03 Table 3.6). -/
def drfEn (w : Word) : Bool := bitsOf w.toNat 0 1 == 1
def drfConfl (w : Word) : Nat := bitsOf w.toNat 8 8
def drfBias (w : Word) : Nat := bitsOf w.toNat 16 8
def drfStall (w : Word) : Nat := bitsOf w.toNat 24 8

/-- The key of a window of a commit record: that of the execution of a number, counted from 1. -/
def windowKey (record n : Nat) : Nat := record * 2 ^ 32 + (n - 1) / 64

/-- Changes the counters of one execution of a region: those that PROFILE reports, and its window's. -/
def Draft.count (d : Draft) (record n : Nat) (f : Profile → Profile) (g : Window → Window) : Draft :=
  let k := windowKey record n
  { d with profiles := AMap.put d.profiles record (f ((AMap.find? d.profiles record).getD {}))
           windows := AMap.put d.windows k (g ((AMap.find? d.windows k).getD {})) }

/-- What a path counts for: its group, its draft, when counting is enabled. -/
def State.counting (s : State) (gk i : Nat) : Option (Group × Path × Nat × Draft) :=
  match AMap.find? s.groups gk with
  | none => none
  | some g =>
    match g.paths[i]?, AMap.find? s.blocks g.block with
    | some p, some b =>
      match AMap.find? s.launches b.launch with
      | some l =>
        if drfEn (s.iface l.vi).drfProfile then (s.draftAt b l).map fun e => (g, p, e.1, e.2) else none
      | none => none
    | _, _ => none

/-- Counts an event of the execution of a path's open region; paths that split in it count for the same one. -/
def State.countExec (s : State) (gk i : Nat) (f : Profile → Profile) (g : Window → Window) : State :=
  match s.counting gk i with
  | some (_, p, dk, _) =>
    match p.execs with
    | x :: _ => s.updDraft dk fun d => d.count x.record x.num f g
    | [] => s
  | none => s

/-- Stall counters since a snapshot. -/
def stallsSince (now old : Cells 64) : Cells 64 :=
  (span 0 16).foldl (fun (m : Cells 64) i => Cells.set m i (Cells.get now i - Cells.get old i)) []

/-- What an execution counts when it ends (03 R73): the cycles and stall cycles of its group since its commit
point. -/
def Draft.endExec (d : Draft) (now : Nat) (stalls : Cells 64) (x : Exec) : Draft :=
  let new := stallsSince stalls x.seen
  let idle := (Cells.get new 0).toNat + (Cells.get new 15).toNat
  let stalled := ((span 1 14).map fun k => (Cells.get new k).toNat).foldl (· + ·) 0
  d.count x.record x.num (fun y => { y with stalls := addStalls y.stalls new })
    fun w => { w with cycles := w.cycles + (now - x.began - idle), stalled := w.stalled + stalled }

/-- Whether a path of a list has an execution under way. -/
def holdsExec (ps : List Path) (x : Exec) : Bool :=
  ps.any fun p => p.execs.any fun y => y.record == x.record && y.num == x.num

/-- The executions that a path has under way end (03 R73). One that split ends with the last of its paths. -/
def State.endExecution (s : State) (gk i : Nat) : State :=
  let t := match s.counting gk i with
    | some (g, p, dk, _) =>
      let others := g.paths.take i ++ g.paths.drop (i + 1)
      s.updDraft dk fun d => (p.execs.filter fun x => !holdsExec others x).foldl
        (fun d x => d.endExec s.cycle g.stalls x) d
    | none => s
  t.updPath gk i fun p => { p with execs := [] }

/-- The executions of a path that has gone, by its threads' end or their filing, end with it (03 R73). `s` is the state
before, in which the path was `c.p`. -/
def State.endGone (t s : State) (c : Ctx) : State :=
  match s.counting c.cur.grp c.cur.path with
  | some (g, p, dk, _) =>
    let left := match AMap.find? t.groups c.cur.grp with
      | some h => h.paths
      | none => []
    let gone := p.execs.filter fun x => !holdsExec left x && holdsExec g.paths x
    if gone.isEmpty then t
    else t.updDraft dk fun d => gone.foldl (fun d x => d.endExec t.cycle g.stalls x) d
  | none => t

/-- A commit point issues: the next execution of the region of a commit record begins. -/
def State.beginExecution (s : State) (gk i record : Nat) : State :=
  let t := s.endExecution gk i
  match t.counting gk i with
  | some (g, _, dk, d) =>
    let n := ((AMap.find? d.profiles record).getD {}).execs + 1
    (t.updDraft dk fun d => d.count record n (fun x => { x with execs := n }) id).updPath gk i fun p =>
      { p with execs := [{ record, num := n, began := t.cycle, seen := g.stalls }], cp := record }
  | none => t.updPath gk i fun p => { p with cp := record }

/-- Counts the outcome of conditional branch `k` of a region; four are counted. -/
def bumpBranch (bs : List (Nat × Nat)) (k : Nat) (taken other : Bool) : List (Nat × Nat) :=
  if 4 ≤ k then bs
  else
    let full := bs ++ (span bs.length (k + 1 - bs.length)).map fun _ => (0, 0)
    updAt (fun e => (e.1 + taken.toNat, e.2 + other.toNat)) full k

def State.countBranch (s : State) (gk i k : Nat) (taken other : Bool) : State :=
  s.countExec gk i (fun x => { x with branches := bumpBranch x.branches k taken other })
    fun w => { w with branches := bumpBranch w.branches k taken other }

def State.countConflict (s : State) (gk i : Nat) : State :=
  s.countExec gk i (fun x => { x with conflicts := x.conflicts + 1 })
    fun w => { w with conflicts := w.conflicts + 1 }

def State.countRollback (s : State) (gk i : Nat) : State :=
  s.countExec gk i (fun x => { x with rollbacks := x.rollbacks + 1 }) id

/-- A draft of a generation that is there, under the enclave's signature over the draft, its key and its generation
(03 R75); one that a peer sent is signed again (R76). -/
def Draft.installed (d : Draft) (gen now : Nat) : Draft :=
  { d with ready := true, gen, installedAt := now, core := none
           signature := Config.enclaveSign (sha512 (Config.draftBytes d.key gen ++ d.key ++ leBytes 4 gen)) }

/-- DRAFT_CREATE (03 R74, R77): a drafting core finishes the draft, or the next generation, it works on. -/
def execDraftCreate (slot : Nat) (s : State) : Host.Outcome State Fault Refusal :=
  match s.drafts.filter fun (e : Nat × Draft) => e.2.core == some slot with
  | [] => .next s
  | e :: _ =>
    .next (s.updDraft e.1 fun d =>
      if d.ready then
        { d.installed (d.gen + 1) s.cycle with profiles := [], windows := [] }
      else d.installed d.gen s.cycle).assignDrafting

/-- PEER_DRAFT_REQUEST (03 R76): answered when the chain is valid, the part and the draft are there, and the
request names the signing key. -/
def execPeerDraftRequest (r : DraftRequest) (s : State) : Host.Outcome State Fault Refusal :=
  let has := s.drafts.any fun (e : Nat × Draft) =>
    leNat e.2.key == r.key && e.2.ready && !e.2.native && e.2.imageKey == r.imageKey
  .next (if r.chainOk && has && s.life == .deployed then
      { s with sent := s.sent ++ [.draftAnswer r.peer r.key] }
    else s)

/-- PEER_DRAFT_RECEIVE (03 R76): a fetched draft that passes every check is signed again and stored; any other is
discarded, and the enclave's own drafting goes on. -/
def execPeerDraftReceive (r : DraftAnswer) (s : State) : Host.Outcome State Fault Refusal :=
  match s.drafts.filter fun (e : Nat × Draft) => leNat e.2.key == r.key && !e.2.ready with
  | [] => .next s
  | e :: _ =>
    .next (if r.chainOk && r.signatureOk && r.keyMatches then
        (s.updDraft e.1 fun d => { d.installed (r.generation % 16) s.cycle with waits := none }).assignDrafting
      else s)

/-- Whether a window makes its region trigger (03 R73). -/
def Window.triggers (w : Window) (cfg : Word) : Bool :=
  (drfConfl cfg != 0 && decide (drfConfl cfg ≤ w.conflicts))
    || (decide (drfBias cfg < 64) && w.branches.any fun b => decide (drfBias cfg < max b.1 b.2))
    || decide (drfStall cfg * w.cycles < w.stalled * 256)

/-- Whether a path still has an execution of a window under way. -/
def State.windowOpen (s : State) (dk record w : Nat) : Bool :=
  s.groups.any fun (e : Nat × Group) => (span 0 e.2.paths.length).any fun i =>
    match s.counting e.1 i with
    | some (_, p, k, _) => k == dk && p.execs.any fun x => x.record == record && (x.num - 1) / 64 == w
    | none => false

/-- The oldest window of a record that can be judged: its 64 executions have begun and ended. -/
def State.judgeable (s : State) (dk record : Nat) (d : Draft) : Option (Nat × Window) :=
  let execs := ((AMap.find? d.profiles record).getD {}).execs
  List.find? (fun (e : Nat × Window) => e.1 / 2 ^ 32 == record && decide (64 * (e.1 % 2 ^ 32 + 1) ≤ execs)
      && !s.windowOpen dk record (e.1 % 2 ^ 32)) d.windows

/-- PROFILE_WINDOW_JUDGE (03 R73, R74). -/
def execProfileWindowJudge (draft record : Nat) (s : State) : Host.Outcome State Fault Refusal :=
  match AMap.find? s.drafts draft with
  | none => .next s
  | some d =>
    match s.judgeable draft record d with
    | none => .next s
    | some (k, w) =>
      let cfg := (s.iface d.vi).drfProfile
      let kept := d.triggered || (drfEn cfg && w.triggers cfg && !d.native && decide (d.gen < 15))
      .next (s.updDraft draft fun d => { d with windows := AMap.del d.windows k, triggered := kept })

/-- Core cycles in 10 ms (01 R19). -/
def redraftPause : Nat := 10500000

/-- Whether a kept trigger of a draft may be acted on (03 R74). -/
def State.mayRedraft (s : State) (d : Draft) : Bool :=
  d.triggered && d.ready && !d.native && d.core.isNone && d.waits.isNone && decide (d.gen < 15)
    && decide (d.installedAt + redraftPause ≤ s.cycle)

/-- REDRAFT (03 R74): the enclave takes up a kept trigger; kept triggers lead to one re-draft. -/
def execRedraft (draft : Nat) (s : State) : Host.Outcome State Fault Refusal :=
  match AMap.find? s.drafts draft with
  | none => .next s
  | some d =>
    if s.mayRedraft d then
      .next ({ s.updDraft draft fun d => { d with triggered := false, waits := some s.next } with
               next := s.next + 1 }.assignDrafting)
    else .next s

end Sys2Proof.Machine
end

