-- ==== Sys2Proof/Machine/System.lean ====
section
/-! DEFINITION. Control words, the timebase and the numeric status word (08 R186; 09 R221; 13 R289, R290; 14
R295, R301; 18 R376; 21 R446, R447, R457, R458). -/

namespace Sys2Proof.Machine

/-- The control words of 21 Table 21.3. -/
inductive ControlWord where
  | policy | vi | age | profile | quota | replay | capture | hosting
  | errcnt (domain : Nat)
  | spare (pc : Nat)
  deriving DecidableEq, Repr

/-- The word a 16-bit number names. -/
def controlWord (n : Nat) : Option ControlWord :=
  let i := n % 4096
  let only (w : ControlWord) : Option ControlWord := if i = 0 then some w else none
  match n / 4096 with
  | 0 => only .policy
  | 1 => only .vi
  | 2 => only .age
  | 3 => only .profile
  | 4 => only .quota
  | 5 => only .replay
  | 6 => only .capture
  | 7 => only .hosting
  | 8 => if i < 16 then some (.errcnt i) else none
  | 9 => if i < 1024 then some (.spare i) else none
  | _ => none

/-- The bits of a word that are not reserved (08 Tables 8.2, 8.3; 02 Table 2.3; 03 Table 3.6; 04 Table 4.9;
06 Table 6.10; 13 Table 13.4). The words named by cases read by fields of their own. -/
def ControlWord.mask : ControlWord → Word
  | .policy => 0x0000FFFFFFFF00FF
  | .vi => 0x000007FF00FFFF07
  | .age => 0xFFFF
  | .profile => 0xFFFFFF01
  | .quota => 0x1FFFFF
  | .replay => 0x177
  | .capture => 0xFFFFFF07
  | .hosting => 0xFF3
  | .errcnt _ => 0x00F0FFFFFFFFFFFF
  | .spare _ => 0xFE7FFF

/-- A control word as its field map reads it (21 R458). Domains 11 to 15 read as zero (12 Table 12.6). -/
def State.readControl (s : State) (vi : Nat) (w : ControlWord) : Word :=
  let v := s.iface vi
  w.mask &&& match w with
    | .policy => s.schPolicy
    | .vi => v.schVi
    | .age => v.reformAge
    | .profile => v.drfProfile
    | .quota => v.lockQuota
    | .replay => v.ldrReplay
    | .capture => v.dbgCapture
    | .hosting => BitVec.ofNat 64
        (s.selfHosted.toNat + 2 * s.hotReset.toNat + 16 * s.dcNext + 256 * s.dcSize)
    | .errcnt d => if 11 ≤ d then 0 else Cells.get s.errcnt d ||| BitVec.ofNat 64 (d * 2 ^ 52)
    | .spare pc => Cells.get s.spare pc

/-- A write of DBG_CAPTURE: ARM written as 1 clears FROZEN and ACTIVE (13 R290). -/
def captureWrite (old x : Word) : Word :=
  let keep : Word := if x.getLsbD 0 then 0 else old &&& 6
  (x &&& 0xFFFFFF01) ||| keep

/-- Writes a control word, each field by its access code (00 Table 0.2; 21 R458). -/
def State.writeControl (s : State) (vi : Nat) (w : ControlWord) (x : Word) : State :=
  let y := x &&& w.mask
  match w with
  | .policy => { s with schPolicy := y }
  | .vi => s.updIface vi fun v => { v with schVi := y }
  | .age => s.updIface vi fun v => { v with reformAge := y }
  | .profile => s.updIface vi fun v => { v with drfProfile := y }
  | .quota => s.updIface vi fun v => { v with lockQuota := y }
  | .replay => s.updIface vi fun v => { v with ldrReplay := y }
  | .capture => s.updIface vi fun v => { v with dbgCapture := captureWrite v.dbgCapture x }
  | .hosting => { s with hotReset := x.getLsbD 1, dcNext := bitsOf x.toNat 4 4 }
  | .errcnt d => if 11 ≤ d then s else { s with errcnt := Cells.set s.errcnt d (x &&& 0xFFFFFFFFFFFF) }
  | .spare _ => s

/-- Whether a launch of an interface may read, or write, a word by SYSRD or SYSWR (21 Table 21.3). -/
def ControlWord.open (w : ControlWord) (write : Bool) (vi : Nat) : Bool :=
  match w with
  | .errcnt _ | .spare _ => vi == 0
  | .capture => true
  | _ => !write || vi == 0

/-- The word that an instruction names, when its launch may use it so. -/
def controlFor (write : Bool) (vi n : Nat) : Option ControlWord :=
  match controlWord n with
  | some w => if w.open write vi then some w else none
  | none => none

def controlFault : Flt := { code := .illegalOperand, detail := 1 }

def execSysrd (g : Guard) (d a : Operand) (s : State) : Host.Outcome State Fault Refusal :=
  s.issue g fun c =>
    if c.exec.isEmpty then s.finish c
    else
      match controlFor false c.l.vi (s.u64 c true c.lead a) with
      | some w => (s.writeAll c true d (s.readControl c.l.vi w)).finish c
      | none => s.raiseAll c controlFault

def execSyswr (g : Guard) (a b : Operand) (s : State) : Host.Outcome State Fault Refusal :=
  s.issue g fun c =>
    if c.exec.isEmpty then s.finish c
    else
      match controlFor true c.l.vi (s.u64 c true c.lead a) with
      | some w => (s.writeControl c.l.vi w (s.reg c true c.lead b)).finish c
      | none => s.raiseAll c controlFault

/-- CLOCK (18 R376; 13 R289). -/
def execClock (g : Guard) (d : Operand) (s : State) : Host.Outcome State Fault Refusal :=
  s.issue g fun c => (s.writeAll c true d (BitVec.ofNat 64 s.time)).finish c

/-- SATARM (21 R446). -/
def execSatarm (g : Guard) (s : State) : Host.Outcome State Fault Refusal :=
  s.issue g fun c =>
    if c.exec.isEmpty then s.finish c
    else if c.midBundle || c.p.run != 0 then
      (s.updCur c fun p =>
        { p with held := p.held ++ [{ instr := .satarm g, lanes := maskOf c.exec, vpc := s.vpc c }] }).finish c
    else (s.updBlock c.g.block fun b => { b with armed := true }).finish c

/-- SATCLR (21 R446, R447): the pending flags of the path at once, the committed flags of the context when
its region commits. -/
def execSatclr (g : Guard) (a : Operand) (s : State) : Host.Outcome State Fault Refusal :=
  s.issue g fun c =>
    if c.exec.isEmpty then s.finish c
    else
      let m := s.reg c true c.lead a
      let sat := m.getLsbD 0
      let inv := m.getLsbD 1
      (s.updCur c fun p =>
        { p with sat := p.sat && !sat, inv := p.inv && !inv, clrSat := p.clrSat || sat
                 clrInv := p.clrInv || inv }).finish c

/-- The numeric status word of a context and a path (09 Table 9.5). -/
def statusWord (b : Block) (g : Group) (p : Path) : Nat :=
  (g.sat && !p.clrSat || p.sat).toNat + 2 * (g.inv && !p.clrInv || p.inv).toNat + 4 * b.armed.toNat

/-- SATRD (21 R446, R447). -/
def execSatrd (g : Guard) (d : Operand) (s : State) : Host.Outcome State Fault Refusal :=
  s.issue g fun c => (s.writeAll c true d (BitVec.ofNat 64 (statusWord c.b c.g c.p))).finish c

end Sys2Proof.Machine
end

