-- ==== Sys2Proof/Machine/Capture.lean ====
section
/-! DEFINITION. Capture: samples, treadle messages and DBG_CAPTURE (13 R288, R290 to R292). -/

namespace Sys2Proof.Machine

/-- Fields of DBG_CAPTURE (13 Table 13.4). -/
def Iface.capPeriod (v : Iface) : Nat := bitsOf v.dbgCapture.toNat 16 16
def Iface.capDelay (v : Iface) : Nat := max 2 (bitsOf v.dbgCapture.toNat 8 8)
def Iface.capFrozen (v : Iface) : Bool := bitsOf v.dbgCapture.toNat 2 1 == 1
def Iface.capActive (v : Iface) : Bool := bitsOf v.dbgCapture.toNat 1 1 == 1
def Iface.capArmed (v : Iface) : Bool := bitsOf v.dbgCapture.toNat 0 1 == 1

/-- Whether a group can be sampled: it holds a live thread, capture of its interface is active with a period, and
the filter takes its stage (13 R288, R292). -/
def State.sampled (s : State) (g : Group) : Bool :=
  match AMap.find? s.blocks g.block with
  | none => false
  | some b =>
    match AMap.find? s.launches b.launch with
    | none => false
    | some l =>
      let v := s.iface l.vi
      !g.lanes.isEmpty && v.capActive && v.capPeriod != 0 && (v.filter == 0 || v.filter.getLsbD b.stage)

/-- The sample of a group (13 Table 13.3). -/
def State.sample (s : State) (g : Group) (b : Block) (l : Launch) : List Byte :=
  let (x, y, z) := (s.stageOf b l).bid b.linear
  let p := (g.paths[(g.issuingIndex).getD 0]?).getD {}
  leBytes 4 x ++ leBytes 4 y ++ leBytes 4 z ++ leBytes 1 b.stage ++ leBytes 1 ((s.stallReason g).getD 255)
    ++ leBytes 2 b.core ++ leBytes 8 (s.vpcAt b l { p with mark := none }) ++ leBytes 8 (l.lsn % 2 ^ 48 + g.gid * 2 ^ 48)

/-- The group of a core that is sampled next: the first after the one sampled last, in turn. -/
def State.nextSampled (s : State) (core : Nat) : Option (Nat × Group) :=
  let gs := (s.coreGroups core).filter fun e => s.sampled e.2
  match gs.find? fun (e : Nat × Group) => decide ((s.coreRegs core).sampleGroup < e.1) with
  | some e => some e
  | none => gs.head?

/-- Whether a core's next sample is due: PERIOD x 1,024 cycles after its last. -/
def State.sampleDue (s : State) (core : Nat) : Bool :=
  match s.nextSampled core with
  | none => false
  | some (_, g) =>
    match AMap.find? s.blocks g.block with
    | none => false
    | some b =>
      match AMap.find? s.launches b.launch with
      | none => false
      | some l => decide ((s.coreRegs core).sampled + (s.iface l.vi).capPeriod * 1024 ≤ s.cycle)

/-- SAMPLE_TAKE (13 R288): the sample goes to the context's sample queue, or is dropped. -/
def execSampleTake (core : Nat) (s : State) : Host.Outcome State Fault Refusal :=
  if !s.sampleDue core then .next s
  else
    match s.nextSampled core with
    | none => .next s
    | some (gk, g) =>
      match AMap.find? s.blocks g.block with
      | none => .next s
      | some b =>
        match AMap.find? s.launches b.launch with
        | none => .next s
        | some l =>
          let t := s.setCoreRegs core { s.coreRegs core with sampled := s.cycle, sampleGroup := gk }
          match t.context l.vi l.ctx with
          | some x => .next (t.dropOrEnqueue x x.sampleQ (s.sample g b l))
          | none => .next t

/-- TREADLE_MESSAGE_RECEIVE (13 R292): the message waits for its act instant. -/
def execTreadleMessageReceive (m : TreadleMsg) (s : State) : Host.Outcome State Fault Refusal :=
  .next { s with treadles := s.treadles ++ [m] }

/-- The act instant of a message, in nanoseconds. -/
def State.actAt (s : State) (m : TreadleMsg) : Nat := m.stamp + (s.iface m.vi).capDelay * 1000

/-- Whether one message is applied before another: act instant, then origin timestamp, then origin. -/
def State.actsBefore (s : State) (a b : TreadleMsg) : Bool :=
  if s.actAt a ≠ s.actAt b then decide (s.actAt a < s.actAt b)
  else if a.stamp ≠ b.stamp then decide (a.stamp < b.stamp)
  else decide (a.origin < b.origin)

/-- The message that acts next, when its instant has come. -/
def State.nextAct (s : State) : Option TreadleMsg :=
  match s.treadles.filter fun m => decide (s.actAt m ≤ s.time) with
  | [] => none
  | m :: ms => some (ms.foldl (fun a b => if s.actsBefore b a then b else a) m)

/-- What an action does to the capture of an interface (13 R292). -/
def Iface.act (v : Iface) (m : TreadleMsg) : Iface :=
  if !v.capArmed || v.capFrozen then v
  else
    match m.action with
    | 1 => { v with dbgCapture := v.dbgCapture ||| 2 }
    | 2 => { v with dbgCapture := v.dbgCapture &&& ~~~2 }
    | 3 => { v with filter := m.mask &&& 0xFFFF }
    | 4 => { v with dbgCapture := v.dbgCapture &&& ~~~2 ||| 4 }
    | _ => v

/-- TREADLE_ACT (13 R292). -/
def execTreadleAct (s : State) : Host.Outcome State Fault Refusal :=
  match s.nextAct with
  | none => .next s
  | some m => .next ({ s with treadles := s.treadles.erase m }.updIface m.vi fun v => v.act m)

/-- DBG_CAPTURE_WRITE (13 R290). -/
def execDbgCaptureWrite (vi : Nat) (value : Word) (s : State) : Host.Outcome State Fault Refusal :=
  .next (s.writeControl vi .capture value)

end Sys2Proof.Machine
end

