-- ==== Sys2Proof/Machine/Module.lean ====
section
/-! DEFINITION. The module: boot, resets, life cycle, errors, sparing, fabric accesses of peers, elections, shootdowns
and power (01 R19; 04 R111; 11 R264, R266; 12 R279, R282, R283; 14 R302 to R310). -/

namespace Sys2Proof.Machine

/-- Fields of a MEM_SPARE word (11 Table 11.9). -/
def spareState (w : Word) : Nat := bitsOf w.toNat 22 2
def spareBank (w : Word) : Nat := bitsOf w.toNat 17 5
def sparePointer (w : Word) : Nat := bitsOf w.toNat 0 15
def spareWord (state bank pointer : Nat) : Word :=
  BitVec.ofNat 64 (state % 4 * 2 ^ 22 + bank % 32 * 2 ^ 17 + pointer % 2 ^ 15)

/-- A bank is retired (11 R264): its pseudo-channel begins to copy it to the spare; one that has used its spare
keeps the bank in service, and so does one whose spare is taken by a bank under copy. -/
def State.retireBank (s : State) (pc bank : Nat) : State :=
  let w := Cells.get s.spare pc
  match spareState w with
  | 0 => { s with spare := Cells.set s.spare pc (spareWord 1 bank 0) }
  | 1 => if bank = spareBank w ∨ s.further.contains pc then s else { s with further := pc :: s.further }
  | 2 => if bank = spareBank w then s else { s with spare := Cells.set s.spare pc (spareWord 3 (spareBank w) 0) }
  | _ => s

/-- BANK_RETIRE (11 R264). -/
def execBankRetire (pc bank : Nat) (s : State) : Host.Outcome State Fault Refusal :=
  .next (if pc < 1024 ∧ bank < 32 then s.retireBank pc bank else s)

/-- SPARING_ROW_COPY (11 R264): row P is copied; at 32,768 rows the spare serves the bank. A further bank that failed
meanwhile stays in service. -/
def execSparingRowCopy (pc : Nat) (s : State) : Host.Outcome State Fault Refusal :=
  let w := Cells.get s.spare pc
  if spareState w ≠ 1 then .next s
  else
    let p := sparePointer w + 1
    let last := if s.further.contains pc then 3 else 2
    let x := if p = 32768 then spareWord last (spareBank w) 0 else spareWord 1 (spareBank w) p
    let further := if p = 32768 then s.further.filter fun k => k != pc else s.further
    .next { s with spare := Cells.set s.spare pc x, further }

/-- Initialises the management queue of an interface (14 R297, R487). -/
def State.makeQueue (s : State) (vi : Nat) : State :=
  let base := Config.mqArea vi % 2 ^ 34 * 64
  (s.initQueue (mqAddress vi) (freshBlock base (Config.mqLog2 vi % 20 + 1) (Config.mqFlags vi % 16) 64 0)).updIface vi
    fun v => { v with configured := true, mq := mqAddress vi }

/-- Initialises the management error queue (12 R283). -/
def State.makeErrorQueue (s : State) : State :=
  s.initQueue errorQueue
    (freshBlock (Config.errArea % 2 ^ 34 * 64) (Config.errLog2 % 20 + 1) (Config.errFlags % 16) 32 0)

/-- What a wipe leaves (11 R266): memory and every SRAM cleared; fuses and the enclave's configuration stay. -/
def State.wiped (s : State) (cycle : Nat) (phase : Phase) : State :=
  { life := s.life, selfHosted := s.selfHosted, hotReset := !s.selfHosted, dcNext := s.dcNext, device := s.device
    cycle, phase, free := s.free, next := s.next, agenda := s.agenda, sent := s.sent }

/-- A bank that the boot finds failing is retired (11 R264, R266; 14 R304). -/
def State.bootRetire (s : State) (e : Nat × Nat) : State :=
  if e.1 < 1024 ∧ e.2 < 32 then s.retireBank e.1 e.2 else s

/-- BOOT (14 R304), when it is due: the sparing status is read, banks that fail training or the wipe are retired. -/
def execBoot (r : BootReport) (s : State) : Host.Outcome State Fault Refusal :=
  if s.phase = .running then .next s
  else if !r.verified then .next (s.wiped 0 .recovery)
  else
    let t := r.sparing.foldl (fun (t : State) e =>
      { t with spare := Cells.set t.spare (e.1 % 1024) (spareWord e.2.1 e.2.2 0) }) (s.wiped 0 .running)
    let t := (r.failing ++ r.unwiped).foldl State.bootRetire t
    let size := if s.dcNext = 0 then 4 else min s.dcNext 8
    .next ((State.makeQueue { t with dcSize := size } 0).makeErrorQueue.updIface 0 fun v => { v with hostOwned := !s.selfHosted })

/-- The memory of an interface is zeroed. -/
def State.zeroMemory (s : State) (vi : Nat) : State :=
  let mine (ln : Nat) : Bool := s.owns vi (ln * 64)
  { s.dropShadow (fun k => mine (k % 2 ^ 35)) with
    mem := AMap.keep (fun k _ => !s.owns vi k) s.mem
    poison := AMap.keep (fun k _ => !mine (k % 2 ^ 35)) s.poison
    coreCache := AMap.keep (fun k _ => !mine (keyLine k)) s.coreCache
    dieCache := AMap.keep (fun k _ => !mine (keyLine k)) s.dieCache }

/-- The reset of one interface (14 Table 14.5, ISOLATE): its launches go without a completion record, its queue
requests, pins, exports and contexts end, and its memory is zeroed. Interface 0 has its management queue again. -/
def State.resetIface (s : State) (vi : Nat) : State :=
  let t := (s.launches.filter fun (e : Nat × Launch) => e.2.vi == vi).foldl (fun (t : State) e =>
    let u := (t.discardBlocks e.1 e.2)
    let u := if e.2.st = .committing ∨ e.2.irrevocable then u else u.dropVersion e.2.attempt
    { u with launches := AMap.del u.launches e.1 }) s
  let gone := (t.contexts.filter fun (e : Nat × Context) => e.2.vi == vi).map fun e => e.1
  let t := t.withdraw fun a => match a with
    | .delivery d => d.vi == vi
    | _ => false
  let t := t.zeroMemory vi
  let t := { t with
    contexts := AMap.keep (fun _ x => x.vi != vi) t.contexts
    queues := AMap.keep (fun _ q => q.vi != vi) t.queues
    images := AMap.keep (fun _ i => i.vi != vi) t.images
    deliveries := t.deliveries.filter fun d => d.vi != vi
    shootdowns := AMap.keep (fun _ d => d.vi != vi) t.shootdowns
    pins := AMap.keep (fun k _ => !gone.contains (k / 2 ^ 38)) t.pins
    ifaces := AMap.put t.ifaces vi { hostOwned := (t.iface vi).hostOwned } }
  (if vi = 0 then t.makeQueue 0 else t).fillSlots

/-- Whether a FULL reset is allowed (14 R303). -/
def State.fullAllowed (s : State) : Bool :=
  s.hotReset && (s.life == .provisioned || (s.life == .deployed && !s.selfHosted))

/-- UPSTREAM_RESET (14 R303). -/
def execUpstreamReset (k : ResetKind) (s : State) : Host.Outcome State Fault Refusal :=
  match k with
  | .flr vi => .next (if (s.iface vi).configured && (s.iface vi).hostOwned then s.resetIface vi else s)
  | .hot =>
    if s.fullAllowed then .next (s.wiped 0 .due)
    else
      let t := if s.hotReset then s.configEvent else s
      .next ((t.ifaces.filter fun (e : Nat × Iface) => e.2.configured && e.2.hostOwned).foldl
        (fun (t : State) e => t.resetIface e.1) t)

/-- The transitions of 14 Table 14.6 and who signs them. -/
def lifeStep (a b : LifeCycle) : Option Signer :=
  match a, b with
  | .manufacture, .provisioned => some .brodari
  | .provisioned, .deployed => some .owner
  | .provisioned, .rma => some .brodari
  | .deployed, .rma => some .owner
  | .deployed, .decommissioned => some .owner
  | .rma, .provisioned => some .brodari
  | .rma, .decommissioned => some .brodari
  | _, _ => none

/-- LIFECYCLE (14 R295, R305): a transition that its signer allows; SELF is fused on leaving MANUFACTURE; the wipe
runs before any core does. -/
def execLifecycle (r : LifeCycleReq) (s : State) : Host.Outcome State Fault Refusal :=
  if (lifeStep s.life r.next).isSome ∧ r.signer = lifeStep s.life r.next then
    let self := if s.life = .manufacture then r.hosting else s.selfHosted
    .next (State.wiped { s with life := r.next, selfHosted := self } s.cycle .due)
  else .next s

/-- The interface, context and LSN that an error record names (12 Table 12.8). -/
def State.affected (s : State) (lk : Nat) : Nat × Nat × Nat :=
  match AMap.find? s.launches lk with
  | some l => (l.vi, l.ctx, l.lsn % 2 ^ 48)
  | none => (0xFF, 0xFFFF, 0)

/-- An uncorrectable error that reaches a launch: counted, and the launch aborts with cause 2 (12 R279, R280). -/
def State.loseLaunch (s : State) (lk domain unit addr : Nat) : State :=
  let (vi, ctx, lsn) := s.affected lk
  (s.countError domain 2 unit vi ctx addr lsn).beginAbort lk 2 0 s.time

/-- UNCORRECTABLE_ERROR (12 Table 12.5). -/
def execUncorrectableError (place : ErrPlace) (domain unit addr : Nat) (s : State) :
    Host.Outcome State Fault Refusal :=
  let seen := s.countError domain 2 unit 0xFF 0xFFFF addr 0
  .next (match place with
    | .block b =>
      match AMap.find? s.blocks b with
      | some x => s.loseLaunch x.launch domain unit addr
      | none => seen
    | .launchVersion l => s.loseLaunch l domain unit addr
    | .memory pa => { seen with poison := Cells.set seen.poison (shadowKey 0 (pa % 2 ^ 41 / 64)) 1 }
    | .queue pa =>
      let cb := cellOf (pa % 2 ^ 41)
      ({ seen with poison := Cells.set seen.poison (shadowKey 0 (cb / 64)) 1, free := seen.free + 1 }).setHome cb
        { seen.home cb with corrupt := Config.free s.free % 3 + 1 }
    | .versionEntry _ => seen
    | .draft key =>
      ({ seen with
         drafts := seen.drafts.map fun (e : Nat × Draft) =>
           (e.1, if leNat e.2.key = key ∧ !e.2.native ∧ e.2.core.isNone then
             { e.2 with ready := false, waits := some seen.next } else e.2)
         next := seen.next + 1 }).assignDrafting
    | .appCore => seen)

/-- CORRECTED_ERROR (12 R282, R283): CORR rises, saturating; every 1,024 events of a domain are reported once. -/
def execCorrectedError (domain unit addr : Nat) (s : State) : Host.Outcome State Fault Refusal :=
  if 11 ≤ domain then .next s
  else
    let w := (Cells.get s.errcnt domain).toNat
    let n := min (w % 2 ^ 32 + 1) (2 ^ 32 - 1)
    let k := (Cells.get s.corrected domain).toNat + 1
    let t := { s with errcnt := Cells.set s.errcnt domain (BitVec.ofNat 64 (w / 2 ^ 32 * 2 ^ 32 + n))
                      corrected := Cells.set s.corrected domain (BitVec.ofNat 64 (k % 1024)) }
    .next (if k = 1024 then { t with errors := t.errors ++ [s.errorRecord domain 1 unit 0xFF 0xFFFF addr 0] } else t)

/-- FABRIC_ACCESS_RECEIVE (14 R309): an access that an export entry covers is performed in committed memory; any
other is refused. -/
def execFabricAccessReceive (r : FabricReq) (s : State) : Host.Outcome State Fault Refusal :=
  let v := s.iface r.exportVi
  let n := match r.store with
    | some bs => bs.length
    | none => r.size
  let refused : State := { s with sent := s.sent ++ [.fabricReply r.device none] }
  let inside := (span 0 n).all fun i => decide (r.addr + i < 2 ^ 41) && s.owns r.exportVi (r.addr + i)
  if v.configured && v.exports != 0 && inside && Config.exportCovers v.exports r then
    match r.store with
    | some bs =>
      .next { s.putRuns (lineParts r.addr bs.length) bs with sent := s.sent ++ [.fabricReply r.device (some [])] }
    | none =>
      if (span 0 n).any fun i => s.poisoned 0 ((r.addr + i) / 64) then .next refused
      else .next { s with sent := s.sent ++ [.fabricReply r.device (some (s.memBytes r.addr n))] }
  else .next refused

/-- Whether a shootdown by an interface with a VMID names an address space (04 R111; 14 Table 14.3). -/
def Shootdown.names (d : Shootdown) (own vmid asid : Nat) : Bool :=
  match d.kind with
  | 0 => true
  | 1 => vmid == d.ident
  | _ => vmid == own && asid == d.ident

/-- Whether a shootdown names one of `n` bytes of a space that it names. -/
def Shootdown.touches (d : Shootdown) (va n : Nat) : Bool :=
  d.kind < 3 || (decide (va < d.base + d.pages * 4096) && decide (d.base < va + n))

/-- Whether a shootdown names a TLB entry (04 R111). -/
def Shootdown.covers (d : Shootdown) (own : Nat) (e : TlbEntry) : Bool :=
  d.names own e.vmid e.asid && d.touches (e.va / 2 ^ e.bits * 2 ^ e.bits) (2 ^ e.bits)

/-- The VMID of an interface. -/
def State.vmidOf (s : State) (vi : Nat) : Nat := bitsOf (s.iface vi).hgatp 44 8

/-- Every die drops the entries that a shootdown names. -/
def State.dropEntries (s : State) (d : Shootdown) : State :=
  let vmid := s.vmidOf d.vi
  let drop (m : AMap (List TlbEntry)) : AMap (List TlbEntry) :=
    m.map fun (e : Nat × List TlbEntry) => (e.1, e.2.filter fun x => !d.covers vmid x)
  { s with coreTlb := drop s.coreTlb, clusterTlb := drop s.clusterTlb, dieTlb := drop s.dieTlb }

/-- Whether a shootdown names the space of a launch, or of whose request stands at a queue's home. -/
def State.shotAt (s : State) (d : Shootdown) (sp : Space2) : Bool :=
  d.names (s.vmidOf d.vi) (bitsOf sp.hgatp 44 8) (bitsOf sp.satp 44 16)

def State.shotLaunch (s : State) (d : Shootdown) (lk : Nat) : Bool :=
  (AMap.find? s.launches lk).any fun l => s.shotAt d (s.launchSpace l)

def State.shotBlock (s : State) (d : Shootdown) (bk : Nat) : Bool :=
  (AMap.find? s.blocks bk).any fun b => s.shotLaunch d b.launch

/-- Whether accesses that translated before a shootdown still have to perform: gated stores, engine operations under way,
accesses to a peer, and requests at a queue's home (04 R111). -/
def State.oldAccesses (s : State) (id : Nat) (d : Shootdown) : Bool :=
  (s.groups.any fun (e : Nat × Group) =>
      (e.2.paths.any fun p => p.gated.any fun w => w.via.isNone && decide (w.born ≤ id)) && s.shotBlock d e.2.block)
    || (s.engines.any fun (e : Nat × EngineOp) =>
      decide (e.1 < id) && e.2.started && e.2.stall.isNone && s.shotLaunch d e.2.launch)
    || (s.remote.any fun (e : Nat × Remote) => decide (e.1 < id) && !e.2.window && d.touches e.2.addr (max 1 e.2.data.length)
      && s.shotBlock d e.2.block)
    || (s.homes.any fun (e : Nat × Home) => (e.2.wake ++ e.2.polling).any fun r =>
      decide (r.stamp < id) && d.touches r.va 64 && (s.askerSpace r.who).any fun sp => s.shotAt d sp)

/-- SHOOTDOWN_COMPLETE (04 R111): the entries are gone, old translations have drained, and the completion word is
written. -/
def execShootdownComplete (id : Nat) (s : State) : Host.Outcome State Fault Refusal :=
  match AMap.find? s.shootdowns id with
  | none => .next s
  | some d =>
    if s.oldAccesses id d then .next s
    else .next ({ s.dropEntries d with shootdowns := AMap.del s.shootdowns id }.putBytes d.word (leBytes 8 1))

/-- Core cycles in 1 ms (01 R19). -/
def cyclesPerMs : Nat := 1050000

/-- Whether a device has heard no leader for 10 ms (14 R308). -/
def State.leaderSilent (s : State) : Bool :=
  s.leader != some identity && decide (max s.heard s.roundAt + 10 * cyclesPerMs ≤ s.cycle)

/-- ELECTION_TIMEOUT (14 R308): the device starts the next round with its own report. -/
def execElectionTimeout (s : State) : Host.Outcome State Fault Refusal :=
  .next (if s.leaderSilent then
      { s with round := s.round + 1, reports := [identity], roundAt := s.cycle, leader := none
               sent := s.sent ++ [.candidacy (s.round + 1)] }
    else s)

/-- ELECTION_REPORT_RECEIVE (14 R308): a report that does not verify takes no part; a higher round replaces the
current one. -/
def execElectionReportReceive (m : ElectionMsg) (s : State) : Host.Outcome State Fault Refusal :=
  .next (if !m.valid then s
    else if s.round < m.round then
      { s with round := m.round, reports := [m.identity], roundAt := s.cycle, leader := none }
    else if m.round = s.round ∧ s.leader.isNone ∧ s.cycle < s.roundAt + cyclesPerMs then
      { s with reports := s.reports ++ [m.identity] }
    else s)

/-- ELECTION_CHOICE (14 R308): the lowest valid identity of the round. -/
def execElectionChoice (s : State) : Host.Outcome State Fault Refusal :=
  match s.leader, s.reports with
  | none, r :: rs =>
    .next (if s.roundAt + cyclesPerMs ≤ s.cycle then
        { s with leader := some (rs.foldl min r), reports := [], heard := s.cycle }
      else s)
  | _, _ => .next s

/-- LEADER_HEARTBEAT (14 R308): every 1 ms. -/
def execLeaderHeartbeat (s : State) : Host.Outcome State Fault Refusal :=
  .next (if s.leader = some identity ∧ s.heard + cyclesPerMs ≤ s.cycle then
      { s with heard := s.cycle, sent := s.sent ++ [.heartbeat s.round] }
    else s)

/-- HEARTBEAT_RECEIVE (14 R308). -/
def execHeartbeatReceive (_ : Nat) (s : State) : Host.Outcome State Fault Refusal :=
  .next { s with heard := s.cycle }

/-- THERMAL_CAP_REDUCE (14 R310): outside the limits of Table 14.8 the cap falls, to 2,500 W at least. -/
def execThermalCapReduce (cap : Nat) (s : State) : Host.Outcome State Fault Refusal :=
  .next { s with supplyOk := false, cap := max 2500 (min s.cap cap) }

/-- THERMAL_POWER_OFF (14 R310): the outcome for launches is that of a FULL reset. -/
def execThermalPowerOff (s : State) : Host.Outcome State Fault Refusal := .next (s.wiped s.cycle .off)

/-- SUPPLY_AND_COOLANT_WITHIN_LIMITS (01 R19; 14 R310). -/
def execSupplyAndCoolantWithinLimits (s : State) : Host.Outcome State Fault Refusal :=
  .next { s with supplyOk := true, cap := 7500 }

end Sys2Proof.Machine
end

