-- ==== Sys2Proof/Machine/ImageCheck.lean ====
section
/-! DEFINITION. The loader's checks of an image at publication: rows 1 to 10 of 06 Table 6.7, in that order (06
R135 to R140). Every check answers its first failure: the reason, and the byte offset of the offending item from
the start of the image. -/

namespace Sys2Proof

/-- Whether no thread goes on at the next instruction (03 R79). -/
def Instr.ends : Instr → Bool
  | .bra .always _ | .brx .always _ _ | .ret .always _ _ | .exit .always | .trap .always _ | .tret .always => true
  | .reform .always (some _) => true
  | _ => false

end Sys2Proof

namespace Sys2Proof.Machine

/-- The first item of a list that a test refuses, with the reason and the item's offset. -/
def firstBad {α : Type} (reason : Nat) (at_ : Nat → Nat) (bad : Nat → α → Bool) (l : List α) : Option Refused :=
  (findIdx (fun (e : Nat × α) => bad e.1 e.2) ((span 0 l.length).zip l) 0).map fun i => (reason, at_ i)

/-- The entries of `n` bytes that the first section of a kind holds. -/
def entriesOf (img : List Byte) (kind n : Nat) : List (List Byte) :=
  let bs := sectionBytes img kind
  (span 0 (bs.length / n)).map fun i => (bs.drop (n * i)).take n

/-- Where entry `i` of `n` bytes of the first section of a kind stands. -/
def entryAt (img : List Byte) (kind n i : Nat) : Nat := sectionOff img kind + n * i

/-- Row 1, the header (06 Table 6.1). -/
def headerFault (h : List Byte) : Option Refused :=
  let count := field h 12 2
  let params := field h 14 2
  let size := field h 16 8
  if field h 0 4 ≠ 0x474D494F then some (1, 0)
  else if field h 4 2 ≠ 1 then some (1, 4)
  else if 1 < field h 6 1 then some (1, 6)
  else if field h 7 1 ≠ 0 then some (1, 7)
  else if field h 6 1 = 0 ∧ field h 8 4 ≠ 0 then some (1, 8)
  else if count < 2 ∨ 64 < count then some (1, 12)
  else if 4096 < params ∨ params % 8 ≠ 0 then some (1, 14)
  else if size % 64 ≠ 0 ∨ 2 ^ 30 < size ∨ size < 64 + 16 * count then some (1, 16)
  else if field h 32 32 ≠ 0 then some (1, 32)
  else none

/-- How many bytes an entry of a kind has, and how many entries there may be (06 Table 6.3). -/
def entryShape (kind : Nat) : Nat × Nat :=
  match kind with
  | 1 => (64, 16) | 2 => (32, 64) | 3 => (32, 64) | 4 => (16, 256) | 5 => (72, 2 ^ 32) | 10 => (16, 2 ^ 32)
  | _ => (1, 2 ^ 32)

/-- How many sections of a kind there may be, of those counted for the whole image. -/
def kindCount (kind : Nat) : Nat := if kind = 6 ∨ kind = 8 then 16 else if kind = 11 ∨ kind = 12 then 64 else 1

/-- Whether a directory entry breaks 06 Tables 6.2 and 6.3 by itself. -/
def entryBad (img : List Byte) (i : Nat) (x : Section) : Bool :=
  let n := entryShape x.kind
  decide (x.kind < 1) || decide (13 < x.kind) || field img (64 + 16 * i + 2) 6 != 0 || x.off % 64 != 0
    || decide (x.off < 64 + 16 * sectionCount img) || decide (field img 16 8 < x.off + x.size)
    || x.size % n.1 != 0 || decide (n.2 < x.size / n.1) || (x.kind == 1 && x.size == 0)
    || (if x.kind = 11 ∨ x.kind = 12 then
          !isNative img || decide (sectionCount img ≤ x.link) || (sectionAt img x.link).kind != 6
        else x.link != 0)
    || (x.kind == 9 && (x.size == 0 || x.size != field img 14 2))
    || (x.kind == 13 && (x.size != 192 || x.off + x.size != field img 16 8
      || field img (x.off + 132) 60 != 0))

/-- Whether section `i` overlaps an earlier one, or is one too many of its kind or of its code section. -/
def entryClashes (img : List Byte) (i : Nat) (x : Section) : Bool :=
  let before := (sections img).take i
  (before.any fun e => decide (e.2.off < x.off + x.size) && decide (x.off < e.2.off + e.2.size))
    || decide (kindCount x.kind ≤ (before.filter fun e => e.2.kind == x.kind).length)
    || ((x.kind == 11 || x.kind == 12) && before.any fun e => e.2.kind == x.kind && e.2.link == x.link)

/-- Whether a section that must stand is missing: stages, code, signature, the parameter pool, a side table. -/
def missingSection (img : List Byte) : Bool :=
  let has (k : Nat) : Bool := (sections img).any fun e => e.2.kind == k
  !has 1 || !has 6 || !has 13 || (field img 14 2 != 0 && !has 9)
    || (isNative img && (sections img).any fun e => e.2.kind == 6 && (sideTable img e.1).isNone)

/-- Row 1, FORMAT: directory, overlap, counts and reserved fields (06 R135, R136). -/
def formatFault (img : List Byte) : Option Refused :=
  let secs := (sections img).map fun e => e.2
  let at_ (i : Nat) : Nat := 64 + 16 * i
  (headerFault img).or <| (firstBad 1 at_ (entryBad img) secs).or <| (firstBad 1 at_ (entryClashes img) secs).or <|
    (if missingSection img then some (1, 64) else none).or <|
    (firstBad 1 (entryAt img 10 16) (fun _ e => field e 2 6 != 0) (entriesOf img 10 16)).or
    (firstBad 1 (entryAt img 5 72) (fun _ e => field e 2 6 != 0) (entriesOf img 5 72))

/-- The digest of an image: of every byte before its signature section (06 R136). -/
def imageDigest (img : List Byte) : List Byte := sha512 (img.take (sectionOff img 13))

/-- The public key that a key identifier names for an interface (06 R136; 14 Table 14.6). -/
def State.imageKey (s : State) (vi id : Nat) : Option (List Byte) :=
  match s.life with
  | .manufacture | .rma => Config.brodariKey id
  | .provisioned | .deployed => AMap.find? (s.iface vi).keys id
  | .decommissioned => none

/-- Row 2, SIGNATURE. -/
def State.signatureFault (s : State) (vi : Nat) (img : List Byte) : Option Refused :=
  match s.imageKey vi (field img 28 4) with
  | none => some (2, 28)
  | some key =>
    if ecdsaOk key (imageDigest img) ((sectionBytes img 13).take 132) then none
    else some (2, sectionOff img 13)

/-- Row 3, CARRIER (00 R2). -/
def carrierFault (img : List Byte) : Option Refused :=
  if isNative img ∧ field img 8 4 ≠ Config.stepping % 2 ^ 32 then some (3, 8) else none

/-- The bytes of the code sections, with their directory index. -/
def codeSections (img : List Byte) : List (Nat × Section) := (sections img).filter fun e => e.2.kind == 6

/-- The starts of the instructions of a Fleper section, with what decodes there; past the end of what decodes, the
length alone leads on (15 R311). -/
def walkCode : Nat → Nat → List Byte → List (Nat × Except DecodeError (Instr × Nat))
  | 0, _, _ => []
  | n + 1, pos, bs =>
    if bs.isEmpty then []
    else (pos, decode bs) :: (let k := 8 + 4 * bitsOf (field bs 0 8) 40 2
      walkCode n (pos + k) (bs.drop k))

def instrsOf (code : List Byte) : List (Nat × Except DecodeError (Instr × Nat)) :=
  walkCode (code.length / 8 + 1) 0 code

/-- The stages, and those that use a code section. -/
def stagesOf (img : List Byte) : List Stage := (span 0 (stageCount img)).map (stageAt img)
def stagesUsing (img : List Byte) (code : Nat) : List Stage := (stagesOf img).filter fun x => x.code == code

/-- The virtual PCs of the commit-point records of a side table (03 Tables 3.3, 3.4). -/
def commitPcs (side : List Byte) : List Nat :=
  ((span 0 (field side 8 4)).filter fun k => recordField side k 20 1 == 0).map fun k => recordField side k 0 8

/-- Whether a stage's entry is the start of an instruction of its code section, in a native image the virtual PC of
a commit-point record (02 R21). -/
def entryOk (img : List Byte) (x : Stage) : Bool :=
  if isNative img then
    match sideTable img x.code with
    | some side => (commitPcs side).contains x.entry
    | none => false
  else (instrsOf ((sectionAt img x.code).bytes img)).any fun e => e.1 == x.entry

/-- Whether a stage entry breaks 02 R21, R24, Table 2.1, 06 Table 6.4 or 08 R198. -/
def stageBad (img : List Byte) (i : Nat) (x : Stage) : Bool :=
  let e := (sectionBytes img 1).drop (64 * i)
  let g := x.gdim
  decide (1 < field e 5 1) || decide (x.weight < 1)
    || decide (g.1 * g.2.1 * g.2.2 < 1) || decide (2 ^ 32 < g.1 * g.2.1 * g.2.2)
    || decide (x.threads < 1) || decide (2048 < x.threads)
    || decide (x.minCores < 1) || decide (x.maxCores < x.minCores) || decide (1536 < x.maxCores)
    || decide (x.spadLog < 16) || decide (21 < x.spadLog) || decide (128 < x.accTiles)
    || decide (x.regs < 1) || decide (96 < x.regs)
    || decide (x.contexts * 64 < x.threads) || decide (64 < x.contexts) || field e 35 29 != 0
    || (x.quad && (x.blocks % 4 != 0 || x.minCores % 4 != 0))
    || decide (1024 < x.regRange)
    || decide (sectionCount img ≤ x.code) || (sectionAt img x.code).kind != 6 || !entryOk img x

/-- Whether a UNIFORM entry breaks 02 R41. -/
def uniformBad (img : List Byte) (es : List (List Byte)) (i : Nat) (e : List Byte) : Bool :=
  decide (63 < field e 0 1) || decide (stageCount img ≤ field e 1 1)
    || (es.take i).any fun f => field f 0 2 == field e 0 2

/-- Whether an instruction names accumulator or partial tiles beyond their limits (10 R236). -/
def tilesBad (tiles : Nat) : Instr → Bool
  | .mma _ fa _ p q flag acc _ _ =>
    if flag && !intPair fa then decide (64 < acc + mmaBlocks fa p q) else decide (tiles ≤ acc)
  | .accscale _ acc pt _ _ c _ => decide (tiles ≤ acc) || decide (64 < pt + c)
  | .accrd _ _ _ _ _ acc => decide (tiles ≤ acc)
  | .accwr _ _ acc _ => decide (tiles ≤ acc)
  | .accclr _ pt n c => decide ((if pt then 64 else tiles) < n + c)
  | _ => false

/-- The declared accumulator tiles that code of a section may use: the least of the stages that use it. -/
def tilesOf (img : List Byte) (code : Nat) : Nat :=
  (stagesUsing img code).foldl (fun m x => min m x.accTiles) 128

/-- Row 4 over Fleper code: the indexes of tiles and latches, against the stages that use the code (10 R236). -/
def codeTilesFault (img : List Byte) : Option Refused :=
  (codeSections img).findSome? fun e =>
    (instrsOf (e.2.bytes img)).findSome? fun x =>
      match x.2 with
      | .ok (i, _) => if tilesBad (tilesOf img e.1) i then some (4, e.2.off + x.1) else none
      | .error .matrixIndex => some (4, e.2.off + x.1)
      | .error _ => none

/-- Row 4, PIPELINE. -/
def pipelineFault (img : List Byte) : Option Refused :=
  let us := entriesOf img 10 16
  (firstBad 4 (entryAt img 1 64) (stageBad img) (stagesOf img)).or <|
    (firstBad 4 (entryAt img 10 16) (uniformBad img us) us).or
    (if isNative img then none else codeTilesFault img)

/-- Row 5, QUEUE (06 Table 6.5). -/
def queuesFault (img : List Byte) : Option Refused :=
  let n := stageCount img
  let slots := field img 14 2 / 8
  firstBad 5 (entryAt img 2 32) (fun _ e =>
    decide (1 < field e 0 1) || decide (8 ≤ field e 1 1) || decide (field e 4 1 < 1) || decide (20 < field e 4 1)
      || field e 5 1 != 0 || decide (field e 6 2 < 8) || decide (256 < field e 6 2) || field e 6 2 % 8 != 0
      || decide (slots ≤ field e 8 2) || field e 12 20 != 0
      || (if field e 0 1 = 0 then
            decide (n ≤ field e 2 1) || decide (n ≤ field e 3 1) || decide (slots ≤ field e 10 2)
          else field e 2 2 != 0xFFFF || field e 10 2 != 0)) (entriesOf img 2 32)

/-- Row 6, CLAIM (06 Table 6.6). -/
def claimEntriesFault (img : List Byte) : Option Refused :=
  let slots := field img 14 2 / 8
  firstBad 6 (entryAt img 3 32) (fun _ e =>
    decide (1 < field e 0 1) || decide (field e 1 1 < 1) || decide (3 < field e 1 1)
      || (if field e 0 1 = 1 then decide (slots ≤ field e 2 2) else field e 2 2 != 0)
      || field e 4 4 != 0 || decide (field e 16 8 < 64) || decide (2 ^ 57 < field e 16 8) || field e 24 8 != 0)
    (entriesOf img 3 32)

/-- The size of a window resource of a stage (04 R84). -/
def Stage.resource (x : Stage) (kind : Nat) : Nat :=
  if kind = 0 then x.spadSize else if kind < 5 then x.regRange * 256 else x.accTiles * 2048

/-- Row 7, GRANT (04 R84). -/
def grantsFault (img : List Byte) : Option Refused :=
  firstBad 7 (entryAt img 4 16) (fun _ e =>
    let kind := field e 0 1
    let stage := field e 2 1
    decide (6 < kind) || decide (8 ≤ field e 1 1) || field e 3 1 != 0 || field e 12 4 == 0
      || (if kind = 6 then decide (2 ^ 21 < field e 8 4 + field e 12 4)
          else decide (stageCount img ≤ stage)
            || decide ((stageAt img stage).resource kind < field e 8 4 + field e 12 4))) (entriesOf img 4 16)

/-- Row 8, TENSOR (04 R92). -/
def tensorsFault (img : List Byte) : Option Refused :=
  let es := entriesOf img 5 72
  firstBad 8 (entryAt img 5 72) (fun i e => !tensorValid ((e.drop 8).take 64)
    || (es.take i).any fun f => field f 0 2 == field e 0 2) es

/-- Row 9, ENCODING, over a Fleper section: the first instruction that is none, or whose target is no instruction
(15 R317, R330). -/
def encodingFault (img : List Byte) : Option Refused :=
  (codeSections img).findSome? fun e =>
    let is := instrsOf (e.2.bytes img)
    is.findSome? fun x =>
      match x.2 with
      | .error _ => some (9, e.2.off + x.1)
      | .ok (i, _) =>
        match i.disp with
        | none => none
        | some d => if is.any fun y => (y.1 : Int) == x.1 + d then none else some (9, e.2.off + x.1)

/-- Row 10, POOL (03 R79): code that can run past the end of its section. -/
def poolFault (img : List Byte) : Option Refused :=
  (codeSections img).findSome? fun e =>
    match (instrsOf (e.2.bytes img)).getLast? with
    | none => none
    | some x =>
      match x.2 with
      | .ok (i, _) => if i.ends then none else some (10, e.2.off + x.1)
      | .error _ => none

end Sys2Proof.Machine
end

