-- ==== Sys2Proof/Machine/NativeCheck.lean ====
section
/-! DEFINITION. The loader's checks of native code: rows 9 and 11 of 06 Table 6.7 (03 R57 to R72; 10 R235 to R237; 17
R359, R368, R370; 18 R375; 20 R438; 21 R466, R471). The bundles of a code section and of its twin stand in one
space of byte offsets, the twin directly after the code (log entry 10). -/

namespace Sys2Proof

/-- The instructions of a bundle. -/
def Bundle.instrs (b : Bundle) : List Instr := b.slots.map fun x => x.2.2

/-- Whether a bundle holds an instruction that a test accepts. -/
def Bundle.has (b : Bundle) (p : Instr → Bool) : Bool := b.slots.any fun x => p x.2.2

/-- The irreversible slots of 03 R63. -/
def Instr.irreversible : Instr → Bool
  | .atom .. | .atombadd .. | .atomcas .. | .enq .. | .enqtry .. | .deq .. | .deqtry .. | .qinit .. => true
  | .bararm .. | .bararr .. | .barrot .. | .barsync .. => true
  | .tdecl .. | .tfree .. | .tload .. | .tstore .. | .copy .. | .reduce .. | .rowop .. | .flush .. | .inval ..
  | .lock .. | .unlock .. | .trig .. => true
  | .syswr .. | .reform .. | .exit .. | .trap .. | .trapHandler .. => true
  | .mov _ _ (.k _) _ => true
  | _ => false

/-- The irreversible slots that move threads, which have no operands to check as they issue. -/
def Instr.control : Instr → Bool
  | .barsync .. | .reform .. | .exit .. | .trap .. | .trapHandler .. | .brk .. => true
  | _ => false

/-- Branches that take effect after a delay bundle (03 R59; 21 R466). -/
def Instr.delayed : Instr → Bool
  | .bra .. | .brx .. | .call .. | .callx .. | .ret .. | .tret .. => true
  | _ => false

/-- What may stand only in a commit-point bundle (03 R60; 05 R132; 20 R432). -/
def Instr.needsCommit : Instr → Bool
  | .ballot .. | .vote .. | .shfl .. | .gred .. | .gscan .. | .barwait .. | .fence .. | .drain .. | .pollbk ..
  | .brk .. | .yield .. => true
  | i => i.irreversible

/-- Store slots, which take entries of the gated store buffer (03 R62). -/
def Instr.isStore : Instr → Bool
  | .st .. | .stt .. => true
  | _ => false

/-- What may not follow the first matrix slot of a region beside hoisted loads (03 R64): accesses to `.g`, `.c` and
`.w`, those of engine commands among them, and waits on a tile, a barrier or a queue. -/
def Instr.notAfterMatrix : Instr → Bool
  | .ld _ _ _ _ _ m | .st _ _ _ _ m _ _ => m.space != .l
  | .atom _ _ _ _ _ _ _ m _ _ | .atombadd _ _ _ _ _ _ _ m _ _ _ | .atomcas _ _ _ _ _ m _ _ _ => m.space != .l
  | .ldt .. | .barwait .. | .barsync .. | .pollbk .. | .qstat .. => true
  | .enq .. | .enqtry .. | .deq .. | .deqtry .. | .qinit .. => true
  | .tload .. | .tstore .. | .copy .. | .reduce .. | .rowop .. | .flush .. | .inval .. | .lock .. | .unlock .. => true
  | _ => false

/-- Whether an instruction acquires (05 R117). -/
def Instr.acquires : Instr → Bool
  | .ld _ _ ord _ _ _ | .atom _ _ _ ord _ _ _ _ _ _ | .atombadd _ _ ord _ _ _ _ _ _ _ _ | .atomcas _ _ ord _ _ _ _ _ _ =>
    Machine.acquires ord
  | .fence _ kind _ _ => kind != .rel
  | _ => false

/-- The slots that stand behind the first matrix slot of their bundle. -/
def Bundle.afterMatrix (b : Bundle) : List (SlotClass × NSlot × Instr) :=
  (b.slots.dropWhile fun x => !x.2.2.isMatrix).drop 1

end Sys2Proof

namespace Sys2Proof.Machine

/-- The native code of a section: its index, the bundles of the section itself and with its twin, and the side
table. -/
structure NCode where
  own : Nat
  total : Nat
  side : List Byte
  bundles : List Bundle
  deriving DecidableEq, Repr

/-- Where a bundle stands in the image. -/
def bundleAt (img : List Byte) (code : Nat) (i : Nat) : Nat :=
  let x := sectionAt img code
  if 64 * i < x.size then x.off + 64 * i
  else ((twinSection img code).map fun t => t.off).getD 0 + (64 * i - x.size)

/-- The registers per group context that code of a section may use: the least of its stages. -/
def regsOf (img : List Byte) (code : Nat) : Nat := (stagesUsing img code).foldl (fun m x => min m x.regs) 96

/-- The bundles of a section, or the index of the first that is none, with the reason: of an index of a latch or a
tile beyond those there are it is NATIVE, of any other encoding ENCODING (06 Table 6.7; 10 R236). -/
def bundlesOf (regs : Nat) : Nat → List Byte → Except (Nat × Nat) (List Bundle)
  | 0, _ => .ok []
  | n + 1, bs =>
    if bs.isEmpty then .ok []
    else
      match decodeBundle bs regs with
      | .error (.encoding .matrixIndex) => .error (0, 11)
      | .error _ => .error (0, 9)
      | .ok b =>
        match bundlesOf regs n (bs.drop 64) with
        | .error (i, r) => .error (i + 1, r)
        | .ok l => .ok (b :: l)

/-- The alias byte of a slot; 0 where it has none (03 R65). -/
def aliasOf (x : SlotClass × NSlot × Instr) : Nat :=
  match x.2.2 with
  | .ld .. | .st .. => x.2.1.c
  | _ => 0

/-- A bundle of a code space. -/
def NCode.at_ (c : NCode) (i : Nat) : Option Bundle := c.bundles[i]?

/-- Whether bundle `i` is a commit point. -/
def NCode.commits (c : NCode) (i : Nat) : Bool := (c.at_ i).any fun b => b.commit

/-- The static target of a transfer at bundle `i`. -/
def NCode.target (i : Nat) (d : Int) : Option Nat := if 0 ≤ (i : Int) + d then some ((i : Int) + d).toNat else none

/-- The targets of a delayed branch in a bundle, and whether lanes may go on behind the delay bundle. -/
def NCode.delayedTo (c : NCode) (i : Nat) : Option (List Nat × Bool) :=
  match c.at_ i with
  | none => none
  | some b =>
    match b.instrs.find? fun x => x.delayed with
    | none => none
    | some (.bra g d) => some ((NCode.target i d).toList, g != .always)
    | some (.call g _ d) => some ((NCode.target i d).toList, g != .always)
    | some (.brx g _ _) => some ([], g != .always)
    | some (.callx g _ _ _) => some ([], g != .always)
    | some (.ret g _ _) => some ([], g != .always)
    | some (.tret g) => some ([], g != .always)
    | some _ => none

/-- Whether no lane goes on behind a bundle, and where its undelayed transfer leads. -/
def NCode.leaves (c : NCode) (i : Nat) : Bool × List Nat :=
  match c.at_ i with
  | none => (true, [])
  | some b =>
    (b.has fun x => match x with
      | .exit .always | .trap .always _ | .reform .always (some _) | .trapHandler .always _ _ _ => true
      | _ => false,
     b.instrs.flatMap fun x => match x with
      | .reform _ (some d) => (NCode.target i d).toList
      | .trapHandler _ _ _ d => (NCode.target i d).toList
      | _ => [])

/-- A place of a path: a bundle, and whether it issues as the delay bundle of the one before. -/
abbrev NNode := Nat × Bool

/-- Where a path goes on from a place by falling through, and by a static transfer. -/
def NCode.falls (c : NCode) (n : NNode) : Option NNode :=
  if n.2 then
    match c.delayedTo (n.1 - 1) with
    | some (_, true) => some (n.1 + 1, false)
    | _ => none
  else if (c.delayedTo n.1).isSome then some (n.1 + 1, true)
  else if (c.leaves n.1).1 then none
  else some (n.1 + 1, false)

def NCode.jumps (c : NCode) (n : NNode) : List NNode :=
  if n.2 then
    match c.delayedTo (n.1 - 1) with
    | some (ts, _) => ts.map fun t => (t, false)
    | none => []
  else (c.leaves n.1).2.map fun t => (t, false)

def NCode.next (c : NCode) (n : NNode) : List NNode := (c.falls n).toList ++ c.jumps n

/-- Adds what is not in a list yet. -/
def addNew (l new : List NNode) : List NNode := new.foldl (fun l x => if l.contains x then l else l ++ [x]) l

/-- The places that follow a set of places and do not satisfy a test. -/
def NCode.spread (c : NCode) (stop : Nat → Bool) (from_ : List NNode) : List NNode :=
  addNew [] ((from_.flatMap c.next).filter fun n => decide (n.1 < c.total) && !stop n.1)

/-- The places reached after `k` more bundles, none of which satisfies the test; empty as soon as every path has
met one. -/
def NCode.runs (c : NCode) (stop : Nat → Bool) : Nat → List NNode → List NNode
  | 0, l => l
  | _ + 1, [] => []
  | k + 1, l => NCode.runs c stop k (c.spread stop l)

/-- The places of a region: what is reached from places without passing a commit point. -/
def NCode.region (c : NCode) : Nat → List NNode → List NNode
  | 0, l => l
  | k + 1, l => NCode.region c k (addNew l (c.spread c.commits l))

/-- The commit records whose twin is entered at bundle `i` (03 R67). -/
def NCode.twinsAt (c : NCode) (i : Nat) : List Nat :=
  (span 0 (field c.side 8 4)).filter fun n => recordField c.side n 20 1 == 0 && recordField c.side n 12 4 == 64 * i

/-- Where paths begin: commit points, at which every indirect transfer and every stage entry lands, and twin entries. -/
def NCode.begins (c : NCode) (i : Nat) : Bool := c.commits i || !(c.twinsAt i).isEmpty

def NCode.starts (c : NCode) : List NNode :=
  ((span 0 c.total).filter c.begins).map fun i => (i, false)

/-- Every place that a path reaches. -/
def NCode.reached (c : NCode) : List NNode := c.region (2 * c.total) c.starts

/-- The registers that a slot's fixed-latency result lands in, with the latency (03 R57): cluster 4 is s, 5 are the
predicates. -/
def landsIn (x : SlotClass × NSlot × Instr) : List (Nat × Nat × Nat) :=
  let o := x.2.1.opc
  let d := x.2.1.d
  let wide := (x.2.1.ty == 3 || x.2.1.ty == 7 || x.2.1.ty == 9)
    && !(o == 0x04B || (decide (0x08A ≤ o) && decide (o ≤ 0x08C)) || o == 0x143)
    && !(decide (0x107 ≤ o) && decide (o ≤ 0x10D)) && !(decide (0x120 ≤ o) && decide (o ≤ 0x131))
  match fixedLatency x.1 o, x.1 with
  | some l, .vec k =>
    if d < 96 then (l, k, d) :: (if wide then [(l, k, d + 1)] else [])
    else if 192 ≤ d ∧ d < 204 then [(l, 5, d)] else if 128 ≤ d ∧ d < 192 then [(l, 4, d)] else []
  | some l, .scl => if 192 ≤ d ∧ d < 204 then [(l, 5, d)] else if 128 ≤ d ∧ d < 192 then [(l, 4, d)] else []
  | _, _ => []

/-- The accumulator and partial tiles (128 up) that an instruction writes (10 R235). -/
def tilesWritten : Instr → List Nat
  | .mma _ fa _ p q flag acc _ _ => if flag && !intPair fa then span (128 + acc) (mmaBlocks fa p q) else [acc]
  | .accscale _ acc _ _ _ _ _ => [acc]
  | .accwr _ _ acc _ => [acc]
  | .accclr _ pt n c => span (if pt then 128 + n else n) c
  | _ => []

/-- Whether a list holds a thing twice. -/
def hasTwice {α : Type} [BEq α] : List α → Bool
  | [] => false
  | x :: xs => xs.contains x || hasTwice xs

/-- Whether slots that follow a matrix slot of their own bundle break 03 R64 or 10 R237. -/
def badAfterMatrix (xs : List (SlotClass × NSlot × Instr)) : Bool :=
  xs.any fun x => x.2.2.notAfterMatrix || aliasOf x != 0

/-- Whether a load that stands at a place was hoisted above an acquire (05 R132): an acquire follows it in its region,
and then a store that the load, by its load identifier, follows in the Fleper order (03 R65). -/
def NCode.hoistedOver (c : NCode) (n : NNode) : Bool :=
  let lids : List Nat := match c.at_ n.1 with
    | some b => (b.slots.filter fun x => !x.2.2.isStore).map aliasOf
    | none => []
  let acquires (m : NNode) : Bool := (c.at_ m.1).any fun b => b.has Instr.acquires
  let floors (m : NNode) : List Nat := match c.at_ m.1 with
    | some b => (b.slots.filter fun x => x.2.2.isStore).map aliasOf
    | none => []
  match lids.foldl max 0 with
  | 0 => false
  | lid =>
    let behind := c.region 256 [n]
    (c.region 256 ((behind.filter acquires).flatMap fun m => c.spread c.commits [m])).any fun m =>
      (floors m).any fun k => decide (0 < k) && decide (k ≤ lid)

/-- What one bundle breaks by itself and with the one after it (03 R57, R59, R60, R63, R69; 10 R235, R236; 17 R359,
R368, R370; 18 R375; 20 R438; 21 R466, R471). Of two branches or calls in one bundle no rule speaks; such code is
refused, as their lanes would have two targets: DESIGN CHOICE (log entry 34). -/
def NCode.bundleBad (c : NCode) (tiles : Nat) (i : Nat) (b : Bundle) : Bool :=
  let next := c.at_ (i + 1)
  let nextCommits := c.commits (i + 1)
  let irrev := b.instrs.filter fun x => x.irreversible
  let delay := i != 0 && (c.delayedTo (i - 1)).isSome
  let k := b.cpidx
  let marked := b.commit || k != 0
  let toCommit (d : Int) : Bool := (NCode.target i d).any c.commits
  (b.poll && !b.commit)
    || (marked && (decide (field c.side 8 4 ≤ k) || recordField c.side k 8 4 != 64 * i
      || recordField c.side k 20 1 != (if b.commit then 0 else 1)))
    || (delay && (b.commit || k != 0 || b.poll || b.has Instr.delayed))
    || (b.has Instr.needsCommit && !b.commit)
    || decide (1 < irrev.length) || (irrev.length == 1 && !nextCommits)
    || (b.has (fun x => match x with | .brk .. => true | _ => false)
      && (!nextCommits || decide (1 < (b.slots.filter fun x => x.2.1.opc != 0).length)))
    || (b.has (fun x => match x with | .barsync .. => true | _ => false) && !(next.any fun y => y.poll))
    || (b.has (fun x => match x with | .yield .. => true | _ => false) && !b.poll)
    || (b.has (fun x => match x with | .call .. | .callx .. => true | _ => false) && !c.commits (i + 2))
    || (b.instrs.any fun x => match x with
        | .reform _ (some d) => !toCommit d
        | .trapHandler _ _ _ d => !toCommit d
        | _ => false)
    || decide (1 < (b.instrs.filter fun x => x.delayed).length)
    || ((c.delayedTo i).any fun e => e.1.any fun t => decide (c.total ≤ t))
    || (b.instrs.any fun x => match x.disp with
        | some d => (NCode.target i d).isNone || decide (c.total ≤ ((i : Int) + d).toNat)
        | none => false)
    || hasTwice (b.slots.flatMap landsIn) || hasTwice (b.instrs.flatMap tilesWritten)
    || (b.instrs.any (tilesBad tiles))
    || badAfterMatrix b.afterMatrix
    || (decide (c.own ≤ i) && b.slots.any fun x => aliasOf x != 0)

/-- Whether a path falls out of a bundle through the end of its section (03 R72). -/
def NCode.fallsOut (c : NCode) (i : Nat) : Bool :=
  let out (n : NNode) : Bool := match c.falls n with
    | some m => m.1 == c.own || decide (c.total ≤ m.1)
    | none => false
  (i + 1 == c.own || i + 1 == c.total) && c.reached.any fun n => n.1 == i && out n

/-- The most store slots on a path of a region from places, up to `k` bundles on. -/
def NCode.mostStores (c : NCode) : Nat → List (NNode × Nat) → Nat
  | 0, l => l.foldl (fun m e => max m e.2) 0
  | k + 1, l =>
    let here := l.foldl (fun m e => max m e.2) 0
    let step := l.flatMap fun e => (c.spread c.commits [e.1]).map fun n =>
      (n, e.2 + ((c.at_ n.1).map fun b => (b.instrs.filter fun x => x.isStore).length).getD 0)
    let merged := step.foldl (fun (acc : List (NNode × Nat)) e =>
      if acc.any fun x => x.1 == e.1 && decide (e.2 ≤ x.2) then acc
      else (acc.filter fun x => x.1 != e.1) ++ [e]) []
    if merged.isEmpty then here else max here (c.mostStores k merged)

/-- What a region that begins at bundle `i`, or the twin code that is entered there, breaks (03 R60, R64, R67, R72; 17
Table 17.3). -/
def NCode.regionBad (c : NCode) (i : Nat) (b : Bundle) : Bool :=
  let start : NNode := (i, false)
  let stores := (b.instrs.filter fun x => x.isStore).length
  let reserves := (if b.commit then [b.cpidx] else []) ++ c.twinsAt i
  let reserve := (reserves.map fun n => recordField c.side n 18 2).foldl min 512
  let inside := c.region 256 (c.spread c.commits [start])
  let of_ (p : Bundle → Bool) (n : NNode) : Bool := (c.at_ n.1).any p
  let matrix := (start :: inside).filter (of_ fun x => x.has Instr.isMatrix)
  let after := c.region 256 (matrix.flatMap fun n => c.spread c.commits [n])
  let twin := !(c.twinsAt i).isEmpty
  c.begins i
    && (!(c.runs c.commits 255 (c.spread c.commits [start])).isEmpty
      || decide (min 8 (reserve / 64) < c.mostStores 256 [(start, stores)])
      || after.any (of_ fun x => badAfterMatrix x.slots)
      || (start :: inside).any c.hoistedOver
      || (!twin && inside.any fun n => decide (n.1 < c.own) && of_ (fun x => x.cpidx != 0) n)
      || (twin && (start :: inside).any (of_ fun x => x.slots.any fun y => aliasOf y != 0)))

/-- Whether a path that begins at bundle `i`, or that has passed its poll point, meets none for 4,096 bundles (02 R47). -/
def NCode.pollMissing (c : NCode) (i : Nat) : Bool :=
  let polls (j : Nat) : Bool := (c.at_ j).any fun b => b.poll
  let from_ := if polls i then c.spread polls [(i, false)] else if c.begins i then [(i, false)] else []
  !(c.runs polls 4095 from_).isEmpty

/-- The stack depth of a recipe after its operations, or none when it breaks 03 R70. -/
def recipeDepth (pool : List Byte) : Nat → Nat → Nat → Option Nat
  | 0, _, _ => none
  | n + 1, pos, d =>
    let op := field pool pos 1
    let rest := field pool (pos + 1) 3
    let part := field pool (pos + 3) 1
    let push : Option Nat := if d < 8 then recipeDepth pool n (pos + 4) (d + 1) else none
    if pool.length < pos + 4 then none
    else
      match op with
      | 0x00 => if rest = 0 ∧ d = 1 then some d else none
      | 0x01 =>
        if regPartOk (field pool (pos + 1) 1) (field pool (pos + 2) 1) part then push else none
      | 0x02 => push
      | 0x03 => if (Special.ofCode (field pool (pos + 1) 2)).isSome ∧ part = 0 then push else none
      | _ =>
        if 0x10 ≤ op ∧ op ≤ 0x15 then
          if rest = 0 ∧ 2 ≤ d then recipeDepth pool n (pos + 4) (d - 1) else none
        else if op = 0x16 ∨ op = 0x17 then
          if rest < 64 ∧ 1 ≤ d then recipeDepth pool n (pos + 4) d else none
        else none
where
  /-- A file, a register and a part of 03 R69. -/
  regPartOk (file reg part : Nat) : Bool :=
    if file = 0 then decide (reg < 64) && (part == 0 || part == 2)
    else decide (file ≤ 4) && (part == 0 && decide (reg < 96) || part == 1 && decide (reg < 95))

/-- Whether a live entry is as 03 R69 lays it out. -/
def liveOk (pool e : List Byte) : Bool :=
  match field e 3 1 with
  | 1 => recipeDepth.regPartOk (field e 4 1) (field e 5 1) (field e 6 1) && field e 7 1 == 0
  | 2 => field e 4 4 % 4 == 0 && (recipeDepth pool 32 (field e 4 4) 0).isSome
  | _ => false

/-- Whether record `n` of a side table breaks 03 R69 or R70. -/
def recordBad (side pool : List Byte) (total n : Nat) : Bool :=
  let at_ := field side (field side 12 4 + 4 * n) 4
  let f (off w : Nat) : Nat := field side (at_ + off) w
  let live := f 16 2
  let entries := (span 0 live).map fun i => (side.drop (at_ + 24 + 8 * i)).take 8
  at_ % 8 != 0 || decide (side.length < at_ + 24 + 8 * live) || decide (4095 < live) || decide (512 < f 18 2)
    || f 8 4 % 64 != 0 || decide (64 * total ≤ f 8 4) || decide (1 < f 20 1) || decide (16 ≤ f 21 1) || f 22 2 != 0
    || (if f 20 1 = 0 then f 12 4 % 64 != 0 || decide (64 * total ≤ f 12 4)
        else f 12 4 != 0 || f 18 2 != 0 || n == 0)
    || (entries.any fun e => !liveOk pool e)
    || (entries.zip (entries.drop 1)).any fun e => decide (field e.2 0 3 ≤ field e.1 0 3)

/-- What a side table breaks: the offset in it (03 R68 to R70). -/
def sideFault (side code : List Byte) (total : Nat) : Option Nat :=
  let count := field side 8 4
  let index := field side 12 4
  let pool := field side 16 4
  let size := field side 20 4
  if side.length < 32 ∨ field side 0 4 ≠ 0x42544453 then some 0
  else if field side 4 2 ≠ 1 then some 4
  else if field side 6 2 ≠ 0 then some 6
  else if count < 1 ∨ 65536 < count then some 8
  else if index < 32 ∨ index % 4 ≠ 0 ∨ side.length < index + 4 * count then some 12
  else if pool % 8 ≠ 0 ∨ side.length < pool + size then some 16
  else if size % 4 ≠ 0 then some 20
  else if (side.drop 24).take 8 ≠ (sha512 code).take 8 then some 24
  else
    (findIdx (recordBad side ((side.drop pool).take size) total) (span 0 count) 0).map fun n => index + 4 * n

/-- The first record that names no bundle which carries its number (03 R69). -/
def NCode.strayRecord (c : NCode) : Option Nat :=
  (span 0 (field c.side 8 4)).find? fun n =>
    !(c.at_ (recordField c.side n 8 4 / 64)).any fun b =>
      b.cpidx == n && b.commit == (recordField c.side n 20 1 == 0)

/-- Whether a static transfer of a bundle leads into a pool (03 R79). -/
def NCode.intoPool (img : List Byte) (code i : Nat) (b : Bundle) : Bool :=
  b.instrs.any fun x => match x.disp with
    | none => false
    | some d =>
      let at_ : Int := (bundleAt img code i : Int) + 64 * d
      (sections img).any fun e => (e.2.kind == 8 || e.2.kind == 9) && decide ((e.2.off : Int) ≤ at_) && decide (at_ < e.2.off + e.2.size)

/-- Rows 9 to 11 over one native code section. -/
def nativeSectionFault (img : List Byte) (e : Nat × Section) : Option Refused :=
  let own := e.2.bytes img
  let twin := ((twinSection img e.1).map fun t => t.bytes img).getD []
  let side := (sideTable img e.1).getD []
  let sideOff := (((sections img).find? fun x => x.2.kind == 11 && x.2.link == e.1).map fun x => x.2.off).getD 0
  let at_ (i : Nat) : Nat := bundleAt img e.1 i
  match bundlesOf (regsOf img e.1) (own.length / 64 + 1) own, bundlesOf (regsOf img e.1) (twin.length / 64 + 1) twin with
  | .error (i, r), _ => some (r, at_ i)
  | _, .error (i, r) => some (r, at_ (own.length / 64 + i))
  | .ok a, .ok b =>
    let c : NCode := { own := a.length, total := a.length + b.length, side, bundles := a ++ b }
    let tiles := tilesOf img e.1
    (firstBad 10 at_ (fun i x => c.fallsOut i || NCode.intoPool img e.1 i x) c.bundles).or <|
      ((sideFault side own c.total).map fun o => (11, sideOff + o)).or <|
      (c.strayRecord.map fun n => (11, sideOff + field side 12 4 + 4 * n)).or <|
      firstBad 11 at_ (fun i x => c.bundleBad tiles i x || c.regionBad i x || c.pollMissing i) c.bundles

/-- Rows 9 to 11 of 06 Table 6.7 over every code section. -/
def codeFault (img : List Byte) : Option Refused :=
  if isNative img then
    let fs := (codeSections img).filterMap (nativeSectionFault img)
    ((fs.find? fun f => f.1 == 9).or (fs.find? fun f => f.1 == 10)).or fs.head?
  else (encodingFault img).or (poolFault img)

end Sys2Proof.Machine
end

