-- ==== Sys2Proof/Machine/Publish.lean ====
section
/-! DEFINITION. Reads and writes of the device at addresses that a command names, and the publication of an image: the
loader's checks in order, the digest, the handle, the drafts of the image it replaces (03 R78; 06 R136, R140; 14 R297,
R308). -/

namespace Sys2Proof.Machine

/-- Where the addresses of a command lie: in a context's address space, or in the physical memory of the interface
(14 R297). -/
inductive Reach where
  | space (sp : Space2)
  | physical (vi : Nat)
  deriving DecidableEq, Repr

/-- The physical address of one address of a command. -/
def State.reachAddr (s : State) (r : Reach) (write : Bool) (a : Nat) : Option (Nat × State) :=
  match r with
  | .space sp => match (if write then s.storeAddr sp a else s.homeAddr sp a) with
    | .ok x => some x
    | .error _ => none
  | .physical vi => if a < 2 ^ 41 ∧ s.owns vi a then some (a, s) else none

/-- The physical runs of a range, none of which crosses a line; or the offset of the first byte that has none. -/
def State.reachRuns (s : State) (r : Reach) (write : Bool) : Nat → Nat → Nat → Nat →
    Except Nat (List (Nat × Nat) × State)
  | 0, _, _, _ => .ok ([], s)
  | f + 1, base, a, n =>
    if n = 0 then .ok ([], s)
    else
      let k := min n (64 - a % 64)
      match s.reachAddr r write a with
      | none => .error (a - base)
      | some (pa, t) =>
        match t.reachRuns r write f base (a + k) (n - k) with
        | .error o => .error o
        | .ok (l, u) => .ok ((pa, k) :: l, u)

/-- `n` bytes at an address of a command; an address beyond the address space names none. What an uncorrectable error has
destroyed cannot be read (12 R279; log entry 45). -/
def State.reachRead (s : State) (r : Reach) (a n : Nat) : Except Nat (List Byte × State) :=
  if 2 ^ 64 < a + n then .error (2 ^ 64 - a)
  else
    match s.reachRuns r false (n / 64 + 2) a a n with
    | .error o => .error o
    | .ok (l, t) =>
      match findIdx (fun (e : Nat × Nat) => s.poisoned 0 (e.1 / 64)) l 0 with
      | some 0 => .error 0
      | some (i + 1) => .error (64 - a % 64 + 64 * i)
      | none => .ok (l.flatMap fun e => s.memBytes e.1 e.2, t)

/-- Whether a range lies in immediate ranges of the address space. -/
def Reach.immediate (r : Reach) (a n : Nat) : Bool :=
  match r with
  | .space sp => (pagesOf a n).all fun e => isImmediate (attrFlags sp.attrs e.1)
  | .physical _ => true

/-- Writes bytes at an address of a command, all or none, in immediate memory. -/
def State.reachWrite (s : State) (r : Reach) (a : Nat) (bs : List Byte) : Option State :=
  if 2 ^ 64 < a + bs.length ∨ !r.immediate a bs.length then none
  else
    match s.reachRuns r true (bs.length / 64 + 2) a a bs.length with
    | .error _ => none
    | .ok (l, t) => some (t.putRuns l bs)

/-- The image at an address (14 R297): its header, then as many bytes as that says. -/
def State.readImage (s : State) (r : Reach) (a : Nat) : Except Refused (List Byte × State) :=
  match s.reachRead r a 64 with
  | .error o => .error (1, o)
  | .ok (h, _) =>
    match headerFault h with
    | some f => .error f
    | none =>
      match s.reachRead r a (field h 16 8) with
      | .error o => .error (1, o)
      | .ok x => .ok x

/-- Rows 1 to 11 of 06 Table 6.7, in order. -/
def State.imageFault (s : State) (vi : Nat) (img : List Byte) : Option Refused :=
  (formatFault img).or <| (s.signatureFault vi img).or <| (carrierFault img).or <| (pipelineFault img).or <|
    (queuesFault img).or <| (claimEntriesFault img).or <| (grantsFault img).or <| (tensorsFault img).or
    (codeFault img)

/-- The published image of an interface with a digest. -/
def State.imageOf (s : State) (vi : Nat) (digest : List Byte) : Option Nat :=
  (List.find? (fun (e : Nat × Image) => e.2.vi == vi && e.2.published && e.2.digest == digest) s.images).map
    fun e => e.1

/-- The lowest handle that names no image. -/
def State.freeHandle (s : State) : Nat :=
  ((span 1 (s.images.length + 1)).find? fun h => (AMap.find? s.images h).isNone).getD 0

/-- The drafts of the image that a publication replaces, at the same address, go, unless another published image, the
new one among them, has their key (03 R78). -/
def State.dropReplaced (s : State) (vi addr : Nat) (digest img : List Byte) : State :=
  let old := s.images.filter fun (e : Nat × Image) =>
    e.2.vi == vi && e.2.published && e.2.addr == addr && e.2.digest != digest
  let keys := old.flatMap fun e => draftKeys e.2.bytes
  let kept (k : List Byte) : Bool := (draftKeys img).contains k || s.images.any fun e =>
    e.2.published && (old.all fun o => o.1 != e.1) && (draftKeys e.2.bytes).contains k
  { s with drafts := AMap.keep (fun _ d => !keys.contains d.key || kept d.key) s.drafts }.assignDrafting

/-- Publishes a verified image: an image whose digest is published already keeps its handle (14 R308). -/
def State.install (s : State) (vi addr : Nat) (img : List Byte) : Nat × State :=
  let digest := imageDigest img
  match s.imageOf vi digest with
  | some h => (h, s)
  | none =>
    let t := s.dropReplaced vi addr digest img
    let h := t.freeHandle
    (h, { t with images := AMap.put t.images h { vi, addr, digest, bytes := img } })

/-- Publication (06 R140): the handle and the state, or the refusal. -/
def State.publishAt (s : State) (vi : Nat) (r : Reach) (addr : Nat) : Except Refused (Nat × State) :=
  match s.readImage r addr with
  | .error f => .error f
  | .ok (img, t) =>
    match t.imageFault vi img with
    | some f => .error f
    | none => .ok (t.install vi addr img)

/-- IMAGE_PUSH_RECEIVE (14 R308): an image pushed into the staging range that verifies and matches the digest named is
published; anything else is discarded. -/
def execImagePushReceive (p : ImagePush) (s : State) : Host.Outcome State Fault Refusal :=
  let v := s.iface p.vi
  .next (
    match s.readImage (.physical p.vi) p.addr with
    | .error _ => s
    | .ok (img, _) =>
      if v.configured && p.digestMatches && decide (v.stagingBase ≤ p.addr)
          && decide (p.addr + img.length ≤ v.stagingBase + v.stagingSize) && (s.imageFault p.vi img).isNone then
        (s.install p.vi p.addr img).2
      else s)

end Sys2Proof.Machine
end

