-- ==== Sys2Proof/Machine/Commands.lean ====
section
/-! DEFINITION. The management commands and the queue port (14 R297 to R301, R307, R487). A command is performed in its
place at the head of the interface's management queue; then its completion word is written and the element leaves the
queue. -/

namespace Sys2Proof.Machine

/-- A command element (14 R297): its physical address, code, context, completion word address and operands, with what
its addresses reach (none: its context is none of the interface). -/
structure Cmd where
  vi : Nat
  at_ : Nat
  code : Nat
  ctx : Nat
  word : Nat
  ops : List Byte
  reach : Option Reach
  deriving DecidableEq, Repr

/-- Operand `i`, of 8 bytes. -/
def Cmd.op (c : Cmd) (i : Nat) : Nat := field c.ops (8 * i) 8

/-- What the addresses of a command of a context reach. -/
def State.reachOf (s : State) (vi ctx : Nat) : Option Reach :=
  if ctx = 0xFFFF then some (.physical vi)
  else (s.context vi ctx).map fun x => .space (s.contextSpace x)

/-- The command at the head of an interface's management queue. A shootdown that has not completed holds back the
commands after it. -/
def State.headCommand (s : State) (vi : Nat) : Option Cmd :=
  let v := s.iface vi
  let q := s.queue v.mq
  if !v.configured || s.corruption v.mq != 0 || q.count == 0 || q.esize != 64
      || s.shootdowns.any fun e => e.2.vi == vi then none
  else
    let at_ := q.base + q.head % q.cap * 64
    let bs := s.memBytes at_ 64
    if s.poisoned 0 (at_ / 64) then none
    else
      some { vi, at_, code := field bs 0 2, ctx := field bs 2 2, word := field bs 8 8, ops := bs.drop 16
             reach := s.reachOf vi (field bs 2 2) }

/-- Whether an uncorrectable error has destroyed the command at the head of an interface's management queue (12 Table
12.5). -/
def State.headLost (s : State) (vi : Nat) : Bool :=
  let v := s.iface vi
  let q := s.queue v.mq
  v.configured && s.corruption v.mq == 0 && q.count != 0 && s.poisoned 0 ((q.base + q.head % q.cap * 64) / 64)

/-- The element of a command leaves its queue. -/
def State.dropCommand (s : State) (c : Cmd) : State :=
  let cb := (s.iface c.vi).mq
  let q := s.queue cb
  (s.putCounts cb { q with head := (q.head + 1) % 2 ^ 64, free := q.free + 1 }).serve cb

/-- The physical address of a command's completion word (14 R297): immediate, memory-side memory. -/
def State.wordAddr (s : State) (c : Cmd) : Option (Nat × State) :=
  match c.reach with
  | none => none
  | some r =>
    let fits := match r with
      | .space sp => isImmediate (attrFlags sp.attrs c.word) && isMside (attrFlags sp.attrs c.word)
      | .physical _ => true
    if c.word % 8 ≠ 0 ∨ !fits then none else s.reachAddr r true c.word

/-- A command that cannot write its completion word is counted as a configuration event. -/
def State.wordLost (s : State) (c : Cmd) : State := s.countError 10 3 0 c.vi c.ctx 0 0

/-- Writes the completion word: the status, and the result above it; then the command is over. -/
def State.complete (s : State) (c : Cmd) (status result : Nat) : State :=
  let t := match s.wordAddr c with
    | some (pa, t) => t.putBytes pa (leBytes 8 (status + result % 2 ^ 56 * 256))
    | none => s.wordLost c
  t.dropCommand c

/-- How a command ends: done with a result, refused, not permitted, or under way still. -/
inductive Ended where
  | done (result : Nat) (s : State)
  | refused (result : Nat)
  | denied
  | waits (s : State)
  deriving DecidableEq, Repr

/-- Performs the command at the head of a management queue when it is the one asked for. -/
def State.perform (s : State) (vi code : Nat) (f : Cmd → Ended) : Host.Outcome State Fault Refusal :=
  match s.headCommand vi with
  | none => .next s
  | some c =>
    if c.code ≠ code then .next s
    else
      .next (match f c with
        | .done result t => t.complete c 1 result
        | .refused result => s.complete c 2 result
        | .denied => s.complete c 4 0
        | .waits t => t)

/-- Goes on with what the addresses of a command reach; a context the interface does not have refuses it. -/
def Cmd.reaching (c : Cmd) (k : Reach → Ended) : Ended :=
  match c.reach with
  | some r => k r
  | none => .refused 0

/-- Goes on with the context that a number names. -/
def State.withContext (s : State) (vi n : Nat) (k : Context → Ended) : Ended :=
  match (if n < 512 then s.context vi n else none) with
  | some x => k x
  | none => .refused 0

/-- PUBLISH (06 R140; 14 R297): the handle, and the first 16 bytes of the digest in the element. -/
def execPublish (vi : Nat) (s : State) : Host.Outcome State Fault Refusal :=
  s.perform vi 1 fun c => c.reaching fun r =>
    match s.publishAt vi r (c.op 0) with
    | .error (reason, offset) => .refused (reason + offset % 2 ^ 32 * 256)
    | .ok (h, t) =>
      let digest := ((AMap.find? t.images h).map fun i => i.digest).getD []
      .done h (t.putBytes (c.at_ + 48) (digest.take 16))

/-- UNPUBLISH. -/
def execUnpublish (vi : Nat) (s : State) : Host.Outcome State Fault Refusal :=
  s.perform vi 2 fun c =>
    match AMap.find? s.images (c.op 0) with
    | none => .refused 0
    | some i =>
      if i.vi ≠ vi then .denied
      else if !i.published then .refused 0
      else .done 0 { s with images := AMap.put s.images (c.op 0) { i with published := false } }

/-- REGISTER_LQ (06 R485; 08 R191). A queue that is registered already keeps its number. -/
def execRegisterLq (vi : Nat) (s : State) : Host.Outcome State Fault Refusal :=
  s.perform vi 3 fun c => s.withContext vi c.ctx fun x =>
    let cb := c.op 0
    match s.cbAddr (s.contextSpace x) cb with
    | .error _ => .refused 0
    | .ok (pa, t) =>
      if t.corruption pa ≠ 0 ∨ (t.queue pa).esize ≠ 64 ∨ 7 < c.op 1 then .refused 0
      else
        match List.find? (fun (e : Nat × LaunchQueue) => e.2.vi == vi && e.2.ctx == c.ctx && e.2.cb == cb) t.queues with
        | some (n, q) =>
          .done n ({ t with queues := AMap.put t.queues n { q with prio := c.op 1, givenUp := false } }).fillSlots
        | none =>
          let n := ((t.queues.getLast?).map fun e => e.1).getD 0 + 1
          .done n ({ t with queues := AMap.put t.queues n { vi, ctx := c.ctx, cb, prio := c.op 1 } }).fillSlots

/-- A context descriptor (14 Table 14.4), when it may be used. -/
def contextOf (vi num : Nat) (d : List Byte) : Option Context :=
  if field d 96 32 ≠ 0 ∨ field d 8 8 % 2048 ≠ 0 ∨ field d 16 8 % 64 ≠ 0 ∨ 65536 < field d 24 4 ∨ field d 28 2 < 1
      ∨ 7 < field d 30 1 then none
  else some
    { vi, num, satp := field d 0 8, attrTable := field d 8 8, handleBase := field d 16 8, handleLen := field d 24 4
      weight := field d 28 2, prio := field d 30 1, grantQuota := field d 31 1, shadowBase := field d 32 8
      shadowSize := field d 40 8, saveBase := field d 48 8, saveSize := field d 56 8, faultQ := field d 64 8
      recordQ := field d 72 8, sampleQ := field d 80 8, dump := field d 88 8 }

/-- CONTEXT_CREATE (14 R298): the lowest free number, from 1 up, of 256 contexts. -/
def execContextCreate (vi : Nat) (s : State) : Host.Outcome State Fault Refusal :=
  s.perform vi 4 fun c => c.reaching fun r =>
    match s.reachRead r (c.op 0) 128, (span 1 256).find? fun n => (s.context vi n).isNone with
    | .ok (d, t), some num =>
      match contextOf vi num d with
      | some x => .done num { t with contexts := AMap.put t.contexts (ctxKey vi num) x }
      | none => .refused 0
    | _, _ => .refused 0

/-- A kill of one launch (06 R153): a record that is not bound ends at once, one that commits is untouched. -/
def State.killLaunch (s : State) (lk : Nat) (l : Launch) : State :=
  match l.st with
  | .waitEligible | .checking | .waiting => s.endUnbound lk { l with cause := 4, killed := true } 5
  | .committing => s
  | _ => s.beginAbort lk 4 0 s.time

/-- CONTEXT_DESTROY (14 R298): its launch queues go, its launches are killed, and it ends when they have and every
record due to it has been delivered. -/
def execContextDestroy (vi : Nat) (s : State) : Host.Outcome State Fault Refusal :=
  s.perform vi 5 fun c => s.withContext vi (c.op 0) fun x =>
    let n := c.op 0
    let s := if x.closing then s
      else
        let t := { s with queues := AMap.keep (fun _ q => !(q.vi == vi && q.ctx == n)) s.queues }.updContext vi n
          fun x => { x with closing := true }
        (t.launchesOf vi n).foldl (fun (u : State) e => u.killLaunch e.1 e.2) t.fillSlots
    let due (d : Delivery) : Bool := d.vi == vi && d.ctx == n
    let waiting := s.homes.any fun e => (e.2.wake ++ e.2.polling).any fun r => match r.who with
      | .delivery d => due d
      | _ => false
    if !(s.launchesOf vi n).isEmpty || s.deliveries.any due || waiting then .waits s
    else .done 0 { s with
      contexts := AMap.del s.contexts (ctxKey vi n)
      pins := AMap.keep (fun k _ => k / 2 ^ 38 != ctxKey vi n) s.pins }

/-- SHOOTDOWN (04 R111): entries go, and SHOOTDOWN_COMPLETE writes the word once old translations have drained. -/
def execShootdown (vi : Nat) (s : State) : Host.Outcome State Fault Refusal :=
  s.perform vi 6 fun c =>
    let kind := c.op 0
    let ident := c.op 1
    let vmid := s.vmidOf vi
    if 3 < kind ∨ (kind = 1 ∧ 2 ^ 8 ≤ ident) ∨ (2 ≤ kind ∧ 2 ^ 16 ≤ ident) then .refused 0
    else if kind = 1 ∧ vi ≠ 0 ∧ ident ≠ vmid then .denied
    else
      let d : Shootdown := { vi, kind, ident, base := c.op 2, pages := c.op 3, word := 0 }
      match s.wordAddr c with
      | some (pa, t) =>
        .waits ({ t.dropEntries d with
          shootdowns := AMap.put t.shootdowns t.next { d with word := pa }, next := t.next + 1 }.dropCommand c)
      | none => .waits (((s.dropEntries d).wordLost c).dropCommand c)

/-- Goes on with the launch of a command's context whose present attempt has an LSN. -/
def State.withLaunch (s : State) (c : Cmd) (lsn : Nat) (k : Nat → Launch → Ended) : Ended :=
  s.withContext c.vi c.ctx fun _ =>
    match List.find? (fun (e : Nat × Launch) => e.2.lsn == lsn) (s.launchesOf c.vi c.ctx) with
    | some (lk, l) => k lk l
    | none => .refused 0

/-- The pages for which a group context of a launch waits, or its engine operations, each with the time of the record,
by the core that the record names. A context may have been freed, and a block moved, since (12 R271). -/
def State.waitedPages (s : State) (lk core gid : Nat) : List (Nat × Nat) :=
  let mine (bk : Nat) : Bool := (AMap.find? s.blocks bk).any fun b => b.launch == lk
  ((s.groups.filter fun (e : Nat × Group) => e.2.gid == gid && mine e.2.block).flatMap fun e => e.2.paths.filterMap fun p =>
    match p.wait with
    | .page va stamp => if stamp % 2 ^ 11 = core then some (va / 4096, stamp / 2 ^ 11) else none
    | _ => none)
  ++ ((s.engines.filter fun (e : Nat × EngineOp) => e.2.launch == lk && e.2.core == core && e.2.grp % 64 == gid).filterMap
    fun e => e.2.stall)

/-- Every path and every engine operation of a launch that waits on a page goes on: a path from its commit point, at
which one of an evicted block stands already (12 R271, R274). -/
def State.releasePage (s : State) (lk page : Nat) : State :=
  let go (t : State) (bk gk i : Nat) : State :=
    match AMap.find? s.blocks bk with
    | some b =>
      if b.launch ≠ lk then t
      else if b.onCore then t.replayPath gk i
      else t.updPath gk i Path.retry
    | none => t
  let t := s.groups.foldl (fun (t : State) (e : Nat × Group) =>
    (span 0 e.2.paths.length).foldl (fun (t : State) i =>
      match (e.2.paths[i]?).map fun (p : Path) => p.wait with
      | some (Wait.page va _) => if va / 4096 = page then go t e.2.block e.1 i else t
      | _ => t) t) s
  { t with engines := t.engines.map fun (e : Nat × EngineOp) =>
      (e.1, if e.2.launch = lk ∧ (e.2.stall.map fun x => x.1) = some page then { e.2 with stall := none } else e.2) }

/-- SERVICE (12 R271). One that names no waiting group is counted. -/
def execService (vi : Nat) (s : State) : Host.Outcome State Fault Refusal :=
  s.perform vi 7 fun c => s.withLaunch c (c.op 0) fun lk _ =>
    if 1536 ≤ c.op 1 ∨ 64 ≤ c.op 2 then .refused 0
    else
      match s.waitedPages lk (c.op 1) (c.op 2) with
      | [] => .done 0 s.configEvent
      | x :: xs =>
        if c.op 3 = 1 then .done 0 ((x :: xs).foldl (fun (t : State) p => t.releasePage lk p.1) s)
        else
          let first := xs.foldl (fun m p => min m p.2) x.2
          let t := s.dropOps fun _ o => o.launch == lk && o.stall.any fun p => (x :: xs).any fun q => q.1 == p.1
          .done 0 (t.beginAbort lk 1 FaultCode.pageNotPresent.num (stampAt first (c.op 1)))

/-- RELEASE (12 R270): a launch that HOLD kept aborts, with the code of the earliest record. -/
def execRelease (vi : Nat) (s : State) : Host.Outcome State Fault Refusal :=
  s.perform vi 8 fun c => s.withLaunch c (c.op 0) fun lk _ =>
    let faults := s.blocks.filterMap fun (e : Nat × Block) =>
      if e.2.launch = lk then e.2.fault.map fun f => (stampAt e.2.faultAt e.2.core, f.code.num) else none
    match faults with
    | [] => .done 0 s
    | f :: fs =>
      let o := fs.foldl (fun m x => if x.1 < m.1 then x else m) f
      .done 0 (s.beginAbort lk 1 o.2 o.1)

/-- KILL (06 R153): an LSN, first or present, or 0 for every launch of the context. -/
def execKill (vi : Nat) (s : State) : Host.Outcome State Fault Refusal :=
  s.perform vi 9 fun c => s.withContext vi c.ctx fun _ =>
    let lsn := c.op 0
    let hit := (s.launchesOf vi c.ctx).filter fun (e : Nat × Launch) => lsn == 0 || e.2.first == lsn || e.2.lsn == lsn
    if lsn ≠ 0 ∧ hit.isEmpty then .refused 0
    else .done 0 (hit.foldl (fun (t : State) e => t.killLaunch e.1 e.2) s)

/-- The blocks of a launch with a linear index, or all (14 Table 14.3). -/
def State.namedBlocks (s : State) (lk linear : Nat) : List (Nat × Block) :=
  s.blocks.filter fun (e : Nat × Block) => e.2.launch == lk && (linear == 2 ^ 64 - 1 || e.2.linear == linear)

/-- Whether a linear index names no block of any stage. -/
def State.noBlock (s : State) (l : Launch) (linear : Nat) : Bool :=
  linear != 2 ^ 64 - 1 && (stagesOf (s.imageBytes l)).all fun x => decide (x.blocks ≤ linear)

/-- STOP (13 R287; 08 R207): blocks that stand, or are evicted, are asked to stop. -/
def execStop (vi : Nat) (s : State) : Host.Outcome State Fault Refusal :=
  s.perform vi 10 fun c => s.withLaunch c (c.op 0) fun lk l =>
    if s.noBlock l (c.op 1) then .refused 0
    else .done 0 ((s.namedBlocks lk (c.op 1)).foldl (fun (t : State) e =>
      if e.2.st = .halted ∨ e.2.st = .retired ∨ e.2.stopped then t
      else t.updBlock e.1 fun b => { b with stop := some (b.stop.getD { cause := 1 }) }) s)

/-- A profile entry (13 Table 13.6). -/
def profileEntry (record : Nat) (p : Profile) : List Byte :=
  let cap (w n : Nat) : List Byte := leBytes w (min n (2 ^ (8 * w) - 1))
  leBytes 2 record ++ leBytes 2 0 ++ cap 4 p.execs ++ cap 4 p.conflicts ++ cap 4 p.rollbacks
    ++ ((span 0 4).flatMap fun i => let b := p.branches.getD i (0, 0); cap 2 b.1 ++ cap 2 b.2)
    ++ ((span 0 16).flatMap fun i => cap 4 (Cells.get p.stalls i).toNat)

/-- The commit records of a draft: those of the side table of a native image; in a draft of Fleper code one for each
instruction (03 R484; log entry 30). -/
def State.recordsOf (s : State) (d : Draft) : List Nat :=
  match (s.images.flatMap fun (e : Nat × Image) => (codeSections e.2.bytes).map fun x => (e.2.bytes, x)).find? fun e =>
      sha512 (e.2.2.bytes e.1 ++ sectionBytes e.1 7 ++ leBytes 4 Config.stepping) == d.key with
  | none => d.profiles.map fun e => e.1
  | some (img, i, x) =>
    match sideTable img i with
    | some side => (span 0 (field side 8 4)).filter fun n => recordField side n 20 1 == 0
    | none => span 0 (instrsOf (x.bytes img)).length

/-- PROFILE (13 R294). -/
def execProfile (vi : Nat) (s : State) : Host.Outcome State Fault Refusal :=
  s.perform vi 11 fun c => c.reaching fun r =>
    match s.reachRead r (c.op 0) 64 with
    | .error _ => .refused 0
    | .ok (key, t) =>
      match t.draftOf key with
      | none => .refused 0
      | some (_, d) =>
        if d.gen ≠ c.op 1 ∨ !d.ready then .refused 0
        else
          let bytes := (t.recordsOf d).flatMap fun n => profileEntry n ((AMap.find? d.profiles n).getD {})
          match t.reachWrite r (c.op 2) bytes with
          | some u => .done 0 u
          | none => .refused 0

/-- TREADLE (13 R291; 14 Table 14.3): the message goes to every device, the origin included. -/
def execTreadle (vi : Nat) (s : State) : Host.Outcome State Fault Refusal :=
  s.perform vi 12 fun c =>
    let action := field c.ops 0 1
    let to_ := field c.ops 1 1
    if action < 1 ∨ 4 < action ∨ 63 < to_ then .refused 0
    else if vi ≠ 0 ∧ to_ ≠ vi then .denied
    else
      let m : TreadleMsg := { action, vi := to_, origin := s.device, mask := BitVec.ofNat 32 (field c.ops 4 4)
                              stamp := s.time, lsn := 0 }
      .done 0 { s with sent := s.sent ++ [.treadle m], agenda := s.agenda ++ [.treadleMessageReceive m] }

/-- NOTIFY_TARGET (07 R183). -/
def execNotifyTarget (vi : Nat) (s : State) : Host.Outcome State Fault Refusal :=
  s.perform vi 13 fun c => c.reaching fun r =>
    match s.reachAddr r false (c.op 0) with
    | some (pa, t) =>
      if pa % 64 ≠ 0 ∨ 2 ^ 32 ≤ c.op 2 then .refused 0
      else .done 0 { t with notify := AMap.put t.notify (cellOf pa) { imsic := c.op 1, ident := c.op 2 } }
    | none => .refused 0

/-- ENROL_KEY (06 R136; 14 Table 14.2): up to 8 keys of an interface. -/
def execEnrolKey (vi : Nat) (s : State) : Host.Outcome State Fault Refusal :=
  s.perform vi 14 fun c => c.reaching fun r =>
    match s.reachRead r (c.op 1) 133 with
    | .error _ => .refused 0
    | .ok (key, t) =>
      let keys := (t.iface vi).keys
      if c.op 0 < 1 ∨ 2 ^ 32 ≤ c.op 0 ∨ field key 0 1 ≠ 4
          ∨ (8 ≤ keys.length ∧ (AMap.find? keys (c.op 0)).isNone) then .refused 0
      else .done 0 (t.updIface vi fun v => { v with keys := AMap.put v.keys (c.op 0) key })

/-- The code of a life-cycle state (14 Table 14.7). -/
def lifeCode : LifeCycle → Nat
  | .manufacture => 0 | .provisioned => 1 | .deployed => 2 | .rma => 3 | .decommissioned => 4

/-- Bytes 0 to 187 of an attestation report (14 Table 14.7). -/
def State.reportBody (s : State) (nonce : List Byte) : List Byte :=
  let pad (bs : List Byte) : List Byte := (bs ++ leBytes 64 0).take 64
  leBytes 2 1 ++ leBytes 1 (lifeCode s.life) ++ leBytes 1 s.selfHosted.toNat ++ leBytes 4 Config.stepping
    ++ leBytes 2 (s.device % 1024) ++ leBytes 6 0 ++ nonce ++ pad Config.firmwareDigest ++ pad Config.draftingDigest
    ++ leBytes 8 s.time ++ leBytes 4 0

/-- ATTEST (14 R307): the signed report, then the certificate chain. -/
def execAttest (vi : Nat) (s : State) : Host.Outcome State Fault Refusal :=
  s.perform vi 15 fun c => c.reaching fun r =>
    if s.life ≠ .provisioned ∧ s.life ≠ .deployed then .refused 0
    else
      match s.reachRead r (c.op 0) 32 with
      | .error _ => .refused 0
      | .ok (nonce, t) =>
        let body := t.reportBody nonce
        let sig := (Config.enclaveSign (sha512 body) ++ leBytes 132 0).take 132
        match t.reachWrite r (c.op 1) (body ++ sig ++ Config.deviceChain) with
        | some u => .done 0 u
        | none => .refused 0

/-- The first GiB of a run of the memory on offer (01 R17) that no other interface than 0 holds; the search begins
where the device likes (log entry 8). -/
def State.findMemory (s : State) (vi quota : Nat) : Option Nat :=
  let clash (b : Nat) : Bool := s.ifaces.any fun (e : Nat × Iface) =>
    e.1 != vi && e.1 != 0 && e.2.configured && decide (b < e.2.memBase + e.2.quota) && decide (e.2.memBase < b + quota)
  ((span 0 1024).map fun i => (Config.memBase vi + i) % 1024).find? fun b => decide ((b + quota) * 2 ^ 30 ≤ s.capacity) && !clash b

/-- VI_CONFIG (14 R487, Table 14.11): an interface gets its owner, memory, G-stage, staging range and exports, and a
new one its management queue. -/
def execViConfig (vi : Nat) (s : State) : Host.Outcome State Fault Refusal :=
  s.perform vi 16 fun c =>
    let n := field c.ops 0 2
    let quota := c.op 1
    let hgatp := c.op 2
    if vi ≠ 0 then .denied
    else if n < 1 ∨ 63 < n ∨ 1 < field c.ops 2 1 ∨ field c.ops 3 5 ≠ 0 ∨ !gStageOk hgatp then
      .refused 0
    else
      let old := s.iface n
      match (if old.configured ∧ old.quota = quota then some old.memBase else s.findMemory n quota) with
      | none => .refused 0
      | some base =>
        let t := s.updIface n fun v =>
          { v with hostOwned := field c.ops 2 1 == 0, quota, memBase := base, hgatp, stagingBase := c.op 3
                   stagingSize := c.op 4, exports := c.op 5, configured := true }
        let t := if old.configured ∧ old.quota = quota then t else t.zeroMemory n
        let t := if old.configured then t else t.makeQueue n
        .done (t.iface n).mq t

/-- DEBUG_ATTACH (14 R300). -/
def execDebugAttach (vi : Nat) (s : State) : Host.Outcome State Fault Refusal :=
  s.perform vi 17 fun c => s.withContext vi (c.op 0) fun x =>
    let sp := s.contextSpace x
    let a := c.op 1
    match s.storeAddr sp a with
    | .error _ => .refused 0
    | .ok (_, t) =>
      if a = 0 ∨ a % 4096 ≠ 0 ∨ !isImmediate (attrFlags sp.attrs a) then .refused 0
      else .done 0 (t.updContext vi (c.op 0) fun x => { x with dump := a })

/-- A halted block goes on (02 Table 2.2); one that is evicted is marked to be restored RESIDENT (08 R207). -/
def State.resumeHalted (s : State) (bk : Nat) : State :=
  s.updBlock bk fun b =>
    if b.st = .halted then { b with st := .resident }
    else if b.st = .evicted then { b with stopped := false }
    else b

/-- DEBUG_DETACH (14 R300): every halted block of the context goes on, and a stop under way ends in its resume. -/
def execDebugDetach (vi : Nat) (s : State) : Host.Outcome State Fault Refusal :=
  s.perform vi 18 fun c => s.withContext vi (c.op 0) fun _ =>
    let t := s.updContext vi (c.op 0) fun x => { x with dump := 0 }
    let lks := (s.launchesOf vi (c.op 0)).map fun e => e.1
    .done 0 ((t.blocks.filter fun (e : Nat × Block) => lks.contains e.2.launch).foldl (fun (u : State) e =>
      (u.resumeHalted e.1).updBlock e.1 fun b => { b with stop := b.stop.map fun r => { r with resume := true } }) t)

/-- DEBUG_RESUME (14 R300). -/
def execDebugResume (vi : Nat) (s : State) : Host.Outcome State Fault Refusal :=
  s.perform vi 19 fun c => s.withLaunch c (c.op 0) fun lk l =>
    if s.noBlock l (c.op 1) then .refused 0
    else .done 0 ((s.namedBlocks lk (c.op 1)).foldl (fun (t : State) e => t.resumeHalted e.1) s)

/-- Whether a command of an interface may use a word of an interface (14 Table 14.10). -/
def ControlWord.permitted (w : ControlWord) (write : Bool) (vi target : Nat) : Bool :=
  match w with
  | .policy | .hosting | .errcnt _ | .spare _ => vi == 0 && target == 0
  | .vi | .quota => vi == 0 || (!write && target == vi)
  | _ => vi == 0 || target == vi

/-- Goes on with the control word that a command names (14 R301). -/
def State.withControl (s : State) (c : Cmd) (write : Bool) (k : Nat → ControlWord → Ended) : Ended :=
  let target := c.op 0
  match (if 63 < target ∨ 65535 < c.op 1 then none else controlWord (c.op 1)) with
  | none => .refused 0
  | some w =>
    if !w.permitted write c.vi target then .denied
    else if !(s.iface target).configured then .refused 0
    else k target w

/-- CONTROL_WRITE (14 R301). -/
def execControlWrite (vi : Nat) (s : State) : Host.Outcome State Fault Refusal :=
  s.perform vi 20 fun c => s.withControl c true fun target w =>
    .done 0 (s.writeControl target w (BitVec.ofNat 64 (c.op 2)))

/-- CONTROL_READ (14 R301): the word goes into operand bytes 32 to 39 of the element. -/
def execControlRead (vi : Nat) (s : State) : Host.Outcome State Fault Refusal :=
  s.perform vi 21 fun c => s.withControl c false fun target w =>
    .done 0 (s.putBytes (c.at_ + 48) (leBytes 8 (s.readControl target w).toNat))

/-- Any other code completes with status 3 (14 Table 14.3); a command that an uncorrectable error has destroyed makes
its queue corrupt (12 Table 12.5). -/
def execUnknownCommand (vi : Nat) (s : State) : Host.Outcome State Fault Refusal :=
  match s.headCommand vi with
  | none => .next (if s.headLost vi then s.loseQueue (s.iface vi).mq else s)
  | some c => .next (if 1 ≤ c.code ∧ c.code ≤ 21 then s else s.complete c 3 0)

/-- How an operation of the queue port ends: its STATUS and FAULT bytes (14 Table 14.9). -/
structure PortEnd where
  status : Nat
  fault : Nat
  st : State
  deriving DecidableEq, Repr

def portFault (code : FaultCode) (s : State) : PortEnd := { status := 3, fault := code.num, st := s }

/-- An operation of the queue port on the 64 bytes of its slot (14 R299). -/
def State.portRun (s : State) (vi : Nat) (host : Bool) (bs : List Byte) : PortEnd :=
  let full := field bs 0 1 == 1
  let flags := field bs 3 1
  let size := field bs 6 2
  let cb := field bs 8 8
  let elem := field bs 16 8
  match s.context vi (field bs 4 2) with
  | none => portFault .permission s
  | some x =>
    let sp := s.contextSpace x
    if field bs 0 1 < 1 ∨ 2 < field bs 0 1 ∨ 1 < flags ∨ field bs 24 40 ≠ 0 then portFault .illegalOperand s
    else if cb % 64 ≠ 0 then portFault .align s
    else
      match s.homeOf sp cb with
      | .error _ => portFault .permission s
      | .ok (pa, t) =>
        let f := attrFlags sp.attrs cb
        let r : Reach := .space sp
        if !(isImmediate f && isMside f) then portFault .attrMismatch s
        else if (if flags = 1 then !host else !r.immediate elem size) then portFault .attrMismatch s
        else
          match (if flags = 1 then .ok ([], t) else t.reachRuns r (!full) (size / 64 + 2) elem elem size) with
          | .error _ => portFault .permission s
          | .ok (runs, u) =>
            let bytes := if flags = 1 then (span elem size).map fun a => Config.hostByte a u.free
              else if runs.any fun e => u.poisoned 0 (e.1 / 64) then []
              else runs.flatMap fun e => u.memBytes e.1 e.2
            match u.homeTry pa sp (.agent vi) full 1 size false (if full then [bytes] else []) with
            | .fault e v => portFault e.code v
            | .lost v => portFault .queueCorrupt v
            | .turned v => { status := 2, fault := 0, st := v }
            | .done es v =>
              let got := es.headD []
              { status := 1, fault := 0
                st := if full then { v with free := if flags = 1 then v.free + 1 else v.free }
                  else if flags = 1 then { v with sent := v.sent ++ [.hostStore elem got] }
                  else v.putRuns runs got }

/-- QUEUE_PORT_START (14 R299): the write of bytes 0 to 7 of a slot, with what its 64 bytes hold then; with STATUS 0
it starts the operation, which ends in this step. -/
def execQueuePortStart (vi slot : Nat) (content : BitVec 512) (host : Bool) (s : State) :
    Host.Outcome State Fault Refusal :=
  let put (t : State) (off : Nat) (bs : List Byte) : State :=
    t.updIface vi fun v =>
      { v with port := ((span 0 bs.length).zip bs).foldl (fun (m : Cells 8) e =>
          Cells.set m (slot * 64 + off + e.1) e.2) v.port }
  if !(s.iface vi).configured || decide (64 ≤ slot) then .next s
  else
    let t := put s 0 (leBytes 64 content.toNat)
    let bs := (span (slot * 64) 64).map fun k => Cells.get (t.iface vi).port k
    if field bs 1 1 ≠ 0 then .next t
    else
      let e := t.portRun vi host bs
      .next (put e.st 1 (leBytes 1 e.status ++ leBytes 1 e.fault))

end Sys2Proof.Machine
end

