-- ==== Sys2Proof/Machine/EngineInstrs.lean ====
section
/-! DEFINITION. The tile instructions and the instructions that hand a command to an engine: their checks
at issue and the hand-over (11 R241 to R243, R246, R255, R256, R261; 18 R378, R379, R396; 19 R412; 20 R436,
R442, R443; 21 R454, R459 to R464, R467). -/

namespace Sys2Proof.Machine

/-- The barrier page's first byte. -/
def Stage.pageBase (x : Stage) : Nat := x.spadSize - 4096

/-- The first word of a declared entry (04 Table 4.4): STATE 0, CFG 1, the barrier, slot, swizzle mode and format. -/
def declWord (fmt : ETy) (sw bar slot : Nat) : Nat :=
  2 ^ 61 + bar * 2 ^ 56 + slot * 2 ^ 53 + sw * 2 ^ 50 + fmt.code * 2 ^ 46

/-- TDECL (21 R460). -/
def execTdecl (g : Guard) (fmt : ETy) (sw tile : Nat) (shape : Operand) (bar slot : Nat) (s : State) :
    Host.Outcome State Fault Refusal :=
  s.issue g fun c =>
    let st := s.stageOf c.b c.l
    let w1 := s.u64 c true c.lead shape
    let w0 := declWord fmt sw bar slot
    let t := tileOf w0 w1
    let now := (s.tile c.g.block tile).state
    if c.exec.isEmpty then s.finish c
    else if bitsOf w1 21 3 ≠ 0 ∨ bitsOf w1 0 6 ≠ 0 then
      s.raiseAll c { code := .illegalOperand, detail := 1 }
    else if !t.shapeOk st.spadSize || t.overlaps st.pageBase 4096 then
      s.raiseAll c { code := .tileShape, detail := tile }
    else if now = tileFilling ∨ now = tileDraining then
      s.raiseAll c { code := .tileBusy, detail := tile }
    else
      ((s.setTileWord c.g.block tile 0 (BitVec.ofNat 64 w0)).setTileWord c.g.block tile 1
        (BitVec.ofNat 64 w1)).finish c

/-- TFREE (21 R461). -/
def execTfree (g : Guard) (tile : Nat) (s : State) : Host.Outcome State Fault Refusal :=
  s.issue g fun c =>
    let now := (s.tile c.g.block tile).state
    if c.exec.isEmpty then s.finish c
    else if now = tileFilling ∨ now = tileDraining then
      s.raiseAll c { code := .tileBusy, detail := tile }
    else
      (s.setTileWord c.g.block tile 0
        (withCfg (withState (s.tileWord c.g.block tile 0) tileEmpty) false)).finish c

/-- TSTATE, the read forms (21 R464). -/
def execTstateRead (g : Guard) (w1 : Bool) (d : Operand) (tile : Nat) (s : State) :
    Host.Outcome State Fault Refusal :=
  s.issue g fun c => (s.writeAll c true d (s.tileWord c.g.block tile w1.toNat)).finish c

/-- TSTATE `.ready` (21 R464): a tile that becomes READY lets the paths that wait for it go on. -/
def execTstateReady (g : Guard) (tile : Nat) (s : State) : Host.Outcome State Fault Refusal :=
  s.issue g fun c =>
    let t := s.tile c.g.block tile
    if c.exec.isEmpty then s.finish c
    else if t.state = tileFilling ∨ t.state = tileDraining then
      s.raiseAll c { code := .tileBusy, detail := tile }
    else if t.state = tileReady then s.finish c
    else if !t.cfg then s.raiseAll c { code := .tileShape, detail := tile }
    else
      ((s.setTileState c.g.block tile tileReady).wakeBlock c.g.block
        (fun w => w == Wait.tile tile) Path.retry).finish c

/-- Writes back the lines of a `.g` range that the issuing core or its die holds dirty (11 R243). A page
that does not translate has none. -/
def State.writeBackRange (s : State) (c : Ctx) (va n : Nat) : State :=
  match s.context c.l.vi c.l.ctx with
  | none => s
  | some x =>
    (pagesOf va n).foldl (fun s e =>
      match s.translate c.b.core x.satp (s.iface c.l.vi).hgatp e.1 false with
      | .error _ => s
      | .ok (pa, t) =>
        let tag := c.l.tag (attrFlags c.l.attrs e.1)
        (span (pa / 64) ((pa + (e.2 - e.1)) / 64 + 1 - pa / 64)).foldl
          (fun u ln => (u.flushCoreLine c.b.core tag ln).flushDieLine (dieOf c.b.core) tag ln) t) s

/-- Hands a command over (05 R125, R126; 11 R243): its source lines are written back, its token becomes
PENDING, and it waits for the operations whose tokens it consumes. -/
def State.handOver (s : State) (c : Ctx) (tk : Nat) (w : Toks) (sources : List (Nat × Nat))
    (op : EngineOp) : State :=
  let s := sources.foldl (fun s e => s.writeBackRange c e.1 e.2) s
  let waits := (s.engines.filter fun e =>
    e.2.grp == c.cur.grp && !e.2.orphan && (tokList w).contains e.2.token).map fun e => e.1
  let bit := 1#16 <<< tk
  let s := { s with engines := AMap.put s.engines s.next { op with token := tk, waits }, next := s.next + 1 }
  (s.updGroup c.cur.grp fun g => { g with pend := g.pend ||| bit, done := g.done &&& ~~~bit }).finish c

/-- The common part of a command of the issuing path. -/
def State.command (s : State) (c : Ctx) (kind : EngineKind) (sc : Scope) (params : List Byte) :
    EngineOp :=
  { kind, launch := c.b.launch, block := c.g.block, grp := c.cur.grp, core := c.b.core, vpc := s.vpc c
    lanes := maskOf c.exec, token := 0, waits := [], scope := sc, params }

/-- Acts when no consumed token is NONE (05 R125). -/
def State.consuming (s : State) (c : Ctx) (w : Toks) (k : State → State) : State :=
  match (s.grp c).noneToken (tokList w) with
  | some t => s.raiseAll c { code := .tokenInvalid, detail := t }
  | none => k s

/-- Takes the first fault of a list of checks, or goes on. -/
def State.checked (s : State) (c : Ctx) (fs : List (Option Flt)) (k : State → State) : State :=
  match fs.findSome? id with
  | some f => s.raiseAll c f
  | none => k s

/-- The 64-byte parameter block: from the scratchpad at the lead lane's offset, or from a staging set
(11 R241; 20 R436; 21 R462). -/
def State.paramBlock (s : State) (c : Ctx) (set : Nat) (src : Option Operand) :
    Except Flt (List Byte) :=
  match src with
  | none => .ok ((span 0 8).flatMap fun k => leBytes 8 (Cells.get (s.path c).staging (set * 8 + k)).toNat)
  | some o =>
    let off := s.u32 c c.lead o
    if off % 64 ≠ 0 then .error { code := .align, detail := 64, addr := off }
    else if (s.stageOf c.b c.l).spadSize < off + 64 then .error (permFault 3 off)
    else .ok (s.chipBytes (spadChip c.b.core (c.b.spadBase + off)) 64)

/-- Canonical form and translation of every page of a `.g` range (04 Table 4.1). -/
def State.checkPages (s : State) (c : Ctx) (write : Bool) (va n : Nat) : Option Flt :=
  match s.context c.l.vi c.l.ctx with
  | none => some (permFault 2 va)
  | some x =>
    if !canonical x.satp va || !canonical x.satp (va + n - 1) || decide (2 ^ 64 < va + n) then
      some (permFault 1 va)
    else
      (pagesOf va n).findSome? fun e =>
        match s.translate c.b.core x.satp (s.iface c.l.vi).hgatp e.1 write with
        | .error f => some f
        | .ok _ => none

/-- Whether a range an engine writes touches a control row; a page that is not present is met by the
transfer (11 R259). -/
def State.controlFault (s : State) (c : Ctx) (va n : Nat) : Option Flt :=
  match s.context c.l.vi c.l.ctx with
  | none => none
  | some x =>
    (pagesOf va n).findSome? fun e =>
      match s.translate c.b.core x.satp (s.iface c.l.vi).hgatp e.1 true with
      | .error _ => none
      | .ok (pa, _) =>
        if (span (pa / 1024) ((pa + (e.2 - e.1)) / 1024 + 1 - pa / 1024)).any
            fun r => isControlRow (r * 1024) then some (permFault 6 e.1)
        else none

/-- Whether a range lies in the claims with a right (06 R146). -/
def claimFault (l : Launch) (write : Bool) (va n : Nat) : Option Flt :=
  if claimed l.claims write va n then none
  else some { code := .regionUnclaimed, detail := write.toNat, addr := va }

/-- The first page of a range whose attributes a test refuses. -/
def attrFault (l : Launch) (bad : Nat → Bool) (va n : Nat) : Option Flt :=
  (pagesOf va n).findSome? fun e =>
    let f := attrFlags l.attrs e.1
    if bad f then some { code := .attrMismatch, detail := f % 65536, addr := va } else none

def overlapping (a an b bn : Nat) : Bool := decide (a < b + bn) && decide (b < a + an)

def blockFault : Flt := { code := .illegalOperand, detail := 4 }

/-- A fault when a condition holds. -/
def faultIf (b : Bool) (f : Flt) : Option Flt := if b then some f else none

/-- Whether a byte range lies inside the bytes of a tile (04 R89; 11 R246). -/
def Tile.holds (t : Tile) (a n : Nat) : Bool :=
  let p := t.pitch * 64
  decide (t.base ≤ a) && decide (a + n ≤ t.base + (t.rows - 1) * p + t.rowBytes)
    && (t.rowBytes == p || decide ((a - t.base) % p + n ≤ t.rowBytes))

/-- The space checks of a COPY operand (18 R378). Bounds of an own scratchpad operand come first, its
barrier page later. -/
def State.copyOperand (s : State) (c : Ctx) (sp : Space) (a n : Nat) (write : Bool) : Option Flt :=
  let f (r : Resolved) : Option Flt :=
    match r with
    | .fault f => some f
    | _ => none
  match sp with
  | .g => s.checkPages c write a n
  | .l => f (s.resolveL c.b c.l 0 a { n })
  | .c => f (s.resolveC c.b c.l 0 a { n, write })
  | .w => f (s.resolveW c.l 0 a { n, write })

/-- The block of Table 11.2 that a draft builds (18 R378). -/
def State.copyBlock (s : State) (c : Ctx) (r : CopyArgs) : List Byte × Nat :=
  let n := s.u64 c true c.lead r.count
  let arr := match r.arrival with
    | .none => leBytes 2 0
    | .tile t => leBytes 1 1 ++ leBytes 1 t
    | .bar b k => leBytes 1 2 ++ leBytes 1 (b + 32 * k)
  (leBytes 8 (s.u64 c true c.lead r.dst) ++ leBytes 8 (s.u64 c true c.lead r.src)
    ++ leBytes 4 (if n < 2 ^ 32 then n else 0) ++ leBytes 1 (r.dstSpace.code + 4 * r.srcSpace.code)
    ++ leBytes 1 r.scope.code ++ arr ++ leBytes 40 0, n)

/-- The arrival of a COPY: the fault of its tile or its barrier, or the tile it fills and the slot it
arrives on (11 R246; 18 R378). -/
def State.copyArrival (s : State) (c : Ctx) (kind idx : Nat) (dst n : Nat) (dsp : Space) :
    Except Flt (Option Nat × Option (Nat × Nat)) :=
  match kind with
  | 1 =>
    let t := s.tile c.g.block idx
    if !t.cfg || dsp != .l || !t.holds dst n then .error { code := .tileShape, detail := idx }
    else if t.state = tileFilling ∨ t.state = tileDraining then
      .error { code := .tileBusy, detail := idx }
    else
      match s.tileLink c.b c.l t with
      | .error f => .error f
      | .ok k => .ok (some idx, some k)
  | 2 =>
    match s.barSlot c.b c.l (idx % 32) (idx / 32) with
    | .error f => .error f
    | .ok t => .ok (none, some (idx % 32, t))
  | _ => .ok (none, none)

/-- A tile moves to FILLING on a slot (04 Table 4.5, R91). -/
def State.beginFill (s : State) (bk : Nat) (tile : Option Nat) (link : Option (Nat × Nat)) : State :=
  match tile, link with
  | some t, some k =>
    { s.setTileState bk t tileFilling with fills := AMap.put s.fills (bk * 64 + t) k }
  | _, _ => s

/-- COPY (11 R245, R246; 18 R378, R379). -/
def execCopy (g : Guard) (tk : Nat) (w : Toks) (args : Option CopyArgs) (s : State) :
    Host.Outcome State Fault Refusal :=
  s.issue g fun c =>
    if c.exec.isEmpty then s.finish c
    else
      s.consuming c w fun s =>
        let (bs, n) := match args with
          | some r => s.copyBlock c r
          | none =>
            let bs := (span 0 8).flatMap fun k => leBytes 8 (Cells.get (s.path c).staging k).toNat
            (bs, field bs 16 4)
        let op := s.command c .copy ((Scope.ofCode (bitsOf (field bs 21 1) 0 3)).getD .core) bs
        let cut (sp : Space) (a : Nat) : Nat := if sp = .g ∨ sp = .w then a else a % 2 ^ 32
        let dsp := op.dstSpace
        let ssp := op.srcSpace
        let dst := cut dsp op.dst
        let src := cut ssp op.src
        let kind := field bs 22 1
        let idx := field bs 23 1
        let bad := decide (16 ≤ field bs 20 1) || decide (7 ≤ field bs 21 1) || decide (2 < kind)
          || (kind == 1 && decide (64 ≤ idx)) || field bs 24 40 != 0
        let onG (sp : Space) (f : Option Flt) : Option Flt := if sp = .g then f else none
        s.checked c
          [faultIf (n < 8 || decide (2 ^ 30 < n) || n % 8 != 0 || bad) blockFault,
           faultIf (dst % 8 != 0) { code := .align, detail := 8, addr := dst },
           faultIf (src % 8 != 0) { code := .align, detail := 8, addr := src },
           s.copyOperand c dsp dst n true, s.copyOperand c ssp src n false,
           onG ssp (claimFault c.l false src n), onG dsp (claimFault c.l true dst n),
           onG dsp (s.controlFault c dst n),
           faultIf (dsp == ssp && overlapping dst n src n) blockFault,
           faultIf (dsp == .l && touchesPage (s.stageOf c.b c.l).spadSize dst n) (permFault 5 dst)]
          fun s =>
            match s.copyArrival c kind idx dst n dsp with
            | .error f => s.raiseAll c f
            | .ok (tile, link) =>
              s.afterPending c tk fun s =>
                (s.beginFill c.g.block tile link).handOver c tk w (if ssp = .g then [(src, n)] else [])
                  { op with tile, link, total := if link.isSome then n else 0 }

/-- The descriptor that a handle names, or the fault of R95 step 1. -/
def State.descriptor (s : State) (c : Ctx) (h : Nat) : Except Flt (List Byte) :=
  match s.context c.l.vi c.l.ctx with
  | none => .error blockFault
  | some x =>
    if x.handleLen ≤ h then .error blockFault
    else
      match s.translate c.b.core x.satp (s.iface c.l.vi).hgatp (x.handleBase + 64 * h) false with
      | .error f => .error f
      | .ok (pa, t) =>
        let bs := t.memBytes pa 64
        if t.poisoned 0 (pa / 64) then .error (lostAt (x.handleBase + 64 * h))
        else if tensorValid bs then .ok bs else .error blockFault

/-- The checks of R95 steps 2 to 4 and R462 step 4 on a request. -/
def State.tensorFault (s : State) (c : Ctx) (store : Bool) (tile : Nat) (q : TensorReq) :
    Option Flt :=
  let base := q.tensor.base
  let foot := q.footprint
  let shape : Flt := { code := .tileShape, detail := tile, addr := base }
  let flags := (foot.map fun a => attrFlags c.l.attrs a).find? fun f => isMside f || isFabric f
  [faultIf (q.tile.fmt != q.tensor.elem) shape,
   faultIf (foot.any fun a => !claimed c.l.claims store a 1)
     { code := .regionUnclaimed, detail := store.toNat, addr := base },
   flags.map fun f => { code := .attrMismatch, detail := f % 65536, addr := base },
   if store then (foot.findSome? fun a => s.controlFault c a 1).map fun f => { f with addr := base } else none,
   faultIf (!store && !q.tile.cfg) shape].findSome? id

/-- The lines that a request's footprint touches. -/
def TensorReq.lines (q : TensorReq) : List (Nat × Nat) :=
  (distinct (fun a => a / 64) q.footprint).map fun k => (k * 64, 64)

/-- TLOAD and TSTORE (11 R248; 21 R462, R463). The record of a fault of a request carries the tensor's base (12 Table
12.2). -/
def State.tensorOp (s : State) (c : Ctx) (store release : Bool) (tk : Nat) (w : Toks)
    (src : Option Operand) : State :=
  if c.exec.isEmpty then s.finish c
  else
    match s.paramBlock c 2 src with
    | .error f => s.raiseAll c f
    | .ok bs =>
      s.consuming c w fun s =>
        let tile := field bs 2 1
        let sc := field bs 4 1
        let bad := field bs 3 1 != store.toNat + 2 * release.toNat || decide (64 ≤ tile)
          || decide (7 ≤ sc) || field bs 5 3 != 0 || field bs 28 36 != 0
        let t := s.tile c.g.block tile
        s.checked c [faultIf bad blockFault] fun s =>
          if store ∧ t.state ≠ tileReady then s.waitOn c (.tile tile)
          else
            match s.descriptor c (field bs 0 2) with
            | .error f => s.raiseAll c f
            | .ok ds =>
              let q := tensorReq (bs ++ ds) t
              let op := s.command c (if store then .tstore else .tload)
                ((Scope.ofCode sc).getD .core) (bs ++ ds)
              s.checked c [s.tensorFault c store tile q] fun s =>
                if store then
                  s.afterPending c tk fun s =>
                    (s.setTileState c.g.block tile tileDraining).handOver c tk w []
                      { op with tile := some tile }
                else if t.state = tileFilling ∨ t.state = tileDraining then
                  s.raiseAll c { code := .tileBusy, detail := tile, addr := q.tensor.base }
                else
                  match s.tileLink c.b c.l t with
                  | .error f => s.raiseAll c { f with addr := q.tensor.base }
                  | .ok k =>
                    s.afterPending c tk fun s =>
                      (s.beginFill c.g.block (some tile) (some k)).handOver c tk w q.lines
                        { op with tile := some tile, link := some k, total := t.bytes }

def execTload (g : Guard) (tk : Nat) (w : Toks) (src : Option Operand) (s : State) :
    Host.Outcome State Fault Refusal :=
  s.issue g fun c => s.tensorOp c false false tk w src

def execTstore (g : Guard) (release : Bool) (tk : Nat) (w : Toks) (src : Option Operand)
    (s : State) : Host.Outcome State Fault Refusal :=
  s.issue g fun c => s.tensorOp c true release tk w src

/-- The batten's hand-over read of a table of sources: each 8-byte word of the launch's version, its dirty
lines written back first (11 R255; 20 R436). -/
def State.tableWord (s : State) (c : Ctx) (a : Nat) : Nat :=
  match s.context c.l.vi c.l.ctx with
  | none => 0
  | some x =>
    match s.translate c.b.core x.satp (s.iface c.l.vi).hgatp a false with
    | .error _ => 0
    | .ok (pa, t) =>
      let line := t.baseLine (c.l.tag (attrFlags c.l.attrs a)) (pa / 64)
      leNat ((span (pa % 64) 8).map (lineByte line))

/-- Whether a word of a table of sources has been destroyed by an uncorrectable error (12 Table 12.5). -/
def State.tableLost (s : State) (c : Ctx) (a : Nat) : Bool :=
  match s.context c.l.vi c.l.ctx with
  | none => false
  | some x =>
    match s.translate c.b.core x.satp (s.iface c.l.vi).hgatp a false with
    | .error f => f.lost
    | .ok (pa, t) => t.poisoned (c.l.tag (attrFlags c.l.attrs a)) (pa / 64)

/-- The checks of a reduction's operands: each by 04 Table 4.1 first, then those of 11 R256 (20 R436 step 5). -/
def State.reduceFault (s : State) (c : Ctx) (op : EngineOp) : Option Flt :=
  let size := op.redSize
  let dst := op.redDst
  let flag := field op.params 32 8
  let srcs := op.redSources
  let all : List (Nat × Nat × Bool) := (srcs.map fun a => (a, size, false)) ++ [(dst, size, true), (flag, 8, true)]
  let bad (f : Nat) : Bool := isMside f || isFabric f
  ((all.flatMap fun e =>
      [s.checkPages c e.2.2 e.1 e.2.1, attrFault c.l bad e.1 e.2.1, claimFault c.l e.2.2 e.1 e.2.1])
    ++ ((srcs ++ [dst]).map fun a => faultIf (a % 64 != 0) { code := .align, detail := 64, addr := a })
    ++ [faultIf (flag % 8 != 0) { code := .align, detail := 8, addr := flag },
        faultIf (srcs.any fun a => overlapping dst size a size) blockFault,
        faultIf ((srcs ++ [dst]).any fun a => overlapping flag 8 a size) blockFault,
        s.controlFault c dst size, s.controlFault c flag 8]).findSome? id

/-- REDUCE (11 R255 to R258; 20 R436, R437). -/
def execReduce (g : Guard) (tk : Nat) (w : Toks) (src : Option Operand) (s : State) :
    Host.Outcome State Fault Refusal :=
  s.issue g fun c =>
    if c.exec.isEmpty then s.finish c
    else
      s.consuming c w fun s =>
        match s.paramBlock c 3 src with
        | .error f => s.raiseAll c f
        | .ok bs =>
          let base := field bs 0 8
          let stride := field bs 8 8
          let count := field bs 24 4
          let n := field bs 28 1
          let table := field bs 30 1 == 1
          let bad := decide (count < 1) || decide (2 ^ 28 < count) || decide (n < 1) || decide (16 < n)
            || decide (1 < field bs 29 1) || decide (field bs 31 1 < 4) || decide (6 < field bs 31 1)
            || stride % 64 != 0 || (table && stride != 0) || decide (1 < field bs 30 1)
            || field bs 48 16 != 0
          s.checked c [faultIf bad blockFault] fun s =>
            s.checked c
              (if table then
                [faultIf (base % 8 != 0) { code := .align, detail := 8, addr := base },
                 s.checkPages c false base (8 * n), attrFault c.l isFabric base (8 * n),
                 claimFault c.l false base (8 * n)]
              else []) fun s =>
              let s := if table then s.writeBackRange c base (8 * n) else s
              if table && (span 0 n).any fun k => s.tableLost c (base + 8 * k) then s.raiseAll c (lostAt base)
              else
              let srcs := (span 0 n).map fun k =>
                if table then s.tableWord c (base + 8 * k) else (base + k * stride) % 2 ^ 64
              let op := s.command c .reduce ((Scope.ofCode (field bs 31 1)).getD .device)
                (bs ++ srcs.flatMap (leBytes 8))
              s.checked c [s.reduceFault c op] fun s =>
                s.afterPending c tk fun s =>
                  s.handOver c tk w (srcs.map fun a => (a, op.redSize)) op

/-- The block of Table 11.7 and the fault of its row count (20 R442, R443). -/
def State.rowBlock (s : State) (c : Ctx) (k : RowKind) (args : Option RowArgs) :
    List Byte × Option Flt :=
  match args with
  | some r =>
    let n := s.u64 c true c.lead r.count
    let a (o : Option Operand) : Nat := match o with
      | some o => s.u64 c true c.lead o
      | none => 0
    (leBytes 8 (s.u64 c true c.lead r.dst) ++ leBytes 8 (a r.srcA) ++ leBytes 8 (a r.srcB)
      ++ leBytes 2 n ++ leBytes 1 k.code ++ leBytes 37 0,
     faultIf (decide (n < 1) || decide (508 < n)) { code := .illegalOperand, detail := 0 })
  | none =>
    let bs := (span 0 8).flatMap fun i => leBytes 8 (Cells.get (s.path c).staging (32 + i)).toNat
    let unused := (rowSources k == 0 && field bs 8 8 != 0) || (decide (rowSources k < 2) && field bs 16 8 != 0)
    (bs, faultIf (decide (field bs 24 2 < 1) || decide (508 < field bs 24 2) || field bs 26 1 != k.code
      || field bs 27 37 != 0 || unused) blockFault)

/-- The checks of one operand of a row operation: pages, attributes, claims, geometry (11 R261;
20 R443). -/
def State.rowOperand (s : State) (c : Ctx) (i va n : Nat) : Option Flt :=
  let write := i == 0
  let pas := (span 0 n).map fun k =>
    match s.context c.l.vi c.l.ctx with
    | none => 0
    | some x =>
      match s.translate c.b.core x.satp (s.iface c.l.vi).hgatp (va + 1024 * k) write with
      | .error _ => 0
      | .ok (pa, _) => pa
  let outside (pa : Nat) : Bool :=
    bitsOf pa 40 1 == 1 || isControlRow pa || pa / 2 ^ 19 != pas.headD 0 / 2 ^ 19
  [s.checkPages c write va (1024 * n),
   attrFault c.l (fun f => !(isImmediate f && isCcap f)) va (1024 * n),
   claimFault c.l write va (1024 * n),
   faultIf (pas.any outside) { code := .rowopGeometry, detail := i, addr := va }].findSome? id

/-- ROWOP (11 R260, R261; 20 R442, R443). -/
def execRowop (g : Guard) (kind : RowKind) (tk : Nat) (w : Toks) (args : Option RowArgs) (s : State) :
    Host.Outcome State Fault Refusal :=
  s.issue g fun c =>
    if c.exec.isEmpty then s.finish c
    else
      s.consuming c w fun s =>
        let (bs, bad) := s.rowBlock c kind args
        let n := field bs 24 2
        let ops := (span 0 (1 + rowSources kind)).map fun i => (i, field bs (8 * i) 8)
        s.checked c
          ([bad]
            ++ (ops.map fun e =>
                faultIf (e.2 % 1024 != 0) { code := .align, detail := 1024, addr := e.2 })
            ++ (if bad.isNone then ops.map fun e => s.rowOperand c e.1 e.2 n else [])) fun s =>
          s.afterPending c tk fun s =>
            s.handOver c tk w ((ops.drop 1).map fun e => (e.2, 1024 * n)) (s.command c .rowop .device bs)

/-- FLUSH and INVAL (11 R249; 18 R396; 19 R412). -/
def State.careOp (s : State) (c : Ctx) (kind : EngineKind) (sc : Scope) (tk : Nat) (w : Toks)
    (a cnt : Operand) : State :=
  if c.exec.isEmpty then s.finish c
  else
    let va := s.u64 c true c.lead a
    let n := s.u64 c true c.lead cnt
    match s.context c.l.vi c.l.ctx with
    | none => s.raiseAll c (permFault 2 va)
    | some x =>
      let far := decide (2 ^ 64 < va + n) || !canonical x.satp va || !canonical x.satp (va + n - 1)
      s.checked c
        [faultIf (decide (n < 1) || decide (2 ^ 30 < n)) { code := .illegalOperand, detail := 2 },
         faultIf far (permFault 1 va), claimFault c.l false va n] fun s =>
        s.consuming c w fun s =>
          s.afterPending c tk fun s =>
            s.handOver c tk w [] (s.command c kind sc (leBytes 8 va ++ leBytes 8 n))

def execFlush (g : Guard) (sc : Scope) (tk : Nat) (w : Toks) (a cnt : Operand) (s : State) :
    Host.Outcome State Fault Refusal :=
  s.issue g fun c => s.careOp c .flush sc tk w a cnt

def execInval (g : Guard) (sc : Scope) (tk : Nat) (w : Toks) (a cnt : Operand) (s : State) :
    Host.Outcome State Fault Refusal :=
  s.issue g fun c => s.careOp c .inval sc tk w a cnt

/-- The 32 bytes of a treadle message (13 Table 13.5). -/
def treadleBytes (action vi origin mask stamp lsn : Nat) : List Byte :=
  leBytes 1 action ++ leBytes 1 vi ++ leBytes 2 (origin % 1024) ++ leBytes 4 (mask % 65536)
    ++ leBytes 8 stamp ++ leBytes 8 lsn ++ leBytes 8 0

/-- TRIG (13 R293; 21 R467). -/
def execTrig (g : Guard) (action : TreadleAction) (tk : Nat) (mask : Option Operand) (s : State) :
    Host.Outcome State Fault Refusal :=
  s.issue g fun c =>
    if c.exec.isEmpty then s.finish c
    else
      s.afterPending c tk fun s =>
        let m := match mask with
          | some o => s.u32 c c.lead o
          | none => 0
        s.handOver c tk {} [] (s.command c .trig .fabric
          (treadleBytes action.code c.l.vi s.device m s.time (c.l.lsn % 2 ^ 48)))

/-- The number of a staging set (21 Table 21.2). -/
def StageSet.num : StageSet → Nat
  | .sh => 0 | .te => 2 | .re => 3 | .ro => 4

/-- STGW (21 R454, R455). Its result is present one cycle later in native code. -/
def execStgw (g : Guard) (set : StageSet) (idx : Nat) (a : Operand) (s : State) :
    Host.Outcome State Fault Refusal :=
  s.issue g fun c =>
    let x := s.reg c true c.lead a
    let k := StageSet.num set * 8 + idx
    if c.exec.isEmpty then s.finish c
    else
      match c.cur.slot with
      | some sl => (s.launchResults c { sl with lat := 1 } [(.stage k, x)]).finish c
      | none => (s.updCur c fun p => { p with staging := Cells.set p.staging k x }).finish c

end Sys2Proof.Machine
end

