-- ==== Sys2Proof/Machine/Dispatch.lean ====
section
/-! DEFINITION. The dispatch: one arm for each constructor of `Instr`. -/

namespace Sys2Proof.Machine

def exec (i : Instr) (s : State) : Host.Outcome State Fault Refusal :=
  match i with
  | .nop g pad => Sys2Proof.Machine.execNop g pad s
  | .bra g disp => Sys2Proof.Machine.execBra g disp s
  | .brx g ty a => Sys2Proof.Machine.execBrx g ty a s
  | .call g d disp => Sys2Proof.Machine.execCall g d disp s
  | .callx g ty d a => Sys2Proof.Machine.execCallx g ty d a s
  | .ret g ty a => Sys2Proof.Machine.execRet g ty a s
  | .exit g => Sys2Proof.Machine.execExit g s
  | .trap g code => Sys2Proof.Machine.execTrap g code s
  | .trapHandler g code d disp => Sys2Proof.Machine.execTrapHandler g code d disp s
  | .tret g => Sys2Proof.Machine.execTret g s
  | .brk g code => Sys2Proof.Machine.execBrk g code s
  | .yield g => Sys2Proof.Machine.execYield g s
  | .reform g target => Sys2Proof.Machine.execReform g target s
  | .iadd g ty sat d a b => Sys2Proof.Machine.execIadd g ty sat d a b s
  | .isub g ty sat d a b => Sys2Proof.Machine.execIsub g ty sat d a b s
  | .imul g ty d a b => Sys2Proof.Machine.execImul g ty d a b s
  | .imulhi g ty d a b => Sys2Proof.Machine.execImulhi g ty d a b s
  | .imad g ty sat d a b c => Sys2Proof.Machine.execImad g ty sat d a b c s
  | .idiv g ty d a b => Sys2Proof.Machine.execIdiv g ty d a b s
  | .irem g ty d a b => Sys2Proof.Machine.execIrem g ty d a b s
  | .ineg g ty sat d a => Sys2Proof.Machine.execIneg g ty sat d a s
  | .iabs g ty sat d a => Sys2Proof.Machine.execIabs g ty sat d a s
  | .imin g ty d a b => Sys2Proof.Machine.execImin g ty d a b s
  | .imax g ty d a b => Sys2Proof.Machine.execImax g ty d a b s
  | .icmp g ty cond d a b => Sys2Proof.Machine.execIcmp g ty cond d a b s
  | .lea g ty shift sx d a b => Sys2Proof.Machine.execLea g ty shift sx d a b s
  | .and g ty d a b => Sys2Proof.Machine.execAnd g ty d a b s
  | .andn g ty d a b => Sys2Proof.Machine.execAndn g ty d a b s
  | .or g ty d a b => Sys2Proof.Machine.execOr g ty d a b s
  | .xor g ty d a b => Sys2Proof.Machine.execXor g ty d a b s
  | .not g ty d a => Sys2Proof.Machine.execNot g ty d a s
  | .shl g ty d a b => Sys2Proof.Machine.execShl g ty d a b s
  | .shr g ty d a b => Sys2Proof.Machine.execShr g ty d a b s
  | .bfi g ty d a b c => Sys2Proof.Machine.execBfi g ty d a b c s
  | .bfx g ty d a b => Sys2Proof.Machine.execBfx g ty d a b s
  | .brev g ty d a => Sys2Proof.Machine.execBrev g ty d a s
  | .clz g ty d a => Sys2Proof.Machine.execClz g ty d a s
  | .ctz g ty d a => Sys2Proof.Machine.execCtz g ty d a s
  | .popc g ty d a => Sys2Proof.Machine.execPopc g ty d a s
  | .sel g ty d a b c => Sys2Proof.Machine.execSel g ty d a b c s
  | .mov g ty d a => Sys2Proof.Machine.execMov g ty d a s
  | .fadd g ty rm d a b => Sys2Proof.Machine.execFadd g ty rm d a b s
  | .fsub g ty rm d a b => Sys2Proof.Machine.execFsub g ty rm d a b s
  | .fmul g ty rm d a b => Sys2Proof.Machine.execFmul g ty rm d a b s
  | .ffma g ty rm d a b c => Sys2Proof.Machine.execFfma g ty rm d a b c s
  | .fdiv g ty rm d a b => Sys2Proof.Machine.execFdiv g ty rm d a b s
  | .fsqrt g ty rm d a => Sys2Proof.Machine.execFsqrt g ty rm d a s
  | .frcp g ty d a => Sys2Proof.Machine.execFrcp g ty d a s
  | .frsq g ty d a => Sys2Proof.Machine.execFrsq g ty d a s
  | .fexp2 g ty d a => Sys2Proof.Machine.execFexp2 g ty d a s
  | .flog2 g ty d a => Sys2Proof.Machine.execFlog2 g ty d a s
  | .ftanh g ty d a => Sys2Proof.Machine.execFtanh g ty d a s
  | .fmin g ty d a b => Sys2Proof.Machine.execFmin g ty d a b s
  | .fmax g ty d a b => Sys2Proof.Machine.execFmax g ty d a b s
  | .fcmp g ty d a b => Sys2Proof.Machine.execFcmp g ty d a b s
  | .fsgn g ty x d a b => Sys2Proof.Machine.execFsgn g ty x d a b s
  | .fclass g ty d a => Sys2Proof.Machine.execFclass g ty d a s
  | .fcvt g dst src rm d a => Sys2Proof.Machine.execFcvt g dst src rm d a s
  | .fcvti g dst src rm d a => Sys2Proof.Machine.execFcvti g dst src rm d a s
  | .icvtf g dst src rm d a => Sys2Proof.Machine.execIcvtf g dst src rm d a s
  | .bpenc g d a => Sys2Proof.Machine.execBpenc g d a s
  | .bpdec g p d a => Sys2Proof.Machine.execBpdec g p d a s
  | .plop g tt d a b => Sys2Proof.Machine.execPlop g tt d a b s
  | .pmov g toPred p r => Sys2Proof.Machine.execPmov g toPred p r s
  | .ballot g d a => Sys2Proof.Machine.execBallot g d a s
  | .vote g mode d a => Sys2Proof.Machine.execVote g mode d a s
  | .shfl g ty mode d a b => Sys2Proof.Machine.execShfl g ty mode d a b s
  | .gred g op ty d a => Sys2Proof.Machine.execGred g op ty d a s
  | .gscan g op excl ty d a => Sys2Proof.Machine.execGscan g op excl ty d a s
  | .ld g ty ord sc d m => Sys2Proof.Machine.execLd g ty ord sc d m s
  | .st g ty ord sc m a wait => Sys2Proof.Machine.execSt g ty ord sc m a wait s
  | .ldt g ty d tile row col => Sys2Proof.Machine.execLdt g ty d tile row col s
  | .stt g ty tile row col a => Sys2Proof.Machine.execStt g ty tile row col a s
  | .fence g kind sc wait => Sys2Proof.Machine.execFence g kind sc wait s
  | .drain g sc wait => Sys2Proof.Machine.execDrain g sc wait s
  | .lock g d a cnt => Sys2Proof.Machine.execLock g d a cnt s
  | .unlock g d a cnt => Sys2Proof.Machine.execUnlock g d a cnt s
  | .atom g op ty ord sc nr d m a wait => Sys2Proof.Machine.execAtom g op ty ord sc nr d m a wait s
  | .atombadd g ty ord sc nr d q m a n wait => Sys2Proof.Machine.execAtombadd g ty ord sc nr d q m a n wait s
  | .atomcas g ty ord sc d m cmp new wait => Sys2Proof.Machine.execAtomcas g ty ord sc d m cmp new wait s
  | .enq g sc cb e => Sys2Proof.Machine.execEnq g sc cb e s
  | .enqtry g sc d cb e => Sys2Proof.Machine.execEnqtry g sc d cb e s
  | .deq g sc cb e => Sys2Proof.Machine.execDeq g sc cb e s
  | .deqtry g sc q cb e => Sys2Proof.Machine.execDeqtry g sc q cb e s
  | .qinit g sc cb base shape => Sys2Proof.Machine.execQinit g sc cb base shape s
  | .qstat g sc d cb => Sys2Proof.Machine.execQstat g sc d cb s
  | .bararm g bar depth arrivals bytes => Sys2Proof.Machine.execBararm g bar depth arrivals bytes s
  | .bararr g bar k count => Sys2Proof.Machine.execBararr g bar k count s
  | .barwait g bar k => Sys2Proof.Machine.execBarwait g bar k s
  | .barrot g bar => Sys2Proof.Machine.execBarrot g bar s
  | .barsync g => Sys2Proof.Machine.execBarsync g s
  | .pollbk g sc d m => Sys2Proof.Machine.execPollbk g sc d m s
  | .tdecl g fmt sw tile shape bar slot => Sys2Proof.Machine.execTdecl g fmt sw tile shape bar slot s
  | .tfree g tile => Sys2Proof.Machine.execTfree g tile s
  | .tstateRead g w1 d tile => Sys2Proof.Machine.execTstateRead g w1 d tile s
  | .tstateReady g tile => Sys2Proof.Machine.execTstateReady g tile s
  | .tload g tk wait src => Sys2Proof.Machine.execTload g tk wait src s
  | .tstore g release tk wait src => Sys2Proof.Machine.execTstore g release tk wait src s
  | .copy g tk wait args => Sys2Proof.Machine.execCopy g tk wait args s
  | .reduce g tk wait src => Sys2Proof.Machine.execReduce g tk wait src s
  | .rowop g kind tk wait args => Sys2Proof.Machine.execRowop g kind tk wait args s
  | .flush g sc tk wait a cnt => Sys2Proof.Machine.execFlush g sc tk wait a cnt s
  | .inval g sc tk wait a cnt => Sys2Proof.Machine.execInval g sc tk wait a cnt s
  | .trig g action tk mask => Sys2Proof.Machine.execTrig g action tk mask s
  | .stgw g set idx a => Sys2Proof.Machine.execStgw g set idx a s
  | .mma g fa fb p q flag acc gl sl => Sys2Proof.Machine.execMma g fa fb p q flag acc gl sl s
  | .latch g f q row col lat tile => Sys2Proof.Machine.execLatch g f q row col lat tile s
  | .gatherTile g f p tk gl tile idx col => Sys2Proof.Machine.execGatherTile g f p tk gl tile idx col s
  | .gatherSpad g f p tk gl sw off => Sys2Proof.Machine.execGatherSpad g f p tk gl sw off s
  | .accscale g acc pt ta ts c origin => Sys2Proof.Machine.execAccscale g acc pt ta ts c origin s
  | .accrd g f i32 rm tile acc => Sys2Proof.Machine.execAccrd g f i32 rm tile acc s
  | .accwr g f acc tile => Sys2Proof.Machine.execAccwr g f acc tile s
  | .accclr g pt n c => Sys2Proof.Machine.execAccclr g pt n c s
  | .sysrd g d a => Sys2Proof.Machine.execSysrd g d a s
  | .syswr g a b => Sys2Proof.Machine.execSyswr g a b s
  | .clock g d => Sys2Proof.Machine.execClock g d s
  | .satarm g => Sys2Proof.Machine.execSatarm g s
  | .satclr g a => Sys2Proof.Machine.execSatclr g a s
  | .satrd g d => Sys2Proof.Machine.execSatrd g d s
  | .groupSelect core => Sys2Proof.Machine.execGroupSelect core s
  | .issueStarvationLimit core => Sys2Proof.Machine.execIssueStarvationLimit core s
  | .regionCommit => Sys2Proof.Machine.execRegionCommit s
  | .pathRotation grp => Sys2Proof.Machine.execPathRotation grp s
  | .bobbinDraw core bob => Sys2Proof.Machine.execBobbinDraw core bob s
  | .resultArrival grp path => Sys2Proof.Machine.execResultArrival grp path s
  | .gatherComplete core gl => Sys2Proof.Machine.execGatherComplete core gl s
  | .remoteLoadReturn grp path => Sys2Proof.Machine.execRemoteLoadReturn grp path s
  | .queuePollReoffer cb => Sys2Proof.Machine.execQueuePollReoffer cb s
  | .pollbkBackoffExpire grp path => Sys2Proof.Machine.execPollbkBackoffExpire grp path s
  | .engineStart op => Sys2Proof.Machine.execEngineStart op s
  | .shuttlePiece op piece => Sys2Proof.Machine.execShuttlePiece op piece s
  | .tensorPartPerform op part => Sys2Proof.Machine.execTensorPartPerform op part s
  | .engineBytesArrive op => Sys2Proof.Machine.execEngineBytesArrive op s
  | .tokenDone op => Sys2Proof.Machine.execTokenDone op s
  | .rowOperationRow op => Sys2Proof.Machine.execRowOperationRow op s
  | .pageWalk core launch va write => Sys2Proof.Machine.execPageWalk core launch va write s
  | .faultRecordDeliver vi ctx => Sys2Proof.Machine.execFaultRecordDeliver vi ctx s
  | .blockPlace launch stage => Sys2Proof.Machine.execBlockPlace launch stage s
  | .compactorMove launch stage => Sys2Proof.Machine.execCompactorMove launch stage s
  | .blockEvict block => Sys2Proof.Machine.execBlockEvict block s
  | .blockRetire block => Sys2Proof.Machine.execBlockRetire block s
  | .blockHalt block => Sys2Proof.Machine.execBlockHalt block s
  | .launchDequeue lq => Sys2Proof.Machine.execLaunchDequeue lq s
  | .conditionalNodeEval launch => Sys2Proof.Machine.execConditionalNodeEval launch s
  | .launchBind launch => Sys2Proof.Machine.execLaunchBind launch s
  | .launchCommit launch => Sys2Proof.Machine.execLaunchCommit launch s
  | .deferredEnqueueAppend launch => Sys2Proof.Machine.execDeferredEnqueueAppend launch s
  | .shadowWriteback launch line => Sys2Proof.Machine.execShadowWriteback launch line s
  | .irrevocableGrant launch => Sys2Proof.Machine.execIrrevocableGrant launch s
  | .launchAbort launch => Sys2Proof.Machine.execLaunchAbort launch s
  | .draftCreate slot => Sys2Proof.Machine.execDraftCreate slot s
  | .peerDraftRequest r => Sys2Proof.Machine.execPeerDraftRequest r s
  | .peerDraftReceive r => Sys2Proof.Machine.execPeerDraftReceive r s
  | .profileWindowJudge draft record => Sys2Proof.Machine.execProfileWindowJudge draft record s
  | .redraft draft => Sys2Proof.Machine.execRedraft draft s
  | .sliceBoundary => Sys2Proof.Machine.execSliceBoundary s
  | .quantumBoundary => Sys2Proof.Machine.execQuantumBoundary s
  | .stageRebalance launch => Sys2Proof.Machine.execStageRebalance launch s
  | .stageCoreMove launch => Sys2Proof.Machine.execStageCoreMove launch s
  | .powerWithhold core => Sys2Proof.Machine.execPowerWithhold core s
  | .thermalCapReduce cap => Sys2Proof.Machine.execThermalCapReduce cap s
  | .thermalPowerOff => Sys2Proof.Machine.execThermalPowerOff s
  | .fabricAccessReceive r => Sys2Proof.Machine.execFabricAccessReceive r s
  | .fabricAccessTimeout acc => Sys2Proof.Machine.execFabricAccessTimeout acc s
  | .shootdownComplete id => Sys2Proof.Machine.execShootdownComplete id s
  | .bankRetire pc bank => Sys2Proof.Machine.execBankRetire pc bank s
  | .sparingRowCopy pc => Sys2Proof.Machine.execSparingRowCopy pc s
  | .boot r => Sys2Proof.Machine.execBoot r s
  | .upstreamReset k => Sys2Proof.Machine.execUpstreamReset k s
  | .lifecycle r => Sys2Proof.Machine.execLifecycle r s
  | .uncorrectableError place domain unit addr => Sys2Proof.Machine.execUncorrectableError place domain unit addr s
  | .correctedError domain unit addr => Sys2Proof.Machine.execCorrectedError domain unit addr s
  | .sampleTake core => Sys2Proof.Machine.execSampleTake core s
  | .treadleMessageReceive m => Sys2Proof.Machine.execTreadleMessageReceive m s
  | .treadleAct => Sys2Proof.Machine.execTreadleAct s
  | .electionTimeout => Sys2Proof.Machine.execElectionTimeout s
  | .electionReportReceive m => Sys2Proof.Machine.execElectionReportReceive m s
  | .electionChoice => Sys2Proof.Machine.execElectionChoice s
  | .leaderHeartbeat => Sys2Proof.Machine.execLeaderHeartbeat s
  | .heartbeatReceive leader => Sys2Proof.Machine.execHeartbeatReceive leader s
  | .imagePushReceive p => Sys2Proof.Machine.execImagePushReceive p s
  | .queuePortStart vi slot content host => Sys2Proof.Machine.execQueuePortStart vi slot content host s
  | .dbgCaptureWrite vi value => Sys2Proof.Machine.execDbgCaptureWrite vi value s
  | .publish vi => Sys2Proof.Machine.execPublish vi s
  | .unpublish vi => Sys2Proof.Machine.execUnpublish vi s
  | .registerLq vi => Sys2Proof.Machine.execRegisterLq vi s
  | .contextCreate vi => Sys2Proof.Machine.execContextCreate vi s
  | .contextDestroy vi => Sys2Proof.Machine.execContextDestroy vi s
  | .shootdown vi => Sys2Proof.Machine.execShootdown vi s
  | .service vi => Sys2Proof.Machine.execService vi s
  | .release vi => Sys2Proof.Machine.execRelease vi s
  | .kill vi => Sys2Proof.Machine.execKill vi s
  | .stop vi => Sys2Proof.Machine.execStop vi s
  | .profile vi => Sys2Proof.Machine.execProfile vi s
  | .treadle vi => Sys2Proof.Machine.execTreadle vi s
  | .notifyTarget vi => Sys2Proof.Machine.execNotifyTarget vi s
  | .enrolKey vi => Sys2Proof.Machine.execEnrolKey vi s
  | .attest vi => Sys2Proof.Machine.execAttest vi s
  | .viConfig vi => Sys2Proof.Machine.execViConfig vi s
  | .debugAttach vi => Sys2Proof.Machine.execDebugAttach vi s
  | .debugDetach vi => Sys2Proof.Machine.execDebugDetach vi s
  | .debugResume vi => Sys2Proof.Machine.execDebugResume vi s
  | .controlWrite vi => Sys2Proof.Machine.execControlWrite vi s
  | .controlRead vi => Sys2Proof.Machine.execControlRead vi s
  | .unknownCommand vi => Sys2Proof.Machine.execUnknownCommand vi s
  | .accessPerformedAtPointOfService acc => Sys2Proof.Machine.execAccessPerformedAtPointOfService acc s
  | .battenGranuleReduction op granule => Sys2Proof.Machine.execBattenGranuleReduction op granule s
  | .supplyAndCoolantWithinLimits => Sys2Proof.Machine.execSupplyAndCoolantWithinLimits s

end Sys2Proof.Machine
end

