-- ==== Sys2Proof/Machine/Rebuild.lean ====
section
/-! DEFINITION. The Fleper state of a thread at a record of its side table: what the values of its virtual registers
are in the native carrier (03 R69 to R71). -/

namespace Sys2Proof.Machine

/-- The value that a file, a register and a part name in a lane: of s the path's scalar, of a cluster the lane's
register (03 R69). -/
def State.readPart (s : State) (c : Ctx) (file reg part lane : Nat) : Word :=
  if file = 0 then
    let x := Cells.get (s.path c).sregs reg
    if part = 2 then x else x &&& 0xFFFFFFFF
  else
    let look (n : Nat) : BitVec 32 := Cells.get s.cregs (cregKey c.b.core (file - 1) (s.regBase c + n) lane)
    if part = 1 then look (reg + 1) ++ look reg else (look reg).setWidth 64

/-- The effect of a recipe operation on two values (03 Table 3.5). -/
def recipeOp (op : Nat) (x y : Word) : Word :=
  match op with
  | 0x10 => x + y
  | 0x11 => x - y
  | 0x12 => x * y
  | 0x13 => x &&& y
  | 0x14 => x ||| y
  | _ => x ^^^ y

/-- The value of a recipe, evaluated on a stack (03 R70). The loader has refused one that underflows or runs past its
limits. -/
def State.evalRecipe (s : State) (c : Ctx) (pool : List Byte) (lane : Nat) : Nat → Nat → List Word → Word
  | 0, _, st => st.headD 0
  | n + 1, pos, st =>
    let op := field pool pos 1
    let a := field pool (pos + 1) 1
    let go (st : List Word) : Word := s.evalRecipe c pool lane n (pos + 4) st
    match op, st with
    | 0x00, _ => st.headD 0
    | 0x01, _ => go (s.readPart c a (field pool (pos + 2) 1) (field pool (pos + 3) 1) lane :: st)
    | 0x02, _ => go (BitVec.ofInt 64 (signedOf 24 (field pool (pos + 1) 3)) :: st)
    | 0x03, _ =>
      match Special.ofCode (field pool (pos + 1) 2) with
      | some r => go (BitVec.ofNat 64 (s.special c lane r) :: st)
      | none => go (0 :: st)
    | 0x16, x :: xs => go (x <<< a :: xs)
    | 0x17, x :: xs => go (x >>> a :: xs)
    | _, y :: x :: xs => go (recipeOp op x y :: xs)
    | _, _ => go st

/-- A virtual register of a lane of the issuing path at a record: its value and whether it is dead. One that the
record does not list is reported as 0 and dead (03 R71). In Fleper code the registers are there as they are. -/
def State.rebuilt (s : State) (c : Ctx) (rec lane n : Nat) : Word × Bool :=
  match sideTable (s.imageBytes c.l) (s.stageOf c.b c.l).code with
  | none => (Cells.get s.vregs (vregKey (c.g.thread lane) n), false)
  | some side =>
    let at_ := field side (field side 12 4 + 4 * rec) 4
    let live := (span 0 (field side (at_ + 16) 2)).map fun i => (side.drop (at_ + 24 + 8 * i)).take 8
    match live.find? fun e => field e 0 3 == n with
    | none => (0, true)
    | some e =>
      if field e 3 1 = 1 then (s.readPart c (field e 4 1) (field e 5 1) (field e 6 1) lane, false)
      else (s.evalRecipe c (side.drop (field side 16 4)) lane 32 (field e 4 4) [], false)

end Sys2Proof.Machine
end

