-- ==== Sys2Proof/Machine/Issue.lean ====
section
/-! DEFINITION. The issue of one instruction or one bundle by the selected path: fetch, regions and their commit
points, the order of slots, delay bundles and lookahead (02 R29, R45; 03 R55 to R67, R71, R484; 10 R238; 13 R284). -/

namespace Sys2Proof.Machine

/-- The bytes at the program counter of a context. -/
def State.fetchBytes (s : State) (c : Ctx) : List Byte := (s.codeBytes c).drop c.p.pc

/-- Whether an instruction is a conditional branch, with the outcomes of the issuing path: whether some lane takes
it, and whether some lane does not (03 R73). -/
def State.branchOutcome (s : State) (i : Instr) : Option (Bool × Bool) :=
  match i with
  | .bra (.pred n neg) _ =>
    (s.ctx (.pred n neg)).map fun c => (!c.exec.isEmpty, decide (c.exec.length < c.lanes.length))
  | _ => none

/-- The instruction at a Fleper path's program counter issues, unless regions of matrix runs end there first. -/
def State.issueFleper (s : State) (c : Ctx) : Host.Outcome State Fault Refusal :=
  match decode (s.fetchBytes c) with
  | .error _ => .fault .undecodable
  | .ok (i, len) =>
    if !(s.endsHere c).isEmpty then exec .regionCommit s
    else
      let gk := c.cur.grp
      let k := c.cur.path
      let t := if c.p.begun || c.p.run != 0 then s
        else s.beginExecution gk k (ordinal (s.codeBytes c) c.p.pc)
      let t := { t.updPath gk k fun p => { p with begun := true, met := false } with cur := some { c.cur with len } }
      let t := match t.branchOutcome i with
        | some (a, b) => t.countBranch gk k 0 a b
        | none => t
      exec i t

/-- Steps 4 and 5 of 03 R62: shadow copies, and the reservation of the record; none when the buffer has not enough
free entries. -/
def State.openRegion (s : State) (c : Ctx) (b : Bundle) : Option State :=
  let side := (sideTable (s.imageBytes c.l) (s.stageOf c.b c.l).code).getD []
  let need := recordField side b.cpidx 18 2
  if 8192 < s.reservedOn c.b.core + need then none
  else
    let s := s.landPath c.cur.grp c.cur.path
    let base := s.regBase c
    let regs := (s.stageOf c.b c.l).regs
    let snap : Snap :=
      { pc := c.p.pc, mask := c.p.mask
        threads := c.lanes.foldl (fun (m : AMap Thread) l =>
          AMap.put m (c.g.thread l) (s.thread (c.g.thread l))) []
        cregs := (AMap.keep (fun k _ => inLanes c.b.core base regs c.p.mask k) s.cregs).foldl
          (fun (m : Cells 32) e => Cells.set m (relKey base e.1) e.2) []
        sregs := (s.path c).sregs, staging := (s.path c).staging
        tokens := (c.g.pend, c.g.done), table := c.g.paths.map fun p => (p.entry, p.pc, p.mask) }
    let t := s.beginExecution c.cur.grp c.cur.path b.cpidx
    some (t.updCur c fun p =>
      { p with snap := some snap, reserved := need, cp := b.cpidx, mark := none, conservative := false
               wait := .none })

/-- What makes up a slot of a bundle as it issues: the position, the class, the fields, the instruction. -/
abbrev Placed := Nat × SlotClass × NSlot × Instr

/-- The slots of a bundle, with their positions. -/
def placedSlots (b : Bundle) : List Placed := (span 1 b.slots.length).zip b.slots

/-- Whether a slot performs at the commit of its one-bundle region, after every other slot has completed (03 R63; 17
R368). -/
def Instr.atCommit (i : Instr) : Bool :=
  Instr.irreversible i || (match i with
    | .brk .. => true
    | _ => false)

/-- The slot of a bundle that performs at the commit of its region, if it holds one. -/
def lateSlot (b : Bundle) : Option Placed := (placedSlots b).find? fun x => Instr.atCommit x.2.2.2

/-- The slots that issue with a bundle, in the order in which their effects are worked out. Results land later, so
that every slot reads what stood before the bundle; an MMA reads latches before a GATHER of its bundle fills them, and
loads read memory before stores of their bundle. -/
def slotOrder (b : Bundle) : List Placed :=
  let xs := (placedSlots b).filter fun x => !Instr.atCommit x.2.2.2
  let rank (x : Placed) : Nat :=
    if Instr.isStore x.2.2.2 then 2 else if x.2.1 == .mma || x.2.1 == .acc then 0 else 1
  (span 0 3).flatMap fun r => xs.filter fun x => rank x == r

/-- The cluster that a slot of a class drives; 4 is none. -/
def slotCluster : SlotClass → Nat
  | .vec x | .mem x => x
  | _ => 4

/-- What issues: a slot of the selected path's bundle. -/
def slotCur (c : Ctx) (b : Bundle) (x : Placed) : Cur :=
  { c.cur with
    len := 64
    slot := some
      { la := x.2.2.1.la, cluster := slotCluster x.2.1, pos := x.1
        first := c.p.run == 0 && !((b.slots.take (x.1 - 1)).any fun y => Instr.isMatrix y.2.2)
        lat := (fixedLatency x.2.1 x.2.2.1.opc).getD 0, aliasByte := aliasOf x.2, scope := b.scope } }

/-- Whether the path that issues has come to a stop in a slot: it waits, it has rolled back, or its block is
frozen. -/
def State.slotStops (s : State) (c : Ctx) : Bool :=
  let p := s.path c
  !(p.wait == Wait.none || p.wait == Wait.sync) || (p.conservative && !c.p.conservative)
    || (AMap.find? s.blocks c.g.block).any fun b => b.fault.isSome

/-- Counts a rollback, and the conflict that caused it: a store that would not have rolled back without its check
(03 R66, R67). -/
def State.noteRollback (s init : State) (c : Ctx) (cur : Cur) (i : Instr) : State :=
  if !((s.path c).conservative && !c.p.conservative) then s
  else
    let plain := { cur with slot := cur.slot.map fun x => { x with aliasByte := 0 } }
    let conflict := Instr.isStore i && (match exec i { init with cur := some plain } with
      | .next u => !(u.path c).conservative
      | _ => false)
    let t := s.countRollback c.cur.grp c.cur.path
    if conflict then t.countConflict c.cur.grp c.cur.path else t

/-- Issues slots one after another; a slot that stops leaves what it does to the state before the bundle, but for a
fault after a matrix slot, which leaves what the other slots did (03 R64). -/
def State.runSlots (init : State) (c : Ctx) (b : Bundle) :
    List Placed → State → Host.Outcome State Fault Refusal
  | [], t => .next t
  | x :: xs, t =>
    let cur := slotCur c b x
    match exec x.2.2.2 { t with cur := some cur } with
    | .next u =>
      if !u.slotStops c then init.runSlots c b xs u
      else
        match exec x.2.2.2 { init with cur := some cur } with
        | .next v =>
          let frozen := (AMap.find? v.blocks c.g.block).any fun k => k.fault.isSome
          let late := (cur.slot.map fun y => y.first) == some false
          .next (if v.slotStops c && !(frozen && late) then v.noteRollback init c cur x.2.2.2
            else u.noteRollback t c cur x.2.2.2)
        | _ => .next u
    | o => o

/-- The lane that a result in flight is for; a scalar one is for the path. -/
def Group.laneOfResult (g : Group) (d : RegDst) : Option Nat :=
  match d with
  | .creg k => some (k % 64)
  | .pred t _ =>
    some (((List.find? (fun (e : Nat × Nat) => g.block * 2 ^ 11 + e.2 == t) g.lanes).map fun e => e.1).getD 64)
  | _ => none

/-- One of the paths that a native path splits into (02 R29; 03 R61): what is tagged with lanes goes with them, and
the executions under way are those of every one. The first keeps the whole reservation of the region in the gated
store buffer, and what the region holds for its commit, on which no rule speaks: DESIGN CHOICE (log entry 34). -/
def Path.child (p : Path) (g : Group) (pc : Nat) (m : LaneMask) (first : Bool) (since : Nat) : Path :=
  { p with
    pc, mask := m, branch := []
    entry := if first then p.entry else none
    since := if first then p.since else since
    reserved := if first then p.reserved else 0
    held := if first then p.held else []
    clrSat := p.clrSat && first, clrInv := p.clrInv && first
    gated := p.gated.filter fun w => m.getLsbD w.lane
    aliases := (p.aliases.map fun e => { e with lanes := e.lanes &&& m }).filter fun e => e.lanes != 0
    inflight := p.inflight.filter fun e => (g.laneOfResult e.dst).all fun l => m.getLsbD l }

/-- The paths that a native path goes on as. -/
def Path.splitTo (p : Path) (g : Group) (ts : List (Nat × LaneMask)) (since : Nat) : List Path :=
  match ts.map fun e => (e.1, e.2 &&& p.mask) with
  | [] => []
  | e :: es => p.child g e.1 e.2 true since :: es.map fun e => p.child g e.1 e.2 false since

/-- Where the path that has issued a bundle stands, unless it has gone. -/
def Group.issuedIndex (g : Group) (c : Ctx) : Option Nat :=
  findIdx (fun p => p.begun && p.pc == c.p.pc && p.mask != 0 && (p.mask &&& ~~~c.p.mask) == 0) g.paths 0

/-- The end of a bundle: the path moves on, or splits where a branch takes effect (03 R59). -/
def State.endBundle (s : State) (c : Ctx) (b : Bundle) : State :=
  let gk := c.cur.grp
  match AMap.find? s.groups gk with
  | none => s
  | some g =>
    match g.issuedIndex c with
    | none => s
    | some i =>
      let s := s.updPath gk i fun p => { p with begun := false, woken := [], got := [], turn := p.turn + 1 }
      let delayed := b.has Instr.delayed
      let s := s.updGroup gk fun g =>
        let p := (g.paths[i]?).getD c.p
        let ps :=
          if !c.p.branch.isEmpty then p.splitTo g c.p.branch s.next
          else if delayed || p.branch.isEmpty then [{ p with pc := p.pc + 64 }]
          else p.splitTo g p.branch s.next
        Group.regroup { g with paths := replaceAt g.paths i ps }
      { s with next := s.next + 1 }

/-- Whether an instruction of a MEM slot carries per-lane addresses (03 R56). -/
def Instr.laneAddresses : Instr → Bool
  | .ld _ _ _ _ (.s _) _ => false
  | .ld .. | .ldt .. | .st .. | .stt .. | .atom .. | .atombadd .. | .atomcas .. | .pollbk .. => true
  | _ => false

/-- The beats of a bundle (03 R56): of its lane slots, one for each 16 executing lanes. -/
def State.beats (s : State) (b : Bundle) : Nat :=
  let lanes (g : Except DecodeError Guard) : Nat := match g with
    | .ok g => ((s.ctx g).map fun c => (c.exec.length + 15) / 16).getD 1
    | .error _ => 1
  let one (x : SlotClass × NSlot × Instr) : Nat :=
    match x.1 with
    | .vec _ => lanes x.2.1.guard
    | .mem _ => if Instr.laneAddresses x.2.2 then lanes x.2.1.guard else 1
    | _ => 1
  (b.slots.map one).foldl max 1

/-- The number of conditional branches of a region before a bundle, in the order of their addresses. -/
def State.branchNumber (s : State) (c : Ctx) (cp : Nat) (conservative : Bool) : Nat :=
  let side := (sideTable (s.imageBytes c.l) (s.stageOf c.b c.l).code).getD []
  let from_ := recordField side cp (if conservative then 12 else 8) 4
  let isCond (x : SlotClass × NSlot × Instr) : Bool := match x.2.2 with
    | .bra (.pred _ _) _ => true
    | _ => false
  ((span 0 ((c.p.pc - from_) / 64)).flatMap fun i =>
    match decodeBundle ((s.codeBytes c).drop (from_ + 64 * i)) (s.stageOf c.b c.l).regs with
    | .ok b => b.slots.filter isCond
    | .error _ => []).length

/-- Counts the outcome of a bundle's conditional branch. -/
def State.countBundleBranch (s : State) (c : Ctx) (b : Bundle) : State :=
  match b.instrs.findSome? s.branchOutcome with
  | some (x, y) =>
    let p := s.path c
    s.countBranch c.cur.grp c.cur.path (s.branchNumber c p.cp p.conservative) x y
  | none => s

/-- The lookahead of the first `n` results of variable latency counts a bundle (03 R58). -/
def lookOn : Nat → List InFlight → List InFlight
  | 0, es => es
  | _ + 1, [] => []
  | n + 1, e :: es =>
    if e.due.isNone then { e with left := e.left - 1 } :: lookOn n es else e :: lookOn (n + 1) es

/-- The faults that an irreversible slot raises at the commit of its region only, as what it judges may change until
then (18 R378, R382; 21 R459 to R463). -/
def FaultCode.judgedAtCommit : FaultCode → Bool
  | .tileBusy | .barrierOverrun | .queueCorrupt | .queueElementSize => true
  | _ => false

/-- Whether an irreversible slot cannot perform: it would fault, or wait for something else than its queue. When it
issues, what only its commit judges does not count (03 R63; 21 R459). -/
def State.slotBlocked (s : State) (c : Ctx) (cur : Cur) (i : Instr) (atIssue : Bool) : Bool :=
  match exec i { s.updCur c (fun p => { p with conservative := true, sealed := false }) with cur := some cur } with
  | .next u =>
    match (AMap.find? u.blocks c.g.block).bind fun b => b.fault with
    | some f => !(atIssue && f.code.judgedAtCommit)
    | none => match (u.path c).wait with
      | .none | .poll | .sync | .queue _ _ _ => false
      | _ => true
  | _ => false

/-- The slot of a bundle that performs at its region's commit, unless it faults or waits as it issues. -/
def State.sealBundle (s : State) (c : Ctx) (b : Bundle) : List Placed :=
  match lateSlot b with
  | some x => if !Instr.control x.2.2.2 && s.slotBlocked c (slotCur c b x) x.2.2.2 true then [x] else []
  | none => []

/-- A bundle of a native path issues: what is due lands, its slots act, the path goes on; one that holds an
irreversible slot stays until its region has completed. -/
def State.issueBundle (s : State) (b : Bundle) : Host.Outcome State Fault Refusal :=
  match s.ctx .always with
  | none => .fault .noIssuer
  | some c =>
    let gk := c.cur.grp
    let k := c.cur.path
    let t := s.updPath gk k fun p =>
      { p with begun := true, fresh := [], wait := .none, met := false
               mark := if !b.commit && b.cpidx != 0 then some b.cpidx else p.mark }
    let t := t.landIf gk k fun e => e.due.any fun d => decide (d ≤ t.cycle)
    match t.ctx .always with
    | none => .fault .noIssuer
    | some d =>
      match t.runSlots d b (slotOrder b) t with
      | .next u =>
        if u.slotStops d then .next u
        else
          match t.runSlots d b (u.sealBundle d b) u with
          | .next u =>
            if u.slotStops d then .next u
            else
              let u := u.updPath gk k fun p =>
                { p with inflight := lookOn (d.p.inflight.filter fun e => e.due.isNone).length p.inflight }
              let u := (u.countBundleBranch d b).passOthers (t.beats b - 1) d.b.core gk
              .next (if (lateSlot b).isSome then u.updPath gk k fun p => { p with sealed := true }
                else u.endBundle d b)
          | o => o
      | o => o

/-- The one-bundle region of a path whose bundle has issued completes, and its irreversible slot performs: what it
judges is judged before any other slot of the bundle takes effect (03 R62, R63; 21 R459). -/
def State.performLate (s : State) (c : Ctx) (b : Bundle) : Host.Outcome State Fault Refusal :=
  match lateSlot b with
  | none => .next s
  | some x =>
    let i := x.2.2.2
    let cur := slotCur c b x
    let control := Instr.control i
    if s.fillsDue c then .next (s.waitOn c (.latch 0))
    else if !control && s.slotBlocked c cur i false then
      match exec i { s with cur := some cur } with
      | .next u => .next (u.noteRollback s c cur i)
      | o => o
    else
      let t := s.completeRegion c fun e => control && (match e.dst with
        | .pred _ _ => false
        | _ => true)
      if t.slotStops c then .next t else exec i { t with cur := some cur }

/-- The path that issues stands at a POLL bundle. -/
def State.atPollBundle (s : State) (c : Ctx) : State :=
  s.updCur c fun p => { p with wait := .poll }

/-- A native path's step: at a commit point it completes its region, stands at the poll point if its block is marked, and
opens the next region before the bundle issues (02 R45; 03 R62; 17 R371). -/
def State.issueNative (s : State) (c : Ctx) : Host.Outcome State Fault Refusal :=
  match decodeBundle (s.fetchBytes c) (s.stageOf c.b c.l).regs with
  | .error _ => .fault .undecodable
  | .ok b =>
    if c.p.sealed then s.performLate c b
    else if b.commit && !c.p.begun then
      if !(s.endsHere c).isEmpty then exec .regionCommit s
      else if b.poll && c.p.wait != Wait.poll && c.b.marked c.l then .next (s.atPollBundle c)
      else
        match s.openRegion c b with
        | none => .next (s.countStalls 1 c.cur.grp c.g)
        | some t => t.issueBundle b
    else s.issueBundle b

/-- The selected path issues; the executions of paths that end with it end (03 R73). -/
def State.issueNext (s : State) : Host.Outcome State Fault Refusal :=
  match s.ctx .always with
  | none => .fault .noIssuer
  | some c =>
    match (if isNative (s.imageBytes c.l) then s.issueNative c else s.issueFleper c) with
    | .next u => .next (u.endGone s c)
    | o => o

end Sys2Proof.Machine
end

