-- ==== Sys2Proof/Machine/Agenda.lean ====
section
/-! DEFINITION. What the device can do next of its own accord: the events that its agents may carry out in a state,
and the choice among them (log entry 2). -/

namespace Sys2Proof.Machine

/-- Whether carrying out an event changes the state: an agent acts only where it has something to do. -/
def State.acts (s : State) (i : Instr) : Bool :=
  match exec i s with
  | .next t => decide (t ≠ s)
  | _ => false

/-- Cores that hold blocks. -/
def State.busyCores (s : State) : List Nat :=
  distinct (fun c => c) ((s.blocks.filter fun (e : Nat × Block) => e.2.onCore).map fun (e : Nat × Block) => e.2.core)

/-- Whether a group of a core may issue, or leaves its issuing path for one that may. -/
def State.mayIssue (s : State) (c : Nat) : Bool :=
  (s.coreGroups c).any fun e => (s.eligible e.2).isSome || s.rotates e.2

/-- Events of one core: the choice of a group, latch fills, samples. -/
def State.coreEvents (s : State) (c : Nat) : List Instr :=
  let fills : List Instr := [Instr.gatherComplete c 0, Instr.gatherComplete c 1, Instr.sampleTake c]
  if s.mayIssue c then
    Instr.groupSelect c :: Instr.issueStarvationLimit c :: fills
  else fills

/-- Events of one group: rotation, and what its paths wait for. -/
def groupEvents (e : Nat × Group) : List Instr :=
  let ofPath (i : Nat) : List Instr :=
    [Instr.resultArrival e.1 i, Instr.remoteLoadReturn e.1 i, Instr.pollbkBackoffExpire e.1 i]
  Instr.pathRotation e.1 :: (span 0 e.2.paths.length).flatMap ofPath

/-- Events of one engine operation. -/
def engineEvents (e : Nat × EngineOp) : List Instr :=
  let ofPiece (x : Nat) : List Instr :=
    [Instr.shuttlePiece e.1 x, Instr.tensorPartPerform e.1 x, Instr.battenGranuleReduction e.1 x]
  Instr.engineStart e.1 :: Instr.engineBytesArrive e.1 :: Instr.tokenDone e.1 :: Instr.rowOperationRow e.1
    :: e.2.todo.flatMap ofPiece

/-- Events of queue homes, remote accesses, records that wait for delivery, and shootdowns. -/
def State.transferEvents (s : State) : List (List Instr) :=
  [ (s.homes.filter fun (e : Nat × Home) => e.2.offer).map fun (e : Nat × Home) => Instr.queuePollReoffer e.1,
    s.remote.map fun (e : Nat × Remote) => Instr.accessPerformedAtPointOfService e.1,
    s.remote.map fun (e : Nat × Remote) => Instr.fabricAccessTimeout e.1,
    s.deliveries.map fun d => Instr.faultRecordDeliver d.vi d.ctx,
    s.shootdowns.map fun (e : Nat × Shootdown) => Instr.shootdownComplete e.1 ]

/-- Events of one launch. -/
def launchEvents (e : Nat × Launch) : List Instr :=
  let ofStage (i : Nat) : List Instr := [Instr.blockPlace e.1 i, Instr.compactorMove e.1 i]
  Instr.conditionalNodeEval e.1 :: Instr.launchBind e.1 :: Instr.launchCommit e.1 :: Instr.deferredEnqueueAppend e.1
    :: Instr.irrevocableGrant e.1 :: Instr.launchAbort e.1 :: Instr.stageRebalance e.1 :: Instr.stageCoreMove e.1
    :: (span 0 e.2.stages.length).flatMap ofStage

/-- Events of one draft. -/
def draftEvents (e : Nat × Draft) : List Instr :=
  let judged : List Instr := e.2.profiles.map fun (p : Nat × Profile) => Instr.profileWindowJudge e.1 p.1
  match e.2.core with
  | some c => Instr.draftCreate c :: Instr.redraft e.1 :: judged
  | none => Instr.redraft e.1 :: judged

/-- Events of the schedulers and the module; a periodic one once it is due. -/
def State.moduleEvents (s : State) : List Instr :=
  let slice : List Instr := if s.sliceAt + s.slice ≤ s.cycle then [Instr.sliceBoundary] else []
  let quantum : List Instr := if s.quantumAt + s.quantum ≤ s.cycle then [Instr.quantumBoundary] else []
  let rest : List Instr :=
    [Instr.treadleAct, Instr.electionTimeout, Instr.electionChoice, Instr.leaderHeartbeat]
  [slice, quantum, rest].flatten

/-- The management commands of an interface, of which the one at the head of its queue acts. -/
def commandEvents (vi : Nat) : List Instr :=
  [ Instr.publish vi, Instr.unpublish vi, Instr.registerLq vi, Instr.contextCreate vi, Instr.contextDestroy vi,
    Instr.shootdown vi, Instr.service vi, Instr.release vi, Instr.kill vi, Instr.stop vi, Instr.profile vi,
    Instr.treadle vi, Instr.notifyTarget vi, Instr.enrolKey vi, Instr.attest vi, Instr.viConfig vi,
    Instr.debugAttach vi, Instr.debugDetach vi, Instr.debugResume vi, Instr.controlWrite vi, Instr.controlRead vi,
    Instr.unknownCommand vi ]

/-- Every event that some agent of the device stands before. -/
def State.candidates (s : State) : List Instr :=
  let parts : List (List Instr) :=
    [ s.busyCores.flatMap s.coreEvents,
      s.groups.flatMap groupEvents,
      s.bobbins.map fun (e : Nat × Bobbin) => Instr.bobbinDraw (e.1 / 64) (e.1 % 64),
      s.engines.flatMap engineEvents,
      s.blocks.map fun (e : Nat × Block) => Instr.blockEvict e.1,
      s.blocks.map fun (e : Nat × Block) => Instr.blockRetire e.1,
      s.blocks.map fun (e : Nat × Block) => Instr.blockHalt e.1,
      s.queues.map fun (e : Nat × LaunchQueue) => Instr.launchDequeue e.1,
      s.launches.flatMap launchEvents,
      s.shadow.map fun (e : Nat × Line) => Instr.shadowWriteback (e.1 / 2 ^ 35) (e.1 % 2 ^ 35),
      s.drafts.flatMap draftEvents,
      s.spare.map fun (e : Nat × BitVec 64) => Instr.sparingRowCopy e.1,
      s.moduleEvents,
      s.ifaces.flatMap fun (e : Nat × Iface) => commandEvents e.1 ]
  (parts ++ s.transferEvents).flatten

/-- The events that can happen now. -/
def State.enabled (s : State) : List Instr :=
  s.candidates.filter s.acts

/-- A core cycle in which nothing issues. -/
def State.idle (s : State) : State := s.passCycle (fun _ => true) s.groups

/-- What passes without an event: a cycle in which nothing issues, or a cache that gives up one of its lines. -/
def State.unasked (s : State) (k : Nat) : State :=
  match k with
  | 0 => s.idle
  | k + 1 =>
    match s.coreCache[k]?, s.dieCache[k - s.coreCache.length]? with
    | some e, _ => s.replaceCoreLine e.1
    | none, some e => s.replaceDieLine e.1
    | none, none => s

/-- Whether an event chooses what issues next (08 R202). -/
def choosesIssue (i : Instr) : Bool :=
  match i with
  | .groupSelect _ | .issueStarvationLimit _ => true
  | _ => false

/-- The lines of a core data cache that holds more than its 128 KiB, the first such (01 R14; 04 R96). -/
def State.fullCore (s : State) : List Nat :=
  let keys := s.coreCache.map fun (e : Nat × CLine) => e.1
  if keys.length ≤ 2048 then []
  else
    match (distinct keyUnit keys).find? fun u => decide (2048 < (keys.filter fun k => keyUnit k == u).length) with
    | some u => keys.filter fun k => keyUnit k == u
    | none => []

/-- The lines not pinned of a set of a die cache that holds more than its 16 ways, the first such (01 R11; 04 R96). -/
def State.fullSet (s : State) : List Nat :=
  let keys := s.dieCache.map fun (e : Nat × CLine) => e.1
  if keys.length ≤ 16 then []
  else
    let same (a b : Nat) : Bool := keyUnit a == keyUnit b && dieSetOf (keyLine a) == dieSetOf (keyLine b)
    match keys.find? fun k => decide (16 < (keys.filter (same k)).length) with
    | some k => keys.filter fun x => same k x && !s.heldLine x
    | none => []

/-- One of a list; which is open. -/
def State.choose (s : State) (l : List Nat) : Option Nat := l[Config.pick s.free % l.length]?

/-- The caches give up lines until none holds more than it can; which lines is open (log entry 38). -/
def State.trimCaches : Nat → State → State
  | 0, s => s
  | n + 1, s =>
    match s.choose s.fullCore, s.choose s.fullSet with
    | some k, _ => State.trimCaches n { s.replaceCoreLine k with free := s.free + 1 }
    | none, some k => State.trimCaches n { s.replaceDieLine k with free := s.free + 1 }
    | none, none => s

def State.trimmed (s : State) : State := s.trimCaches (2 * s.coreCache.length + s.dieCache.length)

/-- An error record goes to the management error queue; one that the queue cannot take is dropped, and domain 10 counts it
(12 R283). -/
def State.reportError (s : State) (bytes : List Byte) : State :=
  let q := s.queue errorQueue
  if s.corruption errorQueue ≠ 0 ∨ q.esize ≠ 32 ∨ q.free = 0 then s.bumpUncorr 10
  else
    let t := s.putRuns (lineParts (q.base + q.tail % q.cap * 32) 32) bytes
    ((t.putCounts errorQueue { q with tail := (q.tail + 1) % 2 ^ 64, free := q.free - 1 }).notifyFor errorQueue q 1).serve
      errorQueue

/-- The error records that are due are delivered, once the device runs. -/
def State.reportErrors (s : State) : State :=
  if s.phase = .running then s.errors.foldl State.reportError { s with errors := [] } else s

/-- What the end of a step brings: the caches hold no more than they can, the fills of queues are summed, errors are
reported, launches that are free to commit are noted, and nothing is selected to issue. -/
def State.closeStep (s : State) : State := { s.trimmed.sumFills.reportErrors.noteFree with cur := none }

/-- The step is over. -/
def endStep : Host.Outcome State Fault Refusal → Host.Outcome State Fault Refusal
  | .next t => .next t.closeStep
  | o => o

/-- A busy core at which no group has been chosen for long, though one may issue: every group that may issue does so
in the end (02 R48; log entry 2). -/
def State.dueCore (s : State) : Option Nat :=
  s.busyCores.find? fun c => decide ((s.coreRegs c).turn + 1024 ≤ s.free) && s.mayIssue c

/-- After an event nothing is selected to issue, unless the event was the choice of it. -/
def settle (i : Instr) (o : Host.Outcome State Fault Refusal) : Host.Outcome State Fault Refusal :=
  if choosesIssue i then o else endStep o

/-- One of the events that can happen, or a cycle that passes, or a line that leaves a cache: the choice is free, but
no core with a group that may issue is passed over for ever. -/
def State.chooseEvent (s : State) : Host.Outcome State Fault Refusal :=
  let es := s.enabled
  let t := { s with free := s.free + 1 }
  let k := Config.pick s.free % (es.length + 1 + s.coreCache.length + s.dieCache.length)
  match s.dueCore, es[k]? with
  | some c, _ => settle (.groupSelect c) (exec (.groupSelect c) t)
  | none, some i => settle i (exec i t)
  | none, none => endStep (.next (t.unasked (k - es.length)))

end Sys2Proof.Machine
end

