-- ==== Sys2Proof/Machine/Launching.lean ====
section
/-! DEFINITION. A machine in which one instruction stands where the next step fetches: a launch, bound and placed, of
an image whose code section holds it (log entry 11). -/

namespace Sys2Proof.Machine

/-- The bytes of an instruction whose bits are a number, with the zeros above them. -/
def wordBytes (nbits w : Nat) : List Byte := leBytes 20 (w % 2 ^ nbits)

/-- A virtual image of one stage whose code section is given: a header, two directory entries, the stage entry (06
Tables 6.1, 6.2, 6.4) and the code. -/
def imageWith (code : List Byte) : List Byte :=
  let entry (kind off size : Nat) : List Byte := leBytes 8 kind ++ leBytes 4 off ++ leBytes 4 size
  leBytes 12 0 ++ leBytes 52 2 ++ entry 1 96 64 ++ entry 6 160 code.length
    ++ (leBytes 4 0 ++ leBytes 4 (2 ^ 16 + 1) ++ leBytes 4 1 ++ leBytes 4 1 ++ leBytes 4 1 ++ leBytes 2 1 ++ leBytes 2 1
      ++ leBytes 2 1 ++ leBytes 2 1 ++ leBytes 2 1 ++ leBytes 1 12 ++ leBytes 1 1 ++ leBytes 2 96 ++ leBytes 30 1)
    ++ code

/-- A machine on which one path, of one thread, is selected to issue the instruction at the start of a code
section. -/
def State.running (s : State) (code : List Byte) : State :=
  let l : Launch :=
    { vi := 0, ctx := 0, lq := 0, seq := 0, lsn := 1, first := 1, st := .bound, attempt := 1, record := []
      dequeuedAt := s.cycle, image := 1, stages := [{ cores := [0], nextPending := 1 }] }
  let bk := blockKey l 0 0
  let g : Group :=
    { block := bk, gid := 0, lanes := [(0, 0)], issuing := some 0, paths := [{ entry := some 0, mask := 1 }] }
  { s with
    phase := .running
    images := AMap.put s.images 1 { vi := 0, addr := 0, digest := [], bytes := imageWith code }
    launches := AMap.put s.launches 1 l
    blocks := AMap.put s.blocks bk { launch := 1, stage := 0, linear := 0, st := .resident }
    groups := AMap.put s.groups (bk * 64) g
    threads := AMap.put s.threads (bk * 2 ^ 11) {}
    cur := some { grp := bk * 64, path := 0 } }

end Sys2Proof.Machine
end

