-- ==== Sys2Proof/Machine/Step.lean ====
section
/-! DEFINITION. One step of the machine, and a state in which the next step fetches a given word. -/

namespace Sys2Proof.Machine

/-- The events asked for happen in their order; without one the device goes on by itself. -/
def State.between (s : State) : Host.Outcome State Fault Refusal :=
  match s.agenda with
  | i :: rest => settle i (exec i { s with agenda := rest })
  | [] => s.chooseEvent

/-- A device that is off, or whose boot has failed, does nothing but boot again. -/
def State.rebooted (s : State) (f : Fault) : Host.Outcome State Fault Refusal :=
  match s.agenda with
  | .boot r :: rest => exec (.boot r) { s with agenda := rest }
  | _ => .fault f

/-- What a boot that is due reports (log entry 6). -/
def bootReport : BootReport :=
  { verified := Config.bootVerified, failing := Config.failingBanks, sparing := Config.sparingStatus
    unwiped := Config.unwipedBanks }

/-- One step: the boot when it is due; else the selected path issues, or, with none selected, one event happens. -/
def step (s : State) : Host.Outcome State Fault Refusal :=
  match s.phase with
  | .due => endStep (exec (.boot bootReport) s)
  | .off => endStep (s.rebooted .powerOff)
  | .recovery => endStep (s.rebooted .romRecovery)
  | .running =>
    match s.cur with
    | some _ => endStep s.issueNext
    | none => s.between

/-- The word as the instruction that the next step fetches and runs (log entry 11). -/
def State.withFetchWord (s : State) (nbits w : Nat) : State := s.running (wordBytes nbits w)

end Sys2Proof.Machine
end

