-- ==== Sys2Proof/Safety.lean ====
section
/-! DEFINITION. What a safe step is, and the words in which claims speak: the canonical form of memory, where the
lanes of a group stand, and what the end of an instruction changes. -/

namespace Sys2Proof.Safety

open Sys2Proof.Machine

/-- Whether the machine goes on from a state. Every error of the spec is a next state, so a safe run is one in which
no step stops the machine. -/
def Safe (s : State) : Prop := ∃ t, step s = .next t

/-- The canonical form of memory: addresses strictly rising, and no byte listed that equals what an unlisted one
reads as. -/
abbrev Memory.wf (m : Cells 8) : Bool := Cells.wf m

/-- A lane stands at a program counter in one of a list of paths. -/
def standsAt (ps : List Path) (lane pc : Nat) : Prop := ∃ p ∈ ps, p.mask.getLsbD lane = true ∧ p.pc = pc

/-- The paths of a group other than the one at an index. -/
def pathsBut (g : Group) (i : Nat) : List Path := g.paths.take i ++ g.paths.drop (i + 1)

/-- The end of a Fleper instruction whose lanes go on at `dest`: the lanes of the issuing path stand there, every other
lane where it stood; outside a matrix run the instruction commits, so that the flags pending in the path and those
it sets itself join the group's (03 R62; 09 R221); the entry that issued is noted (02 R30); nothing else of the group and
no other group changes. -/
def MovedOn (s t : State) (c : Ctx) (lanes : List Nat) (dest : Nat → Nat) (sat inv : Bool) : Prop :=
  (∀ k, k ≠ c.cur.grp → AMap.find? t.groups k = AMap.find? s.groups k) ∧
  ∃ g, AMap.find? t.groups c.cur.grp = some g ∧
    g = { c.g with
      paths := g.paths, issuing := g.issuing, last := c.g.issuing.getD c.g.last
      sat := if c.p.run = 0 then (c.g.sat && !c.p.clrSat) || c.p.sat || sat else c.g.sat
      inv := if c.p.run = 0 then (c.g.inv && !c.p.clrInv) || c.p.inv || inv else c.g.inv } ∧
    ∀ lane pc, standsAt g.paths lane pc ↔
      (lane ∈ lanes ∧ lane < 64 ∧ dest lane = pc) ∨ standsAt (pathsBut c.g c.cur.path) lane pc

/-- A state once the stores in hand have performed, which they do where the instruction ends its region: outside a
matrix run. A Fleper path holds a store in hand only within ST itself. -/
def held (w : State) (c : Ctx) : State :=
  if c.p.run = 0 then w.performStores c.cur.grp c.g c.p c.b c.l else w

/-- The end of a Fleper instruction that has made `w` of the state `s` without touching a group: it leaves `t`, in which
nothing differs from `w` (the stores in hand performed) but what `MovedOn` says of the group and the counter of
events. -/
def Done (s w t : State) (c : Ctx) (lanes : List Nat) (dest : Nat → Nat) (sat inv : Bool) : Prop :=
  t = { held w c with groups := t.groups, next := (held w c).next + 1 } ∧ MovedOn s t c lanes dest sat inv

/-- A virtual register written in lanes, in the order of a list of lanes and values. -/
def writeLanes (m : Cells 64) (g : Group) (n : Nat) (vs : List (Nat × Word)) : Cells 64 :=
  vs.foldl (fun (m : Cells 64) (e : Nat × Word) => Cells.set m (vregKey (g.thread e.1) n) e.2) m

/-- A predicate written in lanes: true where the value is not zero (02 R40). -/
def writePreds (s : State) (g : Group) (n : Nat) (vs : List (Nat × Word)) : State :=
  vs.foldl (fun (t : State) (e : Nat × Word) => t.setThreadPred (g.thread e.1) n (e.2 != 0)) s

/-- A destination of the Fleper carrier written in lanes: a virtual register or a predicate. -/
def written (s : State) (g : Group) (d : Operand) (vs : List (Nat × Word)) : State :=
  match d with
  | .v n => { s with vregs := writeLanes s.vregs g n vs }
  | .p n => writePreds s g n vs
  | _ => s

/-- The results of a native slot as they stand in flight: a predicate of a scalar slot goes to every executing lane, a
scalar register takes one value; each lands after the slot's latency, or on arrival (03 R57, R58). -/
def nativeResults (s : State) (c : Ctx) (x : Slot) (wide : Bool) (d : Operand) (vs : List (Nat × Word)) : List InFlight :=
  let vs := match d, c.scalar, vs with
    | .p _, true, e :: _ => c.exec.map fun l => (l, e.2)
    | .s _, _, e :: _ => [e]
    | _, _, _ => vs
  (vs.flatMap fun e => s.nativeDst c wide d e.1 e.2).map fun e =>
    { due := if x.lat = 0 then none else some (s.cycle + x.lat), left := x.la, dst := e.1, val := e.2 }

/-- The issuing path of a native slot with results added to those in flight and flags to its pending ones. -/
def inFlight (s : State) (c : Ctx) (rs : List InFlight) (sat inv : Bool) : State :=
  s.updCur c fun p =>
    { p with inflight := p.inflight ++ rs, sat := p.sat || sat, inv := p.inv || inv, wait := .none, reply := []
             replyFault := none }

/-- Two states that differ in nothing but storage: memory and its versions, the caches, the on-chip storage of the
cores, what has left the device, the error counters and records, and remote accesses under way. -/
def StorageOnly (s t : State) : Prop :=
  t = { s with
    mem := t.mem, poison := t.poison, shadow := t.shadow, spills := t.spills, coreCache := t.coreCache
    dieCache := t.dieCache, spad := t.spad, cregs := t.cregs, acc := t.acc, pt := t.pt, latches := t.latches
    errcnt := t.errcnt, errors := t.errors
    sent := t.sent, remote := t.remote, next := t.next, free := t.free }

/-- The issuing path of a native slot with results added to those in flight. -/
def launched (s : State) (c : Ctx) (rs : List InFlight) : State :=
  s.updCur c fun p => { p with inflight := p.inflight ++ rs }

/-- The issuing path of a native slot with the targets of a branch noted, which act after the delay bundle
(03 R59). -/
def turned (s : State) (c : Ctx) (dest : Nat → Nat) : State :=
  s.updCur c fun p =>
    { p with branch := (distinct dest c.lanes).map fun d => (d, maskOf (c.lanes.filter fun l => dest l == d)) }

end Sys2Proof.Safety
end

