-- ==== Sys2Proof/Certificates/Slice0/Obligations.lean ====
section
/-! DEFINITION. The statements for the provers, from the numbered rules of the spec, and the tables in which they name
what each instruction does. -/

namespace Sys2Proof.Claims

open Sys2Proof.Machine Sys2Proof.Safety

/-- An instruction whose effect is a destination written in lanes: its guard, the fault with which it is turned away,
what it does first, whether a value is 64 bits wide, the destination, the lanes and values, and the flags it sets. -/
structure RegOp where
  guard : Guard
  fault : State → Ctx → Option Flt := fun _ _ => none
  pre : State → Ctx → State := fun s _ => s
  wide : Bool
  dst : Operand
  vals : State → Ctx → List (Nat × Word)
  sat : State → Ctx → Bool := fun _ _ => false
  inv : State → Ctx → Bool := fun _ _ => false

/-- A computation made in each lane at work, with a result of a type; `step`: every executing lane first takes a step
of its rounding stream. -/
def laneStep (step : Bool) (g : Guard) (ty : STy) (d : Operand) (f : State → Ctx → Nat → Res) : RegOp :=
  { guard := g, wide := ty.width == 64, dst := d, pre := fun s c => if step then s.stepStreams c else s
    vals := fun s c => c.work.map fun l => (l, extendTo ty (f s c l).val)
    sat := fun s c => c.work.any fun l => (f s c l).sat
    inv := fun s c => c.work.any fun l => (f s c l).inv }

def lane (g : Guard) (ty : STy) (d : Operand) (f : State → Ctx → Nat → Res) : RegOp := laneStep false g ty d f

/-- An exact integer result as it is written (19 R408): wrapped to the width, or clamped to the range of the type, in
which case a clamp sets SAT. -/
def exactInt (sat : Bool) (ty : STy) (x : Int) : Res :=
  if sat then
    { val := (max (tyMin ty) (min (tyMax ty) x) % 2 ^ ty.width).toNat, sat := decide (x < tyMin ty ∨ tyMax ty < x) }
  else { val := (x % 2 ^ ty.width).toNat }

/-- Quotient and remainder (19 R409). -/
def quotient (ty : STy) (a b : Int) : Int :=
  if b = 0 then 2 ^ ty.width - 1 else if ty.signed ∧ a = -2 ^ (ty.width - 1) ∧ b = -1 then a else a.tdiv b
def remainder (ty : STy) (a b : Int) : Int :=
  if b = 0 then a else if ty.signed ∧ a = -2 ^ (ty.width - 1) ∧ b = -1 then 0 else a - a.tdiv b * b

/-- A relation of 19 R410. -/
def related (k : Cond) (a b : Int) : Bool :=
  match k with
  | .eq => decide (a = b) | .ne => decide (a ≠ b) | .lt => decide (a < b)
  | .le => decide (a ≤ b) | .gt => decide (b < a) | .ge => decide (b ≤ a)

/-- The integer and bit instructions (17 R348, R361, R362, R366; 18 R377; 19 R408 to R410, R418; 20 R425, R428; 21
R448, R450). A MOV to a uniform register is none of them. -/
def integerOp : Instr → Option RegOp
  | .iadd g ty sat d a b => some (lane g ty d fun s c l => exactInt sat ty (s.int c ty l a + s.int c ty l b))
  | .isub g ty sat d a b => some (lane g ty d fun s c l => exactInt sat ty (s.int c ty l a - s.int c ty l b))
  | .imul g ty d a b => some (lane g ty d fun s c l => exactInt false ty (s.int c ty l a * s.int c ty l b))
  | .imulhi g ty d a b => some (lane g ty d fun s c l => exactInt false ty (s.int c ty l a * s.int c ty l b / 2 ^ ty.width))
  | .imad g ty sat d a b e => some (lane g ty d fun s c l => exactInt sat ty (s.int c ty l a * s.int c ty l b + s.int c ty l e))
  | .idiv g ty d a b => some (lane g ty d fun s c l => exactInt false ty (quotient ty (s.int c ty l a) (s.int c ty l b)))
  | .irem g ty d a b => some (lane g ty d fun s c l => exactInt false ty (remainder ty (s.int c ty l a) (s.int c ty l b)))
  | .ineg g ty sat d a => some (lane g ty d fun s c l => exactInt sat ty (-s.int c ty l a))
  | .iabs g ty sat d a => some (lane g ty d fun s c l => exactInt sat ty |s.int c ty l a|)
  | .imin g ty d a b => some (lane g ty d fun s c l =>
          exactInt false ty (if s.int c ty l a ≤ s.int c ty l b then s.int c ty l a else s.int c ty l b))
  | .imax g ty d a b => some (lane g ty d fun s c l =>
          exactInt false ty (if s.int c ty l a ≤ s.int c ty l b then s.int c ty l b else s.int c ty l a))
  | .icmp g ty k d a b => some (lane g ty d fun s c l =>
          { val := if related k (s.int c ty l a) (s.int c ty l b) then 1 else 0 })
  | .lea g ty n sx d a b => some (lane g ty d fun s c l =>
          let i : Int := if sx then signedOf 32 (s.bits c ty l b % 2 ^ 32) else s.bits c ty l b
          { val := (((s.bits c ty l a : Int) + i * 2 ^ n) % 2 ^ ty.width).toNat })
  | .and g ty d a b => some (lane g ty d fun s c l => { val := s.bits c ty l a &&& s.bits c ty l b })
  | .andn g ty d a b => some (lane g ty d fun s c l =>
          { val := s.bits c ty l a &&& (2 ^ ty.width - 1 - s.bits c ty l b) })
  | .or g ty d a b => some (lane g ty d fun s c l => { val := s.bits c ty l a ||| s.bits c ty l b })
  | .xor g ty d a b => some (lane g ty d fun s c l => { val := s.bits c ty l a ^^^ s.bits c ty l b })
  | .not g ty d a => some (lane g ty d fun s c l => { val := 2 ^ ty.width - 1 - s.bits c ty l a })
  | .shl g ty d a b => some (lane g ty d fun s c l =>
          { val := shiftLeft ty.width (s.bits c ty l a) (s.u64 c (ty.width == 64) l b) })
  | .shr g ty d a b => some (lane g ty d fun s c l =>
          { val := (shiftRight ty.width (s.int c ty l a) (s.u64 c (ty.width == 64) l b) % 2 ^ ty.width).toNat })
  | .bfi g ty d a b e => some (lane g ty d fun s c l =>
          { val := insertField ty.width (s.bits c ty l a) (s.bits c ty l b) (s.bits c ty l e) })
  | .bfx g ty d a b => some (lane g ty d fun s c l =>
          { val := (extractField ty.signed (s.int c ty l a) (s.bits c ty l b) % 2 ^ ty.width).toNat })
  | .brev g ty d a => some (lane g ty d fun s c l => { val := reverseBits ty.width (s.bits c ty l a) })
  | .clz g ty d a => some (lane g ty d fun s c l => { val := leadingZeros ty.width (s.bits c ty l a) })
  | .ctz g ty d a => some (lane g ty d fun s c l => { val := trailingZeros ty.width (s.bits c ty l a) })
  | .popc g ty d a => some (lane g ty d fun s c l => { val := popCount ty.width (s.bits c ty l a) })
  | .sel g ty d a b e => some (lane g ty d fun s c l =>
          { val := if s.u64 c (ty.width == 64) l e = 0 then s.bits c ty l b else s.bits c ty l a })
  | .mov _ _ (.k _) _ => none
  | .mov g ty d a => some (lane g ty d fun s c l => { val := s.bits c ty l a })
  | _ => none

/-- The floating-point instructions, the conversions and BPDEC (17 R363; 18 R388 to R398; 19 R411). With the rounding
mode RS a conversion first steps the rounding streams and rounds with what they then hold (09 R218, R220). -/
def floatOp : Instr → Option RegOp
  | .fadd g ty rm d a b => some (lane g ty d fun s c l => floatRes ty rm ((s.fval c ty l a).add rm (s.fval c ty l b)))
  | .fsub g ty rm d a b => some (lane g ty d fun s c l => floatRes ty rm ((s.fval c ty l a).add rm (s.fval c ty l b).neg))
  | .fmul g ty rm d a b => some (lane g ty d fun s c l => floatRes ty rm ((s.fval c ty l a).mul (s.fval c ty l b)))
  | .ffma g ty rm d a b e => some (lane g ty d fun s c l =>
          floatRes ty rm (FVal.fma rm (s.fval c ty l a) (s.fval c ty l b) (s.fval c ty l e)))
  | .fdiv g ty rm d a b => some (lane g ty d fun s c l => floatRes ty rm ((s.fval c ty l a).div (s.fval c ty l b)))
  | .fsqrt g ty rm d a => some (lane g ty d fun s c l => floatRes ty rm (s.fval c ty l a).sqrt)
  | .frcp g ty d a => some (lane g ty d fun s c l => approxRes ty ((s.fval c ty l a).recip, false))
  | .frsq g ty d a => some (lane g ty d fun s c l => approxRes ty (s.fval c ty l a).rsqrt)
  | .fexp2 g ty d a => some (lane g ty d fun s c l => approxRes ty ((s.fval c ty l a).exp2, false))
  | .flog2 g ty d a => some (lane g ty d fun s c l => approxRes ty (s.fval c ty l a).log2)
  | .ftanh g ty d a => some (lane g ty d fun s c l => approxRes ty ((s.fval c ty l a).tanh, false))
  | .fmin g ty d a b => some (lane g ty d fun s c l =>
          { val := minMaxCode ty false (s.bits c ty l a) (s.bits c ty l b) })
  | .fmax g ty d a b => some (lane g ty d fun s c l =>
          { val := minMaxCode ty true (s.bits c ty l a) (s.bits c ty l b) })
  | .fcmp g ty d a b => some (lane g .b32 d fun s c l =>
          { val := compareMask (s.fval c ty l a) (s.fval c ty l b) })
  | .fsgn g ty x d a b => some (lane g ty d fun s c l => { val := signCode ty x (s.bits c ty l a) (s.bits c ty l b) })
  | .fclass g ty d a => some (lane g .b32 d fun s c l => { val := classMask ty (s.bits c ty l a) })
  | .fcvt g dst src rm d a => some (laneStep (decide (rm = .rs)) g .b32 d fun s c l =>
          convRes (convertTo dst rm
            ((if rm = .rs then s.stepStreams c else s).thread (c.g.thread l)).rs.toNat
            (s.elem c src l a)))
  | .fcvti g dst src rm d a => some (laneStep (decide (rm = .rs)) g dst d fun s c l =>
          convRes (convertInt (tyMin dst) (tyMax dst) dst.width rm
            ((if rm = .rs then s.stepStreams c else s).thread (c.g.thread l)).rs.toNat (s.elem c src l a)))
  | .icvtf g dst src rm d a => some (laneStep (decide (rm = .rs)) g .b32 d fun s c l =>
          convRes (convertTo dst rm
            ((if rm = .rs then s.stepStreams c else s).thread (c.g.thread l)).rs.toNat
            (intValue (s.int c src l a))))
  | .bpdec g p d a => some (lane g .i32 d fun s c l =>
          { val := (planesValue p (fun j => s.laneWord c (l / 32 * 32 + j) a) (l % 32) % 2 ^ 32).toNat })
  | _ => none

/-- The same value in every executing lane. -/
def everyLane (g : Guard) (wide : Bool) (d : Operand) (f : State → Ctx → Word) : RegOp :=
  { guard := g, wide, dst := d, vals := fun s c => c.exec.map fun l => (l, f s c) }

/-- A code that a collective takes: a NaN is the canonical one of its format (09 R212). -/
def quiet (ty : STy) (x : Nat) : Nat :=
  if ty.isFloat = true ∧ (fmtOf ty).value x = .nan then (fmtOf ty).nan else x

/-- The predicate and group instructions and BPENC (17 R354, R364; 19 R404 to R407; 20 R429, R430; 21 R449, R469). -/
def groupOp : Instr → Option RegOp
  | .plop g tt d a b => some
      { guard := g, wide := false, dst := .p d
        vals := fun s c => c.exec.map fun l =>
          (l, if tt.testBit (2 * (s.predBit c l a).toNat + (s.predBit c l b).toNat) then 1 else 0) }
  | .pmov g true p r => some
      { guard := g, wide := false, dst := .p p
        vals := fun s c => c.exec.map fun l => (l, if (s.reg c true l r).getLsbD l then 1 else 0) }
  | .pmov g false p r => some (everyLane g true r fun s c => s.predMask c p)
  | .ballot g d a => some (everyLane g true d fun s c => maskOf (c.exec.filter fun l => s.u64 c true l a != 0))
  | .vote g mode d a => some (everyLane g false d fun s c =>
      let holds (l : Nat) : Bool := s.u64 c false l a != 0
      if (match mode with
        | .all => c.exec.all holds
        | .any => c.exec.any holds
        | .uni => c.exec.all fun l => c.exec.all fun m => holds l == holds m) then 1 else 0)
  | .shfl g ty mode d a b => some (lane g ty d fun s c l =>
      let x := s.u64 c (ty.width == 64) l b
      let src : Int := match mode with
        | .idx => x
        | .up => (l : Int) - x
        | .down => (l : Int) + x
        | .xor => (l ^^^ x : Nat)
      { val := s.bits c ty (if 0 ≤ src ∧ src.toNat ∈ c.exec then src.toNat else l) a })
  | .gred g op ty d a => some
      { everyLane g (ty.width == 64) d fun s c => extendTo ty ((reduceTree (collOp op ty) 6
          ((span 0 64).map fun l => if c.exec.contains l then some (quiet ty (s.bits c ty l a)) else none)).1.getD 0) with
        inv := fun s c => (reduceTree (collOp op ty) 6
          ((span 0 64).map fun l => if c.exec.contains l then some (quiet ty (s.bits c ty l a)) else none)).2 }
  | .gscan g op excl ty d a => some
      { guard := g, wide := ty.width == 64, dst := d
        vals := fun s c => (scanLanes (collOp op ty) excl (collIdentity op ty) (fun l => quiet ty (s.bits c ty l a)) none
          c.exec).1.map fun e => (e.1, extendTo ty e.2)
        inv := fun s c => (scanLanes (collOp op ty) excl (collIdentity op ty) (fun l => quiet ty (s.bits c ty l a)) none
          c.exec).2 }
  | .bpenc g d a => some
      { guard := g, wide := false, dst := d
        vals := fun s c => (c.exec.filter fun l => l % 32 < 8).map fun l =>
          (l, BitVec.ofNat 64 (planeWord (fun e => (s.encodeLane c a (l / 32 * 32 + e)).code) (l % 32)))
        sat := fun s c => c.exec.any fun l => (s.encodeLane c a l).sat
        inv := fun s c => c.exec.any fun l => (s.encodeLane c a l).inv }
  | _ => none

/-- Of the Fleper carrier: the lanes take their values, and the path goes on. -/
def CompletesFleper (table : Instr → Option RegOp) : Prop :=
  ∀ (i : Instr) (op : RegOp) (s : State) (c : Ctx), table i = some op → s.ctx op.guard = some c →
    op.fault s c = none → c.cur.slot = none →
    ∃ t, exec i s = .next t ∧
      Done s (written (op.pre s c) c.g op.dst (op.vals s c)) t c c.lanes (fun _ => c.after) (op.sat s c) (op.inv s c)

/-- In a native slot, which issues with its bundle, the values go in flight, and nothing else changes but pending
flags. Once all of a bundle has issued but its irreversible slot (`sealed`; 03 R63), no other slot of it issues again.
-/
def CompletesNative (table : Instr → Option RegOp) : Prop :=
  ∀ (i : Instr) (op : RegOp) (s : State) (c : Ctx) (x : Slot), table i = some op → s.ctx op.guard = some c →
    op.fault s c = none → c.cur.slot = some x → c.p.sealed = false →
    exec i s = .next (inFlight (op.pre s c) c
      (nativeResults (op.pre s c) c x op.wide op.dst (op.vals s c)) (op.sat s c) (op.inv s c))

/-- A native slot that performs at the commit of its region ends it, so that its values land at once (03 R62, R63). -/
def CompletesSealed (table : Instr → Option RegOp) : Prop :=
  ∀ (i : Instr) (op : RegOp) (s : State) (c : Ctx) (x : Slot), table i = some op → s.ctx op.guard = some c →
    op.fault s c = none → c.cur.slot = some x → c.p.sealed = true →
    exec i s = .next ((launched ((op.pre s c).flag c (op.sat s c) (op.inv s c)) c
      (nativeResults (op.pre s c) c x op.wide op.dst (op.vals s c))).finish c)

/-- An instruction turned away takes its fault, with none of its effect. -/
def TurnedAway (table : Instr → Option RegOp) : Prop :=
  ∀ (i : Instr) (op : RegOp) (s : State) (c : Ctx) (f : Flt), table i = some op → s.ctx op.guard = some c →
    op.fault s c = some f → exec i s = .next (s.raise c f)

/-- A transfer of control: its guard, the fault of a lane that may not make it, the register it writes in every
executing lane, what it does to the thread of an executing lane, where an executing lane goes and where another. -/
structure Transfer where
  guard : Guard
  fault : State → Ctx → Nat → Option Flt := fun _ _ _ => none
  link : Ctx → Option (Operand × Word) := fun _ => none
  thread : Ctx → Option (Thread → Thread) := fun _ => none
  dest : State → Ctx → Nat → Nat
  stay : Ctx → Nat := Ctx.fall

/-- The fault of a call at depth 32, of a return at depth 0 (18 R374; 20 R441). -/
def depthAt (s : State) (c : Ctx) (n l : Nat) : Option Flt :=
  if (s.thread (c.g.thread l)).depth = n then some { code := .callDepth, detail := n } else none

/-- The transfers (17 R365, R369; 18 R374, R375; 20 R441; 21 R465, R466). -/
def transferOp : Instr → Option Transfer
  | .bra g disp => some { guard := g, dest := fun _ c _ => c.target disp }
  | .brx g ty a => some
      { guard := g, fault := fun s c l => s.targetFault c (s.bits c ty l a), dest := fun s c l => s.bits c ty l a }
  | .call g d disp => some
      { guard := g, fault := fun s c l => depthAt s c 32 l
        link := fun c => some (d, BitVec.ofNat 64 c.fall)
        thread := fun _ => some fun x => { x with depth := x.depth + 1 }
        dest := fun _ c _ => c.target disp }
  | .callx g ty d a => some
      { guard := g, fault := fun s c l => (depthAt s c 32 l).or (s.targetFault c (s.bits c ty l a))
        link := fun c => some (d, BitVec.ofNat 64 c.fall)
        thread := fun _ => some fun x => { x with depth := x.depth + 1 }
        dest := fun s c l => s.bits c ty l a }
  | .ret g ty a => some
      { guard := g, fault := fun s c l => (depthAt s c 0 l).or (s.targetFault c (s.bits c ty l a))
        thread := fun _ => some fun x => { x with depth := x.depth - 1 }
        dest := fun s c l => s.bits c ty l a }
  | .trapHandler g code d disp => some
      { guard := g
        fault := fun s c l =>
          if (s.thread (c.g.thread l)).trap then some { code := .softwareTrap, detail := code } else none
        link := fun _ => some (d, BitVec.ofNat 64 code)
        thread := fun c => some fun x => { x with link := c.after, trap := true }
        dest := fun _ c _ => c.target disp
        stay := Ctx.after }
  | .tret g => some
      { guard := g
        fault := fun s c l => if (s.thread (c.g.thread l)).trap then none else some { code := .illegalOperand }
        thread := fun _ => some fun x => { x with trap := false }
        dest := fun s c l => (s.thread (c.g.thread l)).link }
  | _ => none

/-- The lanes that may not make a transfer, each with its fault. -/
def Transfer.faults (op : Transfer) (s : State) (c : Ctx) : List (Nat × Flt) := laneFaults c.exec (op.fault s c)

/-- Where the lanes go: an executing one to its target. -/
def Transfer.goes (op : Transfer) (s : State) (c : Ctx) (l : Nat) : Nat :=
  if l ∈ c.exec then op.dest s c l else op.stay c

/-- The threads of the executing lanes after a transfer. -/
def Transfer.threads (op : Transfer) (s : State) (c : Ctx) : State :=
  match op.thread c with
  | some f => s.mapThreads c fun _ => f
  | none => s

/-- The registers of the executing lanes after a transfer of the Fleper carrier, and those that a native one puts in
flight. -/
def Transfer.linked (op : Transfer) (s : State) (c : Ctx) : State :=
  match op.link c with
  | some (d, v) => written s c.g d (c.exec.map fun l => (l, v))
  | none => s
def Transfer.linkedNative (op : Transfer) (s : State) (c : Ctx) (x : Slot) : State :=
  match op.link c with
  | some (d, v) => launched s c (nativeResults s c x true d (c.exec.map fun l => (l, v)))
  | none => s

/-- Whether a fault of the issuing path is taken where it stands: in conservative mode, and after the first matrix slot
of a region (03 R64, R67). -/
def takenHere (c : Ctx) : Prop := c.p.conservative = true ∨ c.afterMatrix = true ∨ c.p.snap = none

/-- LDR_REPLAY.HOLD keeps the launch of a frozen block, unless it is irrevocable (12 R270). -/
def holds (s : State) (c : Ctx) : Bool := (s.iface c.l.vi).hold && !c.l.irrevocable

/-- The flags of a fault record: of an irrevocable launch, of a held block (12 Table 12.2). -/
def recordFlags (s : State) (c : Ctx) : Nat := (if c.l.irrevocable then 4 else 0) + (if holds s c then 8 else 0)

/-- A non-recoverable fault taken at an instruction: the block is FROZEN with it, a record of it goes to the fault queue
of the context, and unless HOLD keeps it the launch begins to abort with cause 1; the path goes no further, and nothing
else changes (12 R269, R270). -/
def Froze (s t : State) (c : Ctx) (f : Flt) : Prop :=
  AMap.find? t.blocks c.g.block = some { c.b with st := .frozen, fault := some f, faultAt := s.time } ∧
  (∀ k, k ≠ c.g.block → AMap.find? t.blocks k = AMap.find? s.blocks k) ∧
  t.deliveries = s.deliveries ++
    [{ vi := c.l.vi, ctx := c.l.ctx, cb := ((s.context c.l.vi c.l.ctx).map fun x => x.faultQ).getD 0
       launch := c.b.launch, attempt := c.l.attempt, recoverable := false
       bytes := s.faultRecord c.b c.l c.g.gid f.code.num (recordFlags s c) (s.vpc c) f.addr f.detail f.lanes }] ∧
  (holds s c = true → t.launches = s.launches) ∧
  (holds s c = false → c.l.st.running = true → AMap.find? t.launches c.b.launch = some { c.l with
    st := .aborting, cause := 1, code := f.code.num, codeAt := s.time * 2 ^ 11 + c.b.core }) ∧
  (∀ k, k ≠ c.b.launch → AMap.find? t.launches k = AMap.find? s.launches k) ∧
  AMap.find? t.groups c.cur.grp = some { c.g with
    paths := c.g.paths.set c.cur.path { c.p with wait := .fault, waiter := c.pos } } ∧
  (∀ k, k ≠ c.cur.grp → AMap.find? t.groups k = AMap.find? s.groups k) ∧
  t = { s with groups := t.groups, blocks := t.blocks, deliveries := t.deliveries, launches := t.launches }

/-- The issuing path waits, and executes the instruction again when it is woken; nothing else changes. -/
def Waits (s t : State) (c : Ctx) (w : Wait) : Prop :=
  AMap.find? t.groups c.cur.grp = some { c.g with
    paths := c.g.paths.set c.cur.path { c.p with wait := w, waiter := c.pos } } ∧
  (∀ k, k ≠ c.cur.grp → AMap.find? t.groups k = AMap.find? s.groups k) ∧
  t = { s with groups := t.groups, deliveries := t.deliveries }

end Sys2Proof.Claims

open Sys2Proof Sys2Proof.Machine Sys2Proof.Safety Sys2Proof.Claims

/-- The integer and bit instructions: every lane at work takes the exact result, wrapped or clamped to its type, in the
destination; SAT is set by a clamp; the path goes on, and nothing else changes (17 R348, R361, R362, R366; 18 R377; 19
R408 to R410, R418; 20 R425, R426, R428; 21 R448, R450). In a native slot the results go in flight (03 R57, R58). -/
def Obligations.IntegerInstructionsWriteTheirLanes : Prop :=
  CompletesFleper integerOp ∧ CompletesNative integerOp

/-- BFX takes a field of its operand, read with the extension of its type, sign-extended from the field's top bit for a
signed type; BREV turns the bits of its operand round; in every lane at work, and neither faults (17 R362, R366). -/
def Obligations.BfxAndBrevMoveTheirBits : Prop :=
  (∀ (s : State) (g : Guard) (ty : STy) (d a b : Operand) (c : Ctx), s.ctx g = some c →
    let ctl (l : Nat) : Nat := s.bits c ty l b
    let pos (l : Nat) : Nat := ctl l % 2 ^ 8
    let len (l : Nat) : Nat := ctl l / 2 ^ 8 % 2 ^ 8
    let f (l : Nat) : Int := s.int c ty l a / 2 ^ pos l % 2 ^ len l
    let top (l : Nat) : Int := f l / 2 ^ (len l - 1) % 2
    let x (l : Nat) : Int :=
      if len l = 0 then 0 else if ty.signed = true then f l - 2 ^ len l * top l else f l
    let vals := c.work.map fun l => (l, extendTo ty (x l % 2 ^ ty.width).toNat)
    (c.cur.slot = none → ∃ t, exec (.bfx g ty d a b) s = .next t ∧
      Done s (written s c.g d vals) t c c.lanes (fun _ => c.after) false false) ∧
    (∀ y, c.cur.slot = some y → exec (.bfx g ty d a b) s = .next
      (inFlight s c (nativeResults s c y (ty.width == 64) d vals) false false))) ∧
  ∀ (s : State) (g : Guard) (ty : STy) (d a : Operand) (c : Ctx), s.ctx g = some c →
    ∃ v : Nat → Nat,
      (∀ l, v l < 2 ^ ty.width ∧ ∀ i < ty.width, (v l).testBit i = (s.bits c ty l a).testBit (ty.width - 1 - i)) ∧
      let vals := c.work.map fun l => (l, extendTo ty (v l))
      (c.cur.slot = none → ∃ t, exec (.brev g ty d a) s = .next t ∧
        Done s (written s c.g d vals) t c c.lanes (fun _ => c.after) false false) ∧
      (∀ y, c.cur.slot = some y → exec (.brev g ty d a) s = .next
        (inFlight s c (nativeResults s c y (ty.width == 64) d vals) false false))

/-- The floating-point instructions and the conversions: every lane at work takes the result rounded to its type, with
SAT and INV as the number formats set them; nothing else changes but the rounding streams that RS steps (09 R216 to
R221; 17 R363; 18 R388 to R398; 19 R411). -/
def Obligations.FloatInstructionsWriteTheirLanes : Prop :=
  CompletesFleper floatOp ∧ CompletesNative floatOp

/-- The predicate instructions, the collectives and BPENC: what each executing lane takes from the others (17 R354, R364;
19 R404 to R407; 20 R429, R430; 21 R449, R469). -/
def Obligations.GroupInstructionsWriteTheirLanes : Prop :=
  CompletesFleper groupOp ∧ CompletesNative groupOp

/-- A transfer takes each executing lane to its target and each other lane on, with the register and the thread state it
writes, in a native slot after its delay bundle, or where the slot performs at its region's commit at once (03 R59, R63);
where a lane may not make it, it faults in those lanes and has no effect. -/
def Obligations.TransfersTakeExecutingLanesToTheirTargets : Prop :=
  ∀ (i : Instr) (op : Transfer) (s : State) (c : Ctx), transferOp i = some op → s.ctx op.guard = some c →
    (op.faults s c = [] →
      (c.cur.slot = none → ∃ t, exec i s = .next t ∧
        Done s (op.threads (op.linked s c) c) t c c.lanes (op.goes s c) false false) ∧
      (∀ x, c.cur.slot = some x → c.p.sealed = false →
        exec i s = .next (turned (op.threads (op.linkedNative s c x) c) c (op.goes s c))) ∧
      (∀ x, c.cur.slot = some x → c.p.sealed = true →
        exec i s = .next ((op.threads (op.linkedNative s c x) c).finishTo c c.lanes (op.goes s c)))) ∧
    (op.faults s c ≠ [] → exec i s = .next (s.raiseLanes c (op.faults s c)))

/-- A fault that is not recoverable freezes the block with its record, and the launch begins to abort with cause 1
(12 R268 to R270). -/
def Sys2Proof.Claims.AFaultFreezesItsBlockAndAbortsItsLaunch : Prop :=
  ∀ (s : State) (gd : Guard) (c : Ctx) (f : Flt), s.ctx gd = some c → takenHere c →
    (f.code ≠ .pageNotPresent ∨ c.afterMatrix = true) → f.lost = false → c.b.fault = none → Froze s (s.raise c f) c f

/-- What an uncorrectable error has destroyed makes the launch begin to abort with cause 2, and has no other effect (12
R279). -/
def Sys2Proof.Claims.ADestroyedLineAbortsTheLaunch : Prop :=
  ∀ (s : State) (gd : Guard) (c : Ctx) (f : Flt), s.ctx gd = some c → f.lost = true →
    ∃ m, s.raise c f = { s with launches := m } ∧
      (c.l.st.running = true → AMap.find? m c.b.launch = some { c.l with
        st := .aborting, cause := 2, code := 0, codeAt := stampAt s.time c.b.core }) ∧
      ∀ k, k ≠ c.b.launch → AMap.find? m k = AMap.find? s.launches k

/-- PAGE_NOT_PRESENT stops the path at the instruction with a recoverable record, and nothing else (04 R110; 12 R268,
R269, R271). -/
def Sys2Proof.Claims.AnAbsentPageStopsThePathAlone : Prop :=
  ∀ (s : State) (gd : Guard) (c : Ctx) (f : Flt), s.ctx gd = some c → takenHere c → f.code = .pageNotPresent →
    c.afterMatrix = false → f.lost = false →
    Waits s (s.raise c f) c (.page f.addr (stampAt s.time c.b.core)) ∧
    (s.raise c f).deliveries = s.deliveries ++
      [{ vi := c.l.vi, ctx := c.l.ctx, cb := ((s.context c.l.vi c.l.ctx).map fun x => x.faultQ).getD 0
         launch := c.b.launch, attempt := c.l.attempt, recoverable := true
         bytes := s.faultRecord c.b c.l c.g.gid 4 (1 + if c.l.irrevocable then 4 else 0) (s.vpc c) f.addr f.detail
           f.lanes }]

/-- A fault of the issuing path: an absent page stops the path alone, any other fault its block, and a destroyed line
aborts the launch (04 R110; 12 R268 to R270, R279). -/
def Obligations.FaultsStopTheBlockOrThePathAlone : Prop :=
  AFaultFreezesItsBlockAndAbortsItsLaunch ∧ AnAbsentPageStopsThePathAlone ∧ ADestroyedLineAbortsTheLaunch

/-- TRAP freezes the block with SOFTWARE_TRAP; BRK with DEBUG_BREAK where no debugger is attached to the context, and
where one is it asks for a debug stop, which an earlier request is not replaced by, and the path goes on (12 R270; 13
R285; 14 R300; 17 R367; 21 R465). -/
def Obligations.TrapAndBreakpointStopTheBlock : Prop :=
  ∀ (s : State) (gd : Guard) (c : Ctx) (code : Nat), s.ctx gd = some c → c.exec ≠ [] →
    (takenHere c → c.b.fault = none → ∃ t, exec (.trap gd code) s = .next t ∧
      Froze s t c { code := .softwareTrap, detail := code, lanes := maskOf c.exec }) ∧
    (takenHere c → c.b.fault = none → (∀ x, s.context c.l.vi c.l.ctx = some x → x.dump = 0) →
      ∃ t, exec (.brk gd code) s = .next t ∧
        Froze s t c { code := .debugBreak, detail := code, lanes := maskOf c.exec }) ∧
    (∀ x, s.context c.l.vi c.l.ctx = some x → x.dump ≠ 0 →
      exec (.brk gd code) s = .next ((s.updBlock c.g.block fun b =>
        { b with stop := some (b.stop.getD
            { cause := 2, gid := c.g.gid, vpc := s.vpc c, lanes := maskOf c.exec }) }).finish c))

/-- EXIT: the executing threads end, the others of the path go on, a group without threads is free; nothing else
changes but what the end of a region, with the results that a native path still has in flight, and of the block
barrier brings with it (18 R387). -/
def Sys2Proof.Claims.ExitEndsTheExecutingThreads : Prop :=
  ∀ (s : State) (gd : Guard) (c : Ctx), s.ctx gd = some c →
    ∃ t, exec (.exit gd) s = .next t ∧
      (∀ l ∈ c.exec, AMap.find? t.threads (c.g.thread l) = none) ∧
      (∀ k, (∀ l ∈ c.exec, k ≠ c.g.thread l) → (c.native = true → ∀ e ∈ c.p.inflight, ∀ n, e.dst ≠ .pred k n) →
        AMap.find? t.threads k = AMap.find? s.threads k) ∧
      (∀ g, AMap.find? t.groups c.cur.grp = some g → ∀ l ∈ c.exec, AMap.find? g.lanes l = none) ∧
      ((∀ l, AMap.find? c.g.lanes l ≠ none → l ∈ c.exec) → AMap.find? t.groups c.cur.grp = none) ∧
      (c.midBundle = false → ∀ g, AMap.find? t.groups c.cur.grp = some g → ∀ lane pc, standsAt g.paths lane pc ↔
        (lane ∈ c.lanes ∧ lane ∉ c.exec ∧ c.after = pc) ∨ standsAt (pathsBut c.g c.cur.path) lane pc) ∧
      ∃ v, v = s.performStores c.cur.grp c.g c.p c.b c.l ∧
        t = { v with
          threads := t.threads, groups := t.groups, blocks := t.blocks, engines := t.engines, cores := t.cores
          cregs := if c.native = true then t.cregs else v.cregs
          deliveries := t.deliveries, launches := t.launches, next := t.next }

/-- YIELD: the group leaves its issuing path and selects the next; the lanes go on after it (21 R471). -/
def Sys2Proof.Claims.YieldEndsTheTurnOfThePath : Prop :=
  ∀ (s : State) (gd : Guard) (c : Ctx), s.ctx gd = some c →
    (c.exec = [] → exec (.yield gd) s = .next (s.finish c)) ∧
    (c.exec ≠ [] → ∃ t, exec (.yield gd) s = .next t ∧
      t = { s.finish c with groups := t.groups, next := (s.finish c).next + 1 } ∧
      ∀ g, AMap.find? (s.finish c).groups c.cur.grp = some g →
        AMap.find? t.groups c.cur.grp = some (g.rotate ((s.finish c).selectable g) (s.finish c).next))

/-- EXIT ends the executing threads, YIELD the turn of the path (18 R387; 21 R471). -/
def Obligations.ExitAndYieldLeaveTheirPath : Prop :=
  ExitEndsTheExecutingThreads ∧ YieldEndsTheTurnOfThePath

/-- The end of an instruction of the Fleper carrier: its lanes stand after it, where another path stands they join it, the
pending flags join the group where the region ends; a slot of a bundle leaves its path where it stands, but one that
performs at its region's commit ends it so, after what is still in flight has landed (02 R29; 03 R62, R63; 09 R221). -/
def Obligations.FinishingMovesTheLanesOn : Prop :=
  ∀ (s : State) (c : Ctx) (g : Group) (p : Path) (b : Block) (l : Launch),
    AMap.find? s.groups c.cur.grp = some g → g.paths[c.cur.path]? = some p →
    AMap.find? s.blocks g.block = some b → AMap.find? s.launches b.launch = some l →
    (c.cur.slot = none → ∃ v h, v = (if p.run = 0 then s.performStores c.cur.grp g p b l else s) ∧
      s.finish c = { v with groups := (s.finish c).groups, next := v.next + 1 } ∧
      (∀ k, k ≠ c.cur.grp → AMap.find? (s.finish c).groups k = AMap.find? s.groups k) ∧
      AMap.find? (s.finish c).groups c.cur.grp = some h ∧
      h = { g with
        paths := h.paths, issuing := h.issuing, last := g.issuing.getD g.last
        sat := if p.run = 0 then (g.sat && !p.clrSat) || p.sat else g.sat
        inv := if p.run = 0 then (g.inv && !p.clrInv) || p.inv else g.inv } ∧
      ∀ lane pc, standsAt h.paths lane pc ↔
        (lane ∈ c.lanes ∧ lane < 64 ∧ c.after = pc) ∨ standsAt (pathsBut g c.cur.path) lane pc) ∧
    (∀ x, c.cur.slot = some x → c.p.sealed = false → s.finish c = s.updCur c fun p =>
      { p with wait := .none, reply := [], replyFault := none }) ∧
    (∀ x, c.cur.slot = some x → c.p.sealed = true →
      s.finish c = (s.landIf c.cur.grp c.cur.path fun _ => true).finish { c with cur := { c.cur with slot := none } })

namespace Sys2Proof.Claims

open Sys2Proof.Machine Sys2Proof.Safety

/-- A fault of the whole path names every executing lane (17 R340). -/
def whole (c : Ctx) (code : FaultCode) (detail : Nat) : Flt := { code, detail, lanes := maskOf c.exec }

/-- NOP, and the instructions that read the machine about themselves: the timebase, a control word, the numeric status
word, the words of a tile entry (13 R289; 18 R376; 20 R427; 21 R446, R447, R457, R458, R464). -/
def readOp : Instr → Option RegOp
  | .nop g _ => some { guard := g, wide := false, dst := .v 0, vals := fun _ _ => [] }
  | .clock g d => some (everyLane g true d fun s _ => BitVec.ofNat 64 s.time)
  | .satrd g d => some (everyLane g true d fun _ c => BitVec.ofNat 64
      (((c.g.sat && !c.p.clrSat) || c.p.sat).toNat + 2 * ((c.g.inv && !c.p.clrInv) || c.p.inv).toNat
        + 4 * c.b.armed.toNat))
  | .tstateRead g w1 d tile => some (everyLane g true d fun s c =>
      Cells.get s.tiles (tileKey c.g.block tile (if w1 then 1 else 0)))
  | .sysrd g d a => some
      { everyLane g true d fun s c =>
          match controlFor false c.l.vi (s.u64 c true c.lead a) with
          | some w => s.readControl c.l.vi w
          | none => 0 with
        fault := fun s c =>
          if c.exec ≠ [] ∧ controlFor false c.l.vi (s.u64 c true c.lead a) = none then
            some (whole c .illegalOperand 1)
          else none }
  | _ => none

/-- An instruction that acts once for the path: its guard, the fault with which it is turned away, its effect. -/
structure Effect where
  guard : Guard
  fault : State → Ctx → Option Flt := fun _ _ => none
  eff : State → Ctx → State

/-- With no executing lane it only goes on; else it has its effect and goes on, or takes its fault and has none. -/
def Acts (table : Instr → Option Effect) : Prop :=
  ∀ (i : Instr) (e : Effect) (s : State) (c : Ctx), table i = some e → s.ctx e.guard = some c →
    (c.exec = [] → exec i s = .next (s.finish c)) ∧
    (c.exec ≠ [] → e.fault s c = none → exec i s = .next ((e.eff s c).finish c)) ∧
    (∀ f, c.exec ≠ [] → e.fault s c = some f → exec i s = .next (s.raise c f))

/-- Writes of control words, of the numeric status word and of staging registers, which in a native slot take the value
one cycle later; inside a region SATARM arms the block when the region commits (21 R446, R447, R454, R455, R457, R458). -/
def systemEffect : Instr → Option Effect
  | .syswr g a b => some
      { guard := g
        fault := fun s c =>
          if controlFor true c.l.vi (s.u64 c true c.lead a) = none then some (whole c .illegalOperand 1) else none
        eff := fun s c =>
          match controlFor true c.l.vi (s.u64 c true c.lead a) with
          | some w => s.writeControl c.l.vi w (s.reg c true c.lead b)
          | none => s }
  | .satarm g => some
      { guard := g
        eff := fun s c =>
          if c.midBundle = true ∨ c.p.run ≠ 0 then
            s.updCur c fun p => { p with held := p.held ++
              [{ instr := .satarm g, lanes := maskOf c.exec, vpc := s.vpc c }] }
          else { s with blocks := AMap.put s.blocks c.g.block { c.b with armed := true } } }
  | .satclr g a => some
      { guard := g
        eff := fun s c =>
          let sat := (s.reg c true c.lead a).getLsbD 0
          let inv := (s.reg c true c.lead a).getLsbD 1
          s.updCur c fun p =>
            { p with sat := p.sat && !sat, inv := p.inv && !inv, clrSat := p.clrSat || sat, clrInv := p.clrInv || inv } }
  | .stgw g set idx a => some
      { guard := g
        eff := fun s c =>
          let k := StageSet.num set * 8 + idx
          s.updCur c fun p =>
            match c.cur.slot with
            | none => { p with staging := Cells.set p.staging k (s.reg c true c.lead a) }
            | some x => { p with inflight := p.inflight ++
                [{ due := some (s.cycle + 1), left := x.la, dst := .stage k, val := s.reg c true c.lead a }] } }
  | _ => none

/-- A tile in transfer turns TDECL, TFREE and TSTATE .ready away (04 R90). -/
def busyTile (s : State) (c : Ctx) (t : Nat) : Option Flt :=
  if (s.tile c.g.block t).state = tileFilling ∨ (s.tile c.g.block t).state = tileDraining then
    some (whole c .tileBusy t)
  else none

/-- The tile table (04 R89, R90, Table 4.4; 21 R460, R461, R464): the checks of a declaration in their order and the
words it leaves; a freed entry is EMPTY without CFG; a tile made READY lets its waiters go on. -/
def tileEffect : Instr → Option Effect
  | .tdecl g fmt sw t shape bar slot => some
      { guard := g
        fault := fun s c =>
          let w1 := s.u64 c true c.lead shape
          let x := tileOf (declWord fmt sw bar slot) w1
          let alloc := (s.stageOf c.b c.l).spadSize
          if bitsOf w1 21 3 ≠ 0 ∨ bitsOf w1 0 6 ≠ 0 then some (whole c .illegalOperand 1)
          else if x.shapeOk alloc = false ∨ x.overlaps (alloc - 4096) 4096 = true then some (whole c .tileShape t)
          else busyTile s c t
        eff := fun s c =>
          let m := Cells.set s.tiles (tileKey c.g.block t 0) (BitVec.ofNat 64 (declWord fmt sw bar slot))
          { s with tiles := Cells.set m (tileKey c.g.block t 1) (s.reg c true c.lead shape) } }
  | .tfree g t => some
      { guard := g
        fault := fun s c => busyTile s c t
        eff := fun s c =>
          let w := withCfg (withState (Cells.get s.tiles (tileKey c.g.block t 0)) tileEmpty) false
          { s with tiles := Cells.set s.tiles (tileKey c.g.block t 0) w } }
  | .tstateReady g t => some
      { guard := g
        fault := fun s c => (busyTile s c t).or
          (if (s.tile c.g.block t).state = tileEmpty ∧ (s.tile c.g.block t).cfg = false then
            some (whole c .tileShape t)
          else none)
        eff := fun s c =>
          let w := withState (Cells.get s.tiles (tileKey c.g.block t 0)) tileReady
          let u : State := { s with tiles := Cells.set s.tiles (tileKey c.g.block t 0) w }
          if (s.tile c.g.block t).state = tileReady then s
          else u.wakeBlock c.g.block (fun x => x == Wait.tile t) fun p =>
            { p with wait := .none, met := true } }
  | _ => none

end Sys2Proof.Claims

/-- NOP, CLOCK, SATRD, TSTATE and SYSRD (13 R289; 18 R376; 20 R427; 21 R446, R457, R458, R464). -/
def Sys2Proof.Claims.StatusInstructionsReadWhatTheyName : Prop :=
  CompletesFleper readOp ∧ CompletesNative readOp ∧ TurnedAway readOp

/-- SYSWR, SATARM, SATCLR and STGW (09 R222; 21 R446, R447, R454, R455, R457, R458). -/
def Sys2Proof.Claims.SystemInstructionsWriteWhatTheyName : Prop := Acts systemEffect

/-- The instructions that read the machine about itself, and those that write control words, flags and staging sets. -/
def Obligations.StatusAndSystemInstructionsActOnWhatTheyName : Prop :=
  StatusInstructionsReadWhatTheyName ∧ SystemInstructionsWriteWhatTheyName

/-- The tile instructions act on the table by its states; STATE is bits 63 and 62 of the first word and CFG bit 61, and
writing one leaves every other bit (04 R90, Table 4.4; 21 R460, R461, R464). -/
def Obligations.TileInstructionsChangeTheTileTable : Prop :=
  Acts tileEffect ∧
  ∀ (w : Word) (st : Nat) (b : Bool) (i : Nat), st < 4 → i < 64 →
    (withState w st).getLsbD i = (if 62 ≤ i then st.testBit (i - 62) else w.getLsbD i) ∧
    (withCfg w b).getLsbD i = (if i = 61 then b else w.getLsbD i)

/-- MOV to a uniform register: the value of the lead lane, for the owner or for the first writer of the interval, who
becomes the owner; another context faults and writes nothing (02 R42, R43; 20 R426). -/
def Obligations.AUniformRegisterHasOneWriterInAnInterval : Prop :=
  ∀ (s : State) (g : Guard) (ty : STy) (k : Nat) (a : Operand) (c : Ctx), s.ctx g = some c →
    let u : State := { s with uregs := Cells.set s.uregs (uregKey c.g.block k) (BitVec.ofNat 64 (s.bits c ty c.lead a)) }
    (c.exec = [] → exec (.mov g ty (.k k) a) s = .next (s.finish c)) ∧
    (c.exec ≠ [] → AMap.find? c.b.owners k = none → exec (.mov g ty (.k k) a) s = .next
      ({ u with blocks := AMap.put s.blocks c.g.block { c.b with owners := AMap.put c.b.owners k c.g.gid } }.finish c)) ∧
    (c.exec ≠ [] → AMap.find? c.b.owners k = some c.g.gid → exec (.mov g ty (.k k) a) s = .next (u.finish c)) ∧
    (∀ o, c.exec ≠ [] → AMap.find? c.b.owners k = some o → o ≠ c.g.gid → exec (.mov g ty (.k k) a) s = .next
      (s.raise c { code := .uniformConflict, detail := k % 64 + o % 64 * 256, lanes := maskOf c.exec }))

/-- What a write of a control word leaves of it: the fields it may write take the value, the others stay; a write of
1 to ARM clears the two RO status bits of DBG_CAPTURE; no other word of any interface changes (00 Table 0.2; 21 R458). -/
def Obligations.ControlWordsTakeTheirWritableFields : Prop :=
  ∀ (s : State) (vi : Nat) (w : ControlWord) (x m : Word), s.dcNext < 16 →
    (∀ d, (Cells.get s.errcnt d).toNat < 2 ^ 48) →
    (m = match w with
      | .hosting => 0xF2
      | .capture => 0xFFFFFF01
      | .errcnt d => if d < 11 then 0xFFFFFFFFFFFF else 0
      | .spare _ => 0
      | w => w.mask) →
    (s.writeControl vi w x).readControl vi w =
      (x &&& m) ||| (s.readControl vi w &&& ~~~m &&& if w = .capture ∧ x.getLsbD 0 then ~~~6 else ~~~0) ∧
    (∀ v n, n ≠ w ∨ (v ≠ vi ∧ n ∈ [.vi, .age, .profile, .quota, .replay, .capture]) →
      (s.writeControl vi w x).readControl v n = s.readControl v n)

namespace Sys2Proof.Claims

open Sys2Proof.Machine Sys2Proof.Safety

/-- The program counter by which REFORM files (20 R439). -/
def reformPc (c : Ctx) (target : Option Int) : Nat :=
  match target with
  | some disp => c.target disp
  | none => c.after

/-- The barrier page of a block lies in the scratchpad of its core (07 R173; 08 R198). -/
def PageInScratch (s : State) (b : Block) (l : Launch) : Prop :=
  b.core < 1536 ∧ 4096 ≤ (s.stageOf b l).spadSize ∧ b.spadBase + (s.stageOf b l).spadSize ≤ 2 ^ 21

/-- The counts of a slot fit their fields (07 Table 7.5). -/
def SlotFits (x : BarSlot) : Prop := x.arrivals < 2 ^ 16 ∧ x.bytes < 2 ^ 32

/-- The barrier instructions that act at once (07 R174, R175, R178; 17 R355 to R357). -/
def barrierEffect : Instr → Option Effect
  | .bararm g n depth arrivals bytes => some
      { guard := g
        fault := fun s c =>
          let d := s.u32 c c.lead depth
          if d < 1 ∨ 8 < d then some (whole c .illegalOperand 1)
          else if 65535 < s.u32 c c.lead arrivals then some (whole c .illegalOperand 2)
          else if s.barWaiter c.g.block n = true ∨ s.transferDue c.g.block n = true then
            some (whole c .barrierOverrun (n + 2048))
          else none
        eff := fun s c => s.armBarrier c.b c.l n (s.u32 c c.lead depth) (s.u32 c c.lead arrivals)
          (s.u32 c c.lead bytes) }
  | .bararr g n k count => some
      { guard := g
        fault := fun s c =>
          let bad := c.exec.filter fun l => decide (65535 < s.u32 c l count)
          let d := s.barDepth c.b c.l n
          let t := (s.barBase c.b c.l n + k) % d
          if bad ≠ [] then some { code := .illegalOperand, detail := 1, lanes := maskOf bad }
          else if d ≤ k then some (whole c .barrierOverrun (n + k * 256 + 2048))
          else if (s.slotAt c.b c.l n t).arrivals < (c.exec.map fun l => s.u32 c l count).sum then
            some (whole c .barrierOverrun (n + t * 256))
          else none
        eff := fun s c =>
          let t := (s.barBase c.b c.l n + k) % s.barDepth c.b c.l n
          let x := s.slotAt c.b c.l n t
          let a := x.arrivals - (c.exec.map fun l => s.u32 c l count).sum
          let done := x.complete || (a == 0 && x.bytes == 0)
          let u := s.setSlot c.b c.l n t { arrivals := a, complete := done, bytes := x.bytes }
          if done then u.wakeSlot c.g.block n t else u }
  | .barrot g n => some
      { guard := g
        fault := fun s c =>
          if s.barDepth c.b c.l n = 0 then some (whole c .barrierOverrun (n + 2048))
          else if (s.slotAt c.b c.l n (s.barBase c.b c.l n)).complete = false then
            some (whole c .barrierOverrun (n + s.barBase c.b c.l n * 256))
          else none
        eff := fun s c =>
          let t := s.barBase c.b c.l n
          let u := (s.setSlot c.b c.l n t
            (armedSlot (s.barField c.b c.l n 2 2) (s.barField c.b c.l n 4 4))).setBarField c.b c.l n 1 1
              ((t + 1) % s.barDepth c.b c.l n)
          let phase := BitVec.ofNat 64 (((Cells.get c.b.phases n).toNat + 1) % 65536)
          { u with blocks := AMap.put u.blocks c.g.block { c.b with phases := Cells.set c.b.phases n phase } } }
  | _ => none

end Sys2Proof.Claims

/-- REFORM: the region commits, the executing threads are filed in lane order, those that no bobbin takes go on at the
next program counter with the lanes that did not execute, and the bobbins that are due are drawn (02 R34 to R36; 20
R439). A thread filed stands in a bobbin of its block and its next program counter. -/
def Sys2Proof.Claims.ReformFilesTheExecutingThreads : Prop :=
  ∀ (s : State) (gd : Guard) (target : Option Int) (c : Ctx), s.ctx gd = some c →
    let r := (s.closeRegion c.cur.grp c.cur.path).fileLanes c (reformPc c target) (s.iface c.l.vi).ageLimit c.exec
    let gone := c.exec.filter fun l => !r.2.contains l
    let left := c.lanes.filter fun l => !c.exec.contains l || r.2.contains l
    exec (.reform gd target) s = .next
      ((((r.1.leaveLanes c gone).finishTo c left fun l =>
        if c.exec.contains l then reformPc c target else c.after).freeGroup c.cur.grp).drawReady c.b.core) ∧
    ∀ l ∈ gone, ∃ k x, AMap.find? r.1.bobbins k = some x ∧ x.block = c.g.block ∧ x.pc = reformPc c target ∧
      (AMap.find? c.g.lanes l).getD 0 ∈ x.threads

/-- The bobbin store: a thread joins a bobbin of its key that has room, else starts a free one, else is not filed; no
bobbin comes to hold more than 64 threads, and no other changes (02 R34). -/
def Sys2Proof.Claims.ABobbinHoldsThreadsOfOneKey : Prop :=
  ∀ (s : State) (core bk pc limit x : Nat),
    (s.fileThread core bk pc limit x = none →
      ∀ i < 64, ∃ y, AMap.find? s.bobbins (core * 64 + i) = some y ∧
        ¬ (y.block = bk ∧ y.pc = pc ∧ y.threads.length < 64)) ∧
    (∀ t, s.fileThread core bk pc limit x = some t → ∃ i < 64,
      (∀ k, k ≠ core * 64 + i → AMap.find? t.bobbins k = AMap.find? s.bobbins k) ∧
      t = { s with bobbins := t.bobbins } ∧
      ((∃ y, AMap.find? s.bobbins (core * 64 + i) = some y ∧ y.block = bk ∧ y.pc = pc ∧ y.threads.length < 64 ∧
          AMap.find? t.bobbins (core * 64 + i) = some { y with threads := y.threads ++ [x] }) ∨
        ((∀ j < 64, ∀ y, AMap.find? s.bobbins (core * 64 + j) = some y →
            ¬ (y.block = bk ∧ y.pc = pc ∧ y.threads.length < 64)) ∧
          AMap.find? s.bobbins (core * 64 + i) = none ∧
          AMap.find? t.bobbins (core * 64 + i) =
            some { block := bk, pc, threads := [x], born := s.cycle, limit })))

/-- REFORM and the bobbin store that it files in (02 R34 to R36; 20 R439). -/
def Obligations.ReformFilesThreadsInBobbinsOfTheirKey : Prop :=
  ReformFilesTheExecutingThreads ∧ ABobbinHoldsThreadsOfOneKey

/-- BARARM, BARARR and BARROT: the checks in their order, else the effect (07 R174, R175, R178; 17 R355 to R357). -/
def Sys2Proof.Claims.BarrierInstructionsActOnTheirObject : Prop := Acts barrierEffect

/-- A slot written reads back, and no other slot and no header field of any object changes; arming sets the depth, a
base of 0, the expected counts and every slot, and touches no other object; nothing outside the scratchpad changes (07
R173, R174, Table 7.5; 17 R355). -/
def Sys2Proof.Claims.BarrierObjectsHoldTheirSlots : Prop :=
  (∀ (s : State) (b : Block) (l : Launch) (n t : Nat) (x : BarSlot), PageInScratch s b l → n < 32 → t < 8 → SlotFits x →
    s.setSlot b l n t x = { s with spad := (s.setSlot b l n t x).spad } ∧
    (s.setSlot b l n t x).slotAt b l n t = x ∧
    (∀ n' < 32, ∀ t' < 8, (n', t') ≠ (n, t) → (s.setSlot b l n t x).slotAt b l n' t' = s.slotAt b l n' t') ∧
    ∀ n' < 32, ∀ off w, off + w ≤ 16 → (s.setSlot b l n t x).barField b l n' off w = s.barField b l n' off w) ∧
  ∀ (s : State) (b : Block) (l : Launch) (n depth arrivals bytes : Nat), PageInScratch s b l → n < 32 →
    1 ≤ depth → depth ≤ 8 → arrivals < 2 ^ 16 → bytes < 2 ^ 32 →
    let t := s.armBarrier b l n depth arrivals bytes
    t = { s with spad := t.spad } ∧
    t.barDepth b l n = depth ∧ t.barBase b l n = 0 ∧ t.barField b l n 2 2 = arrivals ∧ t.barField b l n 4 4 = bytes ∧
    (∀ i < 8, t.slotAt b l n i =
      if i < depth then { arrivals, complete := arrivals == 0 && bytes == 0, bytes } else ⟨0, false, 0⟩) ∧
    ∀ m < 32, m ≠ n → ∀ off w, off + w ≤ 128 → t.barField b l m off w = s.barField b l m off w

/-- BARARM, BARARR and BARROT, and the objects whose slots they change (07 R173 to R178). -/
def Obligations.BarrierInstructionsActOnTheSlotsOfTheirObject : Prop :=
  BarrierInstructionsActOnTheirObject ∧ BarrierObjectsHoldTheirSlots

/-- BARWAIT passes where its slot is complete, waits for the slot where it is not, and faults on an unarmed object and
past the depth; a slot that completes lets exactly its waiters go on (07 R175, R177; 17 R360). -/
def Obligations.BarwaitPassesACompleteSlot : Prop :=
  (∀ (s : State) (gd : Guard) (n k : Nat) (c : Ctx), s.ctx gd = some c →
    let d := s.barDepth c.b c.l n
    let t := (s.barBase c.b c.l n + k) % d
    (c.exec = [] ∨ c.pos ∈ c.p.woken ∨ (k < d ∧ (s.slotAt c.b c.l n t).complete = true) →
      exec (.barwait gd n k) s = .next (s.finish c)) ∧
    (c.exec ≠ [] → c.pos ∉ c.p.woken → d ≤ k →
      exec (.barwait gd n k) s = .next (s.raise c (whole c .barrierOverrun (n + k * 256 + 2048)))) ∧
    (c.exec ≠ [] → c.pos ∉ c.p.woken → k < d → (s.slotAt c.b c.l n t).complete = false →
      ∃ u, exec (.barwait gd n k) s = .next u ∧ Waits s u c (.bar n t))) ∧
  ∀ (s : State) (bk n t : Nat), AMap.rising s.groups = true →
    s.wakeSlot bk n t = { s with groups := (s.wakeSlot bk n t).groups } ∧
    ∀ k, AMap.find? (s.wakeSlot bk n t).groups k = (AMap.find? s.groups k).map fun g =>
      if g.block = bk then
        { g with paths := g.paths.map fun p => if p.wait = .bar n t then
          { p with wait := .none, met := true, woken := p.waiter :: p.woken } else p }
      else g

/-- BARSYNC: the executing threads wait after it, in a path of their own, and the others of the path go on; then the
barrier completes if every live thread of the block waits (07 R179; 17 R358). A native path's results in flight land
first, as its region ends (03 R62, R63; 17 R359). -/
def Sys2Proof.Claims.BarsyncHoldsTheThreadsThatExecuteIt : Prop :=
  ∀ (s : State) (gd : Guard) (c : Ctx), s.ctx gd = some c →
    (c.exec = [] → exec (.barsync gd) s = .next (s.finish c)) ∧
    (c.exec ≠ [] → ∃ (u : State) (g : Group),
      exec (.barsync gd) s = .next (u.completeBarsync c.g.block) ∧
      (let v := if c.cur.slot = none then s else s.landIf c.cur.grp c.cur.path fun _ => true
       c.p.run = 0 → u = { held v c with groups := u.groups, next := (held v c).next + 1 }) ∧
      AMap.find? u.groups c.cur.grp = some g ∧
      (∀ k, k ≠ c.cur.grp → AMap.find? u.groups k = AMap.find? s.groups k) ∧
      (∀ lane pc, standsAt g.paths lane pc ↔
        (lane ∈ c.lanes ∧ c.after = pc) ∨ standsAt (pathsBut c.g c.cur.path) lane pc) ∧
      (∀ lane ∈ c.exec, ∃ p ∈ g.paths, p.mask.getLsbD lane = true ∧ p.wait = .sync) ∧
      (∀ lane ∈ c.lanes, lane ∉ c.exec → ∃ p ∈ g.paths, p.mask.getLsbD lane = true ∧ p.wait ≠ .sync))

/-- The block barrier completes when the waiting threads are all the live ones: the ownership interval of the uniform
registers ends, and no path of the block waits at it any longer; until then nothing happens (02 R42; 17 R358). Here the
block has not armed a trap, which is judged next (09 R222). -/
def Sys2Proof.Claims.TheBlockBarrierCompletesWithEveryLiveThread : Prop :=
  ∀ (s : State) (bk : Nat) (b : Block), AMap.find? s.blocks bk = some b →
    (s.arrivals bk ≠ s.liveThreads bk → s.completeBarsync bk = s) ∧
    (s.arrivals bk = s.liveThreads bk → s.arrivals bk ≠ 0 → b.armed = false → AMap.rising s.groups = true →
      let t := s.completeBarsync bk
      t = { s with blocks := t.blocks, groups := t.groups } ∧
      AMap.find? t.blocks bk = some { b with owners := [] } ∧
      (∀ k, k ≠ bk → AMap.find? t.blocks k = AMap.find? s.blocks k) ∧
      ∀ k g, AMap.find? s.groups k = some g →
        (g.block ≠ bk → AMap.find? t.groups k = some g) ∧
        (g.block = bk → ∃ h, AMap.find? t.groups k = some h ∧ (∀ p ∈ h.paths, p.wait ≠ .sync) ∧
          ∀ lane pc, standsAt h.paths lane pc ↔ standsAt g.paths lane pc))

/-- BARSYNC and the completion of the block barrier (07 R179; 17 R358, R359). -/
def Obligations.BarsyncWaitsForEveryLiveThread : Prop :=
  BarsyncHoldsTheThreadsThatExecuteIt ∧ TheBlockBarrierCompletesWithEveryLiveThread

namespace Sys2Proof.Claims

open Sys2Proof.Machine Sys2Proof.Safety

/-- Every lane's access passes the checks of 04 Table 4.1, at a target that is resident and holds no poisoned data: `t`
is the machine after the translations, `ps` are the lanes with their places. -/
def Clear (s : State) (c : Ctx) (m : MemRef) (sc : Scope) (need : Need) (attr : Nat → Bool) (lanes : List Nat)
    (t : State) (ps : List (Nat × Place)) : Prop :=
  ∃ rs, s.resolveLanes c m sc need attr lanes = (rs, t) ∧ resolvedFaults rs = [] ∧ resolvedHold rs = none ∧
    resolvedPlaces rs = ps ∧ ∀ e ∈ ps, t.poisonedAt e.2 = false

/-- A release by the issuing path does not wait: there is none, or the slot is native (a DRAIN stands before it), or the
tokens named are DONE and no remote access is under way (05 R125, R127, R128). -/
def ReleaseReady (s : State) (c : Ctx) (on : Bool) (w : Toks) : Prop :=
  on = false ∨ c.cur.slot ≠ none ∨
    (((s.grp c).noneToken (tokList w) = none ∧ (s.grp c).tokensDone (tokList w) = true) ∧ s.remotePending c = false)

/-- The write-back of a release, where there is one (05 R117). -/
def released (s : State) (c : Ctx) (on : Bool) (sc : Scope) : State :=
  if on then s.releaseCaches c.b.core sc else s

/-- An instruction that accesses memory by the address of each lane: its guard, operand, scope, need, attribute
requirement, lanes, and whether a target that is not resident holds it (04 R85; 19 R414; 20 R431). -/
structure Access where
  guard : Guard
  mem : MemRef
  scope : Scope
  need : Need
  attr : Nat → Bool
  lanes : Ctx → List Nat := Ctx.exec
  holds : Bool := true

/-- Atomics need memory-side attributes in the global space (04 R105). -/
def atomicAccess (g : Guard) (ty : STy) (sc : Scope) (m : MemRef) : Access :=
  { guard := g, mem := m, scope := sc, need := { n := ty.width / 8, write := true, atomic := true }
    attr := fun f => m.space != .g || isMside f }

def accessOf : Instr → Option Access
  | .ld g ty _ sc d m => some
      { guard := g, mem := m, scope := sc, need := { n := ty.width / 8 }, attr := fun _ => true
        lanes := fun c => c.loadLanes d }
  | .st g ty _ sc m _ _ => some
      { guard := g, mem := m, scope := sc, need := { n := ty.width / 8, write := true }, attr := fun _ => true
        holds := false }
  | .atom g _ ty _ sc _ _ m _ _ => some (atomicAccess g ty sc m)
  | .atombadd g ty _ sc _ _ _ m _ _ _ => some (atomicAccess g ty sc m)
  | .atomcas g ty _ sc _ m _ _ _ => some (atomicAccess g ty sc m)
  | .pollbk g sc _ m => some
      { guard := g, mem := m, scope := atLeastDevice sc, need := { n := 8 }, attr := isMside }
  | _ => none

/-- What an atomic writes over an old value, if anything (11 R252, R253, Table 11.4). -/
def atomicStep : Instr → Option (Guard × STy × MemOrder × Scope × MemRef × Toks × (State → Ctx → Nat → Nat → Option Nat))
  | .atom g op ty ord sc _ _ m a w => some (g, ty, ord, sc, m, w, fun s c l old => some (atomOp op ty old (s.bits c ty l a)))
  | .atombadd g ty ord sc _ _ _ m a n w => some (g, ty, ord, sc, m, w, fun s c l old =>
      if old + s.bits c ty l a ≤ s.bits c ty l n ∧ old + s.bits c ty l a < 2 ^ ty.width then
        some (old + s.bits c ty l a)
      else none)
  | .atomcas g ty ord sc _ m cmp new w => some (g, ty, ord, sc, m, w, fun s c l old =>
      if old = s.bits c ty l cmp then some (s.bits c ty l new) else none)
  | _ => none

/-- The registers an atomic writes: the old values unless `.nr`, and whether a bounded add took place. -/
def atomicWrites (i : Instr) (s : State) (c : Ctx) (olds : List (Nat × Nat)) (t : State) : State :=
  let put (u : State) (ty : STy) (nr : Bool) (d : Option Operand) : State :=
    match d with
    | some d => if nr then u else u.write c (ty.width == 64) d (olds.map fun e => (e.1, extendTo ty e.2))
    | none => u
  match i with
  | .atom _ _ ty _ _ nr d _ _ _ => put t ty nr d
  | .atombadd _ ty _ _ nr d q _ a n _ =>
    put (t.write c false (.p q) (olds.map fun e =>
      (e.1, if e.2 + s.bits c ty e.1 a ≤ s.bits c ty e.1 n ∧ e.2 + s.bits c ty e.1 a < 2 ^ ty.width then 1 else 0)))
      ty nr d
  | .atomcas _ ty _ _ d _ _ _ _ => put t ty false (some d)
  | _ => t

end Sys2Proof.Claims

/-- LD: each lane reads the bytes of its place, with its own gated stores over them, and writes them as a little-endian
value of the type; then the acquire part acts (05 R115, R117; 19 R414). In a native slot the values go in flight and the
granules of a hoisted load enter the alias table (03 R66). -/
def Obligations.LoadsReadTheBytesOfTheirPlaces : Prop :=
  ∀ (s t : State) (g : Guard) (ty : STy) (ord : MemOrder) (sc : Scope) (d : Operand) (m : MemRef) (c : Ctx)
    (ps : List (Nat × Place)), s.ctx g = some c → c.exec ≠ [] →
    Clear s c m sc { n := ty.width / 8 } (fun _ => true) (c.loadLanes d) t ps →
    ((∀ e ∈ ps, e.2.isPeer = false) ∨ c.pos ∈ c.p.woken) → (m.space = .w → t.heldStore c = false) →
    (c.cur.slot = none → ∃ u, exec (.ld g ty ord sc d m) s = .next (u.noteOverflow c.b.launch) ∧
      let r := t.readLanes c (ty.width / 8) ps
      Done s ((written r.2 c.g d (r.1.map fun e => (e.1, extendTo ty (leNat e.2)))).acquire c (acquires ord) sc)
        u c c.lanes (fun _ => c.after) false false) ∧
    (∀ x, c.cur.slot = some x →
      let new := aliasEntries m.space x.aliasByte (t.addrs c m (ps.map fun e => e.1))
      let v := if x.aliasByte = 0 then t else t.updCur c fun p => { p with aliases := p.aliases ++ new }
      let r := v.readLanes c (ty.width / 8) ps
      (x.aliasByte = 0 ∨ new.length ≤ t.aliasFree c.b.core) → c.p.sealed = false →
      exec (.ld g ty ord sc d m) s = .next ((inFlight (r.2.acquire c (acquires ord) sc) c
        (nativeResults r.2 c x (ty.width == 64) d (r.1.map fun e => (e.1, extendTo ty (leNat e.2)))) false
        false).noteOverflow c.b.launch))

/-- ST: the lane-stores of the executing lanes are gated in lane order and, the instruction being a region of its own,
perform at its end after those already gated; a store with release first waits for what it orders and writes the caches
back (03 R62; 05 R115, R117; 21 R451, R452). -/
def Sys2Proof.Claims.StoresPerformInLaneOrder : Prop :=
  ∀ (s t : State) (g : Guard) (ty : STy) (ord : MemOrder) (sc : Scope) (m : MemRef) (a : Operand) (w : Toks) (c : Ctx)
    (rs : List (Nat × Resolved)), s.ctx g = some c → c.exec ≠ [] → c.cur.slot = none →
    s.resolveLanes c m sc { n := ty.width / 8, write := true } (fun _ => true) c.exec = (rs, t) →
    resolvedFaults rs = [] → ReleaseReady t c (releases ord) w →
    ∃ u, exec (.st g ty ord sc m a w) s = .next (u.noteOverflow c.b.launch) ∧
      MovedOn s u c c.lanes (fun _ => c.after) false false ∧
      let v := released t c (releases ord) sc
      let new := (storePlaces (s.addrs c m c.exec) m.sw rs).map fun e : Nat × Place =>
        ({ lane := e.1, dst := e.2, data := leBytes (ty.width / 8) (s.bits c ty e.1 a), born := v.next } : GStore)
      let v := if c.p.run = 0 then v.performStores c.cur.grp c.g { c.p with gated := c.p.gated ++ new } c.b c.l else v
      u = { v with groups := u.groups, next := v.next + 1 }

/-- The own scratchpad: a Fleper store changes exactly the bytes of its lanes' addresses; of lanes that overlap the
highest stays; every other byte reads as before (04 R80, R87, Table 4.1; 05 R115). -/
def Sys2Proof.Claims.ScratchpadStoresChangeOnlyTheirBytes : Prop :=
  ∀ (s : State) (g : Guard) (ty : STy) (sc : Scope) (m : MemRef) (a : Operand) (w : Toks) (c : Ctx),
    s.ctx g = some c → c.exec ≠ [] → c.cur.slot = none → c.p.run = 0 → c.p.gated = [] → m.space = .l →
    PageInScratch s c.b c.l →
    (∀ l ∈ c.exec, s.addrOf c l m % (ty.width / 8) = 0 ∧
      s.addrOf c l m + ty.width / 8 + 4096 ≤ (s.stageOf c.b c.l).spadSize) →
    let n := ty.width / 8
    let at_ (l : Nat) : Nat := spadChip c.b.core (c.b.spadBase + swizzle m.sw (s.addrOf c l m))
    ∃ u : State, exec (.st g ty .rlx sc m a w) s = .next (u.noteOverflow c.b.launch) ∧
      u = { s with groups := u.groups, spad := u.spad, next := s.next + 1 } ∧
      (∀ x, (∀ l ∈ c.exec, x < at_ l ∨ at_ l + n ≤ x) → u.chipByte x = s.chipByte x) ∧
      ∀ l ∈ c.exec, (∀ k ∈ c.exec, l < k → at_ k + n ≤ at_ l ∨ at_ l + n ≤ at_ k) →
        u.chipBytes (at_ l) n = leBytes n (s.bits c ty l a)

/-- ST, and the bytes that a store to the own scratchpad changes (03 R62; 05 R115; 21 R451). -/
def Obligations.StoresPerformInLaneOrderAndChangeOnlyTheirBytes : Prop :=
  StoresPerformInLaneOrder ∧ ScratchpadStoresChangeOnlyTheirBytes

/-- The checks of 04 Table 4.1 in their order: alignment first in every space; then in the own scratchpad the bounds
and, for a write, the barrier page; in the global space translation, the attributes, the read set, the write set, and
for a write the control rows. -/
def Sys2Proof.Claims.AccessesAreCheckedInOrder : Prop :=
  ∀ (s : State) (c : Ctx) (sw : Nat) (sc : Scope) (a : Nat) (need : Need) (attr : Nat → Bool),
    (∀ sp, a % need.n ≠ 0 → s.resolve c sp sw sc a need attr =
      (.fault { code := .align, detail := need.n, addr := a }, s)) ∧
    (a % need.n = 0 → let size := (s.stageOf c.b c.l).spadSize
      s.resolve c .l sw sc a need attr =
        (if size < a + need.n then .fault { code := .permission, detail := 3, addr := a }
         else if need.write = true ∧ size < a + need.n + 4096 then .fault { code := .permission, detail := 5, addr := a }
         else .ok (.chip (c.b.core * 0x800000 + (c.b.spadBase + swizzle sw a))), s)) ∧
    (∀ x, a % need.n = 0 → s.context c.l.vi c.l.ctx = some x → let hg := (s.iface c.l.vi).hgatp
      (∀ f, s.translate c.b.core x.satp hg a need.write = .error f → s.resolve c .g sw sc a need attr = (.fault f, s)) ∧
      (∀ pa t, s.translate c.b.core x.satp hg a need.write = .ok (pa, t) → s.resolve c .g sw sc a need attr =
        (let f := attrFlags c.l.attrs a
         if attr f = false then .fault { code := .attrMismatch, detail := f % 65536, addr := a }
         else if (need.write = false ∨ need.atomic = true) ∧ claimed c.l.claims false a need.n = false then
           .fault { code := .regionUnclaimed, detail := 0, addr := a }
         else if need.write = true ∧ claimed c.l.claims true a need.n = false then
           .fault { code := .regionUnclaimed, detail := 1, addr := a }
         else if need.write = true ∧ isControlRow pa = true then .fault { code := .permission, detail := 6, addr := a }
         else .ok (c.l.place f a pa sc), t)))

/-- An access that fails a check takes the fault of its lowest faulting lane and has no effect; one whose window target
is not resident waits; one that would read poisoned data ends the launch with cause 2 (04 R85; 12 R279; 17 R340). -/
def Sys2Proof.Claims.AccessesAreTurnedAwayWhole : Prop :=
  ∀ (i : Instr) (a : Access) (s t : State) (c : Ctx) (rs : List (Nat × Resolved)), accessOf i = some a →
    s.ctx a.guard = some c → c.exec ≠ [] →
    s.resolveLanes c a.mem a.scope a.need a.attr (a.lanes c) = (rs, t) →
    (resolvedFaults rs ≠ [] → exec i s = .next (t.raiseLanes c (resolvedFaults rs))) ∧
    (∀ h, resolvedFaults rs = [] → a.holds = true → resolvedHold rs = some h →
      exec i s = .next (t.waitOn c (.window h))) ∧
    (resolvedFaults rs = [] → a.holds = true → resolvedHold rs = none →
      (∃ e ∈ resolvedPlaces rs, t.poisonedAt e.2 = true) →
      exec i s = .next (t.beginAbort c.b.launch 2 0 t.time))

/-- The checks of an access, and what becomes of one that fails them (04 Table 4.1; 17 R340). -/
def Obligations.AccessesAreCheckedInOrderOrTurnedAwayWhole : Prop :=
  AccessesAreCheckedInOrder ∧ AccessesAreTurnedAwayWhole

/-- A core reads its own latest write, whatever the scopes of the two accesses; no other byte it can read of that version
changes, but in a line that reaches the written cells by the other window (11 R259); and a store of a transactional launch
changes no committed byte (04 R96, R97; 05 R114, R116; 06 R147). -/
def Obligations.ACoreReadsItsLatestWrite : Prop :=
  ∀ (s : State) (core tag pa : Nat) (cached : Bool) (sc sc' : Scope) (bs : List Byte),
    bs ≠ [] → pa < 2 ^ 41 → pa % 64 + bs.length ≤ 64 → isControlRow pa = false →
    let t := s.writePlace core (.g pa tag cached sc) bs
    (t.readPlace core (.g pa tag cached sc') bs.length).1 = bs ∧
    (∀ x, x < pa ∨ pa + bs.length ≤ x → x / 64 = pa / 64 ∨ cellLine (x / 64) ≠ cellLine (pa / 64) →
      (t.readPlace core (.g x tag cached sc') 1).1 = (s.readPlace core (.g x tag cached sc') 1).1) ∧
    (tag ≠ 0 → t.mem = s.mem)

/-- Atomics: the release part, then each lane's operation on its place in increasing lane order, each on what the one
before left, then the registers, then the acquire part (05 R115; 11 R250 to R253; 17 R349 to R353). -/
def Sys2Proof.Claims.AtomicsActLaneByLane : Prop :=
  ∀ (i : Instr) (g : Guard) (ty : STy) (ord : MemOrder) (sc : Scope) (m : MemRef) (w : Toks)
    (f : State → Ctx → Nat → Nat → Option Nat) (s t : State) (c : Ctx) (ps : List (Nat × Place)),
    atomicStep i = some (g, ty, ord, sc, m, w, f) → s.ctx g = some c →
    (c.exec = [] → exec i s = .next (s.finish c)) ∧
    (c.exec ≠ [] →
      Clear s c m sc { n := ty.width / 8, write := true, atomic := true } (fun x => m.space != .g || isMside x) c.exec t ps →
      ReleaseReady t c (releases ord) w →
      let r := (released t c (releases ord) sc).rmw c.b.core (ty.width / 8) (f s c) ps
      exec i s = .next ((((atomicWrites i s c r.1 r.2).acquire c (acquires ord) sc).finish c).noteOverflow c.b.launch))

/-- Atomic adds of many lanes to one scratchpad word: it takes the sum of all, and each lane answers with the sum of the
lanes before it (05 R115; 11 R250). -/
def Sys2Proof.Claims.AtomicAddsOfOneWordAccumulate : Prop :=
  ∀ (s : State) (core n oc : Nat) (x : Nat → Nat) (lanes : List Nat),
    oc / 0x800000 < 1536 → oc % 0x800000 + n ≤ 0x200000 →
    let old := leNat (s.chipBytes oc n)
    let r := s.rmw core n (fun l o => some ((o + x l) % 2 ^ (8 * n))) (lanes.map fun l => (l, .chip oc))
    leNat (r.2.chipBytes oc n) = (old + (lanes.map x).sum) % 2 ^ (8 * n) ∧
    ∀ i l, lanes[i]? = some l → r.1[i]? = some (l, (old + ((lanes.take i).map x).sum) % 2 ^ (8 * n))

/-- Atomics, and the sum that adds of many lanes to one word leave (05 R115; 11 R250). -/
def Obligations.AtomicsActLaneByLaneAndAccumulate : Prop :=
  AtomicsActLaneByLane ∧ AtomicAddsOfOneWordAccumulate

namespace Sys2Proof.Claims

open Sys2Proof.Machine Sys2Proof.Safety

/-- The checks of LOCK and UNLOCK: the lines of the range with their pages translated, or the fault (19 R419; 21 R468). -/
def rangeFault (s : State) (c : Ctx) (a cnt : Operand) : Option Flt :=
  if c.exec = [] then none
  else
    match s.checkRange c (s.u64 c true c.lead a) (s.u32 c c.lead cnt) with
    | .error f => some { f with lanes := maskOf c.exec }
    | .ok _ => none
def rangeOf (s : State) (c : Ctx) (a cnt : Operand) : List (Nat × Nat) × State :=
  if c.exec = [] then ([], s)
  else
    match s.checkRange c (s.u64 c true c.lead a) (s.u32 c c.lead cnt) with
    | .error _ => ([], s)
    | .ok r => r

/-- The pins of a context's lines on a die set, or cleared (04 R100). -/
def pinLines (m : Cells 1) (c : Ctx) (lines : List (Nat × Nat)) (v : BitVec 1) : Cells 1 :=
  lines.foldl (fun (m : Cells 1) (e : Nat × Nat) =>
    Cells.set m (pinKey c.l.vi c.l.ctx (dieOf c.b.core) e.2) v) m

/-- LOCK and UNLOCK: the status in every executing lane; LOCK pins its lines, which enter the die cache, or none of
them; UNLOCK clears its lines' pins and answers 4 where one was not pinned (04 R100, Table 4.8; 19 R419; 21 R468). -/
def lockOp : Instr → Option RegOp
  | .lock g d a cnt => some
      { everyLane g false d fun s c =>
          BitVec.ofNat 64 ((rangeOf s c a cnt).2.lockStatus c (rangeOf s c a cnt).1) with
        fault := fun s c => rangeFault s c a cnt
        pre := fun s c =>
          let r := rangeOf s c a cnt
          if r.2.lockStatus c r.1 = 0 then
            { r.1.foldl (fun (u : State) (e : Nat × Nat) =>
                (u.dieLine (dieOf c.b.core) (c.l.tag (attrFlags c.l.attrs e.1)) e.2).2) r.2 with
              pins := pinLines r.2.pins c r.1 1 }
          else r.2 }
  | .unlock g d a cnt => some
      { everyLane g false d fun s c =>
          if (rangeOf s c a cnt).1.all fun e =>
            (rangeOf s c a cnt).2.pinned c.l.vi c.l.ctx (dieOf c.b.core) e.2 then 0 else 4 with
        fault := fun s c => rangeFault s c a cnt
        pre := fun s c =>
          let r := rangeOf s c a cnt
          { r.2 with pins := pinLines r.2.pins c r.1 0 } }
  | _ => none

/-- The code that an element access reads: the bytes of the element, with the lane's own gated stores over them
(04 R89; 19 R417). -/
def elementRead (s : State) (c : Ctx) (x : Tile) (row col : Operand) (l : Nat) : Nat :=
  x.gather (s.u32 c l col) ((x.elementBytes (s.u32 c l row) (s.u32 c l col)).flatMap fun e =>
    overlay (tilePlace c.b x e.1) [s.chipByte (spadChip c.b.core (c.b.spadBase + swizzle x.sw e.1))] l c.p.gated)

end Sys2Proof.Claims

/-- LOCK and UNLOCK answer their status in every executing lane (04 R100; 19 R419; 21 R468). -/
def Sys2Proof.Claims.LockAndUnlockAnswerTheirStatus : Prop :=
  CompletesFleper lockOp ∧ CompletesNative lockOp ∧ CompletesSealed lockOp ∧ TurnedAway lockOp

/-- FENCE: its release part writes the caches back, its acquire part empties them. DRAIN waits for remote accesses or for
its tokens; without tokens it makes the earlier accesses perform at its scope. A NONE token faults, a PENDING one holds
the path (05 R117, R118, R125, R127, R128; 18 R383, R393). -/
def Sys2Proof.Claims.FencesAndDrainsOrderAccesses : Prop :=
  ∀ (s : State) (g : Guard) (sc : Scope) (w : Toks) (c : Ctx), s.ctx g = some c → c.exec ≠ [] →
    (∀ kind, ReleaseReady s c (kind != .acq) w → exec (.fence g kind sc w) s = .next
      ((((released s c (kind != .acq) sc).acquire c (kind != .rel) sc).finish c).noteOverflow c.b.launch)) ∧
    (tokList w = [] → s.remotePending c = false →
      exec (.drain g sc w) s = .next (((s.releaseCaches c.b.core sc).finish c).noteOverflow c.b.launch)) ∧
    (tokList w = [] → s.remotePending c = true →
      ∃ t, exec (.drain g sc w) s = .next t ∧ Waits s t c .landing) ∧
    (tokList w ≠ [] → (s.grp c).noneToken (tokList w) = none →
      ((s.grp c).tokensDone (tokList w) = true → exec (.drain g sc w) s = .next (s.finish c)) ∧
      ((s.grp c).tokensDone (tokList w) = false →
        ∃ t, exec (.drain g sc w) s = .next t ∧ Waits s t c (s.tokenWait c (tokList w)))) ∧
    (∀ k, (s.grp c).noneToken (tokList w) = some k →
      exec (.drain g sc w) s = .next (s.raise c (whole c .tokenInvalid k)))

/-- A release at a scope wider than the core leaves nothing dirty in its data cache, one wider than the die nothing dirty
in its die cache; an acquire leaves the core no copy there (04 Table 4.7; 05 R117). -/
def Sys2Proof.Claims.AReleaseLeavesNothingDirty : Prop :=
  ∀ (s : State) (core : Nat) (sc : Scope), AMap.rising s.coreCache = true → AMap.rising s.dieCache = true →
    (1 ≤ serviceLevel sc → ∀ k x, keyUnit k = core →
      (AMap.find? (s.releaseCaches core sc).coreCache k = some x → x.dirty = 0) ∧
      AMap.find? (s.acquireCaches core sc).coreCache k = none) ∧
    (serviceLevel sc = 2 → ∀ k x, keyUnit k = dieOf core →
      (AMap.find? (s.releaseCaches core sc).dieCache k = some x → x.dirty = 0) ∧
      AMap.find? (s.acquireCaches core sc).dieCache k = none)

/-- FENCE, DRAIN, LOCK and UNLOCK, and what a release and an acquire leave in the caches (04 R100; 05 R117). -/
def Obligations.FencesDrainsAndLocksActOnTheCaches : Prop :=
  LockAndUnlockAnswerTheirStatus ∧ FencesAndDrainsOrderAccesses ∧ AReleaseLeavesNothingDirty

/-- POLLBK: one poll acquires and reads the words of the lanes that have read no non-zero value yet. When every executing
lane has one, all the values are written at once and the back-off level is 0 again; else the level rises, to 7 at most,
and the path waits 64 x 2^level cycles (07 R184; 20 R431, R432). -/
def Obligations.PollbkBacksOffUntilEveryLaneSucceeds : Prop :=
  ∀ (s t : State) (g : Guard) (sc : Scope) (d : Operand) (m : MemRef) (c : Ctx) (ps : List (Nat × Place)),
    s.ctx g = some c → c.exec ≠ [] → Clear s c m (atLeastDevice sc) { n := 8 } isMside c.exec t ps →
    let key (l : Nat) : Nat := c.pos * 64 + l
    let r := (t.acquireCaches c.b.core (atLeastDevice sc)).readLanes c 8
      (ps.filter fun e => (AMap.find? c.p.got (key e.1)).isNone)
    let val (l : Nat) : Option Word := (AMap.find? c.p.got (key l)).or
      (((r.1.find? fun e => e.1 == l).map fun e => BitVec.ofNat 64 (leNat e.2)).filter fun x => x != 0)
    ∃ got : AMap Word, (∀ l ∈ c.exec, AMap.find? got (key l) = val l) ∧
      ((∀ l ∈ c.exec, val l ≠ none) → exec (.pollbk g sc d m) s = .next
        ((((r.2.updCur c fun p => { p with got }).updGroup c.cur.grp fun g => { g with backoff := 0 }).write c true d
          (c.exec.map fun l => (l, (val l).getD 0))).finish c)) ∧
      ((∃ l ∈ c.exec, val l = none) → let b := min (c.g.backoff + 1) 7
        exec (.pollbk g sc d m) s = .next
          (((r.2.updCur c fun p => { p with got }).updGroup c.cur.grp fun g => { g with backoff := b }).waitOn c
            (.backoff (s.cycle + 64 * 2 ^ b))))

/-- LDT waits for a READY tile and writes each lane its element, extended as its type; STT, turned away by a tile in
transfer, gates the bits of each lane's element; a wrong format or an element outside the tile faults (04 R89, R91;
19 R417; 21 R456). -/
def Sys2Proof.Claims.TileElementsAreReadAndWritten : Prop :=
  ∀ (s : State) (g : Guard) (ty : STy) (tile : Nat) (row col : Operand) (c : Ctx), s.ctx g = some c → c.exec ≠ [] →
    let x := s.tile c.g.block tile
    let vals := c.exec.map fun l => (l, extendTo ty (elementRead s c x row col l))
    (∀ d, x.state ≠ tileReady → ∃ t, exec (.ldt g ty d tile row col) s = .next t ∧ Waits s t c (.tile tile)) ∧
    (∀ d f, x.state = tileReady → s.elementFault c x tile ty row col = some f →
      exec (.ldt g ty d tile row col) s = .next (s.raise c f)) ∧
    (∀ d, x.state = tileReady → s.elementFault c x tile ty row col = none →
      (c.cur.slot = none → ∃ t, exec (.ldt g ty d tile row col) s = .next t ∧
        Done s (written s c.g d vals) t c c.lanes (fun _ => c.after) false false) ∧
      (∀ y, c.cur.slot = some y → c.p.sealed = false → exec (.ldt g ty d tile row col) s = .next
        (inFlight s c (nativeResults s c y (ty.width == 64) d vals) false false))) ∧
    (∀ a, x.state = tileFilling ∨ x.state = tileDraining →
      exec (.stt g ty tile row col a) s = .next (s.raise c (whole c .tileBusy tile))) ∧
    (∀ a f, x.state = tileEmpty ∨ x.state = tileReady → s.elementFault c x tile ty row col = some f →
      exec (.stt g ty tile row col a) s = .next (s.raise c f)) ∧
    (∀ a, x.state = tileEmpty ∨ x.state = tileReady → s.elementFault c x tile ty row col = none →
      exec (.stt g ty tile row col a) s = .next ((s.gate c (c.exec.flatMap fun l =>
        ((x.elementBytes (s.u32 c l row) (s.u32 c l col)).zip
          (x.scatter (s.u32 c l col) (s.bits c ty l a))).map fun e : (Nat × Byte) × Byte =>
            ({ lane := l, dst := tilePlace c.b x e.1.1, data := [e.2], mask := [e.1.2] } : GStore))).finish c))

/-- An element of a tile written reads back, to the bits its format has, and no other element of the tile changes: not
the other nibble of a byte, nor the other bits of the planes (04 R87, R89; 09 R210, R213). -/
def Sys2Proof.Claims.ATileElementIsItsOwn : Prop :=
  ∀ (s : State) (b : Block) (x : Tile) (r k v : Nat), x.fmt ≤ 14 → r < x.rows → k < x.cols → x.rowBytes ≤ x.pitch * 64 →
    (x.fmt = 14 → x.cols % 32 = 0) → b.core < 1536 →
    b.spadBase + x.base + x.rows * (x.pitch * 64) + 2048 ≤ 2 ^ 21 →
    let t := s.setTileElem b x r k v
    t = { s with spad := t.spad } ∧ t.tileElem b x r k = v % 2 ^ tileBits x.fmt ∧
    ∀ r' < x.rows, ∀ k' < x.cols, (r', k') ≠ (r, k) → t.tileElem b x r' k' = s.tileElem b x r' k'

/-- LDT and STT, and the elements of a tile that they read and write (04 R87 to R91; 19 R417; 21 R456). -/
def Obligations.TileElementsAreReadWrittenAndTheirOwn : Prop :=
  TileElementsAreReadAndWritten ∧ ATileElementIsItsOwn

namespace Sys2Proof.Claims

open Sys2Proof.Machine Sys2Proof.Safety

/-- A queue instruction: its guard, scope, control block, element operand, whether it enqueues, whether it may sleep,
and what it writes of its status (07 R162, R163; 18 R380 to R386). -/
structure QueueInstr where
  guard : Guard
  scope : Scope
  cb : Operand
  elem : ElemForm
  full : Bool
  block : Bool
  status : Ctx → Bool → State → State := fun _ _ s => s

def queueInstr : Instr → Option QueueInstr
  | .enq g sc cb e => some { guard := g, scope := sc, cb, elem := e, full := true, block := true }
  | .enqtry g sc d cb e => some
      { guard := g, scope := sc, cb, elem := e, full := true, block := false
        status := fun c ok s => s.write c false d (c.exec.map fun l => (l, if ok then 1 else 0)) }
  | .deq g sc cb e => some { guard := g, scope := sc, cb, elem := e, full := false, block := true }
  | .deqtry g sc q cb e => some
      { guard := g, scope := sc, cb, elem := e, full := false, block := false
        status := fun c ok s => s.write c false (.p q) (c.exec.map fun l => (l, if ok then 1 else 0)) }
  | _ => none

/-- The physical address of the control block that a queue operation of the path names, `t` the machine after its
translation: every check at issue has passed, and no earlier access of an enqueue is under way (18 R380). -/
def AtHome (s : State) (c : Ctx) (x : QueueInstr) (pa : Nat) (t : State) : Prop :=
  s.controlBlock c (s.u64 c true c.lead x.cb) = .ok (pa, t) ∧ s.elemFaults c x.elem = [] ∧
    (x.full = true → t.remotePending c = false)

/-- What an operation presents to the home: an enqueue writes the caches back first, and carries its elements. -/
def present (t : State) (c : Ctx) (x : QueueInstr) : State :=
  if x.full then t.releaseCaches c.b.core (atLeastDevice x.scope) else t
def presented (s t : State) (c : Ctx) (x : QueueInstr) (pa : Nat) : List (List Byte) :=
  if x.full then
    stampElems ((present t c x).queue pa) ((present t c x).isInternal c.l (s.u64 c true c.lead x.cb)) c.l.lsn
      (c.exec.map (s.elemBytes c x.elem))
  else []

/-- An enqueue on a queue that is not eager, is not internal and is not of an irrevocable launch is deferred to the commit
(06 R154). -/
def defers (s t : State) (c : Ctx) (x : QueueInstr) (pa : Nat) : Bool :=
  x.full && !((present t c x).queue pa).eager
    && !((present t c x).isInternal c.l (s.u64 c true c.lead x.cb)) && !c.l.irrevocable

end Sys2Proof.Claims

/-- The queue instructions. With no executing lane they only go on. At the home an operation is performed (a dequeue
gives each lane its element in lane order and acquires), or faults, or would read a destroyed line, which aborts the
launch with cause 2, or is turned away: then the forms that may sleep wait with their request, the others answer 0 and
go on. A deferred enqueue joins the launch's and answers 1. One that slept ends with the home's answer, its fault or
its elements (06 R154; 07 R162 to R164, R166, R483; 12 R279; 18 R380 to R386). -/
def Obligations.QueueInstructionsActAtTheHome : Prop :=
  ∀ (i : Instr) (x : QueueInstr) (s : State) (c : Ctx), queueInstr i = some x → s.ctx x.guard = some c →
    (c.exec = [] → exec i s = .next (s.finish c)) ∧
    (c.exec ≠ [] → c.pos ∉ c.p.woken → ∀ pa t, AtHome s c x pa t →
      let v := present t c x
      let n := c.exec.length
      let es := presented s t c x pa
      (defers s t c x pa = false →
        (∀ f u, v.homeTry pa (t.launchSpace c.l) c.party x.full n (elemSize x.elem) x.block es = .fault f u →
          exec i s = .next (u.raise c { f with lanes := maskOf c.exec })) ∧
        (∀ r u, v.homeTry pa (t.launchSpace c.l) c.party x.full n (elemSize x.elem) x.block es = .done r u →
          exec i s = .next ((if x.full then x.status c true u
            else (x.status c true (u.takeElems c x.elem r)).acquireCaches c.b.core (atLeastDevice x.scope)).finish c)) ∧
        (∀ u, v.homeTry pa (t.launchSpace c.l) c.party x.full n (elemSize x.elem) x.block es = .turned u →
          exec i s = .next (if x.block then
              (u.addRequest pa (s.u64 c true c.lead x.cb) (.group c.cur.grp (maskOf c.exec)) x.full n es).waitOn c
                (.queue pa x.full n)
            else (x.status c false u).finish c)) ∧
        (∀ u, v.homeTry pa (t.launchSpace c.l) c.party x.full n (elemSize x.elem) x.block es = .lost u →
          exec i s = .next (u.beginAbort c.b.launch 2 0 u.time))) ∧
      (defers s t c x pa = true → v.homeSound pa (t.launchSpace c.l) c.party = none →
        (v.queue pa).countFault n (elemSize x.elem) x.block = none →
        exec i s = .next (((x.status c true (((v.bindHome pa c.party).serve pa).updLaunch c.b.launch fun l =>
          { l with deferred := l.deferred ++
              [{ cb := s.u64 c true c.lead x.cb, esize := elemSize x.elem, elems := es }] })).finish c).noteOverflow
            c.b.launch))) ∧
    (c.exec ≠ [] → c.pos ∈ c.p.woken →
      (c.p.replyFault = none → exec i s = .next ((if x.full then s
        else (x.status c true (s.takeElems c x.elem c.p.reply)).acquireCaches c.b.core
          (atLeastDevice x.scope)).finish c)) ∧
      (∀ f, c.p.replyFault = some f → exec i s = .next
        ((s.updCur c fun p =>
          { p with replyFault := none, woken := p.woken.filter fun y => y != c.pos }).raise c
            { f with lanes := maskOf c.exec })))

/-- The home judges an operation in this order: the right to the queue, which a core has on the die that the queue is
bound to, the control block, the element area, the element size, the number of elements, the blocking form; one that
passes is turned away while its condition does not hold or an earlier request waits for it, and else performs, unless
it would read what an error has destroyed; only one that does not fault binds its die; and after each the list is
looked at again (07 R159 to R164, R166, R486; 12 R279). -/
def Obligations.TheHomeJudgesAnOperationInOrder : Prop :=
  ∀ (s : State) (cb : Nat) (sp : Space2) (who : Party) (full block : Bool) (n size : Nat) (es : List (List Byte)),
    let run := s.homeTry cb sp who full n size block es
    let q := s.queue cb
    let h := s.home cb
    (s.homeAllows cb who = true ↔ match who with
      | .agent vi => s.ownsQueue vi cb = true
      | .device vi ctx => s.ownsQueue vi cb = true ∧ (q.owner = 0 ∨ q.owner = ctx)
      | .core vi ctx die => s.ownsQueue vi cb = true ∧ (q.owner = 0 ∨ q.owner = ctx) ∧
          (q.mdie = true ∨ h.bound = none ∨ h.bound = some die)) ∧
    (s.homeAllows cb who = false → run = .fault { code := .permission, detail := 4 } (s.serve cb)) ∧
    (s.homeAllows cb who = true →
      (h.corrupt = 0 → s.poisoned 0 (cb / 64) = true → run = .lost ((s.loseQueue cb).serve cb)) ∧
      (h.corrupt ≠ 0 ∨ s.poisoned 0 (cb / 64) = false →
        (s.corruption cb ≠ 0 → run = .fault { code := .queueCorrupt, detail := s.corruption cb }
          ((s.setHome cb { h with corrupt := s.corruption cb }).serve cb)) ∧
        (s.corruption cb = 0 →
          (∀ f, areaFlags sp.attrs q.base (q.cap * q.esize) = .error f → run = .fault f (s.serve cb)) ∧
          (areaFlags sp.attrs q.base (q.cap * q.esize) = .ok () →
            (size ≠ q.esize → run = .fault { code := .queueElementSize, detail := size } (s.serve cb)) ∧
            (size = q.esize → q.cap < n ∨ (block = true ∧ q.blk = false) →
              run = .fault { code := .illegalOperand, detail := 1 } (s.serve cb)) ∧
            (size = q.esize → n ≤ q.cap → (block = true → q.blk = true) →
              (((if full then q.free else q.count) < n ∨ ∃ r ∈ h.wake ++ h.polling, r.full = full) →
                run = .turned ((s.bindHome cb who).serve cb)) ∧
              (n ≤ (if full then q.free else q.count) → (∀ r ∈ h.wake ++ h.polling, r.full ≠ full) →
                (s.queueLost cb sp full n = true → run = .lost ((s.loseQueue cb).serve cb)) ∧
                (s.queueLost cb sp full n = false →
                  (∀ f, s.homePerform cb sp full n es = .error f → run = .fault f (s.serve cb)) ∧
                  ∀ r u, s.homePerform cb sp full n es = .ok (r, u) →
                    run = .done r ((u.bindHome cb who).serve cb))))))))

/-- An enqueue puts its elements at the tail, a dequeue takes them from the head, in order, wrapping at the end of the
area; either moves its end by the number of elements and the free slots with it; no other field of the control block
changes (07 R160, R162, R163). The parts are where the element bytes lie, apart from one another and from the block. -/
def Obligations.AQueueIsFirstInFirstOut : Prop :=
  ∀ (s t : State) (cb n : Nat) (sp : Space2) (full : Bool) (pas : List (Nat × Nat)),
    let q := s.queue cb
    let slot (j : Nat) : Nat := q.base + ((if full then q.tail else q.head) + j) % q.cap * q.esize
    let bytes : List Nat := pas.flatMap fun e => span e.1 e.2
    cb % 64 = 0 → isControlRow cb = false → q.esize % 8 = 0 → q.esize ≠ 0 → q.free + n < 2 ^ 32 →
    s.partAddrs sp ((span 0 n).flatMap fun j => lineParts (slot j) q.esize) = .ok (pas, t) →
    t.memBytes cb 64 = s.memBytes cb 64 → (bytes.map cellOf).Nodup → (∀ e ∈ pas, e.1 % 64 + e.2 ≤ 64) →
    (∀ a ∈ bytes, isControlRow a = false ∧ ∀ i < 64, cellOf a ≠ cellOf (cb + i)) →
    (full = true → n ≤ q.free → ∀ es : List (List Byte), es.length = n → (∀ e ∈ es, e.length = q.esize) →
      ∃ u, s.homePerform cb sp true n es = .ok ([], u) ∧
        u.queue cb = { q with tail := (q.tail + n) % 2 ^ 64, free := q.free - n } ∧
        pas.flatMap (fun e => u.memBytes e.1 e.2) = es.flatMap id) ∧
    (full = false → ∃ es u, s.homePerform cb sp false n [] = .ok (es, u) ∧
      u.queue cb = { q with head := (q.head + n) % 2 ^ 64, free := q.free + n } ∧
      es.length = n ∧ (∀ e ∈ es, e.length = q.esize) ∧ es.flatMap id = pas.flatMap fun e => s.memBytes e.1 e.2)

/-- QINIT leaves an empty queue that passes every check of its control block (07 R157 to R159, R165; 20 R434). -/
def Sys2Proof.Claims.AFreshQueueIsSoundAndEmpty : Prop :=
  ∀ base log2 flags esize owner : Nat, base < 2 ^ 64 → 1 ≤ log2 → log2 ≤ 20 → flags < 16 → 8 ≤ esize → esize ≤ 256 →
    esize % 8 = 0 → owner < 2 ^ 32 →
    let bs := freshBlock base log2 flags esize owner
    bs.length = 64 ∧ failedCheck bs = 0 ∧
    queueOf bs = { head := 0, tail := 0, base, log2, flags, esize, free := 2 ^ log2, owner, code := checkCode bs, rest := 0 }

/-- QINIT and QSTAT: checked at issue, QINIT writes a fresh control block, faults whoever waited and unbinds the queue;
QSTAT reads the counts and the flags of a sound queue (07 R165, R171; 20 R434, R435). -/
def Sys2Proof.Claims.QinitAndQstatActOnTheControlBlock : Prop :=
  (∀ (s t : State) (g : Guard) (sc : Scope) (cb base shape : Operand) (c : Ctx) (pa : Nat), s.ctx g = some c →
    c.exec ≠ [] →
    let b := s.u64 c true c.lead base
    let w := s.u64 c true c.lead shape
    (∀ f, s.qinitFault c (s.u64 c true c.lead cb) b w = some f →
      exec (.qinit g sc cb base shape) s = .next (s.raise c { f with lanes := maskOf c.exec })) ∧
    (s.qinitFault c (s.u64 c true c.lead cb) b w = none →
      s.controlBlock c (s.u64 c true c.lead cb) (areaFlags c.l.attrs b (2 ^ bitsOf w 0 8 * bitsOf w 16 16)) =
        .ok (pa, t) → t.remotePending c = false →
      let v := t.releaseCaches c.b.core (atLeastDevice sc)
      (v.corruption pa ≠ 0 ∨ (v.queue pa).owner = 0 ∨ (v.queue pa).owner = c.l.ctx) →
      exec (.qinit g sc cb base shape) s = .next
        ((v.initQueue pa (freshBlock b (bitsOf w 0 8) (bitsOf w 8 4) (bitsOf w 16 16) (bitsOf w 32 32))).finish c) ∧
      ((v.initQueue pa (freshBlock b (bitsOf w 0 8) (bitsOf w 8 4) (bitsOf w 16 16) (bitsOf w 32 32))).home pa) = {})) ∧
  ∀ (s t : State) (g : Guard) (sc : Scope) (d cb : Operand) (c : Ctx) (pa : Nat), s.ctx g = some c → c.exec ≠ [] →
    s.controlBlock c (s.u64 c true c.lead cb) = .ok (pa, t) → t.homeSound pa (t.launchSpace c.l) c.party = none →
    let q := t.queue pa
    exec (.qstat g sc d cb) s = .next (((((t.bindHome pa c.party).serve pa).write c true d (c.exec.map fun l =>
      (l, BitVec.ofNat 64 (q.count % 2 ^ 24 + 2 ^ 24 * (q.free % 2 ^ 24) + 2 ^ 48 * q.flags)))).acquireCaches
        c.b.core sc).finish c)

/-- QINIT, QSTAT and the control block that QINIT writes (07 R157 to R165; 20 R434, R435). -/
def Obligations.QinitAndQstatActOnASoundControlBlock : Prop :=
  AFreshQueueIsSoundAndEmpty ∧ QinitAndQstatActOnTheControlBlock

namespace Sys2Proof.Claims

open Sys2Proof.Machine Sys2Proof.Safety

/-- A command as an instruction hands it over: what is done before, the ranges whose lines are written back, the
operation (05 R125; 11 R241 to R243). -/
structure Order where
  tk : Nat
  prep : State
  sources : List (Nat × Nat)
  op : EngineOp

/-- The checks of FLUSH and INVAL in their order (11 R249; 18 R396; 19 R412). -/
def careChecks (c : Ctx) (x : Context) (va n : Nat) : List (Option Flt) :=
  [if n < 1 ∨ 2 ^ 30 < n then some { code := .illegalOperand, detail := 2 } else none,
   if 2 ^ 64 < va + n ∨ canonical x.satp va = false ∨ canonical x.satp (va + n - 1) = false then
     some (permFault 1 va)
   else none,
   claimFault c.l false va n]

/-- The operation of FLUSH, INVAL or TRIG: the parameters it carries. -/
def plainOrder (s : State) (c : Ctx) (kind : EngineKind) (sc : Scope) (tk : Nat) (params : List Byte) : Order :=
  { tk, prep := s, sources := []
    op := { kind, launch := c.b.launch, block := c.g.block, grp := c.cur.grp, core := c.b.core, vpc := s.vpc c
            lanes := maskOf c.exec, token := 0, waits := [], scope := sc, params } }

/-- The addresses of a COPY: 32 bits outside the global and window spaces. -/
def cutTo (sp : Space) (a : Nat) : Nat := if sp = .g ∨ sp = .w then a else a % 2 ^ 32

/-- The block of a COPY and its count, from the operands or the staging set (11 Table 11.2; 18 R378). -/
def copyParams (s : State) (c : Ctx) : Option CopyArgs → List Byte × Nat
  | some r => s.copyBlock c r
  | none =>
    let bs := (span 0 8).flatMap fun k => leBytes 8 (Cells.get c.p.staging k).toNat
    (bs, field bs 16 4)

/-- The checks of a COPY in their order (11 R245, R246; 18 R378, R379): the block, the alignment of either operand,
their spaces, the read set of a global source, the write set and the control rows of a global destination, an overlap in
one space, the barrier page. -/
def copyChecks (s : State) (c : Ctx) (bs : List Byte) (n : Nat) : List (Option Flt) :=
  let op := s.command c .copy .core bs
  let dsp := op.dstSpace
  let ssp := op.srcSpace
  let dst := cutTo dsp op.dst
  let src := cutTo ssp op.src
  let kind := field bs 22 1
  [faultIf (n < 8 || decide (2 ^ 30 < n) || n % 8 != 0 || decide (16 ≤ field bs 20 1) || decide (7 ≤ field bs 21 1)
      || decide (2 < kind) || (kind == 1 && decide (64 ≤ field bs 23 1)) || field bs 24 40 != 0) blockFault,
   faultIf (dst % 8 != 0) { code := .align, detail := 8, addr := dst },
   faultIf (src % 8 != 0) { code := .align, detail := 8, addr := src },
   s.copyOperand c dsp dst n true, s.copyOperand c ssp src n false,
   if ssp = .g then claimFault c.l false src n else none,
   if dsp = .g then claimFault c.l true dst n else none,
   if dsp = .g then s.controlFault c dst n else none,
   faultIf (dsp == ssp && overlapping dst n src n) blockFault,
   faultIf (dsp == .l && touchesPage (s.stageOf c.b c.l).spadSize dst n) (permFault 5 dst)]

/-- The order of a COPY that passes its checks with the arrival it names. -/
def copyOrder (s : State) (c : Ctx) (tk : Nat) (bs : List Byte) (n : Nat) (tile : Option Nat)
    (link : Option (Nat × Nat)) : Order :=
  let op := s.command c .copy ((Scope.ofCode (bitsOf (field bs 21 1) 0 3)).getD .core) bs
  { tk, prep := s.beginFill c.g.block tile link
    sources := if op.srcSpace = .g then [(cutTo .g op.src, n)] else []
    op := { op with tile, link, total := if link.isSome then n else 0 } }

/-- The checks of TLOAD and TSTORE on their block (11 Table 11.3; 21 R462). -/
def tensorBad (bs : List Byte) (store release : Bool) : Bool :=
  field bs 3 1 != store.toNat + 2 * release.toNat || decide (64 ≤ field bs 2 1) || decide (7 ≤ field bs 4 1)
    || field bs 5 3 != 0 || field bs 28 36 != 0

/-- The checks of REDUCE on its block (11 Table 11.5; 20 R436). -/
def reduceBad (bs : List Byte) : Bool :=
  decide (field bs 24 4 < 1) || decide (2 ^ 28 < field bs 24 4) || decide (field bs 28 1 < 1)
    || decide (16 < field bs 28 1) || decide (1 < field bs 29 1) || decide (field bs 31 1 < 4)
    || decide (6 < field bs 31 1) || field bs 8 8 % 64 != 0 || (field bs 30 1 == 1 && field bs 8 8 != 0)
    || decide (1 < field bs 30 1) || field bs 48 16 != 0

/-- The sources of a REDUCE: by stride, or read from its table (11 R255). -/
def reduceSources (s : State) (c : Ctx) (bs : List Byte) : List Nat :=
  (span 0 (field bs 28 1)).map fun k =>
    if field bs 30 1 == 1 then s.tableWord c (field bs 0 8 + 8 * k)
    else (field bs 0 8 + k * field bs 8 8) % 2 ^ 64

/-- The operands of a ROWOP with their addresses, the destination first. -/
def rowOperands (kind : RowKind) (bs : List Byte) : List (Nat × Nat) :=
  (span 0 (1 + rowSources kind)).map fun i => (i, field bs (8 * i) 8)

/-- An engine instruction that is in none of the states in which it faults or waits: its consumed tokens are not NONE,
the token it makes is not PENDING (05 R125). -/
def TokensReady (c : Ctx) (tk : Nat) (w : Toks) : Prop :=
  c.g.noneToken (tokList w) = none ∧ c.g.pend.getLsbD tk = false

/-- It hands its order over, and the path goes on. -/
def HandsOver (i : Instr) (s : State) (c : Ctx) (w : Toks) (o : Order) : Prop :=
  exec i s = .next (o.prep.handOver c o.tk w o.sources o.op)

end Sys2Proof.Claims

/-- FLUSH, INVAL and TRIG: checked in order, then handed over (11 R249; 13 R293; 18 R396; 19 R412; 21 R467). -/
def Sys2Proof.Claims.MaintenanceAndTriggersAreHandedOver : Prop :=
  ∀ (s : State) (g : Guard) (sc : Scope) (tk : Nat) (w : Toks) (a cnt : Operand) (c : Ctx), s.ctx g = some c →
    c.exec ≠ [] →
    (∀ x f, s.context c.l.vi c.l.ctx = some x →
      (careChecks c x (s.u64 c true c.lead a) (s.u64 c true c.lead cnt)).findSome? id = some f →
      exec (.flush g sc tk w a cnt) s = .next (s.raise c { f with lanes := maskOf c.exec }) ∧
      exec (.inval g sc tk w a cnt) s = .next (s.raise c { f with lanes := maskOf c.exec })) ∧
    (∀ x, s.context c.l.vi c.l.ctx = some x →
      (careChecks c x (s.u64 c true c.lead a) (s.u64 c true c.lead cnt)).findSome? id = none →
      TokensReady c tk w →
      let params := leBytes 8 (s.u64 c true c.lead a) ++ leBytes 8 (s.u64 c true c.lead cnt)
      HandsOver (.flush g sc tk w a cnt) s c w (plainOrder s c .flush sc tk params) ∧
      HandsOver (.inval g sc tk w a cnt) s c w (plainOrder s c .inval sc tk params)) ∧
    (∀ action mask, c.g.pend.getLsbD tk = false →
      HandsOver (.trig g action tk mask) s c {} (plainOrder s c .trig .fabric tk
        (treadleBytes action.code c.l.vi s.device ((mask.map fun o => s.u32 c c.lead o).getD 0) s.time
          (c.l.lsn % 2 ^ 48))))

/-- COPY, TLOAD, TSTORE, REDUCE and ROWOP whose checks pass are handed over: a COPY or a TLOAD with a tile makes it
FILLING on its slot, a TSTORE makes its tile DRAINING; the first check that fails is the fault, and nothing is handed
over (04 R91, R95; 11 R241 to R261; 18 R378, R379; 20 R436, R442, R443; 21 R462, R463). -/
def Sys2Proof.Claims.EngineCommandsAreHandedOver : Prop :=
  ∀ (s : State) (g : Guard) (tk : Nat) (w : Toks) (c : Ctx), s.ctx g = some c → c.exec ≠ [] → TokensReady c tk w →
    (∀ args, let p := copyParams s c args
      (∀ f, (copyChecks s c p.1 p.2).findSome? id = some f →
        exec (.copy g tk w args) s = .next (s.raise c { f with lanes := maskOf c.exec })) ∧
      ((copyChecks s c p.1 p.2).findSome? id = none →
        let op := s.command c .copy .core p.1
        ∀ tile link, s.copyArrival c (field p.1 22 1) (field p.1 23 1) (cutTo op.dstSpace op.dst) p.2 op.dstSpace =
            .ok (tile, link) →
          HandsOver (.copy g tk w args) s c w (copyOrder s c tk p.1 p.2 tile link))) ∧
    (∀ src bs ds, s.paramBlock c 2 src = .ok bs → let k := field bs 2 1
      let sc := (Scope.ofCode (field bs 4 1)).getD .core
      let t := s.tile c.g.block k
      s.descriptor c (field bs 0 2) = .ok ds → s.tensorFault c false k (tensorReq (bs ++ ds) t) = none →
      tensorBad bs false false = false → t.state ≠ tileFilling → t.state ≠ tileDraining →
      ∀ link, s.tileLink c.b c.l t = .ok link →
        HandsOver (.tload g tk w src) s c w
          { tk, prep := s.beginFill c.g.block (some k) (some link), sources := (tensorReq (bs ++ ds) t).lines
            op := { s.command c .tload sc (bs ++ ds) with tile := some k, link := some link, total := t.bytes } }) ∧
    (∀ src release bs ds, s.paramBlock c 2 src = .ok bs → let k := field bs 2 1
      let sc := (Scope.ofCode (field bs 4 1)).getD .core
      let t := s.tile c.g.block k
      s.descriptor c (field bs 0 2) = .ok ds → s.tensorFault c true k (tensorReq (bs ++ ds) t) = none →
      tensorBad bs true release = false → t.state = tileReady →
        HandsOver (.tstore g release tk w src) s c w
          { tk, prep := s.setTileState c.g.block k tileDraining, sources := []
            op := { s.command c .tstore sc (bs ++ ds) with tile := some k } }) ∧
    (∀ src bs, s.paramBlock c 3 src = .ok bs → reduceBad bs = false →
      let table := field bs 30 1 == 1
      let a := field bs 0 8
      let n := 8 * field bs 28 1
      let v := if table then s.writeBackRange c a n else s
      let op := v.command c .reduce ((Scope.ofCode (field bs 31 1)).getD .device)
        (bs ++ (reduceSources v c bs).flatMap (leBytes 8))
      (table = true → a % 8 = 0 ∧ s.checkPages c false a n = none ∧ attrFault c.l isFabric a n = none ∧
        claimFault c.l false a n = none ∧ ∀ k < field bs 28 1, v.tableLost c (a + 8 * k) = false) →
      v.reduceFault c op = none →
        HandsOver (.reduce g tk w src) s c w
          { tk, prep := v, sources := (reduceSources v c bs).map fun a => (a, op.redSize), op }) ∧
    (∀ kind args, let b := s.rowBlock c kind args
      let ops := rowOperands kind b.1
      let n := field b.1 24 2
      b.2 = none → (∀ e ∈ ops, e.2 % 1024 = 0 ∧ s.rowOperand c e.1 e.2 n = none) →
        HandsOver (.rowop g kind tk w args) s c w
          { tk, prep := s, sources := (ops.drop 1).map fun e => (e.2, 1024 * n), op := s.command c .rowop .device b.1 })

/-- Every engine instruction, checked in its order and handed over (11 R241 to R261). -/
def Obligations.EngineInstructionsAreHandedOver : Prop :=
  MaintenanceAndTriggersAreHandedOver ∧ EngineCommandsAreHandedOver

/-- A command handed over is an operation of its engine that waits for the operations of its group whose tokens it
consumes; its token is PENDING and no longer DONE, the others stand; the path goes on (05 R125, R126; 11 R242). -/
def Sys2Proof.Claims.AHandOverMakesItsTokenPending : Prop :=
  ∀ (s : State) (gd : Guard) (c : Ctx) (tk : Nat) (w : Toks) (op : EngineOp), s.ctx gd = some c → tk < 16 →
    AMap.rising s.engines = true →
    let t := s.handOver c tk w [] op
    ∃ x, AMap.find? t.engines s.next = some { op with token := tk, waits := x } ∧
      (∀ k, k ∈ x ↔ ∃ y, AMap.find? s.engines k = some y ∧ y.grp = c.cur.grp ∧ y.orphan = false ∧
        y.token ∈ tokList w) ∧
      (∀ k, k ≠ s.next → AMap.find? t.engines k = AMap.find? s.engines k) ∧
      ∀ h, AMap.find? t.groups c.cur.grp = some h →
        h.pend.getLsbD tk = true ∧ h.done.getLsbD tk = false ∧
        ∀ i < 16, i ≠ tk → h.pend.getLsbD i = c.g.pend.getLsbD i ∧ h.done.getLsbD i = c.g.done.getLsbD i

namespace Sys2Proof.Claims

open Sys2Proof.Machine Sys2Proof.Safety

/-- An engine operation that may act: it has started and waits on no page, its block and its launch are there (04 R110;
05 R126). -/
def ActingOp (s : State) (key : Nat) (op : EngineOp) (b : Block) (l : Launch) : Prop :=
  AMap.find? s.engines key = some op ∧ op.started = true ∧ op.stall = none ∧
    AMap.find? s.blocks op.block = some b ∧ AMap.find? s.launches op.launch = some l

/-- The units of an operand have their places, and a source none that is poisoned: `t` is the machine after the
translations. -/
def Placed (s : State) (op : EngineOp) (b : Block) (l : Launch) (sp : Space) (n : Nat) (write : Bool) (as : List Nat)
    (ps : List Place) (t : State) : Prop :=
  s.enginePlaces op b l sp n write as = (.ok ps, t) ∧ (write = false → ∀ p ∈ ps, t.poisonedAt p = false)

/-- What an operation has to perform once it starts (11 R245 to R263). -/
def startsWith (s : State) (op : EngineOp) : List Nat :=
  match op.kind with
  | .copy => op.pieces
  | .tload => (tensorReq op.params (s.tile op.block (op.tile.getD 0))).parts false
  | .tstore => (tensorReq op.params (s.tile op.block (op.tile.getD 0))).parts true
  | .reduce => op.redGranules
  | .rowop => [0]
  | .flush | .inval | .trig => []

end Sys2Proof.Claims

/-- ENGINE_START: an operation starts when every operation it waits for has ended, and only then; FLUSH and INVAL act on
the lines of their range at once, and the message of a TRIG leaves (05 R126; 11 R249; 13 R291). -/
def Sys2Proof.Claims.AnEngineOperationStartsAfterItsTokens : Prop :=
  ∀ (s : State) (key : Nat) (op : EngineOp) (l : Launch), AMap.find? s.engines key = some op →
    AMap.find? s.launches op.launch = some l →
    (op.started = true ∨ op.stall ≠ none ∨ (∃ k ∈ op.waits, AMap.find? s.engines k ≠ none) →
      exec (.engineStart key) s = .next s) ∧
    (op.started = false → op.stall = none → (∀ k ∈ op.waits, AMap.find? s.engines k = none) →
      let v := s.setEngine key { op with started := true, todo := startsWith s op }
      (op.kind ∈ [.copy, .tload, .tstore, .reduce, .rowop] → exec (.engineStart key) s = .next v) ∧
      (op.kind = .trig → exec (.engineStart key) s = .next
        { v with
          sent := s.sent ++ [.treadle (treadleOf op.params)]
          agenda := s.agenda ++ [.treadleMessageReceive (treadleOf op.params)] }) ∧
      (op.kind ∈ [.flush, .inval] → ∀ x ls t, s.context l.vi l.ctx = some x →
        s.rangeLines op.core x.satp (s.iface l.vi).hgatp (pagesOf (field op.params 0 8) (field op.params 8 8)) =
          .ok (ls, t) →
        exec (.engineStart key) s = .next
          ((t.maintain op.core (if op.scope = .die then [dieOf op.core] else span 0 8) l (op.kind == .inval)
            ls).setEngine key { op with started := true })))

/-- Tokens: what a hand-over makes of them, and when an operation that consumes them starts (05 R125, R126). -/
def Obligations.TokensOrderEngineOperations : Prop :=
  AHandOverMakesItsTokenPending ∧ AnEngineOperationStartsAfterItsTokens

/-- SHUTTLE_PIECE, BATTEN_GRANULE_REDUCTION, ROW_OPERATION_ROW: each performs its part of the operation and takes it
off what is left; a COPY goes on when it is the one of its die served longest ago, the older on a tie, and its bytes
land in order of its 8-byte units, those for a peer when they have performed; a row operation goes through its rows by
8-byte units, each the bitwise function of its sources (07 R176; 11 R246, R247, R257, R262, R263, Table 11.8). -/
def Obligations.EnginesPerformTheirPartsOnce : Prop :=
  ∀ (s : State) (key x : Nat) (op : EngineOp) (b : Block) (l : Launch), ActingOp s key op b l →
    (op.kind = .copy → x ∈ op.todo →
      let n := pieceEnd op.granules op.count x - x
      let units (a : Nat) : List Nat := (span 0 (n / 8)).map fun i => a + x + 8 * i
      ∀ ps t qs u, Placed s op b l op.srcSpace 8 false (units op.src) ps t →
        Placed t op b l op.dstSpace 8 true (units op.dst) qs u →
        let r := u.engineReads op.core false 8 ps
        let v := (qs.zip r.1).foldl (fun v e => v.engineWrite key op e.1 e.2 []) r.2
        let here := n - 8 * (qs.filter Place.isPeer).length
        (∀ k y, (k, y) ∈ s.engines → y.kind = .copy → y.started = true → y.stall = none → y.todo ≠ [] →
          dieOf y.core = dieOf op.core → op.served < y.served ∨ (op.served = y.served ∧ key ≤ k)) →
        exec (.shuttlePiece key x) s = .next (({ v.setEngine key { op with
            todo := op.todo.filter fun y => y != x
            landed := if op.link.isSome then op.landed + here else op.landed
            served := v.next } with next := v.next + 1 } : State).noteOverflow op.launch)) ∧
    (op.kind = .reduce → x ∈ op.todo →
      let z := if field op.params 29 1 = 0 then 4 else 2
      exec (.battenGranuleReduction key x) s = .next (s.reduceElements key op b l
        (fun t => (t.setEngine key { op with todo := op.todo.filter fun y => y != x }).noteOverflow op.launch)
        ((span 0 (field op.params 24 4)).filter fun i => (field op.params 16 8 + i * z) / 4096 == x)) ∧
      ∀ (i : Nat) (is : List Nat) (done : State → State) ps t q u,
        Placed s op b l .g z false (op.redSources.map fun a => a + i * z) ps t →
        Placed t op b l .g z true [op.redDst + i * z] [q] u →
        let r := u.engineReads op.core true z ps
        s.reduceElements key op b l done (i :: is) =
          (r.2.engineWrite key op q (leBytes z (reduceElement (z == 2) (r.1.map leNat))) []).reduceElements key op b l
            done is) ∧
    (op.kind = .rowop → ∀ rest, op.todo = x :: rest →
      ∀ ps t q u, Placed s op b l .g 8 false
          ((span 0 (rowSources op.rowKind)).map fun k => field op.params (8 + 8 * k) 8 + 8 * x) ps t →
        Placed t op b l .g 8 true [op.dst + 8 * x] [q] u →
        let src (k j : Nat) : Byte := ((ps.map fun p => u.memBytes p.addr 8).getD k []).getD j 0
        let v := u.putBytes q.addr ((span 0 8).map fun j =>
          match op.rowKind with
          | .copy => src 0 j
          | .zero => 0
          | .ones => 0xFF
          | .and => src 0 j &&& src 1 j
          | .or => src 0 j ||| src 1 j
          | .not => ~~~src 0 j
          | .xor => src 0 j ^^^ src 1 j)
        exec (.rowOperationRow key) s = .next
          ((if q.addr % 64 = 56 then { v with poison := Cells.set v.poison (shadowKey 0 (q.addr / 64)) 0 } else v).setEngine
            key { op with todo := if x + 1 < 128 * field op.params 24 2 then [x + 1] else [] }))

/-- TENSOR_PART_PERFORM goes through the elements of its part in tile order: a TLOAD gives an element out of range the
selvedge value and one in range the code in memory, a TSTORE writes the codes of the elements in range (04 R94, R95; 11
R248). -/
def Obligations.TensorPartsMoveTheirElements : Prop :=
  ∀ (s : State) (key part : Nat) (op : EngineOp) (b : Block) (l : Launch), ActingOp s key op b l → part ∈ op.todo →
    let q := tensorReq op.params (s.tile op.block (op.tile.getD 0))
    let todo := op.todo.filter fun y => y != part
    let left := (q.tile.elements.filter fun e => todo.contains (q.part e)).length
    let landed := if op.link.isSome then (op.total * 8 - left * tileBits q.tile.fmt) / 8 else 0
    let done (t : State) : State := (t.setEngine key { op with todo, landed }).noteOverflow op.launch
    let mine := q.tile.elements.filter fun e => q.part e == part
    (op.kind = .tload → exec (.tensorPartPerform key part) s = .next (s.fillElements key op b l q done mine)) ∧
    (op.kind = .tstore → exec (.tensorPartPerform key part) s = .next (s.storeElements key op b l q done mine)) ∧
    (∀ (v : State) (e : Nat × Nat) es, q.element e.1 e.2 = none →
      v.fillElements key op b l q done (e :: es) =
        (v.setTileElem b q.tile e.1 e.2 q.tensor.selvedge).fillElements key op b l q done es ∧
      v.storeElements key op b l q done (e :: es) = v.storeElements key op b l q done es) ∧
    (∀ (v t : State) (e : Nat × Nat) es i ps, q.element e.1 e.2 = some i →
      let bytes := q.tensor.elementBytes i
      (Placed v op b l .g 1 false (bytes.map fun x => x.1) ps t →
        let r := t.engineReads op.core false 1 ps
        v.fillElements key op b l q done (e :: es) =
          (r.2.setTileElem b q.tile e.1 e.2 (q.tile.gather (i.getD 0 0) r.1.flatten)).fillElements key op b l q done es) ∧
      (Placed v op b l .g 1 true (bytes.map fun x => x.1) ps t →
        let codes := q.tile.scatter (i.getD 0 0) (v.tileElem b q.tile e.1 e.2)
        v.storeElements key op b l q done (e :: es) =
          ((ps.zip (codes.zip (bytes.map fun x => x.2))).foldl
            (fun u y => u.engineWrite key op y.1 [y.2.1] [y.2.2]) t).storeElements key op b l q done es))

/-- ENGINE_BYTES_ARRIVE counts the landed bytes on the slot, unless they overrun it; TOKEN_DONE ends an operation that
has nothing left to do: its token is DONE, and the paths that wait for tokens go on (05 R125; 07 R176; 11 R244). -/
def Obligations.AnEngineOperationEndsWithItsToken : Prop :=
  ∀ (s : State) (key : Nat) (op : EngineOp) (b : Block) (l : Launch), ActingOp s key op b l →
    (∀ n t u, op.link = some (n, t) → op.counted < op.landed →
      s.arriveBytes op.block b l n t (op.landed - op.counted) = some u →
      exec (.engineBytesArrive key) s = .next (u.setEngine key { op with counted := op.landed })) ∧
    (∀ n t, op.link = some (n, t) → op.counted < op.landed →
      (s.slotAt b l n t).bytes < op.landed - op.counted →
      exec (.engineBytesArrive key) s = .next (s.engineFault key op (slotFault n t))) ∧
    (op.todo ≠ [] → exec (.tokenDone key) s = .next s) ∧
    (op.todo = [] → (op.link = none ∨ op.counted = op.landed) → (∀ e ∈ s.remote, e.2.op ≠ some key) →
      op.kind ∈ [.copy, .tload, .flush, .inval, .trig] → op.orphan = false → ∀ g, AMap.find? s.groups op.grp = some g →
      ∃ t, exec (.tokenDone key) s = .next t ∧
        t = { s with engines := AMap.del s.engines key, groups := t.groups } ∧
        (∀ k, k ≠ op.grp → AMap.find? t.groups k = AMap.find? s.groups k) ∧
        AMap.find? t.groups op.grp = some { g with
          pend := g.pend &&& ~~~(1#16 <<< op.token), done := g.done ||| 1#16 <<< op.token
          paths := g.paths.map fun p => match p.wait with
            | .token _ => { p with wait := .none, met := false }
            | .stalled _ => { p with wait := .none, met := true }
            | _ => p })

namespace Sys2Proof.Claims

open Sys2Proof.Machine Sys2Proof.Safety

/-- The matrix unit of the core takes the path: it is not withheld, and no other group owns it (01 R19; 08 R204). -/
def unitFree (s : State) (c : Ctx) : Bool :=
  !s.withheld.contains c.b.core &&
    ((s.coreRegs c.b.core).owner == none || (s.coreRegs c.b.core).owner == some c.cur.grp)

/-- The machine once the unit is the group's: what another context left in it is cleared, and a run has begun (02 R26; 08
R204). -/
def taken (s : State) (c : Ctx) : State :=
  let r := s.coreRegs c.b.core
  let x := ctxKey c.l.vi c.l.ctx
  let other := r.lastCtx != some x
  let v := if other then s.clearMatrix c.b.core else s
  (v.setCoreRegs c.b.core
    { r with owner := some c.cur.grp, lastCtx := some x, rowMask := if other then [0, 0] else r.rowMask }).updCur c
      fun p => if p.run = 0 then { p with run := 1 } else p

/-- A fault of one or more lanes: the lowest faulting lane's, with the lanes that raised it (17 R340). -/
def ofLanes (fs : List (Nat × Flt)) : Option Flt :=
  fs.head?.map fun e => { e.2 with lanes := maskOf ((fs.filter fun x => x.2.code == e.2.code
    && x.2.detail == e.2.detail).map fun x => x.1) }

/-- An instruction of the matrix unit: its guard, the token and the tile it waits for, whether the unit lets it go on
once taken, its fault, and what it makes of the machine `u` once the unit is taken. -/
structure MatrixOp where
  guard : Guard
  token : Option Nat := none
  tile : Option Nat := none
  ready : State → Ctx → Bool := fun _ _ => true
  fault : State → Ctx → Option Flt := fun _ _ => none
  does : State → Ctx → State → State → Prop

/-- What it waits for before it takes the unit (05 R125; 10 R233), and the fault of a tile that is not READY after the
first matrix instruction of a region. -/
def MatrixOp.awaits (op : MatrixOp) (s : State) (c : Ctx) : Option Wait :=
  match op.token, op.tile with
  | some k, _ => if (s.grp c).pend.getLsbD k then some (s.tokenWait c [k]) else
      match op.tile with
      | some n => if (s.tile c.g.block n).state ≠ tileReady ∧ c.afterMatrix = false then some (.tile n) else none
      | none => none
  | none, some n => if (s.tile c.g.block n).state ≠ tileReady ∧ c.afterMatrix = false then some (.tile n) else none
  | none, none => none
def MatrixOp.early (op : MatrixOp) (s : State) (c : Ctx) : Option Flt :=
  match op.tile with
  | some n => if (s.tile c.g.block n).state ≠ tileReady then some (whole c .tileBusy n) else none
  | none => none

/-- What a latch holds now: its class, and its lines from the first. -/
def latchNow (s : State) (core n : Nat) : BitVec 8 × Cells 512 :=
  (s.latchTag core n, Cells.slice s.latches (latchKey core n 0 0) (latchKey core (n + 1) 0 0))

/-- A latch holds the codes of some lines; the other latches of the device are as they were (09 R213; 10 R224, R225). -/
def Filled (u v : State) (core n : Nat) (f : ETy) (p : Nat) (lines : List Nat) (code : Nat → Nat → Nat) : Prop :=
  (∀ line ∈ lines, ∀ k < fillDepth f p, ∀ x, latchCode (latchNow v core n) x f p line k =
    if f = .bpi then code line k / 2 ^ (8 - p) else code line k) ∧
  (∀ k, k < latchKey core n 0 0 ∨ latchKey core (n + 1) 0 0 ≤ k → Cells.get v.latches k = Cells.get u.latches k) ∧
  ∀ k, k ≠ core * 10 + n → Cells.get v.latchTags k = Cells.get u.latchTags k

/-- A GATHER: the rows of its executing lanes below 16 are filled and make the row mask; the fill is under way for 4 core
cycles at least, and the region keeps it for its commit (10 R225; 19 R402, R403). -/
def Gathered (c : Ctx) (i : Instr) (f : ETy) (p gl : Nat) (row : Nat → Nat → Nat) (u v : State) : Prop :=
  let r := u.coreRegs c.b.core
  v = { (u.updCur c fun q => { q with
          held := q.held ++ [{ instr := i, lanes := maskOf c.exec, vpc := u.vpc c }] }).setCoreRegs c.b.core
        { r with rowMask := setAt r.rowMask gl ((maskOf (gatherRows c)).setWidth 16)
                 filling := updAt (fun l => l ++ [u.cycle + 4]) r.filling gl } with
      latches := v.latches, latchTags := v.latchTags, free := v.free } ∧
  Filled u v c.b.core (8 + gl) f p (gatherRows c) row

/-- The 32-bit elements of one tile, or of a run of tiles from `base`, take the values that a function gives them; every
other keeps its value. -/
def Became (old new : Cells 32) (base : Nat) (val : Nat → Option Nat) : Prop :=
  (∀ e x, val e = some x → Cells.get new (base + e) = BitVec.ofNat 32 x) ∧
  ∀ k, (∀ e x, val e = some x → k ≠ base + e) → Cells.get new k = Cells.get old k

/-- The results of an MMA in element (i, j) of its tile, block after block (10 R226 to R228). -/
def mmaResults (u : State) (c : Ctx) (fa fb : ETy) (p q : Nat) (flag : Bool) (acc gl sl i j : Nat) : List AccRes :=
  mmaElement fa fb p q (mmaBlocks fa p q) flag
    (Cells.get u.acc (accKey c.b.core (c.b.accBase + acc) (i * 32 + j))).toNat
    (latchCode (u.latchSeen c.b.core (8 + gl)) u.free fa p i)
    (latchCode (u.latchSeen c.b.core sl) (u.free + 16384) fb q j)

/-- The instructions of the matrix unit (10 R223 to R239; 17 R343 to R347; 19 R401 to R403, R413; 20 R422 to R424). -/
def matrixOp : Instr → Option MatrixOp
  | .latch g f q row col lat n => some
      { guard := g, tile := some n
        fault := fun s c =>
          let t := s.tile c.g.block n
          let k := s.u32 c c.lead col
          if t.cfg = false ∨ t.fmt ≠ f.code ∨ k % 32 ≠ 0 ∨ t.rows < s.u32 c c.lead row + 32 ∨
              t.cols < k + fillDepth f q then some (whole c .tileShape n)
          else none
        does := fun s c u v =>
          v = { u with latches := v.latches, latchTags := v.latchTags, latchOld := v.latchOld, free := v.free } ∧
          (c.cur.slot = none → v.latchOld = u.latchOld) ∧
          Filled u v c.b.core lat f q (span 0 32) fun line k =>
            s.tileElem c.b (s.tile c.g.block n) (s.u32 c c.lead row + line) (s.u32 c c.lead col + k) }
  | .gatherTile g f p tk gl n idx col => some
      { guard := g, token := some tk, tile := some n
        fault := fun s c =>
          let t := s.tile c.g.block n
          let k := s.u32 c c.lead col
          if t.cfg = false ∨ t.fmt ≠ f.code ∨ k % 32 ≠ 0 ∨ t.cols < k + fillDepth f p ∨
              (∃ l ∈ gatherRows c, t.rows ≤ s.u32 c l idx) then some (whole c .tileShape n)
          else none
        does := fun s c => Gathered c (.gatherTile g f p tk gl n idx col) f p gl fun l k =>
          s.tileElem c.b (s.tile c.g.block n) (s.u32 c l idx) (s.u32 c c.lead col + k) }
  | .gatherSpad g f p tk gl sw off => some
      { guard := g, token := some tk
        fault := fun s c => ofLanes (laneFaults (gatherRows c) fun l =>
          let o := s.u32 c l off
          if o % 16 ≠ 0 then some { code := .align, detail := 16, addr := o }
          else if (s.stageOf c.b c.l).spadSize < o + fillDepth f p * elementBits f / 8 then
            some { code := .permission, detail := 3, addr := o }
          else none)
        does := fun s c => Gathered c (.gatherSpad g f p tk gl sw off) f p gl fun l k =>
          (s.spadCodes c sw (s.u32 c l off) (fillDepth f p) f).getD k 0 }
  | .mma g fa fb p q flag acc gl sl => some
      { guard := g
        ready := fun u c => (u.coreRegs c.b.core).filling.getD gl [] == []
        does := fun _ c u v =>
          let rows := (span 0 16).filter fun i => ((u.coreRegs c.b.core).rowMask.getD gl 0).getLsbD i
          let res := mmaResults u c fa fb p q flag acc gl sl
          let all := rows.flatMap fun i => (span 0 32).flatMap fun j => res i j
          let w := u.flag c (all.any fun r => r.sat) (all.any fun r => r.inv)
          let on (e : Nat) : Prop := e / 32 ∈ rows
          (c.cur.slot = none → v.accOld = u.accOld ∧ v.ptOld = u.ptOld) ∧
          if flag = true ∧ intPair fa = false then
            v = { w with pt := v.pt, ptOld := v.ptOld, free := u.free + 32768 } ∧
            Became u.pt v.pt (accKey c.b.core acc 0) fun e =>
              if e / 512 < mmaBlocks fa p q ∧ e % 512 / 32 ∈ rows then
                ((res (e % 512 / 32) (e % 32))[e / 512]?).map fun r => r.val
              else none
          else
            v = { w with acc := v.acc, accOld := v.accOld, free := u.free + 32768 } ∧
            Became u.acc v.acc (accKey c.b.core (c.b.accBase + acc) 0) fun e =>
              if on e then ((res (e / 32) (e % 32)).getLast?).map fun r => r.val else none }
  | .accscale g acc pt ta ts n origin => some
      { guard := g
        fault := fun s c =>
          let a := s.tile c.g.block ta
          let b := s.tile c.g.block ts
          let o := s.u32 c c.lead origin
          let bad (t : Tile) (rows : Nat) : Prop := t.fmt ≠ ETy.code .e8m0 ∨ t.rows < rows ∨ t.cols < o + n
          if a.state ≠ tileReady then some (whole c .tileBusy ta)
          else if b.state ≠ tileReady then some (whole c .tileBusy ts)
          else if bad a 16 then some (whole c .tileShape ta)
          else if bad b 32 then some (whole c .tileShape ts)
          else none
        does := fun s c u v =>
          let o := s.u32 c c.lead origin
          let tile := c.b.accBase + acc
          let res (e : Nat) : Nat × Bool := scaleElement (Cells.get u.acc (accKey c.b.core tile e)).toNat
            ((span 0 n).map fun k => ((u.ptSeen c.b.core (pt + k) e).toNat,
              s.tileElem c.b (s.tile c.g.block ta) (e / 32) (o + k), s.tileElem c.b (s.tile c.g.block ts) (e % 32) (o + k)))
          v = { u.flag c false ((span 0 512).any fun e => (res e).2) with acc := v.acc, accOld := v.accOld } ∧
          (c.cur.slot = none → v.accOld = u.accOld) ∧
          Became u.acc v.acc (accKey c.b.core tile 0) fun e => if e < 512 then some (res e).1 else none }
  | .accwr g f acc n => some
      { guard := g
        fault := fun s c =>
          let t := s.tile c.g.block n
          if t.state ≠ tileReady then some (whole c .tileBusy n)
          else if t.rows ≠ 16 ∨ t.cols ≠ 32 ∨ t.fmt ≠ f.code then some (whole c .tileShape n)
          else none
        does := fun s c u v =>
          v = { u with acc := v.acc, accOld := v.accOld } ∧ (c.cur.slot = none → v.accOld = u.accOld) ∧
          Became u.acc v.acc (accKey c.b.core (c.b.accBase + acc) 0) fun e =>
            let x := s.tileElem c.b (s.tile c.g.block n) (e / 32) (e % 32)
            if 512 ≤ e then none
            else some (if f = .f16 ∨ f = .bf16 then rne32 (elementValue f x) else x) }
  | .accclr g pt n k => some
      { guard := g
        does := fun _ c u v =>
          (c.cur.slot = none → v.accOld = u.accOld ∧ v.ptOld = u.ptOld) ∧
          let zero (e : Nat) : Option Nat := if e < k * 512 then some 0 else none
          if pt then v = { u with pt := v.pt, ptOld := v.ptOld } ∧ Became u.pt v.pt (accKey c.b.core n 0) zero
          else v = { u with acc := v.acc, accOld := v.accOld } ∧
            Became u.acc v.acc (accKey c.b.core (c.b.accBase + n) 0) zero }
  | .accrd g f i32 rm n acc => some
      { guard := g
        fault := fun s c =>
          let t := s.tile c.g.block n
          if t.state = tileFilling ∨ t.state = tileDraining then some (whole c .tileBusy n)
          else if t.cfg = false ∨ t.rows ≠ 16 ∨ t.cols ≠ 32 ∨ t.fmt ≠ f.code then some (whole c .tileShape n)
          else none
        does := fun _ c u v => v = u.updCur c fun q => { q with
          held := q.held ++ [{ instr := .accrd g f i32 rm n acc, lanes := maskOf c.exec, vpc := u.vpc c }] } }
  | _ => none

end Sys2Proof.Claims

/-- An instruction of the matrix unit waits for its token and its tile, then takes the unit or waits for it, and acts
once for the path; one whose latch is still being filled waits for that (01 R19; 08 R204; 10 R223 to R239). -/
def Obligations.MatrixInstructionsActOnTheUnit : Prop :=
  ∀ (i : Instr) (op : MatrixOp) (s : State) (c : Ctx), matrixOp i = some op → i.wf = true → s.ctx op.guard = some c →
    (∀ w, c.exec ≠ [] → op.awaits s c = some w → ∃ t, exec i s = .next t ∧ Waits s t c w) ∧
    (c.exec ≠ [] → op.awaits s c = none → ∀ f, op.early s c = some f → exec i s = .next (s.raise c f)) ∧
    (c.exec = [] ∨ (op.awaits s c = none ∧ op.early s c = none) →
      (unitFree s c = false → ∃ t, exec i s = .next t ∧ Waits s t c .matrix) ∧
      (unitFree s c = true → let u := taken s c
        (c.exec = [] → exec i s = .next (u.finish c)) ∧
        (c.exec ≠ [] → op.ready u c = false → ∃ gl, exec i s = .next (u.waitOn c (.latch gl))) ∧
        (c.exec ≠ [] → op.ready u c = true →
          (∀ f, op.fault s c = some f → exec i s = .next (u.raise c f)) ∧
          (op.fault s c = none → ∃ v, op.does s c u v ∧ exec i s = .next (v.finish c)))))

/-- An integer MMA adds the products of every block to its accumulator element, modulo 2^32 (10 R228; 20 R423). -/
def Obligations.AnIntegerMmaAddsItsDotProduct : Prop :=
  ∀ (fa fb : ETy) (p q old : Nat) (x y : Nat → Nat), intPair fa = true → 1 ≤ p → p ≤ 8 → 1 ≤ q → q ≤ 8 → old < 2 ^ 32 →
    ∃ r, (mmaElement fa fb p q (mmaBlocks fa p q) false old x y).getLast? = some r ∧ r.sat = false ∧ r.inv = false ∧
      (r.val : Int) = ((old : Int) + ((span 0 (32 * mmaBlocks fa p q)).map fun k =>
        latchInt fa p (x k) * latchInt fb q (y k)).sum) % 2 ^ 32

namespace Sys2Proof.Claims

open Sys2Proof.Machine Sys2Proof.Safety

/-- What an agent of the device does of its own accord: when it is due, and what it makes of the machine. -/
structure Event where
  due : State → Prop
  eff : State → State

/-- An event happens where it is due, and elsewhere changes nothing. -/
def Happens (table : Instr → Option Event) : Prop :=
  ∀ (i : Instr) (e : Event) (s : State), table i = some e →
    (e.due s → exec i s = .next (e.eff s)) ∧ (¬ e.due s → exec i s = .next s)

/-- A path of a group. -/
def PathAt (s : State) (gk i : Nat) (g : Group) (p : Path) : Prop :=
  AMap.find? s.groups gk = some g ∧ g.paths[i]? = some p

/-- A path that stood at a blocking point and waits no longer: the condition there is met, and it looks again (02 R45). -/
def resumed (s : State) (gk i : Nat) : State := s.updPath gk i fun p => { p with wait := .none, met := true }

/-- A path that is woken at a blocking point: the slot that waited passes when it is issued again. -/
def wokenUp (s : State) (gk i : Nat) : State :=
  s.updPath gk i fun p => { p with wait := .none, met := true, woken := p.waiter :: p.woken }

/-- The events of the sequencers that need no operand of the state but their own unit: a group leaves a path that has
issued 64 bundles, that may not be selected while another may, or that is none; a fill of a gather latch ends no sooner
than 4 core cycles after its issue; polling waiters offer their requests again; a bobbin is drawn that is full or old
enough, or when every group of its block stands at a blocking point; matrix issue is withheld; the results of variable
latency of a path land, unless an irreversible slot of its bundle has yet to perform (01 R19; 02 R30, R36; 03 R58, R63; 07
R166; 10 R225). -/
def sequencerEvent : Instr → Option Event
  | .pathRotation gk => some
      { due := fun s => ∃ g, AMap.find? s.groups gk = some g ∧
          ((g.issuingIndex = none ∧ ∃ p ∈ g.paths, p.entry ≠ none ∧ s.selectable g p = true) ∨
            ∃ i p, g.issuingIndex = some i ∧ g.paths[i]? = some p ∧
              (64 ≤ p.turn ∨ s.selectable g p = false) ∧ g.nextEntry (s.selectable g) (p.entry.getD 0) ≠ none)
        eff := fun s => { s.updGroup gk (fun g => g.rotate (s.selectable g) s.next) with next := s.next + 1 } }
  | .gatherComplete core gl => some
      { due := fun s => ∃ t ts, (s.coreRegs core).filling.getD gl [] = t :: ts ∧ t ≤ s.cycle
        eff := fun s =>
          let r := s.coreRegs core
          (s.setCoreRegs core { r with filling := setAt r.filling gl (r.filling.getD gl []).tail }).wakeCore core fun w =>
            match w with
            | .latch _ => true
            | _ => false }
  | .queuePollReoffer cb => some
      { due := fun _ => True
        eff := fun s => ((s.setHome cb { s.home cb with offer := false }).offerAll cb (s.home cb).polling).serve cb }
  | .bobbinDraw core bob => some
      { due := fun s => ∃ x, AMap.find? s.bobbins (core * 64 + bob) = some x ∧
          (x.threads.length = 64 ∨ x.born + x.limit ≤ s.cycle ∨
            ∀ e ∈ s.groups, e.2.block = x.block → ∀ p ∈ e.2.paths, p.wait.blocking = true)
        eff := fun s => s.drawBobbin (core * 64 + bob) }
  | .powerWithhold core => some
      { due := fun s => core ∉ s.withheld
        eff := fun s => { s with withheld := s.withheld ++ [core] } }
  | .resultArrival gk i => some
      { due := fun s => ∃ g p, PathAt s gk i g p ∧ p.sealed = false
        eff := fun s => s.landIf gk i fun e => e.due.isNone }
  | _ => none

/-- The groups of a core that may issue (08 R202). -/
def ableGroups (s : State) (core : Nat) : AMap Group := (s.coreGroups core).filter fun e => (s.eligible e.2).isSome

end Sys2Proof.Claims

/-- The events of the sequencers (01 R19; 02 R30, R36; 03 R58; 07 R166; 10 R225). -/
def Sys2Proof.Claims.SequencerEventsHappenWhenTheyAreDue : Prop := Happens sequencerEvent

/-- The core cycle as a selection finds it: the groups that are to leave their issuing paths have left them (02 R30). -/
def Sys2Proof.Claims.readied (s : State) (core : Nat) : State :=
  (s.setCoreRegs core { s.coreRegs core with turn := s.free }).rotateDue core

/-- The sequencer chooses, of the groups of its core that may issue once those that are to rotate have rotated, one
that has been passed over for 1,024 cycles if there is one, the one passed over longest; else the group of lowest
back-off level, then the oldest placement, then the lowest context. ISSUE_STARVATION_LIMIT makes the first choice
only. What is selected is the path by which the group may issue; a group chosen starts again at 0 passed over (08
R202). -/
def Sys2Proof.Claims.TheSequencerChoosesByStarvationThenBackoffThenAge : Prop :=
  ∀ (s : State) (core : Nat),
    let late (u : State) := (ableGroups u core).filter fun e => decide (1024 ≤ e.2.passed)
    (∀ e ∈ late s, ∃ f ∈ late s, exec (.issueStarvationLimit core) s = .next (s.select core f.1) ∧
      e.2.passed ≤ f.2.passed) ∧
    (late s = [] → exec (.issueStarvationLimit core) s = .next s) ∧
    (let u := readied s core;
      (∀ e ∈ late u, ∃ f ∈ late u, exec (.groupSelect core) s = .next (u.select core f.1) ∧
        e.2.passed ≤ f.2.passed) ∧
      (late u = [] → ∀ e ∈ ableGroups u core, ∃ f ∈ ableGroups u core,
        exec (.groupSelect core) s = .next (u.select core f.1) ∧
        (f.2.backoff < e.2.backoff ∨ (f.2.backoff = e.2.backoff ∧
          (f.2.placed < e.2.placed ∨ (f.2.placed = e.2.placed ∧ f.2.gid ≤ e.2.gid))))) ∧
      (ableGroups u core = [] → exec (.groupSelect core) s =
        .next (u.passCycle (fun c => c == core) (u.coreGroups core))) ∧
      (AMap.rising s.groups = true → ∀ k g, AMap.find? s.groups k = some g →
        ∃ h, AMap.find? u.groups k = some h ∧ h.lanes = g.lanes ∧ h.passed = g.passed ∧
          (s.rotates g = false → h = g))) ∧
    ∀ gk, (s.select core gk).cycle = s.cycle + 1 ∧
      ∀ g, AMap.find? (s.select core gk).groups gk = some g → g.passed = 0 ∧
        (s.select core gk).cur = ((s.select core gk).eligible g).map fun i => { grp := gk, path := i }

/-- The sequencers: their events, and the group that is chosen to issue (02 R30; 08 R202). -/
def Obligations.SequencersChooseAndTheirEventsHappen : Prop :=
  SequencerEventsHappenWhenTheyAreDue ∧ TheSequencerChoosesByStarvationThenBackoffThenAge

/-- What a path waits for outside its core: a load from a peer returns and wakes it or is refused and faults; a window
held back goes on once its target stands; a poll goes on when its back-off is over; a walk fills the translation
structures (04 R85, R108; 07 R184; 14 R309). -/
def Sys2Proof.Claims.WaitingPathsGoOnWithTheirEvent : Prop :=
  (∀ (s : State) (gk i k : Nat) (g : Group) (p : Path), PathAt s gk i g p → p.wait = .remote k →
    let (bad, t) := s.peerRefuses
    let u : State := { t with remote := AMap.del s.remote k }
    (bad = false → exec (.remoteLoadReturn gk i) s = .next (wokenUp u gk i)) ∧
    (bad = true → let addr := ((AMap.find? s.remote k).map fun r => r.addr).getD 0
      exec (.remoteLoadReturn gk i) s =
        .next (u.raiseAt gk i { code := .windowDenied, detail := 0x3FF, addr, lanes := p.mask }))) ∧
  (∀ (s : State) (gk i h : Nat) (g : Group) (p : Path) (b : Block) (l : Launch), PathAt s gk i g p →
    p.wait = .window h → AMap.find? s.blocks g.block = some b → AMap.find? s.launches b.launch = some l →
    let x := grantAt (s.imageBytes l) h
    (∀ y, AMap.find? s.blocks (blockKey l x.stage x.block) = some y →
      (y.st = .retired ∨ (y.onCore = true ∧ y.moving = none) →
        exec (.remoteLoadReturn gk i) s = .next (resumed s gk i)) ∧
      (y.st ≠ .retired → (y.onCore = false ∨ y.moving ≠ none) →
        exec (.remoteLoadReturn gk i) s = .next s)) ∧
    (AMap.find? s.blocks (blockKey l x.stage x.block) = none → exec (.remoteLoadReturn gk i) s = .next s)) ∧
  (∀ (s : State) (gk i t : Nat) (g : Group) (p : Path), PathAt s gk i g p → p.wait = .backoff t →
    exec (.pollbkBackoffExpire gk i) s = .next (if t ≤ s.cycle then resumed s gk i else s.updPath gk i id)) ∧
  ∀ (s t : State) (core lk va : Nat) (e : TlbEntry) (write : Bool) (l : Launch) (x : Context), AMap.find? s.launches lk = some l →
    s.context l.vi l.ctx = some x → canonical x.satp va = true → s.walkLost x.satp (s.iface l.vi).hgatp va = false →
    s.walkAndFill core x.satp (s.iface l.vi).hgatp va write = .ok (e, t) →
    exec (.pageWalk core lk va write) s = .next t

/-- An access under way performs: a held window store writes its bytes at the target that stands again, or faults where
the target has retired; a store to a peer is acknowledged, or refused, which freezes its block. One that is not
answered in 200 µs ends its launch with cause 2 (04 R85; 05 R127; 14 R309). -/
def Sys2Proof.Claims.AccessesUnderWayPerformOrFault : Prop :=
  ∀ (s : State) (acc : Nat) (r : Remote) (b : Block) (l : Launch), AMap.find? s.remote acc = some r →
    AMap.find? s.blocks r.block = some b → AMap.find? s.launches b.launch = some l →
    (r.load = false → r.window = false → let (bad, t) := s.peerRefuses
      (bad = false → exec (.accessPerformedAtPointOfService acc) s = .next ((t.performed acc r).landRemote r)) ∧
      (bad = true → exec (.accessPerformedAtPointOfService acc) s = .next
        ((t.performed acc r).freeze r.block r.gid r.vpc r.op.isSome
          { code := .windowDenied, detail := 0x3FF, addr := r.addr, lanes := r.lanes }))) ∧
    (r.load = false → r.window = true → let h := bitsOf r.addr 48 8
      (s.windowHeld l h = true → exec (.accessPerformedAtPointOfService acc) s = .next s) ∧
      (s.windowHeld l h = false → ∀ p, s.resolveW l r.sw r.addr { n := r.data.length, write := true } = .ok p →
        exec (.accessPerformedAtPointOfService acc) s = .next ((s.performed acc r).writePlace r.core p r.data)) ∧
      (s.windowHeld l h = false → ∀ f, s.resolveW l r.sw r.addr { n := r.data.length, write := true } = .fault f →
        exec (.accessPerformedAtPointOfService acc) s = .next ((s.performed acc r).freeze r.block r.gid r.vpc
          r.op.isSome { f with lanes := r.lanes }))) ∧
    (r.window = false → (s.cycle < r.issued + 210000 → exec (.fabricAccessTimeout acc) s = .next s) ∧
      (r.issued + 210000 ≤ s.cycle → exec (.fabricAccessTimeout acc) s = .next
        ((s.performed acc r).beginAbort b.launch 2 0 s.time))) ∧
    (AMap.rising s.remote = true → AMap.find? (s.performed acc r).remote acc = none) ∧
    (∀ k o n, r.op = some k → AMap.find? s.engines k = some o → o.link = some n →
      AMap.find? (s.landRemote r).engines k = some { o with landed := o.landed + r.data.length }) ∧
    (AMap.rising s.groups = true → ∀ k g, AMap.find? s.groups k = some g → g.block = r.block →
      AMap.find? (s.performed acc r).groups k = some { g with
        paths := g.paths.map fun p => if p.wait = .landing then { p with wait := .none, met := false } else p })

/-- What paths wait for outside their core, and accesses under way (04 R85, R108; 05 R127; 14 R309). -/
def Obligations.WaitsAndAccessesUnderWayEnd : Prop :=
  WaitingPathsGoOnWithTheirEvent ∧ AccessesUnderWayPerformOrFault

/-- The end of a matrix region: it waits while a gather latch is being filled; then what it kept is handed over in
order, the unit goes free and its flags join the group's. A GATHER's token is DONE; a SATARM arms its block; an ACCRD
converts its accumulator tile into the elements of its tile, in transfer on its slot, and its bytes arrive there (03
R62; 10 R225, R231, R238; 17 R345; 21 R446). -/
def Obligations.ARegionCommitHandsOverWhatItKept : Prop :=
  (∀ (s : State) (c : Ctx), s.ctx .always = some c → (s.coreRegs c.b.core).owner = some c.cur.grp → c.p.run ≠ 0 →
    s.regionEnds c.b c.l c.p = true → c.p.wait.blocking = false → c.p.wait ≠ .fault → c.p.mask ≠ 0 →
    ((∃ l ∈ (s.coreRegs c.b.core).filling, l ≠ []) →
      ∃ t, exec .regionCommit s = .next t ∧ Waits s t c (.latch 0)) ∧
    ((∀ l ∈ (s.coreRegs c.b.core).filling, l = []) → c.p.held = [] →
      (∀ e ∈ s.blocks, e.1 = c.g.block → e.2.st ≠ .frozen) → c.p.inflight = [] →
      s.accOld = [] → s.ptOld = [] → s.latchOld = [] →
      (∀ j q, c.g.paths[j]? = some q → q.run ≠ 0 → j = c.cur.path) →
      (∀ j q, c.g.paths[j]? = some q → q.pc = c.p.pc → s.regionEnds c.b c.l q = true → j = c.cur.path) →
      ∃ (t : State) (g : Group), exec .regionCommit s = .next (t.noteOverflow c.b.launch) ∧ AMap.find? t.groups c.cur.grp = some g ∧
        (t.coreRegs c.b.core).owner = none ∧
        g.sat = ((c.g.sat && !c.p.clrSat) || c.p.sat) ∧ g.inv = ((c.g.inv && !c.p.clrInv) || c.p.inv) ∧
        (∀ p ∈ g.paths, p.run = 0) ∧ ∀ lane pc, standsAt g.paths lane pc ↔ standsAt c.g.paths lane pc)) ∧
  (∀ (s : State) (c : Ctx) (h : Held) (hs : List Held), s.ctx .always = some c →
    (∀ e ∈ s.blocks, e.1 = c.g.block → e.2.fault = none) →
    (∀ f p tk gl n idx col g, h.instr = .gatherTile g f p tk gl n idx col →
      s.commitHeld c (h :: hs) = (s.setDone c.cur.grp tk).commitHeld c hs) ∧
    (∀ f p tk gl sw off g, h.instr = .gatherSpad g f p tk gl sw off →
      s.commitHeld c (h :: hs) = (s.setDone c.cur.grp tk).commitHeld c hs) ∧
    (∀ g, h.instr = .satarm g →
      s.commitHeld c (h :: hs) = (s.updBlock c.g.block fun b => { b with armed := true }).commitHeld c hs)) ∧
  ∀ (s : State) (gd : Guard) (c : Ctx) (h : Held) (f : ETy) (i32 : Bool) (rm : Rounding) (n acc k t : Nat),
    s.ctx gd = some c → PageInScratch s c.b c.l → rm ≠ .rs →
    let x := s.tile c.g.block n
    x.cfg = true → x.state ≠ tileFilling → x.state ≠ tileDraining → s.tileLink c.b c.l x = .ok (k, t) →
    x.fmt = f.code → x.rows = 16 → x.cols = 32 → x.rowBytes ≤ x.pitch * 64 →
    c.b.spadBase + x.base + 16 * (x.pitch * 64) + 2048 ≤ 2 ^ 21 →
    let code (e : Nat) : Nat := (convertTo f rm 0 (let a := (Cells.get s.acc (accKey c.b.core (c.b.accBase + acc) e)).toNat
      if i32 then intValue (signedOf 32 a) else fmtF32.value a)).code
    ∃ u : State, (∀ e < 512, u.tileElem c.b x (e / 32) (e % 32) = code e % 2 ^ tileBits x.fmt) ∧
      (u.tile c.g.block n).state = tileFilling ∧ AMap.find? u.fills (c.g.block * 64 + n) = some (k, t) ∧
      s.commitAccrd c h f i32 rm n acc =
        match u.arriveBytes c.g.block c.b c.l k t (512 * elementBits f / 8) with
        | some v => v
        | none => u.freeze c.g.block c.g.gid h.vpc true { slotFault k t with lanes := h.lanes }

/-- Which of two places of a stage the placer tries sooner: those from its pointer on, then those before it, each in
increasing number (08 R199). -/
def Sys2Proof.Claims.Sooner (pointer a b : Nat) : Prop :=
  (pointer ≤ a ∧ (b < pointer ∨ a < b)) ∨ (a < pointer ∧ b < pointer ∧ a < b)

/-- The placer of a stage takes its lowest EVICTED block, else its next new one, to the first core from its pointer on
that has room in every allocator, and the pointer moves past that core; a quad goes to the first cluster that has room on
each core, and a member that has retired stays so. A block that no core can take is first new demand for cores (02 R25; 08
R189, R199, R200). -/
def Sys2Proof.Claims.ThePlacerTakesTheFirstCoreFromItsPointer : Prop :=
  ∀ (s : State) (lk stage i : Nat) (new : Bool) (l m : Launch) (r : StageRun), AMap.find? s.launches lk = some l →
    let u := if s.lacksCores l then (s.demandCores l).resumeLaunch lk else s
    AMap.find? u.launches lk = some m → m.stages[stage]? = some r → m.issues = true → m.descheduled = false →
    let x := stageAt (u.imageBytes m) stage
    let old := u.evictedOf m stage
    (old = [] → x.blocks ≤ r.nextPending → exec (.blockPlace lk stage) s = .next u) ∧
    ((new = false ∧ old.head? = some i) ∨ (new = true ∧ old = [] ∧ i = r.nextPending ∧ i < x.blocks) →
      (x.quad = false →
        ((∀ core ∈ r.cores, u.fits core x = none) → exec (.blockPlace lk stage) s = .next u) ∧
        ∀ core a, core ∈ r.cores → r.cores.Pairwise (fun c d => c < d) → u.fits core x = some a →
          (∀ c ∈ r.cores, Sooner r.pointer c core → u.fits c x = none) →
          exec (.blockPlace lk stage) s = .next ((u.placeOn lk m stage i core a).updStage lk stage fun r =>
            { r with pointer := core + 1, nextPending := r.nextPending + if new then 1 else 0 })) ∧
      (x.quad = true →
        (u.clusterFor r x = none → exec (.blockPlace lk stage) s = .next u) ∧
        ∀ k, u.clusterFor r x = some k →
          (∀ q < 4, ∀ b, AMap.find? u.blocks (blockKey m stage (i / 4 * 4 + q)) = some b → b.onCore = false) →
          ∃ t : State, exec (.blockPlace lk stage) s = .next (t.updStage lk stage fun r =>
              { r with pointer := k + 1, nextPending := r.nextPending + if new then 4 else 0 }) ∧
            ∀ q < 4, let key := blockKey m stage (i / 4 * 4 + q)
              (u.retiredAt m stage (i / 4 * 4 + q) = true → AMap.find? t.blocks key = AMap.find? u.blocks key) ∧
              (u.retiredAt m stage (i / 4 * 4 + q) = false →
                ∃ b, AMap.find? t.blocks key = some b ∧ b.core = 4 * k + q ∧ b.onCore = true)))

/-- Where the next block of a stage fits on no core and none is being moved, the compactor begins on the core that
needs the fewest bytes moved: a settled block of it goes to a free place of one resource. When the move ends the block
holds its new ranges, with what the old ones held (08 R201). -/
def Sys2Proof.Claims.TheCompactorMovesOneBlockAtATime : Prop :=
  (∀ (s : State) (lk stage : Nat) (l : Launch) (r : StageRun), AMap.find? s.launches lk = some l →
    l.stages[stage]? = some r → l.issues = true → l.descheduled = false →
    let x := stageAt (s.imageBytes l) stage
    s.movingOn (r.cores ++ r.leaving) = none → s.nextBlock l stage r ≠ none → x.quad = false →
    ((∃ core ∈ r.cores, s.fits core x ≠ none) → exec (.compactorMove lk stage) s = .next s) ∧
    ((∀ core ∈ r.cores, s.fits core x = none) → ∀ core n, core ∈ r.cores → s.compactCost x core = some n →
      ∃ best k, best ∈ r.cores ∧ s.compactCost x best = some k ∧ k ≤ n ∧
        exec (.compactorMove lk stage) s = .next (s.beginMove x best))) ∧
  (∀ (s : State) (core bk : Nat) (x : Stage) (a b c : List (Nat × Nat)) (n : Nat) (new : Nat × Nat × Nat),
    AMap.rising s.blocks = true → s.compaction core x = some (a, b, c, n) → s.firstMove core a b c = some (bk, new) →
    s.beginMove x core = s.updBlock bk (fun b => { b with moving := some new }) ∧
    ∃ y z, (bk, y, z) ∈ s.coreBlocks core ∧ s.settled bk y = true ∧
      ∀ e ∈ s.coreBlocks core, e.1 ≠ bk → ∀ w ∈ e.2.1.bases,
        (new.1 = y.spadBase ∨ w.1 + e.2.2.spadSize ≤ new.1 ∨ new.1 + z.spadSize ≤ w.1) ∧
        (new.2.1 = y.regBase ∨ w.2.1 + e.2.2.regRange ≤ new.2.1 ∨ new.2.1 + z.regRange ≤ w.2.1) ∧
        (new.2.2 = y.accBase ∨ e.2.2.accRange = 0 ∨ w.2.2 + e.2.2.accRange ≤ new.2.2 ∨ new.2.2 + z.accRange ≤ w.2.2)) ∧
  ∀ (s : State) (lk stage bk : Nat) (l : Launch) (r : StageRun) (b : Block) (y : Stage) (new : Nat × Nat × Nat),
    AMap.find? s.launches lk = some l → l.stages[stage]? = some r →
    s.movingOn (r.cores ++ r.leaving) = some (bk, b, y) → b.moving = some new →
    AMap.rising s.blocks = true → Cells.wf s.spad = true → Cells.wf s.acc = true → Cells.wf s.cregs = true →
    b.regBase + y.regRange ≤ 1536 → new.2.1 + y.regRange ≤ 1536 →
    ∃ t : State, exec (.compactorMove lk stage) s = .next t ∧
      AMap.find? t.blocks bk = some { b with
        spadBase := new.1, regBase := new.2.1, accBase := new.2.2, moving := none } ∧
      (∀ i < y.spadSize, Cells.get t.spad (spadKey b.core (new.1 + i)) = Cells.get s.spad (spadKey b.core (b.spadBase + i))) ∧
      (∀ i < y.accRange, ∀ e < 512, Cells.get t.acc (accKey b.core (new.2.2 + i) e) =
        Cells.get s.acc (accKey b.core (b.accBase + i) e)) ∧
      ∀ f < 4, ∀ i < y.regRange, ∀ lane < 64, Cells.get t.cregs (cregKey b.core f (new.2.1 + i) lane) =
        Cells.get s.cregs (cregKey b.core f (b.regBase + i) lane)

/-- What is granted to a block lies in its allocator's region and overlaps nothing that a block of the core holds or
is being moved to (08 R198). -/
def Sys2Proof.Claims.GrantedRangesAreFree : Prop :=
  ∀ (s : State) (core a b c : Nat) (x : Stage), s.fits core x = some (a, b, c) →
    a + x.spadSize ≤ 2 ^ 21 ∧ b + x.regRange ≤ 1536 ∧ c + x.accRange ≤ 128 ∧
    ∀ e ∈ s.coreBlocks core, ∀ w ∈ e.2.1.bases,
      (w.1 + e.2.2.spadSize ≤ a ∨ a + x.spadSize ≤ w.1) ∧
      (w.2.1 + e.2.2.regRange ≤ b ∨ b + x.regRange ≤ w.2.1) ∧
      (e.2.2.accRange = 0 ∨ w.2.2 + e.2.2.accRange ≤ c ∨ c + x.accRange ≤ w.2.2)

/-- Placement and compaction (02 R25; 08 R198 to R201). -/
def Obligations.BlocksArePlacedOnTheFirstCoreThatFits : Prop :=
  ThePlacerTakesTheFirstCoreFromItsPointer ∧ TheCompactorMovesOneBlockAtATime ∧ GrantedRangesAreFree

/-- A new block begins with its storage cleared, one path in each group at the entry of its stage, a thread in each lane
by linear index, and its rounding streams seeded; storage outside its ranges keeps its contents (02 R22, R25, R26, R29;
09 R218). -/
def Obligations.ANewBlockBeginsCleared : Prop :=
  ∀ (s : State) (lk : Nat) (l : Launch) (stage linear core a b c : Nat), core < 1536 →
    let x := s.stageOf { launch := lk, stage, linear } l
    let bk := blockKey l stage linear
    let t := s.startBlock lk l stage linear core (a, b, c)
    AMap.find? t.blocks bk = some { launch := lk, stage, linear, st := .resident, core, spadBase := a, regBase := b,
                                    accBase := c, placedAt := s.time } ∧
    (∀ i < x.spadSize, Cells.get t.spad (spadKey core (a + i)) = 0) ∧
    (∀ e < 512, ∀ i < x.accRange, Cells.get t.acc (accKey core (c + i) e) = 0) ∧
    (b + x.regRange ≤ 1536 → ∀ f < 4, ∀ i < x.regRange, ∀ lane < 64, Cells.get t.cregs (cregKey core f (b + i) lane) = 0) ∧
    (∀ k, k < spadKey core a ∨ spadKey core (a + x.spadSize) ≤ k → Cells.get t.spad k = Cells.get s.spad k) ∧
    (∀ k, k < accKey core c 0 ∨ accKey core (c + x.accRange) 0 ≤ k → Cells.get t.acc k = Cells.get s.acc k) ∧
    (∀ i < x.threads, i < 2 ^ 11 → AMap.find? t.threads (bk * 2 ^ 11 + i) = some { rs := lfsrSeed linear i stage }) ∧
    ∀ gid, gid * 64 < x.threads → ∃ g, AMap.find? t.groups (bk * 64 + gid) = some g ∧ g.block = bk ∧ g.gid = gid ∧
      g.sat = false ∧ g.inv = false ∧ g.pend = 0 ∧ g.done = 0 ∧ g.backoff = 0 ∧
      (∀ lane, AMap.find? g.lanes lane =
        if lane < 64 ∧ gid * 64 + lane < x.threads then some (gid * 64 + lane) else none) ∧
      ∀ lane pc, standsAt g.paths lane pc ↔ lane < 64 ∧ gid * 64 + lane < x.threads ∧ pc = (s.entryOf l stage).1

namespace Sys2Proof.Claims

open Sys2Proof.Machine Sys2Proof.Safety

/-- How a block ends a stay on its core: a marked one is evicted, with its quad, once all can be saved and unless its
launch aborts; one without live threads and operations retires; one asked to stop halts at instruction boundaries, or
where a fault holds it (02 R24, R25, Table 2.2; 12 R272; 13 R287). -/
def blockEvent : Instr → Option Event
  | .blockEvict bk => some
      { due := fun s => ∃ b, AMap.find? s.blocks bk = some b ∧ b.evict = true ∧ b.onCore = true ∧
          (∀ l, AMap.find? s.launches b.launch = some l → l.st ≠ .aborting) ∧
          ∀ k ∈ s.quadOf bk b, ∀ x, AMap.find? s.blocks k = some x →
            (∀ e ∈ s.engines, e.2.block ≠ k) ∧ x.moving = none ∧
            (x.st ∈ [.halted, .frozen] ∨ ∀ e ∈ s.groups, e.2.block = k → e.2.atBlocking (s.nativeBlock x) = true)
        eff := fun s =>
          match AMap.find? s.blocks bk with
          | some b => ((s.quadOf bk b).foldl State.evictOne s).dropLeaving b.launch
          | none => s }
  | .blockRetire bk => some
      { due := fun s => ∃ b l, AMap.find? s.blocks bk = some b ∧ AMap.find? s.launches b.launch = some l ∧
          b.st = .resident ∧ s.liveThreads bk = 0 ∧ ∀ e ∈ s.engines, e.2.block ≠ bk
        eff := fun s => s.retire bk }
  | .blockHalt bk => some
      { due := fun s => ∃ b l r, AMap.find? s.blocks bk = some b ∧ AMap.find? s.launches b.launch = some l ∧
          b.stop = some r ∧ ((b.st = .resident ∧ s.atBoundary bk b = true) ∨ b.st = .frozen)
        eff := fun s =>
          match AMap.find? s.blocks bk with
          | some b =>
            match b.stop, AMap.find? s.launches b.launch with
            | some r, some l => (s.rollWaiting bk).halt bk b l r
            | _, _ => s
          | none => s }
  | _ => none

end Sys2Proof.Claims

/-- The events of a block and the state in which each leaves it: an evicted one keeps its storage and whether it was
halted; one that halts is HALTED, stays FROZEN under a fault, or goes on where the debugger has detached; a retired one
holds no group, and its record goes to the record queue (02 Table 2.2; 12 R272, R273; 13 R286, R287). -/
def Sys2Proof.Claims.BlockEventsLeaveTheStatesOfTheTable : Prop :=
  Happens blockEvent ∧
  (∀ (s : State) (bk : Nat) (b y : Block) (l : Launch), AMap.find? s.blocks bk = some b →
    AMap.find? s.launches b.launch = some l →
    let v := ((s.withdrawBlock bk).rollWaiting bk).releaseCaches b.core .device
    AMap.find? v.blocks bk = some y →
    AMap.find? (s.evictOne bk).blocks bk = some { y with
      st := .evicted, evict := false, everEvicted := true, saved := some (v.savedOf bk b (v.stageOf b l))
      stopped := y.st == .halted } ∧
    (s.evictOne bk).bobbinsOf bk = []) ∧
  (∀ (s : State) (bk : Nat) (b : Block) (l : Launch) (r : StopReq), AMap.find? s.blocks bk = some b →
    AMap.find? (s.halt bk b l r).blocks bk = some { b with
      st := if b.fault.isSome then .frozen else if r.resume then .resident else .halted
      stop := none, everHalted := true }) ∧
  ∀ (s : State) (bk : Nat) (b : Block) (l : Launch), AMap.find? s.blocks bk = some b →
    AMap.find? s.launches b.launch = some l → b.st = .resident → s.liveThreads bk = 0 →
    (∀ e ∈ s.engines, e.2.block ≠ bk) →
    AMap.find? (s.retire bk).blocks bk = some { b with st := .retired, endedAt := s.time } ∧
    ∀ e ∈ (s.retire bk).groups, e.2.block ≠ bk

/-- The oldest record due to a context is offered to its queue: it goes there, waits at the home while the queue is full,
or is lost where the queue is missing or refuses it; with a page fault of the present attempt lost, the launch aborts (12
R269). -/
def Sys2Proof.Claims.RecordsAreDeliveredInTheirOrder : Prop :=
  ∀ (s : State) (vi ctx : Nat) (pre post : List Delivery) (d : Delivery) (x : Context),
    s.deliveries = pre ++ d :: post → d.vi = vi → d.ctx = ctx → (∀ e ∈ pre, ¬ (e.vi = vi ∧ e.ctx = ctx)) →
    s.context vi ctx = some x →
    let t : State := { s with deliveries := pre ++ post }
    let sp := t.contextSpace x
    let flags := attrFlags sp.attrs d.cb
    (d.cb = 0 ∨ d.cb % 64 ≠ 0 ∨ isImmediate flags = false ∨ isMside flags = false ∨ (∃ f, t.homeAddr sp d.cb = .error f) →
      exec (.faultRecordDeliver vi ctx) s = .next (t.failDelivery d)) ∧
    (d.cb ≠ 0 → d.cb % 64 = 0 → isImmediate flags = true → isMside flags = true → ∀ pa v, t.homeOf sp d.cb = .ok (pa, v) →
      let run := v.homeTry pa sp (.device x.vi x.num) true 1 d.bytes.length false [d.bytes]
      (∀ r u, run = .done r u → exec (.faultRecordDeliver vi ctx) s = .next u) ∧
      (∀ u, run = .turned u →
        exec (.faultRecordDeliver vi ctx) s = .next (u.addRequest pa d.cb (.delivery d) true 1 [d.bytes])) ∧
      (∀ f u, run = .fault f u → exec (.faultRecordDeliver vi ctx) s = .next (t.failDelivery d)) ∧
      (∀ u, run = .lost u → exec (.faultRecordDeliver vi ctx) s = .next (t.failDelivery d))) ∧
    t.failDelivery d = match AMap.find? s.launches d.launch with
      | some l => if d.recoverable = true ∧ l.attempt = d.attempt then
          t.configEvent.failPage d.launch (field d.bytes 56 8) (field d.bytes 4 2) else t.configEvent
      | none => t.configEvent

/-- The events of a block, and the records that the device owes a context (02 Table 2.2; 12 R269, R272, R273). -/
def Obligations.BlocksLeaveTheirCoresAndRecordsAreDelivered : Prop :=
  BlockEventsLeaveTheStatesOfTheTable ∧ RecordsAreDeliveredInTheirOrder

/-- A queue that holds a slot gives its oldest record to the loader: the launch takes the next LSN of its context. A queue
that is missing or fails, or whose record is lost, is given up; an empty one is left (06 R142, R485). -/
def Sys2Proof.Claims.ARecordIsDequeuedWithTheNextLsn : Prop :=
  ∀ (s : State) (n : Nat) (q : LaunchQueue), AMap.find? s.queues n = some q →
    (q.slot = none → exec (.launchDequeue n) s = .next s.fillSlots) ∧
    ∀ slot x, q.slot = some slot → s.context q.vi q.ctx = some x →
      let given (u : State) : State := State.configEvent { u with
        queues := AMap.upd u.queues n fun q => { q with slot := none, givenUp := true } }
      (∀ f, s.lqAddr q = .error f → exec (.launchDequeue n) s = .next (given s)) ∧
      ∀ pa t, s.lqAddr q = .ok (pa, t) →
        let run := t.homeTry pa (t.contextSpace x) (.agent q.vi) false 1 64 false []
        (∀ bs u, run = .done [bs] u →
          let l : Launch :=
            { vi := q.vi, ctx := q.ctx, lq := n, seq := q.nextSeq, lsn := x.nextLsn, first := x.nextLsn
              attempt := u.next + 1, record := bs, dequeuedAt := u.cycle, image := field bs 0 4
              st := if (field bs 25 1).testBit 0 then .waitEligible else .checking }
          let v := u.updContext q.vi q.ctx fun y => { y with nextLsn := y.nextLsn + 1 }
          exec (.launchDequeue n) s = .next { v with
            launches := AMap.put u.launches u.next l
            queues := AMap.upd u.queues n fun q => { q with nextSeq := q.nextSeq + 1, lastDeq := u.cycle }
            next := u.next + 2 }) ∧
        (∀ u, run = .turned u → exec (.launchDequeue n) s = .next u) ∧
        (∀ f u, run = .fault f u → exec (.launchDequeue n) s = .next (given u)) ∧
        (∀ u, run = .lost u → exec (.launchDequeue n) s = .next (given u))

/-- A conditional record runs, once its predecessors have ended, where its word is zero or not, as its polarity bit
says, and ends with status 2 where it does not; it waits while a launch of its context may still write a transactional
word (06 R155). -/
def Sys2Proof.Claims.AConditionalRecordRunsOrIsSkipped : Prop :=
  ∀ (s : State) (lk : Nat) (l : Launch) (x : Context), AMap.find? s.launches lk = some l → l.st = .waitEligible →
    s.context l.vi l.ctx = some x →
    let sp := s.contextSpace x
    let va := field l.record 32 8
    let ends (t : State) (m : Launch) (status : Nat) : State := (t.writeCompletion m status).removeLaunch lk m
    ((∃ e ∈ s.launches, e.2.lq = l.lq ∧ e.2.seq < l.seq) → exec (.conditionalNodeEval lk) s = .next s) ∧
    ((∀ e ∈ s.launches, e.2.lq = l.lq → l.seq ≤ e.2.seq) →
      (∀ f, s.homeAddr sp va = .error f → exec (.conditionalNodeEval lk) s = .next
        (if f.lost then ends s { l with cause := 2 } 4 else ends s { l with reason := 16, offset := 32 } 3)) ∧
      ∀ pa t, s.homeAddr sp va = .ok (pa, t) →
        let written : Prop := ∃ e ∈ t.launches, e.2.vi = l.vi ∧ e.2.ctx = l.ctx ∧ e.2.st.inU = true ∧
          ∃ c ∈ e.2.claims, c.wr = true ∧ c.lo < va / 64 * 64 + 64 ∧ va / 64 * 64 < c.hi
        let word := isImmediate (attrFlags sp.attrs va)
        (word = false → written → exec (.conditionalNodeEval lk) s = .next s) ∧
        (word = true ∨ ¬ written → t.poisoned 0 (pa / 64) = true →
          exec (.conditionalNodeEval lk) s = .next (ends t { l with cause := 2 } 4)) ∧
        (word = true ∨ ¬ written → t.poisoned 0 (pa / 64) = false →
          let run : Bool := (t.memWord pa == 0) == (field l.record 25 1).testBit 1
          (run = true → exec (.conditionalNodeEval lk) s = .next (t.updLaunch lk fun l => { l with st := .checking })) ∧
          (run = false → exec (.conditionalNodeEval lk) s = .next (ends t l 2))))

/-- A record that is checked, at its first bind or again at a replay's, ends with status 3 and its reason and offset,
or goes on to wait for its binding (06 R144). -/
def Sys2Proof.Claims.ARecordIsCheckedBeforeEachBinding : Prop :=
  ∀ (s : State) (lk : Nat) (l : Launch), AMap.find? s.launches lk = some l →
    let refused (reason offset : Nat) : State :=
      (s.writeCompletion { l with reason, offset } 3).removeLaunch lk { l with reason, offset }
    let goesOn (m : Launch) : State :=
      (s.updLaunch lk fun _ => { m with st := .waiting }).tryBind lk { m with st := .waiting }
    (l.st = .checking →
      (s.bindLost l = true → exec (.launchBind lk) s = .next
        ((s.writeCompletion { l with cause := 2 } 4).removeLaunch lk { l with cause := 2 })) ∧
      (s.bindLost l = false →
        (∀ reason offset, s.checkLaunch l = .error (reason, offset) →
          exec (.launchBind lk) s = .next (refused reason offset)) ∧
        (∀ m, s.checkLaunch l = .ok m → exec (.launchBind lk) s = .next (goesOn m)))) ∧
    (l.st = .waiting → l.checked = false →
      (∀ reason offset, s.recheckLaunch l = .error (reason, offset) →
        exec (.launchBind lk) s = .next (refused reason offset)) ∧
      (∀ m, s.recheckLaunch l = .ok m → exec (.launchBind lk) s = .next (goesOn m) ∧
        m = { l with checked := true }))

/-- A checked record binds when no earlier record of its queue is unbound, its drafts are there, no launch in U conflicts
with it, a version entry is free, the loader takes no other record first, and its stages can have their minima. A replay
makes later launches of its queue that conflict with it yield, with cause 6 (06 R143 to R145, R152; 08 R193). -/
def Sys2Proof.Claims.ARecordBindsInItsTurn : Prop :=
  (∀ (s : State) (lk : Nat) (l : Launch), AMap.find? s.launches lk = some l → l.st = .waiting → l.checked = true →
    ((∃ e ∈ s.launches, e.2.lq = l.lq ∧ e.2.seq < l.seq ∧ e.2.st ∈ [.waitEligible, .checking, .waiting]) →
      exec (.launchBind lk) s = .next s) ∧
    ((∀ e ∈ s.launches, e.2.lq = l.lq → e.2.seq < l.seq → e.2.st ∉ [.waitEligible, .checking, .waiting]) →
      let t := s.requestDrafts l
      (t.draftsReady l = false → exec (.launchBind lk) s = .next t) ∧
      (t.draftsReady l = true →
        ((∀ e ∈ t.launches, e.2.follows l = true → t.mustWait l e.2 = true → e.2.st = .aborting) →
          (∃ e ∈ t.launches, e.1 ≠ lk ∧ t.mustWait l e.2 = true) →
          exec (.launchBind lk) s = .next (t.lendPrio lk l)) ∧
        (AMap.rising t.launches = true → ∀ k u, AMap.find? t.launches k = some u → k ≠ lk → u.follows l = true →
          t.mustWait l u = true → u.st ≠ .aborting →
          ∃ v m, exec (.launchBind lk) s = .next v ∧ AMap.find? v.launches k = some m ∧ m.st = .aborting ∧ m.cause = 6) ∧
        ((∀ e ∈ t.launches, t.mustWait l e.2 = false) →
          (4096 ≤ t.versions.length ∨ (∃ e ∈ t.launches, e.1 ≠ lk ∧ t.takenBefore e (lk, l) = true ∧ t.ready e.2 = true) →
            exec (.launchBind lk) s = .next t) ∧
          (t.versions.length < 4096 → (∀ e ∈ t.launches, e.1 ≠ lk → t.takenBefore e (lk, l) = true → t.ready e.2 = false) →
            ∀ x, t.context l.vi l.ctx = some x →
              (∀ cs, t.coresFor l = some cs → exec (.launchBind lk) s = .next (t.bindStages lk l x cs)) ∧
              (t.coresFor l = none → exec (.launchBind lk) s = .next
                (match (t.demandCores l).coresFor l with
                  | some cs => (t.demandCores l).bindStages lk l x cs
                  | none => t.demandCores l))))))) ∧
  ∀ (s t : State) (lk : Nat) (l m : Launch), AMap.find? s.launches lk = some l → l.st = .waiting →
    exec (.launchBind lk) s = .next t → AMap.find? t.launches lk = some m → m.st = .bound →
    AMap.find? t.versions m.attempt = some (ctxKey l.vi l.ctx) ∧ t.versions.length ≤ 4096 ∧
    (∀ e ∈ s.launches, e.1 ≠ lk → s.mustWait l e.2 = false) ∧
    ∀ i r, m.stages[i]? = some r →
      (stageAt (s.imageBytes l) i).minCores ≤ r.cores.length ∧
      ∀ core ∈ r.cores, ∀ e ∈ t.launches, e.1 ≠ lk → core ∉ e.2.allCores

/-- A launch from its record to its binding (06 R141 to R145, R152, R155, R485; 08 R193). -/
def Obligations.ALaunchIsDequeuedCheckedAndBound : Prop :=
  ARecordIsDequeuedWithTheNextLsn ∧ AConditionalRecordRunsOrIsSkipped ∧ ARecordIsCheckedBeforeEachBinding ∧
    ARecordBindsInItsTurn

namespace Sys2Proof.Claims

open Sys2Proof.Machine Sys2Proof.Safety

/-- A launch is complete, its predecessors in its queue have ended, it has no engine operation under way, and no other
launch became free to commit before it: it may commit (06 R148). An irrevocable one has made its version memory
before. -/
def MayCommit (s : State) (lk : Nat) (l : Launch) : Prop :=
  (l.st = .completed ∨ (l.st = .irrevocable ∧ s.allRetired l = true)) ∧
    (∀ e ∈ s.launches, e.2.lq = l.lq → l.seq ≤ e.2.seq) ∧ (∀ e ∈ s.engines, e.2.launch ≠ lk) ∧
    (l.irrevocable = true ∨ ∀ e ∈ s.launches, e.1 ≠ lk → e.2.st = .completed → ∀ k, e.2.freeAt = some k →
      l.freeAt.getD s.next ≤ k)

end Sys2Proof.Claims

/-- A commit makes the version committed memory at one instant, in the order in which launches became free to commit:
afterwards each byte of a shadow line of the attempt is memory's; then the launch owes its deferred enqueues and its
completion record, and the record is written once none is owed. An irrevocable launch's version was made memory when
it was granted, and is not again (06 R147, R148, R150, R156). In the last clause no cache holds a line of memory. -/
def Obligations.ACommitMakesItsVersionMemory : Prop :=
  (∀ (s : State) (lk : Nat) (l : Launch), AMap.find? s.launches lk = some l → l.st ≠ .committing →
    (¬ MayCommit s lk l → exec (.launchCommit lk) s = .next s) ∧
    (MayCommit s lk l →
      let v := if l.irrevocable then s else s.commitVersion l.attempt
      let t := (v.discardBlocks lk l).freeVersion l.attempt
      exec (.launchCommit lk) s = .next
        ((State.updLaunch { t with next := t.next + 1 } lk fun l => { l with
            st := .committing, stages := [], commitAt := some (l.commitAt.getD t.next) }).endCommitted lk))) ∧
  (∀ (s : State) (lk : Nat) (l : Launch), AMap.find? s.launches lk = some l → l.st = .committing →
    exec (.launchCommit lk) s = .next (if l.deferred = [] then (s.writeCompletion l 1).removeLaunch lk l else s)) ∧
  (∀ (s : State) (lk : Nat) (l : Launch), AMap.rising s.launches = true → AMap.find? s.launches lk = some l →
    ∃ m, AMap.find? s.noteFree.launches lk = some m ∧
      m = { l with freeAt := if l.st = .completed ∧ l.freeAt = none ∧ s.freeToCommit l lk = true then some s.next
                             else l.freeAt }) ∧
  ∀ (s : State) (a pa : Nat), s.coreCache = [] → s.dieCache = [] → AMap.rising s.shadow = true →
    (∀ e ∈ s.shadow, e.1 % 2 ^ 35 < 2 ^ 34) → pa < 2 ^ 41 → isControlRow pa = false →
    (s.commitVersion a).memBytes pa 1 =
      match AMap.find? s.shadow (shadowKey a (pa / 64)) with
      | some line => [lineByte line (pa % 64)]
      | none => s.memBytes pa 1

/-- Deferred enqueues are performed at their homes, oldest first, once the launch commits or is irrevocable, and not
before those that a launch whose version was committed earlier owes the same queue; one that its home refuses is
dropped and counted; with no room it waits. A shadow line written home no longer belongs to the version, whose entry
goes free with the last. Irrevocable mode commits the version and keeps the launch running (06 R148, R150, R151, R154;
18 R386). -/
def Obligations.DeferredWorkFollowsTheCommit : Prop :=
  (∀ (s : State) (lk : Nat) (l : Launch) (d : Deferred) (ds : List Deferred), AMap.find? s.launches lk = some l →
    l.deferred = d :: ds →
    (l.st ≠ .committing → l.irrevocable = false → exec (.deferredEnqueueAppend lk) s = .next s) ∧
    (l.st = .committing ∨ l.irrevocable = true →
      (s.appendWaits lk = true → exec (.deferredEnqueueAppend lk) s = .next s) ∧
      (s.appendWaits lk = false →
        let sp := s.launchSpace l
        let rest (v : State) : State := (v.updLaunch lk fun l => { l with deferred := ds }).afterAppend lk
        (∀ f, s.cbAddr sp d.cb = .error f → exec (.deferredEnqueueAppend lk) s = .next (rest s.configEvent)) ∧
        ∀ pa t, s.cbAddr sp d.cb = .ok (pa, t) →
          let owed : Prop := ∃ e ∈ s.launches, e.1 ≠ lk ∧ e.2.owesEnqueues = true ∧
            e.2.commitAt.getD 0 < l.commitAt.getD 0 ∧ (s.appendWaits e.1 = false ∨ ∃ x ∈ e.2.deferred, ∃ v,
              s.cbAddr (s.launchSpace e.2) x.cb = .ok (pa, v))
          (owed → exec (.deferredEnqueueAppend lk) s = .next s) ∧
          (¬ owed →
            let run := t.homeTry pa sp (.agent l.vi) true d.elems.length d.esize false d.elems
            (∀ f u, run = .fault f u → exec (.deferredEnqueueAppend lk) s = .next (rest u.configEvent)) ∧
            (∀ u, run = .lost u → exec (.deferredEnqueueAppend lk) s = .next (rest u.configEvent)) ∧
            (∀ r u, run = .done r u → exec (.deferredEnqueueAppend lk) s = .next (rest u)) ∧
            (∀ u, run = .turned u → exec (.deferredEnqueueAppend lk) s =
              .next (u.addRequest pa d.cb (.append lk) true d.elems.length d.elems)))))) ∧
  (∀ (s : State) (a line : Nat),
    ((∃ e ∈ s.launches, e.2.attempt = a ∧ e.2.irrevocable = false ∧ e.2.st ≠ .committing) →
      exec (.shadowWriteback a line) s = .next s) ∧
    ((∀ e ∈ s.launches, e.2.attempt = a → e.2.irrevocable = true ∨ e.2.st = .committing) →
      let shadow := AMap.del s.shadow (shadowKey a line)
      exec (.shadowWriteback a line) s = .next { s with
        shadow, spills := AMap.del s.spills (shadowKey a line)
        versions := if ∀ e ∈ shadow, e.1 / 2 ^ 35 ≠ a then AMap.del s.versions a else s.versions })) ∧
  ∀ (s : State) (lk : Nat) (l : Launch), AMap.find? s.launches lk = some l →
    (l.st = .overflowed → l.irrevocable = false → s.grantable l = true →
      let t := s.commitVersion l.attempt
      exec (.irrevocableGrant lk) s = .next ((State.updLaunch { t with next := t.next + 1 } lk fun l =>
        { l with irrevocable := true, commitAt := some t.next }).resumeGranted lk)) ∧
    ((l.st ≠ .overflowed ∨ l.irrevocable = true ∨ s.grantable l = false) → exec (.irrevocableGrant lk) s = .next s)

/-- An abort waits for the engine operations and the accesses to peers that are under way; then what the attempt had
is dropped, memory untouched, and the launch is replayed as a new attempt that is checked again, or ends with status
4, or 5 if it was killed (06 R144, R152, R153, Table 6.11). -/
def Obligations.AnAbortLeavesMemoryAndReplaysOrEnds : Prop :=
  ∀ (s : State) (lk : Nat) (l : Launch), AMap.find? s.launches lk = some l → l.st = .aborting →
    let under : Prop := (∃ e ∈ s.engines, e.2.launch = lk) ∨
      ∃ e ∈ s.remote, e.2.window = false ∧ e.2.block / 2 ^ 36 = l.attempt
    (under → exec (.launchAbort lk) s = .next s) ∧
    (¬ under →
      let t := (s.discardBlocks lk l).dropVersion l.attempt
      let v := s.iface l.vi
      let limit := if (field l.record 26 1).testBit 7 then field l.record 26 1 % 8 else bitsOf v.ldrReplay.toNat 0 3
      let again : Prop := l.irrevocable = false ∧ l.killed = false ∧
        (l.cause = 6 ∨ (l.cause ∈ [1, 2, 3] ∧ v.ldrReplay.getLsbD (3 + l.cause) = true ∧ l.replays < limit))
      (∀ x, again → t.context l.vi l.ctx = some x → exec (.launchAbort lk) s =
        .next { (t.updContext l.vi l.ctx fun x => { x with nextLsn := x.nextLsn + 1 }).updLaunch lk fun l => { l with
            lsn := x.nextLsn, attempt := t.next, st := .waiting, stages := [], deferred := [], move := none
            descheduled := false, codeAt := 0, shadow := 0, checked := false, freeAt := none, commitAt := none, prio := 0
            replays := l.replays + if l.cause = 6 then 0 else 1
            yielded := l.yielded || l.cause == 6 } with next := t.next + 1 }) ∧
      (¬ again → l.cause ≠ 5 → exec (.launchAbort lk) s =
        .next ((t.writeCompletion l (if l.killed then 5 else 4)).removeLaunch lk l)) ∧
      (¬ again → l.cause = 5 → exec (.launchAbort lk) s = .next (t.removeLaunch lk l))) ∧
    ∀ k, (∀ v ∈ (s.dropVersion l.attempt).versions, v.1 ≠ l.attempt) ∧
      AMap.find? (s.dropVersion l.attempt).shadow (shadowKey l.attempt (k % 2 ^ 35)) = none ∧
      (s.dropVersion l.attempt).mem = s.mem

namespace Sys2Proof.Claims

open Sys2Proof.Machine Sys2Proof.Safety

/-- A window of 64 executions makes its region trigger: conflicts, a branch gone one way, or stalls, each against its
threshold (03 R73, Table 3.6). -/
def windowFires (w : Window) (x : Word) : Bool :=
  let t := x.toNat
  (t / 2 ^ 8 % 256 ≠ 0 && decide (t / 2 ^ 8 % 256 ≤ w.conflicts))
    || (decide (t / 2 ^ 16 % 256 < 64) && w.branches.any fun b => decide (t / 2 ^ 16 % 256 < max b.1 b.2))
    || decide (t / 2 ^ 24 % 256 * w.cycles < w.stalled * 256)

/-- The enclave's signature over a draft of a generation, its key and the generation (03 R75). -/
def signedAs (d : Draft) (gen : Nat) : List Byte :=
  Config.enclaveSign (sha512 (Config.draftBytes d.key gen ++ d.key ++ leBytes 4 gen))

/-- The events of the drafting enclave and of its peers (03 R73 to R77). -/
def draftEvent : Instr → Option Event
  | .draftCreate slot => some
      { due := fun s => ∃ e ∈ s.drafts, e.2.core = some slot
        eff := fun s =>
          match List.find? (fun e : Nat × Draft => e.2.core == some slot) s.drafts with
          | some (k, _) => State.assignDrafting { s with drafts := AMap.upd s.drafts k fun d =>
              if d.ready then
                { d with core := none, gen := d.gen + 1, signature := signedAs d (d.gen + 1), installedAt := s.cycle
                         profiles := [], windows := [] }
              else { d with core := none, ready := true, signature := signedAs d d.gen, installedAt := s.cycle } }
          | none => s }
  | .peerDraftRequest r => some
      { due := fun s => r.chainOk = true ∧ s.life = .deployed ∧ ∃ e ∈ s.drafts, leNat e.2.key = r.key ∧
          e.2.ready = true ∧ e.2.native = false ∧ e.2.imageKey = r.imageKey
        eff := fun s => { s with sent := s.sent ++ [.draftAnswer r.peer r.key] } }
  | .peerDraftReceive r => some
      { due := fun s => r.chainOk = true ∧ r.signatureOk = true ∧ r.keyMatches = true ∧
          ∃ e ∈ s.drafts, leNat e.2.key = r.key ∧ e.2.ready = false
        eff := fun s =>
          match List.find? (fun e : Nat × Draft => leNat e.2.key == r.key && !e.2.ready) s.drafts with
          | some (k, _) => State.assignDrafting { s with drafts := AMap.upd s.drafts k fun d =>
              { d with ready := true, gen := r.generation % 16, signature := signedAs d (r.generation % 16), core := none
                       waits := none, installedAt := s.cycle } }
          | none => s }
  | .profileWindowJudge k record => some
      { due := fun s => ∃ d w, AMap.find? s.drafts k = some d ∧ s.judgeable k record d = some w
        eff := fun s =>
          match AMap.find? s.drafts k with
          | some d =>
            match s.judgeable k record d with
            | some (n, w) => { s with drafts := AMap.upd s.drafts k fun d' => { d' with
                windows := AMap.del d'.windows n
                triggered := d.triggered || ((s.iface d.vi).drfProfile.getLsbD 0
                  && windowFires w (s.iface d.vi).drfProfile && !d.native && decide (d.gen < 15)) } }
            | none => s
          | none => s }
  | .redraft k => some
      { due := fun s => ∃ d, AMap.find? s.drafts k = some d ∧ d.triggered = true ∧ d.ready = true ∧ d.native = false ∧
          d.core = none ∧ d.waits = none ∧ d.gen < 15 ∧ d.installedAt + 10500000 ≤ s.cycle
        eff := fun s => State.assignDrafting { s with
          drafts := AMap.upd s.drafts k fun d => { d with triggered := false, waits := some s.next }
          next := s.next + 1 } }
  | _ => none

end Sys2Proof.Claims

/-- Drafts are made, signed, judged, made again and exchanged: an installed generation starts its counters anew; a
trigger is kept until the enclave takes it up, not before 10 ms after the last installation and not past generation 15
(03 R73 to R77). A drafting core works on one draft, the one that has waited longest. -/
def Obligations.DraftsAreMadeJudgedAndMadeAgain : Prop :=
  Happens draftEvent ∧
  ∀ (s : State) (core : Nat), core < 8 → (∀ e ∈ s.drafts, e.2.core ≠ some core) → AMap.rising s.drafts = true →
    (∀ c < core, ∃ e ∈ s.drafts, e.2.core = some c) →
    ∀ e ∈ s.drafts, ∀ w, e.2.waits = some w → (∀ f ∈ s.drafts, ∀ v, f.2.waits = some v → f ≠ e → w < v) →
      ∃ d, AMap.find? s.assignDrafting.drafts e.1 = some d ∧ d.core = some core ∧ d.waits = none

/-- In a pass over the entities of a priority, each that may gain receives the whole cores of its share by weight and its
deficit, up to its limit; what is left of a core stays its deficit (08 R187, R188). -/
def Sys2Proof.Claims.APassGrantsWholeCoresByWeight : Prop :=
  ∀ (p : Nat) (es : List Share) (avail : Nat), let r := grantPass p es avail
    let total := ((es.filter fun e => decide (e.prio = p) && decide (e.grant < e.limit)).map fun e => e.weight).sum
    r.1.length = es.length ∧ r.2 = avail - ((r.1.map fun e => e.grant).sum - (es.map fun e => e.grant).sum) ∧
    ∀ (i : Nat) (e f : Share), es[i]? = some e → r.1[i]? = some f →
      (¬ (e.prio = p ∧ e.grant < e.limit) → f = e) ∧
      (e.prio = p → e.grant < e.limit → 0 ≤ e.deficit →
        let share : Rat := (avail : Rat) * (e.weight : Rat) / (total : Rat) + e.deficit
        (share < ((e.limit - e.grant + 1 : Nat) : Rat) →
          f = { e with grant := f.grant, deficit := f.deficit } ∧ 0 ≤ f.deficit ∧ f.deficit < 1 ∧
            (f.grant : Rat) + f.deficit = (e.grant : Rat) + share) ∧
        (((e.limit - e.grant + 1 : Nat) : Rat) ≤ share → f = { e with grant := e.limit, deficit := 0 }))

/-- Cores are granted by strict priority and none beyond a limit; what is granted and what is left make up what there was,
but for the fractions carried, by which the passes of the procedure may grant more: less than one core for each entity. So
too at a slice boundary, for interfaces and for the contexts of one (08 R186 to R190). -/
def Sys2Proof.Claims.GrantsFollowPriorityAndLimits : Prop :=
  (∀ (es : List Share) (avail : Nat), (∀ e ∈ es, e.grant = 0 ∧ e.prio < 8 ∧ 0 ≤ e.deficit ∧ e.deficit < 1) → avail ≤ 1536 →
    (es.map fun e => e.id).Nodup →
    let r := grantAll es avail
    let sum := (r.1.map fun e => e.grant).sum
    (0 < r.2 → sum + r.2 = avail) ∧ (r.2 = 0 → avail ≤ sum) ∧ sum ≤ avail + es.length ∧
    r.1.map (fun e => e.id) = es.map (fun e => e.id) ∧ (∀ e ∈ r.1, e.grant ≤ e.limit) ∧
    ∀ e ∈ r.1, ∀ f ∈ r.1, e.prio < f.prio → f.grant < f.limit → e.grant = 0) ∧
  ∀ s : State, ∃ t, exec .sliceBoundary s = .next t ∧ t.sliceAt = s.cycle ∧
    (∀ vi ∈ s.activeIfaces, (t.iface vi).grant ≤ (s.iface vi).cores) ∧
    ((∀ vi, 0 ≤ (s.iface vi).deficit ∧ (s.iface vi).deficit < 1) →
      (s.activeIfaces.map fun vi => (t.iface vi).grant).sum ≤ 1536 + s.activeIfaces.length) ∧
    ∀ vi ∈ s.activeIfaces, (∀ x ∈ s.contexts, x.1 = ctxKey x.2.vi x.2.num ∧ x.2.num < 512) →
      AMap.rising s.contexts = true → (∀ x ∈ s.contexts, 0 ≤ x.2.deficit ∧ x.2.deficit < 1) → (t.iface vi).grant ≤ 1536 →
      ((t.contextsOf vi).map fun x => x.grant).sum ≤ (t.iface vi).grant + (s.contextsOf vi).length

/-- The grants of cores (08 R186 to R190). -/
def Obligations.CoresAreGrantedByPriorityAndWeight : Prop :=
  APassGrantsWholeCoresByWeight ∧ GrantsFollowPriorityAndLimits

/-- Launch queues hold distinct slots below 256; at a quantum boundary waiting queues grow older, and a queue displaces
another only of no higher priority that has held its slot for a quantum (08 R191). -/
def Sys2Proof.Claims.QueueSlotsGoRoundByQuantum : Prop :=
  ∀ s : State, AMap.rising s.queues = true →
    (∀ e ∈ s.queues, ∀ i, e.2.slot = some i → i < 256) →
    (∀ e ∈ s.queues, ∀ f ∈ s.queues, e.2.slot = f.2.slot → e.2.slot ≠ none → e.1 = f.1) →
    ∃ t, exec .quantumBoundary s = .next t ∧ t = { s with queues := t.queues, quantumAt := s.cycle } ∧
      (∀ e ∈ t.queues, ∀ i, e.2.slot = some i → i < 256) ∧
      (∀ e ∈ t.queues, ∀ f ∈ t.queues, e.2.slot = f.2.slot → e.2.slot ≠ none → e.1 = f.1) ∧
      ∀ k q r, AMap.find? s.queues k = some q → AMap.find? t.queues k = some r → r.lastDeq = q.lastDeq ∧
        (q.slot = none → r.slot = none → r.age = if s.queueWaits q then q.age + 1 else q.age) ∧
        (q.slot ≠ none → r.slot = none → s.recordsIn q = 0 ∨ q.since + s.quantum ≤ s.cycle)

/-- Every 64 µs the stage scheduler calls for a move of a core from the stage with the smallest σ that is above its
minimum to the one with the greatest that can use it, when they differ by a quarter at least; the fills that σ takes
are means over the core cycles since. The donor's blocks on the core are saved first, and the core goes over unless
the donor would fall below its minimum (02 R50; 08 R196, R197; the sampling of the means: log entry 41). -/
def Sys2Proof.Claims.StageCoresMoveFromTheFullestToTheNeediest : Prop :=
  (∀ (s : State) (lk : Nat) (l : Launch), AMap.find? s.launches lk = some l →
    (l.issues = true → l.descheduled = false → 2 ≤ l.stages.length → l.decidedAt + 67200 ≤ s.cycle →
      exec (.stageRebalance lk) s =
        .next (s.updLaunch lk fun l => { l with move := s.wantedMove l, decidedAt := s.cycle, fills := [] })) ∧
    (l.issues = false ∨ l.descheduled = true ∨ l.stages.length < 2 ∨ s.cycle < l.decidedAt + 67200 →
      exec (.stageRebalance lk) s = .next s) ∧
    (2 ≤ l.stages.length → ∃ m, AMap.find? s.sumFills.launches lk = some m ∧ s.sumFills.filledAt = s.cycle ∧
      ∀ i < (sectionBytes (s.imageBytes l) 2).length / 32,
        m.fills.getD i 0 = l.fills.getD i 0 + ((s.cycle - s.filledAt : Nat) : Rat) * s.fill l i)) ∧
  (∀ (s : State) (l : Launch) (j i : Nat), s.wantedMove l = some (j, i) →
    let img := s.imageBytes l
    let n := if (stageAt img i).quad || (stageAt img j).quad then 4 else 1
    j ≠ i ∧ (1 / 4 : Rat) ≤ s.sigma l i - s.sigma l j ∧ ∃ r q, l.stages[j]? = some r ∧ l.stages[i]? = some q ∧
      (stageAt img j).minCores + n ≤ r.cores.length ∧ q.cores.length + n ≤ (stageAt img i).maxCores ∧
      s.nextBlock l i q ≠ none ∧
      ∀ k p, l.stages[k]? = some p → s.nextBlock l k p ≠ none → p.cores.length < (stageAt img k).maxCores →
        s.sigma l k ≤ s.sigma l i) ∧
  ∀ (s : State) (lk donor recipient : Nat) (l : Launch) (r q : StageRun), AMap.find? s.launches lk = some l →
    l.move = some (donor, recipient) → l.stages[donor]? = some r → l.stages[recipient]? = some q →
    let img := s.imageBytes l
    let whole := (stageAt img donor).quad || (stageAt img recipient).quad
    (∀ core, whole = false → s.donorCores r false = some [core] →
      core ∈ r.cores ∧ (∀ e ∈ s.coreBlocks core, s.evictable e.1 e.2.1 = true) ∧
      (r.cores.length < (stageAt img donor).minCores + 1 ∨ (stageAt img recipient).maxCores < q.cores.length + 1 →
        exec (.stageCoreMove lk) s = .next s) ∧
      ((stageAt img donor).minCores + 1 ≤ r.cores.length → q.cores.length + 1 ≤ (stageAt img recipient).maxCores →
        let t := (s.coreBlocks core).foldl (fun (t : State) e => t.evict e.1) s
        exec (.stageCoreMove lk) s = .next (((t.updStage lk donor fun r =>
          { r with cores := r.cores.filter fun c => c != core }).updStage lk recipient fun r =>
            { r with cores := insertNat core r.cores }).updLaunch lk fun l => { l with move := none }))) ∧
    (s.donorCores r whole = none → exec (.stageCoreMove lk) s = .next s)

/-- Launch-queue slots at a quantum boundary, and the cores of stages (08 R191, R196, R197). -/
def Obligations.SlotsAndStageCoresGoToTheNeediest : Prop :=
  QueueSlotsGoRoundByQuantum ∧ StageCoresMoveFromTheFullestToTheNeediest

namespace Sys2Proof.Claims

open Sys2Proof.Machine Sys2Proof.Safety

/-- What a wipe leaves: the fused life cycle and hosting, the enclave's configuration, and time; everything else is as
at reset (11 R266; 14 R303, R305). -/
def wipedTo (s : State) (cycle : Nat) (phase : Phase) : State :=
  { life := s.life, selfHosted := s.selfHosted, hotReset := !s.selfHosted, dcNext := s.dcNext, device := s.device
    cycle, phase, free := s.free, next := s.next, agenda := s.agenda, sent := s.sent }

/-- A MEM_SPARE word (11 Table 11.9). -/
def spareOf (state bank row : Nat) : Word := BitVec.ofNat 64 (state * 2 ^ 22 + bank % 32 * 2 ^ 17 + row % 2 ^ 15)

/-- No access that was translated before a shootdown, in a space that it names, has still to perform: a gated store, an
engine operation that runs, an access to a peer, a request at a queue's home (04 R111). -/
def DrainedFor (s : State) (id : Nat) (d : Shootdown) : Prop :=
  (∀ e ∈ s.groups, s.shotBlock d e.2.block = true → ∀ p ∈ e.2.paths, ∀ w ∈ p.gated, w.via = none → id < w.born) ∧
  (∀ e ∈ s.engines, e.1 < id → s.shotLaunch d e.2.launch = true → e.2.started = false ∨ e.2.stall ≠ none) ∧
  (∀ e ∈ s.remote, e.1 < id → e.2.window = false → d.touches e.2.addr (max 1 e.2.data.length) = true →
    s.shotBlock d e.2.block = false) ∧
  ∀ e ∈ s.homes, ∀ r ∈ e.2.wake ++ e.2.polling, r.stamp < id → d.touches r.va 64 = true →
    ∀ sp, s.askerSpace r.who = some sp → s.shotAt d sp = false

/-- An uncorrectable error is counted and reported, with what it affected (12 R279 to R282, Table 12.8). -/
def counted (s : State) (domain unit addr : Nat) : State := s.countError domain 2 unit 0xFF 0xFFFF addr 0

/-- The module: memory sparing, errors, power, boot, resets, life cycle, shootdowns (01 R19; 04 R111; 11 R264, R266; 12
R279 to R283; 14 R302 to R305, R310). -/
def moduleEvent : Instr → Option Event
  | .bankRetire pc bank => some
      { due := fun s => pc < 1024 ∧ bank < 32 ∧ (
          let w := (Cells.get s.spare pc).toNat
          bitsOf w 22 2 = 0 ∨ (bitsOf w 22 2 = 1 ∧ bank ≠ bitsOf w 17 5 ∧ pc ∉ s.further) ∨
            (bitsOf w 22 2 = 2 ∧ bank ≠ bitsOf w 17 5))
        eff := fun s =>
          let w := (Cells.get s.spare pc).toNat
          if bitsOf w 22 2 = 0 then { s with spare := Cells.set s.spare pc (spareOf 1 bank 0) }
          else if bitsOf w 22 2 = 1 then { s with further := pc :: s.further }
          else { s with spare := Cells.set s.spare pc (spareOf 3 (bitsOf w 17 5) 0) } }
  | .sparingRowCopy pc => some
      { due := fun s => bitsOf (Cells.get s.spare pc).toNat 22 2 = 1
        eff := fun s =>
          let w := (Cells.get s.spare pc).toNat
          let p := bitsOf w 0 15 + 1
          if p < 32768 then { s with spare := Cells.set s.spare pc (spareOf 1 (bitsOf w 17 5) p) }
          else { s with spare := Cells.set s.spare pc (spareOf (if pc ∈ s.further then 3 else 2) (bitsOf w 17 5) 0)
                        further := s.further.filter fun k => k != pc } }
  | .correctedError domain unit addr => some
      { due := fun _ => domain < 11
        eff := fun s =>
          let w := (Cells.get s.errcnt domain).toNat
          let n := min (w % 2 ^ 32 + 1) (2 ^ 32 - 1)
          let k := (Cells.get s.corrected domain).toNat + 1
          { s with
            errcnt := Cells.set s.errcnt domain (BitVec.ofNat 64 (w / 2 ^ 32 * 2 ^ 32 + n))
            corrected := Cells.set s.corrected domain (BitVec.ofNat 64 (k % 1024))
            errors := if k = 1024 then s.errors ++ [leBytes 1 domain ++ leBytes 1 1 ++ leBytes 2 unit
              ++ leBytes 1 0xFF ++ [0] ++ leBytes 2 0xFFFF ++ leBytes 8 addr ++ leBytes 8 0 ++ leBytes 8 s.time]
              else s.errors } }
  | .thermalCapReduce cap => some
      { due := fun _ => True, eff := fun s => { s with supplyOk := false, cap := max 2500 (min s.cap cap) } }
  | .thermalPowerOff => some { due := fun _ => True, eff := fun s => wipedTo s s.cycle .off }
  | .supplyAndCoolantWithinLimits => some
      { due := fun _ => True, eff := fun s => { s with supplyOk := true, cap := 7500 } }
  | .shootdownComplete id => some
      { due := fun s => ∃ d, AMap.find? s.shootdowns id = some d ∧ DrainedFor s id d
        eff := fun s =>
          match AMap.find? s.shootdowns id with
          | some d => State.putBytes { s.dropEntries d with shootdowns := AMap.del s.shootdowns id } d.word (leBytes 8 1)
          | none => s }
  | .lifecycle r => some
      { due := fun s => r.signer ≠ none ∧ r.signer = (match s.life, r.next with
          | .manufacture, .provisioned | .provisioned, .rma | .rma, .provisioned | .rma, .decommissioned => some .brodari
          | .provisioned, .deployed | .deployed, .rma | .deployed, .decommissioned => some .owner
          | _, _ => none)
        eff := fun s => wipedTo { s with life := r.next
                                         selfHosted := if s.life = .manufacture then r.hosting else s.selfHosted }
          s.cycle .due }
  | .upstreamReset (.flr vi) => some
      { due := fun s => (s.iface vi).configured = true ∧ (s.iface vi).hostOwned = true
        eff := fun s => s.resetIface vi }
  | .boot r => some
      { due := fun s => s.phase ≠ .running
        eff := fun s =>
          if r.verified = false then wipedTo s 0 .recovery
          else
            let t := r.sparing.foldl (fun (t : State) e => { t with
              spare := Cells.set t.spare (e.1 % 1024) (spareOf (e.2.1 % 4) e.2.2 0) }) (wipedTo s 0 .running)
            let t := (r.failing ++ r.unwiped).foldl (fun (t : State) e =>
              if e.1 < 1024 ∧ e.2 < 32 then t.retireBank e.1 e.2 else t) t
            (State.makeQueue { t with dcSize := if s.dcNext = 0 then 4 else min s.dcNext 8 } 0).makeErrorQueue.updIface 0
              fun v => { v with hostOwned := !s.selfHosted } }
  | .uncorrectableError (.memory pa) domain unit addr => some
      { due := fun _ => True
        eff := fun s =>
          let t := counted s domain unit addr
          { t with poison := Cells.set t.poison (shadowKey 0 (pa % 2 ^ 41 / 64)) 1 } }
  | .uncorrectableError (.versionEntry _) domain unit addr => some
      { due := fun _ => True, eff := fun s => counted s domain unit addr }
  | .uncorrectableError .appCore domain unit addr => some
      { due := fun _ => True, eff := fun s => counted s domain unit addr }
  | .uncorrectableError (.queue pa) domain unit addr => some
      { due := fun _ => True
        eff := fun s =>
          let t := counted s domain unit addr
          let cb := cellOf (pa % 2 ^ 41)
          State.setHome { t with poison := Cells.set t.poison (shadowKey 0 (cb / 64)) 1, free := s.free + 1 } cb
            { t.home cb with corrupt := Config.free s.free % 3 + 1 } }
  | .uncorrectableError (.draft key) domain unit addr => some
      { due := fun _ => True
        eff := fun s =>
          let t := counted s domain unit addr
          State.assignDrafting { t with
            drafts := t.drafts.map fun (e : Nat × Draft) =>
              (e.1, if leNat e.2.key = key ∧ e.2.native = false ∧ e.2.core = none then
                { e.2 with ready := false, waits := some t.next } else e.2)
            next := t.next + 1 } }
  | .uncorrectableError (.launchVersion k) domain unit addr => some
      { due := fun s => ∃ l, AMap.find? s.launches k = some l
        eff := fun s =>
          match AMap.find? s.launches k with
          | some l => (s.countError domain 2 unit l.vi l.ctx addr (l.lsn % 2 ^ 48)).beginAbort k 2 0 s.time
          | none => s }
  | .uncorrectableError (.block bk) domain unit addr => some
      { due := fun s => ∃ b l, AMap.find? s.blocks bk = some b ∧ AMap.find? s.launches b.launch = some l
        eff := fun s =>
          match AMap.find? s.blocks bk with
          | some b =>
            match AMap.find? s.launches b.launch with
            | some l => (s.countError domain 2 unit l.vi l.ctx addr (l.lsn % 2 ^ 48)).beginAbort b.launch 2 0 s.time
            | none => s
          | none => s }
  | _ => none

/-- Where an event is due it happens. -/
def HappensWhenDue (table : Instr → Option Event) : Prop :=
  ∀ (i : Instr) (e : Event) (s : State), table i = some e → e.due s → exec i s = .next (e.eff s)

/-- The lowest valid identity of a round (14 R308). -/
def lowest : Nat → List Nat → Nat
  | m, [] => m
  | m, x :: xs => lowest (min m x) xs

/-- Elections, heartbeats, treadle messages and capture (13 R288 to R292; 14 R308). -/
def podEvent : Instr → Option Event
  | .electionTimeout => some
      { due := fun s => s.leader ≠ some identity ∧ max s.heard s.roundAt + 10500000 ≤ s.cycle
        eff := fun s => { s with
          round := s.round + 1, reports := [identity], roundAt := s.cycle, leader := none
          sent := s.sent ++ [.candidacy (s.round + 1)] } }
  | .electionReportReceive m => some
      { due := fun s => m.valid = true ∧
          (s.round < m.round ∨ (m.round = s.round ∧ s.leader = none ∧ s.cycle < s.roundAt + 1050000))
        eff := fun s =>
          if s.round < m.round then
            { s with round := m.round, reports := [m.identity], roundAt := s.cycle, leader := none }
          else { s with reports := s.reports ++ [m.identity] } }
  | .electionChoice => some
      { due := fun s => s.leader = none ∧ s.reports ≠ [] ∧ s.roundAt + 1050000 ≤ s.cycle
        eff := fun s => { s with
          leader := some (lowest (s.reports.headD 0) (s.reports.drop 1)), reports := [], heard := s.cycle } }
  | .leaderHeartbeat => some
      { due := fun s => s.leader = some identity ∧ s.heard + 1050000 ≤ s.cycle
        eff := fun s => { s with heard := s.cycle, sent := s.sent ++ [.heartbeat s.round] } }
  | .heartbeatReceive _ => some { due := fun _ => True, eff := fun s => { s with heard := s.cycle } }
  | .treadleMessageReceive m => some
      { due := fun _ => True, eff := fun s => { s with treadles := s.treadles ++ [m] } }
  | .treadleAct => some
      { due := fun s => ∃ m, s.nextAct = some m
        eff := fun s =>
          match s.nextAct with
          | some m => State.updIface { s with treadles := s.treadles.erase m } m.vi fun v =>
              if v.dbgCapture.getLsbD 0 = false ∨ v.dbgCapture.getLsbD 2 = true then v
              else if m.action = 1 then { v with dbgCapture := v.dbgCapture ||| 2 }
              else if m.action = 2 then { v with dbgCapture := v.dbgCapture &&& ~~~2 }
              else if m.action = 3 then { v with filter := m.mask &&& 0xFFFF }
              else if m.action = 4 then { v with dbgCapture := v.dbgCapture &&& ~~~2 ||| 4 }
              else v
          | none => s }
  | .dbgCaptureWrite vi x => some
      { due := fun _ => True
        eff := fun s => s.updIface vi fun v => { v with
          dbgCapture := (x &&& 0xFFFFFF01) ||| if x.getLsbD 0 then 0 else v.dbgCapture &&& 6 } }
  | .sampleTake core => some
      { due := fun s => ∃ gk g b l, s.nextSampled core = some (gk, g) ∧ AMap.find? s.blocks g.block = some b ∧
          AMap.find? s.launches b.launch = some l ∧
          (s.coreRegs core).sampled + (s.iface l.vi).capPeriod * 1024 ≤ s.cycle
        eff := fun s =>
          match s.nextSampled core with
          | some (gk, g) =>
            match AMap.find? s.blocks g.block with
            | some b =>
              match AMap.find? s.launches b.launch with
              | some l =>
                let t := s.setCoreRegs core { s.coreRegs core with sampled := s.cycle, sampleGroup := gk }
                match s.context l.vi l.ctx with
                | some x => t.dropOrEnqueue x x.sampleQ (s.sample g b l)
                | none => t
              | none => s
            | none => s
          | none => s }
  | _ => none

end Sys2Proof.Claims

/-- The events of the module (01 R19; 04 R111; 11 R264, R266; 12 R279 to R283; 14 R302 to R305, R310). A hot reset wipes
the device where FULL is allowed, else resets every interface that the host owns (14 R303). -/
def Sys2Proof.Claims.ModuleEventsHappen : Prop :=
  HappensWhenDue moduleEvent ∧
  (∀ s : State, s.hotReset = true →
    (s.life = .provisioned ∨ (s.life = .deployed ∧ s.selfHosted = false)) →
    exec (.upstreamReset .hot) s = .next (wipedTo s 0 .due)) ∧
  ∀ s : State, ¬ (s.hotReset = true ∧ (s.life = .provisioned ∨ (s.life = .deployed ∧ s.selfHosted = false))) →
    exec (.upstreamReset .hot) s = .next
      ((s.ifaces.filter fun (e : Nat × Iface) => e.2.configured && e.2.hostOwned).foldl
        (fun (t : State) e => t.resetIface e.1) (if s.hotReset then s.configEvent else s))

/-- A reset of an interface: its launches, contexts, queues, images and enrolled keys are gone, memory that it owns reads
zero, and nothing else of memory changes. Here no queue request waits, and the interface is not 0, which has its
management queue again (14 R303, Table 14.5). -/
def Sys2Proof.Claims.AnInterfaceResetClearsTheInterface : Prop :=
  ∀ (s : State) (vi : Nat), vi ≠ 0 → s.homes = [] →
    let t := s.resetIface vi
    (∀ e ∈ t.launches, e.2.vi ≠ vi) ∧ (∀ e ∈ t.contexts, e.2.vi ≠ vi) ∧ (∀ e ∈ t.images, e.2.vi ≠ vi) ∧
    (t.iface vi).configured = false ∧ (t.iface vi).keys = [] ∧ (t.iface vi).hostOwned = (s.iface vi).hostOwned ∧
    (∀ v, v ≠ vi → t.iface v = s.iface v) ∧
    ∀ pa, isControlRow pa = false → t.memBytes pa 1 = if s.owns vi pa then [0] else s.memBytes pa 1

/-- Elections, heartbeats, treadle messages and capture (13 R288 to R292; 14 R308). The choice falls on the lowest
identity of the round; a message acts at its instant, the earliest first, and only on an armed capture that is not
frozen. -/
def Sys2Proof.Claims.PodAndCaptureEventsHappenWhenTheyAreDue : Prop :=
  Happens podEvent ∧
  ∀ (s : State) (m : TreadleMsg), s.nextAct = some m →
    let at_ (x : TreadleMsg) : Nat := x.stamp + max 2 (bitsOf (s.iface x.vi).dbgCapture.toNat 8 8) * 1000
    m ∈ s.treadles ∧ at_ m ≤ s.time ∧ ∀ x ∈ s.treadles, at_ x ≤ s.time → at_ m ≤ at_ x

/-- The events of the module, of its pod and of capture (13 R288 to R292; 14 R302 to R310). -/
def Obligations.ModuleAndPodEventsHappen : Prop :=
  ModuleEventsHappen ∧ PodAndCaptureEventsHappenWhenTheyAreDue

/-- A peer's access to exported memory is performed in committed memory and answered; one that no export entry covers,
that leaves the interface's memory, or that would load poisoned data is refused (14 R309). -/
def Sys2Proof.Claims.FabricAccessesReachExportedMemoryAlone : Prop :=
  ∀ (s : State) (r : FabricReq), let v := s.iface r.exportVi
    let n := match r.store with
      | some bs => bs.length
      | none => r.size
    let covered : Prop := v.configured = true ∧ v.exports ≠ 0 ∧ Config.exportCovers v.exports r = true ∧
      ∀ i < n, r.addr + i < 2 ^ 41 ∧ s.owns r.exportVi (r.addr + i) = true
    (¬ covered → exec (.fabricAccessReceive r) s = .next { s with sent := s.sent ++ [.fabricReply r.device none] }) ∧
    (∀ bs, covered → r.store = some bs → ∃ t, exec (.fabricAccessReceive r) s = .next t ∧
      t = { s with mem := t.mem, sent := s.sent ++ [.fabricReply r.device (some [])] } ∧
      (∀ a, (a < r.addr ∨ r.addr + bs.length ≤ a) → t.memByte a = s.memByte a) ∧
      ∀ i b, bs[i]? = some b → isControlRow (r.addr + i) = false → t.memByte (r.addr + i) = b) ∧
    (covered → r.store = none → (∀ i < n, s.poisoned 0 ((r.addr + i) / 64) = false) →
      exec (.fabricAccessReceive r) s =
        .next { s with sent := s.sent ++ [.fabricReply r.device (some (s.memBytes r.addr n))] }) ∧
    (covered → r.store = none → (∃ i < n, s.poisoned 0 ((r.addr + i) / 64) = true) →
      exec (.fabricAccessReceive r) s = .next { s with sent := s.sent ++ [.fabricReply r.device none] })

/-- What a reset clears of an interface, and what a peer reaches of one (14 R303, R309). -/
def Obligations.InterfacesAreResetAndReachedByPeers : Prop :=
  AnInterfaceResetClearsTheInterface ∧ FabricAccessesReachExportedMemoryAlone

namespace Sys2Proof.Claims

open Sys2Proof.Machine Sys2Proof.Safety

/-- A management command that is performed where it stands at the head of its queue: interface, code, the status and
result with which it is turned away, its result and what it makes of the machine (14 R297, Table 14.3). -/
structure Command where
  vi : Nat
  code : Nat
  stops : State → Cmd → Option (Nat × Nat)
  eff : State → Cmd → Nat × State

/-- Status 2 with result 0, status 4. -/
def invalid : Option (Nat × Nat) := some (2, 0)
def denied : Option (Nat × Nat) := some (4, 0)

/-- The context of an interface that a number names, and the launch of a command's context whose present attempt has
an LSN. -/
def ctxOf (s : State) (vi n : Nat) : Option Context := if n < 512 then s.context vi n else none
def launchNamed (s : State) (c : Cmd) (lsn : Nat) : Option (Nat × Launch) :=
  if (ctxOf s c.vi c.ctx).isNone then none
  else List.find? (fun e : Nat × Launch => e.2.vi == c.vi && e.2.ctx == c.ctx && e.2.lsn == lsn) s.launches

/-- The control word that CONTROL_WRITE or CONTROL_READ names, and why it may not (14 R301, Table 14.10). -/
def controlStop (s : State) (c : Cmd) (write : Bool) : Option (Nat × Nat) :=
  if 63 < c.op 0 ∨ 65535 < c.op 1 then invalid
  else
    match controlWord (c.op 1) with
    | none => invalid
    | some w =>
      let may : Bool := match w with
        | .policy | .hosting | .errcnt _ | .spare _ => c.vi == 0 && c.op 0 == 0
        | .vi | .quota => c.vi == 0 || (!write && c.op 0 == c.vi)
        | _ => c.vi == 0 || c.op 0 == c.vi
      if may = false then denied else if (s.iface (c.op 0)).configured = false then invalid else none

/-- What a command's addresses reach, an interface without the context reaching nothing. -/
def read (s : State) (c : Cmd) (a n : Nat) : Except Unit (List Byte × State) :=
  match c.reach with
  | none => .error ()
  | some r => match s.reachRead r a n with
    | .ok x => .ok x
    | .error _ => .error ()
def write (s : State) (c : Cmd) (a : Nat) (bs : List Byte) : Option State := c.reach.bind fun r => s.reachWrite r a bs

/-- A launch killed: a record that is not bound ends at once with status 5, one that commits is untouched (06 R153). -/
def killed (s : State) (lk : Nat) (l : Launch) : State :=
  match l.st with
  | .waitEligible | .checking | .waiting =>
    (s.writeCompletion { l with cause := 4, killed := true } 5).removeLaunch lk { l with cause := 4, killed := true }
  | .committing => s
  | _ => s.beginAbort lk 4 0 s.time

/-- The report of ATTEST up to its signature, and the signature (14 R307, Table 14.7). -/
def reportOf (s : State) (nonce : List Byte) : List Byte :=
  let part (bs : List Byte) : List Byte := (bs ++ leBytes 64 0).take 64
  let body := leBytes 2 1 ++ leBytes 1 (lifeCode s.life) ++ leBytes 1 s.selfHosted.toNat ++ leBytes 4 Config.stepping
    ++ leBytes 2 (s.device % 1024) ++ leBytes 6 0 ++ nonce ++ part Config.firmwareDigest ++ part Config.draftingDigest
    ++ leBytes 8 s.time ++ leBytes 4 0
  body ++ (Config.enclaveSign (sha512 body) ++ leBytes 132 0).take 132

/-- The management commands (04 R106; 06 R136, R140, R153, R485; 07 R183; 12 R270, R271; 13 R287, R291, R294; 14 R297
to R301, R307, R487). -/
def commandOf : Instr → Option Command
  | .publish vi => some
      { vi, code := 1
        stops := fun s c =>
          match c.reach with
          | none => invalid
          | some r => match s.publishAt vi r (c.op 0) with
            | .error (reason, offset) => some (2, reason + offset % 2 ^ 32 * 256)
            | .ok _ => none
        eff := fun s c =>
          match c.reach with
          | none => (0, s)
          | some r => match s.publishAt vi r (c.op 0) with
            | .error _ => (0, s)
            | .ok (h, t) =>
              (h, t.putBytes (c.at_ + 48) ((((AMap.find? t.images h).map fun i => i.digest).getD []).take 16)) }
  | .unpublish vi => some
      { vi, code := 2
        stops := fun s c =>
          match AMap.find? s.images (c.op 0) with
          | none => invalid
          | some i => if i.vi ≠ vi then denied else if i.published = false then invalid else none
        eff := fun s c => (0, { s with images := AMap.upd s.images (c.op 0) fun i => { i with published := false } }) }
  | .contextCreate vi => some
      { vi, code := 4
        stops := fun s c =>
          match read s c (c.op 0) 128 with
          | .error _ => invalid
          | .ok (d, _) =>
            if (∀ n ∈ span 1 256, s.context vi n ≠ none) ∨ contextOf vi 0 d = none then invalid else none
        eff := fun s c =>
          match read s c (c.op 0) 128, (span 1 256).find? fun n => (s.context vi n).isNone with
          | .ok (d, t), some n =>
            match contextOf vi n d with
            | some x => (n, { t with contexts := AMap.put t.contexts (ctxKey vi n) x })
            | none => (0, s)
          | _, _ => (0, s) }
  | .service vi => some
      { vi, code := 7
        stops := fun s c =>
          if launchNamed s c (c.op 0) = none ∨ 1536 ≤ c.op 1 ∨ 64 ≤ c.op 2 then invalid else none
        eff := fun s c =>
          match launchNamed s c (c.op 0) with
          | none => (0, s)
          | some (lk, _) =>
            let pages := s.waitedPages lk (c.op 1) (c.op 2)
            (0, if pages = [] then s.configEvent
              else if c.op 3 = 1 then pages.foldl (fun (t : State) p => t.releasePage lk p.1) s
              else
                let first := (pages.map fun p => p.2).foldl min ((pages.head?.map fun p => p.2).getD 0)
                (s.dropOps fun _ o => o.launch == lk && o.stall.any fun p => pages.any fun q => q.1 == p.1).beginAbort
                  lk 1 4 (stampAt first (c.op 1))) }
  | .release vi => some
      { vi, code := 8
        stops := fun s c => if launchNamed s c (c.op 0) = none then invalid else none
        eff := fun s c =>
          match launchNamed s c (c.op 0) with
          | none => (0, s)
          | some (lk, _) =>
            let faults := s.blocks.filterMap fun e : Nat × Block =>
              if e.2.launch = lk then e.2.fault.map fun f => (stampAt e.2.faultAt e.2.core, f.code.num) else none
            match faults with
            | [] => (0, s)
            | f :: fs =>
              let first := fs.foldl (fun m x => if x.1 < m.1 then x else m) f
              (0, s.beginAbort lk 1 first.2 first.1) }
  | .kill vi => some
      { vi, code := 9
        stops := fun s c =>
          if ctxOf s vi c.ctx = none then invalid
          else if c.op 0 ≠ 0 ∧ ∀ e ∈ s.launches, e.2.vi = vi → e.2.ctx = c.ctx → e.2.first ≠ c.op 0 ∧ e.2.lsn ≠ c.op 0
          then invalid
          else none
        eff := fun s c => (0, (s.launches.filter fun e => e.2.vi == vi && e.2.ctx == c.ctx
          && (c.op 0 == 0 || e.2.first == c.op 0 || e.2.lsn == c.op 0)).foldl (fun t e => killed t e.1 e.2) s) }
  | .stop vi => some
      { vi, code := 10
        stops := fun s c =>
          match launchNamed s c (c.op 0) with
          | none => invalid
          | some (_, l) => if s.noBlock l (c.op 1) then invalid else none
        eff := fun s c =>
          match launchNamed s c (c.op 0) with
          | none => (0, s)
          | some (lk, _) => (0, (s.namedBlocks lk (c.op 1)).foldl (fun (t : State) e =>
              if e.2.st = .halted ∨ e.2.st = .retired ∨ e.2.stopped = true then t
              else t.updBlock e.1 fun b => { b with stop := some (b.stop.getD { cause := 1 }) }) s) }
  | .profile vi => some
      { vi, code := 11
        stops := fun s c =>
          match read s c (c.op 0) 64 with
          | .error _ => invalid
          | .ok (key, t) =>
            match t.draftOf key with
            | none => invalid
            | some (_, d) =>
              if d.gen ≠ c.op 1 ∨ d.ready = false ∨ write t c (c.op 2) ((t.recordsOf d).flatMap fun n =>
                profileEntry n ((AMap.find? d.profiles n).getD {})) = none then invalid else none
        eff := fun s c =>
          match read s c (c.op 0) 64 with
          | .error _ => (0, s)
          | .ok (key, t) =>
            match t.draftOf key with
            | none => (0, s)
            | some (_, d) => (0, (write t c (c.op 2) ((t.recordsOf d).flatMap fun n =>
                profileEntry n ((AMap.find? d.profiles n).getD {}))).getD s) }
  | .treadle vi => some
      { vi, code := 12
        stops := fun _ c =>
          let action := field c.ops 0 1
          if action < 1 ∨ 4 < action ∨ 63 < field c.ops 1 1 then invalid
          else if vi ≠ 0 ∧ field c.ops 1 1 ≠ vi then denied
          else none
        eff := fun s c =>
          let m : TreadleMsg := { action := field c.ops 0 1, vi := field c.ops 1 1, origin := s.device
                                  mask := BitVec.ofNat 32 (field c.ops 4 4), stamp := s.time, lsn := 0 }
          (0, { s with sent := s.sent ++ [.treadle m], agenda := s.agenda ++ [.treadleMessageReceive m] }) }
  | .notifyTarget vi => some
      { vi, code := 13
        stops := fun s c =>
          match c.reach.bind fun r => s.reachAddr r false (c.op 0) with
          | none => invalid
          | some (pa, _) => if pa % 64 ≠ 0 ∨ 2 ^ 32 ≤ c.op 2 then invalid else none
        eff := fun s c =>
          match c.reach.bind fun r => s.reachAddr r false (c.op 0) with
          | none => (0, s)
          | some (pa, t) => (0, { t with notify := AMap.put t.notify (cellOf pa) { imsic := c.op 1, ident := c.op 2 } }) }
  | .enrolKey vi => some
      { vi, code := 14
        stops := fun s c =>
          match read s c (c.op 1) 133 with
          | .error _ => invalid
          | .ok (key, t) =>
            let keys := (t.iface vi).keys
            if c.op 0 < 1 ∨ 2 ^ 32 ≤ c.op 0 ∨ field key 0 1 ≠ 4 ∨
                (8 ≤ keys.length ∧ AMap.find? keys (c.op 0) = none) then invalid
            else none
        eff := fun s c =>
          match read s c (c.op 1) 133 with
          | .error _ => (0, s)
          | .ok (key, t) => (0, t.updIface vi fun v => { v with keys := AMap.put v.keys (c.op 0) key }) }
  | .attest vi => some
      { vi, code := 15
        stops := fun s c =>
          if c.reach = none ∨ (s.life ≠ .provisioned ∧ s.life ≠ .deployed) then invalid
          else
            match read s c (c.op 0) 32 with
            | .error _ => invalid
            | .ok (nonce, t) =>
              if write t c (c.op 1) (reportOf t nonce ++ Config.deviceChain) = none then invalid else none
        eff := fun s c =>
          match read s c (c.op 0) 32 with
          | .error _ => (0, s)
          | .ok (nonce, t) => (0, (write t c (c.op 1) (reportOf t nonce ++ Config.deviceChain)).getD s) }
  | .viConfig vi => some
      { vi, code := 16
        stops := fun s c =>
          let n := field c.ops 0 2
          if vi ≠ 0 then denied
          else if n < 1 ∨ 63 < n ∨ 1 < field c.ops 2 1 ∨ field c.ops 3 5 ≠ 0 ∨
              (c.op 2 ≠ 0 ∧ (bitsOf (c.op 2) 60 4 ≠ 10 ∨ bitsOf (c.op 2) 52 8 ≠ 0)) then invalid
          else if ((s.iface n).configured = false ∨ (s.iface n).quota ≠ c.op 1) ∧ s.findMemory n (c.op 1) = none then
            invalid
          else none
        eff := fun s c =>
          let n := field c.ops 0 2
          let old := s.iface n
          let same : Bool := old.configured && old.quota == c.op 1
          let base := if same then old.memBase else (s.findMemory n (c.op 1)).getD 0
          let t := s.updIface n fun v => { v with
            hostOwned := field c.ops 2 1 == 0, quota := c.op 1, memBase := base, hgatp := c.op 2
            stagingBase := c.op 3, stagingSize := c.op 4, exports := c.op 5, configured := true }
          let t := if same then t else t.zeroMemory n
          let t := if old.configured then t else t.makeQueue n
          ((t.iface n).mq, t) }
  | .debugAttach vi => some
      { vi, code := 17
        stops := fun s c =>
          match ctxOf s vi (c.op 0) with
          | none => invalid
          | some x =>
            match s.storeAddr (s.contextSpace x) (c.op 1) with
            | .error _ => invalid
            | .ok _ =>
              if c.op 1 = 0 ∨ c.op 1 % 4096 ≠ 0 ∨ isImmediate (attrFlags (s.contextSpace x).attrs (c.op 1)) = false then
                invalid
              else none
        eff := fun s c =>
          match ctxOf s vi (c.op 0) with
          | none => (0, s)
          | some x =>
            match s.storeAddr (s.contextSpace x) (c.op 1) with
            | .error _ => (0, s)
            | .ok (_, t) => (0, t.updContext vi (c.op 0) fun x => { x with dump := c.op 1 }) }
  | .debugResume vi => some
      { vi, code := 19
        stops := fun s c =>
          match launchNamed s c (c.op 0) with
          | none => invalid
          | some (_, l) => if s.noBlock l (c.op 1) then invalid else none
        eff := fun s c =>
          match launchNamed s c (c.op 0) with
          | none => (0, s)
          | some (lk, _) => (0, (s.namedBlocks lk (c.op 1)).foldl (fun (t : State) e => t.resumeHalted e.1) s) }
  | .debugDetach vi => some
      { vi, code := 18
        stops := fun s c => if ctxOf s vi (c.op 0) = none then invalid else none
        eff := fun s c =>
          let t := s.updContext vi (c.op 0) fun x => { x with dump := 0 }
          let lks := (s.launchesOf vi (c.op 0)).map fun e => e.1
          (0, (t.blocks.filter fun e : Nat × Block => lks.contains e.2.launch).foldl (fun (u : State) e =>
            (u.resumeHalted e.1).updBlock e.1 fun b =>
              { b with stop := b.stop.map fun r => { r with resume := true } }) t) }
  | .controlWrite vi => some
      { vi, code := 20
        stops := fun s c => controlStop s c true
        eff := fun s c =>
          match controlWord (c.op 1) with
          | some w => (0, s.writeControl (c.op 0) w (BitVec.ofNat 64 (c.op 2)))
          | none => (0, s) }
  | .controlRead vi => some
      { vi, code := 21
        stops := fun s c => controlStop s c false
        eff := fun s c =>
          match controlWord (c.op 1) with
          | some w => (0, s.putBytes (c.at_ + 48) (leBytes 8 (s.readControl (c.op 0) w).toNat))
          | none => (0, s) }
  | _ => none

end Sys2Proof.Claims

/-- A management command acts where it is the head of its interface's queue, and nowhere else: it is turned away with its
status and result, or has its effect and is done (14 R297 to R301, Table 14.3). -/
def Obligations.ManagementCommandsActAtTheHeadOfTheirQueue : Prop :=
  ∀ (i : Instr) (x : Command) (s : State), commandOf i = some x →
    ((∀ c, s.headCommand x.vi = some c → c.code ≠ x.code) → exec i s = .next s) ∧
    ∀ c, s.headCommand x.vi = some c → c.code = x.code →
      (∀ w, x.stops s c = some w → exec i s = .next (s.complete c w.1 w.2)) ∧
      (x.stops s c = none → exec i s = .next ((x.eff s c).2.complete c 1 (x.eff s c).1))

/-- The commands that do not end at once: REGISTER_LQ gives its queue a number and free slots go to waiting queues;
CONTEXT_DESTROY ends with the last launch and record of its context; SHOOTDOWN drops the entries it names and leaves
its word to SHOOTDOWN_COMPLETE; another code ends with status 3 (04 R111; 06 R485; 08 R191; 14 R297, R298). -/
def Obligations.LongCommandsHoldTheirQueue : Prop :=
  (∀ (s t : State) (vi pa : Nat) (c : Cmd) (x : Context), s.headCommand vi = some c → c.code = 3 →
    ctxOf s vi c.ctx = some x →
    let flags := attrFlags (s.contextSpace x).attrs (c.op 0)
    (c.op 0 % 64 ≠ 0 ∨ isImmediate flags = false ∨ isMside flags = false →
      exec (.registerLq vi) s = .next (s.complete c 2 0)) ∧
    (s.cbAddr (s.contextSpace x) (c.op 0) = .ok (pa, t) →
      t.corruption pa ≠ 0 ∨ (t.queue pa).esize ≠ 64 ∨ 7 < c.op 1 →
      exec (.registerLq vi) s = .next (s.complete c 2 0)) ∧
    (s.cbAddr (s.contextSpace x) (c.op 0) = .ok (pa, t) →
      t.corruption pa = 0 → (t.queue pa).esize = 64 → c.op 1 ≤ 7 →
      (∀ e ∈ t.queues, ¬ (e.2.vi = vi ∧ e.2.ctx = c.ctx ∧ e.2.cb = c.op 0)) →
      let n := ((t.queues.getLast?).map fun e => e.1).getD 0 + 1
      exec (.registerLq vi) s = .next ((State.fillSlots { t with
        queues := AMap.put t.queues n { vi, ctx := c.ctx, cb := c.op 0, prio := c.op 1 } }).complete c 1 n))) ∧
  (∀ (s : State) (vi : Nat) (c : Cmd) (x : Context), s.headCommand vi = some c → c.code = 5 →
    ctxOf s vi (c.op 0) = some x → x.closing = true →
    let due (d : Delivery) : Prop := d.vi = vi ∧ d.ctx = c.op 0
    ((∃ e ∈ s.launches, e.2.vi = vi ∧ e.2.ctx = c.op 0) ∨ (∃ d ∈ s.deliveries, due d) →
      exec (.contextDestroy vi) s = .next s) ∧
    ((∀ e ∈ s.launches, ¬ (e.2.vi = vi ∧ e.2.ctx = c.op 0)) → (∀ d ∈ s.deliveries, ¬ due d) →
      (∀ e ∈ s.homes, ∀ r ∈ e.2.wake ++ e.2.polling, ∀ d, r.who = .delivery d → ¬ due d) →
      exec (.contextDestroy vi) s = .next (State.complete { s with
        contexts := AMap.del s.contexts (ctxKey vi (c.op 0))
        pins := AMap.keep (fun k _ => k / 2 ^ 38 != ctxKey vi (c.op 0)) s.pins } c 1 0))) ∧
  (∀ (s : State) (vi : Nat) (c : Cmd), s.headCommand vi = some c → c.code = 6 →
    3 < c.op 0 ∨ (c.op 0 = 1 ∧ 2 ^ 8 ≤ c.op 1) ∨ (2 ≤ c.op 0 ∧ 2 ^ 16 ≤ c.op 1) →
    exec (.shootdown vi) s = .next (s.complete c 2 0)) ∧
  (∀ (s t : State) (vi pa : Nat) (c : Cmd), s.headCommand vi = some c → c.code = 6 → c.op 0 ≤ 3 →
    (c.op 0 = 1 → c.op 1 < 2 ^ 8) → (2 ≤ c.op 0 → c.op 1 < 2 ^ 16) →
    (c.op 0 = 1 → vi ≠ 0 → c.op 1 ≠ bitsOf (s.iface vi).hgatp 44 8 →
      exec (.shootdown vi) s = .next (s.complete c 4 0)) ∧
    ((c.op 0 = 1 → vi = 0 ∨ c.op 1 = bitsOf (s.iface vi).hgatp 44 8) → s.wordAddr c = some (pa, t) →
      let d : Shootdown := { vi, kind := c.op 0, ident := c.op 1, base := c.op 2, pages := c.op 3, word := pa }
      exec (.shootdown vi) s = .next (State.dropCommand { t.dropEntries d with
        shootdowns := AMap.put t.shootdowns t.next d, next := t.next + 1 } c))) ∧
  ∀ (s : State) (vi : Nat) (c : Cmd), s.headCommand vi = some c →
    (c.code = 0 ∨ 21 < c.code → exec (.unknownCommand vi) s = .next (s.complete c 3 0)) ∧
    (1 ≤ c.code → c.code ≤ 21 → exec (.unknownCommand vi) s = .next s)

/-- A command that ends writes its status and result as one word where it may, and its element leaves the queue; one
whose word may not be written is counted (14 R297). An operation of the queue port that is not free only writes its slot;
a free one is performed and reports (14 R299); an image pushed into the staging range is published if it verifies (14
R308). -/
def Obligations.CommandsAndPortOperationsReport : Prop :=
  (∀ (s t : State) (c : Cmd) (status result pa : Nat),
    (s.wordAddr c = some (pa, t) → s.complete c status result =
      (t.putBytes pa (leBytes 8 (status + result % 2 ^ 56 * 256))).dropCommand c) ∧
    (s.wordAddr c = none → s.complete c status result = (s.countError 10 3 0 c.vi c.ctx 0 0).dropCommand c)) ∧
  (∀ (s : State) (c : Cmd), let cb := (s.iface c.vi).mq
    cb % 64 = 0 → isControlRow cb = false → (s.home cb).wake = [] → (s.home cb).polling = [] →
    (s.queue cb).free + 1 < 2 ^ 32 →
    let t := s.dropCommand c
    (t.queue cb).head = ((s.queue cb).head + 1) % 2 ^ 64 ∧ (t.queue cb).free = (s.queue cb).free + 1 ∧
      (t.queue cb).tail = (s.queue cb).tail) ∧
  (∀ (s : State) (vi slot : Nat) (x : BitVec 512) (host : Bool),
    ((s.iface vi).configured = false ∨ 64 ≤ slot → exec (.queuePortStart vi slot x host) s = .next s) ∧
    ((s.iface vi).configured = true → slot < 64 → ∃ t : State,
      t = { s with ifaces := t.ifaces } ∧
      (∀ k < 64, Cells.get (t.iface vi).port (slot * 64 + k) = BitVec.ofNat 8 (x.toNat / 256 ^ k)) ∧
      ((x.toNat / 256) % 256 ≠ 0 → exec (.queuePortStart vi slot x host) s = .next t) ∧
      ((x.toNat / 256) % 256 = 0 → let e := t.portRun vi host (leBytes 64 x.toNat)
        ∃ u : State, exec (.queuePortStart vi slot x host) s = .next u ∧ u = { e.st with ifaces := u.ifaces } ∧
          Cells.get (u.iface vi).port (slot * 64 + 1) = BitVec.ofNat 8 e.status ∧
          Cells.get (u.iface vi).port (slot * 64 + 2) = BitVec.ofNat 8 e.fault))) ∧
  ∀ (s t : State) (p : ImagePush) (img : List Byte), s.readImage (.physical p.vi) p.addr = .ok (img, t) →
    let v := s.iface p.vi
    let good : Prop := v.configured = true ∧ p.digestMatches = true ∧ v.stagingBase ≤ p.addr ∧
      p.addr + img.length ≤ v.stagingBase + v.stagingSize ∧ s.imageFault p.vi img = none
    (good → exec (.imagePushReceive p) s = .next (s.install p.vi p.addr img).2) ∧
    (¬ good → exec (.imagePushReceive p) s = .next s)

namespace Sys2Proof.Claims

open Sys2Proof.Machine Sys2Proof.Safety

/-- The instructions of the catalogue that the Fleper carrier holds: all but STGW (15 R329). -/
def onFleper : Instr → Bool
  | .nop .. | .bra .. | .brx .. | .call .. | .callx .. | .ret .. | .exit .. | .trap .. | .trapHandler ..
  | .tret .. | .brk .. | .yield .. | .reform .. | .iadd .. | .isub .. | .imul .. | .imulhi .. | .imad ..
  | .idiv .. | .irem .. | .ineg .. | .iabs .. | .imin .. | .imax .. | .icmp .. | .lea .. | .and .. | .andn ..
  | .or .. | .xor .. | .not .. | .shl .. | .shr .. | .bfi .. | .bfx .. | .brev .. | .clz .. | .ctz ..
  | .popc .. | .sel .. | .mov .. | .fadd .. | .fsub .. | .fmul .. | .ffma .. | .fdiv .. | .fsqrt .. | .frcp ..
  | .frsq .. | .fexp2 .. | .flog2 .. | .ftanh .. | .fmin .. | .fmax .. | .fcmp .. | .fsgn .. | .fclass ..
  | .fcvt .. | .fcvti .. | .icvtf .. | .bpenc .. | .bpdec .. | .plop .. | .pmov .. | .ballot .. | .vote ..
  | .shfl .. | .gred .. | .gscan .. | .ld .. | .st .. | .ldt .. | .stt .. | .fence .. | .drain .. | .lock ..
  | .unlock .. | .atom .. | .atombadd .. | .atomcas .. | .enq .. | .enqtry .. | .deq .. | .deqtry ..
  | .qinit .. | .qstat .. | .bararm .. | .bararr .. | .barwait .. | .barrot .. | .barsync .. | .pollbk ..
  | .tdecl .. | .tfree .. | .tstateRead .. | .tstateReady .. | .tload .. | .tstore .. | .copy .. | .reduce ..
  | .rowop .. | .flush .. | .inval .. | .trig .. | .mma .. | .latch .. | .gatherTile .. | .gatherSpad ..
  | .accscale .. | .accrd .. | .accwr .. | .accclr .. | .sysrd .. | .syswr .. | .clock .. | .satarm ..
  | .satclr .. | .satrd .. => true
  | _ => false

/-- The selected path may issue: its group stands, and the path is the one by which the group is eligible (08 R202). -/
def Selected (s : State) : Prop :=
  ∀ cur, s.cur = some cur → cur.slot = none ∧
    ∃ g, AMap.find? s.groups cur.grp = some g ∧ s.eligible g = some cur.path

/-- What every step keeps of storage and tables: memory and the storage of the cores in their canonical form, the
tables in order, shadow lines within the cells of memory (01 R12), the launch-queue slots distinct and below 256 (08
R191), every context under its own number (14 R298), DCNEXT and the error counters within their fields (12 Table 12.7;
14 Table 14.1). -/
structure Kept (s : State) : Prop where
  mem : Memory.wf s.mem = true
  groups : AMap.rising s.groups = true
  blocks : AMap.rising s.blocks = true
  launches : AMap.rising s.launches = true
  engines : AMap.rising s.engines = true
  remote : AMap.rising s.remote = true
  spad : Cells.wf s.spad = true
  acc : Cells.wf s.acc = true
  cregs : Cells.wf s.cregs = true
  coreCache : AMap.rising s.coreCache = true
  dieCache : AMap.rising s.dieCache = true
  shadow : AMap.rising s.shadow = true
  shadowLines : ∀ e ∈ s.shadow, e.1 % 2 ^ 35 < 2 ^ 34
  drafts : AMap.rising s.drafts = true
  contexts : AMap.rising s.contexts = true
  queues : AMap.rising s.queues = true
  slots : ∀ e ∈ s.queues, ∀ i, e.2.slot = some i → i < 256
  slotsApart : ∀ e ∈ s.queues, ∀ f ∈ s.queues, e.2.slot = f.2.slot → e.2.slot ≠ none → e.1 = f.1
  numbers : ∀ e ∈ s.contexts, e.1 = ctxKey e.2.vi e.2.num ∧ e.2.num < 512
  dcNext : s.dcNext < 16
  errcnt : ∀ d, (Cells.get s.errcnt d).toNat < 2 ^ 48

end Sys2Proof.Claims

/-- Decoding and encoding agree: every well-formed instruction that the Fleper carrier holds has an encoding, and it
decodes to that instruction, with every operand at every value, whatever follows it; what decodes is well-formed and
takes 8, 12, 16 or 20 bytes (15 R311 to R322, R330). -/
def Obligations.DecodeReadsWhatEncodeWrites : Prop :=
  (∀ i : Instr, i.wf = true → (onFleper i = true ↔ ∃ bs, encode i = some bs)) ∧
  (∀ (i : Instr) (bs rest : List Byte), i.wf = true → encode i = some bs → decode (bs ++ rest) = .ok (i, bs.length)) ∧
  ∀ (i : Instr) (n : Nat) (bs : List Byte), decode bs = .ok (i, n) →
    i.wf = true ∧ onFleper i = true ∧ n ∈ [8, 12, 16, 20] ∧ n ≤ bs.length

/-- The worked encodings of the spec decode to their instructions: one or more of each family (15 Table 15.1, R316; 16
R334; 17 R349; 18 R378, R392; 19 R408; 20 R422, R427, R439; 21 R451), and the native load of 15 R326. -/
def Obligations.WordsOfTheSpecDecodeToTheirInstructions : Prop :=
  let read (xs : List Nat) : Except DecodeError (Instr × Nat) := decode (xs.map fun x => BitVec.ofNat 8 x)
  read [0x7F, 0x2F, 0x00, 0x07, 0x10, 0xE1, 0x28, 0x30, 0x00, 0x00, 0xFC, 0x33] =
    .ok (.fadd (.pred 3 true) .f32 .rz (.v 7) (.v 2) (.imm 0x3FC00000), 12) ∧
  read [0x00, 0x40, 0x00, 0x05, 0x10, 0xD1, 0x1B, 0x60, 0x10, 0x00, 0x00, 0x50] =
    .ok (.ld .always .n32 .acq .device (.v 5) { space := .g, base := .v 4, off := 16 }, 12) ∧
  read [0x06, 0x40, 0x00, 0x05, 0x20, 0xD3, 0x1B, 0x7A, 0x07, 0x00, 0x00, 0x20, 0x08, 0x00, 0x00, 0x50, 0x02, 0x00, 0x00, 0x70] =
    .ok (.atombadd .always .n32 .rel .device false (some (.v 5)) 2 { space := .g, base := .v 4, off := 8 } (.v 6)
      (.v 7) {}, 20) ∧
  read [0x06, 0x40, 0x00, 0x00, 0x00, 0xD2, 0x43, 0x91, 0x08, 0x00, 0x00, 0x20, 0x00, 0x00, 0x80, 0x68] =
    .ok (.copy .always 1 {} (some { scope := .device, dstSpace := .g, srcSpace := .g, dst := .v 4, src := .v 6
                                    count := .v 8, arrival := .none }), 16) ∧
  read [0x00, 0x30, 0x00, 0x08, 0x40, 0xC0, 0xEB, 0x41] = .ok (.fcvt .always .e4m3 .f32 .rs (.v 8) (.v 3), 8) ∧
  read [0x02, 0x10, 0x00, 0x09, 0x10, 0xC1, 0x0B, 0x11, 0x03, 0x00, 0x00, 0x20] =
    .ok (.imad .always .i32 true (.v 9) (.v 1) (.v 2) (.v 3), 12) ∧
  read [0x00, 0x00, 0x00, 0x00, 0x00, 0xC1, 0xEB, 0xA2, 0x10, 0x00, 0x30, 0x70] =
    .ok (.mma .always .e4m3 .e5m2 0 0 false 3 0 1, 12) ∧
  read [0x00, 0x00, 0x00, 0x00, 0x10, 0xC1, 0xC3, 0x02, 0x28, 0x00, 0x00, 0x50] = .ok (.reform .always (some 40), 12) ∧
  read [0x04, 0x30, 0x00, 0x00, 0x20, 0xD1, 0x1F, 0x61, 0x00, 0x00, 0x44, 0x60] =
    .ok (.st .always .n64 .rel .device { space := .g, base := .v 3 } (.v 4) { c0 := some 1 }, 12) ∧
  read [0x00, 0x00, 0x00, 0x00, 0x00, 0xC1, 0x03, 0x00, 0x00, 0x00, 0x00, 0x50] = .ok (.nop .always true, 12) ∧
  (NSlot.parse 0x601BC6000604F001).instr (.mem 0) .core 32 =
    .ok (.ld .always .n32 .rlx .core (.creg 6) { space := .g, base := .creg 4 })

/-- What a step makes of the outcome of what issued: the executions of paths that are gone end with it, and the step
closes. -/
def Sys2Proof.Claims.stepOf (s : State) (c : Ctx) :
    Host.Outcome State Fault Refusal → Host.Outcome State Fault Refusal
  | .next u => .next (u.endGone s c).closeStep
  | o => o

/-- Of the Fleper carrier: the bytes at the program counter decode to an instruction, and the step is its meaning, in
a state that differs only in what the path and its draft count; where regions of matrix runs end before it, the step
is their commit (02 R29; 10 R238; 15 R311). -/
def Sys2Proof.Claims.AFleperStepRunsTheDecodedInstruction : Prop :=
  ∀ (s : State) (c : Ctx), s.phase = .running → s.ctx .always = some c → isNative (s.imageBytes c.l) = false →
    (∀ e, decode (s.fetchBytes c) = .error e → step s = .fault .undecodable) ∧
    ∀ i len, decode (s.fetchBytes c) = .ok (i, len) →
      (s.endsHere c ≠ [] → step s = stepOf s c (exec .regionCommit s)) ∧
      (s.endsHere c = [] → ∃ (t : State) (d : Ctx), step s = stepOf s c (exec i t) ∧
        t = { s with groups := t.groups, drafts := t.drafts, cur := some { c.cur with len } } ∧
        t.ctx .always = some d ∧ d.b = c.b ∧ d.l = c.l ∧ d.lanes = c.lanes ∧ d.after = c.p.pc + len ∧
        d.g = { c.g with paths := c.g.paths.set c.cur.path d.p } ∧
        d.p = { c.p with begun := true, met := false, execs := d.p.execs, cp := d.p.cp })

/-- Of the native carrier: at a commit point the open regions that end there complete, then the path stands at its
poll point if its block is marked, waits while the store buffer has no room, or goes on with the slots of its bundle
one after another; a bundle that holds an irreversible slot is left sealed, and its region's completion and that slot
are the next step (02 R29, R45; 03 R61 to R63; 15 R323; 17 R371). -/
def Sys2Proof.Claims.ANativeStepIssuesTheBundle : Prop :=
  (∀ (s : State) (c : Ctx), s.phase = .running → s.ctx .always = some c → isNative (s.imageBytes c.l) = true →
    (∀ e, decodeBundle (s.fetchBytes c) (s.stageOf c.b c.l).regs = .error e → step s = .fault .undecodable) ∧
    ∀ b, decodeBundle (s.fetchBytes c) (s.stageOf c.b c.l).regs = .ok b →
      let stops : Prop := b.poll = true ∧ c.p.wait ≠ .poll ∧ c.b.marked c.l = true
      (c.p.sealed = true → step s = stepOf s c (s.performLate c b)) ∧
      (c.p.sealed = false → b.commit = true → c.p.begun = false →
        (s.endsHere c ≠ [] → step s = stepOf s c (exec .regionCommit s)) ∧
        (s.endsHere c = [] → stops → step s = stepOf s c (.next (s.atPollBundle c))) ∧
        (s.endsHere c = [] → ¬ stops → s.openRegion c b = none →
          step s = stepOf s c (.next (s.countStalls 1 c.cur.grp c.g)))) ∧
      (c.p.sealed = false → b.commit = false ∨ c.p.begun = true ∨
          (s.endsHere c = [] ∧ ¬ stops ∧ s.openRegion c b ≠ none) →
        ∃ (t : State) (d : Ctx), t.ctx .always = some d ∧ d.cur = c.cur ∧
        d.b = c.b ∧ d.l = c.l ∧ d.lanes = c.lanes ∧ d.p.pc = c.p.pc ∧
        (∀ f, t.runSlots d b (slotOrder b) t = .fault f → step s = .fault f) ∧
        (∀ u, t.runSlots d b (slotOrder b) t = .next u → u.slotStops d = true → step s = stepOf s c (.next u)) ∧
        ∀ u, t.runSlots d b (slotOrder b) t = .next u → u.slotStops d = false →
          (∀ v, t.runSlots d b (u.sealBundle d b) u = .next v → v.slotStops d = true → step s = stepOf s c (.next v)) ∧
          ∀ v, t.runSlots d b (u.sealBundle d b) u = .next v → v.slotStops d = false → ∃ w : State,
            w = { v with groups := w.groups, drafts := w.drafts, blocks := w.blocks, withheld := w.withheld
                         cycle := v.cycle + (t.beats b - 1) } ∧
            (lateSlot b = none → step s = stepOf s c (.next (w.endBundle d b))) ∧
            (lateSlot b ≠ none → step s = stepOf s c
              (.next (w.updPath c.cur.grp c.cur.path fun p => { p with sealed := true }))))) ∧
  (∀ (s t u : State) (c : Ctx) (b : Bundle) (x : Machine.Placed) (xs : List Machine.Placed),
    exec x.2.2.2 { t with cur := some (slotCur c b x) } = .next u → u.slotStops c = false →
    s.runSlots c b (x :: xs) t = s.runSlots c b xs u ∧ s.runSlots c b [] u = .next u) ∧
  ∀ (s : State) (c : Ctx) (b : Bundle) (x : Machine.Placed), lateSlot b = some x →
    (s.fillsDue c = true → s.performLate c b = .next (s.waitOn c (.latch 0))) ∧
    (s.fillsDue c = false → Instr.control x.2.2.2 = true ∨ s.slotBlocked c (slotCur c b x) x.2.2.2 false = false →
      let t := s.completeRegion c fun e => Instr.control x.2.2.2 && (match e.dst with
        | .pred _ _ => false
        | _ => true)
      (t.slotStops c = true → s.performLate c b = .next t) ∧
      (t.slotStops c = false → s.performLate c b = exec x.2.2.2 { t with cur := some (slotCur c b x) }))

/-- With no path selected, the step is the event asked for; the boot, where it is due (14 R304; log entries 2, 6, 57). -/
def Sys2Proof.Claims.AStepWithoutAPathIsAnEvent : Prop :=
  (∀ (s : State) (i : Instr) (rest : List Instr), s.phase = .running → s.cur = none → s.agenda = i :: rest →
    (choosesIssue i = false → step s = endStep (exec i { s with agenda := rest })) ∧
    (choosesIssue i = true → step s = exec i { s with agenda := rest })) ∧
  (∀ (s : State), s.phase = .due → step s = endStep (exec (.boot
    { verified := Config.bootVerified, failing := Config.failingBanks, sparing := Config.sparingStatus
      unwiped := Config.unwipedBanks }) s)) ∧
  ∀ (s t : State), endStep (.next s) = .next t → t.cur = none

/-- A step runs the decoded instruction, or the slots of the decoded bundle, or the event asked for; after what issued
nothing is selected (02 R29; 03 R62, R63; 10 R238; 15 R311, R323). -/
def Obligations.AStepRunsTheDecodedInstruction : Prop :=
  AFleperStepRunsTheDecodedInstruction ∧ ANativeStepIssuesTheBundle ∧ AStepWithoutAPathIsAnEvent

/-- From every state, what a step leaves selected to issue is a path that may issue: of a group that stands, in a block
and a launch that issue, not waiting, and with fewer than 64 bundles in its turn (02 R30; 08 R202). -/
def Obligations.WhatIsSelectedMayIssue : Prop :=
  ∀ s t : State, Selected s → step s = .next t → Selected t

/-- Every step keeps storage in its canonical form, the tables in order, shadow lines within memory, the launch-queue
slots distinct and below 256 (08 R191), contexts under their numbers (14 R298), and DCNEXT and the error counters
within their fields (12 Table 12.7; 14 Table 14.1). -/
def Obligations.EveryStepKeepsTheFormsOfStorage : Prop :=
  ∀ s t : State, Kept s → step s = .next t → Kept t

/-- After reset the boot is due, the timebase is 0, nothing is selected, and every control word of every interface reads
as the Reset column of its field map says, where that column gives a value (02 Table 2.3; 03 Table 3.6; 04 Table 4.9; 06
Table 6.10; 08 Tables 8.2, 8.3; 12 Table 12.7; 13 R289, Table 13.4; 14 R304, Table 14.1); both invariants hold. -/
def Obligations.ResetLeavesTheStatedValues : Prop :=
  let w := State.reset.readControl
  State.reset.phase = .due ∧ State.reset.time = 0 ∧ State.reset.cur = none ∧
  (∀ vi, w vi .policy = BitVec.ofNat 64 (1000 * 2 ^ 32 + 100 * 2 ^ 16 + 4) ∧
    w vi .vi = BitVec.ofNat 64 (1536 * 2 ^ 32 + 256 * 2 ^ 8) ∧ w vi .age = 256 ∧
    w vi .profile = BitVec.ofNat 64 (192 * 2 ^ 24 + 60 * 2 ^ 16 + 2 * 2 ^ 8 + 1) ∧ w vi .quota = 0 ∧
    w vi .replay = BitVec.ofNat 64 (7 * 2 ^ 4 + 2) ∧ w vi .capture = BitVec.ofNat 64 (2 * 2 ^ 8) ∧
    (w vi .hosting).toNat / 2 ^ 4 % 2 ^ 4 = 4 ∧ (w vi .hosting).getLsbD 1 = !(w vi .hosting).getLsbD 0 ∧
    ∀ d < 11, w vi (.errcnt d) = BitVec.ofNat 64 (d * 2 ^ 52)) ∧
  Selected State.reset ∧ Kept State.reset
end

