-- ==== Sys2Proof/Laws/Maps.lean ====
section
/-! SUPPORT. Sparse storage: what is read after a write, and that every operation keeps the canonical
form. -/

namespace Sys2Proof.Machine

theorem AMap.find?_put_same {α : Type} (m : AMap α) (n : Nat) (v : α) :
    AMap.find? (AMap.put m n v) n = some v := by
  induction m with
  | nil => simp [AMap.put, AMap.find?]
  | cons e m ih =>
    obtain ⟨k, x⟩ := e
    simp only [AMap.put]
    split
    · simp [AMap.find?]
    · split <;> simp_all [AMap.find?]

theorem AMap.find?_put_other {α : Type} (m : AMap α) {n k : Nat} (v : α) (h : k ≠ n) :
    AMap.find? (AMap.put m n v) k = AMap.find? m k := by
  induction m with
  | nil => simp [AMap.put, AMap.find?, Ne.symm h]
  | cons e m ih =>
    obtain ⟨i, x⟩ := e
    simp only [AMap.put]
    split
    · next hi => subst hi; simp [AMap.find?, Ne.symm h]
    · split
      · simp [AMap.find?, Ne.symm h]
      · simp [AMap.find?, ih]

/-- Reading after a write. -/
theorem AMap.find?_put {α : Type} (m : AMap α) (n k : Nat) (v : α) :
    AMap.find? (AMap.put m n v) k = if k = n then some v else AMap.find? m k := by
  split
  · next h => subst h; exact AMap.find?_put_same m k v
  · next h => exact AMap.find?_put_other m v h

theorem AMap.find?_filter {α : Type} (m : AMap α) (p : Nat → Bool) (k : Nat) :
    AMap.find? (m.filter fun e => p e.1) k = if p k then AMap.find? m k else none := by
  induction m with
  | nil => simp [AMap.find?]
  | cons e m ih =>
    obtain ⟨i, x⟩ := e
    by_cases hp : p i = true
    · simp only [List.filter_cons, hp, if_true, AMap.find?, ih]
      by_cases hk : i = k <;> simp_all
    · simp only [List.filter_cons, AMap.find?]
      by_cases hk : i = k <;> simp_all

theorem AMap.find?_del {α : Type} (m : AMap α) (n k : Nat) :
    AMap.find? (AMap.del m n) k = if k = n then none else AMap.find? m k := by
  have h := AMap.find?_filter m (fun x => x != n) k
  simp only [AMap.del, h, bne_iff_ne, ne_eq]
  by_cases hk : k = n <;> simp [hk]

theorem AMap.find?_upd {α : Type} (m : AMap α) (n k : Nat) (f : α → α) :
    AMap.find? (AMap.upd m n f) k = if k = n then (AMap.find? m n).map f else AMap.find? m k := by
  unfold AMap.upd
  cases h : AMap.find? m n with
  | none => by_cases hk : k = n <;> simp_all
  | some x => simp [AMap.find?_put]

@[simp] theorem AMap.find?_upd_same {α : Type} (m : AMap α) (n : Nat) (f : α → α) :
    AMap.find? (AMap.upd m n f) n = (AMap.find? m n).map f := by simp [AMap.find?_upd]

theorem AMap.find?_upd_other {α : Type} (m : AMap α) {n k : Nat} (f : α → α) (h : k ≠ n) :
    AMap.find? (AMap.upd m n f) k = AMap.find? m k := by simp [AMap.find?_upd, h]

theorem AMap.put_put {α : Type} (m : AMap α) (n : Nat) (v w : α) :
    AMap.put (AMap.put m n v) n w = AMap.put m n w := by
  induction m with
  | nil => simp [AMap.put]
  | cons e m ih =>
    obtain ⟨k, x⟩ := e
    simp only [AMap.put]
    split
    · simp [AMap.put]
    · next h =>
      split
      · simp [AMap.put]
      · next h' => simp [AMap.put, h, h', ih]

theorem AMap.upd_upd {α : Type} (m : AMap α) (n : Nat) (f g : α → α) :
    AMap.upd (AMap.upd m n f) n g = AMap.upd m n fun x => g (f x) := by
  have h := AMap.find?_upd_same m n f
  cases hm : AMap.find? m n with
  | none =>
    have e : AMap.upd m n f = m := by simp [AMap.upd, hm]
    rw [e]
    simp [AMap.upd, hm]
  | some x =>
    rw [hm] at h
    unfold AMap.upd at h ⊢
    rw [hm] at h ⊢
    simp only [Option.map_some] at h ⊢
    rw [h]
    exact AMap.put_put m n (f x) (g (f x))

/-- The word read after a write. -/
theorem Cells.get_set {w : Nat} (m : Cells w) (n k : Nat) (v : BitVec w) :
    Cells.get (Cells.set m n v) k = if k = n then v else Cells.get m k := by
  unfold Cells.get Cells.set
  split
  · next h => by_cases hk : k = n <;> simp [AMap.find?_del, hk, h]
  · by_cases hk : k = n <;> simp [AMap.find?_put, hk]

@[simp] theorem Cells.get_set_same {w : Nat} (m : Cells w) (n : Nat) (v : BitVec w) :
    Cells.get (Cells.set m n v) n = v := by simp [Cells.get_set]

theorem Cells.get_set_other {w : Nat} (m : Cells w) {n k : Nat} (v : BitVec w) (h : k ≠ n) :
    Cells.get (Cells.set m n v) k = Cells.get m k := by simp [Cells.get_set, h]

@[simp] theorem Cells.get_nil {w : Nat} (k : Nat) : Cells.get ([] : Cells w) k = 0 := rfl

/-! Keys rise. -/

theorem risingFrom_weaken {α : Type} {lo lo' : Nat} {m : AMap α} (h : risingFrom lo m = true)
    (hl : lo' ≤ lo) : risingFrom lo' m = true := by
  cases m with
  | nil => rfl
  | cons e m =>
    obtain ⟨k, x⟩ := e
    simp only [risingFrom, Bool.and_eq_true, decide_eq_true_eq] at *
    exact ⟨by omega, h.2⟩

theorem risingFrom_put {α : Type} {lo n : Nat} {m : AMap α} (v : α) (h : risingFrom lo m = true)
    (hn : lo ≤ n) : risingFrom lo (AMap.put m n v) = true := by
  induction m generalizing lo with
  | nil => simp [AMap.put, risingFrom, hn]
  | cons e m ih =>
    obtain ⟨k, x⟩ := e
    simp only [risingFrom, Bool.and_eq_true, decide_eq_true_eq] at h
    simp only [AMap.put]
    split
    · next hk => subst hk; simp [risingFrom, h]
    · split
      · next hlt => simp [risingFrom, hn, h.2]; omega
      · have := ih h.2 (by omega)
        simp [risingFrom, h.1, this]

theorem risingFrom_filter {α : Type} {lo : Nat} {m : AMap α} (p : Nat × α → Bool)
    (h : risingFrom lo m = true) : risingFrom lo (m.filter p) = true := by
  induction m generalizing lo with
  | nil => rfl
  | cons e m ih =>
    obtain ⟨k, x⟩ := e
    simp only [risingFrom, Bool.and_eq_true, decide_eq_true_eq] at h
    by_cases hp : p (k, x) = true
    · simp [hp, risingFrom, h.1, ih h.2]
    · have := ih h.2
      simp only [List.filter_cons, hp]
      exact risingFrom_weaken this (by omega)

theorem AMap.rising_put {α : Type} {m : AMap α} (n : Nat) (v : α) (h : AMap.rising m = true) :
    AMap.rising (AMap.put m n v) = true := risingFrom_put v h (Nat.zero_le n)

theorem AMap.rising_del {α : Type} {m : AMap α} (n : Nat) (h : AMap.rising m = true) :
    AMap.rising (AMap.del m n) = true := risingFrom_filter _ h

theorem AMap.rising_upd {α : Type} {m : AMap α} (n : Nat) (f : α → α) (h : AMap.rising m = true) :
    AMap.rising (AMap.upd m n f) = true := by
  unfold AMap.upd
  cases AMap.find? m n with
  | none => exact h
  | some x => exact AMap.rising_put n (f x) h

theorem AMap.mem_put {α : Type} {m : AMap α} {n : Nat} {v : α} {e : Nat × α}
    (h : e ∈ AMap.put m n v) : e = (n, v) ∨ e ∈ m := by
  induction m with
  | nil => simpa [AMap.put] using h
  | cons x m ih =>
    obtain ⟨k, y⟩ := x
    simp only [AMap.put] at h
    split at h
    · rcases List.mem_cons.1 h with h | h
      · exact .inl h
      · exact .inr (List.mem_cons_of_mem _ h)
    · split at h
      · rcases List.mem_cons.1 h with h | h
        · exact .inl h
        · exact .inr h
      · rcases List.mem_cons.1 h with h | h
        · exact .inr (h ▸ List.mem_cons_self)
        · rcases ih h with h | h
          · exact .inl h
          · exact .inr (List.mem_cons_of_mem _ h)

/-- A write keeps the canonical form of cells. -/
theorem Cells.wf_set {w : Nat} {m : Cells w} (n : Nat) (v : BitVec w) (h : Cells.wf m = true) :
    Cells.wf (Cells.set m n v) = true := by
  simp only [Cells.wf, Bool.and_eq_true, List.all_eq_true] at h ⊢
  unfold Cells.set
  split
  · exact ⟨AMap.rising_del n h.1, fun e he => h.2 e (List.mem_of_mem_filter he)⟩
  · next hv =>
    refine ⟨AMap.rising_put n v h.1, fun e he => ?_⟩
    rcases AMap.mem_put he with rfl | he
    · simpa using hv
    · exact h.2 e he

theorem Cells.wf_keep {w : Nat} {m : Cells w} (p : Nat → BitVec w → Bool) (h : Cells.wf m = true) :
    Cells.wf (AMap.keep p m : Cells w) = true := by
  simp only [Cells.wf, Bool.and_eq_true, List.all_eq_true] at h ⊢
  exact ⟨risingFrom_filter _ h.1, fun e he => h.2 e (List.mem_of_mem_filter he)⟩

theorem Cells.wf_clear {w : Nat} {m : Cells w} (lo hi : Nat) (h : Cells.wf m = true) :
    Cells.wf (Cells.clear m lo hi) = true := Cells.wf_keep _ h

/-- Keys outside a key range of `keep` read as before. -/
theorem AMap.find?_keep {α : Type} (m : AMap α) (p : Nat → Bool) (k : Nat) :
    AMap.find? (AMap.keep (fun n _ => p n) m) k = if p k then AMap.find? m k else none :=
  AMap.find?_filter m p k

theorem Cells.get_clear {w : Nat} (m : Cells w) (lo hi k : Nat) :
    Cells.get (Cells.clear m lo hi) k = if lo ≤ k ∧ k < hi then 0 else Cells.get m k := by
  unfold Cells.get Cells.clear
  rw [AMap.find?_keep]
  by_cases h : lo ≤ k ∧ k < hi
  · rw [if_neg (by simp; omega), if_pos h]; rfl
  · rw [if_pos (by simp; omega), if_neg h]

/-! Lists by place. -/

theorem updAt_eq_set {α : Type} (f : α → α) (l : List α) (i : Nat) (x : α) (h : l[i]? = some x) :
    updAt f l i = l.set i (f x) := by
  induction l generalizing i with
  | nil => simp at h
  | cons y l ih => cases i with
    | zero => simp at h; simp [updAt, h]
    | succ i => simp at h; simp [updAt, ih i h]

theorem getElem?_updAt {α : Type} (f : α → α) (l : List α) (i j : Nat) :
    (updAt f l i)[j]? = if i = j then l[j]?.map f else l[j]? := by
  induction l generalizing i j with
  | nil => simp [updAt]
  | cons y l ih => cases i with
    | zero => cases j <;> simp [updAt]
    | succ i => cases j with
      | zero => simp [updAt]
      | succ j => simp [updAt, ih i j]

theorem length_updAt {α : Type} (f : α → α) (l : List α) (i : Nat) :
    (updAt f l i).length = l.length := by
  induction l generalizing i with
  | nil => rfl
  | cons y l ih => cases i <;> simp [updAt, ih]

theorem mem_span (lo n k : Nat) : k ∈ span lo n ↔ lo ≤ k ∧ k < lo + n := by
  induction n generalizing lo with
  | zero => simp [span]
  | succ n ih => simp only [span, List.mem_cons, ih]; omega

end Sys2Proof.Machine
end

