-- ==== Sys2Proof/Laws/State.lean ====
section
/-! SUPPORT. What each elementary update of the state leaves in each field. -/

namespace Sys2Proof.Machine

variable (s : State)

@[simp] theorem State.setThread_cur (t : Nat) (x : Thread) : (s.setThread t x).cur = s.cur := rfl
@[simp] theorem State.setThread_agenda (t : Nat) (x : Thread) : (s.setThread t x).agenda = s.agenda := rfl
@[simp] theorem State.setThread_free (t : Nat) (x : Thread) : (s.setThread t x).free = s.free := rfl
@[simp] theorem State.setThread_cycle (t : Nat) (x : Thread) : (s.setThread t x).cycle = s.cycle := rfl
@[simp] theorem State.setThread_next (t : Nat) (x : Thread) : (s.setThread t x).next = s.next := rfl
@[simp] theorem State.setThread_vregs (t : Nat) (x : Thread) : (s.setThread t x).vregs = s.vregs := rfl
@[simp] theorem State.setThread_cregs (t : Nat) (x : Thread) : (s.setThread t x).cregs = s.cregs := rfl
@[simp] theorem State.setThread_uregs (t : Nat) (x : Thread) : (s.setThread t x).uregs = s.uregs := rfl
@[simp] theorem State.setThread_threads (t : Nat) (x : Thread) : (s.setThread t x).threads = AMap.put s.threads t x := rfl
@[simp] theorem State.setThread_groups (t : Nat) (x : Thread) : (s.setThread t x).groups = s.groups := rfl
@[simp] theorem State.setThread_blocks (t : Nat) (x : Thread) : (s.setThread t x).blocks = s.blocks := rfl
@[simp] theorem State.setThread_bobbins (t : Nat) (x : Thread) : (s.setThread t x).bobbins = s.bobbins := rfl
@[simp] theorem State.setThread_spad (t : Nat) (x : Thread) : (s.setThread t x).spad = s.spad := rfl
@[simp] theorem State.setThread_acc (t : Nat) (x : Thread) : (s.setThread t x).acc = s.acc := rfl
@[simp] theorem State.setThread_pt (t : Nat) (x : Thread) : (s.setThread t x).pt = s.pt := rfl
@[simp] theorem State.setThread_latches (t : Nat) (x : Thread) : (s.setThread t x).latches = s.latches := rfl
@[simp] theorem State.setThread_latchTags (t : Nat) (x : Thread) : (s.setThread t x).latchTags = s.latchTags := rfl
@[simp] theorem State.setThread_accOld (t : Nat) (x : Thread) : (s.setThread t x).accOld = s.accOld := rfl
@[simp] theorem State.setThread_ptOld (t : Nat) (x : Thread) : (s.setThread t x).ptOld = s.ptOld := rfl
@[simp] theorem State.setThread_latchOld (t : Nat) (x : Thread) : (s.setThread t x).latchOld = s.latchOld := rfl
@[simp] theorem State.setThread_tiles (t : Nat) (x : Thread) : (s.setThread t x).tiles = s.tiles := rfl
@[simp] theorem State.setThread_fills (t : Nat) (x : Thread) : (s.setThread t x).fills = s.fills := rfl
@[simp] theorem State.setThread_cores (t : Nat) (x : Thread) : (s.setThread t x).cores = s.cores := rfl
@[simp] theorem State.setThread_mem (t : Nat) (x : Thread) : (s.setThread t x).mem = s.mem := rfl
@[simp] theorem State.setThread_poison (t : Nat) (x : Thread) : (s.setThread t x).poison = s.poison := rfl
@[simp] theorem State.setThread_shadow (t : Nat) (x : Thread) : (s.setThread t x).shadow = s.shadow := rfl
@[simp] theorem State.setThread_spills (t : Nat) (x : Thread) : (s.setThread t x).spills = s.spills := rfl
@[simp] theorem State.setThread_coreCache (t : Nat) (x : Thread) : (s.setThread t x).coreCache = s.coreCache := rfl
@[simp] theorem State.setThread_dieCache (t : Nat) (x : Thread) : (s.setThread t x).dieCache = s.dieCache := rfl
@[simp] theorem State.setThread_pins (t : Nat) (x : Thread) : (s.setThread t x).pins = s.pins := rfl
@[simp] theorem State.setThread_coreTlb (t : Nat) (x : Thread) : (s.setThread t x).coreTlb = s.coreTlb := rfl
@[simp] theorem State.setThread_clusterTlb (t : Nat) (x : Thread) : (s.setThread t x).clusterTlb = s.clusterTlb := rfl
@[simp] theorem State.setThread_dieTlb (t : Nat) (x : Thread) : (s.setThread t x).dieTlb = s.dieTlb := rfl
@[simp] theorem State.setThread_spaces (t : Nat) (x : Thread) : (s.setThread t x).spaces = s.spaces := rfl
@[simp] theorem State.setThread_shootdowns (t : Nat) (x : Thread) : (s.setThread t x).shootdowns = s.shootdowns := rfl
@[simp] theorem State.setThread_homes (t : Nat) (x : Thread) : (s.setThread t x).homes = s.homes := rfl
@[simp] theorem State.setThread_notify (t : Nat) (x : Thread) : (s.setThread t x).notify = s.notify := rfl
@[simp] theorem State.setThread_deliveries (t : Nat) (x : Thread) : (s.setThread t x).deliveries = s.deliveries := rfl
@[simp] theorem State.setThread_engines (t : Nat) (x : Thread) : (s.setThread t x).engines = s.engines := rfl
@[simp] theorem State.setThread_remote (t : Nat) (x : Thread) : (s.setThread t x).remote = s.remote := rfl
@[simp] theorem State.setThread_launches (t : Nat) (x : Thread) : (s.setThread t x).launches = s.launches := rfl
@[simp] theorem State.setThread_queues (t : Nat) (x : Thread) : (s.setThread t x).queues = s.queues := rfl
@[simp] theorem State.setThread_versions (t : Nat) (x : Thread) : (s.setThread t x).versions = s.versions := rfl
@[simp] theorem State.setThread_images (t : Nat) (x : Thread) : (s.setThread t x).images = s.images := rfl
@[simp] theorem State.setThread_drafts (t : Nat) (x : Thread) : (s.setThread t x).drafts = s.drafts := rfl
@[simp] theorem State.setThread_contexts (t : Nat) (x : Thread) : (s.setThread t x).contexts = s.contexts := rfl
@[simp] theorem State.setThread_ifaces (t : Nat) (x : Thread) : (s.setThread t x).ifaces = s.ifaces := rfl
@[simp] theorem State.setThread_sent (t : Nat) (x : Thread) : (s.setThread t x).sent = s.sent := rfl
@[simp] theorem State.setThread_phase (t : Nat) (x : Thread) : (s.setThread t x).phase = s.phase := rfl
@[simp] theorem State.setThread_life (t : Nat) (x : Thread) : (s.setThread t x).life = s.life := rfl
@[simp] theorem State.setThread_selfHosted (t : Nat) (x : Thread) : (s.setThread t x).selfHosted = s.selfHosted := rfl
@[simp] theorem State.setThread_dcNext (t : Nat) (x : Thread) : (s.setThread t x).dcNext = s.dcNext := rfl
@[simp] theorem State.setThread_dcSize (t : Nat) (x : Thread) : (s.setThread t x).dcSize = s.dcSize := rfl
@[simp] theorem State.setThread_hotReset (t : Nat) (x : Thread) : (s.setThread t x).hotReset = s.hotReset := rfl
@[simp] theorem State.setThread_device (t : Nat) (x : Thread) : (s.setThread t x).device = s.device := rfl
@[simp] theorem State.setThread_errcnt (t : Nat) (x : Thread) : (s.setThread t x).errcnt = s.errcnt := rfl
@[simp] theorem State.setThread_errors (t : Nat) (x : Thread) : (s.setThread t x).errors = s.errors := rfl
@[simp] theorem State.setThread_corrected (t : Nat) (x : Thread) : (s.setThread t x).corrected = s.corrected := rfl
@[simp] theorem State.setThread_spare (t : Nat) (x : Thread) : (s.setThread t x).spare = s.spare := rfl
@[simp] theorem State.setThread_further (t : Nat) (x : Thread) : (s.setThread t x).further = s.further := rfl
@[simp] theorem State.setThread_schPolicy (t : Nat) (x : Thread) : (s.setThread t x).schPolicy = s.schPolicy := rfl
@[simp] theorem State.setThread_cap (t : Nat) (x : Thread) : (s.setThread t x).cap = s.cap := rfl
@[simp] theorem State.setThread_supplyOk (t : Nat) (x : Thread) : (s.setThread t x).supplyOk = s.supplyOk := rfl
@[simp] theorem State.setThread_withheld (t : Nat) (x : Thread) : (s.setThread t x).withheld = s.withheld := rfl
@[simp] theorem State.setThread_treadles (t : Nat) (x : Thread) : (s.setThread t x).treadles = s.treadles := rfl
@[simp] theorem State.setThread_round (t : Nat) (x : Thread) : (s.setThread t x).round = s.round := rfl
@[simp] theorem State.setThread_leader (t : Nat) (x : Thread) : (s.setThread t x).leader = s.leader := rfl
@[simp] theorem State.setThread_heard (t : Nat) (x : Thread) : (s.setThread t x).heard = s.heard := rfl
@[simp] theorem State.setThread_roundAt (t : Nat) (x : Thread) : (s.setThread t x).roundAt = s.roundAt := rfl
@[simp] theorem State.setThread_sliceAt (t : Nat) (x : Thread) : (s.setThread t x).sliceAt = s.sliceAt := rfl
@[simp] theorem State.setThread_quantumAt (t : Nat) (x : Thread) : (s.setThread t x).quantumAt = s.quantumAt := rfl
@[simp] theorem State.setThread_filledAt (t : Nat) (x : Thread) : (s.setThread t x).filledAt = s.filledAt := rfl
@[simp] theorem State.setThread_reports (t : Nat) (x : Thread) : (s.setThread t x).reports = s.reports := rfl

@[simp] theorem State.updGroup_cur (k : Nat) (f : Group → Group) : (s.updGroup k f).cur = s.cur := rfl
@[simp] theorem State.updGroup_agenda (k : Nat) (f : Group → Group) : (s.updGroup k f).agenda = s.agenda := rfl
@[simp] theorem State.updGroup_free (k : Nat) (f : Group → Group) : (s.updGroup k f).free = s.free := rfl
@[simp] theorem State.updGroup_cycle (k : Nat) (f : Group → Group) : (s.updGroup k f).cycle = s.cycle := rfl
@[simp] theorem State.updGroup_next (k : Nat) (f : Group → Group) : (s.updGroup k f).next = s.next := rfl
@[simp] theorem State.updGroup_vregs (k : Nat) (f : Group → Group) : (s.updGroup k f).vregs = s.vregs := rfl
@[simp] theorem State.updGroup_cregs (k : Nat) (f : Group → Group) : (s.updGroup k f).cregs = s.cregs := rfl
@[simp] theorem State.updGroup_uregs (k : Nat) (f : Group → Group) : (s.updGroup k f).uregs = s.uregs := rfl
@[simp] theorem State.updGroup_threads (k : Nat) (f : Group → Group) : (s.updGroup k f).threads = s.threads := rfl
@[simp] theorem State.updGroup_groups (k : Nat) (f : Group → Group) : (s.updGroup k f).groups = AMap.upd s.groups k f := rfl
@[simp] theorem State.updGroup_blocks (k : Nat) (f : Group → Group) : (s.updGroup k f).blocks = s.blocks := rfl
@[simp] theorem State.updGroup_bobbins (k : Nat) (f : Group → Group) : (s.updGroup k f).bobbins = s.bobbins := rfl
@[simp] theorem State.updGroup_spad (k : Nat) (f : Group → Group) : (s.updGroup k f).spad = s.spad := rfl
@[simp] theorem State.updGroup_acc (k : Nat) (f : Group → Group) : (s.updGroup k f).acc = s.acc := rfl
@[simp] theorem State.updGroup_pt (k : Nat) (f : Group → Group) : (s.updGroup k f).pt = s.pt := rfl
@[simp] theorem State.updGroup_latches (k : Nat) (f : Group → Group) : (s.updGroup k f).latches = s.latches := rfl
@[simp] theorem State.updGroup_latchTags (k : Nat) (f : Group → Group) : (s.updGroup k f).latchTags = s.latchTags := rfl
@[simp] theorem State.updGroup_accOld (k : Nat) (f : Group → Group) : (s.updGroup k f).accOld = s.accOld := rfl
@[simp] theorem State.updGroup_ptOld (k : Nat) (f : Group → Group) : (s.updGroup k f).ptOld = s.ptOld := rfl
@[simp] theorem State.updGroup_latchOld (k : Nat) (f : Group → Group) : (s.updGroup k f).latchOld = s.latchOld := rfl
@[simp] theorem State.updGroup_tiles (k : Nat) (f : Group → Group) : (s.updGroup k f).tiles = s.tiles := rfl
@[simp] theorem State.updGroup_fills (k : Nat) (f : Group → Group) : (s.updGroup k f).fills = s.fills := rfl
@[simp] theorem State.updGroup_cores (k : Nat) (f : Group → Group) : (s.updGroup k f).cores = s.cores := rfl
@[simp] theorem State.updGroup_mem (k : Nat) (f : Group → Group) : (s.updGroup k f).mem = s.mem := rfl
@[simp] theorem State.updGroup_poison (k : Nat) (f : Group → Group) : (s.updGroup k f).poison = s.poison := rfl
@[simp] theorem State.updGroup_shadow (k : Nat) (f : Group → Group) : (s.updGroup k f).shadow = s.shadow := rfl
@[simp] theorem State.updGroup_spills (k : Nat) (f : Group → Group) : (s.updGroup k f).spills = s.spills := rfl
@[simp] theorem State.updGroup_coreCache (k : Nat) (f : Group → Group) : (s.updGroup k f).coreCache = s.coreCache := rfl
@[simp] theorem State.updGroup_dieCache (k : Nat) (f : Group → Group) : (s.updGroup k f).dieCache = s.dieCache := rfl
@[simp] theorem State.updGroup_pins (k : Nat) (f : Group → Group) : (s.updGroup k f).pins = s.pins := rfl
@[simp] theorem State.updGroup_coreTlb (k : Nat) (f : Group → Group) : (s.updGroup k f).coreTlb = s.coreTlb := rfl
@[simp] theorem State.updGroup_clusterTlb (k : Nat) (f : Group → Group) : (s.updGroup k f).clusterTlb = s.clusterTlb := rfl
@[simp] theorem State.updGroup_dieTlb (k : Nat) (f : Group → Group) : (s.updGroup k f).dieTlb = s.dieTlb := rfl
@[simp] theorem State.updGroup_spaces (k : Nat) (f : Group → Group) : (s.updGroup k f).spaces = s.spaces := rfl
@[simp] theorem State.updGroup_shootdowns (k : Nat) (f : Group → Group) : (s.updGroup k f).shootdowns = s.shootdowns := rfl
@[simp] theorem State.updGroup_homes (k : Nat) (f : Group → Group) : (s.updGroup k f).homes = s.homes := rfl
@[simp] theorem State.updGroup_notify (k : Nat) (f : Group → Group) : (s.updGroup k f).notify = s.notify := rfl
@[simp] theorem State.updGroup_deliveries (k : Nat) (f : Group → Group) : (s.updGroup k f).deliveries = s.deliveries := rfl
@[simp] theorem State.updGroup_engines (k : Nat) (f : Group → Group) : (s.updGroup k f).engines = s.engines := rfl
@[simp] theorem State.updGroup_remote (k : Nat) (f : Group → Group) : (s.updGroup k f).remote = s.remote := rfl
@[simp] theorem State.updGroup_launches (k : Nat) (f : Group → Group) : (s.updGroup k f).launches = s.launches := rfl
@[simp] theorem State.updGroup_queues (k : Nat) (f : Group → Group) : (s.updGroup k f).queues = s.queues := rfl
@[simp] theorem State.updGroup_versions (k : Nat) (f : Group → Group) : (s.updGroup k f).versions = s.versions := rfl
@[simp] theorem State.updGroup_images (k : Nat) (f : Group → Group) : (s.updGroup k f).images = s.images := rfl
@[simp] theorem State.updGroup_drafts (k : Nat) (f : Group → Group) : (s.updGroup k f).drafts = s.drafts := rfl
@[simp] theorem State.updGroup_contexts (k : Nat) (f : Group → Group) : (s.updGroup k f).contexts = s.contexts := rfl
@[simp] theorem State.updGroup_ifaces (k : Nat) (f : Group → Group) : (s.updGroup k f).ifaces = s.ifaces := rfl
@[simp] theorem State.updGroup_sent (k : Nat) (f : Group → Group) : (s.updGroup k f).sent = s.sent := rfl
@[simp] theorem State.updGroup_phase (k : Nat) (f : Group → Group) : (s.updGroup k f).phase = s.phase := rfl
@[simp] theorem State.updGroup_life (k : Nat) (f : Group → Group) : (s.updGroup k f).life = s.life := rfl
@[simp] theorem State.updGroup_selfHosted (k : Nat) (f : Group → Group) : (s.updGroup k f).selfHosted = s.selfHosted := rfl
@[simp] theorem State.updGroup_dcNext (k : Nat) (f : Group → Group) : (s.updGroup k f).dcNext = s.dcNext := rfl
@[simp] theorem State.updGroup_dcSize (k : Nat) (f : Group → Group) : (s.updGroup k f).dcSize = s.dcSize := rfl
@[simp] theorem State.updGroup_hotReset (k : Nat) (f : Group → Group) : (s.updGroup k f).hotReset = s.hotReset := rfl
@[simp] theorem State.updGroup_device (k : Nat) (f : Group → Group) : (s.updGroup k f).device = s.device := rfl
@[simp] theorem State.updGroup_errcnt (k : Nat) (f : Group → Group) : (s.updGroup k f).errcnt = s.errcnt := rfl
@[simp] theorem State.updGroup_errors (k : Nat) (f : Group → Group) : (s.updGroup k f).errors = s.errors := rfl
@[simp] theorem State.updGroup_corrected (k : Nat) (f : Group → Group) : (s.updGroup k f).corrected = s.corrected := rfl
@[simp] theorem State.updGroup_spare (k : Nat) (f : Group → Group) : (s.updGroup k f).spare = s.spare := rfl
@[simp] theorem State.updGroup_further (k : Nat) (f : Group → Group) : (s.updGroup k f).further = s.further := rfl
@[simp] theorem State.updGroup_schPolicy (k : Nat) (f : Group → Group) : (s.updGroup k f).schPolicy = s.schPolicy := rfl
@[simp] theorem State.updGroup_cap (k : Nat) (f : Group → Group) : (s.updGroup k f).cap = s.cap := rfl
@[simp] theorem State.updGroup_supplyOk (k : Nat) (f : Group → Group) : (s.updGroup k f).supplyOk = s.supplyOk := rfl
@[simp] theorem State.updGroup_withheld (k : Nat) (f : Group → Group) : (s.updGroup k f).withheld = s.withheld := rfl
@[simp] theorem State.updGroup_treadles (k : Nat) (f : Group → Group) : (s.updGroup k f).treadles = s.treadles := rfl
@[simp] theorem State.updGroup_round (k : Nat) (f : Group → Group) : (s.updGroup k f).round = s.round := rfl
@[simp] theorem State.updGroup_leader (k : Nat) (f : Group → Group) : (s.updGroup k f).leader = s.leader := rfl
@[simp] theorem State.updGroup_heard (k : Nat) (f : Group → Group) : (s.updGroup k f).heard = s.heard := rfl
@[simp] theorem State.updGroup_roundAt (k : Nat) (f : Group → Group) : (s.updGroup k f).roundAt = s.roundAt := rfl
@[simp] theorem State.updGroup_sliceAt (k : Nat) (f : Group → Group) : (s.updGroup k f).sliceAt = s.sliceAt := rfl
@[simp] theorem State.updGroup_quantumAt (k : Nat) (f : Group → Group) : (s.updGroup k f).quantumAt = s.quantumAt := rfl
@[simp] theorem State.updGroup_filledAt (k : Nat) (f : Group → Group) : (s.updGroup k f).filledAt = s.filledAt := rfl
@[simp] theorem State.updGroup_reports (k : Nat) (f : Group → Group) : (s.updGroup k f).reports = s.reports := rfl

@[simp] theorem State.updBlock_cur (k : Nat) (f : Block → Block) : (s.updBlock k f).cur = s.cur := rfl
@[simp] theorem State.updBlock_agenda (k : Nat) (f : Block → Block) : (s.updBlock k f).agenda = s.agenda := rfl
@[simp] theorem State.updBlock_free (k : Nat) (f : Block → Block) : (s.updBlock k f).free = s.free := rfl
@[simp] theorem State.updBlock_cycle (k : Nat) (f : Block → Block) : (s.updBlock k f).cycle = s.cycle := rfl
@[simp] theorem State.updBlock_next (k : Nat) (f : Block → Block) : (s.updBlock k f).next = s.next := rfl
@[simp] theorem State.updBlock_vregs (k : Nat) (f : Block → Block) : (s.updBlock k f).vregs = s.vregs := rfl
@[simp] theorem State.updBlock_cregs (k : Nat) (f : Block → Block) : (s.updBlock k f).cregs = s.cregs := rfl
@[simp] theorem State.updBlock_uregs (k : Nat) (f : Block → Block) : (s.updBlock k f).uregs = s.uregs := rfl
@[simp] theorem State.updBlock_threads (k : Nat) (f : Block → Block) : (s.updBlock k f).threads = s.threads := rfl
@[simp] theorem State.updBlock_groups (k : Nat) (f : Block → Block) : (s.updBlock k f).groups = s.groups := rfl
@[simp] theorem State.updBlock_blocks (k : Nat) (f : Block → Block) : (s.updBlock k f).blocks = AMap.upd s.blocks k f := rfl
@[simp] theorem State.updBlock_bobbins (k : Nat) (f : Block → Block) : (s.updBlock k f).bobbins = s.bobbins := rfl
@[simp] theorem State.updBlock_spad (k : Nat) (f : Block → Block) : (s.updBlock k f).spad = s.spad := rfl
@[simp] theorem State.updBlock_acc (k : Nat) (f : Block → Block) : (s.updBlock k f).acc = s.acc := rfl
@[simp] theorem State.updBlock_pt (k : Nat) (f : Block → Block) : (s.updBlock k f).pt = s.pt := rfl
@[simp] theorem State.updBlock_latches (k : Nat) (f : Block → Block) : (s.updBlock k f).latches = s.latches := rfl
@[simp] theorem State.updBlock_latchTags (k : Nat) (f : Block → Block) : (s.updBlock k f).latchTags = s.latchTags := rfl
@[simp] theorem State.updBlock_accOld (k : Nat) (f : Block → Block) : (s.updBlock k f).accOld = s.accOld := rfl
@[simp] theorem State.updBlock_ptOld (k : Nat) (f : Block → Block) : (s.updBlock k f).ptOld = s.ptOld := rfl
@[simp] theorem State.updBlock_latchOld (k : Nat) (f : Block → Block) : (s.updBlock k f).latchOld = s.latchOld := rfl
@[simp] theorem State.updBlock_tiles (k : Nat) (f : Block → Block) : (s.updBlock k f).tiles = s.tiles := rfl
@[simp] theorem State.updBlock_fills (k : Nat) (f : Block → Block) : (s.updBlock k f).fills = s.fills := rfl
@[simp] theorem State.updBlock_cores (k : Nat) (f : Block → Block) : (s.updBlock k f).cores = s.cores := rfl
@[simp] theorem State.updBlock_mem (k : Nat) (f : Block → Block) : (s.updBlock k f).mem = s.mem := rfl
@[simp] theorem State.updBlock_poison (k : Nat) (f : Block → Block) : (s.updBlock k f).poison = s.poison := rfl
@[simp] theorem State.updBlock_shadow (k : Nat) (f : Block → Block) : (s.updBlock k f).shadow = s.shadow := rfl
@[simp] theorem State.updBlock_spills (k : Nat) (f : Block → Block) : (s.updBlock k f).spills = s.spills := rfl
@[simp] theorem State.updBlock_coreCache (k : Nat) (f : Block → Block) : (s.updBlock k f).coreCache = s.coreCache := rfl
@[simp] theorem State.updBlock_dieCache (k : Nat) (f : Block → Block) : (s.updBlock k f).dieCache = s.dieCache := rfl
@[simp] theorem State.updBlock_pins (k : Nat) (f : Block → Block) : (s.updBlock k f).pins = s.pins := rfl
@[simp] theorem State.updBlock_coreTlb (k : Nat) (f : Block → Block) : (s.updBlock k f).coreTlb = s.coreTlb := rfl
@[simp] theorem State.updBlock_clusterTlb (k : Nat) (f : Block → Block) : (s.updBlock k f).clusterTlb = s.clusterTlb := rfl
@[simp] theorem State.updBlock_dieTlb (k : Nat) (f : Block → Block) : (s.updBlock k f).dieTlb = s.dieTlb := rfl
@[simp] theorem State.updBlock_spaces (k : Nat) (f : Block → Block) : (s.updBlock k f).spaces = s.spaces := rfl
@[simp] theorem State.updBlock_shootdowns (k : Nat) (f : Block → Block) : (s.updBlock k f).shootdowns = s.shootdowns := rfl
@[simp] theorem State.updBlock_homes (k : Nat) (f : Block → Block) : (s.updBlock k f).homes = s.homes := rfl
@[simp] theorem State.updBlock_notify (k : Nat) (f : Block → Block) : (s.updBlock k f).notify = s.notify := rfl
@[simp] theorem State.updBlock_deliveries (k : Nat) (f : Block → Block) : (s.updBlock k f).deliveries = s.deliveries := rfl
@[simp] theorem State.updBlock_engines (k : Nat) (f : Block → Block) : (s.updBlock k f).engines = s.engines := rfl
@[simp] theorem State.updBlock_remote (k : Nat) (f : Block → Block) : (s.updBlock k f).remote = s.remote := rfl
@[simp] theorem State.updBlock_launches (k : Nat) (f : Block → Block) : (s.updBlock k f).launches = s.launches := rfl
@[simp] theorem State.updBlock_queues (k : Nat) (f : Block → Block) : (s.updBlock k f).queues = s.queues := rfl
@[simp] theorem State.updBlock_versions (k : Nat) (f : Block → Block) : (s.updBlock k f).versions = s.versions := rfl
@[simp] theorem State.updBlock_images (k : Nat) (f : Block → Block) : (s.updBlock k f).images = s.images := rfl
@[simp] theorem State.updBlock_drafts (k : Nat) (f : Block → Block) : (s.updBlock k f).drafts = s.drafts := rfl
@[simp] theorem State.updBlock_contexts (k : Nat) (f : Block → Block) : (s.updBlock k f).contexts = s.contexts := rfl
@[simp] theorem State.updBlock_ifaces (k : Nat) (f : Block → Block) : (s.updBlock k f).ifaces = s.ifaces := rfl
@[simp] theorem State.updBlock_sent (k : Nat) (f : Block → Block) : (s.updBlock k f).sent = s.sent := rfl
@[simp] theorem State.updBlock_phase (k : Nat) (f : Block → Block) : (s.updBlock k f).phase = s.phase := rfl
@[simp] theorem State.updBlock_life (k : Nat) (f : Block → Block) : (s.updBlock k f).life = s.life := rfl
@[simp] theorem State.updBlock_selfHosted (k : Nat) (f : Block → Block) : (s.updBlock k f).selfHosted = s.selfHosted := rfl
@[simp] theorem State.updBlock_dcNext (k : Nat) (f : Block → Block) : (s.updBlock k f).dcNext = s.dcNext := rfl
@[simp] theorem State.updBlock_dcSize (k : Nat) (f : Block → Block) : (s.updBlock k f).dcSize = s.dcSize := rfl
@[simp] theorem State.updBlock_hotReset (k : Nat) (f : Block → Block) : (s.updBlock k f).hotReset = s.hotReset := rfl
@[simp] theorem State.updBlock_device (k : Nat) (f : Block → Block) : (s.updBlock k f).device = s.device := rfl
@[simp] theorem State.updBlock_errcnt (k : Nat) (f : Block → Block) : (s.updBlock k f).errcnt = s.errcnt := rfl
@[simp] theorem State.updBlock_errors (k : Nat) (f : Block → Block) : (s.updBlock k f).errors = s.errors := rfl
@[simp] theorem State.updBlock_corrected (k : Nat) (f : Block → Block) : (s.updBlock k f).corrected = s.corrected := rfl
@[simp] theorem State.updBlock_spare (k : Nat) (f : Block → Block) : (s.updBlock k f).spare = s.spare := rfl
@[simp] theorem State.updBlock_further (k : Nat) (f : Block → Block) : (s.updBlock k f).further = s.further := rfl
@[simp] theorem State.updBlock_schPolicy (k : Nat) (f : Block → Block) : (s.updBlock k f).schPolicy = s.schPolicy := rfl
@[simp] theorem State.updBlock_cap (k : Nat) (f : Block → Block) : (s.updBlock k f).cap = s.cap := rfl
@[simp] theorem State.updBlock_supplyOk (k : Nat) (f : Block → Block) : (s.updBlock k f).supplyOk = s.supplyOk := rfl
@[simp] theorem State.updBlock_withheld (k : Nat) (f : Block → Block) : (s.updBlock k f).withheld = s.withheld := rfl
@[simp] theorem State.updBlock_treadles (k : Nat) (f : Block → Block) : (s.updBlock k f).treadles = s.treadles := rfl
@[simp] theorem State.updBlock_round (k : Nat) (f : Block → Block) : (s.updBlock k f).round = s.round := rfl
@[simp] theorem State.updBlock_leader (k : Nat) (f : Block → Block) : (s.updBlock k f).leader = s.leader := rfl
@[simp] theorem State.updBlock_heard (k : Nat) (f : Block → Block) : (s.updBlock k f).heard = s.heard := rfl
@[simp] theorem State.updBlock_roundAt (k : Nat) (f : Block → Block) : (s.updBlock k f).roundAt = s.roundAt := rfl
@[simp] theorem State.updBlock_sliceAt (k : Nat) (f : Block → Block) : (s.updBlock k f).sliceAt = s.sliceAt := rfl
@[simp] theorem State.updBlock_quantumAt (k : Nat) (f : Block → Block) : (s.updBlock k f).quantumAt = s.quantumAt := rfl
@[simp] theorem State.updBlock_filledAt (k : Nat) (f : Block → Block) : (s.updBlock k f).filledAt = s.filledAt := rfl
@[simp] theorem State.updBlock_reports (k : Nat) (f : Block → Block) : (s.updBlock k f).reports = s.reports := rfl

@[simp] theorem State.updLaunch_cur (k : Nat) (f : Launch → Launch) : (s.updLaunch k f).cur = s.cur := rfl
@[simp] theorem State.updLaunch_agenda (k : Nat) (f : Launch → Launch) : (s.updLaunch k f).agenda = s.agenda := rfl
@[simp] theorem State.updLaunch_free (k : Nat) (f : Launch → Launch) : (s.updLaunch k f).free = s.free := rfl
@[simp] theorem State.updLaunch_cycle (k : Nat) (f : Launch → Launch) : (s.updLaunch k f).cycle = s.cycle := rfl
@[simp] theorem State.updLaunch_next (k : Nat) (f : Launch → Launch) : (s.updLaunch k f).next = s.next := rfl
@[simp] theorem State.updLaunch_vregs (k : Nat) (f : Launch → Launch) : (s.updLaunch k f).vregs = s.vregs := rfl
@[simp] theorem State.updLaunch_cregs (k : Nat) (f : Launch → Launch) : (s.updLaunch k f).cregs = s.cregs := rfl
@[simp] theorem State.updLaunch_uregs (k : Nat) (f : Launch → Launch) : (s.updLaunch k f).uregs = s.uregs := rfl
@[simp] theorem State.updLaunch_threads (k : Nat) (f : Launch → Launch) : (s.updLaunch k f).threads = s.threads := rfl
@[simp] theorem State.updLaunch_groups (k : Nat) (f : Launch → Launch) : (s.updLaunch k f).groups = s.groups := rfl
@[simp] theorem State.updLaunch_blocks (k : Nat) (f : Launch → Launch) : (s.updLaunch k f).blocks = s.blocks := rfl
@[simp] theorem State.updLaunch_bobbins (k : Nat) (f : Launch → Launch) : (s.updLaunch k f).bobbins = s.bobbins := rfl
@[simp] theorem State.updLaunch_spad (k : Nat) (f : Launch → Launch) : (s.updLaunch k f).spad = s.spad := rfl
@[simp] theorem State.updLaunch_acc (k : Nat) (f : Launch → Launch) : (s.updLaunch k f).acc = s.acc := rfl
@[simp] theorem State.updLaunch_pt (k : Nat) (f : Launch → Launch) : (s.updLaunch k f).pt = s.pt := rfl
@[simp] theorem State.updLaunch_latches (k : Nat) (f : Launch → Launch) : (s.updLaunch k f).latches = s.latches := rfl
@[simp] theorem State.updLaunch_latchTags (k : Nat) (f : Launch → Launch) : (s.updLaunch k f).latchTags = s.latchTags := rfl
@[simp] theorem State.updLaunch_accOld (k : Nat) (f : Launch → Launch) : (s.updLaunch k f).accOld = s.accOld := rfl
@[simp] theorem State.updLaunch_ptOld (k : Nat) (f : Launch → Launch) : (s.updLaunch k f).ptOld = s.ptOld := rfl
@[simp] theorem State.updLaunch_latchOld (k : Nat) (f : Launch → Launch) : (s.updLaunch k f).latchOld = s.latchOld := rfl
@[simp] theorem State.updLaunch_tiles (k : Nat) (f : Launch → Launch) : (s.updLaunch k f).tiles = s.tiles := rfl
@[simp] theorem State.updLaunch_fills (k : Nat) (f : Launch → Launch) : (s.updLaunch k f).fills = s.fills := rfl
@[simp] theorem State.updLaunch_cores (k : Nat) (f : Launch → Launch) : (s.updLaunch k f).cores = s.cores := rfl
@[simp] theorem State.updLaunch_mem (k : Nat) (f : Launch → Launch) : (s.updLaunch k f).mem = s.mem := rfl
@[simp] theorem State.updLaunch_poison (k : Nat) (f : Launch → Launch) : (s.updLaunch k f).poison = s.poison := rfl
@[simp] theorem State.updLaunch_shadow (k : Nat) (f : Launch → Launch) : (s.updLaunch k f).shadow = s.shadow := rfl
@[simp] theorem State.updLaunch_spills (k : Nat) (f : Launch → Launch) : (s.updLaunch k f).spills = s.spills := rfl
@[simp] theorem State.updLaunch_coreCache (k : Nat) (f : Launch → Launch) : (s.updLaunch k f).coreCache = s.coreCache := rfl
@[simp] theorem State.updLaunch_dieCache (k : Nat) (f : Launch → Launch) : (s.updLaunch k f).dieCache = s.dieCache := rfl
@[simp] theorem State.updLaunch_pins (k : Nat) (f : Launch → Launch) : (s.updLaunch k f).pins = s.pins := rfl
@[simp] theorem State.updLaunch_coreTlb (k : Nat) (f : Launch → Launch) : (s.updLaunch k f).coreTlb = s.coreTlb := rfl
@[simp] theorem State.updLaunch_clusterTlb (k : Nat) (f : Launch → Launch) : (s.updLaunch k f).clusterTlb = s.clusterTlb := rfl
@[simp] theorem State.updLaunch_dieTlb (k : Nat) (f : Launch → Launch) : (s.updLaunch k f).dieTlb = s.dieTlb := rfl
@[simp] theorem State.updLaunch_spaces (k : Nat) (f : Launch → Launch) : (s.updLaunch k f).spaces = s.spaces := rfl
@[simp] theorem State.updLaunch_shootdowns (k : Nat) (f : Launch → Launch) : (s.updLaunch k f).shootdowns = s.shootdowns := rfl
@[simp] theorem State.updLaunch_homes (k : Nat) (f : Launch → Launch) : (s.updLaunch k f).homes = s.homes := rfl
@[simp] theorem State.updLaunch_notify (k : Nat) (f : Launch → Launch) : (s.updLaunch k f).notify = s.notify := rfl
@[simp] theorem State.updLaunch_deliveries (k : Nat) (f : Launch → Launch) : (s.updLaunch k f).deliveries = s.deliveries := rfl
@[simp] theorem State.updLaunch_engines (k : Nat) (f : Launch → Launch) : (s.updLaunch k f).engines = s.engines := rfl
@[simp] theorem State.updLaunch_remote (k : Nat) (f : Launch → Launch) : (s.updLaunch k f).remote = s.remote := rfl
@[simp] theorem State.updLaunch_launches (k : Nat) (f : Launch → Launch) : (s.updLaunch k f).launches = AMap.upd s.launches k f := rfl
@[simp] theorem State.updLaunch_queues (k : Nat) (f : Launch → Launch) : (s.updLaunch k f).queues = s.queues := rfl
@[simp] theorem State.updLaunch_versions (k : Nat) (f : Launch → Launch) : (s.updLaunch k f).versions = s.versions := rfl
@[simp] theorem State.updLaunch_images (k : Nat) (f : Launch → Launch) : (s.updLaunch k f).images = s.images := rfl
@[simp] theorem State.updLaunch_drafts (k : Nat) (f : Launch → Launch) : (s.updLaunch k f).drafts = s.drafts := rfl
@[simp] theorem State.updLaunch_contexts (k : Nat) (f : Launch → Launch) : (s.updLaunch k f).contexts = s.contexts := rfl
@[simp] theorem State.updLaunch_ifaces (k : Nat) (f : Launch → Launch) : (s.updLaunch k f).ifaces = s.ifaces := rfl
@[simp] theorem State.updLaunch_sent (k : Nat) (f : Launch → Launch) : (s.updLaunch k f).sent = s.sent := rfl
@[simp] theorem State.updLaunch_phase (k : Nat) (f : Launch → Launch) : (s.updLaunch k f).phase = s.phase := rfl
@[simp] theorem State.updLaunch_life (k : Nat) (f : Launch → Launch) : (s.updLaunch k f).life = s.life := rfl
@[simp] theorem State.updLaunch_selfHosted (k : Nat) (f : Launch → Launch) : (s.updLaunch k f).selfHosted = s.selfHosted := rfl
@[simp] theorem State.updLaunch_dcNext (k : Nat) (f : Launch → Launch) : (s.updLaunch k f).dcNext = s.dcNext := rfl
@[simp] theorem State.updLaunch_dcSize (k : Nat) (f : Launch → Launch) : (s.updLaunch k f).dcSize = s.dcSize := rfl
@[simp] theorem State.updLaunch_hotReset (k : Nat) (f : Launch → Launch) : (s.updLaunch k f).hotReset = s.hotReset := rfl
@[simp] theorem State.updLaunch_device (k : Nat) (f : Launch → Launch) : (s.updLaunch k f).device = s.device := rfl
@[simp] theorem State.updLaunch_errcnt (k : Nat) (f : Launch → Launch) : (s.updLaunch k f).errcnt = s.errcnt := rfl
@[simp] theorem State.updLaunch_errors (k : Nat) (f : Launch → Launch) : (s.updLaunch k f).errors = s.errors := rfl
@[simp] theorem State.updLaunch_corrected (k : Nat) (f : Launch → Launch) : (s.updLaunch k f).corrected = s.corrected := rfl
@[simp] theorem State.updLaunch_spare (k : Nat) (f : Launch → Launch) : (s.updLaunch k f).spare = s.spare := rfl
@[simp] theorem State.updLaunch_further (k : Nat) (f : Launch → Launch) : (s.updLaunch k f).further = s.further := rfl
@[simp] theorem State.updLaunch_schPolicy (k : Nat) (f : Launch → Launch) : (s.updLaunch k f).schPolicy = s.schPolicy := rfl
@[simp] theorem State.updLaunch_cap (k : Nat) (f : Launch → Launch) : (s.updLaunch k f).cap = s.cap := rfl
@[simp] theorem State.updLaunch_supplyOk (k : Nat) (f : Launch → Launch) : (s.updLaunch k f).supplyOk = s.supplyOk := rfl
@[simp] theorem State.updLaunch_withheld (k : Nat) (f : Launch → Launch) : (s.updLaunch k f).withheld = s.withheld := rfl
@[simp] theorem State.updLaunch_treadles (k : Nat) (f : Launch → Launch) : (s.updLaunch k f).treadles = s.treadles := rfl
@[simp] theorem State.updLaunch_round (k : Nat) (f : Launch → Launch) : (s.updLaunch k f).round = s.round := rfl
@[simp] theorem State.updLaunch_leader (k : Nat) (f : Launch → Launch) : (s.updLaunch k f).leader = s.leader := rfl
@[simp] theorem State.updLaunch_heard (k : Nat) (f : Launch → Launch) : (s.updLaunch k f).heard = s.heard := rfl
@[simp] theorem State.updLaunch_roundAt (k : Nat) (f : Launch → Launch) : (s.updLaunch k f).roundAt = s.roundAt := rfl
@[simp] theorem State.updLaunch_sliceAt (k : Nat) (f : Launch → Launch) : (s.updLaunch k f).sliceAt = s.sliceAt := rfl
@[simp] theorem State.updLaunch_quantumAt (k : Nat) (f : Launch → Launch) : (s.updLaunch k f).quantumAt = s.quantumAt := rfl
@[simp] theorem State.updLaunch_filledAt (k : Nat) (f : Launch → Launch) : (s.updLaunch k f).filledAt = s.filledAt := rfl
@[simp] theorem State.updLaunch_reports (k : Nat) (f : Launch → Launch) : (s.updLaunch k f).reports = s.reports := rfl

@[simp] theorem State.setCoreRegs_cur (k : Nat) (r : CoreRegs) : (s.setCoreRegs k r).cur = s.cur := rfl
@[simp] theorem State.setCoreRegs_agenda (k : Nat) (r : CoreRegs) : (s.setCoreRegs k r).agenda = s.agenda := rfl
@[simp] theorem State.setCoreRegs_free (k : Nat) (r : CoreRegs) : (s.setCoreRegs k r).free = s.free := rfl
@[simp] theorem State.setCoreRegs_cycle (k : Nat) (r : CoreRegs) : (s.setCoreRegs k r).cycle = s.cycle := rfl
@[simp] theorem State.setCoreRegs_next (k : Nat) (r : CoreRegs) : (s.setCoreRegs k r).next = s.next := rfl
@[simp] theorem State.setCoreRegs_vregs (k : Nat) (r : CoreRegs) : (s.setCoreRegs k r).vregs = s.vregs := rfl
@[simp] theorem State.setCoreRegs_cregs (k : Nat) (r : CoreRegs) : (s.setCoreRegs k r).cregs = s.cregs := rfl
@[simp] theorem State.setCoreRegs_uregs (k : Nat) (r : CoreRegs) : (s.setCoreRegs k r).uregs = s.uregs := rfl
@[simp] theorem State.setCoreRegs_threads (k : Nat) (r : CoreRegs) : (s.setCoreRegs k r).threads = s.threads := rfl
@[simp] theorem State.setCoreRegs_groups (k : Nat) (r : CoreRegs) : (s.setCoreRegs k r).groups = s.groups := rfl
@[simp] theorem State.setCoreRegs_blocks (k : Nat) (r : CoreRegs) : (s.setCoreRegs k r).blocks = s.blocks := rfl
@[simp] theorem State.setCoreRegs_bobbins (k : Nat) (r : CoreRegs) : (s.setCoreRegs k r).bobbins = s.bobbins := rfl
@[simp] theorem State.setCoreRegs_spad (k : Nat) (r : CoreRegs) : (s.setCoreRegs k r).spad = s.spad := rfl
@[simp] theorem State.setCoreRegs_acc (k : Nat) (r : CoreRegs) : (s.setCoreRegs k r).acc = s.acc := rfl
@[simp] theorem State.setCoreRegs_pt (k : Nat) (r : CoreRegs) : (s.setCoreRegs k r).pt = s.pt := rfl
@[simp] theorem State.setCoreRegs_latches (k : Nat) (r : CoreRegs) : (s.setCoreRegs k r).latches = s.latches := rfl
@[simp] theorem State.setCoreRegs_latchTags (k : Nat) (r : CoreRegs) : (s.setCoreRegs k r).latchTags = s.latchTags := rfl
@[simp] theorem State.setCoreRegs_accOld (k : Nat) (r : CoreRegs) : (s.setCoreRegs k r).accOld = s.accOld := rfl
@[simp] theorem State.setCoreRegs_ptOld (k : Nat) (r : CoreRegs) : (s.setCoreRegs k r).ptOld = s.ptOld := rfl
@[simp] theorem State.setCoreRegs_latchOld (k : Nat) (r : CoreRegs) : (s.setCoreRegs k r).latchOld = s.latchOld := rfl
@[simp] theorem State.setCoreRegs_tiles (k : Nat) (r : CoreRegs) : (s.setCoreRegs k r).tiles = s.tiles := rfl
@[simp] theorem State.setCoreRegs_fills (k : Nat) (r : CoreRegs) : (s.setCoreRegs k r).fills = s.fills := rfl
@[simp] theorem State.setCoreRegs_cores (k : Nat) (r : CoreRegs) : (s.setCoreRegs k r).cores = AMap.put s.cores k r := rfl
@[simp] theorem State.setCoreRegs_mem (k : Nat) (r : CoreRegs) : (s.setCoreRegs k r).mem = s.mem := rfl
@[simp] theorem State.setCoreRegs_poison (k : Nat) (r : CoreRegs) : (s.setCoreRegs k r).poison = s.poison := rfl
@[simp] theorem State.setCoreRegs_shadow (k : Nat) (r : CoreRegs) : (s.setCoreRegs k r).shadow = s.shadow := rfl
@[simp] theorem State.setCoreRegs_spills (k : Nat) (r : CoreRegs) : (s.setCoreRegs k r).spills = s.spills := rfl
@[simp] theorem State.setCoreRegs_coreCache (k : Nat) (r : CoreRegs) : (s.setCoreRegs k r).coreCache = s.coreCache := rfl
@[simp] theorem State.setCoreRegs_dieCache (k : Nat) (r : CoreRegs) : (s.setCoreRegs k r).dieCache = s.dieCache := rfl
@[simp] theorem State.setCoreRegs_pins (k : Nat) (r : CoreRegs) : (s.setCoreRegs k r).pins = s.pins := rfl
@[simp] theorem State.setCoreRegs_coreTlb (k : Nat) (r : CoreRegs) : (s.setCoreRegs k r).coreTlb = s.coreTlb := rfl
@[simp] theorem State.setCoreRegs_clusterTlb (k : Nat) (r : CoreRegs) : (s.setCoreRegs k r).clusterTlb = s.clusterTlb := rfl
@[simp] theorem State.setCoreRegs_dieTlb (k : Nat) (r : CoreRegs) : (s.setCoreRegs k r).dieTlb = s.dieTlb := rfl
@[simp] theorem State.setCoreRegs_spaces (k : Nat) (r : CoreRegs) : (s.setCoreRegs k r).spaces = s.spaces := rfl
@[simp] theorem State.setCoreRegs_shootdowns (k : Nat) (r : CoreRegs) : (s.setCoreRegs k r).shootdowns = s.shootdowns := rfl
@[simp] theorem State.setCoreRegs_homes (k : Nat) (r : CoreRegs) : (s.setCoreRegs k r).homes = s.homes := rfl
@[simp] theorem State.setCoreRegs_notify (k : Nat) (r : CoreRegs) : (s.setCoreRegs k r).notify = s.notify := rfl
@[simp] theorem State.setCoreRegs_deliveries (k : Nat) (r : CoreRegs) : (s.setCoreRegs k r).deliveries = s.deliveries := rfl
@[simp] theorem State.setCoreRegs_engines (k : Nat) (r : CoreRegs) : (s.setCoreRegs k r).engines = s.engines := rfl
@[simp] theorem State.setCoreRegs_remote (k : Nat) (r : CoreRegs) : (s.setCoreRegs k r).remote = s.remote := rfl
@[simp] theorem State.setCoreRegs_launches (k : Nat) (r : CoreRegs) : (s.setCoreRegs k r).launches = s.launches := rfl
@[simp] theorem State.setCoreRegs_queues (k : Nat) (r : CoreRegs) : (s.setCoreRegs k r).queues = s.queues := rfl
@[simp] theorem State.setCoreRegs_versions (k : Nat) (r : CoreRegs) : (s.setCoreRegs k r).versions = s.versions := rfl
@[simp] theorem State.setCoreRegs_images (k : Nat) (r : CoreRegs) : (s.setCoreRegs k r).images = s.images := rfl
@[simp] theorem State.setCoreRegs_drafts (k : Nat) (r : CoreRegs) : (s.setCoreRegs k r).drafts = s.drafts := rfl
@[simp] theorem State.setCoreRegs_contexts (k : Nat) (r : CoreRegs) : (s.setCoreRegs k r).contexts = s.contexts := rfl
@[simp] theorem State.setCoreRegs_ifaces (k : Nat) (r : CoreRegs) : (s.setCoreRegs k r).ifaces = s.ifaces := rfl
@[simp] theorem State.setCoreRegs_sent (k : Nat) (r : CoreRegs) : (s.setCoreRegs k r).sent = s.sent := rfl
@[simp] theorem State.setCoreRegs_phase (k : Nat) (r : CoreRegs) : (s.setCoreRegs k r).phase = s.phase := rfl
@[simp] theorem State.setCoreRegs_life (k : Nat) (r : CoreRegs) : (s.setCoreRegs k r).life = s.life := rfl
@[simp] theorem State.setCoreRegs_selfHosted (k : Nat) (r : CoreRegs) : (s.setCoreRegs k r).selfHosted = s.selfHosted := rfl
@[simp] theorem State.setCoreRegs_dcNext (k : Nat) (r : CoreRegs) : (s.setCoreRegs k r).dcNext = s.dcNext := rfl
@[simp] theorem State.setCoreRegs_dcSize (k : Nat) (r : CoreRegs) : (s.setCoreRegs k r).dcSize = s.dcSize := rfl
@[simp] theorem State.setCoreRegs_hotReset (k : Nat) (r : CoreRegs) : (s.setCoreRegs k r).hotReset = s.hotReset := rfl
@[simp] theorem State.setCoreRegs_device (k : Nat) (r : CoreRegs) : (s.setCoreRegs k r).device = s.device := rfl
@[simp] theorem State.setCoreRegs_errcnt (k : Nat) (r : CoreRegs) : (s.setCoreRegs k r).errcnt = s.errcnt := rfl
@[simp] theorem State.setCoreRegs_errors (k : Nat) (r : CoreRegs) : (s.setCoreRegs k r).errors = s.errors := rfl
@[simp] theorem State.setCoreRegs_corrected (k : Nat) (r : CoreRegs) : (s.setCoreRegs k r).corrected = s.corrected := rfl
@[simp] theorem State.setCoreRegs_spare (k : Nat) (r : CoreRegs) : (s.setCoreRegs k r).spare = s.spare := rfl
@[simp] theorem State.setCoreRegs_further (k : Nat) (r : CoreRegs) : (s.setCoreRegs k r).further = s.further := rfl
@[simp] theorem State.setCoreRegs_schPolicy (k : Nat) (r : CoreRegs) : (s.setCoreRegs k r).schPolicy = s.schPolicy := rfl
@[simp] theorem State.setCoreRegs_cap (k : Nat) (r : CoreRegs) : (s.setCoreRegs k r).cap = s.cap := rfl
@[simp] theorem State.setCoreRegs_supplyOk (k : Nat) (r : CoreRegs) : (s.setCoreRegs k r).supplyOk = s.supplyOk := rfl
@[simp] theorem State.setCoreRegs_withheld (k : Nat) (r : CoreRegs) : (s.setCoreRegs k r).withheld = s.withheld := rfl
@[simp] theorem State.setCoreRegs_treadles (k : Nat) (r : CoreRegs) : (s.setCoreRegs k r).treadles = s.treadles := rfl
@[simp] theorem State.setCoreRegs_round (k : Nat) (r : CoreRegs) : (s.setCoreRegs k r).round = s.round := rfl
@[simp] theorem State.setCoreRegs_leader (k : Nat) (r : CoreRegs) : (s.setCoreRegs k r).leader = s.leader := rfl
@[simp] theorem State.setCoreRegs_heard (k : Nat) (r : CoreRegs) : (s.setCoreRegs k r).heard = s.heard := rfl
@[simp] theorem State.setCoreRegs_roundAt (k : Nat) (r : CoreRegs) : (s.setCoreRegs k r).roundAt = s.roundAt := rfl
@[simp] theorem State.setCoreRegs_sliceAt (k : Nat) (r : CoreRegs) : (s.setCoreRegs k r).sliceAt = s.sliceAt := rfl
@[simp] theorem State.setCoreRegs_quantumAt (k : Nat) (r : CoreRegs) : (s.setCoreRegs k r).quantumAt = s.quantumAt := rfl
@[simp] theorem State.setCoreRegs_filledAt (k : Nat) (r : CoreRegs) : (s.setCoreRegs k r).filledAt = s.filledAt := rfl
@[simp] theorem State.setCoreRegs_reports (k : Nat) (r : CoreRegs) : (s.setCoreRegs k r).reports = s.reports := rfl

@[simp] theorem State.updIface_cur (k : Nat) (f : Iface → Iface) : (s.updIface k f).cur = s.cur := rfl
@[simp] theorem State.updIface_agenda (k : Nat) (f : Iface → Iface) : (s.updIface k f).agenda = s.agenda := rfl
@[simp] theorem State.updIface_free (k : Nat) (f : Iface → Iface) : (s.updIface k f).free = s.free := rfl
@[simp] theorem State.updIface_cycle (k : Nat) (f : Iface → Iface) : (s.updIface k f).cycle = s.cycle := rfl
@[simp] theorem State.updIface_next (k : Nat) (f : Iface → Iface) : (s.updIface k f).next = s.next := rfl
@[simp] theorem State.updIface_vregs (k : Nat) (f : Iface → Iface) : (s.updIface k f).vregs = s.vregs := rfl
@[simp] theorem State.updIface_cregs (k : Nat) (f : Iface → Iface) : (s.updIface k f).cregs = s.cregs := rfl
@[simp] theorem State.updIface_uregs (k : Nat) (f : Iface → Iface) : (s.updIface k f).uregs = s.uregs := rfl
@[simp] theorem State.updIface_threads (k : Nat) (f : Iface → Iface) : (s.updIface k f).threads = s.threads := rfl
@[simp] theorem State.updIface_groups (k : Nat) (f : Iface → Iface) : (s.updIface k f).groups = s.groups := rfl
@[simp] theorem State.updIface_blocks (k : Nat) (f : Iface → Iface) : (s.updIface k f).blocks = s.blocks := rfl
@[simp] theorem State.updIface_bobbins (k : Nat) (f : Iface → Iface) : (s.updIface k f).bobbins = s.bobbins := rfl
@[simp] theorem State.updIface_spad (k : Nat) (f : Iface → Iface) : (s.updIface k f).spad = s.spad := rfl
@[simp] theorem State.updIface_acc (k : Nat) (f : Iface → Iface) : (s.updIface k f).acc = s.acc := rfl
@[simp] theorem State.updIface_pt (k : Nat) (f : Iface → Iface) : (s.updIface k f).pt = s.pt := rfl
@[simp] theorem State.updIface_latches (k : Nat) (f : Iface → Iface) : (s.updIface k f).latches = s.latches := rfl
@[simp] theorem State.updIface_latchTags (k : Nat) (f : Iface → Iface) : (s.updIface k f).latchTags = s.latchTags := rfl
@[simp] theorem State.updIface_accOld (k : Nat) (f : Iface → Iface) : (s.updIface k f).accOld = s.accOld := rfl
@[simp] theorem State.updIface_ptOld (k : Nat) (f : Iface → Iface) : (s.updIface k f).ptOld = s.ptOld := rfl
@[simp] theorem State.updIface_latchOld (k : Nat) (f : Iface → Iface) : (s.updIface k f).latchOld = s.latchOld := rfl
@[simp] theorem State.updIface_tiles (k : Nat) (f : Iface → Iface) : (s.updIface k f).tiles = s.tiles := rfl
@[simp] theorem State.updIface_fills (k : Nat) (f : Iface → Iface) : (s.updIface k f).fills = s.fills := rfl
@[simp] theorem State.updIface_cores (k : Nat) (f : Iface → Iface) : (s.updIface k f).cores = s.cores := rfl
@[simp] theorem State.updIface_mem (k : Nat) (f : Iface → Iface) : (s.updIface k f).mem = s.mem := rfl
@[simp] theorem State.updIface_poison (k : Nat) (f : Iface → Iface) : (s.updIface k f).poison = s.poison := rfl
@[simp] theorem State.updIface_shadow (k : Nat) (f : Iface → Iface) : (s.updIface k f).shadow = s.shadow := rfl
@[simp] theorem State.updIface_spills (k : Nat) (f : Iface → Iface) : (s.updIface k f).spills = s.spills := rfl
@[simp] theorem State.updIface_coreCache (k : Nat) (f : Iface → Iface) : (s.updIface k f).coreCache = s.coreCache := rfl
@[simp] theorem State.updIface_dieCache (k : Nat) (f : Iface → Iface) : (s.updIface k f).dieCache = s.dieCache := rfl
@[simp] theorem State.updIface_pins (k : Nat) (f : Iface → Iface) : (s.updIface k f).pins = s.pins := rfl
@[simp] theorem State.updIface_coreTlb (k : Nat) (f : Iface → Iface) : (s.updIface k f).coreTlb = s.coreTlb := rfl
@[simp] theorem State.updIface_clusterTlb (k : Nat) (f : Iface → Iface) : (s.updIface k f).clusterTlb = s.clusterTlb := rfl
@[simp] theorem State.updIface_dieTlb (k : Nat) (f : Iface → Iface) : (s.updIface k f).dieTlb = s.dieTlb := rfl
@[simp] theorem State.updIface_spaces (k : Nat) (f : Iface → Iface) : (s.updIface k f).spaces = s.spaces := rfl
@[simp] theorem State.updIface_shootdowns (k : Nat) (f : Iface → Iface) : (s.updIface k f).shootdowns = s.shootdowns := rfl
@[simp] theorem State.updIface_homes (k : Nat) (f : Iface → Iface) : (s.updIface k f).homes = s.homes := rfl
@[simp] theorem State.updIface_notify (k : Nat) (f : Iface → Iface) : (s.updIface k f).notify = s.notify := rfl
@[simp] theorem State.updIface_deliveries (k : Nat) (f : Iface → Iface) : (s.updIface k f).deliveries = s.deliveries := rfl
@[simp] theorem State.updIface_engines (k : Nat) (f : Iface → Iface) : (s.updIface k f).engines = s.engines := rfl
@[simp] theorem State.updIface_remote (k : Nat) (f : Iface → Iface) : (s.updIface k f).remote = s.remote := rfl
@[simp] theorem State.updIface_launches (k : Nat) (f : Iface → Iface) : (s.updIface k f).launches = s.launches := rfl
@[simp] theorem State.updIface_queues (k : Nat) (f : Iface → Iface) : (s.updIface k f).queues = s.queues := rfl
@[simp] theorem State.updIface_versions (k : Nat) (f : Iface → Iface) : (s.updIface k f).versions = s.versions := rfl
@[simp] theorem State.updIface_images (k : Nat) (f : Iface → Iface) : (s.updIface k f).images = s.images := rfl
@[simp] theorem State.updIface_drafts (k : Nat) (f : Iface → Iface) : (s.updIface k f).drafts = s.drafts := rfl
@[simp] theorem State.updIface_contexts (k : Nat) (f : Iface → Iface) : (s.updIface k f).contexts = s.contexts := rfl
@[simp] theorem State.updIface_ifaces (k : Nat) (f : Iface → Iface) : (s.updIface k f).ifaces = AMap.put s.ifaces k (f (s.iface k)) := rfl
@[simp] theorem State.updIface_sent (k : Nat) (f : Iface → Iface) : (s.updIface k f).sent = s.sent := rfl
@[simp] theorem State.updIface_phase (k : Nat) (f : Iface → Iface) : (s.updIface k f).phase = s.phase := rfl
@[simp] theorem State.updIface_life (k : Nat) (f : Iface → Iface) : (s.updIface k f).life = s.life := rfl
@[simp] theorem State.updIface_selfHosted (k : Nat) (f : Iface → Iface) : (s.updIface k f).selfHosted = s.selfHosted := rfl
@[simp] theorem State.updIface_dcNext (k : Nat) (f : Iface → Iface) : (s.updIface k f).dcNext = s.dcNext := rfl
@[simp] theorem State.updIface_dcSize (k : Nat) (f : Iface → Iface) : (s.updIface k f).dcSize = s.dcSize := rfl
@[simp] theorem State.updIface_hotReset (k : Nat) (f : Iface → Iface) : (s.updIface k f).hotReset = s.hotReset := rfl
@[simp] theorem State.updIface_device (k : Nat) (f : Iface → Iface) : (s.updIface k f).device = s.device := rfl
@[simp] theorem State.updIface_errcnt (k : Nat) (f : Iface → Iface) : (s.updIface k f).errcnt = s.errcnt := rfl
@[simp] theorem State.updIface_errors (k : Nat) (f : Iface → Iface) : (s.updIface k f).errors = s.errors := rfl
@[simp] theorem State.updIface_corrected (k : Nat) (f : Iface → Iface) : (s.updIface k f).corrected = s.corrected := rfl
@[simp] theorem State.updIface_spare (k : Nat) (f : Iface → Iface) : (s.updIface k f).spare = s.spare := rfl
@[simp] theorem State.updIface_further (k : Nat) (f : Iface → Iface) : (s.updIface k f).further = s.further := rfl
@[simp] theorem State.updIface_schPolicy (k : Nat) (f : Iface → Iface) : (s.updIface k f).schPolicy = s.schPolicy := rfl
@[simp] theorem State.updIface_cap (k : Nat) (f : Iface → Iface) : (s.updIface k f).cap = s.cap := rfl
@[simp] theorem State.updIface_supplyOk (k : Nat) (f : Iface → Iface) : (s.updIface k f).supplyOk = s.supplyOk := rfl
@[simp] theorem State.updIface_withheld (k : Nat) (f : Iface → Iface) : (s.updIface k f).withheld = s.withheld := rfl
@[simp] theorem State.updIface_treadles (k : Nat) (f : Iface → Iface) : (s.updIface k f).treadles = s.treadles := rfl
@[simp] theorem State.updIface_round (k : Nat) (f : Iface → Iface) : (s.updIface k f).round = s.round := rfl
@[simp] theorem State.updIface_leader (k : Nat) (f : Iface → Iface) : (s.updIface k f).leader = s.leader := rfl
@[simp] theorem State.updIface_heard (k : Nat) (f : Iface → Iface) : (s.updIface k f).heard = s.heard := rfl
@[simp] theorem State.updIface_roundAt (k : Nat) (f : Iface → Iface) : (s.updIface k f).roundAt = s.roundAt := rfl
@[simp] theorem State.updIface_sliceAt (k : Nat) (f : Iface → Iface) : (s.updIface k f).sliceAt = s.sliceAt := rfl
@[simp] theorem State.updIface_quantumAt (k : Nat) (f : Iface → Iface) : (s.updIface k f).quantumAt = s.quantumAt := rfl
@[simp] theorem State.updIface_filledAt (k : Nat) (f : Iface → Iface) : (s.updIface k f).filledAt = s.filledAt := rfl
@[simp] theorem State.updIface_reports (k : Nat) (f : Iface → Iface) : (s.updIface k f).reports = s.reports := rfl

@[simp] theorem State.updContext_cur (v k : Nat) (f : Context → Context) : (s.updContext v k f).cur = s.cur := rfl
@[simp] theorem State.updContext_agenda (v k : Nat) (f : Context → Context) : (s.updContext v k f).agenda = s.agenda := rfl
@[simp] theorem State.updContext_free (v k : Nat) (f : Context → Context) : (s.updContext v k f).free = s.free := rfl
@[simp] theorem State.updContext_cycle (v k : Nat) (f : Context → Context) : (s.updContext v k f).cycle = s.cycle := rfl
@[simp] theorem State.updContext_next (v k : Nat) (f : Context → Context) : (s.updContext v k f).next = s.next := rfl
@[simp] theorem State.updContext_vregs (v k : Nat) (f : Context → Context) : (s.updContext v k f).vregs = s.vregs := rfl
@[simp] theorem State.updContext_cregs (v k : Nat) (f : Context → Context) : (s.updContext v k f).cregs = s.cregs := rfl
@[simp] theorem State.updContext_uregs (v k : Nat) (f : Context → Context) : (s.updContext v k f).uregs = s.uregs := rfl
@[simp] theorem State.updContext_threads (v k : Nat) (f : Context → Context) : (s.updContext v k f).threads = s.threads := rfl
@[simp] theorem State.updContext_groups (v k : Nat) (f : Context → Context) : (s.updContext v k f).groups = s.groups := rfl
@[simp] theorem State.updContext_blocks (v k : Nat) (f : Context → Context) : (s.updContext v k f).blocks = s.blocks := rfl
@[simp] theorem State.updContext_bobbins (v k : Nat) (f : Context → Context) : (s.updContext v k f).bobbins = s.bobbins := rfl
@[simp] theorem State.updContext_spad (v k : Nat) (f : Context → Context) : (s.updContext v k f).spad = s.spad := rfl
@[simp] theorem State.updContext_acc (v k : Nat) (f : Context → Context) : (s.updContext v k f).acc = s.acc := rfl
@[simp] theorem State.updContext_pt (v k : Nat) (f : Context → Context) : (s.updContext v k f).pt = s.pt := rfl
@[simp] theorem State.updContext_latches (v k : Nat) (f : Context → Context) : (s.updContext v k f).latches = s.latches := rfl
@[simp] theorem State.updContext_latchTags (v k : Nat) (f : Context → Context) : (s.updContext v k f).latchTags = s.latchTags := rfl
@[simp] theorem State.updContext_accOld (v k : Nat) (f : Context → Context) : (s.updContext v k f).accOld = s.accOld := rfl
@[simp] theorem State.updContext_ptOld (v k : Nat) (f : Context → Context) : (s.updContext v k f).ptOld = s.ptOld := rfl
@[simp] theorem State.updContext_latchOld (v k : Nat) (f : Context → Context) : (s.updContext v k f).latchOld = s.latchOld := rfl
@[simp] theorem State.updContext_tiles (v k : Nat) (f : Context → Context) : (s.updContext v k f).tiles = s.tiles := rfl
@[simp] theorem State.updContext_fills (v k : Nat) (f : Context → Context) : (s.updContext v k f).fills = s.fills := rfl
@[simp] theorem State.updContext_cores (v k : Nat) (f : Context → Context) : (s.updContext v k f).cores = s.cores := rfl
@[simp] theorem State.updContext_mem (v k : Nat) (f : Context → Context) : (s.updContext v k f).mem = s.mem := rfl
@[simp] theorem State.updContext_poison (v k : Nat) (f : Context → Context) : (s.updContext v k f).poison = s.poison := rfl
@[simp] theorem State.updContext_shadow (v k : Nat) (f : Context → Context) : (s.updContext v k f).shadow = s.shadow := rfl
@[simp] theorem State.updContext_spills (v k : Nat) (f : Context → Context) : (s.updContext v k f).spills = s.spills := rfl
@[simp] theorem State.updContext_coreCache (v k : Nat) (f : Context → Context) : (s.updContext v k f).coreCache = s.coreCache := rfl
@[simp] theorem State.updContext_dieCache (v k : Nat) (f : Context → Context) : (s.updContext v k f).dieCache = s.dieCache := rfl
@[simp] theorem State.updContext_pins (v k : Nat) (f : Context → Context) : (s.updContext v k f).pins = s.pins := rfl
@[simp] theorem State.updContext_coreTlb (v k : Nat) (f : Context → Context) : (s.updContext v k f).coreTlb = s.coreTlb := rfl
@[simp] theorem State.updContext_clusterTlb (v k : Nat) (f : Context → Context) : (s.updContext v k f).clusterTlb = s.clusterTlb := rfl
@[simp] theorem State.updContext_dieTlb (v k : Nat) (f : Context → Context) : (s.updContext v k f).dieTlb = s.dieTlb := rfl
@[simp] theorem State.updContext_spaces (v k : Nat) (f : Context → Context) : (s.updContext v k f).spaces = s.spaces := rfl
@[simp] theorem State.updContext_shootdowns (v k : Nat) (f : Context → Context) : (s.updContext v k f).shootdowns = s.shootdowns := rfl
@[simp] theorem State.updContext_homes (v k : Nat) (f : Context → Context) : (s.updContext v k f).homes = s.homes := rfl
@[simp] theorem State.updContext_notify (v k : Nat) (f : Context → Context) : (s.updContext v k f).notify = s.notify := rfl
@[simp] theorem State.updContext_deliveries (v k : Nat) (f : Context → Context) : (s.updContext v k f).deliveries = s.deliveries := rfl
@[simp] theorem State.updContext_engines (v k : Nat) (f : Context → Context) : (s.updContext v k f).engines = s.engines := rfl
@[simp] theorem State.updContext_remote (v k : Nat) (f : Context → Context) : (s.updContext v k f).remote = s.remote := rfl
@[simp] theorem State.updContext_launches (v k : Nat) (f : Context → Context) : (s.updContext v k f).launches = s.launches := rfl
@[simp] theorem State.updContext_queues (v k : Nat) (f : Context → Context) : (s.updContext v k f).queues = s.queues := rfl
@[simp] theorem State.updContext_versions (v k : Nat) (f : Context → Context) : (s.updContext v k f).versions = s.versions := rfl
@[simp] theorem State.updContext_images (v k : Nat) (f : Context → Context) : (s.updContext v k f).images = s.images := rfl
@[simp] theorem State.updContext_drafts (v k : Nat) (f : Context → Context) : (s.updContext v k f).drafts = s.drafts := rfl
@[simp] theorem State.updContext_contexts (v k : Nat) (f : Context → Context) : (s.updContext v k f).contexts = AMap.upd s.contexts (ctxKey v k) f := rfl
@[simp] theorem State.updContext_ifaces (v k : Nat) (f : Context → Context) : (s.updContext v k f).ifaces = s.ifaces := rfl
@[simp] theorem State.updContext_sent (v k : Nat) (f : Context → Context) : (s.updContext v k f).sent = s.sent := rfl
@[simp] theorem State.updContext_phase (v k : Nat) (f : Context → Context) : (s.updContext v k f).phase = s.phase := rfl
@[simp] theorem State.updContext_life (v k : Nat) (f : Context → Context) : (s.updContext v k f).life = s.life := rfl
@[simp] theorem State.updContext_selfHosted (v k : Nat) (f : Context → Context) : (s.updContext v k f).selfHosted = s.selfHosted := rfl
@[simp] theorem State.updContext_dcNext (v k : Nat) (f : Context → Context) : (s.updContext v k f).dcNext = s.dcNext := rfl
@[simp] theorem State.updContext_dcSize (v k : Nat) (f : Context → Context) : (s.updContext v k f).dcSize = s.dcSize := rfl
@[simp] theorem State.updContext_hotReset (v k : Nat) (f : Context → Context) : (s.updContext v k f).hotReset = s.hotReset := rfl
@[simp] theorem State.updContext_device (v k : Nat) (f : Context → Context) : (s.updContext v k f).device = s.device := rfl
@[simp] theorem State.updContext_errcnt (v k : Nat) (f : Context → Context) : (s.updContext v k f).errcnt = s.errcnt := rfl
@[simp] theorem State.updContext_errors (v k : Nat) (f : Context → Context) : (s.updContext v k f).errors = s.errors := rfl
@[simp] theorem State.updContext_corrected (v k : Nat) (f : Context → Context) : (s.updContext v k f).corrected = s.corrected := rfl
@[simp] theorem State.updContext_spare (v k : Nat) (f : Context → Context) : (s.updContext v k f).spare = s.spare := rfl
@[simp] theorem State.updContext_further (v k : Nat) (f : Context → Context) : (s.updContext v k f).further = s.further := rfl
@[simp] theorem State.updContext_schPolicy (v k : Nat) (f : Context → Context) : (s.updContext v k f).schPolicy = s.schPolicy := rfl
@[simp] theorem State.updContext_cap (v k : Nat) (f : Context → Context) : (s.updContext v k f).cap = s.cap := rfl
@[simp] theorem State.updContext_supplyOk (v k : Nat) (f : Context → Context) : (s.updContext v k f).supplyOk = s.supplyOk := rfl
@[simp] theorem State.updContext_withheld (v k : Nat) (f : Context → Context) : (s.updContext v k f).withheld = s.withheld := rfl
@[simp] theorem State.updContext_treadles (v k : Nat) (f : Context → Context) : (s.updContext v k f).treadles = s.treadles := rfl
@[simp] theorem State.updContext_round (v k : Nat) (f : Context → Context) : (s.updContext v k f).round = s.round := rfl
@[simp] theorem State.updContext_leader (v k : Nat) (f : Context → Context) : (s.updContext v k f).leader = s.leader := rfl
@[simp] theorem State.updContext_heard (v k : Nat) (f : Context → Context) : (s.updContext v k f).heard = s.heard := rfl
@[simp] theorem State.updContext_roundAt (v k : Nat) (f : Context → Context) : (s.updContext v k f).roundAt = s.roundAt := rfl
@[simp] theorem State.updContext_sliceAt (v k : Nat) (f : Context → Context) : (s.updContext v k f).sliceAt = s.sliceAt := rfl
@[simp] theorem State.updContext_quantumAt (v k : Nat) (f : Context → Context) : (s.updContext v k f).quantumAt = s.quantumAt := rfl
@[simp] theorem State.updContext_filledAt (v k : Nat) (f : Context → Context) : (s.updContext v k f).filledAt = s.filledAt := rfl
@[simp] theorem State.updContext_reports (v k : Nat) (f : Context → Context) : (s.updContext v k f).reports = s.reports := rfl

@[simp] theorem State.deliver_cur (k : Nat) (l : Launch) (r : Bool) (b : List Byte) : (s.deliver k l r b).cur = s.cur := rfl
@[simp] theorem State.deliver_agenda (k : Nat) (l : Launch) (r : Bool) (b : List Byte) : (s.deliver k l r b).agenda = s.agenda := rfl
@[simp] theorem State.deliver_free (k : Nat) (l : Launch) (r : Bool) (b : List Byte) : (s.deliver k l r b).free = s.free := rfl
@[simp] theorem State.deliver_cycle (k : Nat) (l : Launch) (r : Bool) (b : List Byte) : (s.deliver k l r b).cycle = s.cycle := rfl
@[simp] theorem State.deliver_next (k : Nat) (l : Launch) (r : Bool) (b : List Byte) : (s.deliver k l r b).next = s.next := rfl
@[simp] theorem State.deliver_vregs (k : Nat) (l : Launch) (r : Bool) (b : List Byte) : (s.deliver k l r b).vregs = s.vregs := rfl
@[simp] theorem State.deliver_cregs (k : Nat) (l : Launch) (r : Bool) (b : List Byte) : (s.deliver k l r b).cregs = s.cregs := rfl
@[simp] theorem State.deliver_uregs (k : Nat) (l : Launch) (r : Bool) (b : List Byte) : (s.deliver k l r b).uregs = s.uregs := rfl
@[simp] theorem State.deliver_threads (k : Nat) (l : Launch) (r : Bool) (b : List Byte) : (s.deliver k l r b).threads = s.threads := rfl
@[simp] theorem State.deliver_groups (k : Nat) (l : Launch) (r : Bool) (b : List Byte) : (s.deliver k l r b).groups = s.groups := rfl
@[simp] theorem State.deliver_blocks (k : Nat) (l : Launch) (r : Bool) (b : List Byte) : (s.deliver k l r b).blocks = s.blocks := rfl
@[simp] theorem State.deliver_bobbins (k : Nat) (l : Launch) (r : Bool) (b : List Byte) : (s.deliver k l r b).bobbins = s.bobbins := rfl
@[simp] theorem State.deliver_spad (k : Nat) (l : Launch) (r : Bool) (b : List Byte) : (s.deliver k l r b).spad = s.spad := rfl
@[simp] theorem State.deliver_acc (k : Nat) (l : Launch) (r : Bool) (b : List Byte) : (s.deliver k l r b).acc = s.acc := rfl
@[simp] theorem State.deliver_pt (k : Nat) (l : Launch) (r : Bool) (b : List Byte) : (s.deliver k l r b).pt = s.pt := rfl
@[simp] theorem State.deliver_latches (k : Nat) (l : Launch) (r : Bool) (b : List Byte) : (s.deliver k l r b).latches = s.latches := rfl
@[simp] theorem State.deliver_latchTags (k : Nat) (l : Launch) (r : Bool) (b : List Byte) : (s.deliver k l r b).latchTags = s.latchTags := rfl
@[simp] theorem State.deliver_accOld (k : Nat) (l : Launch) (r : Bool) (b : List Byte) : (s.deliver k l r b).accOld = s.accOld := rfl
@[simp] theorem State.deliver_ptOld (k : Nat) (l : Launch) (r : Bool) (b : List Byte) : (s.deliver k l r b).ptOld = s.ptOld := rfl
@[simp] theorem State.deliver_latchOld (k : Nat) (l : Launch) (r : Bool) (b : List Byte) : (s.deliver k l r b).latchOld = s.latchOld := rfl
@[simp] theorem State.deliver_tiles (k : Nat) (l : Launch) (r : Bool) (b : List Byte) : (s.deliver k l r b).tiles = s.tiles := rfl
@[simp] theorem State.deliver_fills (k : Nat) (l : Launch) (r : Bool) (b : List Byte) : (s.deliver k l r b).fills = s.fills := rfl
@[simp] theorem State.deliver_cores (k : Nat) (l : Launch) (r : Bool) (b : List Byte) : (s.deliver k l r b).cores = s.cores := rfl
@[simp] theorem State.deliver_mem (k : Nat) (l : Launch) (r : Bool) (b : List Byte) : (s.deliver k l r b).mem = s.mem := rfl
@[simp] theorem State.deliver_poison (k : Nat) (l : Launch) (r : Bool) (b : List Byte) : (s.deliver k l r b).poison = s.poison := rfl
@[simp] theorem State.deliver_shadow (k : Nat) (l : Launch) (r : Bool) (b : List Byte) : (s.deliver k l r b).shadow = s.shadow := rfl
@[simp] theorem State.deliver_spills (k : Nat) (l : Launch) (r : Bool) (b : List Byte) : (s.deliver k l r b).spills = s.spills := rfl
@[simp] theorem State.deliver_coreCache (k : Nat) (l : Launch) (r : Bool) (b : List Byte) : (s.deliver k l r b).coreCache = s.coreCache := rfl
@[simp] theorem State.deliver_dieCache (k : Nat) (l : Launch) (r : Bool) (b : List Byte) : (s.deliver k l r b).dieCache = s.dieCache := rfl
@[simp] theorem State.deliver_pins (k : Nat) (l : Launch) (r : Bool) (b : List Byte) : (s.deliver k l r b).pins = s.pins := rfl
@[simp] theorem State.deliver_coreTlb (k : Nat) (l : Launch) (r : Bool) (b : List Byte) : (s.deliver k l r b).coreTlb = s.coreTlb := rfl
@[simp] theorem State.deliver_clusterTlb (k : Nat) (l : Launch) (r : Bool) (b : List Byte) : (s.deliver k l r b).clusterTlb = s.clusterTlb := rfl
@[simp] theorem State.deliver_dieTlb (k : Nat) (l : Launch) (r : Bool) (b : List Byte) : (s.deliver k l r b).dieTlb = s.dieTlb := rfl
@[simp] theorem State.deliver_spaces (k : Nat) (l : Launch) (r : Bool) (b : List Byte) : (s.deliver k l r b).spaces = s.spaces := rfl
@[simp] theorem State.deliver_shootdowns (k : Nat) (l : Launch) (r : Bool) (b : List Byte) : (s.deliver k l r b).shootdowns = s.shootdowns := rfl
@[simp] theorem State.deliver_homes (k : Nat) (l : Launch) (r : Bool) (b : List Byte) : (s.deliver k l r b).homes = s.homes := rfl
@[simp] theorem State.deliver_notify (k : Nat) (l : Launch) (r : Bool) (b : List Byte) : (s.deliver k l r b).notify = s.notify := rfl
@[simp] theorem State.deliver_engines (k : Nat) (l : Launch) (r : Bool) (b : List Byte) : (s.deliver k l r b).engines = s.engines := rfl
@[simp] theorem State.deliver_remote (k : Nat) (l : Launch) (r : Bool) (b : List Byte) : (s.deliver k l r b).remote = s.remote := rfl
@[simp] theorem State.deliver_launches (k : Nat) (l : Launch) (r : Bool) (b : List Byte) : (s.deliver k l r b).launches = s.launches := rfl
@[simp] theorem State.deliver_queues (k : Nat) (l : Launch) (r : Bool) (b : List Byte) : (s.deliver k l r b).queues = s.queues := rfl
@[simp] theorem State.deliver_versions (k : Nat) (l : Launch) (r : Bool) (b : List Byte) : (s.deliver k l r b).versions = s.versions := rfl
@[simp] theorem State.deliver_images (k : Nat) (l : Launch) (r : Bool) (b : List Byte) : (s.deliver k l r b).images = s.images := rfl
@[simp] theorem State.deliver_drafts (k : Nat) (l : Launch) (r : Bool) (b : List Byte) : (s.deliver k l r b).drafts = s.drafts := rfl
@[simp] theorem State.deliver_contexts (k : Nat) (l : Launch) (r : Bool) (b : List Byte) : (s.deliver k l r b).contexts = s.contexts := rfl
@[simp] theorem State.deliver_ifaces (k : Nat) (l : Launch) (r : Bool) (b : List Byte) : (s.deliver k l r b).ifaces = s.ifaces := rfl
@[simp] theorem State.deliver_sent (k : Nat) (l : Launch) (r : Bool) (b : List Byte) : (s.deliver k l r b).sent = s.sent := rfl
@[simp] theorem State.deliver_phase (k : Nat) (l : Launch) (r : Bool) (b : List Byte) : (s.deliver k l r b).phase = s.phase := rfl
@[simp] theorem State.deliver_life (k : Nat) (l : Launch) (r : Bool) (b : List Byte) : (s.deliver k l r b).life = s.life := rfl
@[simp] theorem State.deliver_selfHosted (k : Nat) (l : Launch) (r : Bool) (b : List Byte) : (s.deliver k l r b).selfHosted = s.selfHosted := rfl
@[simp] theorem State.deliver_dcNext (k : Nat) (l : Launch) (r : Bool) (b : List Byte) : (s.deliver k l r b).dcNext = s.dcNext := rfl
@[simp] theorem State.deliver_dcSize (k : Nat) (l : Launch) (r : Bool) (b : List Byte) : (s.deliver k l r b).dcSize = s.dcSize := rfl
@[simp] theorem State.deliver_hotReset (k : Nat) (l : Launch) (r : Bool) (b : List Byte) : (s.deliver k l r b).hotReset = s.hotReset := rfl
@[simp] theorem State.deliver_device (k : Nat) (l : Launch) (r : Bool) (b : List Byte) : (s.deliver k l r b).device = s.device := rfl
@[simp] theorem State.deliver_errcnt (k : Nat) (l : Launch) (r : Bool) (b : List Byte) : (s.deliver k l r b).errcnt = s.errcnt := rfl
@[simp] theorem State.deliver_errors (k : Nat) (l : Launch) (r : Bool) (b : List Byte) : (s.deliver k l r b).errors = s.errors := rfl
@[simp] theorem State.deliver_corrected (k : Nat) (l : Launch) (r : Bool) (b : List Byte) : (s.deliver k l r b).corrected = s.corrected := rfl
@[simp] theorem State.deliver_spare (k : Nat) (l : Launch) (r : Bool) (b : List Byte) : (s.deliver k l r b).spare = s.spare := rfl
@[simp] theorem State.deliver_further (k : Nat) (l : Launch) (r : Bool) (b : List Byte) : (s.deliver k l r b).further = s.further := rfl
@[simp] theorem State.deliver_schPolicy (k : Nat) (l : Launch) (r : Bool) (b : List Byte) : (s.deliver k l r b).schPolicy = s.schPolicy := rfl
@[simp] theorem State.deliver_cap (k : Nat) (l : Launch) (r : Bool) (b : List Byte) : (s.deliver k l r b).cap = s.cap := rfl
@[simp] theorem State.deliver_supplyOk (k : Nat) (l : Launch) (r : Bool) (b : List Byte) : (s.deliver k l r b).supplyOk = s.supplyOk := rfl
@[simp] theorem State.deliver_withheld (k : Nat) (l : Launch) (r : Bool) (b : List Byte) : (s.deliver k l r b).withheld = s.withheld := rfl
@[simp] theorem State.deliver_treadles (k : Nat) (l : Launch) (r : Bool) (b : List Byte) : (s.deliver k l r b).treadles = s.treadles := rfl
@[simp] theorem State.deliver_round (k : Nat) (l : Launch) (r : Bool) (b : List Byte) : (s.deliver k l r b).round = s.round := rfl
@[simp] theorem State.deliver_leader (k : Nat) (l : Launch) (r : Bool) (b : List Byte) : (s.deliver k l r b).leader = s.leader := rfl
@[simp] theorem State.deliver_heard (k : Nat) (l : Launch) (r : Bool) (b : List Byte) : (s.deliver k l r b).heard = s.heard := rfl
@[simp] theorem State.deliver_roundAt (k : Nat) (l : Launch) (r : Bool) (b : List Byte) : (s.deliver k l r b).roundAt = s.roundAt := rfl
@[simp] theorem State.deliver_sliceAt (k : Nat) (l : Launch) (r : Bool) (b : List Byte) : (s.deliver k l r b).sliceAt = s.sliceAt := rfl
@[simp] theorem State.deliver_quantumAt (k : Nat) (l : Launch) (r : Bool) (b : List Byte) : (s.deliver k l r b).quantumAt = s.quantumAt := rfl
@[simp] theorem State.deliver_filledAt (k : Nat) (l : Launch) (r : Bool) (b : List Byte) : (s.deliver k l r b).filledAt = s.filledAt := rfl
@[simp] theorem State.deliver_reports (k : Nat) (l : Launch) (r : Bool) (b : List Byte) : (s.deliver k l r b).reports = s.reports := rfl

@[simp] theorem State.setMemByte_cur (a : Nat) (b : Byte) : (s.setMemByte a b).cur = s.cur := by unfold State.setMemByte; split <;> rfl
@[simp] theorem State.setMemByte_agenda (a : Nat) (b : Byte) : (s.setMemByte a b).agenda = s.agenda := by unfold State.setMemByte; split <;> rfl
@[simp] theorem State.setMemByte_free (a : Nat) (b : Byte) : (s.setMemByte a b).free = s.free := by unfold State.setMemByte; split <;> rfl
@[simp] theorem State.setMemByte_cycle (a : Nat) (b : Byte) : (s.setMemByte a b).cycle = s.cycle := by unfold State.setMemByte; split <;> rfl
@[simp] theorem State.setMemByte_next (a : Nat) (b : Byte) : (s.setMemByte a b).next = s.next := by unfold State.setMemByte; split <;> rfl
@[simp] theorem State.setMemByte_vregs (a : Nat) (b : Byte) : (s.setMemByte a b).vregs = s.vregs := by unfold State.setMemByte; split <;> rfl
@[simp] theorem State.setMemByte_cregs (a : Nat) (b : Byte) : (s.setMemByte a b).cregs = s.cregs := by unfold State.setMemByte; split <;> rfl
@[simp] theorem State.setMemByte_uregs (a : Nat) (b : Byte) : (s.setMemByte a b).uregs = s.uregs := by unfold State.setMemByte; split <;> rfl
@[simp] theorem State.setMemByte_threads (a : Nat) (b : Byte) : (s.setMemByte a b).threads = s.threads := by unfold State.setMemByte; split <;> rfl
@[simp] theorem State.setMemByte_groups (a : Nat) (b : Byte) : (s.setMemByte a b).groups = s.groups := by unfold State.setMemByte; split <;> rfl
@[simp] theorem State.setMemByte_blocks (a : Nat) (b : Byte) : (s.setMemByte a b).blocks = s.blocks := by unfold State.setMemByte; split <;> rfl
@[simp] theorem State.setMemByte_bobbins (a : Nat) (b : Byte) : (s.setMemByte a b).bobbins = s.bobbins := by unfold State.setMemByte; split <;> rfl
@[simp] theorem State.setMemByte_spad (a : Nat) (b : Byte) : (s.setMemByte a b).spad = s.spad := by unfold State.setMemByte; split <;> rfl
@[simp] theorem State.setMemByte_acc (a : Nat) (b : Byte) : (s.setMemByte a b).acc = s.acc := by unfold State.setMemByte; split <;> rfl
@[simp] theorem State.setMemByte_pt (a : Nat) (b : Byte) : (s.setMemByte a b).pt = s.pt := by unfold State.setMemByte; split <;> rfl
@[simp] theorem State.setMemByte_latches (a : Nat) (b : Byte) : (s.setMemByte a b).latches = s.latches := by unfold State.setMemByte; split <;> rfl
@[simp] theorem State.setMemByte_latchTags (a : Nat) (b : Byte) : (s.setMemByte a b).latchTags = s.latchTags := by unfold State.setMemByte; split <;> rfl
@[simp] theorem State.setMemByte_accOld (a : Nat) (b : Byte) : (s.setMemByte a b).accOld = s.accOld := by unfold State.setMemByte; split <;> rfl
@[simp] theorem State.setMemByte_ptOld (a : Nat) (b : Byte) : (s.setMemByte a b).ptOld = s.ptOld := by unfold State.setMemByte; split <;> rfl
@[simp] theorem State.setMemByte_latchOld (a : Nat) (b : Byte) : (s.setMemByte a b).latchOld = s.latchOld := by unfold State.setMemByte; split <;> rfl
@[simp] theorem State.setMemByte_tiles (a : Nat) (b : Byte) : (s.setMemByte a b).tiles = s.tiles := by unfold State.setMemByte; split <;> rfl
@[simp] theorem State.setMemByte_fills (a : Nat) (b : Byte) : (s.setMemByte a b).fills = s.fills := by unfold State.setMemByte; split <;> rfl
@[simp] theorem State.setMemByte_cores (a : Nat) (b : Byte) : (s.setMemByte a b).cores = s.cores := by unfold State.setMemByte; split <;> rfl
@[simp] theorem State.setMemByte_poison (a : Nat) (b : Byte) : (s.setMemByte a b).poison = s.poison := by unfold State.setMemByte; split <;> rfl
@[simp] theorem State.setMemByte_shadow (a : Nat) (b : Byte) : (s.setMemByte a b).shadow = s.shadow := by unfold State.setMemByte; split <;> rfl
@[simp] theorem State.setMemByte_spills (a : Nat) (b : Byte) : (s.setMemByte a b).spills = s.spills := by unfold State.setMemByte; split <;> rfl
@[simp] theorem State.setMemByte_coreCache (a : Nat) (b : Byte) : (s.setMemByte a b).coreCache = s.coreCache := by unfold State.setMemByte; split <;> rfl
@[simp] theorem State.setMemByte_dieCache (a : Nat) (b : Byte) : (s.setMemByte a b).dieCache = s.dieCache := by unfold State.setMemByte; split <;> rfl
@[simp] theorem State.setMemByte_pins (a : Nat) (b : Byte) : (s.setMemByte a b).pins = s.pins := by unfold State.setMemByte; split <;> rfl
@[simp] theorem State.setMemByte_coreTlb (a : Nat) (b : Byte) : (s.setMemByte a b).coreTlb = s.coreTlb := by unfold State.setMemByte; split <;> rfl
@[simp] theorem State.setMemByte_clusterTlb (a : Nat) (b : Byte) : (s.setMemByte a b).clusterTlb = s.clusterTlb := by unfold State.setMemByte; split <;> rfl
@[simp] theorem State.setMemByte_dieTlb (a : Nat) (b : Byte) : (s.setMemByte a b).dieTlb = s.dieTlb := by unfold State.setMemByte; split <;> rfl
@[simp] theorem State.setMemByte_spaces (a : Nat) (b : Byte) : (s.setMemByte a b).spaces = s.spaces := by unfold State.setMemByte; split <;> rfl
@[simp] theorem State.setMemByte_shootdowns (a : Nat) (b : Byte) : (s.setMemByte a b).shootdowns = s.shootdowns := by unfold State.setMemByte; split <;> rfl
@[simp] theorem State.setMemByte_homes (a : Nat) (b : Byte) : (s.setMemByte a b).homes = s.homes := by unfold State.setMemByte; split <;> rfl
@[simp] theorem State.setMemByte_notify (a : Nat) (b : Byte) : (s.setMemByte a b).notify = s.notify := by unfold State.setMemByte; split <;> rfl
@[simp] theorem State.setMemByte_deliveries (a : Nat) (b : Byte) : (s.setMemByte a b).deliveries = s.deliveries := by unfold State.setMemByte; split <;> rfl
@[simp] theorem State.setMemByte_engines (a : Nat) (b : Byte) : (s.setMemByte a b).engines = s.engines := by unfold State.setMemByte; split <;> rfl
@[simp] theorem State.setMemByte_remote (a : Nat) (b : Byte) : (s.setMemByte a b).remote = s.remote := by unfold State.setMemByte; split <;> rfl
@[simp] theorem State.setMemByte_launches (a : Nat) (b : Byte) : (s.setMemByte a b).launches = s.launches := by unfold State.setMemByte; split <;> rfl
@[simp] theorem State.setMemByte_queues (a : Nat) (b : Byte) : (s.setMemByte a b).queues = s.queues := by unfold State.setMemByte; split <;> rfl
@[simp] theorem State.setMemByte_versions (a : Nat) (b : Byte) : (s.setMemByte a b).versions = s.versions := by unfold State.setMemByte; split <;> rfl
@[simp] theorem State.setMemByte_images (a : Nat) (b : Byte) : (s.setMemByte a b).images = s.images := by unfold State.setMemByte; split <;> rfl
@[simp] theorem State.setMemByte_drafts (a : Nat) (b : Byte) : (s.setMemByte a b).drafts = s.drafts := by unfold State.setMemByte; split <;> rfl
@[simp] theorem State.setMemByte_contexts (a : Nat) (b : Byte) : (s.setMemByte a b).contexts = s.contexts := by unfold State.setMemByte; split <;> rfl
@[simp] theorem State.setMemByte_ifaces (a : Nat) (b : Byte) : (s.setMemByte a b).ifaces = s.ifaces := by unfold State.setMemByte; split <;> rfl
@[simp] theorem State.setMemByte_sent (a : Nat) (b : Byte) : (s.setMemByte a b).sent = s.sent := by unfold State.setMemByte; split <;> rfl
@[simp] theorem State.setMemByte_phase (a : Nat) (b : Byte) : (s.setMemByte a b).phase = s.phase := by unfold State.setMemByte; split <;> rfl
@[simp] theorem State.setMemByte_life (a : Nat) (b : Byte) : (s.setMemByte a b).life = s.life := by unfold State.setMemByte; split <;> rfl
@[simp] theorem State.setMemByte_selfHosted (a : Nat) (b : Byte) : (s.setMemByte a b).selfHosted = s.selfHosted := by unfold State.setMemByte; split <;> rfl
@[simp] theorem State.setMemByte_dcNext (a : Nat) (b : Byte) : (s.setMemByte a b).dcNext = s.dcNext := by unfold State.setMemByte; split <;> rfl
@[simp] theorem State.setMemByte_dcSize (a : Nat) (b : Byte) : (s.setMemByte a b).dcSize = s.dcSize := by unfold State.setMemByte; split <;> rfl
@[simp] theorem State.setMemByte_hotReset (a : Nat) (b : Byte) : (s.setMemByte a b).hotReset = s.hotReset := by unfold State.setMemByte; split <;> rfl
@[simp] theorem State.setMemByte_device (a : Nat) (b : Byte) : (s.setMemByte a b).device = s.device := by unfold State.setMemByte; split <;> rfl
@[simp] theorem State.setMemByte_errcnt (a : Nat) (b : Byte) : (s.setMemByte a b).errcnt = s.errcnt := by unfold State.setMemByte; split <;> rfl
@[simp] theorem State.setMemByte_errors (a : Nat) (b : Byte) : (s.setMemByte a b).errors = s.errors := by unfold State.setMemByte; split <;> rfl
@[simp] theorem State.setMemByte_corrected (a : Nat) (b : Byte) : (s.setMemByte a b).corrected = s.corrected := by unfold State.setMemByte; split <;> rfl
@[simp] theorem State.setMemByte_spare (a : Nat) (b : Byte) : (s.setMemByte a b).spare = s.spare := by unfold State.setMemByte; split <;> rfl
@[simp] theorem State.setMemByte_further (a : Nat) (b : Byte) : (s.setMemByte a b).further = s.further := by unfold State.setMemByte; split <;> rfl
@[simp] theorem State.setMemByte_schPolicy (a : Nat) (b : Byte) : (s.setMemByte a b).schPolicy = s.schPolicy := by unfold State.setMemByte; split <;> rfl
@[simp] theorem State.setMemByte_cap (a : Nat) (b : Byte) : (s.setMemByte a b).cap = s.cap := by unfold State.setMemByte; split <;> rfl
@[simp] theorem State.setMemByte_supplyOk (a : Nat) (b : Byte) : (s.setMemByte a b).supplyOk = s.supplyOk := by unfold State.setMemByte; split <;> rfl
@[simp] theorem State.setMemByte_withheld (a : Nat) (b : Byte) : (s.setMemByte a b).withheld = s.withheld := by unfold State.setMemByte; split <;> rfl
@[simp] theorem State.setMemByte_treadles (a : Nat) (b : Byte) : (s.setMemByte a b).treadles = s.treadles := by unfold State.setMemByte; split <;> rfl
@[simp] theorem State.setMemByte_round (a : Nat) (b : Byte) : (s.setMemByte a b).round = s.round := by unfold State.setMemByte; split <;> rfl
@[simp] theorem State.setMemByte_leader (a : Nat) (b : Byte) : (s.setMemByte a b).leader = s.leader := by unfold State.setMemByte; split <;> rfl
@[simp] theorem State.setMemByte_heard (a : Nat) (b : Byte) : (s.setMemByte a b).heard = s.heard := by unfold State.setMemByte; split <;> rfl
@[simp] theorem State.setMemByte_roundAt (a : Nat) (b : Byte) : (s.setMemByte a b).roundAt = s.roundAt := by unfold State.setMemByte; split <;> rfl
@[simp] theorem State.setMemByte_sliceAt (a : Nat) (b : Byte) : (s.setMemByte a b).sliceAt = s.sliceAt := by unfold State.setMemByte; split <;> rfl
@[simp] theorem State.setMemByte_quantumAt (a : Nat) (b : Byte) : (s.setMemByte a b).quantumAt = s.quantumAt := by unfold State.setMemByte; split <;> rfl
@[simp] theorem State.setMemByte_filledAt (a : Nat) (b : Byte) : (s.setMemByte a b).filledAt = s.filledAt := by unfold State.setMemByte; split <;> rfl
@[simp] theorem State.setMemByte_reports (a : Nat) (b : Byte) : (s.setMemByte a b).reports = s.reports := by unfold State.setMemByte; split <;> rfl

end Sys2Proof.Machine
end

