-- ==== Sys2Proof/Laws/Groups.lean ====
section
/-! SUPPORT. Reads and writes of memory neither look at the groups nor change them. -/

namespace Sys2Proof.Machine
variable (X : AMap Group) (s : State)

theorem setMemByte_withGroups (a : Nat) (b : Byte) :
    State.setMemByte { s with groups := X } a b = { s.setMemByte a b with groups := X } := by
  unfold State.setMemByte; split <;> rfl

theorem baseLine_withGroups (tag ln : Nat) : State.baseLine { s with groups := X } tag ln = s.baseLine tag ln := rfl

theorem foldl_withGroups {α : Type} (f : State → α → State)
    (hf : ∀ t a, f { t with groups := X } a = { f t a with groups := X }) (l : List α) :
    l.foldl f { s with groups := X } = { l.foldl f s with groups := X } := by
  induction l generalizing s with
  | nil => rfl
  | cons a l ih => rw [List.foldl_cons, hf, ih]; rfl

theorem setBaseLine_withGroups (tag ln : Nat) (d : Line) (m : LaneMask) :
    State.setBaseLine { s with groups := X } tag ln d m = { s.setBaseLine tag ln d m with groups := X } := by
  unfold State.setBaseLine
  dsimp only
  split
  · exact foldl_withGroups X
      { s with poison := Cells.set s.poison (shadowKey tag ln)
                 (if m ≠ BitVec.allOnes 64 ∧ s.poisoned tag ln then 1 else 0) }
      (fun (t : State) (i : Nat) => if m.getLsbD i then t.setMemByte (ln * 64 + i) (lineByte d i) else t)
      (fun t i => by dsimp only; split; exacts [setMemByte_withGroups X t _ _, rfl]) _
  · split <;> rfl

theorem dieLine_withGroups (die tag ln : Nat) :
    State.dieLine { s with groups := X } die tag ln = ((s.dieLine die tag ln).1, { (s.dieLine die tag ln).2 with groups := X }) := by
  unfold State.dieLine; dsimp only
  cases AMap.find? s.dieCache (cacheKey tag die ln) <;> rfl

theorem coreLine_withGroups (core tag ln : Nat) :
    State.coreLine { s with groups := X } core tag ln = ((s.coreLine core tag ln).1, { (s.coreLine core tag ln).2 with groups := X }) := by
  unfold State.coreLine; dsimp only
  cases AMap.find? s.coreCache (cacheKey tag core ln) with
  | some c => rfl
  | none => simp only [dieLine_withGroups]

theorem flushDieLine_withGroups (die tag ln : Nat) :
    State.flushDieLine { s with groups := X } die tag ln = { s.flushDieLine die tag ln with groups := X } := by
  unfold State.flushDieLine; dsimp only
  cases AMap.find? s.dieCache (cacheKey tag die ln) with
  | none => rfl
  | some c => dsimp only; split <;> simp only [setBaseLine_withGroups]

theorem flushCoreLine_withGroups (core tag ln : Nat) :
    State.flushCoreLine { s with groups := X } core tag ln = { s.flushCoreLine core tag ln with groups := X } := by
  unfold State.flushCoreLine; dsimp only
  cases AMap.find? s.coreCache (cacheKey tag core ln) with
  | none => rfl
  | some c => dsimp only; split <;> simp only [dieLine_withGroups]

theorem pushLine_withGroups (core tag ln : Nat) (sc : Scope) :
    State.pushLine { s with groups := X } core tag ln sc = { s.pushLine core tag ln sc with groups := X } := by
  unfold State.pushLine
  split <;> simp only [flushCoreLine_withGroups, flushDieLine_withGroups]

theorem readLine_withGroups (core tag : Nat) (cd : Bool) (sc : Scope) (ln : Nat) :
    State.readLine { s with groups := X } core tag cd sc ln = ((s.readLine core tag cd sc ln).1, { (s.readLine core tag cd sc ln).2 with groups := X }) := by
  unfold State.readLine
  split
  · rfl
  · dsimp only
    split <;> simp only [pushLine_withGroups, coreLine_withGroups, dieLine_withGroups, baseLine_withGroups]

theorem writeLine_withGroups (core tag : Nat) (cd : Bool) (sc : Scope) (ln : Nat) (d : Line) (m : LaneMask) :
    State.writeLine { s with groups := X } core tag cd sc ln d m = { s.writeLine core tag cd sc ln d m with groups := X } := by
  unfold State.writeLine
  split
  · exact setBaseLine_withGroups ..
  · split <;> simp only [pushLine_withGroups, coreLine_withGroups, dieLine_withGroups, flushCoreLine_withGroups, setBaseLine_withGroups]

theorem setChipByte_withGroups (oc : Nat) (b : Byte) :
    State.setChipByte { s with groups := X } oc b = { s.setChipByte oc b with groups := X } := by
  unfold State.setChipByte
  dsimp only
  repeat' split
  all_goals rfl

theorem setChipBytes_withGroups (oc : Nat) (bs : List Byte) :
    State.setChipBytes { s with groups := X } oc bs = { s.setChipBytes oc bs with groups := X } := by
  induction bs generalizing s oc with
  | nil => rfl
  | cons b bs ih => simp only [State.setChipBytes, setChipByte_withGroups, ih]

theorem noteReserved_withGroups (oc n : Nat) :
    State.noteReserved { s with groups := X } oc n = { s.noteReserved oc n with groups := X } := by
  unfold State.noteReserved
  split <;> rfl

theorem readPlace_withGroups (core : Nat) (p : Place) (n : Nat) :
    State.readPlace { s with groups := X } core p n = ((s.readPlace core p n).1, { (s.readPlace core p n).2 with groups := X }) := by
  unfold State.readPlace
  split
  · simp only [readLine_withGroups]
  · exact Prod.ext rfl (noteReserved_withGroups ..)
  · rfl
  · rfl

theorem writePlace_withGroups (core : Nat) (p : Place) (bs : List Byte) :
    State.writePlace { s with groups := X } core p bs = { s.writePlace core p bs with groups := X } := by
  unfold State.writePlace
  cases p with
  | g pa tag cached sc => exact writeLine_withGroups ..
  | chip oc => exact (congrArg (fun t => State.noteReserved t oc bs.length) (setChipBytes_withGroups ..)).trans (noteReserved_withGroups ..)
  | peer dev va => rfl
  | held a sw => rfl

theorem vpcAt_withGroups (b : Block) (l : Launch) (p : Path) :
    State.vpcAt { s with groups := X } b l p = s.vpcAt b l p := rfl

theorem flushCore_withGroups (core : Nat) :
    State.flushCore { s with groups := X } core = { s.flushCore core with groups := X } :=
  foldl_withGroups X s _ (fun t e => by split; exacts [flushCoreLine_withGroups .., rfl]) _

theorem flushDie_withGroups (die : Nat) :
    State.flushDie { s with groups := X } die = { s.flushDie die with groups := X } :=
  foldl_withGroups X s _ (fun t e => by split; exacts [flushDieLine_withGroups .., rfl]) _

theorem releaseCaches_withGroups (core : Nat) (sc : Scope) :
    State.releaseCaches { s with groups := X } core sc = { s.releaseCaches core sc with groups := X } := by
  unfold State.releaseCaches
  split <;> simp only [flushCore_withGroups, flushDie_withGroups]

theorem acquireCaches_withGroups (core : Nat) (sc : Scope) :
    State.acquireCaches { s with groups := X } core sc = { s.acquireCaches core sc with groups := X } := by
  unfold State.acquireCaches
  split <;> simp only [flushCore_withGroups, flushDie_withGroups]

theorem performAt_withGroups (gk : Nat) (g : Group) (p : Path) (b : Block) (l : Launch) (w : GStore) (dst : Place) :
    State.performAt { s with groups := X } gk g p b l w dst = { s.performAt gk g p b l w dst with groups := X } := by
  unfold State.performAt
  cases dst with
  | peer dev va => rfl
  | held a sw => rfl
  | g pa tag cached sc => dsimp only; split <;> simp only [writePlace_withGroups, readPlace_withGroups]
  | chip oc => dsimp only; split <;> simp only [writePlace_withGroups, readPlace_withGroups]

theorem freeze_withGroups (bk gid vpc : Nat) (e : Bool) (f : Flt) :
    State.freeze { s with groups := X } bk gid vpc e f = { s.freeze bk gid vpc e f with groups := X } := by
  unfold State.freeze
  dsimp only
  split
  · rfl
  · split
    · rfl
    · split
      · rfl
      · split
        · rfl
        · rename_i l _
          simp only [show State.iface { s with groups := X } l.vi = s.iface l.vi from rfl]
          split <;> split <;> rfl

theorem storeTarget_withGroups (l : Launch) (w : GStore) :
    State.storeTarget { s with groups := X } l w = s.storeTarget l w := rfl

theorem performStore_withGroups (gk : Nat) (g : Group) (p : Path) (b : Block) (l : Launch) (w : GStore) :
    State.performStore { s with groups := X } gk g p b l w = { s.performStore gk g p b l w with groups := X } := by
  unfold State.performStore
  cases w.rel with
  | none =>
    simp only [storeTarget_withGroups]
    split
    · exact performAt_withGroups ..
    · rfl
    · exact freeze_withGroups ..
  | some sc =>
    simp only [releaseCaches_withGroups, storeTarget_withGroups]
    split
    · exact performAt_withGroups ..
    · rfl
    · exact freeze_withGroups ..

theorem performStores_withGroups (gk : Nat) (g : Group) (p : Path) (b : Block) (l : Launch) :
    State.performStores { s with groups := X } gk g p b l = { s.performStores gk g p b l with groups := X } :=
  foldl_withGroups X s _ (fun t w => performStore_withGroups X t gk g p b l w) _

theorem performStores_groups (gk : Nat) (g : Group) (p : Path) (b : Block) (l : Launch) :
    (s.performStores gk g p b l).groups = s.groups := by
  have h : State.groups _ = State.groups _ := congrArg State.groups (performStores_withGroups s.groups s gk g p b l)
  exact h

end Sys2Proof.Machine
end

