-- ==== Sys2Proof/Laws/Storage.lean ====
section
/-! SUPPORT. Reads and writes of memory change storage alone. -/

namespace Sys2Proof.Safety

open Sys2Proof.Machine

theorem StorageOnly.refl (s : State) : StorageOnly s s := rfl

theorem StorageOnly.trans {s t u : State} (h : StorageOnly s t) (h' : StorageOnly t u) : StorageOnly s u := by
  unfold StorageOnly at *
  refine h'.trans ?_
  rw [h]

theorem StorageOnly.foldl {α : Type} (f : State → α → State) (hf : ∀ t a, StorageOnly t (f t a)) (l : List α)
    (s : State) : StorageOnly s (l.foldl f s) := by
  induction l generalizing s with
  | nil => exact .refl s
  | cons a l ih => exact (hf s a).trans (ih _)

end Sys2Proof.Safety

namespace Sys2Proof.Machine

open Sys2Proof.Safety

variable (s : State)

theorem storage_setMemByte (a : Nat) (b : Byte) : StorageOnly s (s.setMemByte a b) := by
  unfold State.setMemByte; split <;> rfl

theorem storage_setMemBytes (a : Nat) (bs : List Byte) : StorageOnly s (s.setMemBytes a bs) := by
  induction bs generalizing s a with
  | nil => rfl
  | cons b bs ih => exact (storage_setMemByte s a b).trans (ih _ _)

theorem storage_setBaseLine (tag ln : Nat) (d : Line) (m : LaneMask) : StorageOnly s (s.setBaseLine tag ln d m) := by
  unfold State.setBaseLine
  dsimp only
  split
  · refine StorageOnly.trans (t := { s with poison := _ }) rfl (StorageOnly.foldl _ (fun t i => ?_) _ _)
    split
    · exact storage_setMemByte t _ _
    · rfl
  · split <;> rfl

theorem storage_dieLine (die tag ln : Nat) : StorageOnly s (s.dieLine die tag ln).2 := by
  unfold State.dieLine; dsimp only
  cases AMap.find? s.dieCache (cacheKey tag die ln) <;> rfl

theorem storage_coreLine (core tag ln : Nat) : StorageOnly s (s.coreLine core tag ln).2 := by
  unfold State.coreLine
  cases AMap.find? s.coreCache (cacheKey tag core ln) with
  | some c => rfl
  | none => exact (storage_dieLine s (dieOf core) tag ln).trans rfl

theorem storage_flushDieLine (die tag ln : Nat) : StorageOnly s (s.flushDieLine die tag ln) := by
  unfold State.flushDieLine
  cases AMap.find? s.dieCache (cacheKey tag die ln) with
  | none => rfl
  | some c =>
    dsimp only
    split
    · rfl
    · exact (storage_setBaseLine s tag ln c.data c.dirty).trans rfl

theorem storage_flushCoreLine (core tag ln : Nat) : StorageOnly s (s.flushCoreLine core tag ln) := by
  unfold State.flushCoreLine
  cases AMap.find? s.coreCache (cacheKey tag core ln) with
  | none => rfl
  | some c =>
    dsimp only
    split
    · rfl
    · exact (storage_dieLine s (dieOf core) tag ln).trans rfl

theorem storage_pushLine (core tag ln : Nat) (sc : Scope) : StorageOnly s (s.pushLine core tag ln sc) := by
  unfold State.pushLine
  split
  · rfl
  · exact storage_flushCoreLine ..
  · exact (storage_flushCoreLine s core tag ln).trans (storage_flushDieLine ..)

theorem storage_readLine (core tag : Nat) (cd : Bool) (sc : Scope) (ln : Nat) :
    StorageOnly s (s.readLine core tag cd sc ln).2 := by
  unfold State.readLine
  split
  · rfl
  · dsimp only
    split
    · exact (storage_pushLine s core tag ln sc).trans (storage_coreLine ..)
    · exact (storage_pushLine s core tag ln sc).trans (storage_dieLine ..)
    · exact storage_pushLine s core tag ln sc

theorem storage_writeLine (core tag : Nat) (cd : Bool) (sc : Scope) (ln : Nat) (d : Line) (m : LaneMask) :
    StorageOnly s (s.writeLine core tag cd sc ln d m) := by
  unfold State.writeLine
  split
  · exact storage_setBaseLine ..
  · split
    · exact (storage_coreLine s core tag ln).trans rfl
    · exact ((storage_flushCoreLine s core tag ln).trans (storage_dieLine ..)).trans rfl
    · exact ((storage_pushLine s core tag ln sc).trans (storage_setBaseLine ..)).trans rfl

theorem storage_setChipByte (oc : Nat) (b : Byte) : StorageOnly s (s.setChipByte oc b) := by
  unfold State.setChipByte
  dsimp only
  repeat' split
  all_goals rfl

theorem storage_setChipBytes (oc : Nat) (bs : List Byte) : StorageOnly s (s.setChipBytes oc bs) := by
  induction bs generalizing s oc with
  | nil => rfl
  | cons b bs ih => exact (storage_setChipByte s oc b).trans (ih _ _)

theorem storage_upd (x : Cells 64) (y : List (List Byte)) : StorageOnly s { s with errcnt := x, errors := y } := rfl

theorem State.bumpUncorr_eq (d : Nat) : ∃ x, s.bumpUncorr d = { s with errcnt := x } := ⟨_, rfl⟩

/-- A counted error changes the counters and the records that wait, nothing else. -/
theorem State.countError_eq (domain kind unit vi ctx addr lsn : Nat) :
    ∃ x y, s.countError domain kind unit vi ctx addr lsn = { s with errcnt := x, errors := y } := by
  obtain ⟨x, h⟩ := State.bumpUncorr_eq s domain
  exact ⟨x, _, by unfold State.countError; rw [h]⟩

theorem storage_countError (domain kind unit vi ctx addr lsn : Nat) :
    StorageOnly s (s.countError domain kind unit vi ctx addr lsn) := by
  obtain ⟨x, y, h⟩ := State.countError_eq s domain kind unit vi ctx addr lsn
  rw [h]
  exact storage_upd s x y

theorem storage_configEvent : StorageOnly s s.configEvent := storage_countError s 10 3 0 0xFF 0xFFFF 0 0

theorem storage_noteReserved (oc n : Nat) : StorageOnly s (s.noteReserved oc n) := by
  unfold State.noteReserved
  split
  · exact storage_configEvent s
  · rfl

theorem storage_readPlace (core : Nat) (p : Place) (n : Nat) : StorageOnly s (s.readPlace core p n).2 := by
  unfold State.readPlace
  cases p with
  | g pa tag cached sc => exact storage_readLine ..
  | chip oc => exact storage_noteReserved ..
  | peer dev va => rfl
  | held a sw => rfl

theorem storage_writePlace (core : Nat) (p : Place) (bs : List Byte) : StorageOnly s (s.writePlace core p bs) := by
  unfold State.writePlace
  cases p with
  | g pa tag cached sc => exact storage_writeLine ..
  | chip oc => exact (storage_setChipBytes ..).trans (storage_noteReserved ..)
  | peer dev va => rfl
  | held a sw => rfl

theorem storage_flushCore (core : Nat) : StorageOnly s (s.flushCore core) :=
  StorageOnly.foldl _ (fun t e => by split; exacts [storage_flushCoreLine .., rfl]) _ _

theorem storage_flushDie (die : Nat) : StorageOnly s (s.flushDie die) :=
  StorageOnly.foldl _ (fun t e => by split; exacts [storage_flushDieLine .., rfl]) _ _

theorem storage_releaseCaches (core : Nat) (sc : Scope) : StorageOnly s (s.releaseCaches core sc) := by
  unfold State.releaseCaches
  split
  · rfl
  · exact storage_flushCore ..
  · exact (storage_flushCore s core).trans (storage_flushDie ..)

theorem storage_acquireCaches (core : Nat) (sc : Scope) : StorageOnly s (s.acquireCaches core sc) := by
  unfold State.acquireCaches
  split
  · rfl
  · exact (storage_flushCore s core).trans rfl
  · exact ((storage_flushCore s core).trans (storage_flushDie ..)).trans rfl

theorem storage_performAt (gk : Nat) (g : Group) (p : Path) (b : Block) (l : Launch) (w : GStore) (dst : Place) :
    StorageOnly s (s.performAt gk g p b l w dst) := by
  unfold State.performAt
  have hg : ∀ dst, StorageOnly s (if w.mask.isEmpty then s.writePlace b.core dst w.data
      else (s.readPlace b.core dst w.data.length).2.writePlace b.core dst
        (maskBytes (s.readPlace b.core dst w.data.length).1 w.data w.mask)) := by
    intro dst
    split
    · exact storage_writePlace ..
    · exact (storage_readPlace s b.core dst w.data.length).trans (storage_writePlace ..)
  cases dst with
  | peer dev va => rfl
  | held a sw => rfl
  | g pa tag cached sc => exact hg _
  | chip oc => exact hg _

/-- A store that goes through no window when it performs changes storage alone. -/
theorem storage_performStore (gk : Nat) (g : Group) (p : Path) (b : Block) (l : Launch) (w : GStore)
    (hw : w.via = none) : StorageOnly s (s.performStore gk g p b l w) := by
  unfold State.performStore
  have ht : ∀ t : State, t.storeTarget l w = .ok w.dst := fun t => by simp [State.storeTarget, hw]
  cases w.rel with
  | none => simp only [ht]; exact storage_performAt ..
  | some sc => simp only [ht]; exact (storage_releaseCaches s b.core sc).trans (storage_performAt ..)

/-- The stores of a region change storage alone when none goes through a window. -/
theorem storage_performStores (gk : Nat) (g : Group) (p : Path) (b : Block) (l : Launch)
    (h : ∀ w ∈ p.gated, w.via = none) : StorageOnly s (s.performStores gk g p b l) := by
  unfold State.performStores
  generalize p.gated = ws at h
  induction ws generalizing s with
  | nil => rfl
  | cons w ws ih =>
    exact (storage_performStore s gk g p b l w (h w List.mem_cons_self)).trans
      (ih _ fun x hx => h x (List.mem_cons_of_mem _ hx))

end Sys2Proof.Machine
end

