-- ==== Sys2Proof/Laws/Paths.lean ====
section
/-! SUPPORT. Masks and paths: joining, regrouping and splitting leave every lane at its program counter, and what
the end of a Fleper instruction changes. -/

namespace Sys2Proof.Machine

open Sys2Proof.Safety

theorem getLsbD_one_shift (x i : Nat) :
    (1#64 <<< x).getLsbD i = (decide (i < 64) && decide (i = x)) := by
  rw [BitVec.getLsbD_shiftLeft, BitVec.getLsbD_one]
  by_cases hi : i < 64 <;> by_cases hx : i = x <;> by_cases h : i < x <;> (simp [hi, hx, h]; try omega)

theorem getLsbD_foldl_or (ls : List Nat) (m : LaneMask) (i : Nat) :
    (ls.foldl (fun m i => m ||| 1#64 <<< i) m).getLsbD i
      = (m.getLsbD i || (decide (i < 64) && decide (i ∈ ls))) := by
  induction ls generalizing m with
  | nil => simp
  | cons x ls ih =>
    rw [List.foldl_cons, ih, BitVec.getLsbD_or, getLsbD_one_shift]
    by_cases hx : i = x
    · subst hx; cases m.getLsbD i <;> by_cases hi : i < 64 <;> simp [hi]
    · cases m.getLsbD i <;> simp [hx]

/-- A lane of the mask of a list. -/
theorem getLsbD_maskOf (ls : List Nat) (i : Nat) :
    (maskOf ls).getLsbD i = (decide (i < 64) && decide (i ∈ ls)) := by
  simp [maskOf, getLsbD_foldl_or]

theorem mem_lanesOf (m : LaneMask) (i : Nat) : i ∈ lanesOf m ↔ m.getLsbD i = true := by
  simp only [lanesOf, List.mem_filter, mem_span]
  constructor
  · exact fun h => h.2
  · exact fun h => ⟨⟨Nat.zero_le _, by have := BitVec.lt_of_getLsbD h; omega⟩, h⟩

theorem standsAt_nil (lane pc : Nat) : standsAt [] lane pc ↔ False := by simp [standsAt]

theorem standsAt_cons (p : Path) (ps : List Path) (lane pc : Nat) :
    standsAt (p :: ps) lane pc ↔ (p.mask.getLsbD lane = true ∧ p.pc = pc) ∨ standsAt ps lane pc := by
  simp [standsAt]

theorem standsAt_append (ps qs : List Path) (lane pc : Nat) :
    standsAt (ps ++ qs) lane pc ↔ standsAt ps lane pc ∨ standsAt qs lane pc := by
  induction ps with
  | nil => simp [standsAt]
  | cons p ps ih => simp only [List.cons_append, standsAt_cons, ih, or_assoc]

theorem Path.join_mask (p q : Path) : (p.join q).mask = p.mask ||| q.mask := by
  unfold Path.join; dsimp only; split <;> rfl

theorem Path.join_pc (p q : Path) : (p.join q).pc = p.pc ∨ (p.join q).pc = q.pc := by
  unfold Path.join; dsimp only; split
  · exact .inl rfl
  · exact .inr rfl

theorem standsAt_addPath (p : Path) (ps : List Path) (lane pc : Nat) :
    standsAt (addPath p ps) lane pc ↔ standsAt (p :: ps) lane pc := by
  induction ps with
  | nil => simp [addPath]
  | cons q qs ih =>
    simp only [addPath]
    split
    · next h =>
      have hpc : (q.join p).pc = q.pc := by
        rcases Path.join_pc q p with e | e
        · exact e
        · exact e.trans h.1
      simp only [standsAt_cons, Path.join_mask, hpc, BitVec.getLsbD_or, Bool.or_eq_true, h.1]
      tauto
    · simp only [standsAt_cons, ih]; tauto

theorem standsAt_joinPaths (ps : List Path) (lane pc : Nat) :
    standsAt (joinPaths ps) lane pc ↔ standsAt ps lane pc := by
  have h : ∀ acc : List Path,
      standsAt (ps.foldl (fun acc p => if p.mask = 0 then acc else addPath p acc) acc) lane pc ↔
        standsAt acc lane pc ∨ standsAt ps lane pc := by
    induction ps with
    | nil => intro acc; simp [standsAt_nil]
    | cons p ps ih =>
      intro acc
      rw [List.foldl_cons, ih]
      split
      · next h => simp [standsAt_cons, h]
      · rw [standsAt_addPath]; simp only [standsAt_cons]; tauto
  rw [joinPaths, h, standsAt_nil, false_or]

theorem standsAt_updAt (f : Path → Path) (hm : ∀ p, (f p).mask = p.mask) (hp : ∀ p, (f p).pc = p.pc)
    (ps : List Path) (i lane pc : Nat) : standsAt (updAt f ps i) lane pc ↔ standsAt ps lane pc := by
  induction ps generalizing i with
  | nil => rfl
  | cons p ps ih => cases i with
    | zero => simp [updAt, standsAt_cons, hm, hp]
    | succ i => simp only [updAt, standsAt_cons, ih]

theorem standsAt_giveEntries (n : Nat) (ps : List Path) (lane pc : Nat) :
    standsAt (giveEntries n ps) lane pc ↔ standsAt ps lane pc := by
  induction n generalizing ps with
  | zero => rfl
  | succ n ih =>
    simp only [giveEntries]
    split
    · rw [ih]
      exact standsAt_updAt (fun (p : Path) => { p with entry := some _ }) (fun _ => rfl) (fun _ => rfl) _ _ _ _
    · rfl

theorem standsAt_map (f : Path → Path) (hm : ∀ p, (f p).mask = p.mask) (hp : ∀ p, (f p).pc = p.pc)
    (ps : List Path) (lane pc : Nat) : standsAt (ps.map f) lane pc ↔ standsAt ps lane pc := by
  simp [standsAt, hm, hp]

/-- Regrouping leaves every lane at its program counter. -/
theorem Group.standsAt_regroup (g : Group) (lane pc : Nat) :
    standsAt g.regroup.paths lane pc ↔ standsAt g.paths lane pc := by
  unfold Group.regroup
  split
  · refine (standsAt_map _ (fun p => ?_) (fun p => ?_) _ _ _).trans ?_
    · split <;> rfl
    · split <;> rfl
    · rw [standsAt_giveEntries, standsAt_joinPaths]
  · simp only [standsAt_giveEntries, standsAt_joinPaths]

/-- Regrouping changes paths, the path that issues and the entry last left. -/
theorem Group.regroup_eq (g : Group) :
    g.regroup = { g with paths := g.regroup.paths, issuing := g.regroup.issuing, last := g.issuing.getD g.last } := by
  unfold Group.regroup
  split <;> rfl

theorem mem_distinct (f : Nat → Nat) (ls : List Nat) (d : Nat) :
    d ∈ distinct f ls ↔ ∃ l ∈ ls, f l = d := by
  induction ls generalizing d with
  | nil => simp [distinct]
  | cons x xs ih =>
    simp only [distinct, List.mem_cons, List.mem_filter, ih, bne_iff_ne, ne_eq]
    constructor
    · rintro (rfl | ⟨⟨l, hl, rfl⟩, -⟩)
      · exact ⟨x, .inl rfl, rfl⟩
      · exact ⟨l, .inr hl, rfl⟩
    · rintro ⟨l, rfl | hl, rfl⟩
      · exact .inl rfl
      · by_cases h : f l = f x
        · exact .inl h
        · exact .inr ⟨⟨l, hl, rfl⟩, h⟩

/-- The paths a path splits into hold its lanes, each where it goes. -/
theorem standsAt_splitPath (p : Path) (lanes : List Nat) (dest : Nat → Nat) (since lane pc : Nat) :
    standsAt (splitPath p lanes dest since) lane pc ↔ lane ∈ lanes ∧ lane < 64 ∧ dest lane = pc := by
  have key : standsAt (splitPath p lanes dest since) lane pc ↔
      ∃ d ∈ distinct dest lanes, (maskOf (lanes.filter fun l => dest l == d)).getLsbD lane = true ∧ d = pc := by
    unfold splitPath
    cases distinct dest lanes with
    | nil => simp [standsAt_nil]
    | cons d ds =>
      rw [standsAt_cons]
      simp only [standsAt, List.mem_map]
      constructor
      · rintro (⟨h, rfl⟩ | ⟨q, ⟨e, he, rfl⟩, h, rfl⟩)
        · exact ⟨d, List.mem_cons_self, h, rfl⟩
        · exact ⟨e, List.mem_cons_of_mem _ he, h, rfl⟩
      · rintro ⟨e, he, h, rfl⟩
        rcases List.mem_cons.1 he with rfl | he
        · exact .inl ⟨h, rfl⟩
        · exact .inr ⟨_, ⟨e, he, rfl⟩, h, rfl⟩
  rw [key]
  simp only [getLsbD_maskOf, mem_distinct, List.mem_filter, Bool.and_eq_true, decide_eq_true_eq, beq_iff_eq]
  constructor
  · rintro ⟨d, -, ⟨h64, hl, hd⟩, rfl⟩
    exact ⟨hl, h64, hd⟩
  · rintro ⟨hl, h64, rfl⟩
    exact ⟨dest lane, ⟨lane, hl, rfl⟩, ⟨h64, hl, rfl⟩, rfl⟩

theorem standsAt_replaceAt (g : Group) (i : Nat) (new : List Path) (lane pc : Nat) :
    standsAt (replaceAt g.paths i new) lane pc ↔
      standsAt new lane pc ∨ standsAt (pathsBut g i) lane pc := by
  simp only [replaceAt, pathsBut, standsAt_append]; tauto

end Sys2Proof.Machine
end

