-- ==== Sys2Proof/Laws/Finish.lean ====
section
/-! SUPPORT. What the issuing context is, and everything the end of an instruction can do. -/

namespace Sys2Proof.Machine

open Sys2Proof.Safety

/-- What the issuing context consists of. -/
theorem State.ctx_eq {s : State} {gd : Guard} {c : Ctx} (h : s.ctx gd = some c) :
    s.cur = some c.cur ∧ AMap.find? s.groups c.cur.grp = some c.g ∧ c.g.paths[c.cur.path]? = some c.p ∧
      AMap.find? s.blocks c.g.block = some c.b ∧ AMap.find? s.launches c.b.launch = some c.l ∧
      c.lanes = lanesOf c.p.mask ∧
      c.exec = c.lanes.filter fun i => guardTrue gd (s.thread (c.g.thread i)) := by
  unfold State.ctx at h
  split at h
  · cases h
  · next cur hcur =>
    split at h
    · cases h
    · next g hg =>
      split at h
      · next p b hp hb =>
        split at h
        · cases h
        · next l hl => cases h; exact ⟨hcur, hg, hp, hb, hl, rfl, rfl⟩
      · cases h

/-- An instruction with an issuing context has its effect. -/
theorem State.issue_of_ctx {s : State} {gd : Guard} {c : Ctx} (h : s.ctx gd = some c) (f : Ctx → State) :
    s.issue gd f = .next (f c) := by simp [State.issue, h]

theorem State.ctx_lane_lt {s : State} {gd : Guard} {c : Ctx} (h : s.ctx gd = some c) {l : Nat}
    (hl : l ∈ c.lanes) : l < 64 := by
  rw [(State.ctx_eq h).2.2.2.2.2.1, mem_lanesOf] at hl
  have := BitVec.lt_of_getLsbD hl
  omega

theorem Ctx.native_none {c : Ctx} (h : c.cur.slot = none) : c.native = false := by simp [Ctx.native, h]

theorem Ctx.midBundle_none {c : Ctx} (h : c.cur.slot = none) : c.midBundle = false := by
  simp [Ctx.midBundle, Ctx.native_none h]

/-- The issuing path after a change of it. -/
theorem State.find_updCur {s : State} {c : Ctx} {g : Group} (h : AMap.find? s.groups c.cur.grp = some g)
    (f : Path → Path) :
    AMap.find? (s.updCur c f).groups c.cur.grp = some { g with paths := updAt f g.paths c.cur.path } := by
  simp [State.updCur, State.updPath, h]

theorem State.find_updCur_other {s : State} {c : Ctx} {k : Nat} (h : k ≠ c.cur.grp) (f : Path → Path) :
    AMap.find? (s.updCur c f).groups k = AMap.find? s.groups k := by
  simp [State.updCur, State.updPath, AMap.find?_upd_other _ _ h]

theorem State.path_of_find {s : State} {c : Ctx} {g : Group} {p : Path}
    (h : AMap.find? s.groups c.cur.grp = some g) (hp : g.paths[c.cur.path]? = some p) : s.path c = p := by
  simp [State.path, h, hp]

/-- A change of the issuing path touches groups alone. -/
theorem State.updCur_frame (s : State) (c : Ctx) (f : Path → Path) :
    s.updCur c f = { s with groups := (s.updCur c f).groups } := rfl

theorem State.updGroup_frame (s : State) (k : Nat) (f : Group → Group) :
    s.updGroup k f = { s with groups := (s.updGroup k f).groups } := rfl

/-- A list with the element at an index changed, then split there. -/
theorem pathsBut_updAt (g : Group) (f : Path → Path) (i : Nat) :
    pathsBut { g with paths := updAt f g.paths i } i = pathsBut g i := by
  have key : ∀ (ps : List Path) (i : Nat), (updAt f ps i).take i = ps.take i ∧
      (updAt f ps i).drop (i + 1) = ps.drop (i + 1) := by
    intro ps
    induction ps with
    | nil => intro i; simp [updAt]
    | cons p ps ih => intro i; cases i with
      | zero => simp [updAt]
      | succ i => simp [updAt, ih i]
  simp [pathsBut, key]

/-- A path with no store in hand performs none. -/
theorem State.performStores_nil (s : State) (gk : Nat) (g : Group) (p : Path) (b : Block) (l : Launch)
    (h : p.gated = []) : s.performStores gk g p b l = s := by simp [State.performStores, h]

/-- The commit of a region that is no matrix run: the stores in hand perform, the pending flags join the group's. -/
theorem State.closeRegion_plain {s : State} {gk i : Nat} {g : Group} {p : Path} {b : Block} {l : Launch}
    (hg : AMap.find? s.groups gk = some g) (hp : g.paths[i]? = some p)
    (hb : AMap.find? s.blocks g.block = some b) (hl : AMap.find? s.launches b.launch = some l) (hrun : p.run = 0) :
    s.closeRegion gk i = (s.performStores gk g p b l).updGroup gk fun g =>
      { g with
        sat := (g.sat && !p.clrSat) || p.sat
        inv := (g.inv && !p.clrInv) || p.inv
        paths := updAt (fun p => { p with gated := [], aliases := [], sat := false, inv := false,
                                          clrSat := false, clrInv := false,
                                          run := 0, held := [], reserved := 0, snap := none,
                                          oldRegs := [], oldPreds := [], mark := none })
          g.paths i } := by
  unfold State.closeRegion
  simp only [hg, hp, hb, hl, hrun]
  simp

/-- Splitting the issuing path and regrouping: the lanes go where `dest` sends them, every other lane stays. -/
theorem standsAt_split (g : Group) (i : Nat) (p : Path) (lanes : List Nat) (dest : Nat → Nat) (since lane pc : Nat) :
    standsAt (Group.regroup { g with paths := replaceAt g.paths i (splitPath p lanes dest since) }).paths lane pc ↔
      (lane ∈ lanes ∧ lane < 64 ∧ dest lane = pc) ∨ standsAt (pathsBut g i) lane pc := by
  rw [Group.standsAt_regroup]
  exact (standsAt_replaceAt g i _ lane pc).trans (by rw [standsAt_splitPath])

/-- What the end of a Fleper instruction does to its path before its lanes go on. -/
def Path.ended (p : Path) : Path :=
  { p with wait := .none, woken := [], got := [], reply := [], replyFault := none, turn := p.turn + 1, begun := false,
           met := false, sealed := false }

theorem State.endInstr_none {s : State} {c : Ctx} (hn : c.cur.slot = none) :
    s.endInstr c =
      if ((s.updCur c Path.ended).path c).run = 0 then (s.updCur c Path.ended).closeRegion c.cur.grp c.cur.path
      else (s.updCur c Path.ended).updCur c fun p => { p with run := p.run + 1 } := by
  unfold State.endInstr
  simp only [Ctx.native_none hn, Bool.false_eq_true, if_false]
  rfl

/-- What the end of a Fleper instruction makes of the state: its lanes, split and regrouped. -/
def splitAt (s : State) (c : Ctx) (lanes : List Nat) (dest : Nat → Nat) (since : Nat) : State :=
  { s.updGroup c.cur.grp fun g =>
      Group.regroup { g with
        paths := replaceAt g.paths c.cur.path (splitPath ((g.paths[c.cur.path]?).getD c.p) lanes dest since) } with
    next := s.next + 1 }

theorem State.finishTo_none {s : State} {c : Ctx} (hn : c.cur.slot = none) (lanes : List Nat) (dest : Nat → Nat) :
    s.finishTo c lanes dest = splitAt (s.endInstr c) c lanes dest s.next := by
  unfold State.finishTo
  simp only [Ctx.midBundle_none hn, Bool.false_eq_true, if_false]
  rfl

/-- Everything the end of a Fleper instruction can do: outside a matrix run the stores in hand perform and the pending
flags join the group's; the lanes go where `dest` sends them, every other lane stays. -/
theorem State.finishTo_fleper {s : State} {c : Ctx} {g : Group} {p : Path} {b : Block} {l : Launch}
    (hn : c.cur.slot = none) (hg : AMap.find? s.groups c.cur.grp = some g) (hp : g.paths[c.cur.path]? = some p)
    (hb : AMap.find? s.blocks g.block = some b) (hl : AMap.find? s.launches b.launch = some l)
    (lanes : List Nat) (dest : Nat → Nat) :
    ∃ gs g', s.finishTo c lanes dest =
        { (if p.run = 0 then s.performStores c.cur.grp g p b l else s) with
          groups := gs, next := (if p.run = 0 then s.performStores c.cur.grp g p b l else s).next + 1 } ∧
      (∀ k, k ≠ c.cur.grp → AMap.find? gs k = AMap.find? s.groups k) ∧
      AMap.find? gs c.cur.grp = some g' ∧
      g' = { g with
        paths := g'.paths, issuing := g'.issuing, last := g.issuing.getD g.last
        sat := if p.run = 0 then (g.sat && !p.clrSat) || p.sat else g.sat
        inv := if p.run = 0 then (g.inv && !p.clrInv) || p.inv else g.inv } ∧
      ∀ lane pc, standsAt g'.paths lane pc ↔
        (lane ∈ lanes ∧ lane < 64 ∧ dest lane = pc) ∨ standsAt (pathsBut g c.cur.path) lane pc := by
  let f1 : Path → Path := Path.ended
  let s1 := s.updCur c f1
  let g1 : Group := { g with paths := updAt f1 g.paths c.cur.path }
  have hg1 : AMap.find? s1.groups c.cur.grp = some g1 := State.find_updCur hg f1
  have hp1 : g1.paths[c.cur.path]? = some (f1 p) := by
    simp [g1, getElem?_updAt, hp]
  have hpath : s1.path c = f1 p := State.path_of_find hg1 hp1
  have hother : ∀ k, k ≠ c.cur.grp → AMap.find? s1.groups k = AMap.find? s.groups k := fun k hk =>
    State.find_updCur_other hk f1
  by_cases hr : p.run = 0
  · have hfin : s.finishTo c lanes dest = splitAt (s1.closeRegion c.cur.grp c.cur.path) c lanes dest s.next := by
      have h0 : (s1.path c).run = 0 := by rw [hpath]; exact hr
      rw [State.finishTo_none hn, State.endInstr_none hn, if_pos h0]
    have hc := State.closeRegion_plain hg1 hp1 hb hl hr
    have hperf : s1.performStores c.cur.grp g1 (f1 p) b l
        = { s.performStores c.cur.grp g p b l with groups := s1.groups } :=
      performStores_withGroups s1.groups s c.cur.grp g p b l
    rw [hfin, hc, hperf]
    simp only [if_pos hr]
    let f2 : Path → Path := fun p => { p with
      gated := [], aliases := [], sat := false, inv := false, clrSat := false, clrInv := false,
      run := 0, held := [], reserved := 0, snap := none, oldRegs := [], oldPreds := [], mark := none }
    let g2 : Group := { g1 with
      sat := (g.sat && !p.clrSat) || p.sat, inv := (g.inv && !p.clrInv) || p.inv
      paths := updAt f2 g1.paths c.cur.path }
    refine ⟨_, Group.regroup { g2 with
      paths := replaceAt g2.paths c.cur.path
        (splitPath ((g2.paths[c.cur.path]?).getD c.p) lanes dest s.next) },
      rfl, ?_, ?_, Group.regroup_eq _, ?_⟩
    · intro k hk
      simp [AMap.find?_upd_other _ _ hk, hother k hk]
    · simp only [State.updGroup_groups, AMap.find?_upd_same, hg1, Option.map_some]
      rfl
    · intro lane pc
      rw [standsAt_split]
      have e1 : pathsBut g2 c.cur.path = pathsBut g1 c.cur.path := pathsBut_updAt g1 f2 c.cur.path
      have e2 : pathsBut g1 c.cur.path = pathsBut g c.cur.path := pathsBut_updAt g f1 c.cur.path
      rw [e1, e2]
  · let f2 : Path → Path := fun p => { p with run := p.run + 1 }
    let g2 : Group := { g1 with paths := updAt f2 g1.paths c.cur.path }
    have hfin : s.finishTo c lanes dest = splitAt (s1.updCur c f2) c lanes dest s.next := by
      have h0 : ¬ (s1.path c).run = 0 := by rw [hpath]; exact hr
      rw [State.finishTo_none hn, State.endInstr_none hn, if_neg h0]
    rw [hfin]
    simp only [if_neg hr]
    refine ⟨_, Group.regroup { g2 with
      paths := replaceAt g2.paths c.cur.path (splitPath ((g2.paths[c.cur.path]?).getD c.p) lanes dest s.next) },
      rfl, ?_, ?_, Group.regroup_eq _, ?_⟩
    · intro k hk
      simp [AMap.find?_upd_other _ _ hk, State.updCur, State.updPath, s1]
    · have hg2 := State.find_updCur (c := c) hg1 f2
      simp only [State.updGroup_groups, AMap.find?_upd_same, hg2, Option.map_some]
      rfl
    · intro lane pc
      rw [standsAt_split]
      have e1 : pathsBut g2 c.cur.path = pathsBut g1 c.cur.path := pathsBut_updAt g1 f2 c.cur.path
      have e2 : pathsBut g1 c.cur.path = pathsBut g c.cur.path := pathsBut_updAt g f1 c.cur.path
      rw [e1, e2]

end Sys2Proof.Machine
end

