-- ==== Sys2Proof/Laws/Write.lean ====
section
/-! SUPPORT. Everything that writing results, setting flags and a per-lane computation can do. -/

namespace Sys2Proof.Machine

open Sys2Proof.Safety

/-- A change of a path that touches nothing but its pending flags and what it keeps of old registers. -/
def Tweak (f : Path → Path) : Prop :=
  ∃ (a b : Path → Bool) (r : Path → AMap Word) (q : Path → AMap (BitVec 12)),
    ∀ p, f p = { p with sat := a p, inv := b p, oldRegs := r p, oldPreds := q p }

/-- A state in which, of the groups, the issuing path alone has been tweaked. -/
def Tweaked (s u : State) (c : Ctx) (sat inv : Bool) : Prop :=
  (∀ k, k ≠ c.cur.grp → AMap.find? u.groups k = AMap.find? s.groups k) ∧
  ∃ f, Tweak f ∧ (∀ p, (f p).sat = (p.sat || sat) ∧ (f p).inv = (p.inv || inv)) ∧
    AMap.find? u.groups c.cur.grp = some { c.g with paths := updAt f c.g.paths c.cur.path }

theorem updAt_updAt {α : Type} (f g : α → α) (l : List α) (i : Nat) :
    updAt g (updAt f l i) i = updAt (fun x => g (f x)) l i := by
  induction l generalizing i with
  | nil => rfl
  | cons x l ih => cases i <;> simp [updAt, ih]

theorem updAt_id {α : Type} (l : List α) (i : Nat) : updAt (fun x => x) l i = l := by
  induction l generalizing i with
  | nil => rfl
  | cons x l ih => cases i <;> simp [updAt, ih]

theorem Tweaked.refl {s : State} {gd : Guard} {c : Ctx} (h : s.ctx gd = some c) : Tweaked s s c false false :=
  ⟨fun _ _ => rfl, fun p => p, ⟨Path.sat, Path.inv, Path.oldRegs, Path.oldPreds, fun _ => rfl⟩,
    fun p => by simp, by
    rw [updAt_id]; exact (State.ctx_eq h).2.1⟩

/-- A further tweak. -/
theorem Tweaked.updCur {s u : State} {c : Ctx} {sat inv x y : Bool} (h : Tweaked s u c sat inv) {g : Path → Path}
    (hg : Tweak g) (hf : ∀ p, (g p).sat = (p.sat || x) ∧ (g p).inv = (p.inv || y)) :
    Tweaked s (u.updCur c g) c (sat || x) (inv || y) := by
  obtain ⟨ho, f, ht, hff, hfind⟩ := h
  refine ⟨fun k hk => (State.find_updCur_other hk g).trans (ho k hk), fun p => g (f p), ?_, ?_, ?_⟩
  · obtain ⟨a, b, r, q, ht⟩ := ht
    obtain ⟨a', b', r', q', hg⟩ := hg
    refine ⟨fun p => a' (f p), fun p => b' (f p), fun p => r' (f p), fun p => q' (f p), fun p => ?_⟩
    dsimp only
    rw [hg (f p), ht p]
  · intro p
    simp [hf, hff, Bool.or_assoc]
  · rw [State.find_updCur hfind]
    simp [updAt_updAt]

theorem State.flag_tweaked {s u : State} {c : Ctx} {sat inv : Bool} (h : Tweaked s u c sat inv) (x y : Bool) :
    Tweaked s (u.flag c x y) c (sat || x) (inv || y) := by
  unfold State.flag
  split
  · exact h.updCur ⟨fun p => p.sat || x, fun p => p.inv || y, Path.oldRegs, Path.oldPreds, fun p => rfl⟩
      (fun p => ⟨rfl, rfl⟩)
  · next hxy => cases x <;> cases y <;> simp_all

theorem State.flag_frame (s : State) (c : Ctx) (x y : Bool) :
    s.flag c x y = { s with groups := (s.flag c x y).groups } := by
  unfold State.flag; split <;> rfl

theorem State.keepOld_frame (s : State) (c : Ctx) (d : Operand) (lane : Nat) :
    s.keepOld c d lane = { s with groups := (s.keepOld c d lane).groups } := by
  unfold State.keepOld
  split
  · rfl
  · cases d <;> rfl

theorem State.keepOld_tweaked {s u : State} {c : Ctx} {sat inv : Bool} (h : Tweaked s u c sat inv)
    (d : Operand) (lane : Nat) : Tweaked s (u.keepOld c d lane) c sat inv := by
  have key : ∀ g : Path → Path, Tweak g → (∀ p, (g p).sat = (p.sat || false) ∧ (g p).inv = (p.inv || false)) →
      Tweaked s (u.updCur c g) c sat inv := fun g hg hf => by
    have := h.updCur hg hf; simpa using this
  unfold State.keepOld
  split
  · exact h
  · cases d with
    | v n =>
      refine key _ ⟨Path.sat, Path.inv,
        fun p => if (AMap.find? p.oldRegs (vregKey (c.g.thread lane) n)).isSome then p.oldRegs
          else AMap.put p.oldRegs (vregKey (c.g.thread lane) n) (Cells.get u.vregs (vregKey (c.g.thread lane) n)),
        Path.oldPreds, fun p => ?_⟩ (fun p => ?_)
      · by_cases hk : (AMap.find? p.oldRegs (vregKey (c.g.thread lane) n)).isSome = true <;> simp [hk]
      · by_cases hk : (AMap.find? p.oldRegs (vregKey (c.g.thread lane) n)).isSome = true <;> simp [hk]
    | p n =>
      refine key _ ⟨Path.sat, Path.inv, Path.oldRegs,
        fun p => if (AMap.find? p.oldPreds (c.g.thread lane)).isSome then p.oldPreds
          else AMap.put p.oldPreds (c.g.thread lane) (u.thread (c.g.thread lane)).preds, fun p => ?_⟩ (fun p => ?_)
      · by_cases hk : (AMap.find? p.oldPreds (c.g.thread lane)).isSome = true <;> simp [hk]
      · by_cases hk : (AMap.find? p.oldPreds (c.g.thread lane)).isSome = true <;> simp [hk]
    | _ => exact h

/-- Writing a virtual register in lanes of the Fleper carrier. -/
theorem State.write_v {s u : State} {c : Ctx} {sat inv : Bool} (hn : c.cur.slot = none) (h : Tweaked s u c sat inv)
    (wide : Bool) (n : Nat) (vs : List (Nat × Word)) :
    u.write c wide (.v n) vs
        = { u with vregs := writeLanes u.vregs c.g n vs
                   groups := (u.write c wide (.v n) vs).groups } ∧
      Tweaked s (u.write c wide (.v n) vs) c sat inv := by
  unfold State.write
  simp only [hn]
  induction vs generalizing u with
  | nil => exact ⟨rfl, h⟩
  | cons l ls ih =>
    simp only [List.foldl_cons, writeLanes]
    obtain ⟨v, hvd⟩ : ∃ v, v = State.putReg u c (.v n) l.1 l.2 := ⟨_, rfl⟩
    rw [← hvd]
    have hv : ∀ (V : Cells 64) (G : AMap Group),
        ({ v with vregs := V, groups := G } : State) = { u with vregs := V, groups := G } := by
      intro V G
      rw [hvd]
      unfold State.putReg
      dsimp only
      rw [State.keepOld_frame u c (.v n) l.1]
    have hV : v.vregs = Cells.set u.vregs (vregKey (c.g.thread l.1) n) l.2 := by
      rw [hvd]
      unfold State.putReg
      dsimp only
      rw [State.keepOld_frame u c (.v n) l.1]
    have hvt : Tweaked s v c sat inv := by
      rw [hvd]
      exact State.keepOld_tweaked h (.v n) l.1
    obtain ⟨e, ht⟩ := ih hvt
    refine ⟨?_, ht⟩
    refine e.trans ((hv _ _).trans ?_)
    rw [hV]
    rfl

theorem State.setThreadPred_frame (s : State) (t n : Nat) (b : Bool) :
    s.setThreadPred t n b = { s with threads := (s.setThreadPred t n b).threads } := rfl

theorem writePreds_frame (s : State) (g : Group) (n : Nat) (vs : List (Nat × Word)) :
    writePreds s g n vs = { s with threads := (writePreds s g n vs).threads } := by
  induction vs generalizing s with
  | nil => rfl
  | cons l ls ih =>
    have e := ih (s.setThreadPred (g.thread l.1) n (l.2 != 0))
    exact e

/-- Predicates are written alike whatever the groups are. -/
theorem writePreds_withGroups (X : AMap Group) (s : State) (g : Group) (n : Nat) (vs : List (Nat × Word)) :
    writePreds { s with groups := X } g n vs = { writePreds s g n vs with groups := X } :=
  foldl_withGroups X s (fun (t : State) (e : Nat × Word) => t.setThreadPred (g.thread e.1) n (e.2 != 0)) (fun _ _ => rfl) vs

/-- Writing a predicate in lanes of the Fleper carrier. -/
theorem State.write_p {s u : State} {c : Ctx} {sat inv : Bool} (hn : c.cur.slot = none) (h : Tweaked s u c sat inv)
    (wide : Bool) (n : Nat) (vs : List (Nat × Word)) :
    u.write c wide (.p n) vs
        = { writePreds u c.g n vs with
            groups := (u.write c wide (.p n) vs).groups } ∧
      Tweaked s (u.write c wide (.p n) vs) c sat inv := by
  unfold State.write
  simp only [hn]
  induction vs generalizing u with
  | nil => exact ⟨rfl, h⟩
  | cons l ls ih =>
    simp only [List.foldl_cons]
    obtain ⟨v, hvd⟩ : ∃ v, v = State.putReg u c (.p n) l.1 l.2 := ⟨_, rfl⟩
    rw [← hvd]
    obtain ⟨G, hv⟩ : ∃ G, v = { u.setThreadPred (c.g.thread l.1) n (l.2 != 0) with groups := G } := by
      rw [hvd]
      unfold State.putReg
      dsimp only
      rw [State.keepOld_frame u c (.p n) l.1]
      exact ⟨_, rfl⟩
    have hvt : Tweaked s v c sat inv := by
      rw [hvd]
      exact State.keepOld_tweaked h (.p n) l.1
    obtain ⟨e, ht⟩ := ih hvt
    refine ⟨?_, ht⟩
    generalize (List.foldl (fun t e => State.putReg t c (.p n) e.1 e.2) v ls).groups = F at *
    refine e.trans ?_
    rw [hv, writePreds_withGroups]
    rfl

/-- The end of a Fleper instruction that has tweaked its path and otherwise made `w` of the state. -/
theorem done_of_tweaked {s u w : State} {gd : Guard} {c : Ctx} {sat inv : Bool} (h : s.ctx gd = some c)
    (hn : c.cur.slot = none) (ht : Tweaked s u c sat inv) (hu : u = { w with groups := u.groups })
    (hb : w.blocks = s.blocks) (hl : w.launches = s.launches) (lanes : List Nat) (dest : Nat → Nat) :
    Done s w (u.finishTo c lanes dest) c lanes dest sat inv := by
  obtain ⟨-, hg, hp, hb', hl', -, -⟩ := State.ctx_eq h
  obtain ⟨ho, f, ⟨a, b, r, q, hf⟩, hfl, hfind⟩ := ht
  have hp1 : (updAt f c.g.paths c.cur.path)[c.cur.path]? = some (f c.p) := by simp [getElem?_updAt, hp]
  have hub : u.blocks = w.blocks := by rw [hu]
  have hul : u.launches = w.launches := by rw [hu]
  have hb1 : AMap.find? u.blocks c.g.block = some c.b := by rw [hub, hb]; exact hb'
  have hl1 : AMap.find? u.launches c.b.launch = some c.l := by rw [hul, hl]; exact hl'
  obtain ⟨gs, g', hfin, hoth, hgs, hg', hst⟩ := State.finishTo_fleper (s := u) hn hfind hp1 hb1 hl1 lanes dest
  have hrun : (f c.p).run = c.p.run := by rw [hf]
  have hbase : (if (f c.p).run = 0 then
      u.performStores c.cur.grp { c.g with paths := updAt f c.g.paths c.cur.path } (f c.p) c.b c.l else u)
      = { held w c with groups := u.groups } := by
    rw [hrun]
    unfold held
    split
    · rw [hf]
      have e : u.performStores c.cur.grp c.g c.p c.b c.l
          = { w.performStores c.cur.grp c.g c.p c.b c.l with groups := u.groups } := by
        conv_lhs => rw [hu]
        exact performStores_withGroups u.groups w c.cur.grp c.g c.p c.b c.l
      exact e
    · exact hu
  rw [hfin, hbase]
  refine ⟨rfl, fun k hk => (hoth k hk).trans (ho k hk), g', hgs, ?_, ?_⟩
  · rw [hg']
    have h1 := (hfl c.p).1
    have h2 := (hfl c.p).2
    have c1 : (f c.p).clrSat = c.p.clrSat := by rw [hf]
    have c2 : (f c.p).clrInv = c.p.clrInv := by rw [hf]
    simp only [hrun, h1, h2, c1, c2, Bool.or_assoc]
  · intro lane pc
    rw [hst, ← pathsBut_updAt c.g f c.cur.path]

/-- Writing any destination in lanes of the Fleper carrier. -/
theorem State.write_fleper {s u : State} {c : Ctx} {sat inv : Bool} (hn : c.cur.slot = none)
    (h : Tweaked s u c sat inv) (wide : Bool) (d : Operand) (vs : List (Nat × Word)) :
    u.write c wide d vs
        = { written u c.g d vs with
            groups := (u.write c wide d vs).groups } ∧
      Tweaked s (u.write c wide d vs) c sat inv := by
  have none_ : (∀ (t : State) (l : Nat) (x : Word), t.putReg c d l x = t) → written u c.g d vs = u →
      (u.write c wide d vs
        = { written u c.g d vs with
            groups := (u.write c wide d vs).groups } ∧
      Tweaked s (u.write c wide d vs) c sat inv) := by
    intro hp hw
    have e : u.write c wide d vs = u := by
      unfold State.write
      simp only [hn, hp]
      induction vs with
      | nil => rfl
      | cons l ls ih => simp
    rw [e, hw]
    exact ⟨rfl, h⟩
  cases d with
  | v n => exact State.write_v hn h wide n vs
  | p n => exact State.write_p hn h wide n vs
  | _ =>
    refine none_ (fun t l x => ?_) rfl
    unfold State.putReg State.keepOld
    dsimp only
    split <;> rfl

theorem written_groups (s : State) (g : Group) (d : Operand) (vs : List (Nat × Word)) :
    (written s g d vs).groups = s.groups := by
  cases d with
  | p n => exact (congrArg State.groups (writePreds_frame s g n vs) : State.groups _ = State.groups _)
  | _ => rfl

theorem written_blocks (s : State) (g : Group) (d : Operand) (vs : List (Nat × Word)) :
    (written s g d vs).blocks = s.blocks := by
  cases d with
  | p n => exact (congrArg State.blocks (writePreds_frame s g n vs) : State.blocks _ = State.blocks _)
  | _ => rfl

theorem written_launches (s : State) (g : Group) (d : Operand) (vs : List (Nat × Word)) :
    (written s g d vs).launches = s.launches := by
  cases d with
  | p n => exact (congrArg State.launches (writePreds_frame s g n vs) : State.launches _ = State.launches _)
  | _ => rfl

theorem written_withGroups (X : AMap Group) (s : State) (g : Group) (d : Operand) (vs : List (Nat × Word)) : written { s with groups := X } g d vs = { written s g d vs with groups := X } := by
  cases d <;> first | rfl | exact writePreds_withGroups X s g _ vs

/-- Results written after the flags are set, and the path goes on. -/
theorem State.settle_fleper {s u : State} {gd : Guard} {c : Ctx} (h : s.ctx gd = some c) (hn : c.cur.slot = none)
    (hu : Tweaked s u c false false) (hb : u.blocks = s.blocks) (hl : u.launches = s.launches)
    (sat inv wide : Bool) (d : Operand) (vs : List (Nat × Word)) :
    Done s (written u c.g d vs)
      (((u.flag c sat inv).write c wide d vs).finish c) c c.lanes (fun _ => c.after)
      sat inv := by
  unfold State.finish
  simp only [Ctx.midBundle_none hn, Bool.false_eq_true, if_false]
  have h1 := State.flag_tweaked hu sat inv
  simp only [Bool.false_or] at h1
  obtain ⟨e, h2⟩ := State.write_fleper hn h1 wide d vs
  refine done_of_tweaked (w := written u c.g d vs) h hn h2 ?_ ((written_blocks ..).trans hb)
    ((written_launches ..).trans hl) _ _
  generalize State.groups (State.write _ _ _ _ _) = G at e ⊢
  rw [e, State.flag_frame, written_withGroups]

/-- Everything a per-lane computation of the Fleper carrier can do: every executing lane's register takes its result,
the flags are those that some lane sets, and the path goes on. -/
theorem State.compute_fleper {s u : State} {gd : Guard} {c : Ctx} (h : s.ctx gd = some c) (hn : c.cur.slot = none)
    (hu : Tweaked s u c false false) (hb : u.blocks = s.blocks) (hl : u.launches = s.launches)
    (ty : STy) (d : Operand) (f : Nat → Res) :
    Done s (written u c.g d (c.exec.map fun l => (l, extendTo ty (f l).val)))
      (u.compute c ty d f) c c.lanes (fun _ => c.after)
      (c.exec.any fun l => (f l).sat) (c.exec.any fun l => (f l).inv) := by
  have hwork : c.work = c.exec := by simp [Ctx.work, Ctx.scalar, Ctx.native_none hn]
  have := State.settle_fleper h hn hu hb hl (c.exec.any fun l => (f l).sat) (c.exec.any fun l => (f l).inv)
    (ty.width == 64) d (c.exec.map fun l => (l, extendTo ty (f l).val))
  unfold State.compute
  simpa only [hwork, List.any_map, List.map_map, Function.comp_def] using this

theorem State.updCur_updCur (s : State) (c : Ctx) (f g : Path → Path) :
    (s.updCur c f).updCur c g = s.updCur c fun p => g (f p) := by
  unfold State.updCur State.updPath State.updGroup
  simp only [AMap.upd_upd, updAt_updAt]

/-- Setting flags and then changing the path again is one change. -/
theorem State.flag_updCur (s : State) (c : Ctx) (x y : Bool) (g : Path → Path) :
    (s.flag c x y).updCur c g = s.updCur c fun p => g { p with sat := p.sat || x, inv := p.inv || y } := by
  unfold State.flag
  split
  · exact State.updCur_updCur ..
  · next h => cases x <;> cases y <;> simp_all

theorem Ctx.midBundle_some {c : Ctx} {x : Slot} (hx : c.cur.slot = some x) (hm : c.p.sealed = false) :
    c.midBundle = true := by simp [Ctx.midBundle, Ctx.native, hx, hm]

/-- Everything writing results in a native slot that issues with its bundle can do. -/
theorem State.settle_native {u : State} {c : Ctx} {x : Slot} (hx : c.cur.slot = some x) (hm : c.p.sealed = false)
    (sat inv wide : Bool) (d : Operand) (vs : List (Nat × Word)) :
    ((u.flag c sat inv).write c wide d vs).finish c
      = inFlight u c (nativeResults u c x wide d vs) sat inv := by
  unfold State.finish
  simp only [Ctx.midBundle_some hx hm, if_true]
  unfold State.write
  simp only [hx]
  unfold State.launchResults
  rw [State.updCur_updCur, State.flag_updCur]
  have hcyc : (u.flag c sat inv).cycle = u.cycle := by rw [State.flag_frame]
  have hdst : ∀ (d : Operand) (l : Nat) (v : Word), (u.flag c sat inv).nativeDst c wide d l v = u.nativeDst c wide d l v := by
    intro d l v
    rw [State.flag_frame]
    rfl
  simp only [hcyc, hdst]
  rfl

/-- Everything a per-lane computation of a native slot can do. -/
theorem State.compute_native {u : State} {c : Ctx} {x : Slot} (hx : c.cur.slot = some x)
    (hm : c.p.sealed = false) (ty : STy) (d : Operand)
    (f : Nat → Res) :
    u.compute c ty d f = inFlight u c
      (nativeResults u c x (ty.width == 64) d (c.work.map fun l => (l, extendTo ty (f l).val)))
      (c.work.any fun l => (f l).sat) (c.work.any fun l => (f l).inv) := by
  unfold State.compute
  simp only [List.any_map, List.map_map, Function.comp_def]
  exact State.settle_native hx hm _ _ _ _ _

theorem State.mapThreads_withGroups (X : AMap Group) (s : State) (c : Ctx) (f : Nat → Thread → Thread) :
    State.mapThreads { s with groups := X } c f = { s.mapThreads c f with groups := X } :=
  foldl_withGroups X s (fun (t : State) (l : Nat) => t.setThread (c.g.thread l) (f l (t.thread (c.g.thread l))))
    (fun _ _ => rfl) c.exec

theorem State.mapThreads_frame (s : State) (c : Ctx) (f : Nat → Thread → Thread) :
    s.mapThreads c f = { s with threads := (s.mapThreads c f).threads } := by
  unfold State.mapThreads
  generalize c.exec = ls
  induction ls generalizing s with
  | nil => rfl
  | cons l ls ih => exact ih _

/-- A change of threads moves past a change of the issuing path. -/
theorem State.mapThreads_updCur (s : State) (c : Ctx) (f : Nat → Thread → Thread) (g : Path → Path) :
    (s.updCur c g).mapThreads c f = (s.mapThreads c f).updCur c g := by
  have e : (s.mapThreads c f).groups = s.groups := by rw [State.mapThreads_frame]
  unfold State.updCur State.updPath State.updGroup
  rw [State.mapThreads_withGroups, e]

end Sys2Proof.Machine
end

