-- ==== Sys2Proof/Laws/Access.lean ====
section
/-! SUPPORT. What resolving accesses, reading lanes and the ordering parts of an access can change. -/

namespace Sys2Proof.Machine

open Sys2Proof.Safety

/-- Two states that differ in nothing but what a translation changes: page-table entries and the TLBs. -/
def WalkOnly (s t : State) : Prop :=
  t = { s with mem := t.mem, coreTlb := t.coreTlb, clusterTlb := t.clusterTlb, dieTlb := t.dieTlb }

theorem WalkOnly.refl (s : State) : WalkOnly s s := rfl

theorem WalkOnly.trans {s t u : State} (h : WalkOnly s t) (h' : WalkOnly t u) : WalkOnly s u := by
  unfold WalkOnly at *
  refine h'.trans ?_
  rw [h]

theorem walk_setMemBytes (s : State) (a : Nat) (bs : List Byte) : WalkOnly s (s.setMemBytes a bs) := by
  induction bs generalizing s a with
  | nil => rfl
  | cons b bs ih =>
    refine WalkOnly.trans ?_ (ih (s.setMemByte a b) (a + 1))
    unfold State.setMemByte; split <;> rfl

theorem walk_setPtes (s : State) (us : List (Nat × Nat)) : WalkOnly s (s.setPtes us) := by
  induction us generalizing s with
  | nil => rfl
  | cons u us ih => exact (walk_setMemBytes s u.1 _).trans (ih _)

theorem walk_walkAndFill {s t : State} {core satp hgatp va : Nat} {w : Bool} {e : TlbEntry}
    (h : s.walkAndFill core satp hgatp va w = .ok (e, t)) : WalkOnly s t := by
  unfold State.walkAndFill at h
  split at h
  · cases h
  · injection h with h
    injection h with h1 h2
    rw [← h2]
    exact (walk_setPtes s _).trans rfl

theorem walk_translate {s t : State} {core satp hgatp va pa : Nat} {w : Bool}
    (h : s.translate core satp hgatp va w = .ok (pa, t)) : WalkOnly s t := by
  unfold State.translate at h
  split at h
  · cases h
  · split at h
    · injection h with h; injection h with h1 h2; rw [← h2]; exact .refl s
    · split at h
      · cases h
      · split at h
        · cases h
        · next hw => injection h with h; injection h with h1 h2; rw [← h2]; exact walk_walkAndFill hw

theorem walk_resolve (s : State) (c : Ctx) (sp : Space) (sw : Nat) (sc : Scope) (a : Nat) (need : Need)
    (attr : Nat → Bool) : WalkOnly s (s.resolve c sp sw sc a need attr).2 := by
  unfold State.resolve
  split
  · exact .refl s
  · cases sp with
    | g =>
      dsimp only
      unfold State.resolveG
      split
      · exact .refl s
      · split
        · exact .refl s
        · next h =>
          dsimp only
          repeat' split
          all_goals exact walk_translate h
    | _ => exact .refl s

theorem walk_resolveLanes (s : State) (c : Ctx) (m : MemRef) (sc : Scope) (need : Need) (attr : Nat → Bool)
    (ls : List Nat) : WalkOnly s (s.resolveLanes c m sc need attr ls).2 := by
  induction ls generalizing s with
  | nil => exact .refl s
  | cons l ls ih => exact (walk_resolve s c m.space m.sw sc (s.addrOf c l m) need attr).trans (ih _)

/-- A state whose groups, blocks and launches are those of another shows the same issuing context. -/
theorem tweaked_of_groups {s u : State} {gd : Guard} {c : Ctx} (h : s.ctx gd = some c) (hu : u.groups = s.groups) :
    Tweaked s u c false false := by
  have := (Tweaked.refl h : Tweaked s s c false false)
  unfold Tweaked at *
  rw [hu]
  exact this

theorem storage_readLanes (s : State) (c : Ctx) (n : Nat) (ps : List (Nat × Place)) :
    StorageOnly s (s.readLanes c n ps).2 := by
  induction ps generalizing s with
  | nil => exact .refl s
  | cons p ps ih => exact (storage_readPlace s c.b.core p.2 n).trans (ih _)

theorem storage_acquire (s : State) (c : Ctx) (on : Bool) (sc : Scope) : StorageOnly s (s.acquire c on sc) := by
  unfold State.acquire
  split
  · exact storage_acquireCaches ..
  · exact .refl s

theorem acquire_withGroups (X : AMap Group) (s : State) (c : Ctx) (on : Bool) (sc : Scope) :
    State.acquire { s with groups := X } c on sc = { s.acquire c on sc with groups := X } := by
  unfold State.acquire
  split
  · exact acquireCaches_withGroups ..
  · rfl

/-- The acquire part and a change of the issuing path may be exchanged. -/
theorem acquire_updCur (s : State) (c d : Ctx) (on : Bool) (sc : Scope) (f : Path → Path) :
    (s.updCur c f).acquire d on sc = (s.acquire d on sc).updCur c f := by
  have e : (s.acquire d on sc).groups = s.groups :=
    (congrArg State.groups (storage_acquire s d on sc) : State.groups _ = State.groups _)
  unfold State.updCur State.updPath State.updGroup
  rw [acquire_withGroups, e]

theorem storage_rmw (s : State) (core n : Nat) (f : Nat → Nat → Option Nat) (ps : List (Nat × Place)) :
    StorageOnly s (s.rmw core n f ps).2 := by
  induction ps generalizing s with
  | nil => exact .refl s
  | cons p ps ih =>
    refine StorageOnly.trans ?_ (ih _)
    dsimp only
    split
    · exact (storage_readPlace s core p.2 n).trans (storage_writePlace ..)
    · exact storage_readPlace ..

end Sys2Proof.Machine
end

