-- ==== Sys2Proof/Laws/Chip.lean ====
section
/-! SUPPORT. The scratchpad through the on-chip map: what a write of bytes changes, and that it reads back. -/

namespace Sys2Proof.Machine

/-- The bytes from `oc` up, `n` of them, lie in the scratchpad of one core that exists. -/
def InScratch (oc n : Nat) : Prop := oc / 0x800000 < 1536 ∧ oc % 0x800000 + n ≤ 0x200000

theorem InScratch.tail {oc n : Nat} (h : InScratch oc (n + 1)) : InScratch (oc + 1) n := by
  unfold InScratch at *; omega

/-- The cell of a scratchpad byte. -/
def scratchKey (oc : Nat) : Nat := spadKey (oc / 0x800000) (oc % 0x800000)

theorem chipReserved_scratch {oc : Nat} (h : InScratch oc 1) : chipReserved oc = false := by
  obtain ⟨h1, h2⟩ := h
  simp only [chipReserved, Bool.or_eq_false_iff, decide_eq_false_iff_not]
  omega

theorem State.chipByte_scratch (s : State) {oc : Nat} (h : InScratch oc 1) :
    s.chipByte oc = Cells.get s.spad (scratchKey oc) := by
  obtain ⟨h1, h2⟩ := h
  unfold State.chipByte
  have hr := chipReserved_scratch ⟨h1, h2⟩
  simp only [hr, Bool.false_eq_true, if_false]
  rw [if_pos (by omega)]
  rfl

theorem State.setChipByte_scratch (s : State) {oc : Nat} (h : InScratch oc 1) (b : Byte) :
    s.setChipByte oc b = { s with spad := Cells.set s.spad (scratchKey oc) b } := by
  obtain ⟨h1, h2⟩ := h
  unfold State.setChipByte
  have hr := chipReserved_scratch ⟨h1, h2⟩
  simp only [hr, Bool.false_eq_true, if_false]
  rw [if_pos (by omega)]
  rfl

theorem scratchKey_inj {x y : Nat} (hx : InScratch x 1) (hy : InScratch y 1) (h : scratchKey x = scratchKey y) :
    x = y := by
  unfold InScratch at *
  unfold scratchKey spadKey at h
  omega

/-- A write of scratchpad bytes changes nothing else. -/
theorem State.setChipBytes_frame (s : State) (oc : Nat) (bs : List Byte) (h : InScratch oc bs.length) :
    s.setChipBytes oc bs = { s with spad := (s.setChipBytes oc bs).spad } := by
  induction bs generalizing s oc with
  | nil => rfl
  | cons b bs ih =>
    have h1 : InScratch oc 1 := by unfold InScratch at *; simp only [List.length_cons] at h; omega
    have e := ih (s.setChipByte oc b) (oc + 1) (InScratch.tail h)
    unfold State.setChipBytes
    rw [e, State.setChipByte_scratch s h1]

/-- What reads after a write of scratchpad bytes: the bytes written, and elsewhere what was there. -/
theorem State.setChipBytes_get (s : State) (oc : Nat) (bs : List Byte) (h : InScratch oc bs.length) (x : Nat)
    (hx : InScratch x 1) :
    Cells.get (s.setChipBytes oc bs).spad (scratchKey x)
      = if oc ≤ x ∧ x < oc + bs.length then bs.getD (x - oc) 0 else Cells.get s.spad (scratchKey x) := by
  induction bs generalizing s oc with
  | nil =>
    have : ¬ (oc ≤ x ∧ x < oc + ([] : List Byte).length) := by simp
    rw [if_neg this]; rfl
  | cons b bs ih =>
    have h1 : InScratch oc 1 := by unfold InScratch at *; simp only [List.length_cons] at h; omega
    unfold State.setChipBytes
    rw [ih _ _ (InScratch.tail h), State.setChipByte_scratch s h1]
    simp only [List.length_cons, Cells.get_set]
    by_cases hlt : oc + 1 ≤ x ∧ x < oc + 1 + bs.length
    · rw [if_pos hlt, if_pos (by omega), show x - oc = (x - (oc + 1)) + 1 by omega]
      rfl
    · rw [if_neg hlt]
      by_cases he : x = oc
      · subst he
        rw [if_pos rfl, if_pos (by omega), Nat.sub_self]
        rfl
      · rw [if_neg (fun hk => he (scratchKey_inj hx h1 hk)), if_neg (by omega)]

theorem State.chipByte_setChipBytes (s : State) (oc : Nat) (bs : List Byte) (h : InScratch oc bs.length) (x : Nat)
    (hx : InScratch x 1) :
    (s.setChipBytes oc bs).chipByte x = if oc ≤ x ∧ x < oc + bs.length then bs.getD (x - oc) 0 else s.chipByte x := by
  rw [State.chipByte_scratch _ hx, State.chipByte_scratch _ hx, State.setChipBytes_get s oc bs h x hx]

end Sys2Proof.Machine
end

