-- ==== Sys2Proof/Laws/Threads.lean ====
section
/-! SUPPORT. What the commit of a region, the block barrier, a freed context and a frozen block can change. -/

namespace Sys2Proof.Machine

open Sys2Proof.Safety

/-- Two groups that hold the same lanes, each at its program counter. -/
def SameStand (g h : Group) : Prop := h.lanes = g.lanes ∧ ∀ lane pc, standsAt h.paths lane pc ↔ standsAt g.paths lane pc

/-- Two states whose groups do. -/
def SameStands (s t : State) : Prop := ∀ k, match AMap.find? s.groups k, AMap.find? t.groups k with
  | none, none => True
  | some g, some h => SameStand g h
  | _, _ => False

theorem sameStands_refl (s : State) : SameStands s s := fun k => by
  cases AMap.find? s.groups k <;> simp [SameStand]

theorem sameStands_trans {s t u : State} (h : SameStands s t) (h' : SameStands t u) : SameStands s u := fun k => by
  have a := h k
  have b := h' k
  cases h1 : AMap.find? s.groups k <;> cases h2 : AMap.find? t.groups k <;> cases h3 : AMap.find? u.groups k <;> simp_all [SameStand]

theorem sameStands_of_groups {s t : State} (h : t.groups = s.groups) : SameStands s t := by
  intro k; rw [h]; cases AMap.find? s.groups k <;> simp [SameStand]

theorem sameStands_updGroup (s : State) (k : Nat) (f : Group → Group) (hf : ∀ g, SameStand g (f g)) : SameStands s (s.updGroup k f) := by
  intro j
  simp only [State.updGroup_groups, AMap.find?_upd]
  by_cases h : j = k
  · subst h; cases AMap.find? s.groups j <;> simp [hf]
  · simp only [h, if_false]; cases AMap.find? s.groups j <;> simp [SameStand]

theorem freeze_frame (s : State) (bk gid vpc : Nat) (e : Bool) (f : Flt) :
   s.freeze bk gid vpc e f = { s with blocks := (s.freeze bk gid vpc e f).blocks, deliveries := (s.freeze bk gid vpc e f).deliveries, launches := (s.freeze bk gid vpc e f).launches } := by
  unfold State.freeze
  split
  · rfl
  · dsimp only
    split
    · rfl
    · split
      · rfl
      · split
        · rfl
        · split <;> rfl

theorem judge_frame (s : State) (bk : Nat) (pc : Option Nat → Nat) :
   s.judgeArmed bk pc = { s with blocks := (s.judgeArmed bk pc).blocks, deliveries := (s.judgeArmed bk pc).deliveries, launches := (s.judgeArmed bk pc).launches } := by
  unfold State.judgeArmed
  split
  · rfl
  · split
    · rfl
    · split
      · dsimp only; rw [freeze_frame]
        rfl
      · split
        · rw [freeze_frame]; rfl
        · rfl

theorem wakeSync_stand (g : Group) : SameStand g (Group.regroup { g with paths := g.paths.map fun p => if p.wait == .sync then p.retry else p }) := by
  refine ⟨by rw [Group.regroup_eq], fun lane pc => ?_⟩
  rw [Group.standsAt_regroup]
  simp only [standsAt, List.mem_map]
  constructor
  · rintro ⟨p, ⟨q, hq, rfl⟩, h1, h2⟩
    refine ⟨q, hq, ?_, ?_⟩
    · split at h1 <;> exact h1
    · split at h2 <;> exact h2
  · rintro ⟨q, hq, h1, h2⟩
    refine ⟨_, ⟨q, hq, rfl⟩, ?_, ?_⟩ <;> split <;> assumption

theorem foldl_upd_frame (l : List (Nat × Group)) (f : Group → Group) (s : State) :
   l.foldl (fun (t : State) (e : Nat × Group) => t.updGroup e.1 f) s = { s with groups := (l.foldl (fun (t : State) (e : Nat × Group) => t.updGroup e.1 f) s).groups } := by
  induction l generalizing s with
  | nil => rfl
  | cons e l ih => rw [List.foldl_cons]; refine (ih _).trans ?_; rfl

theorem foldl_upd_stands (l : List (Nat × Group)) (f : Group → Group) (hf : ∀ g, SameStand g (f g)) (s : State) :
   SameStands s (l.foldl (fun (t : State) (e : Nat × Group) => t.updGroup e.1 f) s) := by
  induction l generalizing s with
  | nil => exact sameStands_refl s
  | cons e l ih => exact sameStands_trans (sameStands_updGroup s e.1 f hf) (ih _)

theorem sync_frame (s : State) (bk : Nat) :
   s.completeBarsync bk = { s with groups := (s.completeBarsync bk).groups, blocks := (s.completeBarsync bk).blocks, deliveries := (s.completeBarsync bk).deliveries, launches := (s.completeBarsync bk).launches } ∧ SameStands s (s.completeBarsync bk) := by
  unfold State.completeBarsync
  split
  · exact ⟨rfl, sameStands_refl s⟩
  · dsimp only
    constructor
    · rw [judge_frame, foldl_upd_frame]
      rfl
    · have key : ∀ (T : State) (pc : Option Nat → Nat), SameStands s T → SameStands s (T.judgeArmed bk pc) := by
        intro T pc h
        refine sameStands_trans h (sameStands_of_groups ?_)
        rw [judge_frame]
      refine key _ _ ?_
      have h0 : SameStands s (s.updBlock bk fun b => { b with owners := [] }) := sameStands_of_groups rfl
      exact sameStands_trans h0 (foldl_upd_stands _ _ wakeSync_stand _)

/-- The commit of a region, matrix runs included. -/
theorem closeRegion_any {s : State} {gk i : Nat} {g : Group} {p : Path} {b : Block} {l : Launch}
    (hg : AMap.find? s.groups gk = some g) (hp : g.paths[i]? = some p)
    (hb : AMap.find? s.blocks g.block = some b) (hl : AMap.find? s.launches b.launch = some l) :
    ∃ f : Path → Path, (∀ p, (f p).mask = p.mask ∧ (f p).pc = p.pc ∧ (f p).gated = [] ∧ (f p).run = 0) ∧
    s.closeRegion gk i = { s.performStores gk g p b l with groups := (s.closeRegion gk i).groups, cores := (s.closeRegion gk i).cores } ∧
    (∀ k, k ≠ gk → AMap.find? (s.closeRegion gk i).groups k = AMap.find? s.groups k) ∧
    ∃ sat inv, AMap.find? (s.closeRegion gk i).groups gk = some { g with sat, inv, paths := updAt f g.paths i } := by
  refine ⟨fun p => { p with gated := [], aliases := [], sat := false, inv := false,
                                            clrSat := false, clrInv := false,
                                            run := 0, held := [], reserved := 0, snap := none,
                                            oldRegs := [], oldPreds := [], mark := none }, fun p => ⟨rfl, rfl, rfl, rfl⟩, ?_⟩
  unfold State.closeRegion
  simp only [hg, hp, hb, hl]
  split
  · refine ⟨rfl, fun k hk => ?_, (g.sat && !p.clrSat) || p.sat, (g.inv && !p.clrInv) || p.inv, ?_⟩
    · simp [AMap.find?_upd_other _ _ hk, performStores_groups]
    · simp only [State.updGroup_groups, State.setCoreRegs_groups, performStores_groups, AMap.find?_upd_same, hg, Option.map_some]
  · refine ⟨rfl, fun k hk => ?_, (g.sat && !p.clrSat) || p.sat, (g.inv && !p.clrInv) || p.inv, ?_⟩
    · simp [AMap.find?_upd_other _ _ hk, performStores_groups]
    · simp only [State.updGroup_groups, performStores_groups, AMap.find?_upd_same, hg, Option.map_some]


theorem find_foldl_del (ls : List Nat) (g : Nat → Nat) (m : AMap α) (k : Nat) :
   AMap.find? (ls.foldl (fun (m : AMap α) l => AMap.del m (g l)) m) k = if k ∈ ls.map g then none else AMap.find? m k := by
  induction ls generalizing m with
  | nil => simp
  | cons l ls ih =>
    rw [List.foldl_cons, ih, AMap.find?_del]
    by_cases h : k = g l <;> by_cases h' : k ∈ ls.map g <;> simp_all

theorem find_keep_lane (m : AMap Nat) (ls : List Nat) (l : Nat) :
   AMap.find? (AMap.keep (fun l _ => !ls.contains l) m) l = if l ∈ ls then none else AMap.find? m l := by
  rw [AMap.find?_keep]
  by_cases h : l ∈ ls <;> simp [h]

theorem keep_empty (m : AMap Nat) (ls : List Nat) (h : ∀ l, AMap.find? m l ≠ none → l ∈ ls) :
  (AMap.keep (fun l _ => !ls.contains l) m) = [] := by
  have hk : ∀ e ∈ m, AMap.find? m e.1 ≠ none := by
    clear h
    induction m with
    | nil => simp
    | cons x m ih =>
      intro e he
      obtain ⟨k, v⟩ := x
      simp only [AMap.find?]
      split
      · simp
      · rcases List.mem_cons.1 he with rfl | he
        · rename_i hne; exact absurd rfl hne
        · exact ih e he
  unfold AMap.keep
  rw [List.filter_eq_nil_iff]
  intro e he
  simpa using h _ (hk e he)

theorem freeGroup_frame (s : State) (gk : Nat) : s.freeGroup gk = { s with groups := (s.freeGroup gk).groups, engines := (s.freeGroup gk).engines, blocks := (s.freeGroup gk).blocks } := by
  unfold State.freeGroup
  split
  · rfl
  · split <;> rfl

theorem freeGroup_find {s : State} {gk : Nat} {g : Group} (hg : AMap.find? s.groups gk = some g) :
   AMap.find? (s.freeGroup gk).groups gk = if g.lanes = [] then none else some g := by
  unfold State.freeGroup
  simp only [hg]
  cases hl : g.lanes with
  | nil => simp [AMap.find?_del]
  | cons x xs => simp [hg]


end Sys2Proof.Machine
end

