-- ==== Sys2Proof/Laws/Memory.lean ====
section
/-! SUPPORT. Every operation on memory keeps its canonical form: addresses rise, and no byte is listed that an unlisted
address reads as. -/

namespace Sys2Proof.Machine

/-- A state after an operation has its memory in canonical form where the state before had. -/
structure KeepsForm (s t : State) : Prop where
  keep : Cells.wf s.mem = true → Cells.wf t.mem = true

theorem KeepsForm.refl (s : State) : KeepsForm s s := ⟨id⟩

/-- An operation that leaves committed memory as it is. -/
theorem KeepsForm.same {s t : State} (h : t.mem = s.mem) : KeepsForm s t := ⟨fun hs => h ▸ hs⟩

theorem KeepsForm.trans {s t u : State} (h : KeepsForm s t) (h' : KeepsForm t u) : KeepsForm s u :=
  ⟨h'.keep ∘ h.keep⟩

theorem KeepsForm.foldl {α : Type} (f : State → α → State) (hf : ∀ t a, KeepsForm t (f t a)) (l : List α) (s : State) :
    KeepsForm s (l.foldl f s) := by
  induction l generalizing s with
  | nil => exact .refl s
  | cons a l ih => exact (hf s a).trans (ih _)

variable (s : State)

theorem keeps_setMemByte (a : Nat) (b : Byte) : KeepsForm s (s.setMemByte a b) := by
  unfold State.setMemByte
  split
  · exact .refl s
  · exact ⟨Cells.wf_set (cellOf a) b⟩

theorem keeps_setMemBytes (a : Nat) (bs : List Byte) : KeepsForm s (s.setMemBytes a bs) := by
  induction bs generalizing s a with
  | nil => exact .refl _
  | cons b bs ih => exact (keeps_setMemByte s a b).trans (ih _ _)

theorem keeps_setBaseLine (tag ln : Nat) (d : Line) (m : LaneMask) : KeepsForm s (s.setBaseLine tag ln d m) := by
  unfold State.setBaseLine
  dsimp only
  split
  · refine KeepsForm.trans (t := { s with poison := Cells.set s.poison (shadowKey tag ln) _ }) (.same rfl) (KeepsForm.foldl _ (fun t i => ?_) _ _)
    split
    · exact keeps_setMemByte t _ _
    · exact .same rfl
  · split <;> exact .same rfl

theorem keeps_dieLine (die tag ln : Nat) : KeepsForm s (s.dieLine die tag ln).2 := by
  unfold State.dieLine; dsimp only
  cases AMap.find? s.dieCache (cacheKey tag die ln) <;> exact .same rfl

theorem keeps_coreLine (core tag ln : Nat) : KeepsForm s (s.coreLine core tag ln).2 := by
  unfold State.coreLine
  cases AMap.find? s.coreCache (cacheKey tag core ln) with
  | some c => exact .same rfl
  | none => exact (keeps_dieLine s (dieOf core) tag ln).trans (.same rfl)

theorem keeps_flushDieLine (die tag ln : Nat) : KeepsForm s (s.flushDieLine die tag ln) := by
  unfold State.flushDieLine
  cases AMap.find? s.dieCache (cacheKey tag die ln) with
  | none => exact .same rfl
  | some c =>
    dsimp only
    split
    · exact .same rfl
    · exact (keeps_setBaseLine s tag ln c.data c.dirty).trans (.same rfl)

theorem keeps_flushCoreLine (core tag ln : Nat) : KeepsForm s (s.flushCoreLine core tag ln) := by
  unfold State.flushCoreLine
  cases AMap.find? s.coreCache (cacheKey tag core ln) with
  | none => exact .same rfl
  | some c =>
    dsimp only
    split
    · exact .same rfl
    · exact (keeps_dieLine s (dieOf core) tag ln).trans (.same rfl)

theorem keeps_pushLine (core tag ln : Nat) (sc : Scope) : KeepsForm s (s.pushLine core tag ln sc) := by
  unfold State.pushLine
  split
  · exact .same rfl
  · exact keeps_flushCoreLine ..
  · exact (keeps_flushCoreLine s core tag ln).trans (keeps_flushDieLine ..)

theorem keeps_readLine (core tag : Nat) (cd : Bool) (sc : Scope) (ln : Nat) :
    KeepsForm s (s.readLine core tag cd sc ln).2 := by
  unfold State.readLine
  split
  · exact .same rfl
  · dsimp only
    split
    · exact (keeps_pushLine s core tag ln sc).trans (keeps_coreLine ..)
    · exact (keeps_pushLine s core tag ln sc).trans (keeps_dieLine ..)
    · exact keeps_pushLine s core tag ln sc

theorem keeps_writeLine (core tag : Nat) (cd : Bool) (sc : Scope) (ln : Nat) (d : Line) (m : LaneMask) :
    KeepsForm s (s.writeLine core tag cd sc ln d m) := by
  unfold State.writeLine
  split
  · exact keeps_setBaseLine ..
  · split
    · exact (keeps_coreLine s core tag ln).trans (.same rfl)
    · exact ((keeps_flushCoreLine s core tag ln).trans (keeps_dieLine ..)).trans (.same rfl)
    · exact ((keeps_pushLine s core tag ln sc).trans (keeps_setBaseLine ..)).trans (.same rfl)

theorem keeps_setChipByte (oc : Nat) (b : Byte) : KeepsForm s (s.setChipByte oc b) := by
  unfold State.setChipByte
  dsimp only
  repeat' split
  all_goals exact .same rfl

theorem keeps_setChipBytes (oc : Nat) (bs : List Byte) : KeepsForm s (s.setChipBytes oc bs) := by
  induction bs generalizing s oc with
  | nil => exact .refl _
  | cons b bs ih => exact (keeps_setChipByte s oc b).trans (ih _ _)

theorem keeps_noteReserved (oc n : Nat) : KeepsForm s (s.noteReserved oc n) := by
  unfold State.noteReserved
  split
  · obtain ⟨x, y, h⟩ := State.countError_eq s 10 3 0 0xFF 0xFFFF 0 0
    exact .same (congrArg State.mem h : s.configEvent.mem = _)
  · exact .refl s

theorem keeps_readPlace (core : Nat) (p : Place) (n : Nat) : KeepsForm s (s.readPlace core p n).2 := by
  unfold State.readPlace
  cases p with
  | g pa tag cached sc => exact keeps_readLine ..
  | chip oc => exact keeps_noteReserved ..
  | peer dev va => exact .same rfl
  | held a sw => exact .same rfl

theorem keeps_writePlace (core : Nat) (p : Place) (bs : List Byte) : KeepsForm s (s.writePlace core p bs) := by
  unfold State.writePlace
  cases p with
  | g pa tag cached sc => exact keeps_writeLine ..
  | chip oc => exact (keeps_setChipBytes s oc bs).trans (keeps_noteReserved ..)
  | peer dev va => exact .same rfl
  | held a sw => exact .same rfl

theorem keeps_flushCore (core : Nat) : KeepsForm s (s.flushCore core) :=
  KeepsForm.foldl _ (fun t e => by split; exacts [keeps_flushCoreLine .., .refl _]) _ _

theorem keeps_flushDie (die : Nat) : KeepsForm s (s.flushDie die) :=
  KeepsForm.foldl _ (fun t e => by split; exacts [keeps_flushDieLine .., .refl _]) _ _

theorem keeps_releaseCaches (core : Nat) (sc : Scope) : KeepsForm s (s.releaseCaches core sc) := by
  unfold State.releaseCaches
  split
  · exact .same rfl
  · exact keeps_flushCore ..
  · exact (keeps_flushCore s core).trans (keeps_flushDie ..)

theorem keeps_acquireCaches (core : Nat) (sc : Scope) : KeepsForm s (s.acquireCaches core sc) := by
  unfold State.acquireCaches
  split
  · exact .same rfl
  · exact (keeps_flushCore s core).trans (.same rfl)
  · exact ((keeps_flushCore s core).trans (keeps_flushDie ..)).trans (.same rfl)

theorem keeps_performAt (gk : Nat) (g : Group) (p : Path) (b : Block) (l : Launch) (w : GStore) (dst : Place) :
    KeepsForm s (s.performAt gk g p b l w dst) := by
  unfold State.performAt
  have hg : ∀ dst, KeepsForm s (if w.mask.isEmpty then s.writePlace b.core dst w.data
      else (s.readPlace b.core dst w.data.length).2.writePlace b.core dst
        (maskBytes (s.readPlace b.core dst w.data.length).1 w.data w.mask)) := by
    intro dst
    split
    · exact keeps_writePlace ..
    · exact (keeps_readPlace s b.core dst w.data.length).trans (keeps_writePlace ..)
  cases dst with
  | peer dev va => exact .same rfl
  | held a sw => exact .same rfl
  | g pa tag cached sc => exact hg _
  | chip oc => exact hg _

theorem keeps_freeze (bk gid vpc : Nat) (e : Bool) (f : Flt) : KeepsForm s (s.freeze bk gid vpc e f) := by
  rw [freeze_frame]; exact .same rfl

theorem keeps_performStore (gk : Nat) (g : Group) (p : Path) (b : Block) (l : Launch) (w : GStore) :
    KeepsForm s (s.performStore gk g p b l w) := by
  unfold State.performStore
  dsimp only
  have key : ∀ t : State, KeepsForm t (match t.storeTarget l w with
      | .ok dst => t.performAt gk g p b l w dst
      | .hold _ => t.addRemoteStore gk g p b l w (w.via.getD (0, 0)).1 (w.via.getD (0, 0)).2 true
      | .fault f => t.freeze g.block g.gid (t.vpcAt b l p) false { f with lanes := maskOf [w.lane] }) := by
    intro t
    split
    · exact keeps_performAt ..
    · exact .same rfl
    · exact keeps_freeze ..
  cases w.rel with
  | none => exact key s
  | some sc => exact (keeps_releaseCaches s b.core sc).trans (key _)

theorem keeps_performStores (gk : Nat) (g : Group) (p : Path) (b : Block) (l : Launch) :
    KeepsForm s (s.performStores gk g p b l) :=
  KeepsForm.foldl _ (fun t w => keeps_performStore t gk g p b l w) _ _

theorem keeps_putBytes (pa : Nat) (bs : List Byte) : KeepsForm s (s.putBytes pa bs) := keeps_setBaseLine s 0 _ _ _

theorem keeps_putRuns (l : List (Nat × Nat)) (bs : List Byte) : KeepsForm s (s.putRuns l bs) := by
  induction l generalizing s bs with
  | nil => exact .refl s
  | cons e l ih => exact (keeps_putBytes s e.1 _).trans (ih _ _)

theorem keeps_setPtes (l : List (Nat × Nat)) : KeepsForm s (s.setPtes l) := by
  induction l generalizing s with
  | nil => exact .refl s
  | cons e l ih => exact (keeps_setMemBytes s e.1 _).trans (ih _)

theorem keeps_putCounts (cb : Nat) (q : Queue) : KeepsForm s (s.putCounts cb q) :=
  ((keeps_setMemBytes s cb _).trans (keeps_setMemBytes _ (cb + 28) _)).trans (.same rfl)

theorem keeps_zeroMemory (vi : Nat) : KeepsForm s (s.zeroMemory vi) := ⟨fun h => Cells.wf_keep (fun k _ => !s.owns vi k) h⟩

/-- Memory is in canonical form after reset. -/
theorem reset_mem_wf : Safety.Memory.wf State.reset.mem = true := rfl

end Sys2Proof.Machine
end

