-- ==== Sys2Proof/Tests/Slice0.lean ====
section
/-! SUPPORT. The model's own tests: words of the spec's encodings, values worked out by hand from its rules, terms that
are not well-formed, and for every statement with hypotheses a state and operands that meet them together. -/

namespace Sys2Proof.Tests

set_option Elab.async false

open Sys2Proof Sys2Proof.Machine Sys2Proof.Safety Sys2Proof.Claims

/-- The 64-bit register contents of the tests, the same in both lanes. -/
def regsOf (vs : List (Nat × Word)) (t : Nat) (m : Cells 64) : Cells 64 :=
  vs.foldl (fun m e => Cells.set m (vregKey t e.1) e.2) m

/-- An image of sections, each given by its kind, its link and its bytes (06 Tables 6.1, 6.2). -/
def imageOf (native : Nat) (secs : List (Nat × Nat × List Byte)) : List Byte :=
  let at_ (i : Nat) : Nat := 64 + 16 * secs.length + ((secs.take i).map fun x => x.2.2.length).sum
  leBytes 6 0 ++ leBytes 6 native ++ leBytes 52 secs.length
    ++ ((span 0 secs.length).flatMap fun i =>
      let x := secs.getD i (0, 0, [])
      leBytes 1 x.1 ++ leBytes 7 x.2.1 ++ leBytes 4 (at_ i) ++ leBytes 4 x.2.2.length)
    ++ secs.flatMap fun x => x.2.2

/-- A stage of 8 blocks of 2 threads with 16 KiB of scratchpad each, on 1 to 4 cores, 4 accumulator tiles and 96
registers (06 Table 6.4). -/
def stageEntry (quad : Nat) : List Byte :=
  leBytes 4 0 ++ leBytes 1 1 ++ leBytes 1 quad ++ leBytes 2 1 ++ leBytes 4 8 ++ leBytes 4 1 ++ leBytes 4 1 ++ leBytes 2 2
    ++ leBytes 2 1 ++ leBytes 2 1 ++ leBytes 2 1 ++ leBytes 2 4 ++ leBytes 1 14 ++ leBytes 1 4 ++ leBytes 2 96
    ++ leBytes 30 1

/-- A window grant to 4 KiB of the scratchpad of block 1, with all rights (04 Table 4.3). -/
def grantEntry : List Byte :=
  leBytes 1 0 ++ leBytes 1 7 ++ leBytes 2 0 ++ leBytes 4 1 ++ leBytes 4 0 ++ leBytes 4 4096

/-- Two stages of one code section, with the grant. -/
def testImage (native quad : Nat) : List Byte :=
  imageOf native [(1, 0, stageEntry quad ++ stageEntry quad), (6, 0, leBytes 64 0), (4, 0, grantEntry)]

/-- Bytes put into memory. -/
def putMem (m : Cells 8) (a : Nat) (bs : List Byte) : Cells 8 :=
  (bs.zip (span a bs.length)).foldl (fun (m : Cells 8) e => Cells.set m e.2 e.1) m

/-- A root table at 0x30000, whose first entry names the table at 0x31000, whose first entry is a leaf of 1 GiB at 0,
readable and writable by users, accessed and dirty (04 Table 4.12). -/
def pageTables (m : Cells 8) : Cells 8 := putMem (putMem m 0x30000 (leBytes 8 (0x31 * 2 ^ 10 + 1))) 0x31000 (leBytes 8 0xD7)

/-- A tensor descriptor (04 Table 4.6). -/
def tensorBytes : List Byte :=
  leBytes 8 0x40000 ++ leBytes 1 2 ++ leBytes 1 1 ++ leBytes 1 0 ++ leBytes 1 1 ++ leBytes 4 7 ++ leBytes 4 32 ++ leBytes 4 16
    ++ leBytes 12 0 ++ leBytes 6 32 ++ leBytes 22 0

/-- A path of two threads that issues in a block with 16 KiB of scratchpad. The context has one page of 1 GiB at 0
(its page table stands at 0x30000), all of it claimed; the addresses from 64 KiB to 128 KiB are memory-side and
immediate, those from there to 192 KiB immediate and cache-capable. Handle 0 names a tensor of 16 rows of 32 bytes at
0x40000. -/
def site (vs : List (Nat × Word)) : State :=
  let s := State.reset.running []
  { s with
    images := [(1, { vi := 0, addr := 0, digest := [], bytes := testImage 0 0 })]
    contexts := [(0, { vi := 0, num := 0, satp := 9 * 2 ^ 60 + 0x30, attrTable := 0x33000, handleBase := 0x32000
                       handleLen := 1, weight := 1, prio := 0, grantQuota := 8, shadowBase := 0, shadowSize := 0
                       saveBase := 0, saveSize := 2 ^ 30, faultQ := 0, recordQ := 0, sampleQ := 0, dump := 0 })]
    launches := AMap.upd s.launches 1 fun l =>
      { l with claims := [{ lo := 0, hi := 2 ^ 30, rd := true, wr := true }]
               attrs := [{ lo := 0x10000, hi := 0x20000, flags := 6 }, { lo := 0x20000, hi := 0x30000, flags := 10 }] }
    mem := putMem (putMem (pageTables []) 0x32000 tensorBytes) 0x33000
      (leBytes 8 0x10000 ++ leBytes 8 16 ++ leBytes 8 7)
    groups := AMap.upd s.groups (2 ^ 42) fun g =>
      { g with lanes := [(0, 0), (1, 1)], paths := g.paths.map fun p => { p with mask := 3 } }
    threads := [(2 ^ 47, {}), (2 ^ 47 + 1, {})]
    vregs := regsOf vs (2 ^ 47) (regsOf vs (2 ^ 47 + 1) []) }

/-- The state without the attribute table of its contexts. -/
def noTable (s : State) : State :=
  { s with contexts := s.contexts.map fun (e : Nat × Context) => (e.1, { e.2 with attrTable := 2 ^ 60 }) }

/-- The same path in a native slot. -/
def inSlot (s : State) : State :=
  { s with cur := s.cur.map fun c => { c with
      slot := some { la := 0, cluster := 0, pos := 1, first := true, lat := 4, aliasByte := 0, scope := .core } } }

/-- The state with its path changed. -/
def withPath (s : State) (f : Path → Path) : State := s.updPath (2 ^ 42) 0 f

theorem meet {s : State} {g : Guard} {p : Ctx → Prop} [DecidablePred p]
    (h : ((s.ctx g).any fun c => decide (p c)) = true) : ∃ c, s.ctx g = some c ∧ p c := by
  obtain ⟨c, hc, hp⟩ := Option.any_eq_true .. |>.mp h
  exact ⟨c, hc, of_decide_eq_true hp⟩

theorem meetReg {table : Instr → Option RegOp} {i : Instr} {s : State} {p : RegOp → Ctx → Prop}
    [∀ o c, Decidable (p o c)] (h : ((table i).any fun o => (s.ctx o.guard).any fun c => decide (p o c)) = true) :
    ∃ o c, table i = some o ∧ s.ctx o.guard = some c ∧ p o c := by
  obtain ⟨o, ho, h⟩ := Option.any_eq_true .. |>.mp h
  obtain ⟨c, hc, hp⟩ := Option.any_eq_true .. |>.mp h
  exact ⟨o, c, ho, hc, of_decide_eq_true hp⟩

/-- The same path in an irreversible slot that performs at the commit of its region (03 R63). -/
def atCommit (s : State) : State := withPath (inSlot s) fun p => { p with sealed := true }

/-- The state with another block of the launch on core 1. -/
def withBlock (linear : Nat) : State :=
  let s := site []
  let b : Block := { launch := 1, stage := 0, linear, st := .resident, core := 1 }
  { s with blocks := AMap.put s.blocks (2 ^ 36 + linear) b }

/-! The instructions that write registers (04 to 21: IntegerInstructionsWriteTheirLanes and its kin). -/

theorem witness_integer_fleper : ∃ op c, integerOp (.iadd .always .n32 true (.v 5) (.v 1) (.v 2)) = some op ∧
    (site []).ctx op.guard = some c ∧ op.fault (site []) c = none ∧ c.cur.slot = none :=
  meetReg (by decide +kernel)

theorem witness_integer_native : ∃ op c, integerOp (.idiv .always .i32 (.creg 5) (.creg 1) (.s 2)) = some op ∧
    (inSlot (site [])).ctx op.guard = some c ∧ op.fault (inSlot (site [])) c = none ∧ c.cur.slot.isSome = true ∧
    c.p.sealed = false :=
  meetReg (by decide +kernel)

theorem witness_bfx_brev : (∃ c, (site []).ctx .always = some c ∧ c.cur.slot = none) ∧
    ∃ c, (inSlot (site [])).ctx .always = some c ∧ c.cur.slot.isSome = true :=
  ⟨meet (by decide +kernel), meet (by decide +kernel)⟩

theorem witness_float_fleper : ∃ op c, floatOp (.fcvt .always .e4m3 .f32 .rs (.v 8) (.v 3)) = some op ∧
    (site []).ctx op.guard = some c ∧ op.fault (site []) c = none ∧ c.cur.slot = none :=
  meetReg (by decide +kernel)

theorem witness_float_native : ∃ op c, floatOp (.fadd .always .f32 .rz (.creg 7) (.creg 2) (.nextCreg 1)) = some op ∧
    (inSlot (site [])).ctx op.guard = some c ∧ op.fault (inSlot (site [])) c = none ∧ c.cur.slot.isSome = true ∧
    c.p.sealed = false :=
  meetReg (by decide +kernel)

theorem witness_group_fleper : ∃ op c, groupOp (.gscan .always .add true .n32 (.v 2) (.v 1)) = some op ∧
    (site []).ctx op.guard = some c ∧ op.fault (site []) c = none ∧ c.cur.slot = none :=
  meetReg (by decide +kernel)

theorem witness_group_native : ∃ op c, groupOp (.ballot .always (.s 2) (.creg 1)) = some op ∧
    (inSlot (site [])).ctx op.guard = some c ∧ op.fault (inSlot (site [])) c = none ∧ c.cur.slot.isSome = true ∧
    c.p.sealed = false :=
  meetReg (by decide +kernel)

/-! Control flow. -/

theorem meetTransfer {i : Instr} {s : State} {p : Transfer → Ctx → Prop}
    [∀ o c, Decidable (p o c)] (h : ((transferOp i).any fun o => (s.ctx o.guard).any fun c => decide (p o c)) = true) :
    ∃ o c, transferOp i = some o ∧ s.ctx o.guard = some c ∧ p o c := by
  obtain ⟨o, ho, h⟩ := Option.any_eq_true .. |>.mp h
  obtain ⟨c, hc, hp⟩ := Option.any_eq_true .. |>.mp h
  exact ⟨o, c, ho, hc, of_decide_eq_true hp⟩

theorem witness_transfer_fleper : ∃ op c, transferOp (.call .always (.v 5) 64) = some op ∧
    (site []).ctx op.guard = some c ∧ op.faults (site []) c = [] ∧ c.cur.slot = none :=
  meetTransfer (by decide +kernel)

theorem witness_transfer_native : ∃ op c, transferOp (.bra (.pred 3 true) 64) = some op ∧
    (inSlot (site [])).ctx op.guard = some c ∧ op.faults (inSlot (site [])) c = [] ∧ c.cur.slot.isSome = true ∧
    c.p.sealed = false :=
  meetTransfer (by decide +kernel)

theorem witness_transfer_sealed : ∃ op c, transferOp (.trapHandler .always 511 (.creg 5) 64) = some op ∧
    (atCommit (site [])).ctx op.guard = some c ∧ op.faults (atCommit (site [])) c = [] ∧ c.cur.slot.isSome = true ∧
    c.p.sealed = true :=
  meetTransfer (by decide +kernel)

/-- A return at depth 0. -/
theorem witness_transfer_fault : ∃ op c, transferOp (.ret .always .n64 (.v 5)) = some op ∧
    (site []).ctx op.guard = some c ∧ op.faults (site []) c ≠ [] :=
  meetTransfer (by decide +kernel)

theorem witness_fault_freezes : ∃ c, (site []).ctx .always = some c ∧ takenHere c ∧
    (({ code := .align } : Flt).code ≠ .pageNotPresent ∨ c.afterMatrix = true) ∧ ({ code := .align } : Flt).lost = false ∧
    c.b.fault = none := by
  unfold takenHere; exact meet (by decide +kernel)

/-- A fault of data that an error has destroyed, in a launch that runs. -/
theorem witness_destroyed_line : ∃ c, (site []).ctx .always = some c ∧ (lostAt 0x10000).lost = true ∧
    c.l.st.running = true :=
  meet (by decide +kernel)

/-- After a matrix slot even an absent page freezes the block (03 R64). -/
theorem witness_fault_after_matrix : ∃ c, (withPath (site []) fun p => { p with run := 2 }).ctx .always = some c ∧
    takenHere c ∧ c.afterMatrix = true ∧ c.b.fault = none := by
  unfold takenHere; exact meet (by decide +kernel)

theorem witness_absent_page : ∃ c, (site []).ctx .always = some c ∧ takenHere c ∧ c.afterMatrix = false := by
  unfold takenHere; exact meet (by decide +kernel)

theorem witness_trap : ∃ c, (site []).ctx .always = some c ∧ c.exec ≠ [] ∧ takenHere c ∧ c.b.fault = none := by
  unfold takenHere; exact meet (by decide +kernel)

theorem witness_brk_without_debugger : ∃ c, (site []).ctx .always = some c ∧ c.exec ≠ [] ∧ takenHere c ∧
    c.b.fault = none ∧ ∀ x ∈ (site []).context c.l.vi c.l.ctx, x.dump = 0 := by
  unfold takenHere; exact meet (by decide +kernel)

theorem witness_brk_with_debugger :
    ∃ c, ((site []).updContext 0 0 fun x => { x with dump := 0x4000 }).ctx .always = some c ∧ c.exec ≠ [] ∧
      ∃ x ∈ ((site []).updContext 0 0 fun x => { x with dump := 0x4000 }).context c.l.vi c.l.ctx, x.dump ≠ 0 :=
  meet (by decide +kernel)

/-- Some lanes execute, and none does; a guard with the predicates as they are at placement. -/
theorem witness_executing : (∃ c, (site []).ctx .always = some c ∧ c.exec ≠ []) ∧
    ∃ c, (site []).ctx (.pred 0 false) = some c ∧ c.exec = [] :=
  ⟨meet (by decide +kernel), meet (by decide +kernel)⟩

/-- An instruction of the Fleper carrier, a slot of a bundle, and one that performs at the commit of its region. -/
theorem witness_finishing : ∀ s ∈ [site [], inSlot (site []), atCommit (site [])], ∃ c, s.ctx .always = some c ∧
    (AMap.find? s.groups c.cur.grp).any (fun g => g.paths[c.cur.path]?.isSome
      && (AMap.find? s.blocks g.block).any fun b => (AMap.find? s.launches b.launch).isSome) = true := by
  intro s h
  rcases List.mem_cons.mp h with rfl | h
  · exact meet (by decide +kernel)
  · rcases List.mem_pair.mp h with rfl | rfl
    · exact meet (by decide +kernel)
    · exact meet (by decide +kernel)

theorem witness_finishing_slots : (∃ c, (site []).ctx .always = some c ∧ c.cur.slot = none) ∧
    (∃ c, (inSlot (site [])).ctx .always = some c ∧ c.cur.slot.isSome = true ∧ c.p.sealed = false) ∧
    ∃ c, (atCommit (site [])).ctx .always = some c ∧ c.cur.slot.isSome = true ∧ c.p.sealed = true :=
  ⟨meet (by decide +kernel), meet (by decide +kernel), meet (by decide +kernel)⟩

/-! The system and tile instructions. -/

theorem meetEffect {table : Instr → Option Effect} {i : Instr} {s : State} {p : Effect → Ctx → Prop}
    [∀ o c, Decidable (p o c)] (h : ((table i).any fun o => (s.ctx o.guard).any fun c => decide (p o c)) = true) :
    ∃ o c, table i = some o ∧ s.ctx o.guard = some c ∧ p o c := by
  obtain ⟨o, ho, h⟩ := Option.any_eq_true .. |>.mp h
  obtain ⟨c, hc, hp⟩ := Option.any_eq_true .. |>.mp h
  exact ⟨o, c, ho, hc, of_decide_eq_true hp⟩

theorem witness_status_fleper : ∃ op c, readOp (.tstateRead .always true (.v 1) 63) = some op ∧
    (site []).ctx op.guard = some c ∧ op.fault (site []) c = none ∧ c.cur.slot = none :=
  meetReg (by decide +kernel)

theorem witness_status_native : ∃ op c, readOp (.clock .always (.s 1)) = some op ∧
    (inSlot (site [])).ctx op.guard = some c ∧ op.fault (inSlot (site [])) c = none ∧ c.cur.slot.isSome = true ∧
    c.p.sealed = false :=
  meetReg (by decide +kernel)

/-- A read of a control word that does not exist. -/
theorem witness_status_fault : ∃ op c, readOp (.sysrd .always (.v 1) (.imm 0xFFFF)) = some op ∧
    (site []).ctx op.guard = some c ∧ op.fault (site []) c ≠ none :=
  meetReg (by decide +kernel)

theorem witness_system_effect : ∃ e c, systemEffect (.syswr .always (.imm 0x6000) (.v 1)) = some e ∧
    (site []).ctx e.guard = some c ∧ c.exec ≠ [] ∧ e.fault (site []) c = none :=
  meetEffect (by decide +kernel)

theorem witness_system_fault : ∃ e c, systemEffect (.syswr .always (.imm 0xFFFF) (.v 1)) = some e ∧
    (site []).ctx e.guard = some c ∧ c.exec ≠ [] ∧ e.fault (site []) c ≠ none :=
  meetEffect (by decide +kernel)

theorem witness_system_none_executes : ∃ e c, systemEffect (.satarm (.pred 0 false)) = some e ∧
    (site []).ctx e.guard = some c ∧ c.exec = [] :=
  meetEffect (by decide +kernel)

/-- A declaration of a tile of 16 rows of 32 bytes at offset 0, of the last tile. -/
theorem witness_tile_effect :
    ∃ e c, tileEffect (.tdecl .always .n8 0 63 (.imm (16 * 2 ^ 38 + 32 * 2 ^ 24 + 2 ^ 49)) 0 0) = some e ∧
      (site []).ctx e.guard = some c ∧ c.exec ≠ [] ∧ e.fault (site []) c = none :=
  meetEffect (by decide +kernel)

/-- A declaration whose base is not a multiple of 64. -/
theorem witness_tile_fault : ∃ e c, tileEffect (.tdecl .always .n8 0 63 (.imm 1) 0 0) = some e ∧
    (site []).ctx e.guard = some c ∧ c.exec ≠ [] ∧ e.fault (site []) c ≠ none :=
  meetEffect (by decide +kernel)

theorem witness_tile_words : (3 < 4 ∧ 63 < 64) ∧ (0 < 4 ∧ 0 < 64) := by decide

/-- The owner of a uniform register: none, the context itself, another one. -/
theorem witness_uniform_unowned : ∃ c, (site []).ctx .always = some c ∧ c.exec ≠ [] ∧ AMap.find? c.b.owners 63 = none :=
  meet (by decide +kernel)

theorem witness_uniform_own :
    ∃ c, ((site []).updBlock (2 ^ 36) fun b => { b with owners := [(0, 0)] }).ctx .always = some c ∧ c.exec ≠ [] ∧
      AMap.find? c.b.owners 0 = some c.g.gid :=
  meet (by decide +kernel)

theorem witness_uniform_other :
    ∃ c, ((site []).updBlock (2 ^ 36) fun b => { b with owners := [(0, 1)] }).ctx .always = some c ∧ c.exec ≠ [] ∧
      AMap.find? c.b.owners 0 = some 1 ∧ 1 ≠ c.g.gid :=
  meet (by decide +kernel)

theorem witness_control_words : State.reset.dcNext < 16 ∧ ∀ d, (Cells.get State.reset.errcnt d).toNat < 2 ^ 48 :=
  ⟨by decide, fun _ => by simp [State.reset, Cells.get, AMap.find?]⟩

/-! Bobbins and barriers. -/

/-- A bobbin store with room, and one all of whose bobbins are of another key. -/
theorem witness_bobbin_room : ((site []).fileThread 0 (2 ^ 36) 64 256 0).isSome = true := by decide +kernel

theorem witness_bobbin_full :
    ({ site [] with bobbins := (span 0 64).map fun i => (i, { block := 5, pc := 0, threads := [0], born := 0, limit := 1 }) }
      : State).fileThread 0 (2 ^ 36) 64 256 0 = none := by decide +kernel

theorem witness_barrier_arm : ∃ e c, barrierEffect (.bararm .always 31 (.imm 8) (.imm 65535) (.imm 0)) = some e ∧
    (site []).ctx e.guard = some c ∧ c.exec ≠ [] ∧ e.fault (site []) c = none :=
  meetEffect (by decide +kernel)

theorem witness_barrier_fault : ∃ e c, barrierEffect (.bararm .always 0 (.imm 9) (.imm 2) (.imm 0)) = some e ∧
    (site []).ctx e.guard = some c ∧ c.exec ≠ [] ∧ e.fault (site []) c ≠ none :=
  meetEffect (by decide +kernel)

/-- The machine once BARARM has armed object 0 with 2 slots and the expected arrivals given. -/
def armed (arrivals : Nat) : State :=
  match exec (.bararm .always 0 (.imm 2) (.imm arrivals) (.imm 0)) (site []) with
  | .next t => t
  | _ => site []

/-- Two lanes arrive once each at an object that expects two arrivals. -/
theorem witness_barrier_arrive : ∃ e c, barrierEffect (.bararr .always 0 1 (.imm 1)) = some e ∧
    (armed 2).ctx e.guard = some c ∧ c.exec ≠ [] ∧ e.fault (armed 2) c = none :=
  meetEffect (by decide +kernel)

theorem witness_barrier_overrun : ∃ e c, barrierEffect (.bararr .always 0 1 (.imm 1)) = some e ∧
    (armed 1).ctx e.guard = some c ∧ c.exec ≠ [] ∧ e.fault (armed 1) c ≠ none :=
  meetEffect (by decide +kernel)

theorem witness_barrier_rotate : ∃ e c, barrierEffect (.barrot .always 0) = some e ∧
    (armed 0).ctx e.guard = some c ∧ c.exec ≠ [] ∧ e.fault (armed 0) c = none :=
  meetEffect (by decide +kernel)

theorem witness_page_in_scratch : ∃ c, (site []).ctx .always = some c ∧ PageInScratch (site []) c.b c.l ∧
    SlotFits { arrivals := 65535, complete := false, bytes := 2 ^ 32 - 1 } := by
  unfold PageInScratch SlotFits; exact meet (by decide +kernel)

theorem witness_barwait_passes : ∃ c, (armed 0).ctx .always = some c ∧ c.pos ∉ c.p.woken ∧
    1 < (armed 0).barDepth c.b c.l 0 ∧ ((armed 0).slotAt c.b c.l 0 1).complete = true :=
  meet (by decide +kernel)

theorem witness_barwait_waits : ∃ c, (armed 1).ctx .always = some c ∧ c.exec ≠ [] ∧ c.pos ∉ c.p.woken ∧
    1 < (armed 1).barDepth c.b c.l 0 ∧ ((armed 1).slotAt c.b c.l 0 1).complete = false :=
  meet (by decide +kernel)

theorem witness_barwait_past_depth : ∃ c, (armed 0).ctx .always = some c ∧ c.exec ≠ [] ∧ c.pos ∉ c.p.woken ∧
    (armed 0).barDepth c.b c.l 0 ≤ 2 :=
  meet (by decide +kernel)

theorem witness_barwait_woken :
    ∃ c, (withPath (armed 1) fun p => { p with woken := [0] }).ctx .always = some c ∧ c.pos ∈ c.p.woken :=
  meet (by decide +kernel)

theorem witness_wake_slot : AMap.rising (armed 1).groups = true := by decide +kernel

theorem witness_barsync_native : ∃ c, (inSlot (site [])).ctx .always = some c ∧ c.exec ≠ [] ∧ c.cur.slot ≠ none :=
  meet (by decide +kernel)

theorem witness_barsync : ∃ c, (site []).ctx .always = some c ∧ c.exec ≠ [] ∧ c.cur.slot = none ∧ c.p.run = 0 :=
  meet (by decide +kernel)

/-- Both threads wait; no thread waits. -/
theorem witness_barsync_completes :
    let s := withPath (site []) fun p => { p with wait := .sync }
    s.arrivals (2 ^ 36) = s.liveThreads (2 ^ 36) ∧ s.arrivals (2 ^ 36) ≠ 0 ∧
      ((AMap.find? s.blocks (2 ^ 36)).map fun b => b.armed) = some false ∧ AMap.rising s.groups = true := by
  decide +kernel

theorem witness_barsync_pends : (site []).arrivals (2 ^ 36) ≠ (site []).liveThreads (2 ^ 36) ∧
    (AMap.find? (site []).blocks (2 ^ 36)).isSome = true := by
  decide +kernel

/-! Memory. -/

theorem meetClear {s : State} {g : Guard} {m : MemRef} {sc : Scope} {need : Need} {attr : Nat → Bool}
    {lanes : Ctx → List Nat} {p : Ctx → State → List (Nat × Place) → Prop} [∀ c t ps, Decidable (p c t ps)]
    (h : ((s.ctx g).any fun c =>
      let r := s.resolveLanes c m sc need attr (lanes c)
      decide (resolvedFaults r.1 = [] ∧ resolvedHold r.1 = none ∧
        (∀ e ∈ resolvedPlaces r.1, r.2.poisonedAt e.2 = false) ∧ p c r.2 (resolvedPlaces r.1))) = true) :
    ∃ c t ps, s.ctx g = some c ∧ Clear s c m sc need attr (lanes c) t ps ∧ p c t ps := by
  obtain ⟨c, hc, h⟩ := Option.any_eq_true .. |>.mp h
  obtain ⟨h1, h2, h3, h4⟩ := of_decide_eq_true h
  exact ⟨c, _, _, hc, ⟨_, rfl, h1, h2, rfl, h3⟩, h4⟩

/-- A global word at the end of the memory-side range. -/
def gword : MemRef := { space := .g, base := .v 1, off := -4 }

theorem witness_load_fleper : ∃ c t ps, (site [(1, 0x20000)]).ctx .always = some c ∧
    Clear (site [(1, 0x20000)]) c gword .device { n := 4 } (fun _ => true) (c.loadLanes (.v 5)) t ps ∧
    c.exec ≠ [] ∧ c.cur.slot = none ∧ (∀ e ∈ ps, e.2.isPeer = false) ∧ gword.space ≠ .w :=
  meetClear (lanes := fun c => c.loadLanes (.v 5)) (by decide +kernel)

/-- A native slot with an alias byte, and room in the alias table of its core. -/
def hoisted : State :=
  let s := inSlot (site [(1, 0x20000)])
  { s with cur := s.cur.map fun c => { c with slot := c.slot.map fun x => { x with aliasByte := 1 } } }

theorem witness_load_native : ∃ c t ps, (inSlot (site [])).ctx .always = some c ∧
    Clear (inSlot (site [])) c { space := .g, base := .creg 1, off := 0x10000 } .core { n := 4 } (fun _ => true)
      (c.loadLanes (.creg 5)) t ps ∧
    c.exec ≠ [] ∧ (∀ e ∈ ps, e.2.isPeer = false) ∧ c.p.sealed = false ∧ ∃ x ∈ c.cur.slot, x.aliasByte = 0 :=
  meetClear (lanes := fun c => c.loadLanes (.creg 5)) (by decide +kernel)

theorem witness_load_hoisted : ∃ c t ps, hoisted.ctx .always = some c ∧
    Clear hoisted c { space := .g, base := .creg 1, off := 0x10000 } .core { n := 4 } (fun _ => true)
      (c.loadLanes (.creg 5)) t ps ∧
    c.exec ≠ [] ∧ (∀ e ∈ ps, e.2.isPeer = false) ∧ c.p.sealed = false ∧ ∃ x ∈ c.cur.slot, x.aliasByte ≠ 0 ∧
      (aliasEntries .g x.aliasByte (t.addrs c { space := .g, base := .creg 1, off := 0x10000 }
        (ps.map fun e => e.1))).length ≤ t.aliasFree c.b.core :=
  meetClear (lanes := fun c => c.loadLanes (.creg 5)) (by decide +kernel)

/-- A load through a window whose own held store has performed. -/
theorem witness_load_window : ∃ c t ps, (withBlock 1).ctx .always = some c ∧
    Clear (withBlock 1) c { space := .w, base := .imm 4092 } .group { n := 4 } (fun _ => true) (c.loadLanes (.v 5)) t ps ∧
    c.exec ≠ [] ∧ c.cur.slot = none ∧ (∀ e ∈ ps, e.2.isPeer = false) ∧ t.heldStore c = false :=
  meetClear (lanes := fun c => c.loadLanes (.v 5)) (by decide +kernel)

theorem witness_store : ∃ c, (site [(1, 0x20000)]).ctx .always = some c ∧ c.exec ≠ [] ∧ c.cur.slot = none ∧
    resolvedFaults ((site [(1, 0x20000)]).resolveLanes c gword .device { n := 4, write := true } (fun _ => true) c.exec).1
      = [] ∧ releases .rlx = false :=
  meet (by decide +kernel)

/-- A release with a token that is DONE. -/
def doneTokens : State := (site [(1, 0x20000)]).updGroup (2 ^ 42) fun g => { g with done := 0x8000 }

theorem witness_store_release : ∃ c, doneTokens.ctx .always = some c ∧ c.exec ≠ [] ∧ c.cur.slot = none ∧
    (let r := doneTokens.resolveLanes c gword .device { n := 4, write := true } (fun _ => true) c.exec
     resolvedFaults r.1 = [] ∧ ReleaseReady r.2 c (releases .rel) { c0 := some 15 }) := by
  unfold ReleaseReady; exact meet (by decide +kernel)

/-- Of the own scratchpad: the last word before the barrier page. -/
theorem witness_scratchpad_store : ∃ c, (site []).ctx .always = some c ∧ c.exec ≠ [] ∧ c.cur.slot = none ∧ c.p.run = 0 ∧
    c.p.gated = [] ∧ PageInScratch (site []) c.b c.l ∧
    ∀ l ∈ c.exec, (site []).addrOf c l { space := .l, base := .imm 12280 } % 8 = 0 ∧
      (site []).addrOf c l { space := .l, base := .imm 12280 } + 8 + 4096 ≤ ((site []).stageOf c.b c.l).spadSize := by
  unfold PageInScratch; exact meet (by decide +kernel)

theorem witness_check_alignment : 4095 % (STy.n16.width / 8) ≠ 0 := by decide

/-- An address that translates, and one whose page is not present. -/
theorem witness_check_global : ∃ c, (site []).ctx .always = some c ∧ (2 ^ 30 - 8) % 8 = 0 ∧
    ∃ x ∈ (site []).context c.l.vi c.l.ctx,
      ((site []).translate c.b.core x.satp ((site []).iface c.l.vi).hgatp (2 ^ 30 - 8) true).toBool = true ∧
      ((site []).translate c.b.core x.satp ((site []).iface c.l.vi).hgatp (2 ^ 30) true).toBool = false :=
  meet (by decide +kernel)

theorem witness_access_faults : ∃ c, (site [(1, 2 ^ 30)]).ctx .always = some c ∧ c.exec ≠ [] ∧
    resolvedFaults ((site [(1, 2 ^ 30)]).resolveLanes c { space := .g, base := .v 1 } .core { n := 4 } (fun _ => true)
      c.exec).1 ≠ [] :=
  meet (by decide +kernel)

/-- A window whose target block has not been placed. -/
theorem witness_access_held : ∃ c, (site []).ctx .always = some c ∧ c.exec ≠ [] ∧
    (let r := (site []).resolveLanes c { space := .w, base := .imm 4092 } .group { n := 4, write := true, atomic := true }
      (fun _ => true) c.exec
     resolvedFaults r.1 = [] ∧ resolvedHold r.1 = some 0) :=
  meet (by decide +kernel)

/-- A load of a poisoned line. -/
theorem witness_access_poisoned : ∃ c, ({ site [] with poison := [(0x400, 1)] } : State).ctx .always = some c ∧
    c.exec ≠ [] ∧
    (let r := ({ site [] with poison := [(0x400, 1)] } : State).resolveLanes c { space := .g, base := .imm 0x1003C } .core
      { n := 4 } (fun _ => true) c.exec
     resolvedFaults r.1 = [] ∧ resolvedHold r.1 = none ∧
       ∃ e ∈ resolvedPlaces r.1, r.2.poisonedAt e.2 = true) :=
  meet (by decide +kernel)

/-- The bytes before and after in the line, and those of the next line. -/
theorem witness_latest_write : ([1, 2, 3, 4] : List Byte) ≠ [] ∧ 0x1003C < 2 ^ 41 ∧
    0x1003C % 64 + ([1, 2, 3, 4] : List Byte).length ≤ 64 ∧ isControlRow 0x1003C = false ∧
    0x1003B / 64 = 0x1003C / 64 ∧ cellLine (0x10040 / 64) ≠ cellLine (0x1003C / 64) := by decide

/-! Atomics, fences, polls and tiles. -/

theorem witness_atomic : ∃ c t ps, (site []).ctx .always = some c ∧
    Clear (site []) c { space := .g, base := .imm 0x1FFFC } .device { n := STy.n32.width / 8, write := true, atomic := true }
      (fun x => Space.g != .g || isMside x) c.exec t ps ∧ c.exec ≠ [] ∧ ReleaseReady t c (releases .rlx) {} := by
  unfold ReleaseReady; exact meetClear (lanes := Ctx.exec) (by decide +kernel)

theorem witness_atomic_forms :
    (atomicStep (.atom .always .add .n32 .rlx .device true none { space := .g, base := .v 1 } (.v 2) {})).isSome = true ∧
    (atomicStep (.atombadd .always .n64 .rel .device true none 0 { space := .g, base := .v 1 } (.v 2) (.v 3) {})).isSome
      = true ∧
    (atomicStep (.atomcas .always .b32 .acq .device (.v 5) { space := .l, base := .v 1 } (.v 2) (.v 3) {})).isSome = true := by
  decide

theorem witness_atomic_adds : 0x1FFFFC / 0x800000 < 1536 ∧ 0x1FFFFC % 0x800000 + 4 ≤ 0x200000 := by decide

theorem witness_lock_fleper : ∃ op c, lockOp (.lock .always (.v 5) (.imm 0) (.imm 0x40)) = some op ∧
    (site []).ctx op.guard = some c ∧ op.fault (site []) c = none ∧ c.cur.slot = none :=
  meetReg (by decide +kernel)

theorem witness_lock_native : ∃ op c, lockOp (.unlock .always (.creg 5) (.imm 0) (.imm 0x40)) = some op ∧
    (inSlot (site [])).ctx op.guard = some c ∧ op.fault (inSlot (site [])) c = none ∧ c.cur.slot.isSome = true ∧
    c.p.sealed = false :=
  meetReg (by decide +kernel)

theorem witness_lock_sealed : ∃ op c, lockOp (.lock .always (.creg 5) (.imm 0) (.imm 0x40)) = some op ∧
    (atCommit (site [])).ctx op.guard = some c ∧ op.fault (atCommit (site [])) c = none ∧ c.cur.slot.isSome = true ∧
    c.p.sealed = true :=
  meetReg (by decide +kernel)

theorem witness_lock_fault : ∃ op c, lockOp (.lock .always (.v 5) (.imm 0) (.imm 0)) = some op ∧
    (site []).ctx op.guard = some c ∧ op.fault (site []) c ≠ none :=
  meetReg (by decide +kernel)

theorem witness_fence : ∃ c, doneTokens.ctx .always = some c ∧ c.exec ≠ [] ∧
    ReleaseReady doneTokens c (FenceKind.rel != .acq) { c0 := some 15 } := by
  unfold ReleaseReady; exact meet (by decide +kernel)

theorem witness_drain_nothing_under_way : ∃ c, (site []).ctx .always = some c ∧ c.exec ≠ [] ∧ tokList {} = [] ∧
    (site []).remotePending c = false :=
  meet (by decide +kernel)

/-- A store of lane 1 to a peer is under way. -/
def storing : State :=
  { site [] with remote := [(7, { grp := 2 ^ 42, gid := 0, block := 2 ^ 36, core := 0, issued := 0, load := false
                                  window := false, addr := 0, sw := 0, data := [1], vpc := 0, lanes := 2, threads := [2 ^ 47 + 1] })] }

theorem witness_drain_waits : ∃ c, storing.ctx .always = some c ∧ c.exec ≠ [] ∧ tokList {} = [] ∧
    storing.remotePending c = true :=
  meet (by decide +kernel)

/-- Token 15 is DONE, PENDING or NONE. -/
theorem witness_drain_done : ∃ c, doneTokens.ctx .always = some c ∧ c.exec ≠ [] ∧ tokList { c0 := some 15 } ≠ [] ∧
    (doneTokens.grp c).noneToken (tokList { c0 := some 15 }) = none ∧
    (doneTokens.grp c).tokensDone (tokList { c0 := some 15 }) = true :=
  meet (by decide +kernel)

theorem witness_drain_pending : ∃ c, ((site []).updGroup (2 ^ 42) fun g => { g with pend := 0x8000 }).ctx .always = some c ∧
    c.exec ≠ [] ∧ c.g.noneToken (tokList { c0 := some 15 }) = none ∧ c.g.tokensDone (tokList { c0 := some 15 }) = false :=
  meet (by decide +kernel)

theorem witness_drain_none : ∃ c, (site []).ctx .always = some c ∧ c.exec ≠ [] ∧
    ((site []).grp c).noneToken (tokList { c0 := some 15 }) = some 15 :=
  meet (by decide +kernel)

/-- A core with a dirty line in its data cache and in its die cache. -/
def dirtyCaches : State :=
  { site [] with coreCache := [(cacheKey 0 0 1, { data := 7, dirty := 1 })]
                 dieCache := [(cacheKey 0 0 1, { data := 9, dirty := 2 })] }

theorem witness_release : AMap.rising dirtyCaches.coreCache = true ∧ AMap.rising dirtyCaches.dieCache = true ∧
    1 ≤ serviceLevel .die ∧ serviceLevel .fabric = 2 ∧ keyUnit (cacheKey 0 0 1) = dieOf 0 ∧
    (AMap.find? dirtyCaches.coreCache (cacheKey 0 0 1)).isSome = true := by decide +kernel

/-- A poll: of two lanes that read zero, and of two that have their value. -/
theorem witness_poll_backs_off : ∃ c t ps, (site []).ctx .always = some c ∧
    Clear (site []) c { space := .g, base := .imm 0x10000 } (atLeastDevice .core) { n := 8 } isMside c.exec t ps ∧
    c.exec ≠ [] ∧ (∃ l ∈ c.exec, AMap.find? c.p.got (c.pos * 64 + l) = none) ∧
    (t.readLanes c 8 ps).1.all (fun e => leNat e.2 == 0) = true :=
  meetClear (lanes := Ctx.exec) (by decide +kernel)

theorem witness_poll_succeeds :
    ∃ c t ps, (withPath (site []) fun p => { p with got := [(0, 5), (1, 6)] }).ctx .always = some c ∧
    Clear (withPath (site []) fun p => { p with got := [(0, 5), (1, 6)] }) c { space := .g, base := .imm 0x10000 }
      (atLeastDevice .core) { n := 8 } isMside c.exec t ps ∧
    c.exec ≠ [] ∧ ∀ l ∈ c.exec, AMap.find? c.p.got (c.pos * 64 + l) ≠ none :=
  meetClear (lanes := Ctx.exec) (by decide +kernel)

/-- Tile 0 of the block: rows of 32 bytes in N8 at offset 0, in a state. -/
def addTile (s : State) (rows state cfg : Nat) : State :=
  { s with tiles := [(tileKey (2 ^ 36) 0 0, BitVec.ofNat 64 (state * 2 ^ 62 + cfg * 2 ^ 61 + 1 * 2 ^ 46)),
                     (tileKey (2 ^ 36) 0 1, BitVec.ofNat 64 (rows * 2 ^ 38 + 32 * 2 ^ 24 + 2 ^ 49))] }
def withTile (state cfg : Nat) : State := addTile (site []) 16 state cfg

theorem witness_ldt_waits : ∃ c, (withTile tileFilling 1).ctx .always = some c ∧ c.exec ≠ [] ∧
    ((withTile tileFilling 1).tile c.g.block 0).state ≠ tileReady :=
  meet (by decide +kernel)

theorem witness_ldt_reads : ∃ c, (withTile tileReady 1).ctx .always = some c ∧ c.exec ≠ [] ∧
    ((withTile tileReady 1).tile c.g.block 0).state = tileReady ∧
    (withTile tileReady 1).elementFault c ((withTile tileReady 1).tile c.g.block 0) 0 .n8 (.imm 15) (.imm 31) = none :=
  meet (by decide +kernel)

theorem witness_ldt_native : ∃ c, (inSlot (withTile tileReady 1)).ctx .always = some c ∧ c.exec ≠ [] ∧
    c.cur.slot.isSome = true ∧ c.p.sealed = false ∧ ((inSlot (withTile tileReady 1)).tile c.g.block 0).state = tileReady ∧
    (inSlot (withTile tileReady 1)).elementFault c ((inSlot (withTile tileReady 1)).tile c.g.block 0) 0 .n8 (.imm 0) (.imm 31)
      = none :=
  meet (by decide +kernel)

theorem witness_ldt_faults : ∃ c, (withTile tileReady 1).ctx .always = some c ∧ c.exec ≠ [] ∧
    ((withTile tileReady 1).tile c.g.block 0).state = tileReady ∧
    (withTile tileReady 1).elementFault c ((withTile tileReady 1).tile c.g.block 0) 0 .n8 (.imm 16) (.imm 0) ≠ none :=
  meet (by decide +kernel)

theorem witness_stt_busy : ∃ c, (withTile tileDraining 1).ctx .always = some c ∧ c.exec ≠ [] ∧
    ((withTile tileDraining 1).tile c.g.block 0).state = tileDraining :=
  meet (by decide +kernel)

theorem witness_stt_writes : ∃ c, (withTile tileEmpty 1).ctx .always = some c ∧ c.exec ≠ [] ∧
    ((withTile tileEmpty 1).tile c.g.block 0).state = tileEmpty ∧
    (withTile tileEmpty 1).elementFault c ((withTile tileEmpty 1).tile c.g.block 0) 0 .n8 (.imm 0) (.imm 0) = none :=
  meet (by decide +kernel)

theorem witness_stt_faults : ∃ c, (withTile tileEmpty 1).ctx .always = some c ∧ c.exec ≠ [] ∧
    ((withTile tileEmpty 1).tile c.g.block 0).state = tileEmpty ∧
    (withTile tileEmpty 1).elementFault c ((withTile tileEmpty 1).tile c.g.block 0) 0 .f32 (.imm 0) (.imm 0) ≠ none :=
  meet (by decide +kernel)

/-- The last element of the tile, and of a tile of bit planes. -/
theorem witness_tile_element : ∃ c, (withTile tileReady 1).ctx .always = some c ∧
    (let x := (withTile tileReady 1).tile c.g.block 0
     x.fmt ≤ 14 ∧ 15 < x.rows ∧ 31 < x.cols ∧ x.rowBytes ≤ x.pitch * 64 ∧ (x.fmt = 14 → x.cols % 32 = 0) ∧
       c.b.core < 1536 ∧ c.b.spadBase + x.base + x.rows * (x.pitch * 64) + 2048 ≤ 2 ^ 21) :=
  meet (by decide +kernel)

theorem witness_tile_element_planes :
    let x : Tile := { state := 2, cfg := true, bar := 0, slot := 0, sw := 0, fmt := 14, pitch := 1, rows := 16, cols := 32
                      base := 64 }
    0 < x.rows ∧ 0 < x.cols ∧ x.rowBytes ≤ x.pitch * 64 ∧ x.cols % 32 = 0 ∧
      0 + x.base + x.rows * (x.pitch * 64) + 2048 ≤ 2 ^ 21 := by decide

/-! Queues. -/

/-- The site with a queue of elements of 8 bytes whose control block stands at 0x10000, with some elements in it. -/
def queued (log2 flags owner count : Nat) : State :=
  let s := site []
  let t : State := { s with mem := putMem s.mem 0x10000 (freshBlock 0x11000 log2 flags 8 owner) }
  t.putCounts 0x10000 { t.queue 0x10000 with tail := count, free := 2 ^ log2 - count }

theorem meetHome {i : Instr} {s : State} {p : QueueInstr → Ctx → Nat → State → Prop} [∀ x c pa t, Decidable (p x c pa t)]
    (h : ((queueInstr i).any fun x => (s.ctx x.guard).any fun c =>
      match s.controlBlock c (s.u64 c true c.lead x.cb) with
      | .ok (pa, t) => decide (c.exec ≠ [] ∧ c.pos ∉ c.p.woken ∧ s.elemFaults c x.elem = [] ∧
          (x.full = true → t.remotePending c = false) ∧ p x c pa t)
      | .error _ => false) = true) :
    ∃ x c pa t, queueInstr i = some x ∧ s.ctx x.guard = some c ∧ c.exec ≠ [] ∧ c.pos ∉ c.p.woken ∧ AtHome s c x pa t ∧
      p x c pa t := by
  obtain ⟨x, hx, h⟩ := Option.any_eq_true .. |>.mp h
  obtain ⟨c, hc, h⟩ := Option.any_eq_true .. |>.mp h
  split at h
  · next pa t heq =>
    obtain ⟨h1, h2, h3, h4, h5⟩ := of_decide_eq_true h
    exact ⟨x, c, pa, t, hx, hc, h1, h2, ⟨heq, h3, h4⟩, h5⟩
  · cases h

/-- What the home would answer an operation of a path. -/
def answerAt (s t : State) (c : Ctx) (x : QueueInstr) (pa : Nat) : HomeAns :=
  (present t c x).homeTry pa (t.launchSpace c.l) c.party x.full c.exec.length (elemSize x.elem) x.block
    (presented s t c x pa)

def HomeAns.word : HomeAns → Nat
  | .fault _ _ => 0
  | .done _ _ => 1
  | .turned _ => 2
  | .lost _ => 3

theorem witness_queue_done : ∃ x c pa t, queueInstr (.deq .always .core (.imm 0x10000) (.reg (.v 5))) = some x ∧
    (queued 1 1 0 2).ctx x.guard = some c ∧ c.exec ≠ [] ∧ c.pos ∉ c.p.woken ∧ AtHome (queued 1 1 0 2) c x pa t ∧
    (defers (queued 1 1 0 2) t c x pa = false ∧ HomeAns.word (answerAt (queued 1 1 0 2) t c x pa) = 1) :=
  meetHome (by decide +kernel)

/-- An eager enqueue at a queue without room. -/
theorem witness_queue_turned : ∃ x c pa t, queueInstr (.enq .always .core (.imm 0x10000) (.reg (.v 5))) = some x ∧
    (queued 1 5 0 1).ctx x.guard = some c ∧ c.exec ≠ [] ∧ c.pos ∉ c.p.woken ∧ AtHome (queued 1 5 0 1) c x pa t ∧
    (defers (queued 1 5 0 1) t c x pa = false ∧ HomeAns.word (answerAt (queued 1 5 0 1) t c x pa) = 2) :=
  meetHome (by decide +kernel)

/-- A blocking dequeue at a queue that does not allow it. -/
theorem witness_queue_fault : ∃ x c pa t, queueInstr (.deq .always .core (.imm 0x10000) (.reg (.v 5))) = some x ∧
    (queued 1 0 0 2).ctx x.guard = some c ∧ c.exec ≠ [] ∧ c.pos ∉ c.p.woken ∧ AtHome (queued 1 0 0 2) c x pa t ∧
    (defers (queued 1 0 0 2) t c x pa = false ∧ HomeAns.word (answerAt (queued 1 0 0 2) t c x pa) = 0) :=
  meetHome (by decide +kernel)

/-- A queue whose control block an error has destroyed. -/
theorem witness_queue_lost : ∃ x c pa t, queueInstr (.deqtry .always .core 11 (.imm 0x10000) (.reg (.v 5))) = some x ∧
    ({ queued 1 1 0 2 with poison := [(0x400, 1)] } : State).ctx x.guard = some c ∧ c.exec ≠ [] ∧ c.pos ∉ c.p.woken ∧
    AtHome { queued 1 1 0 2 with poison := [(0x400, 1)] } c x pa t ∧
    (defers { queued 1 1 0 2 with poison := [(0x400, 1)] } t c x pa = false ∧
      HomeAns.word (answerAt { queued 1 1 0 2 with poison := [(0x400, 1)] } t c x pa) = 3) :=
  meetHome (by decide +kernel)

theorem witness_queue_deferred :
    ∃ x c pa t, queueInstr (.enqtry .always .core (.v 6) (.imm 0x10000) (.reg (.v 5))) = some x ∧
    (queued 1 0 0 2).ctx x.guard = some c ∧ c.exec ≠ [] ∧ c.pos ∉ c.p.woken ∧ AtHome (queued 1 0 0 2) c x pa t ∧
    (defers (queued 1 0 0 2) t c x pa = true ∧
      ((present t c x).homeSound pa (t.launchSpace c.l) c.party).isNone = true ∧
      ((present t c x).queue pa).countFault c.exec.length (elemSize x.elem) x.block = none) :=
  meetHome (by decide +kernel)

theorem witness_queue_woken :
    ∃ c, (withPath (queued 1 1 0 2) fun p => { p with woken := [0], reply := [leBytes 8 5, leBytes 8 6] }).ctx .always
      = some c ∧ c.exec ≠ [] ∧ c.pos ∈ c.p.woken ∧ c.p.replyFault = none :=
  meet (by decide +kernel)

theorem witness_queue_woken_by_fault :
    ∃ c, (withPath (queued 1 1 0 2) fun p => { p with woken := [0], replyFault := some (corruptFault 2) }).ctx .always
      = some c ∧ c.exec ≠ [] ∧ c.pos ∈ c.p.woken ∧ c.p.replyFault ≠ none :=
  meet (by decide +kernel)

/-- The space of the site's launch. -/
def siteSpace : Space2 := { satp := 9 * 2 ^ 60 + 0x30, hgatp := 0, attrs := [{ lo := 0x10000, hi := 0x20000, flags := 6 }] }

/-- The home's clauses: no right to the queue; a control block that fails its check; an element area outside the
attribute range; then an element size that is not the queue's, more elements than its capacity, a blocking form that it
does not allow; no room; and an operation that is performed. -/
theorem witness_home_refuses :
    (queued 1 1 5 0).homeAllows 0x10000 (.core 0 0 0) = false ∧ (queued 1 1 5 0).homeAllows 0x10000 (.device 0 5) = true ∧
    (site []).homeAllows 0x10000 (.agent 0) = true ∧ (site []).homeAllows 0x10000 (.agent 1) = false ∧
    (site []).corruption 0x10000 ≠ 0 ∧ ((site []).home 0x10000).corrupt = 0 ∧ (site []).poisoned 0 (0x10000 / 64) = false ∧
    ({ site [] with poison := [(0x400, 1)] } : State).poisoned 0 (0x10000 / 64) = true ∧
    (queued 1 1 0 0).corruption 0x10000 = 0 ∧ (areaFlags [] ((queued 1 1 0 0).queue 0x10000).base 16).toBool = false ∧
    16 ≠ ((queued 1 1 0 0).queue 0x10000).esize ∧ ((queued 1 1 0 0).queue 0x10000).cap < 3 ∧
    ((queued 1 0 0 0).queue 0x10000).blk = false := by decide +kernel

theorem witness_home_performs :
    let q := (queued 1 1 0 1).queue 0x10000
    (queued 1 1 0 1).homeAllows 0x10000 (.core 0 0 0) = true ∧ (queued 1 1 0 1).corruption 0x10000 = 0 ∧
    (queued 1 1 0 1).queueLost 0x10000 siteSpace true 1 = false ∧
    ({ queued 1 1 0 1 with poison := [(0x440, 1)] } : State).queueLost 0x10000 siteSpace false 1 = true ∧
    (areaFlags siteSpace.attrs q.base (q.cap * q.esize)).toBool = true ∧ 8 = q.esize ∧ 1 ≤ q.cap ∧ q.blk = true ∧
    q.free < 2 ∧ 1 ≤ q.free ∧ (∀ r ∈ ((queued 1 1 0 1).home 0x10000).wake ++ ((queued 1 1 0 1).home 0x10000).polling,
      r.full ≠ true) ∧
    ((queued 1 1 0 1).homePerform 0x10000 siteSpace true 1 [leBytes 8 7]).toBool = true := by decide +kernel

/-- An enqueue of two elements that wraps at the end of an area of two, and a dequeue of two. -/
theorem witness_fifo : ∀ full : Bool,
    let s := queued 1 1 0 (if full then 0 else 2)
    let q := s.queue 0x10000
    0x10000 % 64 = 0 ∧ isControlRow 0x10000 = false ∧ q.esize % 8 = 0 ∧ q.esize ≠ 0 ∧ q.free + 2 < 2 ^ 32 ∧
    (match s.partAddrs siteSpace ((span 0 2).flatMap fun j =>
        lineParts (q.base + ((if full then q.tail else q.head) + j) % q.cap * q.esize) q.esize) with
      | .ok (pas, t) =>
        let bytes : List Nat := pas.flatMap fun e => span e.1 e.2
        decide (t.memBytes 0x10000 64 = s.memBytes 0x10000 64 ∧ (bytes.map cellOf).Nodup ∧ bytes.length = 16 ∧
          (∀ e ∈ pas, e.1 % 64 + e.2 ≤ 64) ∧
          ∀ a ∈ bytes, isControlRow a = false ∧ ∀ i ∈ span 0 64, cellOf a ≠ cellOf (0x10000 + i))
      | .error _ => false) = true ∧ (full = true → 2 ≤ q.free) := by decide +kernel

theorem witness_fresh_queue : ∀ log2 ∈ [1, 20], 2 ^ 64 - 8 < 2 ^ 64 ∧ 1 ≤ log2 ∧ log2 ≤ 20 ∧ 15 < 16 ∧ 8 ≤ 256 ∧ 256 ≤ 256 ∧
    256 % 8 = 0 ∧ 2 ^ 32 - 1 < 2 ^ 32 := by decide

/-- The shape of a queue of 2 elements of 8 bytes (20 Table of QINIT). -/
def shape : Nat := 1 + 2 ^ 8 + 8 * 2 ^ 16

theorem witness_qinit : ∃ c, (site []).ctx .always = some c ∧ c.exec ≠ [] ∧
    (site []).qinitFault c 0x10000 0x11000 shape = none ∧
    (match (site []).controlBlock c 0x10000 (areaFlags c.l.attrs 0x11000 (2 ^ bitsOf shape 0 8 * bitsOf shape 16 16)) with
      | .ok (pa, t) => decide (t.remotePending c = false ∧
          (t.releaseCaches c.b.core (atLeastDevice .core)).corruption pa ≠ 0)
      | .error _ => false) = true :=
  meet (by decide +kernel)

/-- A queue that is sound and has no owner is initialised again. -/
theorem witness_qinit_again : ∃ c, (queued 1 1 0 1).ctx .always = some c ∧ c.exec ≠ [] ∧
    (queued 1 1 0 1).qinitFault c 0x10000 0x11000 shape = none ∧
    (match (queued 1 1 0 1).controlBlock c 0x10000 (areaFlags c.l.attrs 0x11000 16) with
      | .ok (pa, t) => decide (((t.releaseCaches c.b.core (atLeastDevice .core)).queue pa).owner = 0)
      | .error _ => false) = true :=
  meet (by decide +kernel)

theorem witness_qinit_faults : ∃ c, (site []).ctx .always = some c ∧ c.exec ≠ [] ∧
    (site []).qinitFault c 0x10000 0x11000 0 ≠ none :=
  meet (by decide +kernel)

theorem witness_qstat : ∃ c, (queued 1 1 0 1).ctx .always = some c ∧ c.exec ≠ [] ∧
    (match (queued 1 1 0 1).controlBlock c 0x10000 with
      | .ok (pa, t) => (t.homeSound pa (t.launchSpace c.l) c.party).isNone
      | .error _ => false) = true :=
  meet (by decide +kernel)

/-! Engines. -/

theorem witness_care : ∃ c, (site []).ctx .always = some c ∧ c.exec ≠ [] ∧
    (∃ x ∈ (site []).context c.l.vi c.l.ctx, (careChecks c x 0 (2 ^ 30)).findSome? id = none ∧
      (careChecks c x 0 0).findSome? id ≠ none) ∧ TokensReady c 15 {} := by
  unfold TokensReady; exact meet (by decide +kernel)

/-- The bytes of a command's block in the scratchpad, from offset 0. -/
def blockAt (s : State) (bs : List Byte) : State := { s with spad := putMem [] 0 bs }

/-- A COPY from memory to the own scratchpad, of its first 8 bytes; one whose operands overlap. -/
def copyArgs (n : Nat) (arr : Arrival) : CopyArgs :=
  { scope := .device, dstSpace := .l, srcSpace := .g, dst := .imm 0, src := .imm 0x20000, count := .imm n, arrival := arr }

theorem witness_copy : ∃ c, (site []).ctx .always = some c ∧ c.exec ≠ [] ∧ TokensReady c 15 {} ∧
    (let p := copyParams (site []) c (some (copyArgs 8 .none))
     let op := (site []).command c .copy .core p.1
     (copyChecks (site []) c p.1 p.2).findSome? id = none ∧
     ((site []).copyArrival c (field p.1 22 1) (field p.1 23 1) (cutTo op.dstSpace op.dst) p.2 op.dstSpace).toBool = true) := by
  unfold TokensReady; exact meet (by decide +kernel)

theorem witness_copy_to_barrier : ∃ c, (armed 0).ctx .always = some c ∧ c.exec ≠ [] ∧ TokensReady c 15 {} ∧
    (let p := copyParams (armed 0) c (some (copyArgs 8 (.bar 0 1)))
     let op := (armed 0).command c .copy .core p.1
     (copyChecks (armed 0) c p.1 p.2).findSome? id = none ∧
     ((armed 0).copyArrival c (field p.1 22 1) (field p.1 23 1) (cutTo op.dstSpace op.dst) p.2 op.dstSpace).toBool = true) := by
  unfold TokensReady; exact meet (by decide +kernel)

theorem witness_copy_faults : ∃ c, (site []).ctx .always = some c ∧ c.exec ≠ [] ∧ TokensReady c 15 {} ∧
    (let p := copyParams (site []) c (some (copyArgs 7 .none))
     (copyChecks (site []) c p.1 p.2).findSome? id ≠ none) := by
  unfold TokensReady; exact meet (by decide +kernel)

/-- The block of a TLOAD or a TSTORE of tile 0 at the tensor's origin. -/
def tensorBlock (flags : Nat) : List Byte := leBytes 3 0 ++ leBytes 1 flags ++ leBytes 60 4

theorem witness_tload : ∃ c, (addTile (blockAt (armed 0) (tensorBlock 0)) 2 tileEmpty 1).ctx .always = some c ∧ c.exec ≠ [] ∧
    TokensReady c 15 {} ∧
    (let s := { addTile (armed 0) 2 tileEmpty 1 with spad := putMem (armed 0).spad 0 (tensorBlock 0) }
     match s.paramBlock c 2 (some (.imm 0)), s.descriptor c 0 with
      | .ok bs, .ok ds => decide (field bs 0 2 = 0 ∧ field bs 2 1 = 0 ∧
          s.tensorFault c false 0 (tensorReq (bs ++ ds) (s.tile c.g.block 0)) = none ∧ tensorBad bs false false = false ∧
          (s.tile c.g.block 0).state ≠ tileFilling ∧ (s.tile c.g.block 0).state ≠ tileDraining ∧
          (s.tileLink c.b c.l (s.tile c.g.block 0)).toBool = true)
      | _, _ => false) = true := by
  unfold TokensReady; exact meet (by decide +kernel)

theorem witness_tstore : ∃ c, (addTile (blockAt (site []) (tensorBlock 3)) 2 tileReady 1).ctx .always = some c ∧ c.exec ≠ [] ∧
    TokensReady c 15 {} ∧
    (let s := addTile (blockAt (site []) (tensorBlock 3)) 2 tileReady 1
     match s.paramBlock c 2 (some (.imm 0)), s.descriptor c 0 with
      | .ok bs, .ok ds => decide (field bs 0 2 = 0 ∧ field bs 2 1 = 0 ∧
          s.tensorFault c true 0 (tensorReq (bs ++ ds) (s.tile c.g.block 0)) = none ∧ tensorBad bs true true = false ∧
          (s.tile c.g.block 0).state = tileReady)
      | _, _ => false) = true := by
  unfold TokensReady; exact meet (by decide +kernel)

/-- A REDUCE of two sources of 16 FP32 elements, by stride or by a table at 0x43000. -/
def reduceBlock (base stride table : Nat) : List Byte :=
  leBytes 8 base ++ leBytes 8 stride ++ leBytes 8 0x41000 ++ leBytes 4 16 ++ leBytes 1 2 ++ leBytes 1 0 ++ leBytes 1 table
    ++ leBytes 1 4 ++ leBytes 8 0x42000 ++ leBytes 8 1 ++ leBytes 16 0

theorem witness_reduce : ∃ c, (blockAt (site []) (reduceBlock 0x40000 64 0)).ctx .always = some c ∧ c.exec ≠ [] ∧
    TokensReady c 15 {} ∧
    (let s := blockAt (site []) (reduceBlock 0x40000 64 0)
     match s.paramBlock c 3 (some (.imm 0)) with
      | .ok bs => decide (reduceBad bs = false ∧ field bs 30 1 = 0 ∧ s.reduceFault c (s.command c .reduce .device
          (bs ++ (reduceSources s c bs).flatMap (leBytes 8))) = none)
      | .error _ => false) = true := by
  unfold TokensReady; exact meet (by decide +kernel)

/-- The table of sources of a REDUCE. -/
def tabled : State :=
  let s := blockAt (site []) (reduceBlock 0x43000 0 1)
  { s with mem := putMem s.mem 0x43000 (leBytes 8 0x40000 ++ leBytes 8 0x40040) }

theorem witness_reduce_table : ∃ c, tabled.ctx .always = some c ∧ c.exec ≠ [] ∧ TokensReady c 15 {} ∧
    (match tabled.paramBlock c 3 (some (.imm 0)) with
      | .ok bs => decide (reduceBad bs = false ∧ field bs 30 1 = 1 ∧ tabled.checkPages c false 0x43000 16 = none ∧
          attrFault c.l isFabric 0x43000 16 = none ∧ claimFault c.l false 0x43000 16 = none ∧
          (∀ k ∈ span 0 2, (tabled.writeBackRange c 0x43000 16).tableLost c (0x43000 + 8 * k) = false) ∧
          (let v := tabled.writeBackRange c 0x43000 16
           v.reduceFault c (v.command c .reduce .device (bs ++ (reduceSources v c bs).flatMap (leBytes 8))) = none))
      | .error _ => false) = true := by
  unfold TokensReady; exact meet (by decide +kernel)

theorem witness_rowop : ∃ c, (site []).ctx .always = some c ∧ c.exec ≠ [] ∧ TokensReady c 15 {} ∧
    (let b := (site []).rowBlock c .xor (some { dst := .imm 0x20000, srcA := some (.imm 0x20400), srcB := some (.imm 0x20800)
                                                count := .imm 1 })
     b.2 = none ∧ ∀ e ∈ rowOperands .xor b.1, e.2 % 1024 = 0 ∧ (site []).rowOperand c e.1 e.2 (field b.1 24 2) = none) := by
  unfold TokensReady; exact meet (by decide +kernel)

theorem witness_hand_over : (∃ c, (site []).ctx .always = some c ∧ 15 < 16) ∧ AMap.rising (site []).engines = true :=
  ⟨meet (by decide +kernel), by decide +kernel⟩

/-- An operation of the site's group. -/
def opOf (kind : EngineKind) (params : List Byte) : EngineOp :=
  { kind, launch := 1, block := 2 ^ 36, grp := 2 ^ 42, core := 0, vpc := 0, lanes := 3, token := 15, waits := []
    scope := .device, params }
def withOp (s : State) (op : EngineOp) : State := { s with engines := [(9, op)], next := 10 }

/-- An operation waits for another one, has started, and may start. -/
theorem witness_engine_waits :
    let op := { opOf .copy [] with waits := [9] }
    AMap.find? (withOp (site []) op).engines 9 = some op ∧ (AMap.find? (withOp (site []) op).launches 1).isSome = true ∧
      ∃ k ∈ op.waits, AMap.find? (withOp (site []) op).engines k ≠ none := by decide +kernel

theorem witness_engine_starts : ∀ kind ∈ [EngineKind.copy, .tload, .tstore, .reduce, .rowop, .trig, .flush, .inval],
    let op := opOf kind (leBytes 8 0x20000 ++ leBytes 8 64)
    let s := withOp (site []) op
    AMap.find? s.engines 9 = some op ∧ (AMap.find? s.launches 1).isSome = true ∧ op.started = false ∧ op.stall = none ∧
      (∀ k ∈ op.waits, AMap.find? s.engines k = none) ∧
      (s.context 0 0).any (fun x => (s.rangeLines op.core x.satp (s.iface 0).hgatp
        (pagesOf (field op.params 0 8) (field op.params 8 8))).toBool) = true := by decide +kernel

theorem meetOp {s : State} {key : Nat} {op : EngineOp} {p : Block → Launch → Prop} [∀ b l, Decidable (p b l)]
    (h : ((AMap.find? s.blocks op.block).any fun b => (AMap.find? s.launches op.launch).any fun l =>
      decide (AMap.find? s.engines key = some op ∧ op.started = true ∧ op.stall = none ∧ p b l)) = true) :
    ∃ b l, ActingOp s key op b l ∧ p b l := by
  obtain ⟨b, hb, h⟩ := Option.any_eq_true .. |>.mp h
  obtain ⟨l, hl, h⟩ := Option.any_eq_true .. |>.mp h
  obtain ⟨h1, h2, h3, h4⟩ := of_decide_eq_true h
  exact ⟨b, l, ⟨h1, h2, h3, hb, hl⟩, h4⟩

/-- Whether the units of an operand have their places, and what is asked of the machine after the translations. -/
def placedAt (s : State) (op : EngineOp) (b : Block) (l : Launch) (sp : Space) (n : Nat) (write : Bool) (as : List Nat)
    (k : State → Bool) : Bool :=
  match s.enginePlaces op b l sp n write as with
  | (.ok ps, t) => (write || ps.all fun p => !t.poisonedAt p) && k t
  | _ => false

theorem placedAt_placed {s : State} {op : EngineOp} {b : Block} {l : Launch} {sp : Space} {n : Nat} {write : Bool}
    {as : List Nat} {k : State → Bool} (h : placedAt s op b l sp n write as k = true) :
    ∃ ps t, Placed s op b l sp n write as ps t ∧ k t = true := by
  unfold placedAt at h
  split at h
  · next ps t heq =>
    obtain ⟨h1, h2⟩ := Bool.and_eq_true .. |>.mp h
    refine ⟨ps, t, ⟨heq, fun hw => ?_⟩, h2⟩
    subst hw
    simpa using h1
  · cases h

/-- A COPY of 8 bytes from memory to the scratchpad; another of the die has been served since. -/
def copyOp : EngineOp :=
  { opOf .copy (leBytes 8 0 ++ leBytes 8 0x20000 ++ leBytes 4 8 ++ leBytes 44 1) with started := true, todo := [0] }
def withTwo (op : EngineOp) : State :=
  { site [] with engines := [(9, op), (10, { op with served := 5 })], next := 11 }

theorem witness_shuttle_piece : ∃ b l, ActingOp (withTwo copyOp) 9 copyOp b l ∧ copyOp.kind = .copy ∧
    0 ∈ copyOp.todo ∧ pieceEnd copyOp.granules copyOp.count 0 = 8 ∧
    (∀ e ∈ (withTwo copyOp).engines, copyOp.served < e.2.served ∨ (copyOp.served = e.2.served ∧ 9 ≤ e.1)) ∧
    placedAt (withTwo copyOp) copyOp b l copyOp.srcSpace 8 false [copyOp.src] (fun t =>
      placedAt t copyOp b l copyOp.dstSpace 8 true [copyOp.dst] fun _ => true) = true :=
  meetOp (by decide +kernel)

def reduceOp : EngineOp :=
  { opOf .reduce (reduceBlock 0x40000 64 0 ++ leBytes 8 0x40000 ++ leBytes 8 0x40040) with started := true, todo := [0x41] }

theorem witness_batten_granule : ∃ b l, ActingOp (withOp (site []) reduceOp) 9 reduceOp b l ∧ reduceOp.kind = .reduce ∧
    0x41 ∈ reduceOp.todo ∧
    placedAt (withOp (site []) reduceOp) reduceOp b l .g 4 false (reduceOp.redSources.map fun a => a + 15 * 4) (fun t =>
      placedAt t reduceOp b l .g 4 true [reduceOp.redDst + 15 * 4] fun _ => true) = true :=
  meetOp (by decide +kernel)

def rowOp : EngineOp :=
  { opOf .rowop (leBytes 8 0x20000 ++ leBytes 8 0x20400 ++ leBytes 8 0x20800 ++ leBytes 2 1 ++ leBytes 38 6) with
    started := true, todo := [0] }

theorem witness_row : ∃ b l, ActingOp (withOp (site []) rowOp) 9 rowOp b l ∧ rowOp.kind = .rowop ∧ rowOp.todo = 0 :: [] ∧
    placedAt (withOp (site []) rowOp) rowOp b l .g 8 false
      ((span 0 (rowSources rowOp.rowKind)).map fun k => field rowOp.params (8 + 8 * k) 8 + 8 * 0) (fun t =>
        placedAt t rowOp b l .g 8 true [rowOp.dst + 8 * 0] fun _ => true) = true :=
  meetOp (by decide +kernel)

/-- The transfer of a tensor of 32 columns and a tile of 2 rows: an element in range, and one past the last column when
the origin is column 1. -/
def tensorPartOp (kind : EngineKind) (origin : Nat) : EngineOp :=
  { opOf kind (leBytes 8 0 ++ leBytes 4 origin ++ leBytes 52 0 ++ tensorBytes) with
    started := true, todo := [0, 0x41], tile := some 0 }

theorem witness_tensor_part : ∀ kind ∈ [EngineKind.tload, .tstore],
    ∃ b l, ActingOp (withOp (withTile tileFilling 1) (tensorPartOp kind 1)) 9 (tensorPartOp kind 1) b l ∧
      0x41 ∈ (tensorPartOp kind 1).todo ∧
      (let q := tensorReq (tensorPartOp kind 1).params ((withTile tileFilling 1).tile (2 ^ 36) 0)
       q.element 0 31 = none ∧ (q.element 0 0).any (fun i =>
         placedAt (withOp (withTile tileFilling 1) (tensorPartOp kind 1)) (tensorPartOp kind 1) b l .g 1 false
             ((q.tensor.elementBytes i).map fun x => x.1) (fun _ => true) &&
           placedAt (withOp (withTile tileFilling 1) (tensorPartOp kind 1)) (tensorPartOp kind 1) b l .g 1 true
             ((q.tensor.elementBytes i).map fun x => x.1) fun _ => true) = true) := by
  intro kind h
  rcases List.mem_pair.mp h with rfl | rfl
  · exact meetOp (by decide +kernel)
  · exact meetOp (by decide +kernel)

/-- The machine once BARARM has armed object 0 with one slot that expects some bytes. -/
def expecting (bytes : Nat) : State :=
  match exec (.bararm .always 0 (.imm 1) (.imm 0) (.imm bytes)) (site []) with
  | .next t => t
  | _ => site []

/-- Eight bytes have landed and not arrived. -/
def landedOp : EngineOp := { opOf .copy [] with started := true, link := some (0, 0), total := 8, landed := 8 }

theorem witness_bytes_arrive : ∃ b l, ActingOp (withOp (expecting 8) landedOp) 9 landedOp b l ∧
    landedOp.counted < landedOp.landed ∧
    ((withOp (expecting 8) landedOp).arriveBytes landedOp.block b l 0 0 (landedOp.landed - landedOp.counted)).isSome = true :=
  meetOp (by decide +kernel)

theorem witness_bytes_overrun : ∃ b l, ActingOp (withOp (expecting 4) landedOp) 9 landedOp b l ∧
    landedOp.counted < landedOp.landed ∧
    ((withOp (expecting 4) landedOp).slotAt b l 0 0).bytes < landedOp.landed - landedOp.counted :=
  meetOp (by decide +kernel)

/-- An operation with something left to do, and one that ends. -/
theorem witness_token_pends : ∃ b l, ActingOp (withOp (site []) copyOp) 9 copyOp b l ∧ copyOp.todo ≠ [] :=
  meetOp (by decide +kernel)

theorem witness_token_done : ∀ kind ∈ [EngineKind.copy, .tload, .flush, .inval, .trig],
    let op := { opOf kind [] with started := true }
    let s := withOp (site []) op
    AMap.find? s.engines 9 = some op ∧ op.stall = none ∧ (AMap.find? s.blocks op.block).isSome = true ∧
      (AMap.find? s.launches op.launch).isSome = true ∧ op.todo = [] ∧ op.link = none ∧ (∀ e ∈ s.remote, e.2.op ≠ some 9) ∧
      op.orphan = false ∧ (AMap.find? s.groups op.grp).isSome = true := by decide +kernel

/-! The matrix unit. -/

theorem some_any {α : Type} {o : Option α} {p : α → Prop} [DecidablePred p]
    (h : (o.any fun x => decide (p x)) = true) : ∃ x, o = some x ∧ p x := by
  obtain ⟨x, hx, hp⟩ := Option.any_eq_true .. |>.mp h
  exact ⟨x, hx, of_decide_eq_true hp⟩

theorem meetMatrix {i : Instr} {s : State} {p : MatrixOp → Ctx → Prop}
    (q : MatrixOp → Ctx → Bool) (hq : ∀ o c, q o c = true → p o c)
    (h : ((matrixOp i).any fun o => (s.ctx o.guard).any fun c => i.wf && q o c) = true) :
    ∃ o c, matrixOp i = some o ∧ i.wf = true ∧ s.ctx o.guard = some c ∧ p o c := by
  obtain ⟨o, ho, h⟩ := Option.any_eq_true .. |>.mp h
  obtain ⟨c, hc, h⟩ := Option.any_eq_true .. |>.mp h
  obtain ⟨h1, h2⟩ := Bool.and_eq_true .. |>.mp h
  exact ⟨o, c, ho, h1, hc, hq _ _ h2⟩

theorem witness_matrix_ready_to_take : ∃ o c, matrixOp (.accwr .always .f32 127 0) = some o ∧
    (Instr.accwr .always .f32 127 0).wf = true ∧ (site []).ctx o.guard = some c ∧ c.exec ≠ [] ∧
      o.awaits (site []) c = none ∧ o.early (site []) c = none :=
  meetMatrix (fun o c => decide (c.exec ≠ [] ∧ o.awaits (site []) c = none ∧ o.early (site []) c = none))
    (fun _ _ h => of_decide_eq_true h) (by decide +kernel)

theorem witness_latch_waits : ∃ o c, matrixOp (.latch .always .i8 0 (.imm 0) (.imm 0) 7 0) = some o ∧
    (Instr.latch .always .i8 0 (.imm 0) (.imm 0) 7 0).wf = true ∧ (withTile tileFilling 1).ctx o.guard = some c ∧
      c.exec ≠ [] ∧ o.awaits (withTile tileFilling 1) c = some (.tile 0) :=
  meetMatrix (fun o c => decide (c.exec ≠ [] ∧ o.awaits (withTile tileFilling 1) c = some (.tile 0)))
    (fun _ _ h => of_decide_eq_true h) (by decide +kernel)

/-- A path inside a matrix run of two instructions. -/
def inRun (s : State) : State := withPath s fun p => { p with run := 2 }

theorem witness_latch_early : ∃ o c, matrixOp (.latch .always .i8 0 (.imm 0) (.imm 0) 7 0) = some o ∧
    (Instr.latch .always .i8 0 (.imm 0) (.imm 0) 7 0).wf = true ∧ (inRun (withTile tileFilling 1)).ctx o.guard = some c ∧
      c.exec ≠ [] ∧ o.awaits (inRun (withTile tileFilling 1)) c = none ∧ o.early (inRun (withTile tileFilling 1)) c ≠ none :=
  meetMatrix (fun o c => decide (c.exec ≠ [] ∧ o.awaits (inRun (withTile tileFilling 1)) c = none ∧
    o.early (inRun (withTile tileFilling 1)) c ≠ none)) (fun _ _ h => of_decide_eq_true h) (by decide +kernel)

/-- Another group owns the unit. -/
def ownedUnit : State := (site []).setCoreRegs 0 { owner := some 5 }

theorem witness_matrix_unit_owned : ∃ c, ownedUnit.ctx .always = some c ∧ c.exec ≠ [] ∧ unitFree ownedUnit c = false :=
  meet (by decide +kernel)

theorem witness_matrix_acts : ∃ o c, matrixOp (.mma .always .e4m3 .e5m2 0 0 false 127 1 7) = some o ∧
    (Instr.mma .always .e4m3 .e5m2 0 0 false 127 1 7).wf = true ∧ (site []).ctx o.guard = some c ∧ c.exec ≠ [] ∧
      unitFree (site []) c = true ∧ o.awaits (site []) c = none ∧ o.early (site []) c = none ∧
      o.ready (taken (site []) c) c = true ∧ o.fault (site []) c = none :=
  meetMatrix (fun o c => decide (c.exec ≠ [] ∧ unitFree (site []) c = true ∧ o.awaits (site []) c = none ∧
      o.early (site []) c = none ∧ o.ready (taken (site []) c) c = true ∧ o.fault (site []) c = none))
    (fun _ _ h => of_decide_eq_true h) (by decide +kernel)

theorem witness_matrix_faults : ∃ o c, matrixOp (.accrd .always .f32 false .rne 0 0) = some o ∧
    (Instr.accrd .always .f32 false .rne 0 0).wf = true ∧ (withTile tileReady 1).ctx o.guard = some c ∧ c.exec ≠ [] ∧
      unitFree (withTile tileReady 1) c = true ∧ o.awaits (withTile tileReady 1) c = none ∧
      o.early (withTile tileReady 1) c = none ∧ o.ready (taken (withTile tileReady 1) c) c = true ∧
      o.fault (withTile tileReady 1) c ≠ none :=
  meetMatrix (fun o c => decide (c.exec ≠ [] ∧ unitFree (withTile tileReady 1) c = true ∧
      o.awaits (withTile tileReady 1) c = none ∧ o.early (withTile tileReady 1) c = none ∧
      o.ready (taken (withTile tileReady 1) c) c = true ∧ o.fault (withTile tileReady 1) c ≠ none))
    (fun _ _ h => of_decide_eq_true h) (by decide +kernel)

/-- A gather latch that is still being filled holds an MMA. -/
def fillingUnit : State := (site []).setCoreRegs 0 { filling := [[], [4]] }

theorem witness_matrix_latch_filling : ∃ o c, matrixOp (.mma .always .i8 .i8 0 0 true 0 1 0) = some o ∧
    (Instr.mma .always .i8 .i8 0 0 true 0 1 0).wf = true ∧ fillingUnit.ctx o.guard = some c ∧ c.exec ≠ [] ∧
      unitFree fillingUnit c = true ∧ o.awaits fillingUnit c = none ∧ o.early fillingUnit c = none ∧
      o.ready (taken fillingUnit c) c = false :=
  meetMatrix (fun o c => decide (c.exec ≠ [] ∧ unitFree fillingUnit c = true ∧ o.awaits fillingUnit c = none ∧
      o.early fillingUnit c = none ∧ o.ready (taken fillingUnit c) c = false))
    (fun _ _ h => of_decide_eq_true h) (by decide +kernel)

theorem witness_matrix_none_executes : ∃ o c, matrixOp (.accclr (.pred 0 false) true 63 1) = some o ∧
    (Instr.accclr (.pred 0 false) true 63 1).wf = true ∧ (site []).ctx o.guard = some c ∧ c.exec = [] ∧
      unitFree (site []) c = true :=
  meetMatrix (fun o c => decide (c.exec = [] ∧ unitFree (site []) c = true)) (fun _ _ h => of_decide_eq_true h)
    (by decide +kernel)

theorem witness_integer_mma : intPair .i8 = true ∧ intPair .bpi = true ∧ 1 ≤ 8 ∧ 8 ≤ 8 ∧ 2 ^ 32 - 1 < 2 ^ 32 := by decide

/-! The sequencers. -/

theorem witness_rotation : ∃ e, sequencerEvent (.pathRotation (2 ^ 42)) = some e ∧
    e.due (withPath (site []) fun p => { p with turn := 64 }) := by
  refine ⟨_, rfl, ?_⟩
  obtain ⟨g, hg, i, p, h⟩ : ∃ g, AMap.find? (withPath (site []) fun p => { p with turn := 64 }).groups (2 ^ 42) = some g ∧
      g.issuingIndex = some 0 ∧ ∃ p ∈ g.paths[0]?, 64 ≤ p.turn ∧
        g.nextEntry ((withPath (site []) fun p => { p with turn := 64 }).selectable g) (p.entry.getD 0) ≠ none :=
    some_any (by decide +kernel)
  exact ⟨g, hg, .inr ⟨0, p, i, h.1, .inl h.2.1, h.2.2⟩⟩

/-- The path waits at a blocking point and another of its group does not: the group leaves it. -/
def splitGroup : State := (site []).updGroup (2 ^ 42) fun g =>
  { g with paths := [{ entry := some 0, since := 1, mask := 1, wait := .sync }, { entry := some 1, since := 2, pc := 8, mask := 2 }]
           issuing := some 0 }

theorem witness_rotation_from_waiting : ∃ e, sequencerEvent (.pathRotation (2 ^ 42)) = some e ∧ e.due splitGroup := by
  refine ⟨_, rfl, ?_⟩
  obtain ⟨g, hg, i, p, h⟩ : ∃ g, AMap.find? splitGroup.groups (2 ^ 42) = some g ∧ g.issuingIndex = some 0 ∧
      ∃ p ∈ g.paths[0]?, splitGroup.selectable g p = false ∧ g.nextEntry (splitGroup.selectable g) (p.entry.getD 0) ≠ none :=
    some_any (by decide +kernel)
  exact ⟨g, hg, .inr ⟨0, p, i, h.1, .inr h.2.1, h.2.2⟩⟩

theorem witness_rotation_to_ready : ∃ e, sequencerEvent (.pathRotation (2 ^ 42)) = some e ∧
    e.due ((site []).updGroup (2 ^ 42) fun g => { g with issuing := none }) := by
  refine ⟨_, rfl, ?_⟩
  obtain ⟨g, hg, h⟩ : ∃ g, AMap.find? ((site []).updGroup (2 ^ 42) fun g => { g with issuing := none }).groups (2 ^ 42) =
      some g ∧ g.issuingIndex = none ∧ ∃ p ∈ g.paths, p.entry ≠ none ∧
        ((site []).updGroup (2 ^ 42) fun g => { g with issuing := none }).selectable g p = true :=
    some_any (by decide +kernel)
  exact ⟨g, hg, .inl h⟩

theorem witness_gather_complete : ∃ e, sequencerEvent (.gatherComplete 0 1) = some e ∧
    e.due { fillingUnit with cycle := 4 } := ⟨_, rfl, 4, [], by decide +kernel⟩

/-- A full bobbin; one that is old; one of a block whose groups all stand at blocking points. -/
def bobbined (s : State) (n : Nat) (cycle : Nat) : State :=
  { s with bobbins := [(63, { block := 2 ^ 36, pc := 0, threads := span 0 n, born := 0, limit := 256 })], cycle }

theorem witness_bobbin_draw : ∀ s ∈ [bobbined (site []) 64 0, bobbined (site []) 1 256,
      bobbined (withPath (site []) fun p => { p with wait := .sync }) 1 0],
    (AMap.find? s.bobbins 63).any (fun x => x.threads.length == 64 || decide (x.born + x.limit ≤ s.cycle)
      || s.groups.all fun e => e.2.block != x.block || e.2.paths.all fun p => p.wait.blocking) = true := by decide +kernel

theorem witness_bobbin_stays : (AMap.find? (bobbined (site []) 63 255).bobbins 63).any (fun x => x.threads.length != 64
      && decide ((bobbined (site []) 63 255).cycle < x.born + x.limit)
      && (bobbined (site []) 63 255).groups.any fun e => e.2.block == x.block && e.2.paths.any fun p => !p.wait.blocking)
    = true := by decide +kernel

theorem witness_result_arrival : ∃ e, sequencerEvent (.resultArrival (2 ^ 42) 0) = some e ∧ e.due (site []) := by
  refine ⟨_, rfl, ?_⟩
  obtain ⟨g, hg, p, hp, h⟩ : ∃ g, AMap.find? (site []).groups (2 ^ 42) = some g ∧ ∃ p ∈ g.paths[0]?, p.sealed = false :=
    some_any (by decide +kernel)
  exact ⟨g, p, ⟨hg, hp⟩, h⟩

theorem witness_power_withhold : (1535 : Nat) ∉ (site []).withheld := by decide +kernel

/-- A group that may issue, one passed over for 1,024 cycles, and none. -/
theorem witness_choice :
    (ableGroups (site []) 0).length = 1 ∧
    ((ableGroups ((site []).updGroup (2 ^ 42) fun g => { g with passed := 1024 }) 0).filter
      fun e => decide (1024 ≤ e.2.passed)).length = 1 ∧ ableGroups (site []) 1535 = [] ∧
    (ableGroups (readied (site []) 0) 0).length = 1 ∧
    ((ableGroups (readied ((site []).updGroup (2 ^ 42) fun g => { g with passed := 1024 }) 0) 0).filter
      fun e => decide (1024 ≤ e.2.passed)).length = 1 ∧ ableGroups (readied (site []) 1535) 1535 = [] ∧
    AMap.rising (site []).groups = true ∧ (AMap.find? (site []).groups (2 ^ 42)).any (fun g => !(site []).rotates g)
      = true := by decide +kernel

/-- The path waits for a load from a peer, for a held window, for its back-off. -/
def waiting (w : Wait) : State := withPath (site []) fun p => { p with wait := w }

theorem meetPath {s : State} {gk i : Nat} {q : Group → Path → Prop} [∀ g p, Decidable (q g p)]
    (h : ((AMap.find? s.groups gk).any fun g => (g.paths[i]?).any fun p => decide (q g p)) = true) :
    ∃ g p, PathAt s gk i g p ∧ q g p := by
  obtain ⟨g, hg, h⟩ := Option.any_eq_true .. |>.mp h
  obtain ⟨p, hp, h⟩ := Option.any_eq_true .. |>.mp h
  exact ⟨g, p, ⟨hg, hp⟩, of_decide_eq_true h⟩

theorem witness_remote_load : ∃ g p, PathAt (waiting (.remote 7)) (2 ^ 42) 0 g p ∧ p.wait = .remote 7 :=
  meetPath (by decide +kernel)

theorem witness_held_load : ∃ g p, PathAt (waiting (.window 0)) (2 ^ 42) 0 g p ∧ p.wait = .window 0 ∧
    ∃ b ∈ AMap.find? (waiting (.window 0)).blocks g.block, ∃ l ∈ AMap.find? (waiting (.window 0)).launches b.launch,
      AMap.find? (waiting (.window 0)).blocks (blockKey l (grantAt ((waiting (.window 0)).imageBytes l) 0).stage
        (grantAt ((waiting (.window 0)).imageBytes l) 0).block) = none :=
  meetPath (by decide +kernel)

theorem witness_held_load_resumes :
    let s := withBlock 1
    ∃ y ∈ AMap.find? s.blocks (2 ^ 36 + 1), y.st ≠ .retired ∧ y.onCore = true ∧ y.moving = none ∧
      ∃ l ∈ AMap.find? s.launches 1, blockKey l (grantAt (s.imageBytes l) 0).stage (grantAt (s.imageBytes l) 0).block
        = 2 ^ 36 + 1 := by decide +kernel

theorem witness_backoff : ∃ g p, PathAt (waiting (.backoff 128)) (2 ^ 42) 0 g p ∧ p.wait = .backoff 128 :=
  meetPath (by decide +kernel)

theorem witness_page_walk : (AMap.find? (site []).launches 1).any (fun l => ((site []).context l.vi l.ctx).any fun x =>
    canonical x.satp (2 ^ 30 - 1) && !(site []).walkLost x.satp ((site []).iface l.vi).hgatp (2 ^ 30 - 1)
      && ((site []).walkAndFill 0 x.satp ((site []).iface l.vi).hgatp (2 ^ 30 - 1) true).toBool)
      = true := by decide +kernel

/-- A store to a peer, a held window store whose target does not stand, stands, has retired. -/
theorem witness_access_under_way : ∃ r ∈ AMap.find? storing.remote 7, r.load = false ∧ r.window = false ∧
    ∃ b ∈ AMap.find? storing.blocks r.block, (AMap.find? storing.launches b.launch).isSome = true := by decide +kernel

theorem witness_access_timeout : storing.cycle < 0 + 210000 ∧ 0 + 210000 ≤ { storing with cycle := 210000 }.cycle := by
  decide +kernel

def heldStore (s : State) : State :=
  { s with remote := [(7, { grp := 2 ^ 42, gid := 0, block := 2 ^ 36, core := 0, issued := 0, load := false, window := true
                            addr := 8, sw := 0, data := [1, 2, 3, 4, 5, 6, 7, 8], vpc := 0, lanes := 1 })] }

/-- How a held store resolves: 0 it is held, 1 its target stands, 2 it faults. -/
def heldAnswer (s : State) : Option Nat :=
  (AMap.find? s.launches 1).map fun l =>
    if s.windowHeld l 0 then 0
    else match s.resolveW l 0 8 { n := 8, write := true } with
      | .ok _ => 1
      | _ => 2

theorem witness_held_store : heldAnswer (heldStore (site [])) = some 0 ∧ heldAnswer (heldStore (withBlock 1)) = some 1 ∧
    heldAnswer (heldStore ((withBlock 1).updBlock (2 ^ 36 + 1) fun b => { b with st := .retired })) = some 2 := by
  decide +kernel

/-! Region commits. -/

/-- The group owns the matrix unit and is in a run. -/
def committing (filling : List (List Nat)) : State := (inRun (site [])).setCoreRegs 0 { owner := some (2 ^ 42), filling }

theorem witness_commit_waits : ∃ c, (committing [[], [4]]).ctx .always = some c ∧
    ((committing [[], [4]]).coreRegs c.b.core).owner = some c.cur.grp ∧ c.p.run ≠ 0 ∧
    (committing [[], [4]]).regionEnds c.b c.l c.p = true ∧ c.p.wait.blocking = false ∧ c.p.wait ≠ .fault ∧ c.p.mask ≠ 0 ∧
    ∃ l ∈ ((committing [[], [4]]).coreRegs c.b.core).filling, l ≠ [] :=
  meet (by decide +kernel)

theorem witness_commit_ends : ∃ c, (committing [[], []]).ctx .always = some c ∧
    ((committing [[], []]).coreRegs c.b.core).owner = some c.cur.grp ∧ c.p.run ≠ 0 ∧
    (committing [[], []]).regionEnds c.b c.l c.p = true ∧ c.p.wait.blocking = false ∧ c.p.wait ≠ .fault ∧ c.p.mask ≠ 0 ∧
    (∀ l ∈ ((committing [[], []]).coreRegs c.b.core).filling, l = []) ∧ c.p.held = [] ∧
    (∀ e ∈ (committing [[], []]).blocks, e.1 = c.g.block → e.2.st ≠ .frozen) ∧ c.p.inflight = [] ∧
    (committing [[], []]).accOld = [] ∧ (committing [[], []]).ptOld = [] ∧ (committing [[], []]).latchOld = [] ∧
    ∀ j ∈ span 0 c.g.paths.length, (c.g.paths[j]?).any (fun q => q.run != 0 || q.pc == c.p.pc) = true → j = c.cur.path :=
  meet (by decide +kernel)

theorem witness_commit_gathers : ∃ c, (committing [[], []]).ctx .always = some c ∧
    ∀ e ∈ (committing [[], []]).blocks, e.1 = c.g.block → e.2.fault = none :=
  meet (by decide +kernel)

/-- Tile 0 takes an accumulator tile in FP32: 16 rows of 32 elements, 2 lines a row, linked to object 0. -/
def accTarget : State :=
  { expecting 2048 with
    tiles := [(tileKey (2 ^ 36) 0 0, BitVec.ofNat 64 (2 ^ 61 + ETy.code .f32 * 2 ^ 46)),
              (tileKey (2 ^ 36) 0 1, BitVec.ofNat 64 (16 * 2 ^ 38 + 32 * 2 ^ 24 + 2 * 2 ^ 49))] }

theorem witness_commit_accrd : ∃ c, accTarget.ctx .always = some c ∧ PageInScratch accTarget c.b c.l ∧ Rounding.rne ≠ .rs ∧
    (let x := accTarget.tile c.g.block 0
     x.state ≠ tileFilling ∧ x.state ≠ tileDraining ∧ (accTarget.tileLink c.b c.l x).toBool = true ∧
       x.fmt = ETy.code .f32 ∧ x.rows = 16 ∧ x.cols = 32 ∧ x.rowBytes ≤ x.pitch * 64 ∧
       c.b.spadBase + x.base + 16 * (x.pitch * 64) + 2048 ≤ 2 ^ 21) := by
  unfold PageInScratch; exact meet (by decide +kernel)

/-! Placement. -/

/-- The stage has core 0 and core 1; it has placed some of its 8 blocks. -/
def placing (next : Nat) (cores : List Nat) (quad : Nat) : State :=
  let s := site []
  { s with
    images := [(1, { vi := 0, addr := 0, digest := [], bytes := testImage 0 quad })]
    launches := AMap.upd s.launches 1 fun l => { l with stages := [{ cores, nextPending := next }, { cores := [9], nextPending := 8 }] } }

/-- What the placer finds: it issues, it lacks no cores, its first evicted block and whether its stage is a quad's. -/
def placer (s : State) : Option (Option Nat × Bool) :=
  (AMap.find? s.launches 1).bind fun l =>
    if l.issues && !l.descheduled && !s.lacksCores l then
      some ((s.evictedOf l 0).head?, (stageAt (s.imageBytes l) 0).quad)
    else none

theorem witness_placer_idle : placer (placing 8 [0] 0) = some (none, false) ∧
    (AMap.find? (placing 8 [0] 0).launches 1).any (fun l => decide ((stageAt ((placing 8 [0] 0).imageBytes l) 0).blocks ≤ 8))
      = true := by decide +kernel

theorem witness_placer_places : placer (placing 1 [0, 1] 0) = some (none, false) ∧
    (AMap.find? (placing 1 [0, 1] 0).launches 1).any (fun l => let x := stageAt ((placing 1 [0, 1] 0).imageBytes l) 0
      decide (1 < x.blocks) && ((placing 1 [0, 1] 0).fits 0 x).isSome) = true ∧
    [0, 1].Pairwise (fun c d => c < d) ∧ ∀ c ∈ [0, 1], ¬ (0 ≤ c ∧ c < 0) := by decide +kernel

/-- Blocks of 2 MiB, and a block on each of the cores: no core can take the next one. -/
def crowded : State :=
  let s := placing 1 [0] 0
  { s with images := [(1, { vi := 0, addr := 0, digest := []
                            bytes := imageOf 0 [(1, 0, (stageEntry 0).set 30 21 ++ stageEntry 0), (6, 0, [])] })] }

theorem witness_placer_no_core : (AMap.find? crowded.launches 1).any (fun l =>
    l.issues && !l.descheduled && crowded.lacksCores l) = true ∧
    (AMap.find? (crowded.resumeLaunch 1).launches 1).any (fun l =>
      l.issues && ((crowded.fits 0 (stageAt (crowded.imageBytes l) 0)).isNone)) = true := by decide +kernel

/-- An evicted quad, of which block 2 has retired. -/
def quadEvicted : State :=
  let s := placing 4 [4, 5, 6, 7] 1
  { s with
    blocks := (span 0 4).map fun i =>
      (2 ^ 36 + i, { launch := 1, stage := 0, linear := i, st := if i = 2 then .retired else .evicted })
    groups := [], threads := [], cur := none }

theorem witness_placer_evicted_quad : placer quadEvicted = some (some 0, true) ∧
    (AMap.find? quadEvicted.launches 1).any (fun l =>
      (l.stages[0]?).any (fun r => quadEvicted.clusterFor r (stageAt (quadEvicted.imageBytes l) 0) == some 1)
        && quadEvicted.retiredAt l 0 2 && !quadEvicted.retiredAt l 0 3) = true ∧
    ∀ e ∈ quadEvicted.blocks, e.2.onCore = false := by decide +kernel

/-- Blocks of 1 MiB: two blocks of 16 KiB, one in each half of the scratchpad of core 0, leave none of it. -/
def fragmented : State :=
  let s := site []
  let b (linear spadBase regBase accBase : Nat) : Block :=
    { launch := 1, stage := 1, linear, st := .resident, spadBase, regBase, accBase }
  { s with
    images := [(1, { vi := 0, addr := 0, digest := []
                     bytes := imageOf 0 [(1, 0, (stageEntry 0).set 30 20 ++ stageEntry 0), (6, 0, [])] })]
    launches := AMap.upd s.launches 1 fun l => { l with stages := [{ cores := [0] }, { cores := [0] }] }
    blocks := [(2 ^ 36 + 2 ^ 32, b 0 0 0 0), (2 ^ 36 + 2 ^ 32 + 1, b 1 (2 ^ 20) 128 4)]
    groups := [], threads := [], cur := none }

/-- No core has room and none of its blocks is moving: the cost of compaction and its first move. -/
def compacts (s : State) : Option (Option Nat × Option (Nat × (Nat × Nat × Nat))) :=
  (AMap.find? s.launches 1).bind fun l => (l.stages[0]?).bind fun r =>
    let x := stageAt (s.imageBytes l) 0
    if (s.fits 0 x).isNone && l.issues && !l.descheduled && (s.movingOn (r.cores ++ r.leaving)).isNone
        && (s.nextBlock l 0 r).isSome && !x.quad then
      some (s.compactCost x 0, (s.compaction 0 x).bind fun p => s.firstMove 0 p.1 p.2.1 p.2.2.1)
    else none

theorem witness_placer_compacts : (compacts fragmented).any (fun p => p.1.isSome && p.2.isSome) = true ∧
    AMap.rising fragmented.blocks = true := by decide +kernel

/-- A block of the site is being moved to new bases. -/
def beingMoved : State := (placing 1 [0] 0).updBlock (2 ^ 36) fun b => { b with moving := some (2 ^ 20, 128, 4) }

theorem witness_placer_moves : (AMap.find? beingMoved.launches 1).any (fun l => (l.stages[0]?).any fun r =>
    (beingMoved.movingOn (r.cores ++ r.leaving)).any fun m => m.1 == 2 ^ 36 && m.2.1.moving == some (2 ^ 20, 128, 4)
      && decide (m.2.1.regBase + m.2.2.regRange ≤ 1536 ∧ 128 + m.2.2.regRange ≤ 1536)) = true ∧
    AMap.rising beingMoved.blocks = true ∧ Cells.wf beingMoved.spad = true ∧ Cells.wf beingMoved.acc = true ∧
    Cells.wf beingMoved.cregs = true := by decide +kernel

theorem witness_compactor_unneeded : (AMap.find? (placing 1 [0] 0).launches 1).any (fun l => (l.stages[0]?).any fun r =>
    let s := placing 1 [0] 0
    (s.movingOn (r.cores ++ r.leaving)).isNone && (s.nextBlock l 0 r).isSome
      && (s.fits 0 (stageAt (s.imageBytes l) 0)).isSome) = true := by decide +kernel

theorem witness_placer_quad : placer (placing 0 [4, 5, 6, 7] 1) = some (none, true) ∧
    (AMap.find? (placing 0 [4, 5, 6, 7] 1).launches 1).any (fun l => (l.stages[0]?).any fun r =>
      (placing 0 [4, 5, 6, 7] 1).clusterFor r (stageAt ((placing 0 [4, 5, 6, 7] 1).imageBytes l) 0) == some 1) = true := by
  decide +kernel

theorem witness_fits : ((site []).fits 0 (stageAt (testImage 0 0) 0)).isSome = true := by decide +kernel

theorem witness_new_block : 1535 < 1536 := by decide

/-! Blocks and deliveries. -/

/-- A marked block whose path waits at the block barrier. -/
def evicting : State := (waiting .sync).updBlock (2 ^ 36) fun b => { b with evict := true }

theorem witness_block_evict : ∃ e, blockEvent (.blockEvict (2 ^ 36)) = some e ∧ e.due evicting := by
  refine ⟨_, rfl, ?_⟩
  obtain ⟨b, hb, h1, h2, h3, h4, l, hl, h5⟩ : ∃ b, AMap.find? evicting.blocks (2 ^ 36) = some b ∧ (b.evict = true ∧
      b.onCore = true ∧ b.moving = none ∧ evicting.quadOf (2 ^ 36) b = [2 ^ 36] ∧
        ∃ l ∈ AMap.find? evicting.launches b.launch, l.st ≠ .aborting) := some_any (by decide +kernel)
  refine ⟨b, hb, h1, h2, fun m hm => ?_, fun k hk x hx => ?_⟩
  · obtain rfl : l = m := Option.some.inj (hl.symm.trans hm)
    exact h5
  · rw [h4] at hk
    obtain rfl := List.mem_singleton.mp hk
    obtain rfl : b = x := Option.some.inj (hb.symm.trans hx)
    refine ⟨by decide +kernel, h3, .inr fun g hg _ => ?_⟩
    have : ∀ g ∈ evicting.groups, ∀ n, g.2.atBlocking n = true := by decide +kernel
    exact this g hg _

/-- A block whose threads have ended. -/
def ended : State := { site [] with groups := [], threads := [], cur := none }

theorem witness_block_retire : ∃ e, blockEvent (.blockRetire (2 ^ 36)) = some e ∧ e.due ended := by
  refine ⟨_, rfl, ?_⟩
  obtain ⟨b, hb, h⟩ : ∃ b, AMap.find? ended.blocks (2 ^ 36) = some b ∧ b.st = .resident ∧
      ∃ l ∈ AMap.find? ended.launches b.launch, True := some_any (by decide +kernel)
  obtain ⟨l, hl, _⟩ := h.2
  exact ⟨b, l, hb, hl, h.1, by decide +kernel, by decide +kernel⟩

/-- A block asked to stop, on a core and frozen. -/
def stopping (st : BlockState) : State := (site []).updBlock (2 ^ 36) fun b => { b with stop := some { cause := 1 }, st }

theorem witness_block_halt : ∀ st ∈ [BlockState.resident, .frozen],
    ∃ e, blockEvent (.blockHalt (2 ^ 36)) = some e ∧ e.due (stopping st) := by
  intro st hst
  refine ⟨_, rfl, ?_⟩
  rcases List.mem_pair.mp hst with rfl | rfl
  · obtain ⟨b, hb, h⟩ : ∃ b, AMap.find? (stopping .resident).blocks (2 ^ 36) = some b ∧ b.st = .resident ∧
        (stopping .resident).atBoundary (2 ^ 36) b = true ∧ (∃ l ∈ AMap.find? (stopping .resident).launches b.launch, True) ∧
        ∃ r ∈ b.stop, True := some_any (by decide +kernel)
    obtain ⟨h1, h2, ⟨l, hl, _⟩, r, hr, _⟩ := h
    exact ⟨b, l, r, hb, hl, hr, .inl ⟨h1, h2⟩⟩
  · obtain ⟨b, hb, h⟩ : ∃ b, AMap.find? (stopping .frozen).blocks (2 ^ 36) = some b ∧ b.st = .frozen ∧
        (∃ l ∈ AMap.find? (stopping .frozen).launches b.launch, True) ∧
        ∃ r ∈ b.stop, True := some_any (by decide +kernel)
    obtain ⟨h1, ⟨l, hl, _⟩, r, hr, _⟩ := h
    exact ⟨b, l, r, hb, hl, hr, .inr h1⟩

theorem witness_block_saved : (AMap.find? (site []).blocks (2 ^ 36)).any (fun b =>
    (AMap.find? (site []).launches b.launch).isSome
      && (AMap.find? ((((site []).withdrawBlock (2 ^ 36)).rollWaiting (2 ^ 36)).releaseCaches b.core .device).blocks
        (2 ^ 36)).isSome) = true := by decide +kernel

/-- The site with a queue of records of 64 bytes at 0x10000, with its head and some elements. -/
def recordQueue (log2 flags owner head count : Nat) : State :=
  let s := site []
  let t : State := { s with mem := putMem s.mem 0x10000 (freshBlock 0x11000 log2 flags 64 owner) }
  t.putCounts 0x10000 { t.queue 0x10000 with head, tail := head + count, free := 2 ^ log2 - count }

/-- A record that is due to the queue at an address. -/
def due (cb : Nat) : Delivery := { vi := 0, ctx := 0, cb, launch := 1, attempt := 1, recoverable := false, bytes := leBytes 64 5 }

/-- The answer at the home of the record queue; none where its control block cannot be one or does not translate. -/
def deliveryAnswer (s : State) (cb : Nat) : Option Nat :=
  (s.context 0 0).bind fun x =>
    let sp := s.contextSpace x
    if cb = 0 ∨ cb % 64 ≠ 0 ∨ isImmediate (attrFlags sp.attrs cb) = false ∨ isMside (attrFlags sp.attrs cb) = false then none
    else
      match s.homeOf sp cb with
      | .ok (pa, v) => some (HomeAns.word (v.homeTry pa sp (.device x.vi x.num) true 1 64 false [leBytes 64 5]))
      | .error _ => none

theorem witness_deliveries : [due 0x10000] = [] ++ due 0x10000 :: [] ∧ (due 0x10000).vi = 0 ∧ (due 0x10000).ctx = 0 ∧
    deliveryAnswer { recordQueue 1 0 0 0 1 with deliveries := [due 0x10000] } 0x10000 = some 1 ∧
    deliveryAnswer { recordQueue 1 0 0 0 2 with deliveries := [due 0x10000] } 0x10000 = some 2 ∧
    deliveryAnswer { recordQueue 1 0 5 0 1 with deliveries := [due 0x10000] } 0x10000 = some 0 ∧
    deliveryAnswer { recordQueue 1 0 0 0 1 with deliveries := [due 0x10000], poison := [(0x400, 1)] } 0x10000 = some 3 ∧
    deliveryAnswer { site [] with deliveries := [due 0x40000] } 0x40000 = none := by decide +kernel

/-! Launches. -/

/-- A launch record for the image with handle 1 (06 Table 6.8): flags, polarity word at 0x12000. -/
def launchRecord (flags word : Nat) : List Byte :=
  leBytes 16 1 ++ leBytes 8 0x12100 ++ leBytes 1 4 ++ leBytes 7 flags ++ leBytes 8 word ++ leBytes 24 0

/-- A launch queue in slot 3 whose queue at 0x10000 holds records. -/
def launching (flags owner count : Nat) : State :=
  let s := recordQueue 1 flags owner 0 count
  { s with queues := [(4, { vi := 0, ctx := 0, cb := 0x10000, prio := 0, slot := some 3 })]
           mem := putMem s.mem 0x11000 (launchRecord 0 0) }

/-- A launch queue in slot 3 and one without a slot. -/
def twoQueues : State :=
  { site [] with queues := [(4, { vi := 0, ctx := 0, cb := 0x10000, prio := 0, slot := some 3 }),
                            (5, { vi := 0, ctx := 0, cb := 0x12000, prio := 0 })] }

/-- The home's answer to the dequeue of a launch record. -/
def dequeueAnswer (s : State) : Option Nat :=
  (AMap.find? s.queues 4).bind fun q => (s.context q.vi q.ctx).bind fun x =>
    match s.lqAddr q with
    | .ok (pa, t) => some (HomeAns.word (t.homeTry pa (t.contextSpace x) (.agent q.vi) false 1 64 false []))
    | .error _ => none

theorem witness_dequeue : ((AMap.find? (launching 0 0 1).queues 4).map fun q => q.slot) = some (some 3) ∧
    dequeueAnswer (launching 0 0 1) = some 1 ∧ dequeueAnswer (launching 0 0 0) = some 2 ∧
    dequeueAnswer { launching 0 0 1 with homes := [(0x10000, { corrupt := 1 })] } = some 0 ∧
    dequeueAnswer { launching 0 0 1 with poison := [(0x400, 1)] } = some 3 ∧ dequeueAnswer (noTable (launching 0 0 1)) = none ∧
    ((AMap.find? twoQueues.queues 5).map fun q => q.slot) = some none := by decide +kernel

/-- The launch of the site in another state, with a record. -/
def withLaunch (st : LState) (record : List Byte) : State :=
  (site []).updLaunch 1 fun l => { l with st, record, dequeuedAt := 0 }

/-- A condition whose word is zero and one whose word does not translate; both polarities. -/
theorem witness_conditional :
    (AMap.find? (withLaunch .waitEligible (launchRecord 1 0x12000)).launches 1).any (fun l => l.st == .waitEligible
      && ((withLaunch .waitEligible (launchRecord 1 0x12000)).context l.vi l.ctx).any fun x =>
        let sp := (withLaunch .waitEligible (launchRecord 1 0x12000)).contextSpace x
        match (withLaunch .waitEligible (launchRecord 1 0x12000)).homeAddr sp 0x12000 with
        | .ok (pa, t) => isImmediate (attrFlags sp.attrs 0x12000) && t.memWord pa == 0
            && !(field l.record 25 1).testBit 1
        | .error _ => false) = true ∧
    (field (launchRecord 3 0x12000) 25 1).testBit 1 = true ∧
    ((noTable (site [])).context 0 0).any (fun x =>
      !((noTable (site [])).homeAddr ((noTable (site [])).contextSpace x) (2 ^ 30)).toBool) = true ∧
    ∀ e ∈ (withLaunch .waitEligible (launchRecord 1 0x12000)).launches, ∀ l ∈ AMap.find? (site []).launches 1,
      e.2.lq = l.lq → l.seq ≤ e.2.seq := by decide +kernel

/-- A second launch of the queue, before or after the first. -/
def second (s : State) (seq : Nat) (st : LState) : State :=
  { s with launches := s.launches ++ [(2, { vi := 0, ctx := 0, lq := 0, seq, lsn := 2, first := 2, st, attempt := 2
                                            record := [], dequeuedAt := 0 })] }

theorem witness_conditional_held : let s := second ((site []).updLaunch 1 fun l => { l with seq := 1, st := .waitEligible }) 0 .bound
    ∃ e ∈ s.launches, e.2.lq = 0 ∧ e.2.seq < 1 := by decide +kernel

/-- A condition whose word lies in data of the context: a launch of it that may still write the word, none, or one whose
claims do not reach it. -/
def conditioned (wr : Bool) (poison : Cells 1) : State :=
  let s := second (withLaunch .waitEligible (launchRecord 1 0x40000)) 7 .bound
  { s with poison, launches := AMap.upd s.launches 2 fun l => { l with claims := [{ lo := 0x4003F, hi := 0x40040, rd := true, wr }] } }

/-- Whether the word is an immediate one, whether it may still be written, whether it is destroyed; none where it is
lost on the walk. -/
def condition (s : State) (va : Nat) : Option (Bool × Bool × Bool) :=
  (AMap.find? s.launches 1).bind fun l => (s.context l.vi l.ctx).bind fun x =>
    let sp := s.contextSpace x
    match s.homeAddr sp va with
    | .error _ => none
    | .ok (pa, t) => some (isImmediate (attrFlags sp.attrs va), t.launches.any (fun e => e.2.vi == l.vi && e.2.ctx == l.ctx
        && e.2.st.inU && e.2.claims.any fun c => c.wr && decide (c.lo < va / 64 * 64 + 64 ∧ va / 64 * 64 < c.hi)),
        t.poisoned 0 (pa / 64))

theorem witness_conditional_word : condition (conditioned true []) 0x40000 = some (false, true, false) ∧
    condition (conditioned false []) 0x40000 = some (false, false, false) ∧
    condition (conditioned false [(0x1000, 1)]) 0x40000 = some (false, false, true) ∧
    condition (conditioned true [(0x480, 1)]) 0x12000 = some (true, false, true) ∧
    condition (conditioned true [(0xC00, 1)]) 0x40000 = none := by decide +kernel

/-- The checks of a record: passed by a record of the site's image, failed by one with a reserved flag. -/
theorem witness_launch_checks :
    (AMap.find? (withLaunch .checking (launchRecord 0 0)).launches 1).any (fun l =>
      l.st == .checking && ((withLaunch .checking (launchRecord 0 0)).checkLaunch l).toBool) = true ∧
    (AMap.find? (withLaunch .checking (launchRecord 4 0)).launches 1).any (fun l =>
      l.st == .checking && !((withLaunch .checking (launchRecord 4 0)).checkLaunch l).toBool) = true := by decide +kernel

theorem witness_launch_lost : (AMap.find? (withLaunch .checking (launchRecord 0 0)).launches 1).any (fun l =>
    !(withLaunch .checking (launchRecord 0 0)).bindLost l
      && ({ withLaunch .checking (launchRecord 0 0) with poison := [(0xCC0, 1)] } : State).bindLost l) = true := by
  decide +kernel

/-- A replay's record is checked again: it passes, or its image is gone. -/
theorem witness_rechecks : (AMap.find? (withLaunch .waiting (launchRecord 0 0)).launches 1).any (fun l =>
    let s := withLaunch .waiting (launchRecord 0 0)
    let l := { l with image := 1 }
    l.st == .waiting && !l.checked && (s.recheckLaunch l).toBool && !(s.recheckLaunch { l with image := 9 }).toBool) = true := by
  decide +kernel

theorem witness_bind_held :
    let s := second ((site []).updLaunch 1 fun l => { l with seq := 1, st := .waiting, checked := true }) 0 .checking
    ∃ e ∈ s.launches, e.2.lq = 0 ∧ e.2.seq < 1 ∧ e.2.st ∈ [.waitEligible, .checking, .waiting] := by decide +kernel

/-- A launch of an image without code: every draft exists. -/
def bindable : State :=
  { site [] with
    images := [(1, { vi := 0, addr := 0, digest := [], bytes := imageOf 0 [] })], blocks := [], groups := [], cur := none
    launches := [(1, { vi := 0, ctx := 0, lq := 0, seq := 0, lsn := 1, first := 1, st := .waiting, attempt := 1
                       record := launchRecord 0 0, dequeuedAt := 5, image := 1, checked := true })] }

/-- How a launch stands to the others as its drafts are there: whether it is held, whether a later one of its queue must
yield, whether the version entries are taken or another launch comes first, whether there are cores for it. -/
def bindCase (s : State) : Option (Bool × Bool × Bool × Bool) :=
  (AMap.find? s.launches 1).bind fun l =>
    let t := s.requestDrafts l
    if l.st == .waiting && l.checked && s.launches.all (fun e => e.2.lq != l.lq || !decide (e.2.seq < l.seq))
        && t.draftsReady l && (t.context l.vi l.ctx).isSome then
      some (t.launches.any (fun e => e.1 != 1 && t.mustWait l e.2),
        t.launches.any (fun e => e.2.follows l && t.mustWait l e.2 && e.2.st != .aborting),
        decide (4096 ≤ t.versions.length)
          || t.launches.any (fun e => e.1 != 1 && t.takenBefore e (1, l) && t.ready e.2), (t.coresFor l).isSome)
    else none

theorem witness_bind : bindCase bindable = some (false, false, false, true) := by decide +kernel

/-- A conflicting launch of another queue, a later one of the same queue, and an older record of another queue. -/
def rival (lq seq : Nat) (st : LState) (replay : Bool) (wr : Bool) : State :=
  let s := bindable
  { s with launches := (AMap.upd s.launches 1 fun l =>
      { l with claims := [{ lo := 0, hi := 64, rd := true, wr := true }], replays := replay.toNat, yielded := replay }) ++
    [(2, { vi := 0, ctx := 0, lq, seq, lsn := 2, first := 2, st, attempt := 2, record := launchRecord 0 0, dequeuedAt := 0
           image := 1, claims := [{ lo := 0, hi := 64, rd := true, wr }] })] }

theorem witness_bind_cases : bindCase (rival 1 0 .bound false true) = some (true, false, false, true) ∧
    bindCase (rival 0 1 .bound true true) = some (true, true, false, true) ∧
    bindCase (rival 1 0 .checking false true) = some (false, false, true, true) ∧
    AMap.rising (rival 0 1 .bound true true).launches = true := by decide +kernel

/-- The image of `bindable` with a stage, whose context has been granted no core. -/
def ungranted : State :=
  { bindable with
    images := [(1, { vi := 0, addr := 0, digest := [], bytes := imageOf 0 [(1, 0, stageEntry 0)] })]
    contexts := bindable.contexts.map fun (e : Nat × Context) => (e.1, { e.2 with grant := 0 }) }

/-- The launch of `ungranted`; its only draft is there. -/
theorem witness_bind_no_cores : ∃ (s : State) (l : Launch), AMap.find? s.launches 1 = some l ∧ l.st = .waiting ∧ l.checked = true ∧
    (∀ e ∈ s.launches, e.1 = 1) ∧ s.requestDrafts l = s ∧ s.draftsReady l = true ∧
    (∀ e ∈ s.launches, s.mustWait l e.2 = false) ∧ s.versions.length < 4096 ∧ (s.context l.vi l.ctx).isSome = true ∧
    s.coresFor l = none := by
  have h : ((AMap.find? ungranted.launches 1).any fun l => decide (l.st = .waiting ∧ l.checked = true ∧
      stageCount (ungranted.imageBytes l) = 1 ∧ (∀ e ∈ ungranted.launches, e.1 = 1) ∧
      (∀ e ∈ ungranted.launches, ungranted.mustWait l e.2 = false) ∧ ungranted.versions.length < 4096 ∧
      (ungranted.context l.vi l.ctx).isSome = true ∧ ungranted.coresFor l = none)) = true := by decide +kernel
  obtain ⟨l, hl, h⟩ := Option.any_eq_true .. |>.mp h
  obtain ⟨h1, h2, h3, h4, h5, h6, h7, h8⟩ := of_decide_eq_true h
  obtain ⟨k, hk⟩ : ∃ k, draftKeys (ungranted.imageBytes l) = [k] := by
    simp only [draftKeys, h3]; exact ⟨_, rfl⟩
  have image (X : AMap Draft) (s : State) (l : Launch) : State.imageBytes { s with drafts := X } l = s.imageBytes l := rfl
  have waits (X : AMap Draft) (s : State) (l u : Launch) : State.mustWait { s with drafts := X } l u = s.mustWait l u := rfl
  have cores (X : AMap Draft) (s : State) (l : Launch) : State.coresFor { s with drafts := X } l = s.coresFor l := rfl
  generalize ungranted = u at *
  refine ⟨{ u with drafts := [(1, { key := k, imageKey := 0, ready := true })] }, l, hl, h1, h2, h4, ?_, ?_, ?_, h6, h7, ?_⟩
  · simp [State.requestDrafts, image, hk, State.requestDraft, State.draftOf]
  · simp [State.draftsReady, image, hk, State.draftOf]
  · exact fun e he => (waits ..).trans (h5 e he)
  · exact (cores ..).trans h8

theorem witness_bound : (match exec (.launchBind 1) bindable with
    | .next t => (AMap.find? t.launches 1).any fun m => m.st == .bound
    | _ => false) = true := by decide +kernel

theorem meetCommit {s : State} {lk : Nat} {p : Launch → Prop} [DecidablePred p]
    (h : ((AMap.find? s.launches lk).any fun l => decide ((l.st = .completed ∨ (l.st = .irrevocable ∧ s.allRetired l = true)) ∧
      (∀ e ∈ s.launches, e.2.lq = l.lq → l.seq ≤ e.2.seq) ∧ (∀ e ∈ s.engines, e.2.launch ≠ lk) ∧
      (∀ e ∈ s.launches, e.1 = lk) ∧ p l)) = true) :
    ∃ l, AMap.find? s.launches lk = some l ∧ MayCommit s lk l ∧ p l := by
  obtain ⟨l, hl, h⟩ := Option.any_eq_true .. |>.mp h
  obtain ⟨h1, h2, h3, h4, h5⟩ := of_decide_eq_true h
  exact ⟨l, hl, ⟨h1, h2, h3, .inr fun e he hne => absurd (h4 e he) hne⟩, h5⟩

theorem witness_may_commit : ∃ l, AMap.find? (withLaunch .completed []).launches 1 = some l ∧
    MayCommit (withLaunch .completed []) 1 l ∧ l.st ≠ .committing :=
  meetCommit (by decide +kernel)

theorem witness_may_not_commit : ∃ l, AMap.find? (site []).launches 1 = some l ∧ ¬ MayCommit (site []) 1 l ∧
    l.st ≠ .committing := by
  obtain ⟨l, hl, h⟩ : ∃ l, AMap.find? (site []).launches 1 = some l ∧ l.st = .bound := some_any (by decide +kernel)
  refine ⟨l, hl, fun hc => ?_, by simp [h]⟩
  simp [MayCommit, h] at hc

theorem witness_committing : (AMap.find? (withLaunch .committing []).launches 1).any (fun l =>
    l.st == .committing && l.deferred == []) = true := by decide +kernel

theorem witness_commit_memory : ({ site [] with shadow := [(shadowKey 1 0x400, 7)] } : State).coreCache = [] ∧
    ({ site [] with shadow := [(shadowKey 1 0x400, 7)] } : State).dieCache = [] ∧
    AMap.rising ({ site [] with shadow := [(shadowKey 1 0x400, 7)] } : State).shadow = true ∧ 0x10000 < 2 ^ 41 ∧
    (∀ e ∈ ({ site [] with shadow := [(shadowKey 1 0x400, 7)] } : State).shadow, e.1 % 2 ^ 35 < 2 ^ 34) ∧
    isControlRow 0x10000 = false ∧
    AMap.find? ({ site [] with shadow := [(shadowKey 1 0x400, 7)] } : State).shadow (shadowKey 1 (0x10000 / 64)) = some 7 := by
  decide +kernel

/-- A launch that commits with an enqueue of two elements deferred, of a size, to the queue at an address. -/
def deferring (s : State) (st : LState) (cb size : Nat) : State :=
  s.updLaunch 1 fun l => { l with st, deferred := [{ cb, esize := size, elems := [leBytes 8 1, leBytes 8 2] }] }

/-- What its home answers; none where the control block does not translate. -/
def deferredAnswer (s : State) : Option Nat :=
  (AMap.find? s.launches 1).bind fun l => (l.deferred.head?).bind fun d =>
    match s.cbAddr (s.launchSpace l) d.cb with
    | .ok (pa, t) => some (HomeAns.word (t.homeTry pa (s.launchSpace l) (.agent l.vi) true d.elems.length d.esize false
        d.elems))
    | .error _ => none

theorem witness_deferred : (deferring (queued 1 0 0 0) .committing 0x10000 8).appendWaits 1 = false ∧
    deferredAnswer (deferring (queued 1 0 0 0) .committing 0x10000 8) = some 1 ∧
    deferredAnswer (deferring (queued 1 0 0 1) .committing 0x10000 8) = some 2 ∧
    deferredAnswer (deferring (queued 1 0 0 0) .committing 0x10000 16) = some 0 ∧
    deferredAnswer (deferring (queued 1 0 0 0) .committing (2 ^ 30) 8) = none ∧
    deferredAnswer (deferring { queued 1 0 0 0 with poison := [(0x400, 1)] } .committing 0x10000 8) = some 3 ∧
    (∀ e ∈ (deferring (queued 1 0 0 0) .committing 0x10000 8).launches, e.1 = 1) ∧
    (AMap.find? (deferring (queued 1 0 0 0) .bound 0x10000 8).launches 1).any (fun l =>
      l.st != .committing && !l.irrevocable && l.deferred.length == 1) = true := by decide +kernel

theorem witness_writeback :
    (∃ e ∈ (site []).launches, e.2.attempt = 1 ∧ e.2.irrevocable = false ∧ e.2.st ≠ .committing) ∧
    ∀ e ∈ (withLaunch .committing []).launches, e.2.attempt = 1 → e.2.irrevocable = true ∨ e.2.st = .committing := by
  decide +kernel

theorem witness_irrevocable : (AMap.find? (withLaunch .overflowed []).launches 1).any (fun l =>
    l.st == .overflowed && !l.irrevocable && (withLaunch .overflowed []).grantable l) = true ∧
    (AMap.find? (site []).launches 1).any (fun l => l.st != .overflowed) = true := by decide +kernel

/-- A launch that aborts with a cause and a number of replays, the replay mask and limit at their reset values. -/
def aborting (cause replays : Nat) : State :=
  (site []).updLaunch 1 fun l => { l with st := .aborting, cause, replays, record := launchRecord 0 0 }

/-- It is replayed. -/
def replays (s : State) : Bool :=
  (AMap.find? s.launches 1).any fun l =>
    let v := s.iface l.vi
    let limit := if (field l.record 26 1).testBit 7 then field l.record 26 1 % 8 else bitsOf v.ldrReplay.toNat 0 3
    !l.irrevocable && !l.killed
      && (l.cause == 6 || ([1, 2, 3].contains l.cause && v.ldrReplay.getLsbD (3 + l.cause) && decide (l.replays < limit)))

theorem witness_abort : replays (aborting 6 0) = true ∧ replays (aborting 1 1) = true ∧ replays (aborting 1 2) = false ∧
    replays (aborting 5 0) = false ∧ ((aborting 6 0).context 0 0).isSome = true ∧
    (∃ e ∈ (withOp (aborting 1 0) { opOf .copy [] with started := true }).engines, e.2.launch = 1 ∧ e.2.stall = none ∧
      e.2.started = true) ∧
    (aborting 1 0).engines = [] ∧ (aborting 1 0).remote = [] ∧
    ∃ e ∈ ({ aborting 1 0 with remote := storing.remote } : State).remote, e.2.window = false ∧ e.2.block / 2 ^ 36 = 1 := by
  decide +kernel

/-- A launch whose version was committed earlier owes the same queue an element. -/
theorem witness_deferred_owed :
    let s := deferring (queued 1 0 0 0) .committing 0x10000 8
    let s : State := { s with launches := (AMap.upd s.launches 1 fun l => { l with commitAt := some 9 }) ++
      [(2, { vi := 0, ctx := 0, lq := 1, seq := 0, lsn := 2, first := 2, st := .committing, attempt := 2, record := []
             dequeuedAt := 0, commitAt := some 3, deferred := [{ cb := 0x10000, esize := 8, elems := [leBytes 8 1] }] })] }
    s.appendWaits 1 = false ∧ ∃ e ∈ s.launches, e.1 ≠ 1 ∧ e.2.owesEnqueues = true ∧ e.2.commitAt.getD 0 < 9 ∧
      s.appendWaits e.1 = false := by decide +kernel

theorem witness_note_free : AMap.rising (withLaunch .completed []).launches = true ∧
    (AMap.find? (withLaunch .completed []).launches 1).any (fun l => l.freeAt.isNone
      && (withLaunch .completed []).freeToCommit l 1) = true := by decide +kernel

/-! Drafts, grants, slots and stages. -/

/-- A draft of the code whose key is 64 bytes of 5, in one of its stages: at work, waiting, triggered, ready. -/
def drafting (core waits : Option Nat) (triggered ready : Bool) : State :=
  { site [] with
    images := [], life := .deployed, cycle := 10500000
    drafts := [(3, { key := leBytes 64 5, imageKey := 9, core, waits, triggered, ready
                     profiles := [(4, { execs := 64 })], windows := [(4 * 2 ^ 32, { cycles := 1 })] })] }

theorem witness_draft_create : ∃ e, draftEvent (.draftCreate 2) = some e ∧ e.due (drafting (some 2) none false false) :=
  ⟨_, rfl, by decide +kernel⟩

theorem witness_draft_request : ∃ e, draftEvent (.peerDraftRequest { peer := 1, key := 5, chainOk := true, imageKey := 9 })
    = some e ∧ e.due (drafting none none false true) := ⟨_, rfl, by decide +kernel⟩

theorem witness_draft_receive : ∃ e, draftEvent (.peerDraftReceive { key := 5, generation := 2, chainOk := true
                                                                     signatureOk := true, keyMatches := true })
    = some e ∧ e.due (drafting none (some 1) false false) := ⟨_, rfl, by decide +kernel⟩

theorem witness_window_judge : ∃ e, draftEvent (.profileWindowJudge 3 4) = some e ∧ e.due (drafting none none false true) := by
  refine ⟨_, rfl, ?_⟩
  obtain ⟨d, hd, h⟩ : ∃ d, AMap.find? (drafting none none false true).drafts 3 = some d ∧
    ((drafting none none false true).judgeable 3 4 d).isSome = true := some_any (by decide +kernel)
  obtain ⟨w, hw⟩ := Option.isSome_iff_exists.mp h
  exact ⟨d, w, hd, hw⟩

theorem witness_redraft : ∃ e, draftEvent (.redraft 3) = some e ∧ e.due (drafting none none true true) := by
  refine ⟨_, rfl, ?_⟩
  exact some_any (by decide +kernel)

/-- Core 0 works on one draft, and one waits for core 1. -/
theorem witness_drafting_cores :
    let s := { drafting (some 0) none false false with
      drafts := (drafting (some 0) none false false).drafts ++ (drafting none (some 7) false false).drafts.map fun (e : Nat × Draft) => (8, e.2) }
    (∀ e ∈ s.drafts, e.2.core ≠ some 1) ∧ AMap.rising s.drafts = true ∧ (∀ c < 1, ∃ e ∈ s.drafts, e.2.core = some c) ∧
    ∃ e ∈ s.drafts, e.2.waits = some 7 ∧ ∀ f ∈ s.drafts, ∀ v ∈ f.2.waits, f ≠ e → 7 < v := by decide +kernel

/-- Two entities of two priorities. -/
def shares : List Share :=
  [{ id := 1, prio := 2, weight := 1, limit := 3 }, { id := 2, prio := 7, weight := 5, limit := 1 }]

theorem witness_shares : (∀ e ∈ shares, e.grant = 0 ∧ e.prio < 8 ∧ 0 ≤ e.deficit ∧ e.deficit < 1) ∧ 2 ≤ 1536 ∧
    (shares.map fun e => e.id).Nodup ∧ (grantAll shares 2).1.map (fun e => e.grant) = [1, 1] := by decide +kernel

/-- 08 R187: three equal entities share 10 cores, 3 each, and keep a third of a core each; one core is left. -/
def equals : List Share := (span 1 3).map fun i => { id := i, prio := 4, weight := 1, limit := 20 }

theorem test_pass : (grantPass 4 equals 10).1.map (fun e => (e.grant, e.deficit)) =
      [(3, 1 / 3), (3, 1 / 3), (3, 1 / 3)] ∧ (grantPass 4 equals 10).2 = 1 ∧
    (∀ e ∈ equals, e.prio = 4 ∧ e.grant < e.limit ∧ 0 ≤ e.deficit ∧ (10 : Rat) * e.weight / 3 + e.deficit < 21) ∧
    ∀ e ∈ shares, e.prio = 2 → ((e.limit - e.grant + 1 : Nat) : Rat) ≤ (4 : Rat) * e.weight / 1 + e.deficit := by
  decide +kernel

theorem witness_contexts : (site []).activeIfaces = [0] ∧
    (∀ x ∈ (site []).contexts, x.1 = ctxKey x.2.vi x.2.num ∧ x.2.num < 512 ∧ 0 ≤ x.2.deficit ∧ x.2.deficit < 1) ∧
    AMap.rising (site []).contexts = true ∧ 0 ≤ ((site []).iface 0).deficit ∧ ((site []).iface 0).deficit < 1 ∧
    (match exec .sliceBoundary (site []) with | .next t => decide ((t.iface 0).grant ≤ 1536) | _ => false) = true := by
  decide +kernel

theorem witness_queue_slots : AMap.rising twoQueues.queues = true ∧
    (∀ e ∈ twoQueues.queues, ∀ i ∈ e.2.slot, i < 256) ∧
    ∀ e ∈ twoQueues.queues, ∀ f ∈ twoQueues.queues, e.2.slot = f.2.slot → e.2.slot ≠ none → e.1 = f.1 := by decide +kernel

/-- A launch of two stages with an internal queue between them; the first holds core 0, the second others. Its last
rebalance was 64 µs ago. -/
def staged (cores : List Nat) (move : Option (Nat × Nat)) : State :=
  let s := (site []).updLaunch 1 fun l => { l with stages := [{ cores := [0] }, { cores }], move }
  { s with
    cycle := 67200
    images := s.images.map fun e =>
      (e.1, { e.2 with bytes := imageOf 0 [(1, 0, stageEntry 0 ++ stageEntry 0), (2, 0, leBytes 3 0 ++ leBytes 29 1)] }) }

theorem witness_rebalance : (AMap.find? (staged [1, 2] none).launches 1).any (fun l => l.issues && !l.descheduled
    && decide (2 ≤ l.stages.length ∧ l.decidedAt + 67200 ≤ (staged [1, 2] none).cycle)
    && (staged [1, 2] none).wantedMove l == some (1, 0)) = true ∧
    (AMap.find? { staged [1, 2] none with cycle := 67199 }.launches 1).any (fun l => decide (67199 < l.decidedAt + 67200))
      = true := by decide +kernel

/-- The donor can give its core up, and has no more than its minimum. -/
theorem witness_core_move : ∀ cores ∈ [[1, 2], [1]],
    (AMap.find? (staged cores (some (1, 0))).launches 1).any (fun l =>
      let s := staged cores (some (1, 0))
      l.move == some (1, 0) && !(stageAt (s.imageBytes l) 0).quad && !(stageAt (s.imageBytes l) 1).quad
        && decide ((stageAt (s.imageBytes l) 1).minCores = 1 ∧ 1 + 1 ≤ (stageAt (s.imageBytes l) 0).maxCores)
        && (l.stages[1]?).any fun r => s.donorCores r false == some [1]) = true := by decide +kernel

/-- Its only core runs a path that is at no blocking point. -/
theorem witness_core_move_held : let s := withPath (site []) fun p => { p with run := 1 }
    (AMap.find? s.launches 1).any (fun l => (l.stages[0]?).any fun r => s.donorCores r false == none) = true := by
  decide +kernel

/-! The module, its pod and its peers. -/

/-- The first failing bank of a pseudo-channel, a further one while rows are copied, one after that. -/
theorem witness_bank_retire : (∃ e, moduleEvent (.bankRetire 3 4) = some e ∧ e.due (site [])) ∧
    (∃ e, moduleEvent (.bankRetire 1023 31) = some e ∧ e.due { site [] with spare := [(1023, spareOf 1 4 7)] }) ∧
    ∃ e, moduleEvent (.bankRetire 0 5) = some e ∧ e.due { site [] with spare := [(0, spareOf 2 4 0)] } :=
  ⟨⟨_, rfl, by decide +kernel⟩, ⟨_, rfl, by decide +kernel⟩, _, rfl, by decide +kernel⟩

theorem witness_row_copy : ∃ e, moduleEvent (.sparingRowCopy 3) = some e ∧
    e.due { site [] with spare := [(3, spareOf 1 4 32767)] } := ⟨_, rfl, by decide +kernel⟩

theorem witness_corrected : ∃ e, moduleEvent (.correctedError 10 0 0) = some e ∧ e.due (site []) :=
  ⟨_, rfl, by decide +kernel⟩

theorem witness_shootdown_complete : ∃ e, moduleEvent (.shootdownComplete 9) = some e ∧
    e.due { site [] with shootdowns := [(9, { vi := 0, kind := 0, ident := 0, base := 0, pages := 0, word := 0x13000 })] } := by
  refine ⟨_, rfl, _, rfl, fun e he _ p hp w hw => ?_, ?_, ?_, ?_⟩
  · have h : ∀ e ∈ (site []).groups, ∀ p ∈ e.2.paths, p.gated = [] := by decide +kernel
    rw [h e he p hp] at hw
    cases hw
  all_goals exact fun e he => nomatch he

theorem witness_lifecycle : ∃ e, moduleEvent (.lifecycle { next := .provisioned, hosting := true, signer := some .brodari })
    = some e ∧ e.due (site []) := ⟨_, rfl, by decide +kernel⟩

theorem witness_flr : ∃ e, moduleEvent (.upstreamReset (.flr 1)) = some e ∧
    e.due { site [] with ifaces := [(1, { configured := true })] } := ⟨_, rfl, by decide +kernel⟩

theorem witness_hot_reset : State.reset.hotReset = true ∧ ({ site [] with life := .provisioned } : State).life = .provisioned ∧
    ¬ ((site []).hotReset = true ∧ ((site []).life = .provisioned ∨
      ((site []).life = .deployed ∧ (site []).selfHosted = false))) := by decide +kernel

theorem witness_boot : ∃ e, moduleEvent (.boot { verified := true, failing := [(1, 2)], sparing := [(3, 3, 31)]
                                                 unwiped := [(1023, 0)] }) = some e ∧ e.due State.reset :=
  ⟨_, rfl, by decide +kernel⟩

theorem witness_error_in_version : ∃ e, moduleEvent (.uncorrectableError (.launchVersion 1) 2 0 0) = some e ∧
    e.due (site []) := ⟨_, rfl, some_any (p := fun _ => True) (by decide +kernel) |>.imp fun _ h => h.1⟩

theorem witness_error_in_block : ∃ e, moduleEvent (.uncorrectableError (.block (2 ^ 36)) 4 0 0) = some e ∧
    e.due (site []) := by
  refine ⟨_, rfl, ?_⟩
  obtain ⟨b, hb, h⟩ : ∃ b, AMap.find? (site []).blocks (2 ^ 36) = some b ∧
    ∃ l ∈ AMap.find? (site []).launches b.launch, True := some_any (by decide +kernel)
  obtain ⟨l, hl, _⟩ := h
  exact ⟨b, l, hb, hl⟩

theorem witness_iface_reset : (1 : Nat) ≠ 0 ∧ (site []).homes = [] ∧ isControlRow 0x10000 = false := by decide +kernel

/-- A pod that last heard of its leader 10 ms ago. -/
def silent (leader : Option Nat) (reports : List Nat) : State := { site [] with cycle := 10500000, leader, reports }

theorem witness_election : ∃ e, podEvent .electionTimeout = some e ∧ e.due (silent none []) := by
  refine ⟨_, rfl, ?_, ?_⟩
  · exact fun h => nomatch h
  · decide +kernel

theorem witness_report : ∃ e, podEvent (.electionReportReceive { round := 1, identity := 4, valid := true }) = some e ∧
    e.due (silent none []) := ⟨_, rfl, by decide +kernel⟩

theorem witness_election_choice : ∃ e, podEvent .electionChoice = some e ∧ e.due (silent none [4, 3]) := ⟨_, rfl, by decide +kernel⟩

theorem witness_heartbeat : ∃ e, podEvent .leaderHeartbeat = some e ∧ e.due (silent (some identity) []) :=
  ⟨_, rfl, rfl, by decide +kernel⟩

/-- An armed capture of period 1, and a message for it from time 0. -/
def capturing : State :=
  { site [] with cycle := 10500000, ifaces := [(0, { configured := true, dbgCapture := 0x10003 })]
                 treadles := [{ action := 2, vi := 0, origin := 1, mask := 0, stamp := 0, lsn := 0 }] }

theorem witness_treadle_act : ∃ e, podEvent .treadleAct = some e ∧ e.due capturing :=
  ⟨_, rfl, Option.isSome_iff_exists.mp (by decide +kernel)⟩

theorem witness_sample : ∃ e, podEvent (.sampleTake 0) = some e ∧ e.due capturing := by
  refine ⟨_, rfl, ?_⟩
  obtain ⟨⟨gk, g⟩, hg, h⟩ : ∃ x, capturing.nextSampled 0 = some x ∧ ∃ b ∈ AMap.find? capturing.blocks x.2.block,
      ∃ l ∈ AMap.find? capturing.launches b.launch,
        (capturing.coreRegs 0).sampled + (capturing.iface l.vi).capPeriod * 1024 ≤ capturing.cycle :=
    some_any (by decide +kernel)
  obtain ⟨b, hb, l, hl, h⟩ := h
  exact ⟨gk, g, b, l, hg, hb, hl, h⟩

/-- A load and a store of a peer at memory of interface 0 that the machine exports: what is left to the export entries,
whose layout no rule gives (log entry 9), is whether they cover it. -/
def peerAccess (store : Option (List Byte)) : FabricReq := { device := 1, vi := 0, exportVi := 0, addr := 0x10000, size := 8, store }
def exporting : State := { site [] with ifaces := [(0, { configured := true, exports := 0x14000 })] }

theorem witness_fabric : (∀ st ∈ [none, some (leBytes 8 1)], Config.exportCovers 0x14000 (peerAccess st) = true →
      (exporting.iface 0).configured = true ∧ (exporting.iface 0).exports ≠ 0 ∧
      Config.exportCovers (exporting.iface 0).exports (peerAccess st) = true) ∧
    (∀ i < 8, 0x10000 + i < 2 ^ 41 ∧ exporting.owns 0 (0x10000 + i) = true ∧ exporting.poisoned 0 ((0x10000 + i) / 64) = false) ∧
    ({ exporting with poison := [(0x400, 1)] } : State).poisoned 0 (0x10000 / 64) = true ∧
    ((site []).iface 0).configured = false := by
  refine ⟨fun st _ h => ⟨by decide +kernel, by decide +kernel, ?_⟩, by decide +kernel, by decide +kernel, by decide +kernel⟩
  exact h
/-! Management commands and the queue port. -/

/-- The site with one command in the management queue of interface 0, of a context (0xFFFF: its addresses are physical),
with its completion word at 0x13000. -/
def commanding (code ctx word : Nat) (ops : List Nat) : State :=
  let s := recordQueue 2 0 0 0 1
  { s with
    ifaces := [(0, { configured := true, mq := 0x10000 })], images := [], life := .deployed
    mem := putMem s.mem 0x11000 (leBytes 2 code ++ leBytes 2 ctx ++ leBytes 4 0 ++ leBytes 8 word
      ++ ops.flatMap (leBytes 8)) }

/-- Whether an instruction's command is at the head, and whether and with what it is turned away. -/
def answers (i : Instr) (s : State) : Option (Option (Nat × Nat)) :=
  (commandOf i).bind fun x => (s.headCommand x.vi).bind fun c => if c.code = x.code then some (x.stops s c) else none

/-- A published image of interface 0, without code. -/
def withImage (s : State) : State := { s with images := [(1, { vi := 0, addr := 0, digest := [], bytes := imageOf 0 [] })] }

/-- Bytes put at 0x14000. -/
def withData (s : State) (bs : List Byte) : State := { s with mem := putMem s.mem 0x14000 bs }

theorem witness_unpublish : answers (.unpublish 0) (withImage (commanding 2 0xFFFF 0x13000 [1])) = some none ∧
    answers (.unpublish 0) (commanding 2 0xFFFF 0x13000 [1]) = some (some (2, 0)) := by decide +kernel

theorem witness_publish : answers (.publish 0) (commanding 1 0xFFFF 0x13000 [2 ^ 41]) = some (some (2, 1)) := by
  decide +kernel

theorem witness_context_create :
    answers (.contextCreate 0) (withData (commanding 4 0xFFFF 0x13000 [0x14000]) (leBytes 28 0 ++ leBytes 2 1))
      = some none ∧
    answers (.contextCreate 0) (commanding 4 0xFFFF 0x13000 [0x14000]) = some (some (2, 0)) := by decide +kernel

theorem witness_launch_commands : answers (.service 0) (commanding 7 0 0x13000 [1, 0, 0, 1]) = some none ∧
    answers (.service 0) (commanding 7 0 0x13000 [2, 0, 0, 1]) = some (some (2, 0)) ∧
    answers (.release 0) (commanding 8 0 0x13000 [1]) = some none ∧
    answers (.release 0) (commanding 8 1 0x13000 [1]) = some (some (2, 0)) ∧
    answers (.kill 0) (commanding 9 0 0x13000 [0]) = some none ∧
    answers (.kill 0) (commanding 9 0 0x13000 [2]) = some (some (2, 0)) := by decide +kernel

theorem witness_debug_commands :
    answers (.stop 0) (commanding 10 0 0x13000 [1, 2 ^ 64 - 1]) = some none ∧
    answers (.stop 0) (commanding 10 0 0x13000 [1, 0]) = some (some (2, 0)) ∧
    answers (.debugDetach 0) (commanding 18 0 0x13000 [0]) = some none ∧
    answers (.debugDetach 0) (commanding 18 0 0x13000 [512]) = some (some (2, 0)) ∧
    answers (.debugResume 0) (commanding 19 0 0x13000 [1, 2 ^ 64 - 1]) = some none ∧
    answers (.debugResume 0) (commanding 19 0 0x13000 [1, 0]) = some (some (2, 0)) := by decide +kernel

theorem witness_profile :
    let s := withData (commanding 11 0xFFFF 0x13000 [0x14000, 0, 0x15000]) (leBytes 64 5)
    answers (.profile 0) { s with drafts := (drafting none none false true).drafts } = some none ∧
    answers (.profile 0) s = some (some (2, 0)) := by decide +kernel

theorem witness_treadle : answers (.treadle 0) (commanding 12 0xFFFF 0x13000 [1]) = some none ∧
    answers (.treadle 0) (commanding 12 0xFFFF 0x13000 [5]) = some (some (2, 0)) := by decide +kernel

theorem witness_notify_target : answers (.notifyTarget 0) (commanding 13 0xFFFF 0x13000 [0x14000, 7, 8]) = some none ∧
    answers (.notifyTarget 0) (commanding 13 0xFFFF 0x13000 [0x14001, 7, 8]) = some (some (2, 0)) := by decide +kernel

theorem witness_enrol_key :
    answers (.enrolKey 0) (withData (commanding 14 0xFFFF 0x13000 [3, 0x14000]) (leBytes 1 4)) = some none ∧
    answers (.enrolKey 0) (commanding 14 0xFFFF 0x13000 [3, 0x14000]) = some (some (2, 0)) := by decide +kernel

/-- What may be written depends on how many bytes it is. -/
theorem write_of_length {s : State} {c : Cmd} {a : Nat} {bs cs : List Byte} (h : bs.length = cs.length)
    (hw : (write s c a cs).isSome = true) : (write s c a bs).isSome = true := by
  unfold write at hw ⊢
  cases hr : c.reach with
  | none => simp [hr] at hw
  | some r =>
    rw [hr] at hw
    simp only [Option.bind_some, State.reachWrite, h] at hw ⊢
    split at hw
    · simp at hw
    · next hn =>
      rw [if_neg hn]
      split at hw
      · simp at hw
      · next => simp

@[simp] theorem leBytes_length (n w : Nat) : (leBytes n w).length = n := by
  induction n generalizing w with
  | zero => rfl
  | succ n ih => simp [leBytes, ih]

/-- The report is 188 bytes and its signature 132; the length of the chain is the device's (log entry 4). -/
theorem witness_attest (h : Config.deviceChain.length = 64) : let s := commanding 15 0xFFFF 0x13000 [0x14000, 0x15000]
    ∃ x c, commandOf (.attest 0) = some x ∧ s.headCommand 0 = some c ∧ c.code = x.code ∧ x.stops s c = none := by
  intro s
  obtain ⟨c, hc, h1, h2, h3⟩ : ∃ c, s.headCommand 0 = some c ∧ c.code = 15 ∧ c.reach ≠ none ∧
      (match read s c (c.op 0) 32 with
        | .ok (nonce, t) => nonce.length == 32 && (write t c (c.op 1) (leBytes 384 0)).isSome
        | .error _ => false) = true := some_any (by decide +kernel)
  refine ⟨_, c, rfl, hc, h1, ?_⟩
  have hl : s.life = .deployed := rfl
  dsimp only
  rw [if_neg (by simp [h2, hl])]
  split at h3
  · next nonce t heq =>
    rw [heq]
    simp only [Bool.and_eq_true, beq_iff_eq] at h3
    have := write_of_length (bs := reportOf t nonce ++ Config.deviceChain) (by simp [reportOf, h, h3.1]) h3.2
    dsimp only
    rw [if_neg (fun hn => by rw [hn] at this; simp at this)]
  · cases h3

theorem witness_vi_config :
    let s := commanding 16 0xFFFF 0x13000 [1]
    answers (.viConfig 0) { s with ifaces := s.ifaces ++ [(1, { configured := true })] } = some none ∧
    answers (.viConfig 0) (commanding 16 0xFFFF 0x13000 [0]) = some (some (2, 0)) := by decide +kernel

theorem witness_debug_attach : answers (.debugAttach 0) (commanding 17 0 0x13000 [0, 0x12000]) = some none ∧
    answers (.debugAttach 0) (commanding 17 0 0x13000 [512]) = some (some (2, 0)) := by decide +kernel

theorem witness_control : answers (.controlWrite 0) (commanding 20 0xFFFF 0x13000 [0, 0x1000, 7]) = some none ∧
    answers (.controlWrite 0) (commanding 20 0xFFFF 0x13000 [0, 0x1001, 7]) = some (some (2, 0)) ∧
    answers (.controlRead 0) (commanding 21 0xFFFF 0x13000 [0, 0x1000]) = some none ∧
    answers (.controlRead 0) (commanding 21 0xFFFF 0x13000 [1, 0x1000]) = some (some (2, 0)) := by decide +kernel

/-- A new launch queue at 0x12000 for context 0, sound or not. -/
def registering (size : Nat) : State :=
  let s := commanding 3 0 0x13000 [0x12000, 7]
  { s with mem := putMem s.mem 0x12000 (freshBlock 0x15000 1 0 size 0) }

/-- The command at the head, its context, and where its control block is. -/
def registers (s : State) : Option (Bool × Bool) :=
  (s.headCommand 0).bind fun c => (ctxOf s 0 c.ctx).bind fun x =>
    match s.cbAddr (s.contextSpace x) (c.op 0) with
    | .ok (pa, t) => some (decide (c.code = 3 ∧ c.op 0 % 64 = 0 ∧ t.corruption pa = 0 ∧ c.op 1 ≤ 7 ∧ t.queues = []),
        decide ((t.queue pa).esize = 64))
    | .error _ => none

theorem witness_register : registers (registering 64) = some (true, true) ∧ registers (registering 32) = some (true, false) ∧
    registers (noTable (registering 64)) = none := by
  decide +kernel

/-- CONTEXT_DESTROY of a context that closes already, with launches or without. -/
def destroying (launches : AMap Launch) : State :=
  let s := commanding 5 0xFFFF 0x13000 [0]
  { s with contexts := s.contexts.map (fun (e : Nat × Context) => (e.1, { e.2 with closing := true })), launches }

theorem witness_destroy : (∀ l ∈ [[], (site []).launches], ((destroying l).headCommand 0).any (fun c =>
      c.code == 5 && (ctxOf (destroying l) 0 (c.op 0)).any fun x => x.closing) = true) ∧
    (∃ e ∈ (destroying (site []).launches).launches, e.2.vi = 0 ∧ e.2.ctx = 0) ∧ (destroying []).launches = [] ∧
    (destroying []).deliveries = [] ∧ ∀ e ∈ (destroying []).homes, e.2.wake ++ e.2.polling = [] := by decide +kernel

/-- Shootdowns by interface 0, and by interface 1 of a VMID that is not its own. -/
def shooting (vi : Nat) (kind : Nat := vi) (ident : Nat := 7) : State :=
  let s := commanding 6 0xFFFF 0x13000 [kind, ident]
  { s with ifaces := AMap.put s.ifaces vi { configured := true, mq := 0x10000 } }

theorem witness_shootdown : ((shooting 0).headCommand 0).any (fun c => c.code == 6 && c.op 0 == 0
      && ((shooting 0).wordAddr c).isSome) = true ∧
    ((shooting 1).headCommand 1).any (fun c => c.code == 6 && c.op 0 == 1 && c.op 1 == 7
      && bitsOf ((shooting 1).iface 1).hgatp 44 8 != 7) = true := by decide +kernel

/-- Operands out of range: a kind past the last, a VMID past 8 bits, an ASID past 16; and the last of each range. -/
theorem witness_shootdown_operands : (∀ e ∈ [(4, 0), (1, 256), (2, 2 ^ 16), (3, 2 ^ 16)],
      ((shooting 0 e.1 e.2).headCommand 0).any (fun c => c.code == 6
        && decide (3 < c.op 0 ∨ (c.op 0 = 1 ∧ 2 ^ 8 ≤ c.op 1) ∨ (2 ≤ c.op 0 ∧ 2 ^ 16 ≤ c.op 1))) = true) ∧
    ∀ e ∈ [(1, 255), (3, 2 ^ 16 - 1)], ((shooting 0 e.1 e.2).headCommand 0).any (fun c => c.code == 6
        && decide (c.op 0 ≤ 3 ∧ (c.op 0 = 1 → c.op 1 < 2 ^ 8) ∧ (2 ≤ c.op 0 → c.op 1 < 2 ^ 16))
        && ((shooting 0 e.1 e.2).wordAddr c).isSome) = true := by decide +kernel

theorem witness_unknown_command : ((commanding 22 0xFFFF 0x13000 []).headCommand 0).any (fun c => c.code == 22) = true ∧
    ((commanding 21 0xFFFF 0x13000 []).headCommand 0).any (fun c => c.code == 21) = true := by decide +kernel

/-- A completion word that can be written, and one that is not aligned. -/
theorem witness_completion :
    ((commanding 21 0xFFFF 0x13000 []).headCommand 0).any (fun c =>
      ((commanding 21 0xFFFF 0x13000 []).wordAddr c).isSome) = true ∧
    ((commanding 21 0xFFFF 0x13001 []).headCommand 0).any (fun c =>
      ((commanding 21 0xFFFF 0x13001 []).wordAddr c).isNone) = true ∧
    ((commanding 21 0xFFFF 0x13000 []).headCommand 0).any (fun c =>
      let s := commanding 21 0xFFFF 0x13000 []
      let cb := (s.iface c.vi).mq
      cb % 64 == 0 && !isControlRow cb && (s.home cb).wake == [] && (s.home cb).polling == []
        && decide ((s.queue cb).free + 1 < 2 ^ 32)) = true := by decide +kernel

/-- A slot written with an operation that is not free, and with one that is. -/
theorem witness_port : ((commanding 21 0xFFFF 0x13000 []).iface 0).configured = true ∧ ((site []).iface 0).configured = false ∧
    (0x100#512).toNat / 256 % 256 ≠ 0 ∧ (1#512).toNat / 256 % 256 = 0 := by decide +kernel

/-- An image that can be read, in the staging range of an interface; what is left is whether its signature verifies (log
entry 4). -/
def pushed : State :=
  let s := site []
  { s with ifaces := [(0, { configured := true, stagingBase := 0x14000, stagingSize := 0x1000 })]
           mem := putMem s.mem 0x14000 (leBytes 4 0x474D494F ++ leBytes 8 1 ++ leBytes 4 2 ++ leBytes 8 128) }

theorem witness_pushed : (match pushed.readImage (.physical 0) 0x14000 with
    | .ok (img, _) => (pushed.iface 0).configured && decide ((pushed.iface 0).stagingBase ≤ 0x14000)
        && decide (0x14000 + img.length ≤ (pushed.iface 0).stagingBase + (pushed.iface 0).stagingSize)
    | .error _ => false) = true := by decide +kernel

/-! Steps. -/

/-- The site with one stage whose code is given. -/
def coded (native : Nat) (code : List Byte) : State :=
  { site [] with
    images := [(1, { vi := 0, addr := 0, digest := [], bytes := imageOf native [(1, 0, stageEntry 0), (6, 0, code)] })] }

/-- Code that is no instruction; a NOP; a NOP at which the region of a matrix run ends. -/
theorem witness_step : (coded 0 (leBytes 64 2)).phase = .running ∧
    ((coded 0 (leBytes 64 2)).ctx .always).any (fun c => !isNative ((coded 0 (leBytes 64 2)).imageBytes c.l)
      && !(decode ((coded 0 (leBytes 64 2)).fetchBytes c)).toBool) = true ∧
    ((coded 0 (leBytes 64 0)).ctx .always).any (fun c => (decode ((coded 0 (leBytes 64 0)).fetchBytes c)).toBool
      && (coded 0 (leBytes 64 0)).endsHere c == []) = true ∧
    let s := withPath (coded 0 (leBytes 64 0)) fun p => { p with run := 1 }
    (s.ctx .always).any (fun c => (decode (s.fetchBytes c)).toBool && s.endsHere c != []) = true := by decide +kernel

/-- The header of a bundle with COMMIT, and that with POLL too (03 Table 3.3); a bundle with COMMIT that holds an EXIT. -/
def commitHeader : Nat := 2 ^ 53
def pollHeader : Nat := 2 ^ 53 + 2 ^ 36
def exitBundle : List Byte := leBytes 8 commitHeader ++ leBytes 8 (6 * 2 ^ 54 + 15 * 2 ^ 46) ++ leBytes 48 0

/-- Which of the cases of a native step a state is in: the bundle does not decode (0), the irreversible slot performs
(1), the open region commits (2), the path stands at the poll point (3), the store buffer has no room (4), the bundle
issues (5). -/
def nativeCase (s : State) : Option Nat :=
  (s.ctx .always).bind fun c =>
    if isNative (s.imageBytes c.l) = false then none
    else
      match decodeBundle (s.fetchBytes c) (s.stageOf c.b c.l).regs with
      | .error _ => some 0
      | .ok b => some (
        if c.p.sealed then 1
        else if b.commit = false ∨ c.p.begun = true then 5
        else if s.endsHere c ≠ [] then 2
        else if b.poll = true ∧ c.p.wait ≠ .poll ∧ c.b.marked c.l = true then 3
        else if (s.openRegion c b).isNone then 4
        else 5)

theorem witness_native_step : nativeCase (coded 1 (leBytes 64 1)) = some 0 ∧
    nativeCase (withPath (coded 1 exitBundle) fun p => { p with sealed := true }) = some 1 ∧
    nativeCase (withPath (coded 1 (leBytes 64 commitHeader)) fun p =>
      { p with snap := some { pc := 0, mask := 3, threads := [], cregs := [], sregs := [], staging := []
                              tokens := (0, 0), table := [] } }) = some 2 ∧
    nativeCase ((coded 1 (leBytes 64 pollHeader)).updBlock (2 ^ 36) fun b => { b with evict := true }) = some 3 ∧
    nativeCase (withPath (coded 1 (leBytes 64 commitHeader)) fun p => { p with reserved := 8193 }) = some 4 ∧
    nativeCase (coded 1 (leBytes 64 pollHeader)) = some 5 ∧ nativeCase (coded 1 (leBytes 64 commitHeader)) = some 5 ∧
    nativeCase (coded 1 (leBytes 64 0)) = some 5 := by decide +kernel

/-- The irreversible slot of a bundle performs at once, or waits for a gather latch that its region fills. -/
theorem witness_late_slot : ((coded 1 exitBundle).ctx .always).any (fun c =>
    match decodeBundle ((coded 1 exitBundle).fetchBytes c) 96 with
    | .ok b => (lateSlot b).any (fun x => Instr.control x.2.2.2) && !(coded 1 exitBundle).fillsDue c
    | .error _ => false) = true ∧
    ((committing [[4], []]).ctx .always).any (fun c => (committing [[4], []]).fillsDue c) = true := by decide +kernel

/-- The slots of a bundle follow one another. -/
theorem witness_slots : ((coded 1 (leBytes 64 0)).ctx .always).any (fun c =>
    match decodeBundle ((coded 1 (leBytes 64 0)).fetchBytes c) 96 with
    | .ok b => match slotOrder b with
      | x :: _ => match exec x.2.2.2 { coded 1 (leBytes 64 0) with cur := some (slotCur c b x) } with
        | .next u => !u.slotStops c
        | _ => false
      | [] => false
    | .error _ => false) = true := by decide +kernel

/-- A machine on which nothing is selected, and an event has been asked for. -/
def asked : State := { State.reset with phase := .running, agenda := [.supplyAndCoolantWithinLimits], cap := 2500 }

theorem witness_event_step : asked.phase = .running ∧ asked.cur = none ∧ choosesIssue .supplyAndCoolantWithinLimits = false ∧
    (match step asked with | .next t => t.cap == 7500 | _ => false) = true := by decide +kernel

theorem witness_selected : Selected (coded 0 (leBytes 64 0)) ∧
    ∃ t, step (coded 0 (leBytes 64 0)) = .next t := by
  constructor
  · obtain ⟨x, hx, h⟩ : ∃ x, (coded 0 (leBytes 64 0)).cur = some x ∧ (x.slot = none ∧
        ∃ g ∈ AMap.find? (coded 0 (leBytes 64 0)).groups x.grp, (coded 0 (leBytes 64 0)).eligible g = some x.path) :=
      some_any (by decide +kernel)
    intro cur hc
    obtain rfl : x = cur := Option.some.inj (hx.symm.trans hc)
    exact ⟨h.1, h.2.choose, h.2.choose_spec.1, h.2.choose_spec.2⟩
  · have h : (match step (coded 0 (leBytes 64 0)) with | .next _ => true | _ => false) = true := by decide +kernel
    split at h
    · next t ht => exact ⟨t, ht⟩
    · cases h

theorem witness_kept : Kept asked := by
  refine ⟨?_, ?_, ?_, ?_, ?_, ?_, ?_, ?_, ?_, ?_, ?_, ?_, ?_, ?_, ?_, ?_, ?_, ?_, ?_, ?_, fun d => ?_⟩ <;>
    first | decide +kernel | skip
  show (Cells.get ([] : Cells 64) d).toNat < 2 ^ 48
  simp [Cells.get, AMap.find?]

theorem witness_encode : (Instr.ld .always .n32 .acq .device (.v 5) { space := .g, base := .v 4, off := 16 }).wf = true ∧
    (encode (.ld .always .n32 .acq .device (.v 5) { space := .g, base := .v 4, off := 16 })).isSome = true := by
  decide +kernel

/-- A launch whose draft does not exist yet. -/
def undrafted : State :=
  { bindable with images := [(1, { vi := 0, addr := 0, digest := [], bytes := imageOf 0 [(1, 0, stageEntry 0), (6, 0, [])] })] }

theorem not_ready {s : State} {l : Launch} (h : ∀ e ∈ s.drafts, e.2.ready = false) (hk : (draftKeys (s.imageBytes l)).length ≠ 0) :
    s.draftsReady l = false := by
  cases hks : draftKeys (s.imageBytes l) with
  | nil => simp [hks] at hk
  | cons k ks =>
    simp only [State.draftsReady, hks, List.all_cons, Bool.and_eq_false_iff]
    left
    split
    · next d hd => exact h d (List.mem_of_find?_eq_some hd)
    · rfl

theorem witness_bind_undrafted : (AMap.find? undrafted.launches 1).any (fun l => !(undrafted.requestDrafts l).draftsReady l)
    = true := by
  obtain ⟨l, hl, h1, h2⟩ : ∃ l, AMap.find? undrafted.launches 1 = some l ∧
      (∀ e ∈ (undrafted.requestDrafts l).drafts, e.2.ready = false) ∧
      (draftKeys ((undrafted.requestDrafts l).imageBytes l)).length ≠ 0 := some_any (by decide +kernel)
  simp [hl, not_ready h1 h2]

/-! Words of the spec's encodings beyond those of the obligation, and decoding that refuses. -/

/-- What the decoder reads from bytes. -/
def readsAs (xs : List Nat) (i : Instr) : Bool :=
  match decode (xs.map (BitVec.ofNat 8)) with
  | .ok (j, n) => decide (j = i ∧ n = xs.length)
  | .error _ => false

/-- 22: MMA of E2M1 without scales, and ACCSCALE of two blocks. -/
theorem test_decode_matrix :
    readsAs [0, 0, 0, 0, 0x80, 0xC1, 0x33, 0xA3, 0, 0, 0, 0x70] (.mma .always .e2m1 .e2m1 0 0 true 0 0 0) = true ∧
    readsAs [0x7F, 0xAF, 0, 0, 0, 0xC2, 0xC3, 0xA4, 3, 0, 0, 0x30, 0x21, 0, 0, 0x70]
      (.accscale .always 0 0 2 3 2 (.v 10)) = true := by decide +kernel

/-- 23: REDUCE and ROWOP. -/
theorem test_decode_engines :
    (match decode ([0x00, 0x50, 0, 0, 0, 0xC1, 0x83, 0x91, 0, 0, 0x80, 0x68].map (BitVec.ofNat 8)) with
      | .ok (.reduce _ _ _ (some a), 12) => decide (a = .v 5)
      | _ => false) = true ∧
    (match decode ([0x14, 0x60, 0x01, 0x15, 0, 0xC1, 0xC3, 0x91, 0, 0, 0xC8, 0x69].map (BitVec.ofNat 8)) with
      | .ok (.rowop _ _ _ _ (some _), 12) => true
      | _ => false) = true := by decide +kernel

/-- 17: `atom.incw.n32.l v3, [v8+64], v9` has OPC 0x1E1, TY 6 and an OFFS parcel. -/
theorem test_encode_atom :
    (encode (.atom .always .incw .n32 .rlx .core false (some (.v 3)) { space := .l, base := .v 8, off := 64 } (.v 9) {})).map
      (fun bs => (bs.length, bitsOf (leNat bs) 54 10, bitsOf (leNat bs) 50 4)) = some (12, 0x1E1, 6) := by decide +kernel

/-- 15: v10000 is 0x910 in its field, and 2 in REGHI. -/
theorem test_encode_high_register :
    (encode (.mov .always .b32 (.v 10000) (.v 1))).map (fun bs => (bs.length, bitsOf (leNat bs) 24 12)) =
      some (12, 0x910) := by decide +kernel

/-- Words cut short, of no opcode, of no type, with an empty operand field that is not zero. -/
theorem test_decode_refuses : (decode (leBytes 4 0)).toBool = false ∧ (decode (leBytes 8 (0x3FF * 2 ^ 54))).toBool = false ∧
    (decode (leBytes 8 (0x040 * 2 ^ 54 + 15 * 2 ^ 50 + 15 * 2 ^ 46))).toBool = false ∧
    (decode (leBytes 8 (15 * 2 ^ 46 + 1))).toBool = false := by decide +kernel

/-- 16: the header of a commit point that is also a poll point. -/
theorem test_bundle_header : (match decodeBundle (leBytes 8 0x382000F000000000 ++ leBytes 56 0) 96 with
    | .ok b => b.commit && b.poll && b.cpidx == 7
    | .error _ => false) = true := by decide +kernel

/-! Terms that are not well-formed, one for each check. -/

def allRefused (is : List Instr) : Bool := is.all fun i => !i.wf

theorem test_ill_formed_control : allRefused
    [.nop (.pred 12 false) false, .bra .always 2, .bra .always (2 ^ 27), .brx .always .i32 (.v 1), .brx .always .n32 (.imm 4),
     .call .always (.p 1) 4, .call .always (.v 1) 1, .callx .always .b64 (.v 1) (.v 2), .callx .always .n64 (.k 1) (.v 2),
     .callx .always .n64 (.v 1) (.imm 8), .ret .always .f32 (.v 1), .ret .always .n64 (.v 983040), .exit (.pred 13 true),
     .trap .always 512, .trapHandler .always 512 (.v 1) 4, .trapHandler .always 1 (.k 1) 4, .trapHandler .always 1 (.v 1) 3,
     .tret (.pred 15 false), .brk .always 512, .yield (.pred 12 false), .reform .always (some 2)] = true := by decide +kernel

theorem test_ill_formed_integer : allRefused
    [.iadd .always .b32 false (.v 1) (.v 2) (.v 3), .iadd .always .i32 false (.k 1) (.v 2) (.v 3),
     .iadd .always .i32 false (.v 1) (.v 2) (.p 12), .isub .always .i32 false (.v 1) (.imm 1) (.imm 2),
     .imul .always .i8 (.v 1) (.v 2) (.v 3), .imad .always .i32 false (.v 1) (.v 2) (.v 3) (.k 64),
     .ineg .always .n32 false (.v 1) (.v 2), .iabs .always .i32 false (.v 1) (.imm 2),
     .lea .always .n32 8 false (.v 1) (.v 2) (.v 3), .lea .always .i32 1 false (.v 1) (.v 2) (.v 3),
     .and .always .i32 (.v 1) (.v 2) (.v 3), .not .always .b32 (.v 1) (.imm 1), .shl .always .f32 (.v 1) (.v 2) (.v 3),
     .shr .always .b32 (.v 1) (.v 2) (.v 3), .bfi .always .n32 (.v 1) (.v 2) (.v 3) (.v 4),
     .sel .always .b64 (.v 3840) (.imm (2 ^ 60)) (.v 3) (.v 4), .mov .always .b32 (.k 64) (.v 1),
     .mov .always .n32 (.v 1) (.v 1)] = true := by decide +kernel

theorem test_ill_formed_float : allRefused
    [.fadd .always .i32 .rne (.v 1) (.v 2) (.v 3), .fadd .always .f32 .rs (.v 1) (.v 2) (.v 3),
     .fadd .always .f32 .rne (.v 1) (.v 2) (.imm 0x3F800001), .fadd .always .f16 .rne (.v 1) (.v 2) (.imm 0x3F800010),
     .ffma .always .bf16 .rs (.v 1) (.v 2) (.v 3) (.v 4), .fsqrt .always .f32 .rne (.v 1) (.imm 0), .frcp .always .b32 (.v 1) (.v 2),
     .fmin .always .n32 (.v 1) (.v 2) (.v 3), .fcvt .always .f32 .f32 .rne (.v 1) (.v 2),
     .fcvt .always .f32 .f16 .rs (.v 1) (.v 2), .fcvt .always .i32 .f16 .rne (.v 1) (.v 2),
     .fcvti .always .i32 .f32 .rs (.v 1) (.v 2), .fcvti .always .f32 .f32 .rne (.v 1) (.v 2),
     .icvtf .always .f32 .i32 .rs (.v 1) (.v 2), .icvtf .always .f32 .f32 .rne (.v 1) (.v 2), .bpenc .always (.v 1) (.imm 1),
     .bpdec .always 1 (.v 1) (.v 2), .bpdec .always 9 (.v 1) (.v 2)] = true := by decide +kernel

theorem test_ill_formed_group : allRefused
    [.plop .always 16 0 0 0, .plop .always 0 12 0 0, .plop .always 0 0 12 0, .plop .always 0 0 0 12, .pmov .always true 12 (.v 1),
     .pmov .always true 1 (.p 2), .pmov .always false 1 (.k 2), .ballot .always (.v 1) (.imm 1), .vote .always .all (.k 1) (.v 1),
     .shfl .always .n32 .idx (.v 1) (.v 2) (.v 3), .gred .always .and .n32 (.v 1) (.v 2), .gscan .always .add true .b32 (.v 1) (.v 2)]
    = true := by decide +kernel

theorem test_ill_formed_memory : allRefused
    [.ld .always .n32 .rel .device (.v 1) { space := .g, base := .v 2 }, .ld .always .n32 .rlx .core (.k 1) { space := .g, base := .v 2 },
     .ld .always .n32 .rlx .core (.v 1) { space := .g, base := .v 2, sw := 1 },
     .ld .always .n32 .rlx .core (.v 1) { space := .l, base := .v 2, sw := 8 },
     .ld .always .n32 .rlx .core (.v 1) { space := .l, base := .v 2, off := 2 ^ 24 },
     .ld .always .n32 .rlx .core (.v 1) { space := .g, base := .v 2, off := 2 ^ 27 },
     .ld .always .n32 .rlx .core (.v 1) { space := .g, base := .v 2, idx := some (.v 3) },
     .st .always .n32 .acq .device { space := .g, base := .v 2 } (.v 1) {},
     .st .always .n32 .rlx .device { space := .g, base := .v 2 } (.v 1) { c0 := some 1 },
     .st .always .n32 .rel .device { space := .g, base := .v 2 } (.v 1) { c0 := some 16 },
     .ldt .always .n64 (.v 1) 0 (.v 2) (.v 3), .ldt .always .n32 (.v 1) 64 (.v 2) (.v 3), .stt .always .b64 0 (.v 1) (.v 2) (.v 3),
     .stt .always .f32 0 (.imm 1) (.v 2) (.imm 0x3F800000), .fence .always .acq .device { c0 := some 1 },
     .drain .always .device { c2 := some 16 }, .lock .always (.v 1) (.imm 1) (.v 2), .unlock .always (.k 1) (.v 1) (.v 2),
     .atom .always .sub .f32 .rlx .core false (some (.v 1)) { space := .l, base := .v 2 } (.v 3) {},
     .atom .always .add .n32 .acq .core true none { space := .l, base := .v 2 } (.v 3) {},
     .atom .always .add .n32 .rlx .core false none { space := .l, base := .v 2 } (.v 3) {},
     .atombadd .always .i32 .rlx .core true none 0 { space := .l, base := .v 2 } (.v 3) (.v 4) {},
     .atombadd .always .n32 .rlx .core true none 12 { space := .l, base := .v 2 } (.v 3) (.v 4) {},
     .atomcas .always .n32 .rlx .core (.v 1) { space := .l, base := .v 2 } (.v 3) (.v 4) {},
     .pollbk .always .device (.v 1) { space := .l, base := .v 2 }] = true := by decide +kernel

theorem test_ill_formed_queues : allRefused
    [.enq .always .core (.imm 1) (.reg (.v 1)), .enq .always .core (.v 1) (.spad (.v 2) 8 16), .enq .always .core (.v 1) (.spad (.v 2) 0 12),
     .deq .always .core (.v 1) (.reg (.imm 1)), .enqtry .always .core (.k 1) (.v 1) (.reg (.v 2)),
     .deqtry .always .core 12 (.v 1) (.reg (.v 2)), .qinit .always .core (.v 1) (.v 2) (.imm 3), .qstat .always .core (.v 1) (.imm 2),
     .bararm .always 32 (.v 1) (.v 2) (.v 3), .bararr .always 0 8 (.v 1), .bararr .always 32 0 (.v 1), .barwait .always 0 8,
     .barwait .always 32 0, .barrot .always 32, .barsync (.pred 12 false)] = true := by decide +kernel

theorem test_ill_formed_tiles : allRefused
    [.tdecl .always .f32 8 0 (.v 1) 0 0, .tdecl .always .f32 0 64 (.v 1) 0 0, .tdecl .always .f32 0 0 (.imm 1) 0 0,
     .tdecl .always .f32 0 0 (.v 1) 32 0, .tdecl .always .f32 0 0 (.v 1) 0 8, .tfree .always 64, .tstateReady .always 64,
     .tload .always 16 {} (some (.v 1)), .tload .always 0 {} none, .reduce .always 16 {} (some (.v 1)),
     .copy .always 0 {} none,
     .copy .always 0 {} (some { scope := .device, dstSpace := .g, srcSpace := .g, dst := .v 4, src := .v 6
                                count := .v 8, arrival := .tile 64 }),
     .copy .always 0 {} (some { scope := .device, dstSpace := .g, srcSpace := .g, dst := .v 4, src := .v 6
                                count := .v 8, arrival := .bar 32 0 }),
     .rowop .always .zero 0 {} none, .flush .always .core 0 {} (.v 1) (.v 2), .inval .always .die 16 {} (.v 1) (.v 2),
     .trig .always .filter 0 none, .trig .always .start 0 (some (.v 1))] = true := by decide +kernel

theorem test_ill_formed_matrix : allRefused
    [.mma .always .f16 .bf16 0 0 false 0 0 0, .mma .always .bpi .bpi 1 8 false 0 0 0, .mma .always .f16 .f16 0 0 false 128 0 0,
     .mma .always .f16 .f16 0 0 true 64 0 0, .mma .always .f16 .f16 0 0 false 0 2 0, .mma .always .f16 .f16 0 0 false 0 0 8,
     .latch .always .f32 0 (.v 1) (.v 2) 0 0, .latch .always .f16 0 (.v 1) (.v 2) 8 0, .latch .always .f16 0 (.v 1) (.v 2) 0 64,
     .gatherTile .always .f16 0 16 0 0 (.v 1) (.v 2), .gatherTile .always .f16 0 0 2 0 (.v 1) (.v 2),
     .gatherSpad .always .f16 0 0 0 8 (.v 1), .accscale .always 128 0 0 0 1 (.v 1), .accscale .always 0 64 0 0 1 (.v 1),
     .accscale .always 0 0 0 0 9 (.v 1), .accrd .always .f32 false .rs 0 0, .accrd .always .f32 true .rne 0 0,
     .accrd .always .f32 false .rne 64 0, .accwr .always .e4m3 0 0, .accwr .always .f32 128 0, .accclr .always false 128 1,
     .accclr .always true 64 1, .accclr .always false 0 0] = true := by decide +kernel

theorem test_ill_formed_rest : allRefused
    [.sysrd .always (.k 1) (.v 1), .syswr .always (.p 12) (.v 1), .clock .always (.k 1), .satrd .always (.imm 1), .satarm (.pred 12 false),
     .satclr .always (.v 983040), .stgw .always .sh 8 (.s 1), .stgw .always .sh 0 (.imm 16), .groupSelect 1536, .bobbinDraw 0 64,
     .gatherComplete 0 2, .blockPlace 1 16, .faultRecordDeliver 64 0, .bankRetire 1024 0, .sparingRowCopy 1024,
     .queuePortStart 0 64 0 false, .dbgCaptureWrite 64 0, .publish 64, .correctedError 11 0 0, .draftCreate 8] = true := by
  decide +kernel

/-! Values that the spec's examples work out, and corners of its rules. -/

/-- The register of the first lane, or of another, after an instruction. -/
def lane_ (k r : Nat) : Host.Outcome State Fault Refusal → Option Nat
  | .next t => some (Cells.get t.vregs (vregKey (2 ^ 47 + k) r)).toNat
  | _ => none

/-- 17 BFX: the field at 4 of 8 bits of 0xF30. -/
theorem test_bfx : lane_ 0 5 (exec (.bfx .always .n32 (.v 5) (.v 1) (.imm 0x804)) (site [(1, 0xF30)])) = some 0xF3 ∧
    (lane_ 0 5 (exec (.bfx .always .i32 (.v 5) (.v 1) (.imm 0x804)) (site [(1, 0xF30)]))).map (· % 2 ^ 32) = some 0xFFFFFFF3 := by
  decide +kernel

/-- 19 IMAD: 2^30 * 4 - 1 clamps; LEA with a negative index. -/
theorem test_imad : (lane_ 0 9 (exec (.imad .always .i32 true (.v 9) (.v 1) (.v 2) (.v 3))
    (site [(1, 2 ^ 30), (2, 4), (3, 0xFFFFFFFF)]))).map (· % 2 ^ 32) = some 0x7FFFFFFF := by decide +kernel

theorem test_lea : lane_ 0 6 (exec (.lea .always .n64 3 true (.v 6) (.v 2) (.v 3))
    (site [(2, 0x100000000040), (3, 0xFFFFFFFE)])) = some 0x100000000030 := by decide +kernel

/-- 19 R409: division by zero gives all ones, and leaves the dividend. -/
theorem test_division_by_zero : lane_ 0 5 (exec (.idiv .always .n32 (.v 5) (.v 1) (.v 2)) (site [(1, 9)])) = some 0xFFFFFFFF ∧
    lane_ 0 5 (exec (.irem .always .n32 (.v 5) (.v 1) (.v 2)) (site [(1, 9)])) = some 9 := by decide +kernel

/-- 19 R408: a sum wraps; 20 R425: a shift by the width leaves nothing. -/
theorem test_wrap : lane_ 0 5 (exec (.iadd .always .n32 false (.v 5) (.v 1) (.imm 1)) (site [(1, 0xFFFFFFFF)])) = some 0 ∧
    lane_ 0 5 (exec (.shl .always .b32 (.v 5) (.v 1) (.imm 32)) (site [(1, 7)])) = some 0 := by decide +kernel

/-- 18: FFMA is not FMUL followed by FADD. -/
theorem test_ffma : lane_ 0 5 (exec (.ffma .always .f32 .rne (.v 5) (.v 1) (.v 1) (.imm 0xBF800000)) (site [(1, 0x3F800800)]))
      = some 0x3A000400 ∧
    lane_ 0 5 (exec (.fmul .always .f32 .rne (.v 5) (.v 1) (.v 1)) (site [(1, 0x3F800800)])) = some 0x3F801000 := by
  decide +kernel

/-- 09, worked conversions. -/
theorem test_conversions :
    let conv (rm : Rounding) (x : Word) : Option Nat :=
      lane_ 0 5 (exec (.fcvt .always .e4m3 .f32 rm (.v 5) (.v 1)) (site [(1, x)]))
    conv .rne 0x3F880000 = some 0x38 ∧ conv .rne 0x43EB0000 = some 0x7E ∧ conv .rne 0x3A800000 = some 0 ∧
    conv .ru 0x3A800000 = some 1 := by decide +kernel

theorem test_conversions_narrow :
    lane_ 0 5 (exec (.fcvt .always .e2m1 .f32 .rne (.v 5) (.v 1)) (site [(1, 0xC0200000)])) = some 0xC ∧
    lane_ 0 5 (exec (.fcvt .always .e2m1 .f32 .rne (.v 5) (.v 1)) (site [(1, 0x40E00000)])) = some 7 ∧
    lane_ 0 5 (exec (.fcvt .always .bf16 .f32 .rne (.v 5) (.v 1)) (site [(1, 0x3F808000)])) = some 0x3F80 ∧
    (lane_ 0 5 (exec (.fcvti .always .i8 .f32 .rne (.v 5) (.v 1)) (site [(1, 0xC3026666)]))).map (· % 256) = some 0x80 := by
  decide +kernel

/-- 09: two lanes round one value with their own streams, which take a step. -/
theorem test_stochastic :
    let o := exec (.fcvt .always .e4m3 .f32 .rs (.v 5) (.v 1))
      { site [(1, 0x3F840000)] with threads := [(2 ^ 47, { rs := 6 }), (2 ^ 47 + 1, { rs := 3 })] }
    lane_ 0 5 o = some 0x39 ∧ lane_ 1 5 o = some 0x38 ∧
      (match o with | .next t => t.threads.map fun e => e.2.rs.toNat | _ => []) = [3, 0x80200002] := by decide +kernel

/-- 09: 100 and -3 in bit planes, at three widths. -/
theorem test_bit_planes :
    let codes (e : Nat) : Nat := [100, 0xFD].getD e 0
    ((span 0 8).map (planeWord codes)) = [2, 3, 3, 2, 2, 3, 0, 2] ∧
    ((span 0 2).map (planesValue 4 (planeWord codes))) = [6, -1] ∧
    ((span 0 2).map (planesValue 2 (planeWord codes))) = [1, -1] := by decide +kernel

/-- 10: the tree of one BF16 output, in two K orders. -/
theorem test_mma_tree :
    let r (a : List Nat) := ((mmaElement .bf16 .bf16 0 0 1 false 0 (fun k => a.getD k 0) fun _ => 0x3F80).getLast?).map fun e => e.val
    r [0x4B80, 0x3F80, 0xCB80, 0x3F80] = some 0x3F800000 ∧ r [0x4B80, 0xCB80, 0x3F80, 0x3F80] = some 0x40000000 := by
  decide +kernel

/-- 19: the orders of GRED and GSCAN. -/
theorem test_collectives :
    let a (l : Nat) : Nat := [0x4B800000, 0x3F800000, 0x3F800000, 0x3F800000].getD l 0
    (reduceTree (collOp .add .f32) 6 ((span 0 64).map fun l => if l < 4 then some (a l) else none)).1 = some 0x4B800001 ∧
    ((scanLanes (collOp .add .f32) false 0 a none [0, 1, 2, 3]).1.map fun e => e.2).getLast? = some 0x4B800000 := by
  decide +kernel

/-- 21: at the edge of a shift a lane keeps its own value. -/
theorem test_shfl :
    let o := exec (.shfl .always .b32 .down (.v 2) (.v 1) (.imm 1))
      { site [] with vregs := regsOf [(1, 10)] (2 ^ 47) (regsOf [(1, 11)] (2 ^ 47 + 1) []) }
    lane_ 0 2 o = some 11 ∧ lane_ 1 2 o = some 11 := by decide +kernel

/-- 11: ATOMBADD of 3 below 10 to a word that holds 7; then another lane finds 10. -/
theorem test_atombadd :
    let o := exec (.atombadd .always .n32 .rel .device false (some (.v 5)) 2 { space := .g, base := .v 4, off := 8 } (.v 6) (.v 7) {})
      { site [(4, 0x10000), (6, 3), (7, 10)] with mem := putMem (site []).mem 0x10008 (leBytes 4 7) }
    lane_ 0 5 o = some 7 ∧ lane_ 1 5 o = some 10 := by decide +kernel

/-- 11: INCW at its bound gives 0, and past 0 gives 1. -/
theorem test_incw :
    let o := exec (.atom .always .incw .n32 .rlx .device false (some (.v 5)) { space := .g, base := .v 4 } (.v 6) {})
      { site [(4, 0x10000), (6, 10)] with mem := putMem (site []).mem 0x10000 (leBytes 4 10) }
    lane_ 0 5 o = some 10 ∧ lane_ 1 5 o = some 0 := by decide +kernel

/-- 04: a column walk in swizzle mode 1; 01: the cluster and the die of core 1,101; 11: a row of a frame. -/
theorem test_addresses : swizzle 1 0x1800 = 0x18C0 ∧ clusterOf 1101 = 275 ∧ dieOf 1101 = 5 ∧
    stackOf 0x50D2200000 = 5 ∧ rowOf (0x50D2200000 + 0x80C00) = 3 := by decide +kernel

/-- 20: the shape word of a queue of 8 elements of 64 bytes. -/
theorem test_qinit : (match exec (.qinit .always .device (.v 1) (.v 2) (.v 3))
      (site [(1, 0x10000), (2, 0x11000), (3, 0x400903)]) with
    | .next t => let q := t.queue 0x10000; (q.cap, q.esize, q.free, t.corruption 0x10000)
    | _ => (0, 0, 0, 9)) = (8, 64, 8, 0) := by decide +kernel

/-- 07 and 20: a queue of 8 with head 5 and tail 11 after a DEQ of 2 and an ENQ of 3, as QSTAT reads it. -/
theorem test_qstat : lane_ 0 5 (exec (.qstat .always .device (.v 5) (.imm 0x10000)) (recordQueue 3 1 0 7 7)) =
    some 0x0001000001000007 := by decide +kernel

/-- The check value of the CRC of 07 R158. -/
theorem test_crc : crc16 (([49, 50, 51, 52, 53, 54, 55, 56, 57] : List Nat).map (BitVec.ofNat 8)) = 0x29B1 := by decide +kernel

/-- 03 R62 and 02 R33: a store to the scratchpad reads back; 12 Table 12.1: a misaligned one freezes its block. -/
theorem test_store : (match exec (.st .always .n32 .rlx .core { space := .l, base := .v 1 } (.v 2) {})
      (site [(1, 0x40), (2, 0x01020304)]) with
    | .next t => (span 0 4).map fun i => (Cells.get t.spad (spadKey 0 (0x40 + i))).toNat
    | _ => []) = [4, 3, 2, 1] ∧
    (match exec (.st .always .n32 .rlx .core { space := .l, base := .v 1 } (.v 2) {}) (site [(1, 0x41)]) with
    | .next t => (AMap.find? t.blocks (2 ^ 36)).map fun b => (b.st, b.fault.map fun f => f.code)
    | _ => none) = some (.frozen, some .align) := by decide +kernel

/-- A word stored where the step fetches is the instruction of that step. -/
theorem test_fetch_word : (match step (State.reset.withFetchWord 96 0x330000FC_3028E110_07002F7F) with
    | .next t => (AMap.find? t.groups (2 ^ 42)).map fun g => g.paths.map fun p => p.pc
    | _ => none) = some [12] := by decide +kernel

/-- The digest of the empty message, as FIPS 180-4 implementations publish it, and the generator of P-521 as a key. -/
theorem test_sha512_empty : (sha512 []).take 8 = [0xcf, 0x83, 0xe1, 0x35, 0x7e, 0xef, 0xb8, 0xbd] := by decide +kernel

theorem test_generator_is_a_public_key :
    publicKey (4 :: beBytes 66 p521Gx ++ beBytes 66 p521Gy) = some (p521Gx, p521Gy) := by decide +kernel

/-- 15 R315; 18 Table 18.1 "EXIT: no operands; XN 0": an EXIT with a REGHI parcel of zeros is no instruction. -/
theorem test_exit_takes_no_parcel : decodeTableWord 96 0x10000000_0183C100_00000000 = none := by decide +kernel

/-- 15 Tables 15.10 to 15.13: a BRA slot whose A, B and C are 0xFFFFFB goes 5 bundles back; STGW (OPC 0x24B) with the
register s3 and MOD 25, set re, decodes in an SCL slot, and with MOD 9, an unassigned set, does not; a load's swizzle mode stands in SWZ
for `.w` and is refused for `.g`. -/
theorem test_native_slots :
    ((NSlot.parse (0x001 <<< 54 ||| 15 <<< 46 ||| 0xFFFFFB)).instr .scl .device 32).toOption.bind Instr.disp = some (-5) ∧
    ([25, 9].map fun m => ((NSlot.parse (0x24B <<< 54 ||| 15 <<< 46 ||| m <<< 32 ||| 131 <<< 16)).instr
      .scl .device 32).toOption.isSome) = [true, false] ∧
    ((NSlot.parse (0x183 <<< 54 ||| 7 <<< 50 ||| 15 <<< 46 ||| 1 <<< 38 ||| 4 <<< 24 ||| 6 <<< 16 ||| 240 <<< 8)).instr
      (.mem 0) .device 32).toOption.isSome = true ∧
    ((NSlot.parse (0x180 <<< 54 ||| 7 <<< 50 ||| 15 <<< 46 ||| 1 <<< 38 ||| 4 <<< 24 ||| 6 <<< 16 ||| 240 <<< 8)).instr
      (.mem 0) .device 32).toOption.isSome = false := by decide +kernel

end Sys2Proof.Tests
end

section
/-! The sequencers: their events, and the group that is chosen to issue (02 R30, R36; 03 R58; 07 R166; 08 R202; 10
R225). -/

namespace Sys2Proof.Machine

open Sys2Proof.Safety Sys2Proof.Claims

/-! The best of a list by an order: what one pass over it keeps. -/

section Pick

variable {α : Type} {r : α → α → Bool}

theorem foldl_pick_mem (a : α) (l : List α) : l.foldl (fun m x => if r x m then x else m) a ∈ a :: l := by
  induction l generalizing a with
  | nil => exact List.mem_cons_self
  | cons x l ih =>
    rw [List.foldl_cons]
    rcases List.mem_cons.1 (ih (if r x a then x else a)) with h | h
    · rw [h]
      split
      · exact List.mem_cons_of_mem _ List.mem_cons_self
      · exact List.mem_cons_self
    · exact List.mem_cons_of_mem _ (List.mem_cons_of_mem _ h)

/-- What is kept stands before all others in every preorder that the test decides. -/
theorem foldl_pick_le {le : α → α → Prop} (refl : ∀ x, le x x) (trans : ∀ x y z, le x y → le y z → le x z)
    (hr : ∀ x m, r x m = true → le x m) (hn : ∀ x m, r x m = false → le m x) (a : α) (l : List α) :
    ∀ y ∈ a :: l, le (l.foldl (fun m x => if r x m then x else m) a) y := by
  induction l generalizing a with
  | nil => intro y hy; rw [List.mem_singleton.1 hy]; exact refl a
  | cons x l ih =>
    rw [List.foldl_cons]
    have hm := ih (if r x a then x else a)
    have best := hm _ List.mem_cons_self
    have hxa : le (if r x a then x else a) x ∧ le (if r x a then x else a) a := by
      cases h : r x a with
      | true => exact ⟨refl x, hr x a h⟩
      | false => exact ⟨hn x a h, refl a⟩
    intro y hy
    rcases List.mem_cons.1 hy with rfl | hy
    · exact trans _ _ _ best hxa.2
    · rcases List.mem_cons.1 hy with rfl | hy
      · exact trans _ _ _ best hxa.1
      · exact hm y (List.mem_cons_of_mem _ hy)

end Pick

/-- Of a list that is not empty one is picked, and it stands before all others in every preorder that the test
decides. -/
theorem pickBy_of_mem {r : Group → Group → Bool} {le : Group → Group → Prop} (refl : ∀ x, le x x)
    (trans : ∀ x y z, le x y → le y z → le x z) (hr : ∀ x m, r x m = true → le x m)
    (hn : ∀ x m, r x m = false → le m x) {gs : AMap Group} {e : Nat × Group} (he : e ∈ gs) :
    ∃ f ∈ gs, pickBy r gs = some f ∧ ∀ x ∈ gs, le f.2 x.2 := by
  cases gs with
  | nil => cases he
  | cons a gs =>
    exact ⟨_, foldl_pick_mem (r := fun x m : Nat × Group => r x.2 m.2) a gs, rfl,
      foldl_pick_le (r := fun x m : Nat × Group => r x.2 m.2) (le := fun x y => le x.2 y.2) (fun x => refl x.2)
        (fun x y z => trans x.2 y.2 z.2) (fun x m => hr x.2 m.2) (fun x m => hn x.2 m.2) a gs⟩

/-- The order of a sequencer's choice: back-off level, then placement, then group context (08 R202). -/
def Precedes (a b : Group) : Prop :=
  a.backoff < b.backoff ∨ (a.backoff = b.backoff ∧ (a.placed < b.placed ∨ (a.placed = b.placed ∧ a.gid ≤ b.gid)))

theorem precedes_of_before (a b : Group) (h : a.before b = true) : Precedes a b := by
  unfold Group.before at h
  unfold Precedes
  split at h
  · exact .inl (of_decide_eq_true h)
  · split at h
    · have := of_decide_eq_true h; omega
    · have := of_decide_eq_true h; omega

theorem precedes_of_not_before (a b : Group) (h : a.before b = false) : Precedes b a := by
  unfold Group.before at h
  unfold Precedes
  split at h
  · have := of_decide_eq_false h; omega
  · split at h
    · have := of_decide_eq_false h; omega
    · have := of_decide_eq_false h; omega

/-- Of groups of which one is late, the sequencer's first choice is one that is longest passed over. -/
theorem starved_of_mem {gs : AMap Group} {e : Nat × Group}
    (he : e ∈ gs.filter fun e => decide (1024 ≤ e.2.passed)) :
    ∃ f ∈ gs.filter fun e => decide (1024 ≤ e.2.passed), starved gs = some f ∧
      ∀ x ∈ gs.filter fun e => decide (1024 ≤ e.2.passed), x.2.passed ≤ f.2.passed :=
  pickBy_of_mem (le := fun a b => b.passed ≤ a.passed) (fun _ => Nat.le_refl _) (fun _ _ _ h h' => Nat.le_trans h' h)
    (fun _ _ h => Nat.le_of_lt (of_decide_eq_true h)) (fun _ _ h => Nat.le_of_not_lt (of_decide_eq_false h)) he

theorem starved_of_none {gs : AMap Group} (h : gs.filter (fun e => decide (1024 ≤ e.2.passed)) = []) :
    starved gs = none := by rw [starved, h]; rfl

/-- With no group late, its second choice is one that no other precedes. -/
theorem pickBy_before_of_mem {gs : AMap Group} {e : Nat × Group} (he : e ∈ gs) :
    ∃ f ∈ gs, pickBy Group.before gs = some f ∧ ∀ x ∈ gs, Precedes f.2 x.2 :=
  pickBy_of_mem (le := Precedes) (fun a => .inr ⟨rfl, .inr ⟨rfl, Nat.le_refl _⟩⟩)
    (fun a b c h h' => by unfold Precedes at *; omega) precedes_of_before precedes_of_not_before he

/-! The rotations due. -/

theorem Group.yieldEntry_frame (g : Group) (i since : Nat) :
    g.yieldEntry i since = { g with paths := (g.yieldEntry i since).paths } := by
  unfold Group.yieldEntry
  split
  · split <;> rfl
  · rfl

/-- A group that leaves its issuing path changes in its paths and in which of them issues, nothing else. -/
theorem Group.rotate_frame (g : Group) (ok : Path → Bool) (since : Nat) :
    g.rotate ok since = { g with
      paths := (g.rotate ok since).paths, issuing := (g.rotate ok since).issuing, last := (g.rotate ok since).last } := by
  unfold Group.rotate
  cases g.issuingIndex with
  | none => rfl
  | some i => dsimp only; rw [Group.yieldEntry_frame]

/-- The state `t` after rotations from `s`: each group has its lanes and its cycles passed over, and one that was not to
leave its issuing path is as it was. -/
structure RotatedOnly (s t : State) : Prop where
  blocks : t.blocks = s.blocks
  launches : t.launches = s.launches
  images : t.images = s.images
  groups : ∀ k g, AMap.find? s.groups k = some g →
    ∃ h, AMap.find? t.groups k = some h ∧ h.lanes = g.lanes ∧ h.passed = g.passed ∧ (s.rotates g = false → h = g)

theorem State.selectable_congr {s t : State} (hb : t.blocks = s.blocks) (hl : t.launches = s.launches)
    (hi : t.images = s.images) : t.selectable = s.selectable := by
  funext g p
  simp only [State.selectable, State.imageBytes, hb, hl, hi]

theorem State.rotates_congr {s t : State} (hb : t.blocks = s.blocks) (hl : t.launches = s.launches)
    (hi : t.images = s.images) : t.rotates = s.rotates := by
  funext g
  simp only [State.rotates, State.selectable_congr hb hl hi]

theorem RotatedOnly.same {s t : State} (hb : t.blocks = s.blocks) (hl : t.launches = s.launches)
    (hi : t.images = s.images) (hg : t.groups = s.groups) : RotatedOnly s t :=
  ⟨hb, hl, hi, fun _ g h => ⟨g, hg ▸ h, rfl, rfl, fun _ => rfl⟩⟩

theorem RotatedOnly.rotate {s t : State} (h : RotatedOnly s t) {k : Nat} {g : Group}
    (hg : AMap.find? t.groups k = some g) (hr : t.rotates g = true) : RotatedOnly s (t.rotate k) := by
  refine ⟨h.blocks, h.launches, h.images, fun j x hx => ?_⟩
  obtain ⟨y, hy, lanes, passed, kept⟩ := h.groups j x hx
  by_cases hj : j = k
  · subst hj
    cases hg.symm.trans hy
    refine ⟨g.rotate (t.selectable g) t.next, by simp [State.rotate, hg], ?_, ?_, fun hx => ?_⟩
    · rw [Group.rotate_frame]; exact lanes
    · rw [Group.rotate_frame]; exact passed
    · rw [kept hx, State.rotates_congr h.blocks h.launches h.images, hx] at hr
      cases hr
  · exact ⟨y, by simp [State.rotate, AMap.find?_upd_other _ _ hj, hy], lanes, passed, kept⟩

/-- The rotations due on a core. -/
theorem State.rotateDue_rotated {s t : State} (h : RotatedOnly s t) (core : Nat) : RotatedOnly s (t.rotateDue core) := by
  unfold State.rotateDue
  generalize t.coreGroups core = l
  induction l generalizing t with
  | nil => exact h
  | cons e l ih =>
    rw [List.foldl_cons]
    apply ih
    split
    · next g hg =>
      split
      · next hr => exact h.rotate hg hr
      · exact h
    · exact h

/-! What a selection leaves. -/

theorem foldl_cycle {α : Type} {f : State → α → State} (hf : ∀ t a, (f t a).cycle = t.cycle) (l : List α) (s : State) :
    (l.foldl f s).cycle = s.cycle := by
  induction l generalizing s with
  | nil => rfl
  | cons a l ih => rw [List.foldl_cons, ih, hf]

theorem State.countStalls_cycle (s : State) (n gk : Nat) (g : Group) : (s.countStalls n gk g).cycle = s.cycle := by
  unfold State.countStalls
  split
  · split <;> rfl
  · rfl

theorem State.wakeMatrix_cycle (s : State) (core : Nat) : (s.wakeMatrix core).cycle = s.cycle := by
  unfold State.wakeMatrix
  rw [foldl_cycle]
  exact fun _ _ => rfl

/-- Cycles that pass are counted. -/
theorem State.passCycles_cycle (s : State) (n : Nat) (cores : Nat → Bool) (gs : AMap Group) :
    (s.passCycles n cores gs).cycle = s.cycle + n := by
  unfold State.passCycles
  refine (foldl_cycle State.wakeMatrix_cycle _ _).trans (congrArg (· + n) ?_)
  refine (foldl_cycle (fun t e => ?_) _ _).trans (foldl_cycle (fun t e => State.countStalls_cycle t n _ _) _ _)
  split <;> rfl

theorem State.passOthers_cycle (s : State) (n core gk : Nat) : (s.passOthers n core gk).cycle = s.cycle + n := by
  unfold State.passOthers
  dsimp only
  rw [State.passCycles_cycle, foldl_cycle]
  exact fun _ _ => rfl

/-- The state in which a group has been chosen and its paths that meet have joined (02 R29). -/
def State.chosen (s : State) (core gk : Nat) : State :=
  (s.passOthers 1 core gk).updGroup gk fun g => { g.regroup with passed := 0 }

theorem State.select_of_some {s : State} {core gk : Nat} {g : Group}
    (h : AMap.find? (s.chosen core gk).groups gk = some g) : s.select core gk =
      { s.chosen core gk with cur := ((s.chosen core gk).eligible g).map fun i => { grp := gk, path := i } } := by
  unfold State.chosen at h
  simp only [State.select, h]
  rfl

theorem State.select_of_none {s : State} {core gk : Nat} (h : AMap.find? (s.chosen core gk).groups gk = none) :
    s.select core gk = s.chosen core gk := by
  unfold State.chosen at h
  simp only [State.select, h]
  rfl

/-- A selection takes a cycle (log entry 16). -/
theorem State.select_cycle (s : State) (core gk : Nat) : (s.select core gk).cycle = s.cycle + 1 := by
  have h : (s.chosen core gk).cycle = s.cycle + 1 := State.passOthers_cycle s 1 core gk
  cases hg : AMap.find? (s.chosen core gk).groups gk with
  | none => rw [State.select_of_none hg, h]
  | some g => rw [State.select_of_some hg]; exact h

/-- A group that has been chosen is passed over for no cycle. -/
theorem State.chosen_passed {s : State} {core gk : Nat} {g : Group}
    (h : AMap.find? (s.chosen core gk).groups gk = some g) : g.passed = 0 := by
  rw [State.chosen, State.updGroup_groups, AMap.find?_upd_same, Option.map_eq_some_iff] at h
  obtain ⟨_, _, rfl⟩ := h
  rfl

/-- The group selected has been passed over for no cycle, and issues next by the path by which it may. -/
theorem State.select_group {s : State} {core gk : Nat} {g : Group}
    (hg : AMap.find? (s.select core gk).groups gk = some g) :
    g.passed = 0 ∧ (s.select core gk).cur = ((s.select core gk).eligible g).map fun i => { grp := gk, path := i } := by
  cases hx : AMap.find? (s.chosen core gk).groups gk with
  | none => rw [State.select_of_none hx] at hg; cases hx.symm.trans hg
  | some x =>
    rw [State.select_of_some hx] at hg ⊢
    cases hx.symm.trans hg
    exact ⟨State.chosen_passed hx, rfl⟩

/-! What GROUP_SELECT and ISSUE_STARVATION_LIMIT do. -/

theorem exec_issueStarvationLimit_of_starved {s : State} {core : Nat} {f : Nat × Group}
    (h : starved (ableGroups s core) = some f) : exec (.issueStarvationLimit core) s = .next (s.select core f.1) := by
  change execIssueStarvationLimit core s = _
  unfold ableGroups at h
  rw [execIssueStarvationLimit, h]

theorem exec_issueStarvationLimit_of_none {s : State} {core : Nat} (h : starved (ableGroups s core) = none) :
    exec (.issueStarvationLimit core) s = .next s := by
  change execIssueStarvationLimit core s = _
  unfold ableGroups at h
  rw [execIssueStarvationLimit, h]

theorem exec_groupSelect_of_some {s : State} {core : Nat} {f : Nat × Group}
    (h : (starved (ableGroups (readied s core) core)).or (pickBy Group.before (ableGroups (readied s core) core)) = some f) :
    exec (.groupSelect core) s = .next ((readied s core).select core f.1) := by
  change Host.Outcome.next (s.groupSelect core) = _
  unfold ableGroups readied at h
  rw [State.groupSelect, h]
  rfl

theorem exec_groupSelect_of_none {s : State} {core : Nat} (h : ableGroups (readied s core) core = []) :
    exec (.groupSelect core) s =
      .next ((readied s core).passCycle (fun c => c == core) ((readied s core).coreGroups core)) := by
  change Host.Outcome.next (s.groupSelect core) = _
  unfold ableGroups readied at h
  rw [State.groupSelect, h]
  rfl

theorem readied_rotated (s : State) (core : Nat) : RotatedOnly s (readied s core) :=
  State.rotateDue_rotated (s := s) (t := s.setCoreRegs core { s.coreRegs core with turn := s.free }) (.same rfl rfl rfl rfl) core

/-- The choice of a group (08 R202). -/
theorem theSequencerChoosesByStarvationThenBackoffThenAge : TheSequencerChoosesByStarvationThenBackoffThenAge := by
  intro s core
  refine ⟨fun e he => ?_, fun h => exec_issueStarvationLimit_of_none (starved_of_none h),
    ⟨fun e he => ?_, fun h e he => ?_, exec_groupSelect_of_none, fun _ => (readied_rotated s core).groups⟩,
    fun gk => ⟨State.select_cycle s core gk, fun g => State.select_group⟩⟩
  · obtain ⟨f, hf, hs, hle⟩ := starved_of_mem he
    exact ⟨f, hf, exec_issueStarvationLimit_of_starved hs, hle e he⟩
  · obtain ⟨f, hf, hs, hle⟩ := starved_of_mem he
    exact ⟨f, hf, exec_groupSelect_of_some (by rw [hs]; rfl), hle e he⟩
  · obtain ⟨f, hf, hp, hle⟩ := pickBy_before_of_mem he
    exact ⟨f, hf, exec_groupSelect_of_some (by rw [starved_of_none h, hp]; rfl), hle e he⟩

/-! The events of the sequencers, each as its row says. -/

/-- The event of one instruction happens where it is due, and elsewhere changes nothing. -/
def EventHappens (i : Instr) (e : Event) : Prop :=
  ∀ s, (e.due s → exec i s = .next (e.eff s)) ∧ (¬ e.due s → exec i s = .next s)

/-- A group is to leave its issuing path where that is none and another may be selected, or where that has issued 64
bundles or may not be selected and another may (02 R30). -/
theorem State.rotates_iff (s : State) (g : Group) : s.rotates g = true ↔
    (g.issuingIndex = none ∧ ∃ p ∈ g.paths, p.entry ≠ none ∧ s.selectable g p = true) ∨
      ∃ i p, g.issuingIndex = some i ∧ g.paths[i]? = some p ∧
        (64 ≤ p.turn ∨ s.selectable g p = false) ∧ g.nextEntry (s.selectable g) (p.entry.getD 0) ≠ none := by
  unfold State.rotates
  cases hi : g.issuingIndex with
  | none => simp [Option.isSome_iff_ne_none]
  | some i => cases hp : g.paths[i]? with
    | none => simp [hp]
    | some p => simp [hp, Option.isSome_iff_ne_none]

theorem pathRotation_happens {gk : Nat} {e : Event} (h : sequencerEvent (.pathRotation gk) = some e) :
    EventHappens (.pathRotation gk) e := by
  cases h
  intro s
  dsimp only
  change (_ → execPathRotation gk s = _) ∧ (_ → execPathRotation gk s = _)
  unfold execPathRotation
  cases hg : AMap.find? s.groups gk with
  | none => exact ⟨fun ⟨_, h, _⟩ => (nomatch h), fun _ => rfl⟩
  | some g =>
    refine ⟨fun ⟨g', h, hr⟩ => ?_, fun hn => ?_⟩
    · cases h
      dsimp only
      rw [if_pos ((State.rotates_iff s g).2 hr)]
      rfl
    · dsimp only
      rw [if_neg fun hr => hn ⟨g, rfl, (State.rotates_iff s g).1 hr⟩]

theorem gatherComplete_happens {core gl : Nat} {e : Event} (h : sequencerEvent (.gatherComplete core gl) = some e) :
    EventHappens (.gatherComplete core gl) e := by
  cases h
  intro s
  dsimp only
  change (_ → execGatherComplete core gl s = _) ∧ (_ → execGatherComplete core gl s = _)
  unfold execGatherComplete
  dsimp only
  cases hf : (s.coreRegs core).filling.getD gl [] with
  | nil => exact ⟨fun ⟨_, _, h, _⟩ => (nomatch h), fun _ => rfl⟩
  | cons t ts =>
    refine ⟨fun ⟨t', ts', h, ht⟩ => ?_, fun hn => ?_⟩
    · cases h
      dsimp only
      rw [if_neg (Nat.not_lt.2 ht)]
      rfl
    · dsimp only
      rw [if_pos (Nat.lt_of_not_le fun ht => hn ⟨t, ts, rfl, ht⟩)]

theorem queuePollReoffer_happens {cb : Nat} {e : Event} (h : sequencerEvent (.queuePollReoffer cb) = some e) :
    EventHappens (.queuePollReoffer cb) e := by
  cases h
  exact fun s => ⟨fun _ => rfl, fun hn => absurd trivial hn⟩

/-- A bobbin is to be drawn that is full, that is old enough, or whose block's groups all stand at blocking points (02
R36). -/
theorem State.drawDue_iff (s : State) (x : Bobbin) : s.drawDue x = true ↔
    x.threads.length = 64 ∨ x.born + x.limit ≤ s.cycle ∨
      ∀ e ∈ s.groups, e.2.block = x.block → ∀ p ∈ e.2.paths, p.wait.blocking = true := by
  have key : s.blockParked x.block = true ↔
      ∀ e ∈ s.groups, e.2.block = x.block → ∀ p ∈ e.2.paths, p.wait.blocking = true := by
    simp only [State.blockParked, State.groupsOf, AMap.keep, List.all_eq_true, List.mem_filter, beq_iff_eq, and_imp]
  rw [← key]
  simp [State.drawDue, or_assoc]

theorem bobbinDraw_happens {core bob : Nat} {e : Event} (h : sequencerEvent (.bobbinDraw core bob) = some e) :
    EventHappens (.bobbinDraw core bob) e := by
  cases h
  intro s
  dsimp only
  change (_ → execBobbinDraw core bob s = _) ∧ (_ → execBobbinDraw core bob s = _)
  unfold execBobbinDraw
  cases hx : AMap.find? s.bobbins (core * 64 + bob) with
  | none => exact ⟨fun ⟨_, h, _⟩ => (nomatch h), fun _ => rfl⟩
  | some x =>
    refine ⟨fun ⟨x', h, hd⟩ => ?_, fun hn => ?_⟩
    · cases h
      dsimp only
      rw [if_pos ((State.drawDue_iff s x).2 hd)]
    · dsimp only
      rw [if_neg fun hd => hn ⟨x, rfl, (State.drawDue_iff s x).1 hd⟩]

theorem powerWithhold_happens {core : Nat} {e : Event} (h : sequencerEvent (.powerWithhold core) = some e) :
    EventHappens (.powerWithhold core) e := by
  cases h
  intro s
  dsimp only
  change (_ → execPowerWithhold core s = _) ∧ (_ → execPowerWithhold core s = _)
  unfold execPowerWithhold
  exact ⟨fun hd => by rw [if_neg (by simpa using hd)], fun hn => by rw [if_pos (by simpa using hn)]⟩

theorem resultArrival_happens {gk i : Nat} {e : Event} (h : sequencerEvent (.resultArrival gk i) = some e) :
    EventHappens (.resultArrival gk i) e := by
  cases h
  intro s
  dsimp only
  change (_ → execResultArrival gk i s = _) ∧ (_ → execResultArrival gk i s = _)
  unfold execResultArrival
  refine ⟨fun ⟨g, p, ⟨hg, hp⟩, hs⟩ => ?_, fun hn => ?_⟩
  · simp [hg, hp, hs]
  · split
    · next p h =>
      obtain ⟨g, hg, hp⟩ := Option.bind_eq_some_iff.1 h
      cases hs : p.sealed with
      | true => rfl
      | false => exact absurd ⟨g, p, ⟨hg, hp⟩, hs⟩ hn
    · rfl

/-- The events of the sequencers. -/
theorem sequencerEventsHappenWhenTheyAreDue : SequencerEventsHappenWhenTheyAreDue := by
  intro i e s h
  unfold sequencerEvent at h
  split at h
  case h_1 gk => exact pathRotation_happens h s
  case h_2 core gl => exact gatherComplete_happens h s
  case h_3 cb => exact queuePollReoffer_happens h s
  case h_4 core bob => exact bobbinDraw_happens h s
  case h_5 core => exact powerWithhold_happens h s
  case h_6 gk i => exact resultArrival_happens h s
  case h_7 => cases h

/-- Settles O37: each event by its own lemma, the choice by what one pass over the groups that may issue keeps. -/
theorem sequencersChooseAndTheirEventsHappen : Obligations.SequencersChooseAndTheirEventsHappen :=
  ⟨sequencerEventsHappenWhenTheyAreDue, theSequencerChoosesByStarvationThenBackoffThenAge⟩

end Sys2Proof.Machine
end

section
/-! The module, its pod and capture: boot, resets, life cycle, errors, sparing, power, shootdowns, elections,
heartbeats, treadles and samples (01 R19; 04 R111; 11 R264, R266; 12 R279 to R283; 13 R288 to R292; 14 R302 to R310). -/

namespace Sys2Proof.Machine

open Sys2Proof.Safety Sys2Proof.Claims

/-- The event of one instruction happens where it is due. -/
def EventHappensWhenDue (i : Instr) (e : Event) : Prop := ∀ s, e.due s → exec i s = .next (e.eff s)

/-! Memory sparing (11 R264). -/

theorem State.retireBank_of_unused {s : State} {pc bank : Nat} (h : spareState (Cells.get s.spare pc) = 0) :
    s.retireBank pc bank = { s with spare := Cells.set s.spare pc (spareOf 1 bank 0) } := by
  simp only [State.retireBank, h]
  rfl

theorem State.retireBank_of_copying {s : State} {pc bank : Nat} (h : spareState (Cells.get s.spare pc) = 1)
    (hb : bank ≠ spareBank (Cells.get s.spare pc)) (hf : pc ∉ s.further) :
    s.retireBank pc bank = { s with further := pc :: s.further } := by
  simp [State.retireBank, h, hb, hf]

theorem State.retireBank_of_used {s : State} {pc bank : Nat} (h : spareState (Cells.get s.spare pc) = 2)
    (hb : bank ≠ spareBank (Cells.get s.spare pc)) :
    s.retireBank pc bank =
      { s with spare := Cells.set s.spare pc (spareOf 3 (spareBank (Cells.get s.spare pc)) 0) } := by
  simp only [State.retireBank, h, if_neg hb]
  rfl

theorem bankRetire_happens {pc bank : Nat} {e : Event} (h : moduleEvent (.bankRetire pc bank) = some e) :
    EventHappensWhenDue (.bankRetire pc bank) e := by
  cases h
  rintro s ⟨hpc, hbank, hw⟩
  change Host.Outcome.next (if pc < 1024 ∧ bank < 32 then s.retireBank pc bank else s) = _
  rw [if_pos ⟨hpc, hbank⟩]
  dsimp only
  rcases hw with h0 | ⟨h1, hb, hf⟩ | ⟨h2, hb⟩
  · rw [State.retireBank_of_unused h0, if_pos h0]
  · rw [State.retireBank_of_copying h1 hb hf, if_neg (by omega), if_pos h1]
  · rw [State.retireBank_of_used h2 hb, if_neg (by omega), if_neg (by omega)]
    rfl

theorem sparePointer_lt (w : Word) : sparePointer w < 32768 := Nat.mod_lt _ (by decide)

/-- A row that is not the last is copied. -/
theorem exec_sparingRowCopy_row {s : State} {pc : Nat} (hs : spareState (Cells.get s.spare pc) = 1)
    (hp : sparePointer (Cells.get s.spare pc) + 1 < 32768) :
    exec (.sparingRowCopy pc) s = .next { s with
      spare := Cells.set s.spare pc
        (spareOf 1 (spareBank (Cells.get s.spare pc)) (sparePointer (Cells.get s.spare pc) + 1)) } := by
  change execSparingRowCopy pc s = _
  simp only [execSparingRowCopy, ne_eq, hs, not_true_eq_false, if_false, if_neg (Nat.ne_of_lt hp)]
  rfl

/-- With the last row the spare serves the bank. -/
theorem exec_sparingRowCopy_last {s : State} {pc : Nat} (hs : spareState (Cells.get s.spare pc) = 1)
    (hp : sparePointer (Cells.get s.spare pc) + 1 = 32768) :
    exec (.sparingRowCopy pc) s = .next { s with
      spare := Cells.set s.spare pc (spareOf (if pc ∈ s.further then 3 else 2) (spareBank (Cells.get s.spare pc)) 0)
      further := s.further.filter fun k => k != pc } := by
  change execSparingRowCopy pc s = _
  simp only [execSparingRowCopy, ne_eq, hs, not_true_eq_false, if_false, if_pos hp, List.contains_iff_mem]
  split <;> rfl

theorem sparingRowCopy_happens {pc : Nat} {e : Event} (h : moduleEvent (.sparingRowCopy pc) = some e) :
    EventHappensWhenDue (.sparingRowCopy pc) e := by
  cases h
  intro s hd
  have hp := sparePointer_lt (Cells.get s.spare pc)
  by_cases hl : sparePointer (Cells.get s.spare pc) + 1 < 32768
  · exact (exec_sparingRowCopy_row hd hl).trans (congrArg _ (if_pos hl).symm)
  · exact (exec_sparingRowCopy_last hd (by omega)).trans (congrArg _ (if_neg hl).symm)

/-! Errors (12 R279 to R283). -/

theorem correctedError_happens {domain unit addr : Nat} {e : Event}
    (h : moduleEvent (.correctedError domain unit addr) = some e) :
    EventHappensWhenDue (.correctedError domain unit addr) e := by
  cases h
  intro s hd
  change execCorrectedError domain unit addr s = _
  dsimp only at hd ⊢
  simp only [execCorrectedError, if_neg (Nat.not_le.2 hd)]
  split <;> rfl

theorem memoryError_happens {pa domain unit addr : Nat} {e : Event}
    (h : moduleEvent (.uncorrectableError (.memory pa) domain unit addr) = some e) :
    EventHappensWhenDue (.uncorrectableError (.memory pa) domain unit addr) e := by
  cases h
  exact fun _ _ => rfl

theorem versionEntryError_happens {k domain unit addr : Nat} {e : Event}
    (h : moduleEvent (.uncorrectableError (.versionEntry k) domain unit addr) = some e) :
    EventHappensWhenDue (.uncorrectableError (.versionEntry k) domain unit addr) e := by
  cases h
  exact fun _ _ => rfl

theorem appCoreError_happens {domain unit addr : Nat} {e : Event}
    (h : moduleEvent (.uncorrectableError .appCore domain unit addr) = some e) :
    EventHappensWhenDue (.uncorrectableError .appCore domain unit addr) e := by
  cases h
  exact fun _ _ => rfl

@[simp] theorem State.countError_free (s : State) (domain kind unit vi ctx addr lsn : Nat) :
    (s.countError domain kind unit vi ctx addr lsn).free = s.free := by
  obtain ⟨x, y, h⟩ := State.countError_eq s domain kind unit vi ctx addr lsn
  rw [h]

theorem queueError_happens {pa domain unit addr : Nat} {e : Event}
    (h : moduleEvent (.uncorrectableError (.queue pa) domain unit addr) = some e) :
    EventHappensWhenDue (.uncorrectableError (.queue pa) domain unit addr) e := by
  cases h
  intro s _
  change execUncorrectableError (.queue pa) domain unit addr s = _
  simp only [execUncorrectableError, counted, State.countError_free]

theorem draftError_happens {key domain unit addr : Nat} {e : Event}
    (h : moduleEvent (.uncorrectableError (.draft key) domain unit addr) = some e) :
    EventHappensWhenDue (.uncorrectableError (.draft key) domain unit addr) e := by
  cases h
  intro s _
  change execUncorrectableError (.draft key) domain unit addr s = _
  simp only [execUncorrectableError, counted, Bool.not_eq_true', Option.isNone_iff_eq_none]

/-- An error that destroys what a launch needs is recorded with the launch, which begins to abort (12 R279, R280). -/
theorem State.loseLaunch_of_find {s : State} {lk : Nat} {l : Launch} (h : AMap.find? s.launches lk = some l)
    (domain unit addr : Nat) : s.loseLaunch lk domain unit addr =
      (s.countError domain 2 unit l.vi l.ctx addr (l.lsn % 2 ^ 48)).beginAbort lk 2 0 s.time := by
  simp only [State.loseLaunch, State.affected, h]

theorem launchVersionError_happens {k domain unit addr : Nat} {e : Event}
    (h : moduleEvent (.uncorrectableError (.launchVersion k) domain unit addr) = some e) :
    EventHappensWhenDue (.uncorrectableError (.launchVersion k) domain unit addr) e := by
  cases h
  rintro s ⟨l, hl⟩
  change Host.Outcome.next (s.loseLaunch k domain unit addr) = _
  rw [State.loseLaunch_of_find hl]
  simp only [hl]

theorem blockError_happens {bk domain unit addr : Nat} {e : Event}
    (h : moduleEvent (.uncorrectableError (.block bk) domain unit addr) = some e) :
    EventHappensWhenDue (.uncorrectableError (.block bk) domain unit addr) e := by
  cases h
  rintro s ⟨b, l, hb, hl⟩
  change execUncorrectableError (.block bk) domain unit addr s = _
  simp only [execUncorrectableError, hb, State.loseLaunch_of_find hl, hl]

/-! Power, life cycle, resets and boot (14 R303 to R305, R310). -/

theorem thermalCapReduce_happens {cap : Nat} {e : Event} (h : moduleEvent (.thermalCapReduce cap) = some e) :
    EventHappensWhenDue (.thermalCapReduce cap) e := by
  cases h
  exact fun _ _ => rfl

theorem thermalPowerOff_happens {e : Event} (h : moduleEvent .thermalPowerOff = some e) :
    EventHappensWhenDue .thermalPowerOff e := by
  cases h
  exact fun _ _ => rfl

theorem supplyAndCoolantWithinLimits_happens {e : Event} (h : moduleEvent .supplyAndCoolantWithinLimits = some e) :
    EventHappensWhenDue .supplyAndCoolantWithinLimits e := by
  cases h
  exact fun _ _ => rfl

theorem lifecycle_happens {r : LifeCycleReq} {e : Event} (h : moduleEvent (.lifecycle r) = some e) :
    EventHappensWhenDue (.lifecycle r) e := by
  cases h
  rintro s ⟨signed, allowed⟩
  have step : r.signer = lifeStep s.life r.next := allowed.trans (by cases s.life <;> cases r.next <;> rfl)
  change execLifecycle r s = _
  rw [execLifecycle, if_pos ⟨Option.isSome_iff_ne_none.2 (step ▸ signed), step⟩]
  rfl

theorem interfaceReset_happens {vi : Nat} {e : Event} (h : moduleEvent (.upstreamReset (.flr vi)) = some e) :
    EventHappensWhenDue (.upstreamReset (.flr vi)) e := by
  cases h
  rintro s ⟨configured, owned⟩
  change Host.Outcome.next (if (s.iface vi).configured && (s.iface vi).hostOwned then s.resetIface vi else s) = _
  rw [configured, owned]
  rfl

theorem exec_boot_unverified {r : BootReport} {s : State} (hd : s.phase ≠ .running) (hv : r.verified = false) :
    exec (.boot r) s = .next (wipedTo s 0 .recovery) := by
  change execBoot r s = _
  rw [execBoot, if_neg hd, hv]
  rfl

/-- The device after a wipe, with the sparing that its boot reads (14 R304). -/
def sparedBy (r : BootReport) (s : State) : State :=
  r.sparing.foldl (fun (t : State) e => { t with
    spare := Cells.set t.spare (e.1 % 1024) (spareOf (e.2.1 % 4) e.2.2 0) }) (wipedTo s 0 .running)

/-- The banks that a boot finds failing are retired. -/
def retiredBy (r : BootReport) (s : State) : State :=
  (r.failing ++ r.unwiped).foldl (fun (t : State) e => if e.1 < 1024 ∧ e.2 < 32 then t.retireBank e.1 e.2 else t) s

theorem exec_boot_verified {r : BootReport} {s : State} (hd : s.phase ≠ .running) (hv : r.verified = true) :
    exec (.boot r) s = .next
      ((State.makeQueue { retiredBy r (sparedBy r s) with dcSize := if s.dcNext = 0 then 4 else min s.dcNext 8 }
        0).makeErrorQueue.updIface 0 fun v => { v with hostOwned := !s.selfHosted }) := by
  change execBoot r s = _
  rw [execBoot, if_neg hd, hv]
  rfl

theorem boot_happens {r : BootReport} {e : Event} (h : moduleEvent (.boot r) = some e) :
    EventHappensWhenDue (.boot r) e := by
  cases h
  intro s hd
  by_cases hv : r.verified = false
  · exact (exec_boot_unverified hd hv).trans (congrArg _ (if_pos hv).symm)
  · exact (exec_boot_verified hd (eq_true_of_ne_false hv)).trans (congrArg _ (if_neg hv).symm)

/-- A FULL reset is allowed by the enclave's hot-reset bit in PROVISIONED, and in DEPLOYED unless self-hosted. -/
theorem State.fullAllowed_iff (s : State) : s.fullAllowed = true ↔
    s.hotReset = true ∧ (s.life = .provisioned ∨ (s.life = .deployed ∧ s.selfHosted = false)) := by
  simp [State.fullAllowed]

theorem hotReset_wipes {s : State} (h : s.fullAllowed = true) : exec (.upstreamReset .hot) s = .next (wipedTo s 0 .due) := by
  change execUpstreamReset .hot s = _
  rw [execUpstreamReset, if_pos h]
  rfl

@[simp] theorem State.configEvent_ifaces (s : State) : s.configEvent.ifaces = s.ifaces := by
  obtain ⟨x, y, h⟩ := State.countError_eq s 10 3 0 0xFF 0xFFFF 0 0
  rw [State.configEvent, h]

theorem hotReset_resets_interfaces {s : State} (h : ¬ s.fullAllowed = true) :
    exec (.upstreamReset .hot) s = .next
      ((s.ifaces.filter fun (e : Nat × Iface) => e.2.configured && e.2.hostOwned).foldl
        (fun (t : State) e => t.resetIface e.1) (if s.hotReset then s.configEvent else s)) := by
  change execUpstreamReset .hot s = _
  have hi : (if s.hotReset = true then s.configEvent else s).ifaces = s.ifaces := by
    split
    · exact State.configEvent_ifaces s
    · rfl
  simp only [execUpstreamReset, if_neg h, hi]

/-! Shootdowns (04 R111). -/

/-- No access is old when those that a shootdown waits for have performed. -/
theorem State.oldAccesses_of_drained {s : State} {id : Nat} {d : Shootdown} (h : DrainedFor s id d) :
    s.oldAccesses id d = false := by
  obtain ⟨stores, ops, remote, asked⟩ := h
  simp only [State.oldAccesses, Bool.or_eq_false_iff]
  refine ⟨⟨⟨?_, ?_⟩, ?_⟩, ?_⟩
  · simp only [List.any_eq_false, Bool.and_eq_true, List.any_eq_true, Option.isNone_iff_eq_none, decide_eq_true_eq]
    rintro e he ⟨⟨p, hp, w, hw, hv, hi⟩, hs⟩
    exact absurd (stores e he hs p hp w hw hv) (Nat.not_lt.2 hi)
  · simp only [List.any_eq_false, Bool.and_eq_true, Option.isNone_iff_eq_none, decide_eq_true_eq]
    rintro e he ⟨⟨⟨hi, hr⟩, hn⟩, hs⟩
    rcases ops e he hi hs with h | h
    · rw [h] at hr; cases hr
    · exact h hn
  · simp only [List.any_eq_false, Bool.and_eq_true, Bool.not_eq_true', decide_eq_true_eq]
    rintro e he ⟨⟨⟨hi, hw⟩, ht⟩, hs⟩
    rw [remote e he hi hw ht] at hs
    cases hs
  · simp only [List.any_eq_false, List.any_eq_true, Bool.and_eq_true, decide_eq_true_eq, Option.any_eq_true]
    rintro e he ⟨r, hr, ⟨hi, ht⟩, sp, hsp, hs⟩
    rw [asked e he r hr hi ht sp hsp] at hs
    cases hs

theorem shootdownComplete_happens {id : Nat} {e : Event} (h : moduleEvent (.shootdownComplete id) = some e) :
    EventHappensWhenDue (.shootdownComplete id) e := by
  cases h
  rintro s ⟨d, hd, drained⟩
  change execShootdownComplete id s = _
  simp only [execShootdownComplete, hd, State.oldAccesses_of_drained drained, Bool.false_eq_true, if_false]

/-- The events of the module. -/
theorem moduleEventsHappen : ModuleEventsHappen := by
  refine ⟨fun i e s h => ?_, fun s hr hl => hotReset_wipes ((State.fullAllowed_iff s).2 ⟨hr, hl⟩),
    fun s h => hotReset_resets_interfaces fun ha => h ((State.fullAllowed_iff s).1 ha)⟩
  unfold moduleEvent at h
  split at h
  case h_1 => exact bankRetire_happens h s
  case h_2 => exact sparingRowCopy_happens h s
  case h_3 => exact correctedError_happens h s
  case h_4 => exact thermalCapReduce_happens h s
  case h_5 => exact thermalPowerOff_happens h s
  case h_6 => exact supplyAndCoolantWithinLimits_happens h s
  case h_7 => exact shootdownComplete_happens h s
  case h_8 => exact lifecycle_happens h s
  case h_9 => exact interfaceReset_happens h s
  case h_10 => exact boot_happens h s
  case h_11 => exact memoryError_happens h s
  case h_12 => exact versionEntryError_happens h s
  case h_13 => exact appCoreError_happens h s
  case h_14 => exact queueError_happens h s
  case h_15 => exact draftError_happens h s
  case h_16 => exact launchVersionError_happens h s
  case h_17 => exact blockError_happens h s
  case h_18 => cases h

/-! Elections (14 R308). -/

theorem State.leaderSilent_iff (s : State) : s.leaderSilent = true ↔
    s.leader ≠ some identity ∧ max s.heard s.roundAt + 10500000 ≤ s.cycle := by
  rw [State.leaderSilent, Bool.and_eq_true, bne_iff_ne, decide_eq_true_eq]
  exact Iff.rfl

theorem electionTimeout_happens {e : Event} (h : podEvent .electionTimeout = some e) : EventHappens .electionTimeout e := by
  cases h
  intro s
  change (_ → execElectionTimeout s = _) ∧ (_ → execElectionTimeout s = _)
  rw [execElectionTimeout]
  exact ⟨fun hd => by rw [if_pos ((State.leaderSilent_iff s).2 hd)],
    fun hn => by rw [if_neg fun hs => hn ((State.leaderSilent_iff s).1 hs)]⟩

theorem electionReportReceive_happens {m : ElectionMsg} {e : Event}
    (h : podEvent (.electionReportReceive m) = some e) : EventHappens (.electionReportReceive m) e := by
  cases h
  intro s
  change (_ → execElectionReportReceive m s = _) ∧ (_ → execElectionReportReceive m s = _)
  simp only [execElectionReportReceive, Bool.not_eq_true', Option.isNone_iff_eq_none, cyclesPerMs]
  cases hv : m.valid with
  | false => exact ⟨fun hd => (nomatch hd.1), fun _ => by rw [if_pos rfl]⟩
  | true =>
    rw [if_neg (by decide)]
    by_cases hr : s.round < m.round
    · rw [if_pos hr]
      exact ⟨fun _ => by rw [if_pos hr], fun hn => absurd ⟨rfl, .inl hr⟩ hn⟩
    · rw [if_neg hr]
      refine ⟨fun ⟨_, hd⟩ => ?_, fun hn => ?_⟩
      · rw [if_pos (hd.resolve_left hr), if_neg hr]
      · rw [if_neg fun hd => hn ⟨rfl, .inr hd⟩]

theorem lowest_eq_foldl_min (m : Nat) (xs : List Nat) : lowest m xs = xs.foldl min m := by
  induction xs generalizing m with
  | nil => rfl
  | cons x xs ih => exact ih (min m x)

theorem electionChoice_happens {e : Event} (h : podEvent .electionChoice = some e) : EventHappens .electionChoice e := by
  cases h
  intro s
  change (_ → execElectionChoice s = _) ∧ (_ → execElectionChoice s = _)
  unfold execElectionChoice cyclesPerMs
  dsimp only
  cases hl : s.leader with
  | some k => exact ⟨fun hd => (nomatch hd.1), fun _ => rfl⟩
  | none =>
    cases hr : s.reports with
    | nil => exact ⟨fun hd => absurd rfl hd.2.1, fun _ => rfl⟩
    | cons r rs =>
      refine ⟨fun ⟨_, _, ht⟩ => ?_, fun hn => ?_⟩
      · dsimp only
        rw [if_pos ht]
        simp only [List.headD_cons, List.drop_succ_cons, List.drop_zero, lowest_eq_foldl_min]
      · dsimp only
        rw [if_neg fun ht => hn ⟨rfl, List.cons_ne_nil r rs, ht⟩]

theorem leaderHeartbeat_happens {e : Event} (h : podEvent .leaderHeartbeat = some e) : EventHappens .leaderHeartbeat e := by
  cases h
  intro s
  change (_ → execLeaderHeartbeat s = _) ∧ (_ → execLeaderHeartbeat s = _)
  rw [execLeaderHeartbeat, cyclesPerMs]
  exact ⟨fun hd => by rw [if_pos hd], fun hn => by rw [if_neg hn]⟩

theorem heartbeatReceive_happens {k : Nat} {e : Event} (h : podEvent (.heartbeatReceive k) = some e) :
    EventHappens (.heartbeatReceive k) e := by
  cases h
  exact fun _ => ⟨fun _ => rfl, fun hn => absurd trivial hn⟩

/-! Treadle messages, DBG_CAPTURE and samples (13 R288 to R292). -/

theorem treadleMessageReceive_happens {m : TreadleMsg} {e : Event}
    (h : podEvent (.treadleMessageReceive m) = some e) : EventHappens (.treadleMessageReceive m) e := by
  cases h
  exact fun _ => ⟨fun _ => rfl, fun hn => absurd trivial hn⟩

/-- A field of one bit is that bit. -/
theorem bitsOf_one_eq_getLsbD {w : Nat} (x : BitVec w) (i : Nat) : (bitsOf x.toNat i 1 == 1) = x.getLsbD i := by
  rw [bitsOf, BitVec.getLsbD, Nat.testBit_eq_decide_div_mod_eq]
  rfl

/-- An action reaches an armed capture that is not frozen: it starts it, stops it, sets its filter or freezes it (13
R292). -/
theorem Iface.act_eq (v : Iface) (m : TreadleMsg) : v.act m =
    if v.dbgCapture.getLsbD 0 = false ∨ v.dbgCapture.getLsbD 2 = true then v
    else if m.action = 1 then { v with dbgCapture := v.dbgCapture ||| 2 }
    else if m.action = 2 then { v with dbgCapture := v.dbgCapture &&& ~~~2 }
    else if m.action = 3 then { v with filter := m.mask &&& 0xFFFF }
    else if m.action = 4 then { v with dbgCapture := v.dbgCapture &&& ~~~2 ||| 4 }
    else v := by
  simp only [Iface.act, Iface.capArmed, Iface.capFrozen, bitsOf_one_eq_getLsbD, Bool.or_eq_true, Bool.not_eq_true']
  split
  · rfl
  · split <;> simp_all

theorem treadleAct_happens {e : Event} (h : podEvent .treadleAct = some e) : EventHappens .treadleAct e := by
  cases h
  intro s
  change (_ → execTreadleAct s = _) ∧ (_ → execTreadleAct s = _)
  unfold execTreadleAct
  dsimp only
  cases hm : s.nextAct with
  | none => exact ⟨fun hd => (nomatch hd), fun _ => rfl⟩
  | some m =>
    refine ⟨fun _ => ?_, fun hn => absurd ⟨m, rfl⟩ hn⟩
    simp only [Iface.act_eq]

theorem dbgCaptureWrite_happens {vi : Nat} {x : Word} {e : Event} (h : podEvent (.dbgCaptureWrite vi x) = some e) :
    EventHappens (.dbgCaptureWrite vi x) e := by
  cases h
  exact fun _ => ⟨fun _ => rfl, fun hn => absurd trivial hn⟩

/-- A sample is due when a group can be sampled and the core's period since its last sample is over (13 R288). -/
theorem State.sampleDue_iff (s : State) (core : Nat) : s.sampleDue core = true ↔
    ∃ gk g b l, s.nextSampled core = some (gk, g) ∧ AMap.find? s.blocks g.block = some b ∧
      AMap.find? s.launches b.launch = some l ∧
      (s.coreRegs core).sampled + (s.iface l.vi).capPeriod * 1024 ≤ s.cycle := by
  unfold State.sampleDue
  cases hn : s.nextSampled core with
  | none => simp
  | some e =>
    obtain ⟨gk, g⟩ := e
    cases hb : AMap.find? s.blocks g.block with
    | none => simp [hb]
    | some b => cases hl : AMap.find? s.launches b.launch with
      | none => simp [hb, hl]
      | some l => simp [hb, hl]

@[simp] theorem State.setCoreRegs_context (s : State) (core : Nat) (r : CoreRegs) (vi k : Nat) :
    (s.setCoreRegs core r).context vi k = s.context vi k := rfl

theorem sampleTake_happens {core : Nat} {e : Event} (h : podEvent (.sampleTake core) = some e) :
    EventHappens (.sampleTake core) e := by
  cases h
  intro s
  change (_ → execSampleTake core s = _) ∧ (_ → execSampleTake core s = _)
  dsimp only
  refine ⟨fun hd => ?_, fun hn => ?_⟩
  · have due := (State.sampleDue_iff s core).2 hd
    obtain ⟨gk, g, b, l, hg, hb, hl, _⟩ := hd
    simp only [execSampleTake, due, hg, hb, hl, Bool.not_true, Bool.false_eq_true, if_false, State.setCoreRegs_context]
    cases s.context l.vi l.ctx with
    | none => rfl
    | some x => rfl
  · have idle : s.sampleDue core = false := Bool.eq_false_iff.2 fun hs => hn ((State.sampleDue_iff s core).1 hs)
    simp [execSampleTake, idle]

/-- The message that acts next is a pending one whose instant has come, and no other acts earlier. -/
theorem State.nextAct_earliest {s : State} {m : TreadleMsg} (h : s.nextAct = some m) :
    m ∈ s.treadles ∧ s.actAt m ≤ s.time ∧ ∀ x ∈ s.treadles, s.actAt x ≤ s.time → s.actAt m ≤ s.actAt x := by
  unfold State.nextAct at h
  split at h
  · cases h
  · next a l hl =>
    cases h
    have due (x : TreadleMsg) : x ∈ a :: l ↔ x ∈ s.treadles ∧ s.actAt x ≤ s.time := by
      rw [← hl, List.mem_filter, decide_eq_true_eq]
    have best := foldl_pick_le (r := s.actsBefore) (le := fun x y => s.actAt x ≤ s.actAt y) (fun _ => Nat.le_refl _)
      (fun _ _ _ => Nat.le_trans) (fun x y hb => by
        unfold State.actsBefore at hb
        split at hb
        · exact Nat.le_of_lt (of_decide_eq_true hb)
        · omega)
      (fun x y hb => by
        unfold State.actsBefore at hb
        split at hb
        · exact Nat.le_of_not_lt (of_decide_eq_false hb)
        · omega) a l
    obtain ⟨hm, ht⟩ := (due _).1 (foldl_pick_mem (r := s.actsBefore) a l)
    exact ⟨hm, ht, fun x hx hxt => best x ((due x).2 ⟨hx, hxt⟩)⟩

/-- The events of the pod and of capture. -/
theorem podAndCaptureEventsHappenWhenTheyAreDue : PodAndCaptureEventsHappenWhenTheyAreDue := by
  refine ⟨fun i e s h => ?_, fun s m => State.nextAct_earliest⟩
  unfold podEvent at h
  split at h
  case h_1 => exact electionTimeout_happens h s
  case h_2 => exact electionReportReceive_happens h s
  case h_3 => exact electionChoice_happens h s
  case h_4 => exact leaderHeartbeat_happens h s
  case h_5 => exact heartbeatReceive_happens h s
  case h_6 => exact treadleMessageReceive_happens h s
  case h_7 => exact treadleAct_happens h s
  case h_8 => exact dbgCaptureWrite_happens h s
  case h_9 => exact sampleTake_happens h s
  case h_10 => cases h

/-- Settles O50: each event by its own lemma, the message that acts next by what one pass over those due keeps. -/
theorem moduleAndPodEventsHappen : Obligations.ModuleAndPodEventsHappen :=
  ⟨moduleEventsHappen, podAndCaptureEventsHappenWhenTheyAreDue⟩

end Sys2Proof.Machine
end

section
/-! What is selected to issue (02 R30; 08 R202): only the choice of a group selects, and it selects the path by which
that group may issue. -/

namespace Sys2Proof.Machine

open Sys2Proof.Safety Sys2Proof.Claims

/-- What every step of a fold leaves as it is, the fold leaves as it is. -/
theorem foldl_unchanged {α β : Type} (π : State → β) {f : State → α → State} (hf : ∀ t a, π (f t a) = π t) (l : List α)
    (s : State) : π (l.foldl f s) = π s := by
  induction l generalizing s with
  | nil => rfl
  | cons a l ih => rw [List.foldl_cons, ih, hf]

theorem State.countStalls_cur (s : State) (n gk : Nat) (g : Group) : (s.countStalls n gk g).cur = s.cur := by
  unfold State.countStalls
  split
  · split <;> rfl
  · rfl

theorem State.wakeMatrix_cur (s : State) (core : Nat) : (s.wakeMatrix core).cur = s.cur := by
  unfold State.wakeMatrix
  refine foldl_unchanged State.cur ?_ _ s
  exact fun _ _ => rfl

theorem State.passCycles_cur (s : State) (n : Nat) (cores : Nat → Bool) (gs : AMap Group) :
    (s.passCycles n cores gs).cur = s.cur := by
  unfold State.passCycles
  refine (foldl_unchanged State.cur State.wakeMatrix_cur _ _).trans ?_
  refine (foldl_unchanged State.cur (fun t e => ?_) _ _).trans
    (foldl_unchanged State.cur (fun t e => State.countStalls_cur t n _ _) _ _)
  split <;> rfl

theorem State.passOthers_cur (s : State) (n core gk : Nat) : (s.passOthers n core gk).cur = s.cur := by
  unfold State.passOthers
  dsimp only
  rw [State.passCycles_cur]
  refine foldl_unchanged State.cur ?_ _ s
  exact fun _ _ => rfl

theorem State.rotateDue_cur (s : State) (core : Nat) : (s.rotateDue core).cur = s.cur := by
  refine foldl_unchanged State.cur (fun t e => ?_) _ s
  split
  · split <;> rfl
  · rfl

/-- Where nothing is selected, what is selected may issue. -/
theorem selected_of_none {s : State} (h : s.cur = none) : Selected s := by
  intro cur hc
  rw [h] at hc
  cases hc

/-- A selection selects the path by which the group chosen may issue. -/
theorem State.select_selected {s : State} (h : s.cur = none) (core gk : Nat) : Selected (s.select core gk) := by
  have hc : (s.chosen core gk).cur = none := (State.passOthers_cur s 1 core gk).trans h
  cases hg : AMap.find? (s.chosen core gk).groups gk with
  | none => rw [State.select_of_none hg]; exact selected_of_none hc
  | some g =>
    rw [State.select_of_some hg]
    intro cur hcur
    obtain ⟨i, hi, rfl⟩ := Option.map_eq_some_iff.1 hcur
    exact ⟨rfl, g, hg, hi⟩

theorem State.groupSelect_selected {s : State} (h : s.cur = none) (core : Nat) : Selected (s.groupSelect core) := by
  have hr : (readied s core).cur = none := (State.rotateDue_cur _ core).trans h
  change Selected (match (starved (ableGroups (readied s core) core)).or
      (pickBy Group.before (ableGroups (readied s core) core)) with
    | some (gk, _) => (readied s core).select core gk
    | none => (readied s core).passCycle (fun c => c == core) ((readied s core).coreGroups core))
  split
  · exact State.select_selected hr core _
  · exact selected_of_none ((State.passCycles_cur _ 1 _ _).trans hr)

/-- The end of a step leaves nothing selected. -/
theorem cur_of_endStep {o : Host.Outcome State Fault Refusal} {t : State} (h : endStep o = .next t) : t.cur = none := by
  cases o with
  | next u => cases h; rfl
  | fault f => cases h
  | refused r => cases h

/-- An event leaves selected only what may issue. -/
theorem settle_selected {i : Instr} {s t : State} (hc : s.cur = none) (h : settle i (exec i s) = .next t) :
    Selected t := by
  unfold settle at h
  split at h
  · next hi =>
    unfold choosesIssue at hi
    split at hi
    · next core =>
      cases (show Host.Outcome.next (s.groupSelect core) = .next t from h)
      exact State.groupSelect_selected hc core
    · next core =>
      replace h : execIssueStarvationLimit core s = .next t := h
      unfold execIssueStarvationLimit at h
      split at h
      · cases h; exact State.select_selected hc core _
      · cases h; exact selected_of_none hc
    · cases hi
  · exact selected_of_none (cur_of_endStep h)

theorem State.chooseEvent_selected {s t : State} (hc : s.cur = none) (h : s.chooseEvent = .next t) : Selected t := by
  unfold State.chooseEvent at h
  dsimp only at h
  split at h
  · exact settle_selected (s := { s with free := s.free + 1 }) hc h
  · exact settle_selected (s := { s with free := s.free + 1 }) hc h
  · exact selected_of_none (cur_of_endStep h)

theorem State.between_selected {s t : State} (hc : s.cur = none) (h : s.between = .next t) : Selected t := by
  unfold State.between at h
  split at h
  · next i rest _ => exact settle_selected (s := { s with agenda := rest }) hc h
  · exact State.chooseEvent_selected hc h

/-- Settles O58: a step that issues ends with nothing selected; an event selects only by a selection. -/
theorem whatIsSelectedMayIssue : Obligations.WhatIsSelectedMayIssue := by
  intro s t _ h
  unfold step at h
  split at h
  · exact selected_of_none (cur_of_endStep h)
  · exact selected_of_none (cur_of_endStep h)
  · exact selected_of_none (cur_of_endStep h)
  · split at h
    · exact selected_of_none (cur_of_endStep h)
    · next hc => exact State.between_selected hc h

end Sys2Proof.Machine
end

section
/-! The end of an instruction (02 R29; 03 R57, R62, R63). -/

namespace Sys2Proof.Machine

open Sys2Proof.Safety Sys2Proof.Claims

/-! Results that land. -/

/-- A path in which results in flight have landed: its scalar registers and what of it is in flight may differ. -/
def Path.Landed (p q : Path) : Prop :=
  q = { p with fresh := q.fresh, sregs := q.sregs, staging := q.staging, inflight := q.inflight }

theorem Path.Landed.trans {p q r : Path} (h : p.Landed q) (h' : q.Landed r) : p.Landed r := by
  unfold Path.Landed at *
  refine h'.trans ?_
  rw [h]

/-- The state `t` after results of a path of `s` have landed: registers, predicates and that path alone differ. -/
structure LandedOnly (s t : State) (gk i : Nat) : Prop where
  frame : t = { s with cregs := t.cregs, threads := t.threads, groups := t.groups }
  others : ∀ k, k ≠ gk → AMap.find? t.groups k = AMap.find? s.groups k
  path : ∀ g, AMap.find? s.groups gk = some g → ∃ f : Path → Path, (∀ p : Path, p.Landed (f p)) ∧
    AMap.find? t.groups gk = some { g with paths := updAt f g.paths i }

theorem LandedOnly.of_groups {s t : State} {gk i : Nat}
    (h : t = { s with cregs := t.cregs, threads := t.threads }) : LandedOnly s t gk i := by
  have hg : t.groups = s.groups := by rw [h]
  refine ⟨by rw [hg]; exact h, fun k _ => by rw [hg], fun g h => ⟨fun p => p, fun _ => rfl, ?_⟩⟩
  rw [hg, updAt_id, h]

theorem LandedOnly.trans {s t u : State} {gk i : Nat} (h : LandedOnly s t gk i) (h' : LandedOnly t u gk i) :
    LandedOnly s u gk i := by
  refine ⟨?_, fun k hk => (h'.others k hk).trans (h.others k hk), fun g hg => ?_⟩
  · rw [h'.frame, h.frame]
  · obtain ⟨f, hf, hfind⟩ := h.path g hg
    obtain ⟨f', hf', hfind'⟩ := h'.path _ hfind
    exact ⟨fun p => f' (f p), fun p => (hf p).trans (hf' (f p)), by rw [hfind', updAt_updAt]⟩

theorem LandedOnly.updPath (s : State) (gk i : Nat) {f : Path → Path} (hf : ∀ p : Path, p.Landed (f p)) :
    LandedOnly s (s.updPath gk i f) gk i :=
  ⟨rfl, fun _ hk => AMap.find?_upd_other _ _ hk, fun g hg => ⟨f, hf, by simp [State.updPath, hg]⟩⟩

theorem State.land_landed (s : State) (gk i : Nat) (e : InFlight) : LandedOnly s (s.land gk i e) gk i := by
  unfold State.land
  cases e.dst with
  | creg k =>
    refine .trans (t := { s with cregs := Cells.set s.cregs k (e.val.setWidth 32) }) (.of_groups rfl) ?_
    exact .updPath _ gk i fun p => by split <;> rfl
  | sreg n => exact .updPath s gk i fun p => rfl
  | stage n => exact .updPath s gk i fun p => rfl
  | pred t n =>
    dsimp only
    split
    · exact .of_groups rfl
    · exact .of_groups rfl

/-- Landing changes registers, predicates, and of the groups the path alone. -/
theorem State.landIf_landed (s : State) (gk i : Nat) (test : InFlight → Bool) :
    LandedOnly s (s.landIf gk i test) gk i := by
  have fold : ∀ (es : List InFlight) (t : State), LandedOnly t (es.foldl (fun t e => t.land gk i e) t) gk i := by
    intro es
    induction es with
    | nil => exact fun t => .of_groups rfl
    | cons e es ih => exact fun t => (State.land_landed t gk i e).trans (ih _)
  unfold State.landIf
  split
  · exact .of_groups rfl
  · split
    · exact .of_groups rfl
    · exact (fold _ s).trans (.updPath _ gk i fun p => rfl)

/-! The end of an instruction. -/

/-- A slot ends as a Fleper instruction ends, once what its path has in flight has landed (03 R62, R63). -/
theorem State.endInstr_some {s : State} {c : Ctx} {x : Slot} (hx : c.cur.slot = some x) :
    s.endInstr c = (s.landIf c.cur.grp c.cur.path fun _ => true).endInstr
      { c with cur := { c.cur with slot := none } } := by
  have hn : c.native = true := by simp [Ctx.native, hx]
  unfold State.endInstr
  simp only [hn, if_true]
  rfl

theorem State.finish_none {s : State} {c : Ctx} (hn : c.cur.slot = none) :
    s.finish c = s.finishTo c c.lanes fun _ => c.after := by
  rw [State.finish, Ctx.midBundle_none hn, if_neg Bool.false_ne_true]

theorem State.finish_midBundle {s : State} {c : Ctx} {x : Slot} (hx : c.cur.slot = some x) (hs : c.p.sealed = false) :
    s.finish c = s.updCur c fun p => { p with wait := .none, reply := [], replyFault := none } := by
  rw [State.finish, Ctx.midBundle_some hx hs, if_pos rfl]

theorem State.finish_sealed {s : State} {c : Ctx} {x : Slot} (hx : c.cur.slot = some x) (hs : c.p.sealed = true) :
    s.finish c = (s.landIf c.cur.grp c.cur.path fun _ => true).finish { c with cur := { c.cur with slot := none } } := by
  have hm : c.midBundle = false := by simp [Ctx.midBundle, hs]
  have hnext : (s.landIf c.cur.grp c.cur.path fun _ => true).next = s.next := by
    rw [(State.landIf_landed s _ _ _).frame]
  rw [State.finish_none (c := { c with cur := { c.cur with slot := none } }) rfl, State.finishTo_none rfl, hnext, State.finish, hm, if_neg Bool.false_ne_true,
    State.finishTo, hm, if_neg Bool.false_ne_true, State.endInstr_some hx]
  rfl

/-- Settles O9: a Fleper instruction by what its end can do, a slot by whether its bundle has issued. -/
theorem finishingMovesTheLanesOn : Obligations.FinishingMovesTheLanesOn := by
  intro s c g p b l hg hp hb hl
  refine ⟨fun hn => ?_, fun x => State.finish_midBundle, fun x => State.finish_sealed⟩
  obtain ⟨gs, h, hfin, others, hfind, hgroup, stands⟩ :=
    State.finishTo_fleper hn hg hp hb hl c.lanes fun _ => c.after
  rw [State.finish_none hn, hfin]
  exact ⟨_, h, rfl, rfl, others, hfind, hgroup, stands⟩

/-! MOV to a uniform register (02 R42, R43). -/

theorem exec_mov_uniform {s : State} {g : Guard} {c : Ctx} (hc : s.ctx g = some c) (ty : STy) (k : Nat) (a : Operand) :
    exec (.mov g ty (.k k) a) s = .next (if c.exec.isEmpty then s.finish c
      else s.writeUniform c k (BitVec.ofNat 64 (s.bits c ty c.lead a))) := State.issue_of_ctx hc _

/-- Settles O12: by who owns the register in the interval. -/
theorem aUniformRegisterHasOneWriterInAnInterval : Obligations.AUniformRegisterHasOneWriterInAnInterval := by
  intro s g ty k a c hc
  have hb := (State.ctx_eq hc).2.2.2.1
  simp only [exec_mov_uniform hc, List.isEmpty_iff, State.writeUniform]
  refine ⟨fun he => if_pos he ▸ rfl, fun he ho => ?_, fun he ho => ?_, fun o he ho hne => ?_⟩
  · rw [if_neg he, ho]
    simp only [State.updBlock, AMap.upd, hb]
  · rw [if_neg he, ho]
    simp only [if_true]
  · rw [if_neg he, ho]
    simp only [if_neg hne, State.raiseAll]

end Sys2Proof.Machine
end

section
/-! REFORM and the bobbin store (02 R34 to R36; 20 R439). -/

namespace Sys2Proof.Machine

open Sys2Proof.Safety Sys2Proof.Claims

/-- A bobbin has a key and room for a further thread (02 R34). -/
def Bobbin.Takes (y : Bobbin) (bk pc : Nat) : Prop := y.block = bk ∧ y.pc = pc ∧ y.threads.length < 64

/-- No bobbin of a core takes a further thread of a key. -/
def NoneTakes (s : State) (core bk pc : Nat) : Prop :=
  ∀ j < 64, ∀ y, AMap.find? s.bobbins (core * 64 + j) = some y → ¬ y.Takes bk pc

/-- The test by which a bobbin with the key and room is found. -/
def State.bobbinTakes (s : State) (bk pc k : Nat) : Bool :=
  (AMap.find? s.bobbins k).any fun x => x.block == bk && x.pc == pc && decide (x.threads.length < 64)

theorem State.bobbinTakes_iff (s : State) (bk pc k : Nat) :
    s.bobbinTakes bk pc k = true ↔ ∃ y, AMap.find? s.bobbins k = some y ∧ y.Takes bk pc := by
  simp [State.bobbinTakes, Option.any_eq_true, Bobbin.Takes, and_assoc]

/-- The keys of the bobbins of a core. -/
def bobbinKeys (core : Nat) : List Nat := (span 0 64).map fun i => core * 64 + i

theorem mem_bobbinKeys {core k : Nat} : k ∈ bobbinKeys core ↔ ∃ i < 64, core * 64 + i = k := by
  simp [bobbinKeys, mem_span]

/-- The bobbin found is the first that takes the thread, else the first free one. -/
theorem State.bobbinFor_eq (s : State) (core bk pc : Nat) :
    s.bobbinFor core bk pc = ((bobbinKeys core).find? (s.bobbinTakes bk pc)).or
      ((bobbinKeys core).find? fun k => (AMap.find? s.bobbins k).isNone) := by
  have ht : s.bobbinTakes bk pc = fun k => match AMap.find? s.bobbins k with
      | some x => x.block == bk && x.pc == pc && decide (x.threads.length < 64)
      | none => false := by
    funext k
    unfold State.bobbinTakes
    cases AMap.find? s.bobbins k <;> rfl
  rw [ht]
  unfold State.bobbinFor bobbinKeys
  dsimp only
  split
  · next h => exact (congrArg (Option.or · _) h).symm
  · next h => exact (congrArg (Option.or · _) h).symm

/-- The bobbin found has the key and room, or is free where none has (02 R34). -/
theorem State.bobbinFor_of_some {s : State} {core bk pc k : Nat} (h : s.bobbinFor core bk pc = some k) :
    ∃ i < 64, core * 64 + i = k ∧
      ((∃ y, AMap.find? s.bobbins k = some y ∧ y.Takes bk pc) ∨
        (NoneTakes s core bk pc ∧ AMap.find? s.bobbins k = none)) := by
  rw [State.bobbinFor_eq] at h
  cases hf : (bobbinKeys core).find? (s.bobbinTakes bk pc) with
  | some k' =>
    rw [hf] at h
    cases h
    obtain ⟨i, hi, hk⟩ := mem_bobbinKeys.1 (List.mem_of_find?_eq_some hf)
    exact ⟨i, hi, hk, .inl ((s.bobbinTakes_iff bk pc k).1 (List.find?_some hf))⟩
  | none =>
    rw [hf, Option.none_or] at h
    obtain ⟨i, hi, hk⟩ := mem_bobbinKeys.1 (List.mem_of_find?_eq_some h)
    have free := List.find?_some (p := fun k => (AMap.find? s.bobbins k).isNone) h
    refine ⟨i, hi, hk, .inr ⟨fun j hj y hy ht => ?_, Option.isNone_iff_eq_none.1 free⟩⟩
    exact List.find?_eq_none.1 hf _ (mem_bobbinKeys.2 ⟨j, hj, rfl⟩) ((s.bobbinTakes_iff bk pc _).2 ⟨y, hy, ht⟩)

/-- Where none is found, every bobbin of the core holds threads of another key, or is full. -/
theorem State.bobbinFor_of_none {s : State} {core bk pc : Nat} (h : s.bobbinFor core bk pc = none) :
    ∀ i < 64, ∃ y, AMap.find? s.bobbins (core * 64 + i) = some y ∧ ¬ y.Takes bk pc := by
  rw [State.bobbinFor_eq, Option.or_eq_none_iff, List.find?_eq_none, List.find?_eq_none] at h
  obtain ⟨taken, free⟩ := h
  intro i hi
  have hk := mem_bobbinKeys (core := core).2 ⟨i, hi, rfl⟩
  obtain ⟨y, hy⟩ := Option.ne_none_iff_exists'.1 fun hnone => free _ hk (Option.isNone_iff_eq_none.2 hnone)
  exact ⟨y, hy, fun ht => taken _ hk ((s.bobbinTakes_iff bk pc _).2 ⟨y, hy, ht⟩)⟩

theorem State.fileThread_of_none {s : State} {core bk pc limit x : Nat} (h : s.fileThread core bk pc limit x = none) :
    s.bobbinFor core bk pc = none := by
  unfold State.fileThread at h
  split at h
  · assumption
  · cases h

/-- Filing a thread changes one bobbin: one with the key and room, or a free one where none has. -/
theorem State.fileThread_of_some {s t : State} {core bk pc limit x : Nat}
    (h : s.fileThread core bk pc limit x = some t) : ∃ i < 64,
      (∀ k, k ≠ core * 64 + i → AMap.find? t.bobbins k = AMap.find? s.bobbins k) ∧
      t = { s with bobbins := t.bobbins } ∧
      ((∃ y, AMap.find? s.bobbins (core * 64 + i) = some y ∧ y.Takes bk pc ∧
          AMap.find? t.bobbins (core * 64 + i) = some { y with threads := y.threads ++ [x] }) ∨
        (NoneTakes s core bk pc ∧ AMap.find? s.bobbins (core * 64 + i) = none ∧
          AMap.find? t.bobbins (core * 64 + i) =
            some { block := bk, pc, threads := [x], born := s.cycle, limit })) := by
  unfold State.fileThread at h
  split at h
  · cases h
  · next k hk =>
    cases h
    obtain ⟨i, hi, rfl, hb⟩ := State.bobbinFor_of_some hk
    refine ⟨i, hi, fun k hk => AMap.find?_put_other _ _ hk, rfl, ?_⟩
    rcases hb with ⟨y, hy, ht⟩ | ⟨hn, hy⟩
    · refine .inl ⟨y, hy, ht, ?_⟩
      simp only [AMap.find?_put_same, hy]
    · refine .inr ⟨hn, hy, ?_⟩
      simp only [AMap.find?_put_same, hy]

/-- The bobbin store (02 R34). -/
theorem aBobbinHoldsThreadsOfOneKey : ABobbinHoldsThreadsOfOneKey := by
  intro s core bk pc limit x
  refine ⟨fun h => State.bobbinFor_of_none (State.fileThread_of_none h), fun t h => ?_⟩
  obtain ⟨i, hi, others, frame, hb⟩ := State.fileThread_of_some h
  refine ⟨i, hi, others, frame, ?_⟩
  rcases hb with ⟨y, hy, ⟨hbk, hpc, hroom⟩, ht⟩ | hnew
  · exact .inl ⟨y, hy, hbk, hpc, hroom, ht⟩
  · exact .inr hnew

/-! Filing the lanes of a path. -/

/-- A thread of a block stands in a bobbin of its block and a program counter. -/
def FiledIn (s : State) (bk pc x : Nat) : Prop :=
  ∃ k y, AMap.find? s.bobbins k = some y ∧ y.block = bk ∧ y.pc = pc ∧ x ∈ y.threads

/-- A thread that has been filed stands in a bobbin of its key. -/
theorem State.fileThread_filed {s t : State} {core bk pc limit x : Nat}
    (h : s.fileThread core bk pc limit x = some t) : FiledIn t bk pc x := by
  obtain ⟨i, _, _, _, ⟨y, _, ⟨hbk, hpc, _⟩, ht⟩ | ⟨_, _, ht⟩⟩ := State.fileThread_of_some h
  · exact ⟨_, _, ht, hbk, hpc, List.mem_append_right _ List.mem_cons_self⟩
  · exact ⟨_, _, ht, rfl, rfl, List.mem_cons_self⟩

/-- Filing a further thread takes none out of its bobbin. -/
theorem FiledIn.fileThread {s t : State} {core bk pc limit x bk' pc' x' : Nat} (hf : FiledIn s bk' pc' x')
    (h : s.fileThread core bk pc limit x = some t) : FiledIn t bk' pc' x' := by
  obtain ⟨k, z, hz, hbk, hpc, hx⟩ := hf
  obtain ⟨i, _, others, _, hb⟩ := State.fileThread_of_some h
  by_cases hk : k = core * 64 + i
  · subst hk
    rcases hb with ⟨y, hy, _, ht⟩ | ⟨_, hy, _⟩
    · cases hz.symm.trans hy
      exact ⟨_, _, ht, hbk, hpc, List.mem_append_left _ hx⟩
    · cases hz.symm.trans hy
  · exact ⟨k, z, (others k hk).trans hz, hbk, hpc, hx⟩

/-- A thread with its registers taken out of its lane: the state from which it is filed (02 R34). -/
def State.unloaded (s : State) (c : Ctx) (l : Nat) : State :=
  s.setThread (c.g.thread l)
    { s.thread (c.g.thread l) with regs := s.laneRegs c.b.core (s.regBase c) (s.stageOf c.b c.l).regs l }

theorem State.fileLanes_cons (s : State) (c : Ctx) (pc limit l : Nat) (ls : List Nat) :
    s.fileLanes c pc limit (l :: ls) =
      match (s.unloaded c l).fileThread c.b.core c.g.block pc limit ((AMap.find? c.g.lanes l).getD 0) with
      | none => ((s.fileLanes c pc limit ls).1, l :: (s.fileLanes c pc limit ls).2)
      | some t => t.fileLanes c pc limit ls := by
  rw [State.fileLanes]
  rfl

theorem State.fileLanes_keeps_filed (c : Ctx) (pc limit : Nat) (ls : List Nat) {s : State} {bk pc' x : Nat}
    (hf : FiledIn s bk pc' x) : FiledIn (s.fileLanes c pc limit ls).1 bk pc' x := by
  induction ls generalizing s with
  | nil => exact hf
  | cons l ls ih =>
    rw [State.fileLanes_cons]
    split
    · exact ih hf
    · next t ht => exact ih (FiledIn.fileThread (s := s.unloaded c l) hf ht)

/-- A lane that does not stay has its thread in a bobbin of the key. -/
theorem State.fileLanes_filed (c : Ctx) (pc limit : Nat) (ls : List Nat) (s : State) :
    ∀ l ∈ ls, l ∉ (s.fileLanes c pc limit ls).2 →
      FiledIn (s.fileLanes c pc limit ls).1 c.g.block pc ((AMap.find? c.g.lanes l).getD 0) := by
  induction ls generalizing s with
  | nil => intro l hl; cases hl
  | cons l ls ih =>
    intro m hm
    rw [State.fileLanes_cons]
    split
    · intro hs
      obtain ⟨hml, hms⟩ := not_or.1 fun h => hs (List.mem_cons.2 h)
      exact ih s m ((List.mem_cons.1 hm).resolve_left hml) hms
    · next t ht =>
      intro hs
      rcases List.mem_cons.1 hm with rfl | hm
      · exact State.fileLanes_keeps_filed c pc limit ls (State.fileThread_filed ht)
      · exact ih t m hm hs

theorem reformFilesTheExecutingThreads : ReformFilesTheExecutingThreads := by
  intro s gd target c hc
  refine ⟨State.issue_of_ctx hc _, fun l hl => ?_⟩
  obtain ⟨hle, hls⟩ := List.mem_filter.1 hl
  exact State.fileLanes_filed c _ _ c.exec _ l hle (by simpa using hls)

/-- Settles O14: by the bobbin that filing finds, and by induction on the lanes filed. -/
theorem reformFilesThreadsInBobbinsOfTheirKey : Obligations.ReformFilesThreadsInBobbinsOfTheirKey :=
  ⟨reformFilesTheExecutingThreads, aBobbinHoldsThreadsOfOneKey⟩

end Sys2Proof.Machine
end

section
/-! BARSYNC and the block barrier (02 R42; 07 R179; 17 R358, R359). -/

namespace Sys2Proof.Machine

open Sys2Proof.Safety Sys2Proof.Claims

/-! Regrouping leaves at the barrier the lanes that wait there, and no others. -/

/-- A lane stands in a path that waits at the block barrier (`b`), or in one that does not. -/
def standsSync (ps : List Path) (lane : Nat) (b : Bool) : Prop :=
  ∃ p ∈ ps, p.mask.getLsbD lane = true ∧ (p.wait == Wait.sync) = b

theorem standsSync_cons (p : Path) (ps : List Path) (lane : Nat) (b : Bool) : standsSync (p :: ps) lane b ↔
    (p.mask.getLsbD lane = true ∧ (p.wait == Wait.sync) = b) ∨ standsSync ps lane b := by simp [standsSync]

theorem standsSync_append (ps qs : List Path) (lane : Nat) (b : Bool) :
    standsSync (ps ++ qs) lane b ↔ standsSync ps lane b ∨ standsSync qs lane b := by
  simp [standsSync, or_and_right, exists_or]

theorem Path.join_wait (p q : Path) : (p.join q).wait = if p.wait = q.wait then p.wait else .none := by
  unfold Path.join; dsimp only; split <;> rfl

/-- A path that waits at the barrier joins none. -/
theorem Path.wait_of_canJoin {p : Path} (h : p.canJoin = true) : (p.wait == Wait.sync) = false := by
  simp only [Path.canJoin, Bool.and_eq_true, Bool.not_eq_true'] at h
  obtain ⟨⟨_, hb⟩, _⟩ := h
  cases hw : p.wait <;> simp_all [Wait.blocking]

theorem Path.join_wait_not_sync {p q : Path} (hp : (p.wait == Wait.sync) = false) :
    ((p.join q).wait == Wait.sync) = false := by
  rw [Path.join_wait]
  split
  · exact hp
  · rfl

theorem standsSync_addPath (p : Path) (ps : List Path) (lane : Nat) (b : Bool) :
    standsSync (addPath p ps) lane b ↔ standsSync (p :: ps) lane b := by
  induction ps with
  | nil => rfl
  | cons q qs ih =>
    simp only [addPath]
    split
    · next h =>
      obtain ⟨_, hp, hq⟩ := h
      have wp := Path.wait_of_canJoin hp
      have wq := Path.wait_of_canJoin hq
      simp only [standsSync_cons, Path.join_mask, Path.join_wait_not_sync wq, wp, wq, BitVec.getLsbD_or,
        Bool.or_eq_true]
      tauto
    · simp only [standsSync_cons, ih]; tauto

theorem standsSync_joinPaths (ps : List Path) (lane : Nat) (b : Bool) :
    standsSync (joinPaths ps) lane b ↔ standsSync ps lane b := by
  have h : ∀ acc : List Path,
      standsSync (ps.foldl (fun acc p => if p.mask = 0 then acc else addPath p acc) acc) lane b ↔
        standsSync acc lane b ∨ standsSync ps lane b := by
    induction ps with
    | nil => intro acc; simp [standsSync]
    | cons p ps ih =>
      intro acc
      rw [List.foldl_cons, ih]
      split
      · next h => simp [standsSync_cons, h]
      · rw [standsSync_addPath]; simp only [standsSync_cons]; tauto
  rw [joinPaths, h]
  simp [standsSync]

/-- A change of paths that leaves lanes and waits as they are. -/
theorem standsSync_map {f : Path → Path} (hf : ∀ p : Path, (f p).mask = p.mask ∧ (f p).wait = p.wait) (ps : List Path)
    (lane : Nat) (b : Bool) : standsSync (ps.map f) lane b ↔ standsSync ps lane b := by
  simp [standsSync, hf]

theorem standsSync_updAt {f : Path → Path} (hf : ∀ p : Path, (f p).mask = p.mask ∧ (f p).wait = p.wait)
    (ps : List Path) (i lane : Nat) (b : Bool) : standsSync (updAt f ps i) lane b ↔ standsSync ps lane b := by
  induction ps generalizing i with
  | nil => rfl
  | cons p ps ih => cases i with
    | zero => simp [updAt, standsSync_cons, hf]
    | succ i => simp only [updAt, standsSync_cons, ih]

theorem standsSync_giveEntries (n : Nat) (ps : List Path) (lane : Nat) (b : Bool) :
    standsSync (giveEntries n ps) lane b ↔ standsSync ps lane b := by
  induction n generalizing ps with
  | zero => rfl
  | succ n ih =>
    simp only [giveEntries]
    split
    · rw [ih]
      refine standsSync_updAt ?_ ..
      exact fun _ => ⟨rfl, rfl⟩
    · rfl

theorem Group.standsSync_regroup (g : Group) (lane : Nat) (b : Bool) :
    standsSync g.regroup.paths lane b ↔ standsSync g.paths lane b := by
  unfold Group.regroup
  split
  · refine (standsSync_map (fun p => ?_) _ lane b).trans ?_
    · split <;> exact ⟨rfl, rfl⟩
    · rw [standsSync_giveEntries, standsSync_joinPaths]
  · simp only [standsSync_giveEntries, standsSync_joinPaths]

/-! Of paths none of which waits at the barrier, regrouping makes none that does. -/

theorem addPath_no_sync {p : Path} {ps : List Path} (h : ∀ q ∈ p :: ps, (q.wait == Wait.sync) = false) :
    ∀ q ∈ addPath p ps, (q.wait == Wait.sync) = false := by
  induction ps with
  | nil => exact h
  | cons q qs ih =>
    have hq := h q (List.mem_cons_of_mem _ List.mem_cons_self)
    have hqs : ∀ r ∈ qs, (r.wait == Wait.sync) = false := fun r hr =>
      h r (List.mem_cons_of_mem _ (List.mem_cons_of_mem _ hr))
    unfold addPath
    split
    · exact List.forall_mem_cons.2 ⟨Path.join_wait_not_sync hq, hqs⟩
    · exact List.forall_mem_cons.2 ⟨hq, ih (List.forall_mem_cons.2 ⟨h p List.mem_cons_self, hqs⟩)⟩

theorem joinPaths_no_sync {ps : List Path} (h : ∀ q ∈ ps, (q.wait == Wait.sync) = false) :
    ∀ q ∈ joinPaths ps, (q.wait == Wait.sync) = false := by
  have key : ∀ acc : List Path, (∀ q ∈ acc, (q.wait == Wait.sync) = false) →
      ∀ q ∈ ps.foldl (fun acc p => if p.mask = 0 then acc else addPath p acc) acc, (q.wait == Wait.sync) = false := by
    induction ps with
    | nil => exact fun acc hacc => hacc
    | cons p ps ih =>
      obtain ⟨hp, hps⟩ := List.forall_mem_cons.1 h
      intro acc hacc
      rw [List.foldl_cons]
      apply ih hps
      split
      · exact hacc
      · exact addPath_no_sync (List.forall_mem_cons.2 ⟨hp, hacc⟩)
  exact key [] fun q hq => nomatch hq

theorem updAt_no_sync {f : Path → Path} (hf : ∀ p : Path, (f p).wait = p.wait) {ps : List Path}
    (h : ∀ q ∈ ps, (q.wait == Wait.sync) = false) (i : Nat) : ∀ q ∈ updAt f ps i, (q.wait == Wait.sync) = false := by
  induction ps generalizing i with
  | nil => exact h
  | cons p ps ih =>
    obtain ⟨hp, hps⟩ := List.forall_mem_cons.1 h
    cases i with
    | zero => exact List.forall_mem_cons.2 ⟨by rw [hf]; exact hp, hps⟩
    | succ i => exact List.forall_mem_cons.2 ⟨hp, ih hps i⟩

theorem giveEntries_no_sync (n : Nat) {ps : List Path} (h : ∀ q ∈ ps, (q.wait == Wait.sync) = false) :
    ∀ q ∈ giveEntries n ps, (q.wait == Wait.sync) = false := by
  induction n generalizing ps with
  | zero => exact h
  | succ n ih =>
    unfold giveEntries
    split
    · refine ih (updAt_no_sync ?_ h _)
      exact fun _ => rfl
    · exact h

theorem Group.regroup_no_sync {g : Group} (h : ∀ q ∈ g.paths, (q.wait == Wait.sync) = false) :
    ∀ q ∈ g.regroup.paths, (q.wait == Wait.sync) = false := by
  have hps := giveEntries_no_sync 8 (joinPaths_no_sync h)
  unfold Group.regroup
  split
  · rintro q hq
    obtain ⟨p, hp, rfl⟩ := List.mem_map.1 hq
    split
    · exact hps p hp
    · exact hps p hp
  · exact hps

/-! What the end of an instruction makes of the issuing path. -/

/-- The end of a Fleper instruction, before its lanes go on: its path waits for nothing; outside a matrix run the
stores in hand perform; of the groups its own alone changes. -/
theorem State.endInstr_fleper {s : State} {c : Ctx} {g : Group} {p : Path} {b : Block} {l : Launch}
    (hn : c.cur.slot = none) (hg : AMap.find? s.groups c.cur.grp = some g) (hp : g.paths[c.cur.path]? = some p)
    (hb : AMap.find? s.blocks g.block = some b) (hl : AMap.find? s.launches b.launch = some l) :
    (∀ k, k ≠ c.cur.grp → AMap.find? (s.endInstr c).groups k = AMap.find? s.groups k) ∧
    (∃ (f : Path → Path) (sat inv : Bool), (∀ p, (f p).wait = .none) ∧
      AMap.find? (s.endInstr c).groups c.cur.grp = some { g with sat, inv, paths := updAt f g.paths c.cur.path }) ∧
    (p.run = 0 → s.endInstr c =
      { s.performStores c.cur.grp g p b l with groups := (s.endInstr c).groups }) := by
  have hg1 := State.find_updCur hg Path.ended
  have hp1 : (updAt Path.ended g.paths c.cur.path)[c.cur.path]? = some p.ended := by simp [getElem?_updAt, hp]
  have ho1 : ∀ k, k ≠ c.cur.grp → AMap.find? (s.updCur c Path.ended).groups k = AMap.find? s.groups k :=
    fun k hk => State.find_updCur_other hk Path.ended
  have hrun : ((s.updCur c Path.ended).path c).run = p.run := by rw [State.path_of_find hg1 hp1]; rfl
  have hperf : ({ s with groups := (s.updCur c Path.ended).groups } : State).performStores c.cur.grp g p b l =
      { s.performStores c.cur.grp g p b l with groups := (s.updCur c Path.ended).groups } :=
    performStores_withGroups _ s c.cur.grp g p b l
  rw [State.endInstr_none hn, hrun]
  split
  · next h0 =>
    have hc := State.closeRegion_plain (gk := c.cur.grp) hg1 hp1 hb hl h0
    have hperf' : (s.updCur c Path.ended).performStores c.cur.grp
        { g with paths := updAt Path.ended g.paths c.cur.path } p.ended b l =
        { s.performStores c.cur.grp g p b l with groups := (s.updCur c Path.ended).groups } := hperf
    rw [hc, hperf']
    refine ⟨fun k hk => (AMap.find?_upd_other _ _ hk).trans (ho1 k hk), ?_, fun _ => rfl⟩
    simp only [State.updGroup_groups, AMap.find?_upd_same, hg1, Option.map_some, updAt_updAt]
    exact ⟨_, _, _, fun _ => rfl, rfl⟩
  · next h0 =>
    refine ⟨fun k hk => (State.find_updCur_other hk _).trans (ho1 k hk), ?_, fun h => absurd h h0⟩
    rw [State.find_updCur hg1, updAt_updAt]
    exact ⟨_, g.sat, g.inv, fun _ => rfl, rfl⟩

/-- The state in which a slot ends its region: what its path has in flight has landed (03 R62). -/
def State.landedFor (s : State) (c : Ctx) : State :=
  if c.cur.slot = none then s else s.landIf c.cur.grp c.cur.path fun _ => true

/-- The end of an instruction of either carrier, before its lanes go on. -/
theorem State.endInstr_of_ctx {s : State} {gd : Guard} {c : Ctx} (h : s.ctx gd = some c) :
    (∀ k, k ≠ c.cur.grp → AMap.find? (s.endInstr c).groups k = AMap.find? s.groups k) ∧
    (∃ (f : Path → Path) (sat inv : Bool), (∀ p, (f p).wait = .none) ∧
      AMap.find? (s.endInstr c).groups c.cur.grp =
        some { c.g with sat, inv, paths := updAt f c.g.paths c.cur.path }) ∧
    (c.p.run = 0 → s.endInstr c = { held (s.landedFor c) c with groups := (s.endInstr c).groups }) := by
  obtain ⟨_, hg, hp, hb, hl, _, _⟩ := State.ctx_eq h
  cases hx : c.cur.slot with
  | none =>
    obtain ⟨others, path, frame⟩ := State.endInstr_fleper hx hg hp hb hl
    refine ⟨others, path, fun h0 => ?_⟩
    rw [State.landedFor, if_pos hx, held, if_pos h0]
    exact frame h0
  | some x =>
    have land := State.landIf_landed s c.cur.grp c.cur.path fun _ => true
    obtain ⟨f, hf, hgf⟩ := land.path c.g hg
    have hpf : (updAt f c.g.paths c.cur.path)[c.cur.path]? = some (f c.p) := by simp [getElem?_updAt, hp]
    have hrun : (f c.p).run = c.p.run := by rw [hf c.p]
    obtain ⟨others, ⟨f', sat, inv, hw, hfind⟩, frame⟩ := State.endInstr_fleper
      (c := { c with cur := { c.cur with slot := none } }) (b := c.b) (l := c.l) rfl hgf hpf
      (by rw [land.frame]; exact hb) (by rw [land.frame]; exact hl)
    rw [State.endInstr_some hx]
    refine ⟨fun k hk => (others k hk).trans (land.others k hk), ⟨fun p => f' (f p), sat, inv, fun p => hw _, ?_⟩,
      fun h0 => ?_⟩
    · rw [hfind, updAt_updAt]
    · refine (frame (hrun.trans h0)).trans ?_
      rw [State.landedFor, if_neg (by simp [hx]), held, if_pos h0, hf c.p]
      rfl

/-! BARSYNC. -/

theorem Ctx.mem_others {c : Ctx} {l : Nat} : l ∈ c.others ↔ l ∈ c.lanes ∧ l ∉ c.exec := by
  simp [Ctx.others]

theorem State.ctx_exec_sub {s : State} {gd : Guard} {c : Ctx} (h : s.ctx gd = some c) {l : Nat} (hl : l ∈ c.exec) :
    l ∈ c.lanes := by
  rw [(State.ctx_eq h).2.2.2.2.2.2] at hl
  exact (List.mem_filter.1 hl).1

/-- The paths that a BARSYNC leaves stand after it with all lanes of the issuing one. -/
theorem standsAt_syncPaths {s : State} {gd : Guard} {c : Ctx} (h : s.ctx gd = some c) (p : Path)
    (since lane pc : Nat) : standsAt (syncPaths p c since) lane pc ↔ lane ∈ c.lanes ∧ c.after = pc := by
  have hlt : lane ∈ c.lanes → lane < 64 := State.ctx_lane_lt h
  have hsub : lane ∈ c.exec → lane ∈ c.lanes := State.ctx_exec_sub h
  simp only [syncPaths, standsAt_cons, standsAt_nil, or_false, getLsbD_maskOf, Bool.and_eq_true, decide_eq_true_eq,
    Ctx.mem_others]
  tauto

/-- Those that execute it wait in their path, the others do not. -/
theorem standsSync_syncPaths {s : State} {gd : Guard} {c : Ctx} (h : s.ctx gd = some c) {p : Path} (hw : p.wait = .none)
    (since : Nat) : (∀ lane ∈ c.exec, standsSync (syncPaths p c since) lane true) ∧
      ∀ lane ∈ c.others, standsSync (syncPaths p c since) lane false := by
  simp only [syncPaths, standsSync_cons, getLsbD_maskOf, hw]
  refine ⟨fun lane hl => .inl ⟨?_, rfl⟩, fun lane hl => .inr (.inl ⟨?_, rfl⟩)⟩
  · simp [State.ctx_lane_lt h (State.ctx_exec_sub h hl), hl]
  · simp [State.ctx_lane_lt h (Ctx.mem_others.1 hl).1, hl]

theorem standsSync_replaceAt {new : List Path} {lane : Nat} {b : Bool} (h : standsSync new lane b) (ps : List Path)
    (i : Nat) : standsSync (replaceAt ps i new) lane b := by
  simp only [replaceAt, standsSync_append]
  exact .inl (.inr h)

/-- The group of a BARSYNC that has executed: its issuing path has split. -/
def syncGroup (c : Ctx) (since : Nat) (g : Group) : Group :=
  Group.regroup { g with
    paths := replaceAt g.paths c.cur.path (syncPaths ((g.paths[c.cur.path]?).getD c.p) c since) }

/-- The state in which a BARSYNC has executed, before the completion of the barrier is judged. -/
def State.synced (s : State) (c : Ctx) : State :=
  { (s.endInstr c).updGroup c.cur.grp (syncGroup c s.next) with next := (s.endInstr c).next + 1 }

theorem exec_barsync {s : State} {gd : Guard} {c : Ctx} (h : s.ctx gd = some c) : exec (.barsync gd) s =
    .next (if c.exec.isEmpty then s.finish c else (s.synced c).completeBarsync c.g.block) := State.issue_of_ctx h _

theorem standsSync_syncGroup {c : Ctx} {since : Nat} {g : Group} {p : Path} {lane : Nat} {b : Bool}
    (hp : (g.paths[c.cur.path]?).getD c.p = p) (h : standsSync (syncPaths p c since) lane b) :
    ∃ q ∈ (syncGroup c since g).paths, q.mask.getLsbD lane = true ∧ (q.wait == Wait.sync) = b := by
  subst hp
  exact (Group.standsSync_regroup _ lane b).2 (standsSync_replaceAt h g.paths c.cur.path)

theorem standsAt_syncGroup {s : State} {gd : Guard} {c : Ctx} (h : s.ctx gd = some c) (since : Nat) (g : Group)
    (lane pc : Nat) : standsAt (syncGroup c since g).paths lane pc ↔
      (lane ∈ c.lanes ∧ c.after = pc) ∨ standsAt (pathsBut g c.cur.path) lane pc := by
  rw [syncGroup, Group.standsAt_regroup, ← standsAt_syncPaths h ((g.paths[c.cur.path]?).getD c.p) since lane pc]
  exact standsAt_replaceAt g c.cur.path _ lane pc

theorem barsyncHoldsTheThreadsThatExecuteIt : BarsyncHoldsTheThreadsThatExecuteIt := by
  intro s gd c h
  rw [exec_barsync h]
  simp only [List.isEmpty_iff]
  refine ⟨fun he => by rw [if_pos he], fun he => ?_⟩
  obtain ⟨others, ⟨f, sat, inv, hw, hfind⟩, frame⟩ := State.endInstr_of_ctx h
  have hpath : ((updAt f c.g.paths c.cur.path)[c.cur.path]?).getD c.p = f c.p := by
    simp [getElem?_updAt, (State.ctx_eq h).2.2.1]
  have hsync := standsSync_syncPaths h (hw c.p) s.next
  refine ⟨s.synced c, syncGroup c s.next { c.g with sat, inv, paths := updAt f c.g.paths c.cur.path },
    by rw [if_neg he], fun h0 => ?_, ?_, fun k hk => ?_, fun lane pc => ?_, fun lane hl => ?_, fun lane hl hn => ?_⟩
  · unfold State.synced
    rw [frame h0]
    rfl
  · simp [State.synced, hfind]
  · exact (AMap.find?_upd_other _ _ hk).trans (others k hk)
  · rw [standsAt_syncGroup h, ← pathsBut_updAt c.g f c.cur.path]
    exact Iff.rfl
  · obtain ⟨q, hq, hm, hs⟩ := standsSync_syncGroup (g := { c.g with sat, inv, paths := updAt f c.g.paths c.cur.path }) hpath
        (hsync.1 lane hl)
    exact ⟨q, hq, hm, eq_of_beq hs⟩
  · obtain ⟨q, hq, hm, hs⟩ := standsSync_syncGroup (g := { c.g with sat, inv, paths := updAt f c.g.paths c.cur.path }) hpath
        (hsync.2 lane (Ctx.mem_others.2 ⟨hl, hn⟩))
    exact ⟨q, hq, hm, ne_of_beq_false hs⟩

/-! Maps in order. -/

theorem risingFrom_le {α : Type} {lo : Nat} {m : AMap α} (h : risingFrom lo m = true) : ∀ e ∈ m, lo ≤ e.1 := by
  induction m generalizing lo with
  | nil => exact fun _ he => nomatch he
  | cons x m ih =>
    simp only [risingFrom, Bool.and_eq_true, decide_eq_true_eq] at h
    exact List.forall_mem_cons.2 ⟨h.1, fun e he => Nat.le_trans (by omega) (ih h.2 e he)⟩

theorem risingFrom_keys_nodup {α : Type} {lo : Nat} {m : AMap α} (h : risingFrom lo m = true) :
    (m.map Prod.fst).Nodup := by
  induction m generalizing lo with
  | nil => exact List.nodup_nil
  | cons x m ih =>
    simp only [risingFrom, Bool.and_eq_true, decide_eq_true_eq] at h
    refine List.nodup_cons.2 ⟨fun hm => ?_, ih h.2⟩
    obtain ⟨e, he, hx⟩ := List.mem_map.1 hm
    have := risingFrom_le h.2 e he
    omega

theorem AMap.mem_of_find? {α : Type} {m : AMap α} {k : Nat} {v : α} (h : AMap.find? m k = some v) : (k, v) ∈ m := by
  induction m with
  | nil => cases h
  | cons x m ih =>
    unfold AMap.find? at h
    split at h
    · next hx => cases h; exact hx ▸ List.mem_cons_self
    · exact List.mem_cons_of_mem _ (ih h)

/-- In a map in order an entry is what its key finds. -/
theorem AMap.find?_of_mem {α : Type} {m : AMap α} {k : Nat} {v : α} (hr : AMap.rising m = true) (h : (k, v) ∈ m) :
    AMap.find? m k = some v := by
  have key : ∀ {lo : Nat} {m : AMap α}, risingFrom lo m = true → (k, v) ∈ m → AMap.find? m k = some v := by
    intro lo m
    induction m generalizing lo with
    | nil => exact fun _ h => nomatch h
    | cons x m ih =>
      intro hr hm
      simp only [risingFrom, Bool.and_eq_true, decide_eq_true_eq] at hr
      rcases List.mem_cons.1 hm with rfl | hm
      · simp [AMap.find?]
      · have := risingFrom_le hr.2 _ hm
        simp only [AMap.find?, if_neg (show ¬ x.1 = k by omega)]
        exact ih hr.2 hm
  exact key hr h

theorem State.mem_groupsOf {s : State} {bk k : Nat} (hr : AMap.rising s.groups = true) :
    k ∈ (s.groupsOf bk).map Prod.fst ↔ ∃ g, AMap.find? s.groups k = some g ∧ g.block = bk := by
  simp only [State.groupsOf, AMap.keep, List.mem_map, List.mem_filter, beq_iff_eq]
  constructor
  · rintro ⟨⟨k, g⟩, ⟨hm, hb⟩, rfl⟩
    exact ⟨g, AMap.find?_of_mem hr hm, hb⟩
  · rintro ⟨g, hg, hb⟩
    exact ⟨(k, g), ⟨AMap.mem_of_find? hg, hb⟩, rfl⟩

/-- A change of the groups listed changes each once. -/
theorem find?_foldl_updGroup (f : Group → Group) {l : AMap Group} (hl : (l.map Prod.fst).Nodup) (s : State) (k : Nat) :
    AMap.find? (l.foldl (fun (t : State) (e : Nat × Group) => t.updGroup e.1 f) s).groups k =
      if k ∈ l.map Prod.fst then (AMap.find? s.groups k).map f else AMap.find? s.groups k := by
  induction l generalizing s with
  | nil => rfl
  | cons e l ih =>
    obtain ⟨he, hl⟩ := List.nodup_cons.1 hl
    rw [List.foldl_cons, ih hl, State.updGroup_groups, AMap.find?_upd]
    by_cases hk : k = e.1
    · subst hk
      rw [if_neg he, if_pos rfl, List.map_cons, if_pos List.mem_cons_self]
    · simp only [List.map_cons, List.mem_cons, hk, false_or, if_false]

/-! The completion of the block barrier. -/

/-- A group whose waiting paths go on (17 R358). -/
def Group.pastSync (g : Group) : Group :=
  Group.regroup { g with paths := g.paths.map fun p => if p.wait == .sync then p.retry else p }

theorem Group.pastSync_no_sync (g : Group) : ∀ p ∈ g.pastSync.paths, p.wait ≠ .sync := by
  refine fun p hp => ne_of_beq_false (Group.regroup_no_sync (fun q hq => ?_) p hp)
  obtain ⟨p, _, rfl⟩ := List.mem_map.1 hq
  split
  · rfl
  · next h => exact eq_false_of_ne_true h

theorem State.judgeArmed_unarmed {s : State} {bk : Nat} {b : Block} (hb : AMap.find? s.blocks bk = some b)
    (ha : b.armed = false) (pc : Option Nat → Nat) : s.judgeArmed bk pc = s := by
  rw [State.judgeArmed, hb]
  simp [ha]

/-- The state in which the block barrier has completed: its ownership interval has ended, its waiting paths go on. -/
def State.passedBarrier (s : State) (bk : Nat) : State :=
  (s.groupsOf bk).foldl (fun (t : State) (e : Nat × Group) => t.updGroup e.1 Group.pastSync)
    (s.updBlock bk fun b => { b with owners := [] })

theorem State.passedBarrier_frame (s : State) (bk : Nat) :
    s.passedBarrier bk = { s.updBlock bk (fun b => { b with owners := [] }) with groups := (s.passedBarrier bk).groups } :=
  foldl_upd_frame _ _ _

theorem State.completeBarsync_of_all {s : State} {bk : Nat} {b : Block} (hb : AMap.find? s.blocks bk = some b)
    (hall : s.arrivals bk = s.liveThreads bk) (hsome : s.arrivals bk ≠ 0) (ha : b.armed = false) :
    s.completeBarsync bk = s.passedBarrier bk := by
  have hb' : AMap.find? (s.passedBarrier bk).blocks bk = some { b with owners := [] } := by
    rw [State.passedBarrier_frame]
    simp [hb]
  rw [State.completeBarsync, if_neg (not_or.2 ⟨hsome, not_not.2 hall⟩)]
  exact State.judgeArmed_unarmed hb' ha _

theorem State.find?_passedBarrier {s : State} (hr : AMap.rising s.groups = true) (bk k : Nat) {g : Group}
    (hg : AMap.find? s.groups k = some g) :
    AMap.find? (s.passedBarrier bk).groups k = some (if g.block = bk then g.pastSync else g) := by
  have hn : ((s.groupsOf bk).map Prod.fst).Nodup := risingFrom_keys_nodup (risingFrom_filter _ hr)
  have hm := State.mem_groupsOf (bk := bk) (k := k) hr
  rw [State.passedBarrier, find?_foldl_updGroup _ hn]
  simp only [State.updBlock_groups, hm, hg, Option.some.injEq, exists_eq_left', Option.map_some]
  split <;> rfl

theorem theBlockBarrierCompletesWithEveryLiveThread : TheBlockBarrierCompletesWithEveryLiveThread := by
  intro s bk b hb
  refine ⟨fun hne => ?_, fun hall hsome ha hr => ?_⟩
  · rw [State.completeBarsync, if_pos (.inr hne)]
  · simp only [State.completeBarsync_of_all hb hall hsome ha]
    have frame := State.passedBarrier_frame s bk
    have blocks : (s.passedBarrier bk).blocks = AMap.upd s.blocks bk fun b => { b with owners := [] } := by rw [frame]; rfl
    refine ⟨?_, ?_, fun k hk => ?_, fun k g hg => ⟨fun hne => ?_, fun heq => ⟨g.pastSync, ?_, g.pastSync_no_sync, ?_⟩⟩⟩
    · rw [blocks]; exact frame
    · rw [blocks]; simp [hb]
    · rw [blocks, AMap.find?_upd_other _ _ hk]
    · rw [State.find?_passedBarrier hr bk k hg, if_neg hne]
    · rw [State.find?_passedBarrier hr bk k hg, if_pos heq]
    · exact (wakeSync_stand g).2

/-- Settles O17: BARSYNC by what the end of an instruction and the split of its path leave, the completion by the change
of each group of the block once. -/
theorem barsyncWaitsForEveryLiveThread : Obligations.BarsyncWaitsForEveryLiveThread :=
  ⟨barsyncHoldsTheThreadsThatExecuteIt, theBlockBarrierCompletesWithEveryLiveThread⟩

end Sys2Proof.Machine
end

section
/-! A step: fetch, decode, and what issues (02 R29, R45; 03 R61 to R63; 15 R311, R323). -/

namespace Sys2Proof.Machine

open Sys2Proof.Safety Sys2Proof.Claims

/-! What readies a path to issue changes that path alone of the groups. -/

/-- Of a group of `s`, the state `t` has changed one path, by a change of which `R` holds. -/
structure PathOnly (R : Path → Path → Prop) (s t : State) (gk i : Nat) : Prop where
  path : ∀ g, AMap.find? s.groups gk = some g → ∃ f : Path → Path, (∀ p, R p (f p)) ∧
    AMap.find? t.groups gk = some { g with paths := updAt f g.paths i }

theorem PathOnly.of_groups {R : Path → Path → Prop} (refl : ∀ p, R p p) {s t : State} {gk i : Nat}
    (h : t.groups = s.groups) : PathOnly R s t gk i :=
  ⟨fun g hg => ⟨fun p => p, refl, by rw [updAt_id, h, hg]⟩⟩

theorem PathOnly.updPath {R : Path → Path → Prop} (s : State) (gk i : Nat) {f : Path → Path} (hf : ∀ p, R p (f p)) :
    PathOnly R s (s.updPath gk i f) gk i :=
  ⟨fun g hg => ⟨f, hf, by simp [State.updPath, hg]⟩⟩

theorem PathOnly.trans {R : Path → Path → Prop} (ht : ∀ p q r, R p q → R q r → R p r) {s t u : State} {gk i : Nat}
    (h : PathOnly R s t gk i) (h' : PathOnly R t u gk i) : PathOnly R s u gk i := by
  refine ⟨fun g hg => ?_⟩
  obtain ⟨f, hf, hfind⟩ := h.path g hg
  obtain ⟨f', hf', hfind'⟩ := h'.path _ hfind
  exact ⟨fun p => f' (f p), fun p => ht _ _ _ (hf p) (hf' _), by rw [hfind', updAt_updAt]⟩

theorem PathOnly.mono {R R' : Path → Path → Prop} (hR : ∀ p q, R p q → R' p q) {s t : State} {gk i : Nat}
    (h : PathOnly R s t gk i) : PathOnly R' s t gk i := by
  refine ⟨fun g hg => ?_⟩
  obtain ⟨f, hf, hfind⟩ := h.path g hg
  exact ⟨f, fun p => hR _ _ (hf p), hfind⟩

/-- The issuing context of a state in which the issuing path has changed. -/
theorem State.ctx_of_pathOnly {R : Path → Path → Prop} {s t : State} {c : Ctx} (h : s.ctx .always = some c) {cur : Cur}
    (hcur : t.cur = some cur) (hgrp : cur.grp = c.cur.grp) (hpath : cur.path = c.cur.path)
    (hb : t.blocks = s.blocks) (hl : t.launches = s.launches) (hp : PathOnly R s t c.cur.grp c.cur.path) :
    ∃ d, t.ctx .always = some d ∧ d.cur = cur ∧ d.b = c.b ∧ d.l = c.l ∧ d.lanes = lanesOf d.p.mask ∧ R c.p d.p ∧
      d.g = { c.g with paths := c.g.paths.set c.cur.path d.p } := by
  obtain ⟨_, hg, hq, hb', hl', _, _⟩ := State.ctx_eq h
  obtain ⟨f, hf, hfind⟩ := hp.path c.g hg
  rw [updAt_eq_set f _ _ _ hq] at hfind
  have hlt : c.cur.path < c.g.paths.length := (List.getElem?_eq_some_iff.1 hq).1
  refine ⟨{ cur, g := { c.g with paths := c.g.paths.set c.cur.path (f c.p) }, p := f c.p, b := c.b, l := c.l,
            lanes := lanesOf (f c.p).mask, exec := lanesOf (f c.p).mask }, ?_, rfl, rfl, rfl, rfl, hf c.p, rfl⟩
  simp [State.ctx, hcur, hgrp, hpath, hfind, hlt, hb, hb', hl, hl', guardTrue]

/-! Counters of drafts. -/

/-- What a path and its draft count of executions may differ. -/
def Path.Counted (p q : Path) : Prop := q = { p with execs := q.execs, cp := q.cp }

theorem Path.Counted.refl (p : Path) : p.Counted p := rfl

theorem Path.Counted.trans (p q r : Path) (h : p.Counted q) (h' : q.Counted r) : p.Counted r := by
  unfold Path.Counted at *
  refine h'.trans ?_
  rw [h]

theorem State.countExec_frame (s : State) (gk i : Nat) (f : Profile → Profile) (g : Window → Window) :
    s.countExec gk i f g = { s with drafts := (s.countExec gk i f g).drafts } := by
  unfold State.countExec
  split
  · split <;> rfl
  · rfl

theorem State.countBranch_frame (s : State) (gk i k : Nat) (a b : Bool) :
    s.countBranch gk i k a b = { s with drafts := (s.countBranch gk i k a b).drafts } := State.countExec_frame ..

theorem State.endExecution_counted (s : State) (gk i : Nat) :
    s.endExecution gk i = { s with groups := (s.endExecution gk i).groups, drafts := (s.endExecution gk i).drafts } ∧
      PathOnly Path.Counted s (s.endExecution gk i) gk i := by
  unfold State.endExecution
  dsimp only
  split
  · exact ⟨rfl, .trans Path.Counted.trans (.of_groups Path.Counted.refl (by rfl)) (.updPath _ gk i fun _ => rfl)⟩
  · exact ⟨rfl, .updPath _ gk i fun _ => rfl⟩

/-- The beginning of an execution is counted; of the path nothing else changes (03 R73). -/
theorem State.beginExecution_counted (s : State) (gk i record : Nat) :
    s.beginExecution gk i record = { s with
      groups := (s.beginExecution gk i record).groups, drafts := (s.beginExecution gk i record).drafts } ∧
      PathOnly Path.Counted s (s.beginExecution gk i record) gk i := by
  obtain ⟨frame, path⟩ := State.endExecution_counted s gk i
  unfold State.beginExecution
  dsimp only
  split
  · refine ⟨by rw [frame]; rfl, path.trans Path.Counted.trans ?_⟩
    exact .trans Path.Counted.trans (.of_groups Path.Counted.refl (by rfl)) (.updPath _ gk i fun _ => rfl)
  · exact ⟨by rw [frame]; rfl, path.trans Path.Counted.trans (.updPath _ gk i fun _ => rfl)⟩

/-! What a step makes of what issues. -/

/-- What issues with a selected path. -/
def State.issueAs (s : State) (c : Ctx) : Host.Outcome State Fault Refusal :=
  if isNative (s.imageBytes c.l) then s.issueNative c else s.issueFleper c

/-- With a path selected the step is what issues, and its end. -/
theorem step_of_ctx {s : State} {c : Ctx} (hr : s.phase = .running) (hc : s.ctx .always = some c) :
    step s = stepOf s c (s.issueAs c) := by
  have hi : s.issueNext = match s.issueAs c with
      | .next u => .next (u.endGone s c)
      | o => o := by rw [State.issueNext, hc]; rfl
  rw [step, hr, (State.ctx_eq hc).1]
  dsimp only
  rw [hi]
  cases s.issueAs c <;> rfl

/-! The Fleper carrier. -/

/-- The state in which a Fleper instruction runs: its execution has begun and is counted. -/
def State.fleperReady (s : State) (c : Ctx) (len : Nat) : State :=
  { (if c.p.begun || c.p.run != 0 then s
      else s.beginExecution c.cur.grp c.cur.path (ordinal (s.codeBytes c) c.p.pc)).updPath c.cur.grp c.cur.path
        fun p => { p with begun := true, met := false } with
    cur := some { c.cur with len } }

/-- With the outcome of a conditional branch counted. -/
def State.branchCounted (s : State) (c : Ctx) (i : Instr) : State :=
  match s.branchOutcome i with
  | some (a, b) => s.countBranch c.cur.grp c.cur.path 0 a b
  | none => s

theorem State.branchCounted_frame (s : State) (c : Ctx) (i : Instr) :
    s.branchCounted c i = { s with drafts := (s.branchCounted c i).drafts } := by
  unfold State.branchCounted
  split
  · exact State.countBranch_frame ..
  · rfl

theorem State.issueFleper_of_error {s : State} {c : Ctx} {e : DecodeError} (h : decode (s.fetchBytes c) = .error e) :
    s.issueFleper c = .fault .undecodable := by rw [State.issueFleper, h]

theorem State.issueFleper_of_ends {s : State} {c : Ctx} {i : Instr} {len : Nat}
    (h : decode (s.fetchBytes c) = .ok (i, len)) (he : s.endsHere c ≠ []) :
    s.issueFleper c = exec .regionCommit s := by
  rw [State.issueFleper, h]
  simp [he]

theorem State.issueFleper_of_ok {s : State} {c : Ctx} {i : Instr} {len : Nat}
    (h : decode (s.fetchBytes c) = .ok (i, len)) (he : s.endsHere c = []) :
    s.issueFleper c = exec i ((s.fleperReady c len).branchCounted c i) := by
  rw [State.issueFleper, h, he]
  rfl

/-- A path whose instruction has begun to issue, and what it counts of executions. -/
def Path.Begun (p q : Path) : Prop := q = { p with begun := true, met := false, execs := q.execs, cp := q.cp }

/-- A Fleper instruction runs in a state that differs in what its path and its draft count. -/
theorem State.fleperReady_counted (s : State) (c : Ctx) (len : Nat) :
    s.fleperReady c len = { s with
      groups := (s.fleperReady c len).groups, drafts := (s.fleperReady c len).drafts
      cur := some { c.cur with len } } ∧
    PathOnly Path.Begun s
      (s.fleperReady c len) c.cur.grp c.cur.path := by
  have key : ∀ t : State, t = { s with groups := t.groups, drafts := t.drafts } →
      PathOnly Path.Counted s t c.cur.grp c.cur.path →
      ∀ u : State, u = { t.updPath c.cur.grp c.cur.path (fun p => { p with begun := true, met := false }) with
        cur := some { c.cur with len } } →
      u = { s with groups := u.groups, drafts := u.drafts, cur := some { c.cur with len } } ∧
      PathOnly Path.Begun s u
        c.cur.grp c.cur.path := by
    rintro t ht hp u rfl
    refine ⟨by rw [ht]; rfl, ⟨fun g hg => ?_⟩⟩
    obtain ⟨f, hf, hfind⟩ := hp.path g hg
    refine ⟨fun p => { f p with begun := true, met := false }, fun p => ?_, ?_⟩
    · have := hf p
      unfold Path.Counted at this
      unfold Path.Begun
      dsimp only
      rw [this]
    · simp [State.updPath, hfind, updAt_updAt]
  refine key _ ?_ ?_ _ rfl
  · split
    · rfl
    · exact (State.beginExecution_counted s _ _ _).1
  · split
    · exact .of_groups Path.Counted.refl rfl
    · exact (State.beginExecution_counted s _ _ _).2

theorem aFleperStepRunsTheDecodedInstruction : AFleperStepRunsTheDecodedInstruction := by
  intro s c hr hc hf
  have hissue : s.issueAs c = s.issueFleper c := by rw [State.issueAs, hf]; rfl
  rw [step_of_ctx hr hc, hissue]
  refine ⟨fun e he => by rw [State.issueFleper_of_error he]; rfl, fun i len hd => ⟨fun he => ?_, fun he => ?_⟩⟩
  · rw [State.issueFleper_of_ends hd he]
  · obtain ⟨frame, path⟩ := State.fleperReady_counted s c len
    have frame' := State.branchCounted_frame (s.fleperReady c len) c i
    have htotal : (s.fleperReady c len).branchCounted c i = { s with
        groups := ((s.fleperReady c len).branchCounted c i).groups
        drafts := ((s.fleperReady c len).branchCounted c i).drafts, cur := some { c.cur with len } } := by
      rw [frame', frame]
    have path' : PathOnly Path.Begun s ((s.fleperReady c len).branchCounted c i) c.cur.grp c.cur.path :=
      ⟨fun g hg => by rw [frame']; exact path.path g hg⟩
    obtain ⟨d, hd', hcur, hb, hl, hlanes, hp, hg⟩ := State.ctx_of_pathOnly (cur := { c.cur with len }) hc
      (by rw [htotal]) rfl rfl (by rw [htotal]) (by rw [htotal]) path'
    refine ⟨_, d, by rw [State.issueFleper_of_ok hd he], htotal, hd', hb, hl, ?_, ?_, hg, hp⟩
    · rw [hlanes, hp, (State.ctx_eq hc).2.2.2.2.2.1]
    · rw [Ctx.after, hp, hcur]

/-! The native carrier: what readies a bundle to issue. -/

/-- A path at the same bundle with the same lanes. -/
def Path.SamePlace (p q : Path) : Prop := q.mask = p.mask ∧ q.pc = p.pc

theorem Path.SamePlace.refl (p : Path) : p.SamePlace p := ⟨rfl, rfl⟩

theorem Path.SamePlace.trans (p q r : Path) (h : p.SamePlace q) (h' : q.SamePlace r) : p.SamePlace r :=
  ⟨h'.1.trans h.1, h'.2.trans h.2⟩

theorem Path.SamePlace.of_landed (p q : Path) (h : p.Landed q) : p.SamePlace q := by
  unfold Path.Landed at h
  rw [h]
  exact ⟨rfl, rfl⟩

theorem Path.SamePlace.of_counted (p q : Path) (h : p.Counted q) : p.SamePlace q := by
  unfold Path.Counted at h
  rw [h]
  exact ⟨rfl, rfl⟩

/-- A state in which the path of a context stands as it stood, ready to issue. -/
structure Readied (s t : State) (c : Ctx) : Prop where
  cur : t.cur = s.cur
  blocks : t.blocks = s.blocks
  launches : t.launches = s.launches
  path : PathOnly Path.SamePlace s t c.cur.grp c.cur.path

theorem Readied.trans {s t u : State} {c : Ctx} (h : Readied s t c) (h' : Readied t u c) : Readied s u c :=
  ⟨h'.cur.trans h.cur, h'.blocks.trans h.blocks, h'.launches.trans h.launches,
    h.path.trans Path.SamePlace.trans h'.path⟩

theorem Readied.updPath (s : State) (c : Ctx) {f : Path → Path} (hf : ∀ p : Path, p.SamePlace (f p)) :
    Readied s (s.updPath c.cur.grp c.cur.path f) c := ⟨rfl, rfl, rfl, .updPath s _ _ hf⟩

theorem Readied.landIf (s : State) (c : Ctx) (test : InFlight → Bool) :
    Readied s (s.landIf c.cur.grp c.cur.path test) c := by
  have h := State.landIf_landed s c.cur.grp c.cur.path test
  have path : PathOnly Path.Landed s (s.landIf c.cur.grp c.cur.path test) c.cur.grp c.cur.path := ⟨h.path⟩
  exact ⟨by rw [h.frame], by rw [h.frame], by rw [h.frame], path.mono Path.SamePlace.of_landed⟩

theorem Readied.refl (s : State) (c : Ctx) : Readied s s c := ⟨rfl, rfl, rfl, .of_groups Path.SamePlace.refl rfl⟩

theorem Readied.landPath (s : State) (c : Ctx) : Readied s (s.landPath c.cur.grp c.cur.path) c := by
  unfold State.landPath
  split
  · split
    · split
      · exact .refl s c
      · next p _ _ =>
        exact .trans (t := { s with cycle := p.lastDue s.cycle })
          ⟨rfl, rfl, rfl, .of_groups Path.SamePlace.refl rfl⟩ (.landIf _ c _)
    · exact .refl s c
  · exact .refl s c

theorem Readied.beginExecution (s : State) (c : Ctx) (record : Nat) :
    Readied s (s.beginExecution c.cur.grp c.cur.path record) c := by
  obtain ⟨frame, path⟩ := State.beginExecution_counted s c.cur.grp c.cur.path record
  exact ⟨by rw [frame], by rw [frame], by rw [frame], path.mono Path.SamePlace.of_counted⟩

/-- A region that opens leaves its path where it stands (03 R62). -/
theorem Readied.openRegion {s t : State} {c : Ctx} {b : Bundle} (h : s.openRegion c b = some t) : Readied s t c := by
  unfold State.openRegion at h
  dsimp only at h
  split at h
  · cases h
  · cases h
    exact ((Readied.landPath s c).trans (.beginExecution _ c _)).trans (.updPath _ c fun _ => ⟨rfl, rfl⟩)

/-- The context of a path that is ready to issue. -/
theorem Readied.ctx {s t : State} {c : Ctx} (hc : s.ctx .always = some c) (h : Readied s t c) :
    ∃ d, t.ctx .always = some d ∧ d.cur = c.cur ∧ d.b = c.b ∧ d.l = c.l ∧ d.lanes = c.lanes ∧ d.p.pc = c.p.pc := by
  obtain ⟨d, hd, hcur, hb, hl, hlanes, hp, _⟩ := State.ctx_of_pathOnly (cur := c.cur) hc
    (h.cur.trans (State.ctx_eq hc).1) rfl rfl h.blocks h.launches h.path
  exact ⟨d, hd, hcur, hb, hl, by rw [hlanes, hp.1, (State.ctx_eq hc).2.2.2.2.2.1], hp.2⟩

/-- The state in which the slots of a bundle issue: what is due has landed. -/
def State.bundleReady (s : State) (c : Ctx) (b : Bundle) : State :=
  let t := s.updPath c.cur.grp c.cur.path fun p =>
    { p with begun := true, fresh := [], wait := .none, met := false
             mark := if !b.commit && b.cpidx != 0 then some b.cpidx else p.mark }
  t.landIf c.cur.grp c.cur.path fun e => e.due.any fun d => decide (d ≤ t.cycle)

theorem Readied.bundle (s : State) (c : Ctx) (b : Bundle) : Readied s (s.bundleReady c b) c := by
  refine .trans (.updPath s c ?_) (.landIf _ c _)
  exact fun _ => ⟨rfl, rfl⟩

/-! What follows the slots of a bundle. -/

theorem State.countBundleBranch_frame (s : State) (c : Ctx) (b : Bundle) :
    s.countBundleBranch c b = { s with drafts := (s.countBundleBranch c b).drafts } := by
  unfold State.countBundleBranch
  split
  · exact State.countBranch_frame ..
  · rfl

/-- Two states that differ in what core cycles that pass change: groups, residual counters, matrix issue withheld. -/
def CyclesOnly (s t : State) (n : Nat) : Prop :=
  t = { s with groups := t.groups, blocks := t.blocks, withheld := t.withheld, cycle := s.cycle + n }

theorem CyclesOnly.foldl {α : Type} {f : State → α → State} (hf : ∀ t a, CyclesOnly t (f t a) 0) (l : List α)
    (s : State) : CyclesOnly s (l.foldl f s) 0 := by
  induction l generalizing s with
  | nil => rfl
  | cons a l ih =>
    have h := hf s a
    have h' := ih (f s a)
    unfold CyclesOnly at *
    rw [List.foldl_cons]
    refine h'.trans ?_
    rw [h]
    rfl

theorem CyclesOnly.trans {s t u : State} {n : Nat} (h : CyclesOnly s t 0) (h' : CyclesOnly t u n) : CyclesOnly s u n := by
  unfold CyclesOnly at *
  refine h'.trans ?_
  rw [h]
  rfl

/-- The BOBBIN counter of the block of a bobbin counts the cycles that pass on its core (13 R285). -/
def countBobbin (n : Nat) (cores : Nat → Bool) (t : State) (e : Nat × Bobbin) : State :=
  if cores (e.1 / 64) then
    t.updBlock e.2.block fun b =>
      { b with resStall := Cells.set b.resStall 10 (Cells.get b.resStall 10 + BitVec.ofNat 64 n) }
  else t

theorem State.passCycles_cyclesOnly (s : State) (n : Nat) (cores : Nat → Bool) (gs : AMap Group) :
    CyclesOnly s (s.passCycles n cores gs) n := by
  have stalls : ∀ (t : State) (e : Nat × Group), CyclesOnly t (t.countStalls n e.1 e.2) 0 := fun t e => by
    unfold State.countStalls
    split
    · split <;> rfl
    · rfl
  have wake : ∀ (t : State) (c : Nat), CyclesOnly t (t.wakeMatrix c) 0 := fun t c => by
    refine CyclesOnly.foldl ?_ _ t
    exact fun _ _ => rfl
  refine (CyclesOnly.foldl stalls gs s).trans ?_
  unfold State.passCycles
  dsimp only
  generalize gs.foldl (fun (t : State) (e : Nat × Group) => t.countStalls n e.1 e.2) s = t
  refine (CyclesOnly.foldl (f := countBobbin n cores) (fun t e => ?_) t.bobbins t).trans ?_
  · unfold countBobbin
    split <;> rfl
  · change CyclesOnly (t.bobbins.foldl (countBobbin n cores) t) (((t.bobbins.foldl (countBobbin n cores) t).withheld.filter
      fun c => cores c).foldl (fun (t : State) (c : Nat) => t.wakeMatrix c) { t.bobbins.foldl (countBobbin n cores) t with
        cycle := (t.bobbins.foldl (countBobbin n cores) t).cycle + n
        withheld := (t.bobbins.foldl (countBobbin n cores) t).withheld.filter fun c => !cores c }) n
    generalize t.bobbins.foldl (countBobbin n cores) t = u
    have h := CyclesOnly.foldl wake (u.withheld.filter fun c => cores c)
      { u with cycle := u.cycle + n, withheld := u.withheld.filter fun c => !cores c }
    unfold CyclesOnly at *
    exact h

theorem State.passOthers_cyclesOnly (s : State) (n core gk : Nat) : CyclesOnly s (s.passOthers n core gk) n := by
  unfold State.passOthers
  dsimp only
  refine CyclesOnly.trans (CyclesOnly.foldl ?_ _ s) (State.passCycles_cyclesOnly _ n _ _)
  exact fun _ _ => rfl

/-- The state after the slots of a bundle, before its path moves on. -/
def State.bundleDone (v t : State) (d : Ctx) (b : Bundle) (grp path : Nat) : State :=
  State.passOthers (State.countBundleBranch (v.updPath grp path fun p =>
    { p with inflight := lookOn (d.p.inflight.filter fun e => e.due.isNone).length p.inflight }) d b)
      (t.beats b - 1) d.b.core grp

/-- Cycles that pass after a change of groups, then of drafts. -/
theorem CyclesOnly.after_drafts {v y u x : State} {n : Nat} (hx : CyclesOnly u x n) (hu : u = { y with drafts := u.drafts })
    (hy : y = { v with groups := y.groups }) :
    x = { v with groups := x.groups, drafts := x.drafts, blocks := x.blocks, withheld := x.withheld
                 cycle := v.cycle + n } := by
  have hd : x.drafts = u.drafts := by rw [hx]
  refine Eq.trans hx ?_
  rw [hd, hu, hy]

theorem State.bundleDone_frame (v t : State) (d : Ctx) (b : Bundle) (grp path : Nat) :
    v.bundleDone t d b grp path = { v with
      groups := (v.bundleDone t d b grp path).groups, drafts := (v.bundleDone t d b grp path).drafts
      blocks := (v.bundleDone t d b grp path).blocks, withheld := (v.bundleDone t d b grp path).withheld
      cycle := v.cycle + (t.beats b - 1) } := by
  refine CyclesOnly.after_drafts (State.passOthers_cyclesOnly _ (t.beats b - 1) d.b.core grp)
    (State.countBundleBranch_frame ..) rfl

/-- The slots of a bundle issue one after another, then its irreversible slot is judged, and the path goes on or is
left sealed. -/
theorem State.issueBundle_of_ctx {s : State} {c d : Ctx} {b : Bundle} (hc : s.ctx .always = some c)
    (hd : (s.bundleReady c b).ctx .always = some d) :
    (∀ f, (s.bundleReady c b).runSlots d b (slotOrder b) (s.bundleReady c b) = .fault f → s.issueBundle b = .fault f) ∧
    (∀ u, (s.bundleReady c b).runSlots d b (slotOrder b) (s.bundleReady c b) = .next u →
      (u.slotStops d = true → s.issueBundle b = .next u) ∧
      (u.slotStops d = false → ∀ v, (s.bundleReady c b).runSlots d b (u.sealBundle d b) u = .next v →
        (v.slotStops d = true → s.issueBundle b = .next v) ∧
        (v.slotStops d = false → s.issueBundle b =
          .next (if (lateSlot b).isSome then
              (v.bundleDone (s.bundleReady c b) d b c.cur.grp c.cur.path).updPath c.cur.grp c.cur.path fun p =>
                { p with sealed := true }
            else (v.bundleDone (s.bundleReady c b) d b c.cur.grp c.cur.path).endBundle d b)))) := by
  have key : s.issueBundle b = match (s.bundleReady c b).runSlots d b (slotOrder b) (s.bundleReady c b) with
      | .next u =>
        if u.slotStops d then .next u
        else match (s.bundleReady c b).runSlots d b (u.sealBundle d b) u with
          | .next v =>
            if v.slotStops d then .next v
            else .next (if (lateSlot b).isSome then
                (v.bundleDone (s.bundleReady c b) d b c.cur.grp c.cur.path).updPath c.cur.grp c.cur.path fun p =>
                  { p with sealed := true }
              else (v.bundleDone (s.bundleReady c b) d b c.cur.grp c.cur.path).endBundle d b)
          | o => o
      | o => o := by
    unfold State.bundleReady at hd
    simp only [State.issueBundle, hc, hd]
    rfl
  rw [key]
  refine ⟨fun f hf => by rw [hf], fun u hu => ?_⟩
  rw [hu]
  refine ⟨fun hs => if_pos hs, fun hs v hv => ?_⟩
  dsimp only
  rw [hs, if_neg Bool.false_ne_true, hv]
  exact ⟨fun hs => if_pos hs, fun hs => if_neg (by simp [hs])⟩

/-! Which of these a step is. -/

theorem State.issueNative_of_error {s : State} {c : Ctx} {e : BundleError}
    (h : decodeBundle (s.fetchBytes c) (s.stageOf c.b c.l).regs = .error e) :
    s.issueNative c = .fault .undecodable := by rw [State.issueNative, h]

theorem State.issueNative_of_sealed {s : State} {c : Ctx} {b : Bundle}
    (h : decodeBundle (s.fetchBytes c) (s.stageOf c.b c.l).regs = .ok b) (hs : c.p.sealed = true) :
    s.issueNative c = s.performLate c b := by
  rw [State.issueNative, h]
  simp [hs]

/-- What a native path does at a commit point, before its bundle has begun to issue. -/
theorem State.issueNative_at_commit {s : State} {c : Ctx} {b : Bundle}
    (h : decodeBundle (s.fetchBytes c) (s.stageOf c.b c.l).regs = .ok b) (hs : c.p.sealed = false)
    (hcommit : b.commit = true) (hbegun : c.p.begun = false) :
    (s.endsHere c ≠ [] → s.issueNative c = exec .regionCommit s) ∧
    (s.endsHere c = [] → (b.poll = true ∧ c.p.wait ≠ .poll ∧ c.b.marked c.l = true) →
      s.issueNative c = .next (s.atPollBundle c)) ∧
    (s.endsHere c = [] → ¬ (b.poll = true ∧ c.p.wait ≠ .poll ∧ c.b.marked c.l = true) →
      (s.openRegion c b = none → s.issueNative c = .next (s.countStalls 1 c.cur.grp c.g)) ∧
      (∀ t, s.openRegion c b = some t → s.issueNative c = t.issueBundle b)) := by
  rw [State.issueNative, h]
  simp only [hs, hcommit, hbegun, Bool.false_eq_true, if_false, Bool.not_false, Bool.and_self, if_true]
  refine ⟨fun he => if_pos (by simp [he]), fun he hstop => ?_, fun he hstop => ?_⟩
  · rw [if_neg (by simp [he]), if_pos (by simp [hstop])]
  · rw [if_neg (by simp [he]), if_neg (by simpa [and_assoc] using hstop)]
    exact ⟨fun ho => by rw [ho], fun t ho => by rw [ho]⟩

theorem State.issueNative_within {s : State} {c : Ctx} {b : Bundle}
    (h : decodeBundle (s.fetchBytes c) (s.stageOf c.b c.l).regs = .ok b) (hs : c.p.sealed = false)
    (hnot : ¬ (b.commit = true ∧ c.p.begun = false)) : s.issueNative c = s.issueBundle b := by
  rw [State.issueNative, h]
  simp [hs, hnot]

/-- A native step past its commit point issues the bundle, with its path where it stood. -/
theorem State.issueNative_bundle {s : State} {c : Ctx} {b : Bundle}
    (h : decodeBundle (s.fetchBytes c) (s.stageOf c.b c.l).regs = .ok b) (hs : c.p.sealed = false)
    (hgo : b.commit = false ∨ c.p.begun = true ∨ (s.endsHere c = [] ∧
      ¬ (b.poll = true ∧ c.p.wait ≠ .poll ∧ c.b.marked c.l = true) ∧ s.openRegion c b ≠ none)) :
    ∃ t, Readied s t c ∧ s.issueNative c = t.issueBundle b := by
  by_cases hat : b.commit = true ∧ c.p.begun = false
  · obtain ⟨hcommit, hbegun⟩ := hat
    obtain hno | hyes | ⟨he, hstop, ho⟩ := hgo
    · simp [hcommit] at hno
    · simp [hbegun] at hyes
    · obtain ⟨t, ht⟩ := Option.ne_none_iff_exists'.1 ho
      exact ⟨t, .openRegion ht, ((State.issueNative_at_commit h hs hcommit hbegun).2.2 he hstop).2 t ht⟩
  · exact ⟨s, .refl s c, State.issueNative_within h hs hat⟩

/-- What a step with a native path selected is. -/
theorem aNativeStepIssues (s : State) (c : Ctx) (hr : s.phase = .running) (hc : s.ctx .always = some c)
    (hn : isNative (s.imageBytes c.l) = true) : step s = stepOf s c (s.issueNative c) := by
  rw [step_of_ctx hr hc, State.issueAs, if_pos hn]

theorem State.runSlots_of_next {s t u : State} {c : Ctx} {b : Bundle} {x : Placed} (xs : List Placed)
    (h : exec x.2.2.2 { t with cur := some (slotCur c b x) } = .next u) (hs : u.slotStops c = false) :
    s.runSlots c b (x :: xs) t = s.runSlots c b xs u := by
  obtain ⟨_, _, _, _⟩ := x
  rw [State.runSlots]
  dsimp only at h ⊢
  rw [h]
  simp [hs]

/-- The irreversible slot of a sealed bundle performs once its region has completed (03 R62, R63). -/
theorem State.performLate_of_late {s : State} {c : Ctx} {b : Bundle} {x : Placed} (hx : lateSlot b = some x) :
    (s.fillsDue c = true → s.performLate c b = .next (s.waitOn c (.latch 0))) ∧
    (s.fillsDue c = false → Instr.control x.2.2.2 = true ∨ s.slotBlocked c (slotCur c b x) x.2.2.2 false = false →
      let t := s.completeRegion c fun e => Instr.control x.2.2.2 && (match e.dst with
        | .pred _ _ => false
        | _ => true)
      (t.slotStops c = true → s.performLate c b = .next t) ∧
      (t.slotStops c = false → s.performLate c b = exec x.2.2.2 { t with cur := some (slotCur c b x) })) := by
  rw [State.performLate, hx]
  dsimp only
  refine ⟨fun hf => if_pos hf, fun hf hfree => ?_⟩
  rw [if_neg (by simp [hf]), if_neg (by rcases hfree with h | h <;> simp [h])]
  exact ⟨fun hs => if_pos hs, fun hs => if_neg (Bool.eq_false_iff.1 hs)⟩

theorem aNativeStepIssuesTheBundle : ANativeStepIssuesTheBundle := by
  refine ⟨fun s c hr hc hn => ?_, fun s t u c b x xs hexec hs => ⟨State.runSlots_of_next xs hexec hs, by rw [State.runSlots]⟩,
    fun s c b x hx => State.performLate_of_late hx⟩
  rw [aNativeStepIssues s c hr hc hn]
  refine ⟨fun e he => by rw [State.issueNative_of_error he]; rfl, fun b hb => ?_⟩
  refine ⟨fun hs => by rw [State.issueNative_of_sealed hb hs], fun hs hcommit hbegun => ?_, fun hs hgo => ?_⟩
  · obtain ⟨ends, stops, opens⟩ := State.issueNative_at_commit hb hs hcommit hbegun
    exact ⟨fun he => by rw [ends he], fun he hstop => by rw [stops he hstop],
      fun he hstop ho => by rw [(opens he hstop).1 ho]⟩
  · obtain ⟨t, ht, hissue⟩ := State.issueNative_bundle hb hs hgo
    obtain ⟨ct, hct, hcurt, hbt, hlt, hlanest, hpct⟩ := ht.ctx hc
    obtain ⟨d, hd, hcur, hbd, hl, hlanes, hpc⟩ := (Readied.bundle t ct b).ctx hct
    obtain ⟨faults, runs⟩ := State.issueBundle_of_ctx hct hd
    rw [hcurt] at runs
    rw [hissue]
    refine ⟨t.bundleReady ct b, d, hd, hcur.trans hcurt, hbd.trans hbt, hl.trans hlt, hlanes.trans hlanest,
      hpc.trans hpct, fun f hf => by rw [faults f hf]; rfl, fun u hu hstop => by rw [(runs u hu).1 hstop],
      fun u hu hstop => ?_⟩
    have late := (runs u hu).2 hstop
    refine ⟨fun v hv hstop => by rw [(late v hv).1 hstop], fun v hv hstop => ?_⟩
    refine ⟨_, State.bundleDone_frame v (t.bundleReady ct b) d b c.cur.grp c.cur.path, fun hnone => ?_, fun hsome => ?_⟩
    · rw [(late v hv).2 hstop, hnone]
      rfl
    · rw [(late v hv).2 hstop, if_pos (Option.isSome_iff_ne_none.2 hsome)]

/-! No path selected. -/

theorem aStepWithoutAPathIsAnEvent : AStepWithoutAPathIsAnEvent := by
  refine ⟨fun s i rest hr hc ha => ?_, fun s hd => ?_, fun s t h => cur_of_endStep h⟩
  · have hstep : step s = if choosesIssue i then exec i { s with agenda := rest }
        else endStep (exec i { s with agenda := rest }) := by
      simp only [step, hr, hc, State.between, ha, settle]
    rw [hstep]
    exact ⟨fun h => if_neg (by rw [h]; exact Bool.false_ne_true), fun h => if_pos h⟩
  · simp only [step, hd, bootReport]

/-- Settles O57: with a path selected the step is what issues (`step_of_ctx`). What readies a bundle or an instruction
to issue changes its path alone (`PathOnly`), so it is still the same lanes at the same program counter. -/
theorem aStepRunsTheDecodedInstruction : Obligations.AStepRunsTheDecodedInstruction :=
  ⟨aFleperStepRunsTheDecodedInstruction, aNativeStepIssuesTheBundle, aStepWithoutAPathIsAnEvent⟩

end Sys2Proof.Machine
end

section
/-! Blocks leave their cores; records of the device go to their queues (02 Table 2.2; 12 R269, R272, R273; 13 R287). -/

namespace Sys2Proof.Machine

open Sys2Proof.Safety Sys2Proof.Claims

/-! What a queue's home does leaves the blocks as they are. -/

/-- The blocks of two states are the same. -/
def SameBlocks (s t : State) : Prop := t.blocks = s.blocks

theorem SameBlocks.trans {s t u : State} (h : SameBlocks s t) (h' : SameBlocks t u) : SameBlocks s u := Eq.trans h' h

theorem SameBlocks.foldl {α : Type} {f : State → α → State} (hf : ∀ t a, SameBlocks t (f t a)) (l : List α) (s : State) :
    SameBlocks s (l.foldl f s) := by
  induction l generalizing s with
  | nil => rfl
  | cons a l ih => exact (hf s a).trans (ih _)

theorem SameBlocks.of_storage {s t : State} (h : StorageOnly s t) : SameBlocks s t := by
  unfold StorageOnly at h
  unfold SameBlocks
  rw [h]

theorem SameBlocks.of_walk {s t : State} (h : WalkOnly s t) : SameBlocks s t := by
  unfold WalkOnly at h
  unfold SameBlocks
  rw [h]

theorem State.homeAddr_blocks {s t : State} {sp : Space2} {va pa : Nat} (h : s.homeAddr sp va = .ok (pa, t)) :
    SameBlocks s t := by
  unfold State.homeAddr at h
  split at h
  · cases h
  · split at h
    · cases h
    · split at h
      · cases h
      · cases h
        exact .of_walk (walk_setPtes s _)

theorem State.partAddrs_blocks {sp : Space2} {l : List (Nat × Nat)} {s t : State} {r : List (Nat × Nat)}
    (h : s.partAddrs sp l = .ok (r, t)) : SameBlocks s t := by
  induction l generalizing s t r with
  | nil => cases h; rfl
  | cons e l ih =>
    rw [State.partAddrs] at h
    split at h
    · cases h
    · next ha =>
      split at h
      · cases h
      · next hp => cases h; exact (State.homeAddr_blocks ha).trans (ih hp)

theorem State.putRuns_blocks (l : List (Nat × Nat)) (bs : List Byte) (s : State) : SameBlocks s (s.putRuns l bs) := by
  induction l generalizing s bs with
  | nil => rfl
  | cons e l ih => exact SameBlocks.trans (.of_storage (storage_setBaseLine s 0 _ _ _)) (ih _ _)

theorem State.setMemBytes_blocks (s : State) (a : Nat) (bs : List Byte) : SameBlocks s (s.setMemBytes a bs) :=
  .of_storage (storage_setMemBytes s a bs)

theorem State.configEvent_blocks (s : State) : SameBlocks s s.configEvent := .of_storage (storage_configEvent s)

theorem State.putCounts_blocks (s : State) (cb : Nat) (q : Queue) : SameBlocks s (s.putCounts cb q) :=
  ((s.setMemBytes_blocks cb _).trans (State.setMemBytes_blocks _ (cb + 28) _)).trans rfl

theorem State.notifyFor_blocks (s : State) (cb : Nat) (q : Queue) (n : Nat) : SameBlocks s (s.notifyFor cb q n) := by
  unfold State.notifyFor
  split
  · split
    · rfl
    · exact s.configEvent_blocks
  · rfl

theorem State.poisonLines_blocks (s : State) (pas : List Nat) : SameBlocks s (s.poisonLines pas) := by
  unfold State.poisonLines
  refine SameBlocks.foldl ?_ _ _
  exact fun _ _ => rfl

theorem State.homePerform_blocks {s t : State} {cb : Nat} {sp : Space2} {full : Bool} {n : Nat}
    {elems es : List (List Byte)} (h : s.homePerform cb sp full n elems = .ok (es, t)) : SameBlocks s t := by
  unfold State.homePerform at h
  dsimp only at h
  split at h
  · cases h
  · next hp =>
    refine (State.partAddrs_blocks hp).trans ?_
    split at h
    · cases h
      refine SameBlocks.trans ?_ ((State.putCounts_blocks _ _ _).trans (State.notifyFor_blocks _ _ _ _))
      split
      · exact (State.putRuns_blocks ..).trans (State.poisonLines_blocks ..)
      · exact State.putRuns_blocks ..
    · cases h
      exact State.putCounts_blocks ..

theorem State.beginAbort_blocks (s : State) (lk cause code stamp : Nat) : SameBlocks s (s.beginAbort lk cause code stamp) := rfl

theorem State.dropOps_blocks (s : State) (test : Nat → EngineOp → Bool) : SameBlocks s (s.dropOps test) := rfl

theorem State.failPage_blocks (s : State) (lk time core : Nat) : SameBlocks s (s.failPage lk time core) := by
  unfold State.failPage
  exact (State.dropOps_blocks s _).trans (State.beginAbort_blocks ..)

theorem State.failDelivery_blocks (s : State) (d : Delivery) : SameBlocks s (s.failDelivery d) := by
  refine s.configEvent_blocks.trans ?_
  unfold State.failDelivery
  dsimp only
  generalize s.configEvent = t
  split
  · split
    · exact State.failPage_blocks ..
    · rfl
  · rfl

theorem State.updLaunch_sameBlocks (s : State) (k : Nat) (f : Launch → Launch) : SameBlocks s (s.updLaunch k f) := rfl

theorem State.answer_blocks (s : State) (who : Asker) (r : Except Flt (List (List Byte))) :
    SameBlocks s (s.answer who r) := by
  cases who with
  | group gk lanes => rfl
  | append lk =>
    cases r with
    | ok es => rfl
    | error f => exact s.configEvent_blocks.trans (State.updLaunch_sameBlocks ..)
  | delivery d =>
    cases r with
    | ok es => rfl
    | error f => exact s.failDelivery_blocks d

theorem State.lostRequest_blocks (s : State) (who : Asker) (k : Nat) : SameBlocks s (s.lostRequest who k) := by
  unfold State.lostRequest
  split
  · split <;> rfl
  · exact State.answer_blocks ..

theorem State.performRequest_blocks (s : State) (cb : Nat) (r : Request) : SameBlocks s (s.performRequest cb r) := by
  refine SameBlocks.trans (t := s.setHome cb ((s.home cb).drop r)) rfl ?_
  unfold State.performRequest
  dsimp only
  generalize s.setHome cb ((s.home cb).drop r) = t
  split
  · rfl
  · split
    · exact SameBlocks.trans (t := t.loseQueue cb) rfl (State.lostRequest_blocks ..)
    · split
      · split
        · next hp => exact (State.homePerform_blocks hp).trans (State.answer_blocks ..)
        · exact State.answer_blocks ..
      · exact State.answer_blocks ..
      · exact SameBlocks.trans (t := t.setCorrupt cb _) rfl (State.answer_blocks ..)

theorem State.serve_blocks (s : State) (cb : Nat) : SameBlocks s (s.serve cb) := by
  unfold State.serve
  generalize (s.home cb).wake.length + 1 = k
  induction k generalizing s with
  | zero => exact State.setMemBytes_blocks ..
  | succ k ih =>
    rw [State.serveQueue]
    split
    · exact (State.performRequest_blocks ..).trans (ih _)
    · exact State.setMemBytes_blocks ..

theorem State.bindHome_blocks (s : State) (cb : Nat) (who : Party) : SameBlocks s (s.bindHome cb who) := by
  unfold State.bindHome
  cases who with
  | core vi ctx die =>
    dsimp only
    split <;> rfl
  | agent vi => rfl
  | device vi ctx => rfl

theorem State.homeSound_blocks {s : State} {cb : Nat} {sp : Space2} {who : Party} {a : HomeAns}
    (h : s.homeSound cb sp who = some a) : SameBlocks s a.state := by
  unfold State.homeSound at h
  split at h
  · cases h
    exact s.serve_blocks cb
  · split at h
    · cases h
      exact SameBlocks.trans (t := s.loseQueue cb) rfl (State.serve_blocks ..)
    · split at h
      · dsimp only at h
        split at h
        · cases h
          exact s.serve_blocks cb
        · cases h
      · cases h
        exact SameBlocks.trans (t := s.setCorrupt cb _) rfl (State.serve_blocks ..)

/-- An operation at a queue's home changes no block. -/
theorem State.homeTry_blocks (s : State) (cb : Nat) (sp : Space2) (who : Party) (full : Bool) (n size : Nat)
    (block : Bool) (elems : List (List Byte)) : SameBlocks s (s.homeTry cb sp who full n size block elems).state := by
  unfold State.homeTry
  split
  · next h => exact State.homeSound_blocks h
  · dsimp only
    split
    · exact s.serve_blocks cb
    · split
      · exact (State.bindHome_blocks ..).trans (State.serve_blocks ..)
      · split
        · exact SameBlocks.trans (t := s.loseQueue cb) rfl (State.serve_blocks ..)
        · split
          · exact s.serve_blocks cb
          · next hp => exact (State.homePerform_blocks hp).trans ((State.bindHome_blocks ..).trans (State.serve_blocks ..))

theorem State.homeOf_of_error {s : State} {sp : Space2} {va : Nat} {f : Flt} (h : s.homeAddr sp va = .error f) :
    s.homeOf sp va = .error f := by rw [State.homeOf, h]

theorem State.homeOf_blocks {s t : State} {sp : Space2} {va pa : Nat} (h : s.homeOf sp va = .ok (pa, t)) :
    SameBlocks s t := by
  unfold State.homeOf at h
  split at h
  · cases h
  · next ha => cases h; exact State.homeAddr_blocks ha

/-! What the device offers to a queue. -/

/-- A control block that the device may use is at its home. -/
theorem State.cbAddr_of_ok {s : State} {sp : Space2} {va : Nat} (ha : va % 64 = 0)
    (hi : isImmediate (attrFlags sp.attrs va) = true) (hm : isMside (attrFlags sp.attrs va) = true) :
    s.cbAddr sp va = s.homeOf sp va := by
  unfold State.cbAddr
  simp [ha, hi, hm]

/-- One that it may not use, or that is not mapped, answers a fault. -/
theorem State.cbAddr_of_bad {s : State} {sp : Space2} {va : Nat} (h : va % 64 ≠ 0 ∨
    isImmediate (attrFlags sp.attrs va) = false ∨ isMside (attrFlags sp.attrs va) = false ∨
      ∃ f, s.homeAddr sp va = .error f) : ∃ f, s.cbAddr sp va = .error f := by
  unfold State.cbAddr
  dsimp only
  split
  · exact ⟨_, rfl⟩
  · next ha =>
    split
    · exact ⟨_, rfl⟩
    · next hflags =>
      obtain h | h | h | ⟨f, h⟩ := h
      · exact absurd h ha
      · simp [h] at hflags
      · simp [h] at hflags
      · exact ⟨f, State.homeOf_of_error h⟩

theorem State.offerDevice_none {s : State} {x : Context} {cb : Nat} (bytes : List Byte)
    (h : cb = 0 ∨ cb % 64 ≠ 0 ∨ ∃ f, s.cbAddr (s.contextSpace x) cb = .error f) : s.offerDevice x cb bytes = none := by
  unfold State.offerDevice
  dsimp only
  split
  · rfl
  · next hcb =>
    obtain h | h | ⟨f, h⟩ := h
    · exact absurd (.inl h) hcb
    · exact absurd (.inr h) hcb
    · rw [h]

/-- What an offer of the device leaves, by what the home answers. -/
def deviceOffer (pa : Nat) : HomeAns → Option (Except (Nat × State) State)
  | .fault _ _ | .lost _ => none
  | .done _ u => some (.ok u)
  | .turned u => some (.error (pa, u))

theorem State.offerDevice_eq {s v : State} {x : Context} {cb pa : Nat} (bytes : List Byte) (h0 : cb ≠ 0)
    (h64 : cb % 64 = 0) (h : s.cbAddr (s.contextSpace x) cb = .ok (pa, v)) : s.offerDevice x cb bytes =
      deviceOffer pa (v.homeTry pa (s.contextSpace x) (.device x.vi x.num) true 1 bytes.length false [bytes]) := by
  unfold State.offerDevice
  dsimp only
  rw [if_neg (by simp [h0, h64]), h]
  dsimp only
  cases v.homeTry pa (s.contextSpace x) (.device x.vi x.num) true 1 bytes.length false [bytes] <;> rfl

/-- A record that is offered to its queue, or dropped, changes no block. -/
theorem State.dropOrEnqueue_blocks (s : State) (x : Context) (cb : Nat) (bytes : List Byte) :
    SameBlocks s (s.dropOrEnqueue x cb bytes) := by
  have key : ∀ u, s.offerDevice x cb bytes = some (.ok u) → SameBlocks s u := by
    intro u hu
    unfold State.offerDevice at hu
    dsimp only at hu
    split at hu
    · cases hu
    · split at hu
      · cases hu
      · next pa v hcb =>
        have hv : SameBlocks s v := by
          unfold State.cbAddr at hcb
          dsimp only at hcb
          split at hcb
          · cases hcb
          · split at hcb
            · cases hcb
            · exact State.homeOf_blocks hcb
        have hrun := v.homeTry_blocks pa (s.contextSpace x) (.device x.vi x.num) true 1 bytes.length false [bytes]
        split at hu
        · cases hu
        · cases hu
        · next hdone => cases hu; rw [hdone] at hrun; exact hv.trans hrun
        · cases hu
  unfold State.dropOrEnqueue
  split
  · next u hu => exact key u hu
  · exact s.configEvent_blocks

/-! The events of a block happen where they are due. -/

theorem State.settled_iff (s : State) (k : Nat) (x : Block) : s.settled k x = true ↔
    (∀ e ∈ s.engines, e.2.block ≠ k) ∧ x.moving = none ∧
      (x.st ∈ [BlockState.halted, .frozen] ∨
        ∀ e ∈ s.groups, e.2.block = k → e.2.atBlocking (s.nativeBlock x) = true) := by
  simp only [State.settled, State.groupsOf, AMap.keep, Bool.and_eq_true, Bool.or_eq_true, beq_iff_eq, List.all_eq_true,
    List.mem_filter, and_imp, Option.isNone_iff_eq_none, bne_iff_ne, List.mem_cons, List.not_mem_nil, or_false]
  tauto

theorem State.evictable_iff (s : State) (bk : Nat) (b : Block) : s.evictable bk b = true ↔
    ∀ k ∈ s.quadOf bk b, ∀ x, AMap.find? s.blocks k = some x → s.settled k x = true := by
  unfold State.evictable
  rw [List.all_eq_true]
  refine forall₂_congr fun k _ => ?_
  cases AMap.find? s.blocks k with
  | none => simp
  | some x => simp

theorem State.evict_of_some {s : State} {bk : Nat} {b : Block} (hb : AMap.find? s.blocks bk = some b) : s.evict bk =
    if b.onCore && s.evictable bk b && (AMap.find? s.launches b.launch).all fun l => l.st != .aborting then
      ((s.quadOf bk b).foldl State.evictOne s).dropLeaving b.launch else s := by
  rw [State.evict, hb]

theorem blockEvict_happens {bk : Nat} {e : Event} (h : blockEvent (.blockEvict bk) = some e) :
    EventHappens (.blockEvict bk) e := by
  cases h
  intro s
  dsimp only
  change (_ → execBlockEvict bk s = _) ∧ (_ → execBlockEvict bk s = _)
  unfold execBlockEvict
  cases hb : AMap.find? s.blocks bk with
  | none => exact ⟨fun ⟨_, h, _⟩ => (nomatch h), fun _ => rfl⟩
  | some b =>
    have due : (b.evict = true ∧ b.onCore = true ∧
        (∀ l, AMap.find? s.launches b.launch = some l → l.st ≠ .aborting) ∧
        ∀ k ∈ s.quadOf bk b, ∀ x, AMap.find? s.blocks k = some x →
          (∀ e ∈ s.engines, e.2.block ≠ k) ∧ x.moving = none ∧
          (x.st ∈ [.halted, .frozen] ∨ ∀ e ∈ s.groups, e.2.block = k → e.2.atBlocking (s.nativeBlock x) = true)) ↔
        b.evict = true ∧ (b.onCore && s.evictable bk b &&
          (AMap.find? s.launches b.launch).all fun l => l.st != .aborting) = true := by
      simp only [Bool.and_eq_true, State.evictable_iff, State.settled_iff, Option.all_eq_true, bne_iff_ne]
      tauto
    refine ⟨fun ⟨b', h, hdue⟩ => ?_, fun hn => ?_⟩
    · cases h
      obtain ⟨hevict, hgo⟩ := due.1 hdue
      dsimp only
      rw [if_pos hevict, State.evict_of_some hb, if_pos hgo]
    · dsimp only
      split
      · next hevict => rw [State.evict_of_some hb, if_neg fun hgo => hn ⟨b, rfl, due.2 ⟨hevict, hgo⟩⟩]
      · rfl

/-- What stops a block from retiring. -/
theorem State.retire_of_not {s : State} {bk : Nat} (h : ¬ ∃ b l, AMap.find? s.blocks bk = some b ∧
    AMap.find? s.launches b.launch = some l ∧ b.st = .resident ∧ s.liveThreads bk = 0 ∧
      ∀ e ∈ s.engines, e.2.block ≠ bk) : s.retire bk = s := by
  unfold State.retire
  split
  · rfl
  · next b hb =>
    split
    · rfl
    · next l hl =>
      rw [if_pos]
      by_contra hno
      simp only [not_or, ne_eq, not_not, Bool.not_eq_true, List.any_eq_false, beq_iff_eq] at hno
      exact h ⟨b, l, hb, hl, hno⟩

theorem blockRetire_happens {bk : Nat} {e : Event} (h : blockEvent (.blockRetire bk) = some e) :
    EventHappens (.blockRetire bk) e := by
  cases h
  exact fun s => ⟨fun _ => rfl, fun hn => congrArg Host.Outcome.next (State.retire_of_not hn)⟩

theorem blockHalt_happens {bk : Nat} {e : Event} (h : blockEvent (.blockHalt bk) = some e) :
    EventHappens (.blockHalt bk) e := by
  cases h
  intro s
  dsimp only
  change (_ → execBlockHalt bk s = _) ∧ (_ → execBlockHalt bk s = _)
  unfold execBlockHalt
  cases hb : AMap.find? s.blocks bk with
  | none => exact ⟨fun ⟨_, _, _, h, _⟩ => (nomatch h), fun _ => rfl⟩
  | some b =>
    dsimp only
    cases hr : b.stop with
    | none => exact ⟨fun ⟨b', _, _, h, _, h', _⟩ => by (cases h; rw [hr] at h'), fun _ => rfl⟩
    | some r =>
      cases hl : AMap.find? s.launches b.launch with
      | none => exact ⟨fun ⟨b', _, _, h, h', _⟩ => by (cases h; rw [hl] at h'), fun _ => rfl⟩
      | some l =>
        dsimp only
        refine ⟨fun ⟨b', _, _, h, _, _, hdue⟩ => ?_, fun hn => ?_⟩
        · cases h
          rw [if_pos (by simpa using hdue)]
        · rw [if_neg fun hgo => hn ⟨b, l, r, rfl, hl, hr, by simpa using hgo⟩]

theorem blockEvents_happen : Happens blockEvent := by
  intro i e s h
  cases i with
  | blockEvict bk => exact blockEvict_happens h s
  | blockRetire bk => exact blockRetire_happens h s
  | blockHalt bk => exact blockHalt_happens h s
  | _ => cases h

/-! The states in which they leave it. -/

theorem State.evictOne_leaves {s : State} {bk : Nat} {b y : Block} {l : Launch} (hb : AMap.find? s.blocks bk = some b)
    (hl : AMap.find? s.launches b.launch = some l) :
    let v := ((s.withdrawBlock bk).rollWaiting bk).releaseCaches b.core .device
    AMap.find? v.blocks bk = some y →
    AMap.find? (s.evictOne bk).blocks bk = some { y with
      st := .evicted, evict := false, everEvicted := true, saved := some (v.savedOf bk b (v.stageOf b l))
      stopped := y.st == .halted } ∧
    (s.evictOne bk).bobbinsOf bk = [] := by
  intro v hy
  have key : s.evictOne bk = State.updBlock
      { v.shiftFlights bk (fun gid k => relKey (b.regBase + gid * (v.stageOf b l).regs) k) with
        bobbins := AMap.keep (fun _ x => x.block != bk) v.bobbins }
      bk fun b' => { b' with st := .evicted, evict := false, everEvicted := true
                             saved := some (v.savedOf bk b (v.stageOf b l)), stopped := b'.st == BlockState.halted } := by
    rw [State.evictOne, hb]
    dsimp only
    rw [hl]
    rfl
  rw [key]
  refine ⟨?_, ?_⟩
  · change AMap.find? (AMap.upd v.blocks bk _) bk = _
    rw [AMap.find?_upd_same, hy]
    rfl
  · change AMap.keep (fun _ (x : Bobbin) => x.block == bk) (AMap.keep (fun _ (x : Bobbin) => x.block != bk) v.bobbins) = []
    simp only [AMap.keep, List.filter_filter]
    exact List.filter_eq_nil_iff.2 fun e _ => by simp

/-! What a block that stops or is placed leaves of the tables. -/

/-- The blocks, the launches and the images of two states are the same. -/
def SameTables (s t : State) : Prop := t.blocks = s.blocks ∧ t.launches = s.launches ∧ t.images = s.images

theorem SameTables.refl (s : State) : SameTables s s := ⟨rfl, rfl, rfl⟩

theorem SameTables.trans {s t u : State} (h : SameTables s t) (h' : SameTables t u) : SameTables s u := by
  obtain ⟨hb, hl, hi⟩ := h
  obtain ⟨hb', hl', hi'⟩ := h'
  exact ⟨hb'.trans hb, hl'.trans hl, hi'.trans hi⟩

theorem SameTables.foldl {α : Type} {f : State → α → State} (hf : ∀ t a, SameTables t (f t a)) (l : List α) (s : State) :
    SameTables s (l.foldl f s) := by
  induction l generalizing s with
  | nil => exact .refl s
  | cons a l ih => exact (hf s a).trans (ih _)

theorem SameTables.of_storage {s t : State} (h : StorageOnly s t) : SameTables s t := by
  unfold StorageOnly at h
  exact ⟨by rw [h], by rw [h], by rw [h]⟩

theorem SameTables.of_walk {s t : State} (h : WalkOnly s t) : SameTables s t := by
  unfold WalkOnly at h
  exact ⟨by rw [h], by rw [h], by rw [h]⟩

theorem State.dumpPage_tables (s : State) (b : Block) (l : Launch) (x : Context) : SameTables s (s.dumpPage b l x) := by
  unfold State.dumpPage
  dsimp only
  split
  · exact .refl s
  · split
    · next ht =>
      refine SameTables.trans (.of_walk (walk_translate ht)) ?_
      exact SameTables.foldl (fun t i => .of_storage (storage_writePlace t _ _ _)) _ _
    · exact .of_storage (storage_configEvent s)

/-- A block that halts has its records sent and its page dumped, which leaves the tables as they are; then its own entry
changes (13 R287). -/
theorem State.halt_eq (s : State) (bk : Nat) (b : Block) (l : Launch) (r : StopReq) : ∃ u, SameTables s u ∧
    s.halt bk b l r = u.updBlock bk fun x =>
      { x with st := if b.fault.isSome then .frozen else if r.resume then .resident else .halted, stop := none
               everHalted := true } := by
  have records : SameTables s ((s.groupsOf bk).foldl (fun (u : State) (e : Nat × Group) =>
      if e.2.lanes.isEmpty then u
      else u.deliver b.launch l false (u.stopRecord b l e.2 r b.fault.isSome)) s) := by
    refine SameTables.foldl (fun u e => ?_) _ _
    split <;> exact ⟨rfl, rfl, rfl⟩
  unfold State.halt
  dsimp only
  cases s.context l.vi l.ctx with
  | none => exact ⟨_, records, rfl⟩
  | some x => exact ⟨_, records.trans (State.dumpPage_tables _ b l x), rfl⟩

theorem State.halt_leaves {s : State} {bk : Nat} {b : Block} (l : Launch) (r : StopReq)
    (hb : AMap.find? s.blocks bk = some b) : AMap.find? (s.halt bk b l r).blocks bk = some { b with
      st := if b.fault.isSome then .frozen else if r.resume then .resident else .halted
      stop := none, everHalted := true } := by
  obtain ⟨u, ⟨ub, _, _⟩, hu⟩ := s.halt_eq bk b l r
  rw [hu]
  change AMap.find? (AMap.upd u.blocks bk _) bk = _
  rw [AMap.find?_upd_same, ub, hb]
  rfl

theorem State.noteCompletion_frame (s : State) (lk : Nat) :
    s.noteCompletion lk = { s with launches := (s.noteCompletion lk).launches } := by
  unfold State.noteCompletion
  split
  · split <;> rfl
  · rfl

/-- What a record that is offered as a block retires leaves of the blocks. -/
theorem State.retire_leaves {s : State} {bk : Nat} {b : Block} {l : Launch} (hb : AMap.find? s.blocks bk = some b)
    (hl : AMap.find? s.launches b.launch = some l) (hst : b.st = .resident) (hlive : s.liveThreads bk = 0)
    (hops : ∀ e ∈ s.engines, e.2.block ≠ bk) :
    AMap.find? (s.retire bk).blocks bk = some { b with st := .retired, endedAt := s.time } ∧
    ∀ e ∈ (s.retire bk).groups, e.2.block ≠ bk := by
  have key : ∃ t : State, SameBlocks s t ∧ ∃ u : State, s.retire bk = u.noteCompletion b.launch ∧
      u.groups = AMap.keep (fun _ (g : Group) => g.block != bk) t.groups ∧
      u.blocks = AMap.upd t.blocks bk fun b => { b with st := .retired, endedAt := s.time } := by
    refine ⟨match s.context l.vi l.ctx with
      | some x => s.dropOrEnqueue x x.recordQ (s.blockRecord bk b l)
      | none => s, ?_, ?_⟩
    · split
      · exact State.dropOrEnqueue_blocks ..
      · rfl
    · rw [State.retire, hb]
      dsimp only
      rw [hl]
      dsimp only
      rw [if_neg (by simpa [hst, hlive] using fun a x h => hops (a, x) h)]
      exact ⟨_, rfl, rfl, rfl⟩
  obtain ⟨t, ht, u, hu, hgroups, hblocks⟩ := key
  rw [hu, State.noteCompletion_frame]
  refine ⟨?_, fun e he => ?_⟩
  · rw [hblocks, AMap.find?_upd_same, ht, hb]
    rfl
  · rw [hgroups] at he
    simpa using (List.mem_filter.1 he).2

theorem blockEventsLeaveTheStatesOfTheTable : BlockEventsLeaveTheStatesOfTheTable :=
  ⟨blockEvents_happen, fun _ _ _ _ _ hb hl => State.evictOne_leaves hb hl, fun _ _ _ l r hb => State.halt_leaves l r hb,
    fun _ _ _ _ hb hl hst hlive hops => State.retire_leaves hb hl hst hlive hops⟩

/-! Records are delivered. -/

/-- The first record of a context, and what stays when it has been taken. -/
theorem find?_erase_first {vi ctx : Nat} {pre post : List Delivery} {d : Delivery} (hvi : d.vi = vi) (hctx : d.ctx = ctx)
    (hpre : ∀ e ∈ pre, ¬ (e.vi = vi ∧ e.ctx = ctx)) :
    (pre ++ d :: post).find? (fun e => e.vi == vi && e.ctx == ctx) = some d ∧
      (pre ++ d :: post).erase d = pre ++ post := by
  have hnone : pre.find? (fun e => e.vi == vi && e.ctx == ctx) = none :=
    List.find?_eq_none.2 fun e he => by simpa using hpre e he
  refine ⟨by simp [List.find?_append, hnone, hvi, hctx], ?_⟩
  rw [List.erase_append_right _ fun hd => hpre d hd ⟨hvi, hctx⟩, List.erase_cons_head]

/-- The offer of the oldest record of a context (12 R269). -/
theorem exec_faultRecordDeliver {s : State} {vi ctx : Nat} {pre post : List Delivery} {d : Delivery} {x : Context}
    (hd : s.deliveries = pre ++ d :: post) (hvi : d.vi = vi) (hctx : d.ctx = ctx)
    (hpre : ∀ e ∈ pre, ¬ (e.vi = vi ∧ e.ctx = ctx)) (hx : s.context vi ctx = some x) :
    let t : State := { s with deliveries := pre ++ post }
    (t.offerDevice x d.cb d.bytes = none → exec (.faultRecordDeliver vi ctx) s = .next (t.failDelivery d)) ∧
    (∀ u, t.offerDevice x d.cb d.bytes = some (.ok u) → exec (.faultRecordDeliver vi ctx) s = .next u) ∧
    (∀ pa u, t.offerDevice x d.cb d.bytes = some (.error (pa, u)) → exec (.faultRecordDeliver vi ctx) s =
      .next (u.addRequest pa d.cb (.delivery d) true 1 [d.bytes])) := by
  obtain ⟨hfind, herase⟩ := find?_erase_first (post := post) hvi hctx hpre
  intro t
  change (_ → execFaultRecordDeliver vi ctx s = _) ∧ (∀ u, _ → execFaultRecordDeliver vi ctx s = _) ∧
    (∀ pa u, _ → execFaultRecordDeliver vi ctx s = _)
  unfold execFaultRecordDeliver
  rw [hd, hfind, hx]
  dsimp only
  rw [herase]
  exact ⟨fun h => by rw [h], fun u h => by rw [h], fun pa u h => by rw [h]⟩

theorem State.failDelivery_eq (s : State) (d : Delivery) : s.failDelivery d = match AMap.find? s.launches d.launch with
    | some l => if d.recoverable = true ∧ l.attempt = d.attempt then
        s.configEvent.failPage d.launch (field d.bytes 56 8) (field d.bytes 4 2) else s.configEvent
    | none => s.configEvent := by
  rfl

theorem recordsAreDeliveredInTheirOrder : RecordsAreDeliveredInTheirOrder := by
  intro s vi ctx pre post d x hd hvi hctx hpre hx t sp flags
  obtain ⟨fails, goes, waits⟩ := exec_faultRecordDeliver hd hvi hctx hpre hx
  refine ⟨fun h => fails (State.offerDevice_none _ ?_), fun h0 h64 hi hm pa v hv => ?_, ?_⟩
  · obtain h | h | h | h | h := h
    · exact .inl h
    · exact .inr (.inl h)
    · exact .inr (.inr (State.cbAddr_of_bad (.inr (.inl h))))
    · exact .inr (.inr (State.cbAddr_of_bad (.inr (.inr (.inl h)))))
    · exact .inr (.inr (State.cbAddr_of_bad (.inr (.inr (.inr h)))))
  · have hoffer := State.offerDevice_eq (x := x) d.bytes h0 h64 ((State.cbAddr_of_ok h64 hi hm).trans hv)
    intro run
    exact ⟨fun r u hu => goes u (hoffer.trans (congrArg (deviceOffer pa) hu)),
      fun u hu => waits pa u (hoffer.trans (congrArg (deviceOffer pa) hu)),
      fun f u hu => fails (hoffer.trans (congrArg (deviceOffer pa) hu)),
      fun u hu => fails (hoffer.trans (congrArg (deviceOffer pa) hu))⟩
  · exact t.failDelivery_eq d

/-- Settles O42: each event is its row, and nothing that happens at a queue's home (`State.homeTry_blocks`) or in the
dump of a page changes a block; the oldest record is the first of its context in the list of those that are due. -/
theorem blocksLeaveTheirCoresAndRecordsAreDelivered : Obligations.BlocksLeaveTheirCoresAndRecordsAreDelivered :=
  ⟨blockEventsLeaveTheStatesOfTheTable, recordsAreDeliveredInTheirOrder⟩

end Sys2Proof.Machine
end

section
/-! The allocators of a core, and what is granted (08 R198). -/

namespace Sys2Proof.Machine

open Sys2Proof.Safety Sys2Proof.Claims

/-- Two ranges, each a place and a size, of which one ends before the other begins. -/
def Apart (u v : Nat × Nat) : Prop := u.1 + u.2 ≤ v.1 ∨ v.1 + v.2 ≤ u.1

/-- A free block of the buddy allocator lies in its region, holds what is needed, and is apart from what is used. -/
theorem buddyFree_mem {used : List (Nat × Nat)} {need f base size : Nat} {e : Nat × Nat}
    (h : e ∈ buddyFree used need f base size) :
    base ≤ e.1 ∧ e.1 + e.2 ≤ base + size ∧ need ≤ e.2 ∧ ∀ u ∈ used, Apart u e := by
  induction f generalizing base size with
  | zero => cases h
  | succ f ih =>
    rw [buddyFree] at h
    split at h
    · cases h
    · next hneed =>
      split at h
      · next hfree =>
        cases List.mem_singleton.1 h
        exact ⟨Nat.le_refl _, Nat.le_refl _, Nat.not_lt.1 hneed, by simpa [Apart] using hfree⟩
      · rcases List.mem_append.1 h with h | h <;> obtain ⟨h1, h2, h3⟩ := ih h <;> exact ⟨by omega, by omega, h3⟩

/-- What a buddy allocator grants lies in one of its regions and is apart from what is used. -/
theorem buddyAlloc_free {roots used : List (Nat × Nat)} {need a : Nat} (h : buddyAlloc roots used need = some a) :
    (need = 0 ∧ a = 0) ∨ (∃ r ∈ roots, a + need ≤ r.1 + r.2) ∧ ∀ u ∈ used, Apart u (a, need) := by
  unfold buddyAlloc at h
  split at h
  · next h0 => cases h; exact .inl ⟨h0, rfl⟩
  · split at h
    · cases h
    · next e es hlist =>
      cases h
      refine .inr ?_
      have hmem := foldl_pick_mem (r := fun x m : Nat × Nat => decide (x.2 < m.2)) e es
      simp only [decide_eq_true_eq] at hmem
      rw [← hlist] at hmem
      obtain ⟨r, hr, hfree⟩ := List.mem_flatMap.1 hmem
      obtain ⟨_, hin, hneed, hap⟩ := buddyFree_mem hfree
      refine ⟨⟨r, hr, by omega⟩, fun u hu => ?_⟩
      have := hap u hu
      unfold Apart at *
      dsimp only
      omega

/-! What the blocks of a core use. -/

theorem mem_spadUsed {bs : List (Nat × Block × Stage)} {e : Nat × Block × Stage} {w : Nat × Nat × Nat} (he : e ∈ bs)
    (hw : w ∈ e.2.1.bases) : (w.1, e.2.2.spadSize) ∈ spadUsed bs :=
  List.mem_flatMap.2 ⟨e, he, List.mem_map.2 ⟨w, hw, rfl⟩⟩

theorem mem_regUsed {bs : List (Nat × Block × Stage)} {e : Nat × Block × Stage} {w : Nat × Nat × Nat} (he : e ∈ bs)
    (hw : w ∈ e.2.1.bases) : (w.2.1, e.2.2.regRange) ∈ regUsed bs :=
  List.mem_flatMap.2 ⟨e, he, List.mem_map.2 ⟨w, hw, rfl⟩⟩

theorem mem_accUsed {bs : List (Nat × Block × Stage)} {e : Nat × Block × Stage} {w : Nat × Nat × Nat} (he : e ∈ bs)
    (hw : w ∈ e.2.1.bases) (h0 : e.2.2.accRange ≠ 0) : (w.2.2, e.2.2.accRange) ∈ accUsed bs :=
  List.mem_filter.2 ⟨List.mem_flatMap.2 ⟨e, he, List.mem_map.2 ⟨w, hw, rfl⟩⟩, by simpa using h0⟩

/-- Where a block fits is what its three allocators grant. -/
theorem State.fits_eq_some {s : State} {core a b c : Nat} {x : Stage} (h : s.fits core x = some (a, b, c)) :
    buddyAlloc spadRoots (spadUsed (s.coreBlocks core)) x.spadSize = some a ∧
    buddyAlloc regRoots (regUsed (s.coreBlocks core)) x.regRange = some b ∧
    buddyAlloc accRoots (accUsed (s.coreBlocks core)) x.accRange = some c := by
  unfold State.fits at h
  dsimp only at h
  split at h
  · next ha hb hc =>
    split at h
    · cases h
      exact ⟨ha, hb, hc⟩
    · cases h
  · cases h

/-- A grant, of which one of size 0 is apart from every range that begins at or after it. -/
theorem buddyAlloc_apart {roots used : List (Nat × Nat)} {need a : Nat} (h : buddyAlloc roots used need = some a)
    {u : Nat × Nat} (hu : u ∈ used) : Apart u (a, need) := by
  obtain ⟨h0, ha⟩ | ⟨_, hap⟩ := buddyAlloc_free h
  · exact .inr (by omega)
  · exact hap u hu

theorem buddyAlloc_within {roots used : List (Nat × Nat)} {need a n : Nat} (h : buddyAlloc roots used need = some a)
    (hn : ∀ r ∈ roots, r.1 + r.2 ≤ n) : a + need ≤ n := by
  obtain ⟨h0, ha⟩ | ⟨⟨r, hr, hin⟩, _⟩ := buddyAlloc_free h
  · omega
  · exact hin.trans (hn r hr)

theorem grantedRangesAreFree : GrantedRangesAreFree := by
  intro s core a b c x h
  obtain ⟨ha, hb, hc⟩ := State.fits_eq_some h
  refine ⟨buddyAlloc_within ha (by decide), buddyAlloc_within hb (by decide), buddyAlloc_within hc (by decide),
    fun e he w hw => ⟨buddyAlloc_apart ha (mem_spadUsed he hw), buddyAlloc_apart hb (mem_regUsed he hw), ?_⟩⟩
  by_cases h0 : e.2.2.accRange = 0
  · exact .inl h0
  · exact .inr (buddyAlloc_apart hc (mem_accUsed he hw h0))

end Sys2Proof.Machine
end

section
/-! The compactor (08 R201). -/

namespace Sys2Proof.Machine

open Sys2Proof.Safety Sys2Proof.Claims

/-! Storage that is taken out and put in elsewhere. -/

/-- What a slice holds at a place: the entry of the storage there, within the slice. -/
theorem Cells.find?_slice {w : Nat} (m : Cells w) (lo hi j : Nat) :
    AMap.find? (Cells.slice m lo hi) j = if lo + j < hi then AMap.find? m (lo + j) else none := by
  unfold Cells.slice AMap.keep
  induction m with
  | nil => simp [AMap.find?]
  | cons e m ih =>
    obtain ⟨k, v⟩ := e
    by_cases hk : lo ≤ k ∧ k < hi
    · have hs : (decide (lo ≤ k) && decide (k < hi)) = true := by simpa using hk
      simp only [List.filter_cons, hs, if_true, List.map_cons, AMap.find?]
      rw [ih]
      by_cases hj : k - lo = j
      · rw [if_pos hj, if_pos (by omega), if_pos (by omega)]
      · rw [if_neg hj, if_neg (by omega : ¬ k = lo + j)]
    · have hs : (decide (lo ≤ k) && decide (k < hi)) = false := by simpa using hk
      simp only [List.filter_cons, hs, AMap.find?]
      rw [if_neg Bool.false_ne_true, ih]
      split
      · rw [if_neg (by omega)]
      · rfl

theorem Cells.slice_keys_nodup {w : Nat} {m : Cells w} (lo hi : Nat) (h : Cells.wf m = true) :
    ((Cells.slice m lo hi).map Prod.fst).Nodup := by
  have hr : AMap.rising (AMap.keep (fun k (_ : BitVec w) => decide (lo ≤ k) && decide (k < hi)) m) = true := by
    simp only [Cells.wf, Bool.and_eq_true] at h
    exact risingFrom_filter _ h.1
  have hn := risingFrom_keys_nodup hr
  have hk : (Cells.slice m lo hi).map Prod.fst =
      ((AMap.keep (fun k (_ : BitVec w) => decide (lo ≤ k) && decide (k < hi)) m).map Prod.fst).map (· - lo) := by
    simp [Cells.slice, List.map_map, Function.comp_def]
  rw [hk]
  refine List.Nodup.map_on (fun a ha b hb hab => ?_) hn
  have hge : ∀ k ∈ (AMap.keep (fun k (_ : BitVec w) => decide (lo ≤ k) && decide (k < hi)) m).map Prod.fst, lo ≤ k := by
    intro k hk
    obtain ⟨e, he, rfl⟩ := List.mem_map.1 hk
    have := (List.mem_filter.1 he).2
    simp only [Bool.and_eq_true, decide_eq_true_eq] at this
    exact this.1
  have := hge a ha
  have := hge b hb
  omega

theorem Cells.get_paste {w : Nat} (m : Cells w) (lo : Nat) {sl : Cells w} (hn : (sl.map Prod.fst).Nodup) (k : Nat) :
    Cells.get (Cells.paste m lo sl) k =
      if lo ≤ k then (AMap.find? sl (k - lo)).getD (Cells.get m k) else Cells.get m k := by
  unfold Cells.paste
  induction sl generalizing m with
  | nil => simp [AMap.find?]
  | cons e sl ih =>
    obtain ⟨j, v⟩ := e
    rw [List.map_cons, List.nodup_cons] at hn
    rw [List.foldl_cons, ih _ hn.2, Cells.get_set]
    by_cases hk : lo ≤ k
    · rw [if_pos hk, if_pos hk, AMap.find?]
      by_cases hj : j = k - lo
      · have hfree : AMap.find? sl (k - lo) = none := by
          rw [Option.eq_none_iff_forall_not_mem]
          intro v' hv'
          exact hn.1 (List.mem_map.2 ⟨_, AMap.mem_of_find? hv', hj.symm⟩)
        rw [if_pos hj, hfree, if_pos (by omega)]
        rfl
      · rw [if_neg hj, if_neg (by omega)]
    · rw [if_neg hk, if_neg hk, if_neg (by omega)]

/-- Storage that held zeros holds after a move what the old place held. -/
theorem Cells.get_paste_slice {w : Nat} {m m' : Cells w} {a b lo i : Nat} (hwf : Cells.wf m' = true)
    (h0 : Cells.get m (lo + i) = 0) (hi : a + i < b) :
    Cells.get (Cells.paste m lo (Cells.slice m' a b)) (lo + i) = Cells.get m' (a + i) := by
  rw [Cells.get_paste _ _ (Cells.slice_keys_nodup a b hwf), if_pos (Nat.le_add_right _ _), Nat.add_sub_cancel_left,
    Cells.find?_slice, if_pos hi, h0]
  rfl

/-- Outside the new place nothing changes. -/
theorem Cells.get_paste_slice_other {w : Nat} {m m' : Cells w} {a b lo k : Nat} (hwf : Cells.wf m' = true)
    (hk : k < lo ∨ lo + (b - a) ≤ k) : Cells.get (Cells.paste m lo (Cells.slice m' a b)) k = Cells.get m k := by
  rw [Cells.get_paste _ _ (Cells.slice_keys_nodup a b hwf)]
  split
  · rw [Cells.find?_slice, if_neg (by omega)]
    rfl
  · rfl

theorem Cells.get_foldl_clear {w : Nat} (lo hi : Nat → Nat) (l : List Nat) (m : Cells w) (k : Nat) :
    Cells.get (l.foldl (fun (m : Cells w) f => Cells.clear m (lo f) (hi f)) m) k =
      if ∃ f ∈ l, lo f ≤ k ∧ k < hi f then 0 else Cells.get m k := by
  induction l generalizing m with
  | nil => simp
  | cons f l ih =>
    rw [List.foldl_cons, ih, Cells.get_clear]
    by_cases h : ∃ g ∈ l, lo g ≤ k ∧ k < hi g
    · rw [if_pos h, if_pos (by obtain ⟨g, hg, h⟩ := h; exact ⟨g, List.mem_cons_of_mem _ hg, h⟩)]
    · rw [if_neg h]
      by_cases hf : lo f ≤ k ∧ k < hi f
      · rw [if_pos hf, if_pos ⟨f, List.mem_cons_self, hf⟩]
      · rw [if_neg hf, if_neg]
        rintro ⟨g, hg, hgk⟩
        rcases List.mem_cons.1 hg with rfl | hg
        · exact hf hgk
        · exact h ⟨g, hg, hgk⟩

/-- Of pastes that follow one another, that of one place shows there if the others keep off it. -/
theorem Cells.get_foldl_paste {w : Nat} {m' : Cells w} (hwf : Cells.wf m' = true) {lo a b : Nat → Nat} {l : List Nat}
    (hl : l.Nodup) {f i : Nat} (hf : f ∈ l) (hi : a f + i < b f) {m : Cells w} (h0 : Cells.get m (lo f + i) = 0)
    (hoff : ∀ g ∈ l, g ≠ f → lo f + i < lo g ∨ lo g + (b g - a g) ≤ lo f + i) :
    Cells.get (l.foldl (fun (m : Cells w) g => Cells.paste m (lo g) (Cells.slice m' (a g) (b g))) m) (lo f + i) =
      Cells.get m' (a f + i) := by
  have others : ∀ (l : List Nat) (m : Cells w), f ∉ l →
      (∀ g ∈ l, g ≠ f → lo f + i < lo g ∨ lo g + (b g - a g) ≤ lo f + i) →
      Cells.get (l.foldl (fun (m : Cells w) g => Cells.paste m (lo g) (Cells.slice m' (a g) (b g))) m) (lo f + i) =
        Cells.get m (lo f + i) := by
    intro l
    induction l with
    | nil => intros; rfl
    | cons g l ih =>
      intro m hnot hoff
      rw [List.mem_cons, not_or] at hnot
      obtain ⟨hne, hnot⟩ := hnot
      rw [List.foldl_cons, ih _ hnot fun g hg => hoff g (List.mem_cons_of_mem _ hg)]
      exact Cells.get_paste_slice_other hwf (hoff g List.mem_cons_self (Ne.symm hne))
  induction l generalizing m with
  | nil => cases hf
  | cons g l ih =>
    obtain ⟨hg, hl⟩ := List.nodup_cons.1 hl
    rw [List.foldl_cons]
    by_cases hgf : g = f
    · subst hgf
      rw [others l _ hg fun g' hg' => hoff g' (List.mem_cons_of_mem _ hg')]
      exact Cells.get_paste_slice hwf h0 hi
    · refine ih hl ((List.mem_cons.1 hf).resolve_left fun h => hgf h.symm) ?_
        fun g' hg' => hoff g' (List.mem_cons_of_mem _ hg')
      rw [Cells.get_paste_slice_other hwf (hoff g List.mem_cons_self hgf), h0]

/-! The end of a move. -/

/-- A block of a core stands in the table of blocks. -/
theorem State.mem_coreBlocks {s : State} {core : Nat} {e : Nat × Block × Stage} : e ∈ s.coreBlocks core ↔
    (e.1, e.2.1) ∈ s.blocks ∧ e.2.1.core = core ∧ e.2.1.onCore = true ∧
      ∃ l, AMap.find? s.launches e.2.1.launch = some l ∧ e.2.2 = s.stageOf e.2.1 l := by
  obtain ⟨k, b, x⟩ := e
  unfold State.coreBlocks
  rw [List.mem_filterMap]
  constructor
  · rintro ⟨⟨k', b'⟩, hmem, h⟩
    dsimp only at h
    split at h
    · next hon =>
      obtain ⟨l, hl, heq⟩ := Option.map_eq_some_iff.1 h
      cases heq
      exact ⟨hmem, hon.1, hon.2, l, hl, rfl⟩
    · cases h
  · rintro ⟨hmem, hcore, hon, l, hl, hx⟩
    refine ⟨(k, b), hmem, ?_⟩
    dsimp only at *
    rw [if_pos ⟨hcore, hon⟩, hl, hx]
    rfl

theorem State.endMove_leaves {s : State} {bk : Nat} {b : Block} {y : Stage} {new : Nat × Nat × Nat}
    (hb : AMap.find? s.blocks bk = some b) (hspad : Cells.wf s.spad = true) (hacc : Cells.wf s.acc = true)
    (hcregs : Cells.wf s.cregs = true) (hold : b.regBase + y.regRange ≤ 1536) (_hnew : new.2.1 + y.regRange ≤ 1536) :
    AMap.find? (s.endMove bk b y new).blocks bk = some { b with
      spadBase := new.1, regBase := new.2.1, accBase := new.2.2, moving := none } ∧
    (∀ i < y.spadSize, Cells.get (s.endMove bk b y new).spad (spadKey b.core (new.1 + i)) =
      Cells.get s.spad (spadKey b.core (b.spadBase + i))) ∧
    (∀ i < y.accRange, ∀ e < 512, Cells.get (s.endMove bk b y new).acc (accKey b.core (new.2.2 + i) e) =
      Cells.get s.acc (accKey b.core (b.accBase + i) e)) ∧
    ∀ f < 4, ∀ i < y.regRange, ∀ lane < 64, Cells.get (s.endMove bk b y new).cregs (cregKey b.core f (new.2.1 + i) lane) =
      Cells.get s.cregs (cregKey b.core f (b.regBase + i) lane) := by
  refine ⟨?_, fun i hi => ?_, fun i hi e he => ?_, fun f hf i hi lane hlane => ?_⟩
  · change AMap.find? (AMap.upd s.blocks bk _) bk = _
    rw [AMap.find?_upd_same, hb]
    rfl
  · change Cells.get (Cells.paste (Cells.clear (Cells.clear s.spad _ _) (spadKey b.core new.1)
      (spadKey b.core (new.1 + y.spadSize))) (spadKey b.core new.1) (Cells.slice s.spad (spadKey b.core b.spadBase)
      (spadKey b.core (b.spadBase + y.spadSize)))) _ = _
    have hto : spadKey b.core (new.1 + i) = spadKey b.core new.1 + i := by unfold spadKey; omega
    have hfrom : spadKey b.core (b.spadBase + i) = spadKey b.core b.spadBase + i := by unfold spadKey; omega
    rw [hto, hfrom]
    refine Cells.get_paste_slice hspad ?_ (by unfold spadKey; omega)
    rw [Cells.get_clear, if_pos (by unfold spadKey; omega)]
  · change Cells.get (Cells.paste (Cells.clear (Cells.clear s.acc _ _) (accKey b.core new.2.2 0)
      (accKey b.core (new.2.2 + y.accRange) 0)) (accKey b.core new.2.2 0) (Cells.slice s.acc (accKey b.core b.accBase 0)
      (accKey b.core (b.accBase + y.accRange) 0))) _ = _
    have hto : accKey b.core (new.2.2 + i) e = accKey b.core new.2.2 0 + (i * 512 + e) := by unfold accKey; omega
    have hfrom : accKey b.core (b.accBase + i) e = accKey b.core b.accBase 0 + (i * 512 + e) := by unfold accKey; omega
    rw [hto, hfrom]
    refine Cells.get_paste_slice hacc ?_ (by unfold accKey; omega)
    rw [Cells.get_clear, if_pos (by unfold accKey; omega)]
  · change Cells.get ((span 0 4).foldl (fun (m : Cells 32) g => Cells.paste m (cregKey b.core g new.2.1 0)
        (Cells.slice s.cregs (cregKey b.core g b.regBase 0) (cregKey b.core g (b.regBase + y.regRange) 0)))
      ((span 0 4).foldl (fun (m : Cells 32) g => Cells.clear m (cregKey b.core g new.2.1 0)
        (cregKey b.core g (new.2.1 + y.regRange) 0)) ((span 0 4).foldl (fun (m : Cells 32) g => Cells.clear m
          (cregKey b.core g b.regBase 0) (cregKey b.core g (b.regBase + y.regRange) 0)) s.cregs))) _ = _
    have hto : cregKey b.core f (new.2.1 + i) lane = cregKey b.core f new.2.1 0 + (i * 64 + lane) := by unfold cregKey; omega
    have hfrom : cregKey b.core f (b.regBase + i) lane = cregKey b.core f b.regBase 0 + (i * 64 + lane) := by
      unfold cregKey; omega
    have hin : f ∈ span 0 4 := (mem_span 0 4 f).2 ⟨Nat.zero_le f, by omega⟩
    rw [hto, hfrom]
    refine Cells.get_foldl_paste (lo := fun g => cregKey b.core g new.2.1 0) (a := fun g => cregKey b.core g b.regBase 0)
      (b := fun g => cregKey b.core g (b.regBase + y.regRange) 0) hcregs (by decide) hin
      (by unfold cregKey; omega) ?_ fun g _ hg => ?_
    · rw [Cells.get_foldl_clear (fun g => cregKey b.core g new.2.1 0) (fun g => cregKey b.core g (new.2.1 + y.regRange) 0),
        if_pos ⟨f, hin, by unfold cregKey; omega⟩]
    · unfold cregKey
      omega

/-- A block that is being moved stands on one of the cores looked at. -/
theorem State.mem_of_movingOn {s : State} {cores : List Nat} {e : Nat × Block × Stage} (h : s.movingOn cores = some e) :
    ∃ c ∈ cores, e ∈ s.coreBlocks c := by
  obtain ⟨c, hc, hfind⟩ := List.exists_of_findSome?_eq_some h
  exact ⟨c, hc, List.mem_of_find?_eq_some hfind⟩

theorem exec_compactorMove_moving {s : State} {lk stage bk : Nat} {l : Launch} {r : StageRun} {b : Block} {y : Stage}
    {new : Nat × Nat × Nat} (hl : AMap.find? s.launches lk = some l) (hr : l.stages[stage]? = some r)
    (hm : s.movingOn (r.cores ++ r.leaving) = some (bk, b, y)) (hb : b.moving = some new) :
    exec (.compactorMove lk stage) s = .next (s.endMove bk b y new) := by
  change execCompactorMove lk stage s = _
  unfold execCompactorMove
  rw [hl]
  dsimp only
  rw [hr]
  dsimp only
  rw [hm]
  dsimp only
  rw [hb]

/-! Which core is chosen. -/

/-- The cheapest of a list is one of it, and none costs less. -/
theorem cheapest_of_mem {l : List (Nat × Nat)} {e : Nat × Nat} (he : e ∈ l) :
    ∃ f ∈ l, cheapest l = some f.1 ∧ f.2 ≤ e.2 := by
  cases l with
  | nil => cases he
  | cons a l =>
    have hmem := foldl_pick_mem (r := fun x m : Nat × Nat => decide (x.2 < m.2)) a l
    have hle := foldl_pick_le (r := fun x m : Nat × Nat => decide (x.2 < m.2)) (le := fun x y => x.2 ≤ y.2)
      (fun x => Nat.le_refl _) (fun x y z => Nat.le_trans) (fun x m h => Nat.le_of_lt (of_decide_eq_true h))
      (fun x m h => Nat.not_lt.1 (of_decide_eq_false h)) a l e he
    simp only [decide_eq_true_eq] at hmem hle
    exact ⟨_, hmem, rfl, hle⟩

theorem mem_fromOn {l : List Nat} {n x : Nat} : x ∈ fromOn l n ↔ x ∈ l := by
  simp only [fromOn, List.mem_append, List.mem_filter, decide_eq_true_eq]
  constructor
  · rintro (h | h) <;> exact h.1
  · intro h
    rcases Nat.lt_or_ge x n with hx | hx
    · exact .inr ⟨h, hx⟩
    · exact .inl ⟨h, hx⟩

/-- A block of a stage fits on no core where it fits on none of the list. -/
theorem State.coreFor_eq_none {s : State} {r : StageRun} {x : Stage} :
    s.coreFor r x = none ↔ ∀ core ∈ r.cores, s.fits core x = none := by
  unfold State.coreFor
  rw [List.findSome?_eq_none_iff]
  simp [mem_fromOn]

theorem exec_compactorMove_begin {s : State} {lk stage : Nat} {l : Launch} {r : StageRun}
    (hl : AMap.find? s.launches lk = some l) (hr : l.stages[stage]? = some r) (hissues : l.issues = true)
    (hd : l.descheduled = false) (hm : s.movingOn (r.cores ++ r.leaving) = none)
    (hnext : s.nextBlock l stage r ≠ none) (hquad : (stageAt (s.imageBytes l) stage).quad = false) :
    (s.coreFor r (stageAt (s.imageBytes l) stage) ≠ none → exec (.compactorMove lk stage) s = .next s) ∧
    (s.coreFor r (stageAt (s.imageBytes l) stage) = none → ∀ core,
      cheapest (r.cores.filterMap fun c =>
        (s.compactCost (stageAt (s.imageBytes l) stage) c).map fun n => (c, n)) = some core →
      exec (.compactorMove lk stage) s = .next (s.beginMove (stageAt (s.imageBytes l) stage) core)) := by
  change (_ → execCompactorMove lk stage s = _) ∧ (_ → ∀ core, _ → execCompactorMove lk stage s = _)
  unfold execCompactorMove
  rw [hl]
  dsimp only
  rw [hr]
  dsimp only
  rw [hm]
  dsimp only
  rw [if_neg (by simp [hissues, hd, hnext]), if_neg (by rw [hquad]; exact Bool.false_ne_true)]
  refine ⟨fun h => if_pos (Option.isSome_iff_ne_none.2 h), fun h core hcore => ?_⟩
  rw [if_neg (by rw [h]; exact Bool.false_ne_true), hcore]

theorem theCompactorBeginsOnTheCheapestCore (s : State) (lk stage : Nat) (l : Launch) (r : StageRun)
    (hl : AMap.find? s.launches lk = some l) (hr : l.stages[stage]? = some r) (hissues : l.issues = true)
    (hd : l.descheduled = false) (hm : s.movingOn (r.cores ++ r.leaving) = none)
    (hnext : s.nextBlock l stage r ≠ none) (hquad : (stageAt (s.imageBytes l) stage).quad = false) :
    let x := stageAt (s.imageBytes l) stage
    ((∃ core ∈ r.cores, s.fits core x ≠ none) → exec (.compactorMove lk stage) s = .next s) ∧
    ((∀ core ∈ r.cores, s.fits core x = none) → ∀ core n, core ∈ r.cores → s.compactCost x core = some n →
      ∃ best k, best ∈ r.cores ∧ s.compactCost x best = some k ∧ k ≤ n ∧
        exec (.compactorMove lk stage) s = .next (s.beginMove x best)) := by
  obtain ⟨stays, begins⟩ := exec_compactorMove_begin hl hr hissues hd hm hnext hquad
  intro x
  refine ⟨fun ⟨core, hcore, hfits⟩ => stays fun h => hfits (State.coreFor_eq_none.1 h core hcore),
    fun hnone core n hcore hcost => ?_⟩
  obtain ⟨⟨best, k⟩, hf, hch, hle⟩ := cheapest_of_mem (l := r.cores.filterMap fun c => (s.compactCost x c).map fun n => (c, n))
    (List.mem_filterMap.2 ⟨core, hcore, by rw [hcost]; rfl⟩)
  obtain ⟨c, hc, hck⟩ := List.mem_filterMap.1 hf
  obtain ⟨k', hk', heq⟩ := Option.map_eq_some_iff.1 hck
  cases heq
  exact ⟨best, k, hc, hk', hle, begins (State.coreFor_eq_none.2 hnone) best hch⟩

/-! Which block is moved, and where to. -/

theorem mem_insertBySize {e x : Nat × Nat × Nat} {l : List (Nat × Nat × Nat)} :
    x ∈ insertBySize e l ↔ x = e ∨ x ∈ l := by
  induction l with
  | nil => simp [insertBySize]
  | cons y l ih =>
    rw [insertBySize]
    split
    · simp
    · simp only [List.mem_cons, ih]
      tauto

theorem mem_foldr_insertBySize {x : Nat × Nat × Nat} {l : List (Nat × Nat × Nat)} :
    x ∈ l.foldr insertBySize [] ↔ x ∈ l := by
  induction l with
  | nil => simp
  | cons y l ih => rw [List.foldr_cons, mem_insertBySize, ih, List.mem_cons]

/-- A plan moves only blocks that may be moved, and what it leaves is among them. -/
def Plan.Within (p : Plan) (movable : List (Nat × Nat × Nat)) : Prop :=
  (∀ m ∈ p.moves, m.1 ∈ movable.map Prod.fst) ∧ ∀ e ∈ p.rest, e ∈ movable

theorem Plan.Within.nil {p : Plan} {movable : List (Nat × Nat × Nat)} (hm : p.moves = [])
    (hr : ∀ e ∈ p.rest, e ∈ movable) : p.Within movable := ⟨by simp [hm], hr⟩

/-- One more move, after those of a plan for its range. -/
theorem Plan.Within.then {p q : Plan} {movable : List (Nat × Nat × Nat)} {e : Nat × Nat × Nat} (hp : p.Within movable)
    (he : e ∈ movable) (hq : q.Within p.rest) {u : Plan} (hm : u.moves = p.moves ++ q.moves ++ [(e.1, q.at_)])
    (hr : u.rest = q.rest) : u.Within movable := by
  obtain ⟨pm, pr⟩ := hp
  obtain ⟨qm, qr⟩ := hq
  refine ⟨fun m hmem => ?_, fun x hx => pr x (qr x (hr ▸ hx))⟩
  rw [hm] at hmem
  simp only [List.mem_append, List.mem_singleton] at hmem
  obtain (hmem | hmem) | rfl := hmem
  · exact pm m hmem
  · obtain ⟨x, hx, heq⟩ := List.mem_map.1 (qm m hmem)
    exact List.mem_map.2 ⟨x, pr x hx, heq⟩
  · exact List.mem_map.2 ⟨e, he, rfl⟩

theorem betterPlan_eq (a b : Option Plan) : betterPlan a b = a ∨ betterPlan a b = b := by
  unfold betterPlan
  split
  · split <;> simp
  · simp
  · simp

theorem openRange_within {roots : List (Nat × Nat)} {fuel : Nat} {fixed : List (Nat × Nat)}
    {movable : List (Nat × Nat × Nat)} {need : Nat} {p : Plan} (h : openRange roots fuel fixed movable need = some p) :
    p.Within movable := by
  induction fuel generalizing fixed movable need p with
  | zero =>
    unfold openRange at h
    split at h
    · cases h; exact .nil rfl fun _ he => he
    · split at h
      · cases h; exact .nil rfl fun _ he => he
      · cases h
  | succ n ih =>
    unfold openRange at h
    split at h
    · cases h; exact .nil rfl fun _ he => he
    · split at h
      · cases h; exact .nil rfl fun _ he => he
      · refine List.foldlRecOn (motive := fun best : Option Plan => ∀ p, best = some p → p.Within movable) _ _
          ?_ (fun best hbest a _ => ?_) p h
        · intro p hp
          cases hp
        split
        · exact hbest
        · intro p hp
          rcases betterPlan_eq best _ with heq | heq <;> rw [heq] at hp
          · exact hbest p hp
          · obtain ⟨x, hx, rfl⟩ := Option.map_eq_some_iff.1 hp
            refine List.foldlRecOn (motive := fun acc : Option (Plan × List (Nat × Nat)) =>
              ∀ x, acc = some x → x.1.Within movable) _ _ ?_ (fun acc hacc e he => ?_) x hx
            · intro x hx
              cases hx
              exact .nil rfl fun e he => (List.mem_filter.1 he).1
            · have hmem : e ∈ movable := (List.mem_filter.1 (mem_foldr_insertBySize.1 he)).1
              split
              · exact fun _ h => nomatch h
              · next q held =>
                split
                · exact fun _ h => nomatch h
                · next u hu =>
                  intro x hx
                  cases hx
                  exact (hacc _ rfl).then hmem (ih hu) rfl rfl

/-- The blocks that a plan of a core moves are settled blocks of the core. -/
theorem State.compaction_settled {s : State} {core : Nat} {x : Stage} {a b c : List (Nat × Nat)} {n : Nat}
    (h : s.compaction core x = some (a, b, c, n)) : ∀ m, m ∈ a ∨ m ∈ b ∨ m ∈ c →
      ∃ e ∈ s.coreBlocks core, e.1 = m.1 ∧ s.settled e.1 e.2.1 = true := by
  have key : ∀ (f : Nat × Block × Stage → Nat × Nat × Nat), (∀ e, (f e).1 = e.1) →
      ∀ (l : List (Nat × Nat × Nat)), (∀ e ∈ l, e ∈ ((s.coreBlocks core).filter fun e => s.settled e.1 e.2.1).map f) →
      ∀ p : Plan, p.Within l → ∀ m ∈ p.moves, ∃ e ∈ s.coreBlocks core, e.1 = m.1 ∧ s.settled e.1 e.2.1 = true := by
    intro f hf l hl p hp m hm
    obtain ⟨d, hd, hdm⟩ := List.mem_map.1 (hp.1 m hm)
    obtain ⟨e, he, rfl⟩ := List.mem_map.1 (hl d hd)
    obtain ⟨hmem, hset⟩ := List.mem_filter.1 he
    exact ⟨e, hmem, (hf e).symm.trans hdm, hset⟩
  unfold State.compaction at h
  dsimp only at h
  split at h
  · next ha hb hc =>
    cases h
    rintro m (hm | hm | hm)
    · exact key _ (fun _ => rfl) _ (fun _ he => he) _ (openRange_within ha) m hm
    · exact key _ (fun _ => rfl) _ (fun _ he => he) _ (openRange_within hb) m hm
    · exact key _ (fun _ => rfl) _ (fun _ he => (List.mem_filter.1 he).1) _ (openRange_within hc) m hm
  · cases h

/-- Whether a move of a plan may be made now: the block, and the place, if that is free of the others. -/
def goesTo (bs : List (Nat × Block × Stage)) (used : List (Nat × Block × Stage) → List (Nat × Nat)) (size : Stage → Nat)
    (e : Nat × Nat) : Option (Block × Nat) :=
  match bs.find? fun b => b.1 == e.1 with
  | some b =>
    if (used (bs.filter fun x => x.1 != e.1)).any fun r => overlapsAt r e.2 (size b.2.2) then none
    else some (b.2.1, e.2)
  | none => none

theorem overlapsAt_eq_false {u : Nat × Nat} {at_ n : Nat} : overlapsAt u at_ n = false ↔ Apart u (at_, n) := by
  simp only [overlapsAt, Bool.and_eq_false_iff, decide_eq_false_iff_not, Apart]
  omega

theorem goesTo_eq_some {bs : List (Nat × Block × Stage)} {used : List (Nat × Block × Stage) → List (Nat × Nat)}
    {size : Stage → Nat} {e : Nat × Nat} {y : Block} {p : Nat} (h : goesTo bs used size e = some (y, p)) :
    p = e.2 ∧ ∃ z, (e.1, y, z) ∈ bs ∧ ∀ u ∈ used (bs.filter fun x => x.1 != e.1), Apart u (p, size z) := by
  unfold goesTo at h
  split at h
  · next b hb =>
    split at h
    · cases h
    · next hfree =>
      cases h
      have hkey : b.1 = e.1 := by simpa using List.find?_some hb
      refine ⟨rfl, b.2.2, hkey ▸ List.mem_of_find?_eq_some hb, fun u hu => ?_⟩
      rw [Bool.not_eq_true, List.any_eq_false] at hfree
      exact overlapsAt_eq_false.1 (Bool.eq_false_iff.2 (hfree u hu))
  · cases h

theorem State.firstMove_eq (s : State) (core : Nat) (sp rg ac : List (Nat × Nat)) : s.firstMove core sp rg ac =
    (((sp.findSome? fun e => (goesTo (s.coreBlocks core) spadUsed Stage.spadSize e).map fun x =>
        (e.1, (x.2, x.1.regBase, x.1.accBase))).or
      (rg.findSome? fun e => (goesTo (s.coreBlocks core) regUsed Stage.regRange e).map fun x =>
        (e.1, (x.1.spadBase, x.2, x.1.accBase)))).or
      (ac.findSome? fun e => (goesTo (s.coreBlocks core) accUsed Stage.accRange e).map fun x =>
        (e.1, (x.1.spadBase, x.1.regBase, x.2)))) := rfl

/-- The first move of a list that may be made. -/
theorem findSome?_goesTo {bs : List (Nat × Block × Stage)} {used : List (Nat × Block × Stage) → List (Nat × Nat)}
    {size : Stage → Nat} {f : Block → Nat → Nat × Nat × Nat} {l : List (Nat × Nat)} {bk : Nat} {new : Nat × Nat × Nat}
    (h : (l.findSome? fun e => (goesTo bs used size e).map fun x => (e.1, f x.1 x.2)) = some (bk, new)) :
    ∃ p y z, (bk, p) ∈ l ∧ new = f y p ∧ (bk, y, z) ∈ bs ∧
      ∀ u ∈ used (bs.filter fun x => x.1 != bk), Apart u (p, size z) := by
  obtain ⟨⟨k, p⟩, he, hgo⟩ := List.exists_of_findSome?_eq_some h
  obtain ⟨⟨y, q⟩, hg, heq⟩ := Option.map_eq_some_iff.1 hgo
  cases heq
  obtain ⟨rfl, z, hz, hap⟩ := goesTo_eq_some hg
  exact ⟨_, y, z, he, rfl, hz, hap⟩

/-- The first move of a plan takes a block of the core to a place of one resource that is free of the other blocks. -/
theorem State.firstMove_free {s : State} {core : Nat} {a b c : List (Nat × Nat)} {bk : Nat} {new : Nat × Nat × Nat}
    (h : s.firstMove core a b c = some (bk, new)) :
    ∃ y z, (bk, y, z) ∈ s.coreBlocks core ∧ (∃ m, (m ∈ a ∨ m ∈ b ∨ m ∈ c) ∧ m.1 = bk) ∧
      ∀ e ∈ s.coreBlocks core, e.1 ≠ bk → ∀ w ∈ e.2.1.bases,
        (new.1 = y.spadBase ∨ Apart (w.1, e.2.2.spadSize) (new.1, z.spadSize)) ∧
        (new.2.1 = y.regBase ∨ Apart (w.2.1, e.2.2.regRange) (new.2.1, z.regRange)) ∧
        (new.2.2 = y.accBase ∨ e.2.2.accRange = 0 ∨ Apart (w.2.2, e.2.2.accRange) (new.2.2, z.accRange)) := by
  have other : ∀ e ∈ s.coreBlocks core, e.1 ≠ bk → e ∈ (s.coreBlocks core).filter fun x => x.1 != bk :=
    fun e he hne => List.mem_filter.2 ⟨he, by simpa using hne⟩
  rw [State.firstMove_eq, Option.or_eq_some_iff, Option.or_eq_some_iff] at h
  obtain (h | ⟨_, h⟩) | ⟨_, h⟩ := h
  · obtain ⟨p, y, z, hm, rfl, hz, hap⟩ := findSome?_goesTo (f := fun y p => (p, y.regBase, y.accBase)) h
    exact ⟨y, z, hz, ⟨_, .inl hm, rfl⟩, fun e he hne w hw =>
      ⟨.inr (hap _ (mem_spadUsed (other e he hne) hw)), .inl rfl, .inl rfl⟩⟩
  · obtain ⟨p, y, z, hm, rfl, hz, hap⟩ := findSome?_goesTo (f := fun y p => (y.spadBase, p, y.accBase)) h
    exact ⟨y, z, hz, ⟨_, .inr (.inl hm), rfl⟩, fun e he hne w hw =>
      ⟨.inl rfl, .inr (hap _ (mem_regUsed (other e he hne) hw)), .inl rfl⟩⟩
  · obtain ⟨p, y, z, hm, rfl, hz, hap⟩ := findSome?_goesTo (f := fun y p => (y.spadBase, y.regBase, p)) h
    refine ⟨y, z, hz, ⟨_, .inr (.inr hm), rfl⟩, fun e he hne w hw => ⟨.inl rfl, .inl rfl, .inr ?_⟩⟩
    by_cases h0 : e.2.2.accRange = 0
    · exact .inl h0
    · exact .inr (hap _ (mem_accUsed (other e he hne) hw h0))

theorem theCompactorMovesASettledBlock (s : State) (core bk : Nat) (x : Stage) (a b c : List (Nat × Nat)) (n : Nat)
    (new : Nat × Nat × Nat) (hr : AMap.rising s.blocks = true) (hc : s.compaction core x = some (a, b, c, n))
    (hf : s.firstMove core a b c = some (bk, new)) :
    s.beginMove x core = s.updBlock bk (fun b => { b with moving := some new }) ∧
    ∃ y z, (bk, y, z) ∈ s.coreBlocks core ∧ s.settled bk y = true ∧
      ∀ e ∈ s.coreBlocks core, e.1 ≠ bk → ∀ w ∈ e.2.1.bases,
        (new.1 = y.spadBase ∨ Apart (w.1, e.2.2.spadSize) (new.1, z.spadSize)) ∧
        (new.2.1 = y.regBase ∨ Apart (w.2.1, e.2.2.regRange) (new.2.1, z.regRange)) ∧
        (new.2.2 = y.accBase ∨ e.2.2.accRange = 0 ∨ Apart (w.2.2, e.2.2.accRange) (new.2.2, z.accRange)) := by
  obtain ⟨y, z, hz, ⟨m, hm, rfl⟩, hfree⟩ := State.firstMove_free hf
  obtain ⟨e, he, hkey, hset⟩ := State.compaction_settled hc m hm
  have hy := AMap.find?_of_mem hr (State.mem_coreBlocks.1 hz).1
  have he' := AMap.find?_of_mem hr (State.mem_coreBlocks.1 he).1
  rw [hkey, hy] at he'
  cases he'
  refine ⟨?_, e.2.1, z, hz, hkey ▸ hset, hfree⟩
  unfold State.beginMove
  rw [hc]
  dsimp only
  rw [hf]

theorem theCompactorMovesOneBlockAtATime : TheCompactorMovesOneBlockAtATime := by
  refine ⟨theCompactorBeginsOnTheCheapestCore, theCompactorMovesASettledBlock, ?_⟩
  intro s lk stage bk l r b y new hl hr hm hb hrise hspad hacc hcregs hold hnew
  obtain ⟨core, _, hmem⟩ := State.mem_of_movingOn hm
  have hfind := AMap.find?_of_mem hrise (State.mem_coreBlocks.1 hmem).1
  exact ⟨_, exec_compactorMove_moving hl hr hm hb, State.endMove_leaves hfind hspad hacc hcregs hold hnew⟩

end Sys2Proof.Machine
end

section
/-! The placer (02 R25; 08 R199, R200). -/

namespace Sys2Proof.Machine

open Sys2Proof.Safety Sys2Proof.Claims

/-! What placing a block changes of the tables. -/

theorem State.loadDrawn_tables (s : State) (bk gid core base regs : Nat) (lanes : AMap Nat) :
    SameTables s (s.loadDrawn bk gid core base regs lanes) := by
  unfold State.loadDrawn
  refine SameTables.foldl ?_ _ _
  exact fun t e => ⟨rfl, rfl, rfl⟩

theorem State.placeInLanes_tables (s : State) (b : Block) (regs pc : Nat) (gks ts : List Nat) :
    SameTables s (s.placeInLanes b regs pc gks ts) := by
  induction gks generalizing s ts with
  | nil => exact .refl s
  | cons gk gks ih =>
    rw [State.placeInLanes]
    split
    · exact ih s ts
    · dsimp only
      refine SameTables.trans ?_ ((State.loadDrawn_tables ..).trans (ih _ _))
      split
      · exact .refl s
      · exact ⟨rfl, rfl, rfl⟩

theorem State.drawBobbin_tables (s : State) (k : Nat) : SameTables s (s.drawBobbin k) := by
  unfold State.drawBobbin
  split
  · exact .refl s
  · split
    · exact .refl s
    · split
      · exact .refl s
      · dsimp only
        split
        · refine SameTables.trans ?_ (State.loadDrawn_tables ..)
          exact ⟨rfl, rfl, rfl⟩
        · exact SameTables.trans (t := { s with bobbins := AMap.del s.bobbins k }) ⟨rfl, rfl, rfl⟩
            (State.placeInLanes_tables ..)

theorem State.restoreBobbins_tables (s : State) (core : Nat) (xs : List Bobbin) :
    SameTables s (s.restoreBobbins core xs) := by
  induction xs generalizing s with
  | nil => exact .refl s
  | cons x xs ih =>
    rw [State.restoreBobbins]
    split
    · refine SameTables.trans ?_ (ih _)
      exact ⟨rfl, rfl, rfl⟩
    · refine SameTables.trans ?_ ((State.drawBobbin_tables _ (2 ^ 20)).trans (ih _))
      exact ⟨rfl, rfl, rfl⟩

/-- A block on a core of which the table has been given a new entry. -/
structure PlacedAt (s t : State) (key core : Nat) : Prop where
  blocks : ∃ b : Block, t.blocks = AMap.put s.blocks key b ∧ b.core = core ∧ b.onCore = true
  launches : t.launches = s.launches
  images : t.images = s.images

/-- A block that has halted (13 R287). -/
def Block.haltedBy (b : Block) (r : StopReq) : Block :=
  { b with st := if b.fault.isSome then .frozen else if r.resume then .resident else .halted, stop := none
           everHalted := true }

theorem State.halt_placed {s t : State} {bk core : Nat} {new : Block} (l : Launch) (r : StopReq)
    (ht : t.blocks = AMap.put s.blocks bk new) (hl : t.launches = s.launches) (hi : t.images = s.images)
    (hcore : new.core = core) (hsaved : new.saved = none) : PlacedAt s (t.halt bk new l r) bk core := by
  obtain ⟨u, ⟨ub, ul, ui⟩, hu⟩ := t.halt_eq bk new l r
  rw [hu]
  refine ⟨⟨new.haltedBy r, ?_, hcore, ?_⟩, ul.trans hl, ui.trans hi⟩
  · change AMap.upd u.blocks bk _ = _
    rw [ub, ht, AMap.upd, AMap.find?_put_same]
    exact AMap.put_put ..
  · unfold Block.onCore Block.haltedBy
    rw [hsaved]
    dsimp only
    split
    · rfl
    · split <;> rfl

theorem State.acquired_tables (s : State) (core : Nat) (x : Stage) (a b c : Nat) :
    SameTables s ((s.acquireCaches core .device).clearStorage core x a b c) :=
  SameTables.trans (.of_storage (storage_acquireCaches s core .device)) ⟨rfl, rfl, rfl⟩

theorem State.startBlock_placed (s : State) (lk : Nat) (l : Launch) (stage linear core : Nat) (at_ : Nat × Nat × Nat) :
    PlacedAt s (s.startBlock lk l stage linear core at_) (blockKey l stage linear) core := by
  obtain ⟨hb, hl, hi⟩ := s.acquired_tables core (s.stageOf { launch := lk, stage, linear } l) at_.1 at_.2.1 at_.2.2
  exact ⟨⟨_, congrArg (fun m => AMap.put m (blockKey l stage linear) _) hb, rfl, rfl⟩, hl, hi⟩

theorem State.resumeBlock_placed (s : State) (bk : Nat) (b : Block) (l : Launch) (core : Nat) (at_ : Nat × Nat × Nat) :
    PlacedAt s (s.resumeBlock bk b l core at_) bk core := by
  obtain ⟨hb, hl, hi⟩ := s.acquired_tables core (s.stageOf b l) at_.1 at_.2.1 at_.2.2
  unfold State.resumeBlock
  dsimp only
  split
  · refine State.halt_placed l _ ?_ ((State.restoreBobbins_tables ..).2.1.trans hl)
      ((State.restoreBobbins_tables ..).2.2.trans hi) rfl rfl
    exact (State.restoreBobbins_tables ..).1.trans (congrArg (fun m => AMap.put m bk _) hb)
  · refine ⟨⟨_, (State.restoreBobbins_tables ..).1.trans (congrArg (fun m => AMap.put m bk _) hb), rfl, ?_⟩,
      (State.restoreBobbins_tables ..).2.1.trans hl, (State.restoreBobbins_tables ..).2.2.trans hi⟩
    unfold Block.onCore
    dsimp only
    split
    · rfl
    · split <;> rfl

theorem State.placeOn_placed (s : State) (lk : Nat) (l : Launch) (stage linear core : Nat) (at_ : Nat × Nat × Nat) :
    PlacedAt s (s.placeOn lk l stage linear core at_) (blockKey l stage linear) core := by
  unfold State.placeOn
  split
  · exact State.resumeBlock_placed ..
  · exact State.startBlock_placed ..

/-! A block that is placed takes nothing from the other cores. -/

theorem AMap.filterMap_put {α β : Type} {f : Nat × α → Option β} {n : Nat} {v : α} {m : AMap α} (hv : f (n, v) = none)
    (hold : ∀ w, AMap.find? m n = some w → f (n, w) = none) : (AMap.put m n v).filterMap f = m.filterMap f := by
  induction m with
  | nil => simp [AMap.put, hv]
  | cons e m ih =>
    obtain ⟨k, x⟩ := e
    rw [AMap.put]
    split
    · next hk =>
      subst hk
      rw [List.filterMap_cons_none hv, List.filterMap_cons_none (hold x (by rw [AMap.find?, if_pos rfl]))]
    · next hk =>
      split
      · rw [List.filterMap_cons_none hv]
      · rw [List.filterMap_cons, List.filterMap_cons, ih fun w hw => hold w (by rw [AMap.find?, if_neg hk, hw])]

theorem PlacedAt.coreBlocks {s t : State} {key core c : Nat} (h : PlacedAt s t key core) (hc : c ≠ core)
    (hold : ∀ b, AMap.find? s.blocks key = some b → b.onCore = false) : t.coreBlocks c = s.coreBlocks c := by
  obtain ⟨⟨b, hblocks, hcore, _⟩, hl, hi⟩ := h
  have himg : ∀ l, t.imageBytes l = s.imageBytes l := fun l => by unfold State.imageBytes; rw [hi]
  unfold State.coreBlocks State.stageOf
  simp only [himg, hl, hblocks]
  refine AMap.filterMap_put (if_neg fun h => hc (h.1.symm.trans hcore)) fun w hw => if_neg fun h => ?_
  rw [hold w hw] at h
  exact Bool.false_ne_true h.2

theorem State.fits_congr {s t : State} {c : Nat} (x : Stage) (h : t.coreBlocks c = s.coreBlocks c) :
    t.fits c x = s.fits c x := by
  unfold State.fits
  rw [h]

theorem PlacedAt.find?_other {s t : State} {key core k : Nat} (h : PlacedAt s t key core) (hk : k ≠ key) :
    AMap.find? t.blocks k = AMap.find? s.blocks k := by
  obtain ⟨⟨b, hblocks, _, _⟩, _, _⟩ := h
  rw [hblocks, AMap.find?_put_other _ _ hk]

theorem PlacedAt.find?_same {s t : State} {key core : Nat} (h : PlacedAt s t key core) :
    ∃ b, AMap.find? t.blocks key = some b ∧ b.core = core ∧ b.onCore = true := by
  obtain ⟨⟨b, hblocks, hcore, hon⟩, _, _⟩ := h
  exact ⟨b, by rw [hblocks, AMap.find?_put_same], hcore, hon⟩

/-! A quad is placed, member by member. -/

/-- One member of a quad is put on its core, unless it has retired (08 R200). -/
def State.placeMember (lk : Nat) (l : Launch) (stage first k : Nat) (x : Stage) (s : State) (q : Nat) : State :=
  match s.fits (4 * k + q) x with
  | some a => if s.retiredAt l stage (first + q) then s else s.placeOn lk l stage (first + q) (4 * k + q) a
  | none => s

theorem State.retiredAt_congr {s t : State} {l : Launch} {stage linear : Nat}
    (h : AMap.find? t.blocks (blockKey l stage linear) = AMap.find? s.blocks (blockKey l stage linear)) :
    t.retiredAt l stage linear = s.retiredAt l stage linear := by
  unfold State.retiredAt
  rw [h]

theorem blockKey_inj {l : Launch} {stage first q q' : Nat} :
    blockKey l stage (first + q) = blockKey l stage (first + q') ↔ q = q' := by
  unfold blockKey
  omega

/-- What the placing of a quad makes of one member: it stays retired, or stands on its core. -/
def MemberPlaced (l : Launch) (stage first k : Nat) (s t : State) (q : Nat) : Prop :=
  (s.retiredAt l stage (first + q) = true →
    AMap.find? t.blocks (blockKey l stage (first + q)) = AMap.find? s.blocks (blockKey l stage (first + q))) ∧
  (s.retiredAt l stage (first + q) = false →
    ∃ b, AMap.find? t.blocks (blockKey l stage (first + q)) = some b ∧ b.core = 4 * k + q ∧ b.onCore = true)

theorem State.placeMember_fold {lk : Nat} {l : Launch} {stage first k : Nat} {x : Stage} {qs : List Nat} (hqs : qs.Nodup)
    {s : State} (hfits : ∀ q ∈ qs, (s.fits (4 * k + q) x).isSome = true)
    (hoff : ∀ q ∈ qs, ∀ b, AMap.find? s.blocks (blockKey l stage (first + q)) = some b → b.onCore = false) :
    (∀ key, (∀ q ∈ qs, key ≠ blockKey l stage (first + q)) →
      AMap.find? (qs.foldl (State.placeMember lk l stage first k x) s).blocks key = AMap.find? s.blocks key) ∧
    ∀ q ∈ qs, MemberPlaced l stage first k s (qs.foldl (State.placeMember lk l stage first k x) s) q := by
  induction qs generalizing s with
  | nil => exact ⟨fun _ _ => rfl, fun _ h => nomatch h⟩
  | cons p qs ih =>
    obtain ⟨hp, hqs⟩ := List.nodup_cons.1 hqs
    obtain ⟨a, ha⟩ := Option.isSome_iff_exists.1 (hfits p List.mem_cons_self)
    have hne : ∀ q ∈ qs, q ≠ p := fun q hq h => hp (h ▸ hq)
    have hpkey : ∀ q ∈ qs, blockKey l stage (first + p) ≠ blockKey l stage (first + q) :=
      fun q hq h => hne q hq (blockKey_inj.1 h).symm
    rw [List.foldl_cons]
    cases hret : s.retiredAt l stage (first + p) with
    | true =>
      have hstep : State.placeMember lk l stage first k x s p = s := by
        unfold State.placeMember
        rw [ha]
        exact if_pos hret
      rw [hstep]
      obtain ⟨others, members⟩ := ih hqs (fun q hq => hfits q (List.mem_cons_of_mem _ hq))
        fun q hq => hoff q (List.mem_cons_of_mem _ hq)
      refine ⟨fun key hkey => others key fun q hq => hkey q (List.mem_cons_of_mem _ hq), fun q hq => ?_⟩
      rcases List.mem_cons.1 hq with rfl | hq
      · exact ⟨fun _ => others _ hpkey, fun h => absurd (hret.symm.trans h) (by decide)⟩
      · exact members q hq
    | false =>
      have hstep : State.placeMember lk l stage first k x s p = s.placeOn lk l stage (first + p) (4 * k + p) a := by
        unfold State.placeMember
        rw [ha]
        exact if_neg (by rw [hret]; exact Bool.false_ne_true)
      have hplaced := s.placeOn_placed lk l stage (first + p) (4 * k + p) a
      rw [hstep]
      generalize s.placeOn lk l stage (first + p) (4 * k + p) a = t at hplaced
      have hsame : ∀ q ∈ qs, AMap.find? t.blocks (blockKey l stage (first + q)) =
          AMap.find? s.blocks (blockKey l stage (first + q)) := fun q hq => hplaced.find?_other (Ne.symm (hpkey q hq))
      have htfits : ∀ q ∈ qs, t.fits (4 * k + q) x = s.fits (4 * k + q) x := fun q hq =>
        State.fits_congr x (hplaced.coreBlocks (by have := hne q hq; omega) (hoff p List.mem_cons_self))
      obtain ⟨others, members⟩ := ih hqs (s := t)
        (fun q hq => by rw [htfits q hq]; exact hfits q (List.mem_cons_of_mem _ hq))
        (fun q hq b hb => hoff q (List.mem_cons_of_mem _ hq) b (by rw [← hsame q hq, hb]))
      refine ⟨fun key hkey => ?_, fun q hq => ?_⟩
      · rw [others key fun q hq => hkey q (List.mem_cons_of_mem _ hq)]
        exact hplaced.find?_other (hkey p List.mem_cons_self)
      · rcases List.mem_cons.1 hq with rfl | hq
        · refine ⟨fun h => absurd (hret.symm.trans h) (by decide), fun _ => ?_⟩
          rw [others _ hpkey]
          exact hplaced.find?_same
        · obtain ⟨stays, goes⟩ := members q hq
          rw [State.retiredAt_congr (hsame q hq)] at stays goes
          exact ⟨fun h => (stays h).trans (hsame q hq), goes⟩

/-! The first of a list that may be taken. -/

theorem fromOn_pairwise {l : List Nat} (h : l.Pairwise fun c d => c < d) (n : Nat) : (fromOn l n).Pairwise (Sooner n) := by
  refine List.pairwise_append.2 ⟨?_, ?_, fun a ha b hb => ?_⟩
  · refine (h.filter _).imp_of_mem fun ha _ hlt => .inl ⟨by simpa using (List.mem_filter.1 ha).2, .inr hlt⟩
  · refine (h.filter _).imp_of_mem fun ha hb hlt => .inr ⟨?_, ?_, hlt⟩
    · simpa using (List.mem_filter.1 ha).2
    · simpa using (List.mem_filter.1 hb).2
  · exact .inl ⟨by simpa using (List.mem_filter.1 ha).2, .inl (by simpa using (List.mem_filter.1 hb).2)⟩

theorem findSome?_of_pairwise {α β : Type} {R : α → α → Prop} {f : α → Option β} {l : List α} (hl : l.Pairwise R) {a : α}
    (ha : a ∈ l) {v : β} (hv : f a = some v) (hfirst : ∀ c ∈ l, R c a → f c = none) : l.findSome? f = some v := by
  induction l with
  | nil => cases ha
  | cons b l ih =>
    obtain ⟨hb, hl⟩ := List.pairwise_cons.1 hl
    rcases List.mem_cons.1 ha with rfl | hal
    · rw [List.findSome?_cons_of_isSome (by rw [hv]; rfl), hv]
    · rw [List.findSome?_cons_of_isNone (by rw [hfirst b List.mem_cons_self (hb a hal)]; rfl)]
      exact ih hl hal fun c hc => hfirst c (List.mem_cons_of_mem _ hc)

theorem State.coreFor_eq_some {s : State} {r : StageRun} {x : Stage} {core : Nat} {a : Nat × Nat × Nat}
    (hcore : core ∈ r.cores) (hsorted : r.cores.Pairwise fun c d => c < d) (ha : s.fits core x = some a)
    (hfirst : ∀ c ∈ r.cores, Sooner r.pointer c core → s.fits c x = none) : s.coreFor r x = some (core, a) := by
  refine findSome?_of_pairwise (fromOn_pairwise hsorted r.pointer) (mem_fromOn.2 hcore) (by rw [ha]; rfl) fun c hc hs => ?_
  rw [hfirst c (mem_fromOn.1 hc) hs]
  rfl

/-! BLOCK_PLACE. -/

theorem exec_blockPlace {s u : State} {lk : Nat} {l : Launch} (stage : Nat) (hl : AMap.find? s.launches lk = some l)
    (hu : u = if s.lacksCores l then (s.demandCores l).resumeLaunch lk else s) :
    exec (.blockPlace lk stage) s = .next (u.placeNext lk stage) := by
  change execBlockPlace lk stage s = _
  unfold execBlockPlace
  rw [hl, hu]
  dsimp only
  split <;> rfl

theorem State.nextBlock_none {s : State} {l : Launch} {stage : Nat} {r : StageRun} (hold : s.evictedOf l stage = [])
    (hnone : (stageAt (s.imageBytes l) stage).blocks ≤ r.nextPending) : s.nextBlock l stage r = none := by
  unfold State.nextBlock
  rw [hold]
  exact if_neg (Nat.not_lt.2 hnone)

theorem State.nextBlock_some {s : State} {l : Launch} {stage i : Nat} {new : Bool} {r : StageRun}
    (h : (new = false ∧ (s.evictedOf l stage).head? = some i) ∨ (new = true ∧ s.evictedOf l stage = [] ∧
      i = r.nextPending ∧ i < (stageAt (s.imageBytes l) stage).blocks)) : s.nextBlock l stage r = some (i, new) := by
  unfold State.nextBlock
  obtain ⟨rfl, hhead⟩ | ⟨rfl, hold, rfl, hlt⟩ := h
  · obtain ⟨is, his⟩ := List.head?_eq_some_iff.1 hhead
    rw [his]
  · rw [hold]
    exact if_pos hlt

/-- The placer of a stage whose launch issues, by its next block. -/
theorem State.placeNext_eq {s : State} {lk stage : Nat} {l : Launch} {r : StageRun}
    (hl : AMap.find? s.launches lk = some l) (hr : l.stages[stage]? = some r) (hissues : l.issues = true)
    (hd : l.descheduled = false) :
    let x := stageAt (s.imageBytes l) stage
    (s.nextBlock l stage r = none → s.placeNext lk stage = s) ∧
    ∀ i new, s.nextBlock l stage r = some (i, new) →
      (x.quad = false → (s.coreFor r x = none → s.placeNext lk stage = s) ∧
        ∀ core a, s.coreFor r x = some (core, a) →
          s.placeNext lk stage = (s.placeOn lk l stage i core a).updStage lk stage fun r =>
            { r with pointer := core + 1, nextPending := r.nextPending + if new then 1 else 0 }) ∧
      (x.quad = true → (s.clusterFor r x = none → s.placeNext lk stage = s) ∧
        ∀ k, s.clusterFor r x = some k → s.placeNext lk stage =
          ((span 0 4).foldl (State.placeMember lk l stage (i / 4 * 4) k x) s).updStage lk stage fun r =>
            { r with pointer := k + 1, nextPending := r.nextPending + if new then 4 else 0 }) := by
  intro x
  unfold State.placeNext
  rw [hl]
  dsimp only
  rw [hr]
  dsimp only
  rw [if_neg (by simp [hissues, hd])]
  refine ⟨fun h => by rw [h], fun i new h => ?_⟩
  rw [h]
  refine ⟨fun hq => ?_, fun hq => ?_⟩
  · dsimp only
    rw [if_neg (by rw [hq]; exact Bool.false_ne_true)]
    exact ⟨fun hc => by rw [hc], fun core a hc => by rw [hc]⟩
  · dsimp only
    rw [if_pos hq]
    exact ⟨fun hc => by rw [hc], fun k hc => by rw [hc]; rfl⟩

theorem thePlacerTakesTheFirstCoreFromItsPointer : ThePlacerTakesTheFirstCoreFromItsPointer := by
  intro s lk stage i new l m r hl u hm hr hissues hd x old
  have hexec := exec_blockPlace stage hl (u := u) rfl
  obtain ⟨rests, places⟩ := State.placeNext_eq hm hr hissues hd
  refine ⟨fun hold hx => by rw [hexec, rests (State.nextBlock_none hold hx)], fun hi => ?_⟩
  obtain ⟨single, quad⟩ := places i new (State.nextBlock_some hi)
  refine ⟨fun hq => ⟨fun hnone => ?_, fun core a hcore hsorted ha hfirst => ?_⟩, fun hq => ⟨fun hnone => ?_, fun k hk hoff => ?_⟩⟩
  · rw [hexec, (single hq).1 (State.coreFor_eq_none.2 hnone)]
  · rw [hexec, (single hq).2 core a (State.coreFor_eq_some hcore hsorted ha hfirst)]
  · rw [hexec, (quad hq).1 hnone]
  · refine ⟨_, by rw [hexec, (quad hq).2 k hk], ?_⟩
    have hspan : ∀ q, q ∈ span 0 4 ↔ q < 4 := fun q => by rw [mem_span]; omega
    have hfits : ∀ q ∈ span 0 4, (u.fits (4 * k + q) x).isSome = true := by
      intro q hq
      have hall := List.find?_some hk
      rw [List.all_eq_true] at hall
      exact hall _ ((mem_span (4 * k) 4 _).2 (by have := (hspan q).1 hq; omega))
    obtain ⟨_, members⟩ := State.placeMember_fold (lk := lk) (by decide) hfits fun q hq => hoff q ((hspan q).1 hq)
    exact fun q hq => members q ((hspan q).2 hq)

/-- Settles O40: what the buddy allocators grant is apart from what is used (`buddyAlloc_free`); the placer and the
compactor take the first, or the cheapest, of a list; a member of a quad that is placed takes no room on the cores of the
others (`PlacedAt.coreBlocks`); a move takes storage out of its old place and puts it into the new one
(`Cells.get_paste_slice`). -/
theorem blocksArePlacedOnTheFirstCoreThatFits : Obligations.BlocksArePlacedOnTheFirstCoreThatFits :=
  ⟨thePlacerTakesTheFirstCoreFromItsPointer, theCompactorMovesOneBlockAtATime, grantedRangesAreFree⟩

end Sys2Proof.Machine
end

section
/-! Drafts: made, judged by their windows, made again, exchanged with peers, and given to the drafting cores (03 R73 to
R77). -/

namespace Sys2Proof.Machine

open Sys2Proof.Safety Sys2Proof.Claims

/-- The first element that passes a test leads the list of those that pass it. -/
theorem filter_eq_nil_of_find?_none {α : Type} {p : α → Bool} {l : List α} (h : l.find? p = none) : l.filter p = [] :=
  List.filter_eq_nil_iff.2 (List.find?_eq_none.1 h)

theorem filter_head_of_find?_some {α : Type} {p : α → Bool} {l : List α} {a : α} (h : l.find? p = some a) :
    ∃ as, l.filter p = a :: as := by
  rw [← List.head?_filter] at h
  exact List.head?_eq_some_iff.1 h

/-! The events, each as its row says. -/

/-- A draft that a core has finished: its next generation with fresh counters, or the first that is there (03 R74). -/
theorem exec_draftCreate_of_some {s : State} {slot : Nat} {e : Nat × Draft}
    (h : List.find? (fun e : Nat × Draft => e.2.core == some slot) s.drafts = some e) :
    exec (.draftCreate slot) s = .next (s.updDraft e.1 fun d =>
      if d.ready then { d.installed (d.gen + 1) s.cycle with profiles := [], windows := [] }
      else d.installed d.gen s.cycle).assignDrafting := by
  obtain ⟨es, hes⟩ := filter_head_of_find?_some h
  change execDraftCreate slot s = _
  unfold execDraftCreate
  rw [hes]

/-- What a finished draft becomes: the one that was there stays ready (03 R74, R75). -/
theorem Draft.finished_eq (now : Nat) : (fun d : Draft =>
      if d.ready then { d.installed (d.gen + 1) now with profiles := [], windows := [] } else d.installed d.gen now) =
    fun d => if d.ready then
        { d with core := none, gen := d.gen + 1, signature := signedAs d (d.gen + 1), installedAt := now, profiles := []
                 windows := [] }
      else { d with core := none, ready := true, signature := signedAs d d.gen, installedAt := now } := by
  funext d
  split
  · next hr => simp [Draft.installed, signedAs, hr]
  · rfl

theorem draftCreate_happens {slot : Nat} {e : Event} (h : draftEvent (.draftCreate slot) = some e) :
    EventHappens (.draftCreate slot) e := by
  cases h
  intro s
  dsimp only
  cases hf : List.find? (fun e : Nat × Draft => e.2.core == some slot) s.drafts with
  | none =>
    refine ⟨fun ⟨e, he, hc⟩ => absurd (List.find?_eq_none.1 hf e he) (by simp [hc]), fun _ => ?_⟩
    change execDraftCreate slot s = _
    unfold execDraftCreate
    rw [filter_eq_nil_of_find?_none hf]
  | some e =>
    refine ⟨fun _ => ?_, fun hn => absurd ⟨e, List.mem_of_find?_eq_some hf, ?_⟩ hn⟩
    · rw [exec_draftCreate_of_some hf, Draft.finished_eq]
      rfl
    · simpa using List.find?_some hf

theorem peerDraftRequest_happens {r : DraftRequest} {e : Event} (h : draftEvent (.peerDraftRequest r) = some e) :
    EventHappens (.peerDraftRequest r) e := by
  cases h
  intro s
  dsimp only
  change (_ → execPeerDraftRequest r s = _) ∧ (_ → execPeerDraftRequest r s = _)
  have answered : (r.chainOk && (s.drafts.any fun (e : Nat × Draft) =>
        leNat e.2.key == r.key && e.2.ready && !e.2.native && e.2.imageKey == r.imageKey) && s.life == .deployed) = true ↔
      r.chainOk = true ∧ s.life = .deployed ∧ ∃ e ∈ s.drafts, leNat e.2.key = r.key ∧
          e.2.ready = true ∧ e.2.native = false ∧ e.2.imageKey = r.imageKey := by
    simp only [Bool.and_eq_true, List.any_eq_true, beq_iff_eq, Bool.not_eq_true', and_assoc]
    exact and_congr_right fun _ => And.comm
  unfold execPeerDraftRequest
  dsimp only
  exact ⟨fun hd => by rw [if_pos (answered.2 hd)], fun hn => by rw [if_neg fun ha => hn (answered.1 ha)]⟩

/-- A fetched draft for which one is missing: installed when its checks pass, else discarded (03 R76). -/
theorem exec_peerDraftReceive_of_some {s : State} {r : DraftAnswer} {e : Nat × Draft}
    (h : List.find? (fun e : Nat × Draft => leNat e.2.key == r.key && !e.2.ready) s.drafts = some e) :
    exec (.peerDraftReceive r) s = .next (if r.chainOk && r.signatureOk && r.keyMatches then
      (s.updDraft e.1 fun d => { d.installed (r.generation % 16) s.cycle with waits := none }).assignDrafting
      else s) := by
  obtain ⟨es, hes⟩ := filter_head_of_find?_some h
  change execPeerDraftReceive r s = _
  unfold execPeerDraftReceive
  rw [hes]

theorem peerDraftReceive_happens {r : DraftAnswer} {e : Event} (h : draftEvent (.peerDraftReceive r) = some e) :
    EventHappens (.peerDraftReceive r) e := by
  cases h
  intro s
  dsimp only
  cases hf : List.find? (fun e : Nat × Draft => leNat e.2.key == r.key && !e.2.ready) s.drafts with
  | none =>
    refine ⟨fun ⟨_, _, _, e, he, hk, hr⟩ => absurd (List.find?_eq_none.1 hf e he) (by simp [hk, hr]), fun _ => ?_⟩
    change execPeerDraftReceive r s = _
    unfold execPeerDraftReceive
    rw [filter_eq_nil_of_find?_none hf]
  | some e =>
    rw [exec_peerDraftReceive_of_some hf]
    refine ⟨fun ⟨hc, hs, hk, _⟩ => ?_, fun hn => ?_⟩
    · rw [if_pos (by simp [hc, hs, hk])]
      rfl
    · rw [if_neg]
      intro hall
      simp only [Bool.and_eq_true, and_assoc] at hall
      obtain ⟨hc, hs, hk⟩ := hall
      exact hn ⟨hc, hs, hk, e, List.mem_of_find?_eq_some hf, by simpa using List.find?_some hf⟩

/-- A field of one bit is one when that bit is set. -/
theorem drfEn_eq_getLsbD (x : Word) : drfEn x = x.getLsbD 0 := bitsOf_one_eq_getLsbD x 0

theorem Window.triggers_eq_windowFires (w : Window) (x : Word) : w.triggers x = windowFires w x := by
  rw [Bool.eq_iff_iff]
  simp only [Window.triggers, windowFires, Bool.or_eq_true, Bool.and_eq_true, decide_eq_true_eq, bne_iff_ne]
  rfl

theorem profileWindowJudge_happens {k record : Nat} {e : Event} (h : draftEvent (.profileWindowJudge k record) = some e) :
    EventHappens (.profileWindowJudge k record) e := by
  cases h
  intro s
  dsimp only
  change (_ → execProfileWindowJudge k record s = _) ∧ (_ → execProfileWindowJudge k record s = _)
  unfold execProfileWindowJudge
  cases hd : AMap.find? s.drafts k with
  | none => exact ⟨fun ⟨_, _, h, _⟩ => (nomatch h), fun _ => rfl⟩
  | some d =>
    dsimp only
    cases hw : s.judgeable k record d with
    | none => exact ⟨fun ⟨d', w, h, hj⟩ => by cases h; exact (nomatch hw.symm.trans hj), fun _ => rfl⟩
    | some w =>
      refine ⟨fun _ => ?_, fun hn => absurd ⟨d, w, rfl, hw⟩ hn⟩
      dsimp only
      rw [drfEn_eq_getLsbD, Window.triggers_eq_windowFires]
      rfl

theorem State.mayRedraft_iff (s : State) (d : Draft) : s.mayRedraft d = true ↔
    d.triggered = true ∧ d.ready = true ∧ d.native = false ∧ d.core = none ∧ d.waits = none ∧ d.gen < 15 ∧
      d.installedAt + 10500000 ≤ s.cycle := by
  simp only [State.mayRedraft, Bool.and_eq_true, Bool.not_eq_true', Option.isNone_iff_eq_none, decide_eq_true_eq, and_assoc]
  rfl

theorem redraft_happens {k : Nat} {e : Event} (h : draftEvent (.redraft k) = some e) : EventHappens (.redraft k) e := by
  cases h
  intro s
  dsimp only
  change (_ → execRedraft k s = _) ∧ (_ → execRedraft k s = _)
  unfold execRedraft
  cases hd : AMap.find? s.drafts k with
  | none => exact ⟨fun ⟨_, h, _⟩ => (nomatch h), fun _ => rfl⟩
  | some d =>
    dsimp only
    refine ⟨fun ⟨d', h, hm⟩ => ?_, fun hn => ?_⟩
    · cases h
      rw [if_pos ((State.mayRedraft_iff s d).2 hm)]
      rfl
    · rw [if_neg fun hm => hn ⟨d, rfl, (State.mayRedraft_iff s d).1 hm⟩]

theorem draftEvents_happen : Happens draftEvent := by
  intro i e s h
  unfold draftEvent at h
  split at h
  case h_1 => exact draftCreate_happens h s
  case h_2 => exact peerDraftRequest_happens h s
  case h_3 => exact peerDraftReceive_happens h s
  case h_4 => exact profileWindowJudge_happens h s
  case h_5 => exact redraft_happens h s
  case h_6 => cases h

/-! The drafting cores. -/

/-- The draft that has waited longest, of those that wait (03 R77). -/
def longestWaiting (m : AMap Draft) : Option (Nat × Draft) :=
  match m.filter fun e => e.2.waits.isSome with
  | [] => none
  | e :: es => some (es.foldl (fun m x => if x.2.waits.getD 0 < m.2.waits.getD 0 then x else m) e)

/-- One drafting core takes a draft, if it is free. -/
def State.assignCore (t : State) (core : Nat) : State :=
  if t.drafts.any fun e => e.2.core == some core then t
  else
    match longestWaiting t.drafts with
    | none => t
    | some o => { t with drafts := AMap.upd t.drafts o.1 fun d => { d with core := some core, waits := none } }

theorem State.assignDrafting_eq (s : State) : s.assignDrafting = (span 0 8).foldl State.assignCore s := by
  unfold State.assignDrafting
  congr 1
  funext t core
  unfold State.assignCore longestWaiting
  split
  · rfl
  · cases t.drafts.filter fun e => e.2.waits.isSome <;> rfl

/-- What is taken waits, and no draft has waited longer. -/
theorem longestWaiting_some {m : AMap Draft} {o : Nat × Draft} (h : longestWaiting m = some o) :
    o ∈ m ∧ o.2.waits.isSome = true ∧ ∀ e ∈ m, e.2.waits.isSome = true → o.2.waits.getD 0 ≤ e.2.waits.getD 0 := by
  unfold longestWaiting at h
  split at h
  · cases h
  · next e es hes =>
    cases h
    have hmem := foldl_pick_mem (r := fun x y : Nat × Draft => decide (x.2.waits.getD 0 < y.2.waits.getD 0)) e es
    have hle := foldl_pick_le (r := fun x y : Nat × Draft => decide (x.2.waits.getD 0 < y.2.waits.getD 0))
      (le := fun x y => x.2.waits.getD 0 ≤ y.2.waits.getD 0) (fun _ => Nat.le_refl _) (fun _ _ _ => Nat.le_trans)
      (fun _ _ hlt => Nat.le_of_lt (of_decide_eq_true hlt)) (fun _ _ hlt => Nat.le_of_not_lt (of_decide_eq_false hlt)) e es
    simp only [decide_eq_true_eq] at hmem hle
    rw [← hes] at hmem hle
    obtain ⟨ho, hw⟩ := List.mem_filter.1 hmem
    exact ⟨ho, hw, fun f hf hfw => hle f (List.mem_filter.2 ⟨hf, hfw⟩)⟩

theorem longestWaiting_of_least {m : AMap Draft} {e : Nat × Draft} {w : Nat} (he : e ∈ m) (hw : e.2.waits = some w)
    (hleast : ∀ f ∈ m, ∀ v, f.2.waits = some v → f ≠ e → w < v) : longestWaiting m = some e := by
  cases h : longestWaiting m with
  | none =>
    unfold longestWaiting at h
    split at h
    · next hnil => exact absurd (List.filter_eq_nil_iff.1 hnil e he) (by simp [hw])
    · cases h
  | some o =>
    obtain ⟨ho, hsome, hle⟩ := longestWaiting_some h
    obtain ⟨v, hv⟩ := Option.isSome_iff_exists.1 hsome
    have hvw := hle e he (by simp [hw])
    simp only [hv, hw, Option.getD_some] at hvw
    by_cases hoe : o = e
    · rw [hoe]
    · exact absurd (hleast o ho v hv hoe) (by omega)

theorem State.assignCore_busy {t : State} {core : Nat} (h : ∃ e ∈ t.drafts, e.2.core = some core) :
    t.assignCore core = t := by
  obtain ⟨e, he, hc⟩ := h
  exact if_pos (List.any_eq_true.2 ⟨e, he, by simp [hc]⟩)

theorem State.assignCore_free {t : State} {core : Nat} {o : Nat × Draft} (h : ∀ e ∈ t.drafts, e.2.core ≠ some core)
    (ho : longestWaiting t.drafts = some o) : t.assignCore core =
      { t with drafts := AMap.upd t.drafts o.1 fun d => { d with core := some core, waits := none } } := by
  unfold State.assignCore
  rw [if_neg (by simpa using h), ho]

/-- A draft on which a core works stays as it is when other cores take theirs. -/
theorem State.assignCore_keeps {t : State} {k core : Nat} {d : Draft} (hr : AMap.rising t.drafts = true)
    (hd : AMap.find? t.drafts k = some d) (hw : d.waits = none) :
    AMap.rising (t.assignCore core).drafts = true ∧ AMap.find? (t.assignCore core).drafts k = some d := by
  unfold State.assignCore
  split
  · exact ⟨hr, hd⟩
  · split
    · exact ⟨hr, hd⟩
    · next o ho =>
      obtain ⟨hmem, hsome, -⟩ := longestWaiting_some ho
      have hne : k ≠ o.1 := by
        rintro rfl
        rw [AMap.find?_of_mem hr hmem] at hd
        cases hd
        rw [hw] at hsome
        cases hsome
      exact ⟨AMap.rising_upd _ _ hr, (AMap.find?_upd_other _ _ hne).trans hd⟩

theorem State.assignCores_keep (cores : List Nat) {t : State} {k : Nat} {d : Draft} (hr : AMap.rising t.drafts = true)
    (hd : AMap.find? t.drafts k = some d) (hw : d.waits = none) :
    AMap.find? (cores.foldl State.assignCore t).drafts k = some d := by
  induction cores generalizing t with
  | nil => exact hd
  | cons core cores ih =>
    obtain ⟨hr', hd'⟩ := State.assignCore_keeps (core := core) hr hd hw
    exact ih hr' hd'

theorem State.assignCores_busy {cores : List Nat} {t : State} (h : ∀ c ∈ cores, ∃ e ∈ t.drafts, e.2.core = some c) :
    cores.foldl State.assignCore t = t := by
  induction cores with
  | nil => rfl
  | cons c cores ih =>
    rw [List.foldl_cons, State.assignCore_busy (h c List.mem_cons_self)]
    exact ih fun x hx => h x (List.mem_cons_of_mem _ hx)

theorem span_split (lo n m : Nat) : span lo (n + m) = span lo n ++ span (lo + n) m := by
  induction n generalizing lo with
  | zero => simp [span]
  | succ n ih => rw [Nat.succ_add, span, span, ih (lo + 1), List.cons_append, Nat.add_right_comm lo 1 n, Nat.add_assoc lo n 1]

/-- The first drafting core that is free takes the draft that has waited longest (03 R77). -/
theorem theFirstFreeCoreTakesTheLongestWaiting {s : State} {core : Nat} (hcore : core < 8)
    (hfree : ∀ e ∈ s.drafts, e.2.core ≠ some core) (hr : AMap.rising s.drafts = true)
    (hbusy : ∀ c < core, ∃ e ∈ s.drafts, e.2.core = some c) {e : Nat × Draft} (he : e ∈ s.drafts) {w : Nat}
    (hw : e.2.waits = some w) (hleast : ∀ f ∈ s.drafts, ∀ v, f.2.waits = some v → f ≠ e → w < v) :
    ∃ d, AMap.find? s.assignDrafting.drafts e.1 = some d ∧ d.core = some core ∧ d.waits = none := by
  have hspan : span 0 8 = span 0 core ++ core :: span (core + 1) (7 - core) := by
    have h := span_split 0 core (8 - core)
    rw [show core + (8 - core) = 8 by omega, Nat.zero_add, show 8 - core = (7 - core) + 1 by omega] at h
    exact h
  rw [State.assignDrafting_eq, hspan, List.foldl_append, List.foldl_cons,
    State.assignCores_busy fun c hc => hbusy c (by have := (mem_span 0 core c).1 hc; omega),
    State.assignCore_free hfree (longestWaiting_of_least he hw hleast)]
  refine ⟨{ e.2 with core := some core, waits := none }, State.assignCores_keep _ (AMap.rising_upd _ _ hr) ?_ rfl, rfl, rfl⟩
  rw [AMap.find?_upd_same, AMap.find?_of_mem hr he]
  rfl

/-- Settles O47: each event by its own lemma; the cores before the first free one keep their drafts, and what that core
takes, no later core takes (`State.assignCores_keep`). -/
theorem draftsAreMadeJudgedAndMadeAgain : Obligations.DraftsAreMadeJudgedAndMadeAgain :=
  ⟨draftEvents_happen, fun _ _ hcore hfree hr hbusy _ he _ hw hleast =>
    theFirstFreeCoreTakesTheLongestWaiting hcore hfree hr hbusy he hw hleast⟩

end Sys2Proof.Machine
end

section
/-! LD (03 R62, R66; 05 R115, R117; 19 R414). -/

namespace Sys2Proof.Machine

open Sys2Proof.Safety Sys2Proof.Claims

/-- Storage and translations leave the groups, the blocks and the launches as they are. -/
def SameIssue (s t : State) : Prop := t.groups = s.groups ∧ t.blocks = s.blocks ∧ t.launches = s.launches

theorem SameIssue.trans {s t u : State} (h : SameIssue s t) (h' : SameIssue t u) : SameIssue s u :=
  ⟨h'.1.trans h.1, h'.2.1.trans h.2.1, h'.2.2.trans h.2.2⟩

theorem SameIssue.of_storage {s t : State} (h : StorageOnly s t) : SameIssue s t :=
  ⟨(congrArg State.groups h : State.groups _ = State.groups _), (congrArg State.blocks h : State.blocks _ = State.blocks _),
    (congrArg State.launches h : State.launches _ = State.launches _)⟩

theorem SameIssue.of_walk {s t : State} (h : WalkOnly s t) : SameIssue s t :=
  ⟨(congrArg State.groups h : State.groups _ = State.groups _), (congrArg State.blocks h : State.blocks _ = State.blocks _),
    (congrArg State.launches h : State.launches _ = State.launches _)⟩

/-- What a tweak is speaks of the groups alone. -/
theorem Tweaked.of_groups {s u v : State} {c : Ctx} {sat inv : Bool} (h : Tweaked s u c sat inv)
    (hv : v.groups = u.groups) : Tweaked s v c sat inv := by
  unfold Tweaked at *
  rw [hv]
  exact h

/-- An access whose checks pass, at places that are resident and hold no poisoned data, goes on with these places. -/
theorem State.access_of_clear {s t : State} {c : Ctx} {m : MemRef} {sc : Scope} {need : Need} {attr : Nat → Bool}
    {lanes : List Nat} {ps : List (Nat × Place)} (h : Clear s c m sc need attr lanes t ps)
    (k : State → List (Nat × Place) → State) : s.access c m sc need attr lanes k = k t ps := by
  obtain ⟨rs, hrs, hf, hh, rfl, hp⟩ := h
  unfold State.access
  rw [hrs]
  dsimp only
  rw [hf, hh]
  refine if_neg fun hany => ?_
  obtain ⟨e, he, hpoison⟩ := List.any_eq_true.1 hany
  exact Bool.false_ne_true ((hp e he).symm.trans hpoison)

theorem sameIssue_of_clear {s t : State} {c : Ctx} {m : MemRef} {sc : Scope} {need : Need} {attr : Nat → Bool}
    {lanes : List Nat} {ps : List (Nat × Place)} (h : Clear s c m sc need attr lanes t ps) : SameIssue s t := by
  obtain ⟨rs, hrs, -⟩ := h
  have hw := walk_resolveLanes s c m sc need attr lanes
  rw [hrs] at hw
  exact .of_walk hw

theorem Ctx.aliasByte_none {c : Ctx} (h : c.cur.slot = none) : c.aliasByte = 0 := by simp [Ctx.aliasByte, h]

theorem Ctx.aliasByte_some {c : Ctx} {x : Slot} (h : c.cur.slot = some x) : c.aliasByte = x.aliasByte := by
  simp [Ctx.aliasByte, h]

theorem exec_ld {s t : State} {g : Guard} {ty : STy} {ord : MemOrder} {sc : Scope} {d : Operand} {m : MemRef} {c : Ctx}
    {ps : List (Nat × Place)} (hc : s.ctx g = some c) (he : c.exec ≠ [])
    (hclear : Clear s c m sc { n := ty.width / 8 } (fun _ => true) (c.loadLanes d) t ps) :
    exec (.ld g ty ord sc d m) s = .next (t.loadFrom c ty ord sc d m ps) := by
  change execLd g ty ord sc d m s = _
  unfold execLd
  rw [State.issue_of_ctx hc, if_neg (by simpa using he)]
  exact congrArg _ (State.access_of_clear hclear _)

/-- The table of the hoisted loads of the issuing path, with the granules of one more (03 R66). -/
def State.hoisted (t : State) (c : Ctx) (m : MemRef) (ps : List (Nat × Place)) : State :=
  if c.aliasByte = 0 then t
  else t.updCur c fun p =>
    { p with aliases := p.aliases ++ aliasEntries m.space c.aliasByte (t.addrs c m (ps.map fun e => e.1)) }

/-- A load that neither waits nor rolls back reads its places, writes its lanes, acquires and goes on. -/
theorem State.loadFrom_reads {t : State} {c : Ctx} {m : MemRef} {ps : List (Nat × Place)} (ty : STy) (ord : MemOrder)
    (sc : Scope) (d : Operand) (hpeer : (∀ e ∈ ps, e.2.isPeer = false) ∨ c.pos ∈ c.p.woken)
    (hheld : m.space = .w → t.heldStore c = false)
    (halias : c.aliasByte = 0 ∨
      (aliasEntries m.space c.aliasByte (t.addrs c m (ps.map fun e => e.1))).length ≤ t.aliasFree c.b.core) :
    t.loadFrom c ty ord sc d m ps =
      let r := (t.hoisted c m ps).readLanes c (ty.width / 8) ps
      (((r.2.write c (ty.width == 64) d (r.1.map fun e => (e.1, extendTo ty (leNat e.2)))).acquire c (acquires ord)
        sc).finish c).noteOverflow c.b.launch := by
  unfold State.loadFrom
  dsimp only
  have noPeer : ¬ ((ps.any fun e => e.2.isPeer) && !c.woken) = true := by
    rcases hpeer with hpeer | hwoken
    · rw [List.any_eq_false.2 fun e he => by simp [hpeer e he]]
      exact Bool.false_ne_true
    · simp [Ctx.woken, hwoken]
  have noHeld : ¬ (m.space = .w ∧ t.heldStore c = true) := fun h => Bool.false_ne_true ((hheld h.1).symm.trans h.2)
  have room : ¬ (c.aliasByte ≠ 0 ∧ t.aliasFree c.b.core <
      (aliasEntries m.space c.aliasByte (t.addrs c m (ps.map fun e => e.1))).length) := by
    rintro ⟨hne, hlt⟩
    exact halias.elim hne (Nat.not_le.2 hlt)
  rw [if_neg noPeer, if_neg noHeld, if_neg room]
  rfl

/-- Results written in lanes of the Fleper carrier, then an acquire, then the end of the instruction. -/
theorem done_of_write_acquire {s u : State} {gd : Guard} {c : Ctx} (hc : s.ctx gd = some c) (hn : c.cur.slot = none)
    (hu : SameIssue s u) (wide : Bool) (d : Operand) (vs : List (Nat × Word)) (on : Bool) (sc : Scope) :
    Done s ((written u c.g d vs).acquire c on sc)
      (((u.write c wide d vs).acquire c on sc).finish c) c c.lanes (fun _ => c.after) false false := by
  obtain ⟨hg, hb, hl⟩ := hu
  obtain ⟨e, ht⟩ := State.write_fleper hn (tweaked_of_groups hc hg) wide d vs
  obtain ⟨hg', -, -⟩ := SameIssue.of_storage (storage_acquire (u.write c wide d vs) c on sc)
  obtain ⟨-, hb', hl'⟩ := SameIssue.of_storage (storage_acquire (written u c.g d vs) c on sc)
  unfold State.finish
  rw [if_neg (by rw [Ctx.midBundle_none hn]; exact Bool.false_ne_true)]
  refine done_of_tweaked hc hn (ht.of_groups hg') ?_ (hb'.trans ((written_blocks ..).trans hb))
    (hl'.trans ((written_launches ..).trans hl)) _ _
  rw [hg']
  conv_lhs => rw [e]
  exact acquire_withGroups ..

/-- Results put in flight by a native slot, then an acquire, then the end of the slot. -/
theorem State.write_acquire_native {u : State} {c : Ctx} {x : Slot} (hx : c.cur.slot = some x) (hs : c.p.sealed = false)
    (wide : Bool) (d : Operand) (vs : List (Nat × Word)) (on : Bool) (sc : Scope) :
    ((u.write c wide d vs).acquire c on sc).finish c =
      inFlight (u.acquire c on sc) c (nativeResults u c x wide d vs) false false := by
  have launch : ∃ f, u.write c wide d vs = u.updCur c f ∧
      ∀ v : State, (v.updCur c f).updCur c (fun p => { p with wait := .none, reply := [], replyFault := none }) =
        inFlight v c (nativeResults u c x wide d vs) false false := by
    unfold State.write
    rw [hx]
    refine ⟨_, rfl, fun v => ?_⟩
    rw [State.updCur_updCur]
    unfold inFlight nativeResults
    simp only [Bool.or_false] <;> rfl
  obtain ⟨f, hf, hfinish⟩ := launch
  rw [hf, acquire_updCur, State.finish, if_pos (Ctx.midBundle_some hx hs), hfinish]

/-- Settles O18: past the waits a load reads its places and writes its lanes (`State.loadFrom_reads`); the acquire moves
past what the end of the instruction does to the groups. -/
theorem loadsReadTheBytesOfTheirPlaces : Obligations.LoadsReadTheBytesOfTheirPlaces := by
  intro s t g ty ord sc d m c ps hc he hclear hpeer hheld
  refine ⟨fun hn => ?_, ?_⟩
  · have halias : c.aliasByte = 0 := Ctx.aliasByte_none hn
    have hread := SameIssue.of_storage (storage_readLanes t c (ty.width / 8) ps)
    refine ⟨_, ?_, done_of_write_acquire hc hn ((sameIssue_of_clear hclear).trans hread) (ty.width == 64) d _ _ _⟩
    · rw [exec_ld hc he hclear, State.loadFrom_reads ty ord sc d hpeer hheld (.inl halias), State.hoisted, if_pos halias]
  · intro x hx new v r halias hs
    have hbyte := Ctx.aliasByte_some hx
    have hv : t.hoisted c m ps = v := by
      unfold State.hoisted
      rw [hbyte]
    rw [exec_ld hc he hclear, State.loadFrom_reads ty ord sc d hpeer hheld (by rw [hbyte]; exact halias), hv]
    dsimp only
    rw [State.write_acquire_native hx hs]

end Sys2Proof.Machine
end

section
/-! ST, and the bytes of the scratchpad that it changes (03 R62; 04 R80, R87; 05 R115, R117; 21 R451, R452). -/

namespace Sys2Proof.Machine

open Sys2Proof.Safety Sys2Proof.Claims

/-! A release writes the caches back: the registers stay as they are. -/

@[simp] theorem State.setBaseLine_cregs (s : State) (tag ln : Nat) (d : Line) (mask : LaneMask) :
    (s.setBaseLine tag ln d mask).cregs = s.cregs := by
  unfold State.setBaseLine
  dsimp only
  split
  · exact foldl_unchanged State.cregs
      (fun t i => by split; exacts [State.setMemByte_cregs t _ _, rfl]) _ _
  · split <;> rfl

@[simp] theorem State.dieLine_cregs (s : State) (die tag ln : Nat) : (s.dieLine die tag ln).2.cregs = s.cregs := by
  unfold State.dieLine
  split <;> rfl

@[simp] theorem State.flushDieLine_cregs (s : State) (die tag ln : Nat) : (s.flushDieLine die tag ln).cregs = s.cregs := by
  unfold State.flushDieLine
  split
  · rfl
  · split
    · rfl
    · exact State.setBaseLine_cregs ..

@[simp] theorem State.flushCoreLine_cregs (s : State) (core tag ln : Nat) :
    (s.flushCoreLine core tag ln).cregs = s.cregs := by
  unfold State.flushCoreLine
  split
  · rfl
  · split
    · rfl
    · exact State.dieLine_cregs ..

theorem State.flushCore_cregs (s : State) (core : Nat) : (s.flushCore core).cregs = s.cregs := by
  unfold State.flushCore
  exact foldl_unchanged State.cregs (fun t e => by split; exacts [State.flushCoreLine_cregs .., rfl]) _ _

theorem State.flushDie_cregs (s : State) (die : Nat) : (s.flushDie die).cregs = s.cregs := by
  unfold State.flushDie
  exact foldl_unchanged State.cregs (fun t e => by split; exacts [State.flushDieLine_cregs .., rfl]) _ _

@[simp] theorem State.releaseCaches_cregs (s : State) (core : Nat) (sc : Scope) :
    (s.releaseCaches core sc).cregs = s.cregs := by
  unfold State.releaseCaches
  split
  · rfl
  · exact State.flushCore_cregs ..
  · exact (State.flushDie_cregs ..).trans (State.flushCore_cregs ..)

/-- Registers read alike where storage alone differs, and no cluster register. -/
theorem State.reg_of_storage {s t : State} (h : StorageOnly s t) (hc : t.cregs = s.cregs) (c : Ctx) (wide : Bool) (lane : Nat)
    (o : Operand) : t.reg c wide lane o = s.reg c wide lane o := by
  unfold StorageOnly at h
  rw [hc] at h
  rw [h]
  cases o <;> rfl

theorem State.bits_of_storage {s t : State} (h : StorageOnly s t) (hc : t.cregs = s.cregs) (c : Ctx) (ty : STy) (lane : Nat)
    (o : Operand) : t.bits c ty lane o = s.bits c ty lane o := by
  unfold State.bits
  rw [State.reg_of_storage h hc]

/-- Registers read alike after translations (04 R88). -/
theorem State.bits_of_walk {s t : State} (h : WalkOnly s t) (c : Ctx) (ty : STy) (lane : Nat) (o : Operand) :
    t.bits c ty lane o = s.bits c ty lane o := by
  unfold WalkOnly at h
  rw [h]
  cases o <;> rfl

theorem SameIssue.refl (s : State) : SameIssue s s := ⟨rfl, rfl, rfl⟩

theorem released_sameIssue (t : State) (c : Ctx) (on : Bool) (sc : Scope) : SameIssue t (released t c on sc) := by
  unfold released
  split
  · exact .of_storage (storage_releaseCaches ..)
  · exact .refl t

theorem State.bits_released (t : State) (c : Ctx) (on : Bool) (sc : Scope) (ty : STy) (lane : Nat) (o : Operand) :
    (released t c on sc).bits c ty lane o = t.bits c ty lane o := by
  unfold released
  split
  · exact State.bits_of_storage (storage_releaseCaches ..) (State.releaseCaches_cregs ..) ..
  · rfl

/-- A release that need not wait writes the caches back and goes on. -/
theorem State.release_of_ready {t : State} {c : Ctx} {on : Bool} {sc : Scope} {w : Toks} (hn : c.cur.slot = none)
    (h : ReleaseReady t c on w) (k : State → State) : t.release c on sc w k = k (released t c on sc) := by
  unfold State.release released
  cases on with
  | false => rfl
  | true =>
    rcases h with h | h | ⟨⟨hnone, hdone⟩, hpending⟩
    · cases h
    · exact absurd hn h
    · simp only [Bool.not_true, Bool.false_eq_true, if_false, Ctx.native_none hn, if_true]
      unfold State.afterTokens State.afterEarlier
      dsimp only
      rw [hnone]
      dsimp only
      rw [if_pos hdone, if_neg (by rw [hpending]; exact Bool.false_ne_true)]

/-- The lane-stores of a Fleper store, in lane order (21 R451). -/
def laneStores (s : State) (c : Ctx) (ty : STy) (m : MemRef) (a : Operand) (rs : List (Nat × Resolved)) (born : Nat) :
    List GStore :=
  (storePlaces (s.addrs c m c.exec) m.sw rs).map fun e : Nat × Place =>
    ({ lane := e.1, dst := e.2, data := leBytes (ty.width / 8) (s.bits c ty e.1 a), born } : GStore)

/-- A Fleper store goes through no window and carries no release of its own; the data are those that the registers held
when it issued. -/
theorem State.storesOf_none {s v : State} {c : Ctx} (hn : c.cur.slot = none) (ty : STy) (ord : MemOrder) (sc : Scope)
    (m : MemRef) (a : Operand) (rs : List (Nat × Resolved)) (hv : ∀ l, v.bits c ty l a = s.bits c ty l a)
    (born : Nat) :
    (v.storesOf c ty ord sc m a (s.addrs c m c.exec) (storePlaces (s.addrs c m c.exec) m.sw rs)).map
      (fun w => { w with born }) = laneStores s c ty m a rs born := by
  unfold State.storesOf laneStores
  simp only [Ctx.native_none hn, Bool.false_and, Bool.false_eq_true, if_false, hv]
  cases storePlaces (s.addrs c m c.exec) m.sw rs <;> simp

/-- A store that need not wait gates its lane-stores and goes on. -/
theorem exec_st {s t : State} {g : Guard} {ty : STy} {ord : MemOrder} {sc : Scope} {m : MemRef} {a : Operand} {w : Toks}
    {c : Ctx} {rs : List (Nat × Resolved)} (hc : s.ctx g = some c) (he : c.exec ≠ []) (hn : c.cur.slot = none)
    (hrs : s.resolveLanes c m sc { n := ty.width / 8, write := true } (fun _ => true) c.exec = (rs, t))
    (hf : resolvedFaults rs = []) (hr : ReleaseReady t c (releases ord) w) :
    let v := released t c (releases ord) sc
    exec (.st g ty ord sc m a w) s = .next (((v.updCur c fun p =>
      { p with gated := p.gated ++ laneStores s c ty m a rs v.next }).finish c).noteOverflow c.b.launch) := by
  intro v
  change execSt g ty ord sc m a w s = _
  unfold execSt
  rw [State.issue_of_ctx hc, if_neg (by simpa using he)]
  dsimp only
  unfold anyAttr
  rw [hrs]
  dsimp only
  rw [hf]
  dsimp only
  rw [if_neg (fun h => h.1 (Ctx.aliasByte_none hn)), Ctx.native_none hn, Bool.not_false, Bool.and_true,
    State.release_of_ready hn hr]
  unfold State.gate
  have hbits : ∀ l, (released t c (releases ord) sc).bits c ty l a = s.bits c ty l a := fun l => by
    have hwalk := walk_resolveLanes s c m sc { n := ty.width / 8, write := true } (fun _ => true) c.exec
    rw [hrs] at hwalk
    exact (State.bits_released ..).trans (State.bits_of_walk hwalk ..)
  simp only [State.storesOf_none hn ty ord sc m a rs hbits] <;> rfl

/-- The stores of a path perform alike whatever groups the state holds and whatever else the path does. -/
theorem State.performStores_gated (X : AMap Group) (s : State) (gk : Nat) (g : Group) (ps : List Path) (p : Path) (b : Block)
    (l : Launch) (ws : List GStore) :
    State.performStores { s with groups := X } gk { g with paths := ps } { p with gated := ws } b l =
      { s.performStores gk g { p with gated := ws } b l with groups := X } :=
  performStores_withGroups X s gk g { p with gated := ws } b l

theorem storesPerformInLaneOrder : StoresPerformInLaneOrder := by
  intro s t g ty ord sc m a w c rs hc he hn hrs hf hr
  have hwalk := walk_resolveLanes s c m sc { n := ty.width / 8, write := true } (fun _ => true) c.exec
  rw [hrs] at hwalk
  obtain ⟨hgroups, hblocks, hlaunches⟩ := (SameIssue.of_walk hwalk).trans (released_sameIssue t c (releases ord) sc)
  obtain ⟨-, hg, hp, hb, hl, -, -⟩ := State.ctx_eq hc
  obtain ⟨v, hv⟩ : ∃ v, v = released t c (releases ord) sc := ⟨_, rfl⟩
  rw [← hv] at hgroups hblocks hlaunches
  let f : Path → Path := fun p => { p with gated := p.gated ++ laneStores s c ty m a rs v.next }
  have hg' : AMap.find? (v.updCur c f).groups c.cur.grp = some { c.g with paths := updAt f c.g.paths c.cur.path } :=
    State.find_updCur (hgroups ▸ hg) f
  have hp' : (updAt f c.g.paths c.cur.path)[c.cur.path]? = some (f c.p) := by simp [getElem?_updAt, hp]
  obtain ⟨gs, h, hfin, hother, hh, hheq, hstand⟩ := State.finishTo_fleper (s := v.updCur c f) hn hg' hp'
    (hblocks ▸ hb) (hlaunches ▸ hl) c.lanes fun _ => c.after
  have hfinish : (v.updCur c f).finish c = (v.updCur c f).finishTo c c.lanes fun _ => c.after := by
    rw [State.finish, if_neg (by rw [Ctx.midBundle_none hn]; exact Bool.false_ne_true)]
  refine ⟨(v.updCur c f).finish c, ?_, ?_, ?_⟩
  · rw [exec_st hc he hn hrs hf hr, ← hv]
  · rw [hfinish, hfin]
    refine ⟨fun k hk => ?_, h, hh, ?_, ?_⟩
    · rw [← hgroups]
      exact (hother k hk).trans (State.find_updCur_other hk f)
    · rw [hheq]
      simp [f]
    · intro lane pc
      rw [hstand, ← pathsBut_updAt c.g f c.cur.path]
  · subst hv
    rw [hfinish, hfin]
    by_cases hrun : c.p.run = 0
    · have hrun' : (f c.p).run = 0 := hrun
      simp only [if_pos hrun, if_pos hrun']
      rw [State.updCur_frame, State.performStores_gated]
      rfl
    · have hrun' : ¬ (f c.p).run = 0 := hrun
      simp only [if_neg hrun, if_neg hrun']
      rfl

/-! The own scratchpad: which bytes the lane-stores change, and what reads back. -/

/-- What reads anywhere in the on-chip map after a write of scratchpad bytes. -/
theorem State.chipByte_setChipBytes_any (s : State) {oc : Nat} {bs : List Byte} (h : InScratch oc bs.length) (x : Nat) :
    (s.setChipBytes oc bs).chipByte x = if oc ≤ x ∧ x < oc + bs.length then bs.getD (x - oc) 0 else s.chipByte x := by
  by_cases hx : InScratch x 1
  · exact State.chipByte_setChipBytes s oc bs h x hx
  · have hrange : ¬ (oc ≤ x ∧ x < oc + bs.length) := by
      unfold InScratch at h hx
      omega
    rw [if_neg hrange, State.setChipBytes_frame s oc bs h]
    unfold State.chipByte
    dsimp only
    by_cases hres : chipReserved x = true
    · rw [if_pos hres, if_pos hres]
    · have hoff : ¬ x % 0x800000 < 0x200000 := by
        unfold InScratch at hx
        simp only [chipReserved, Bool.or_eq_true, decide_eq_true_eq] at hres
        omega
      rw [if_neg hres, if_neg hres, if_neg hoff, if_neg hoff]
      rfl

theorem State.noteReserved_scratch (s : State) {oc n : Nat} (h : InScratch oc n) : s.noteReserved oc n = s := by
  refine if_neg fun hany => ?_
  obtain ⟨x, hx, hres⟩ := List.any_eq_true.1 hany
  have hmem := (mem_span oc n x).1 hx
  rw [chipReserved_scratch (by unfold InScratch at *; omega)] at hres
  cases hres

theorem State.chipBytes_eq {s : State} {oc : Nat} {bs : List Byte} (h : ∀ i < bs.length, s.chipByte (oc + i) = bs.getD i 0) :
    s.chipBytes oc bs.length = bs := by
  induction bs generalizing oc with
  | nil => rfl
  | cons b bs ih =>
    have first := h 0 (Nat.succ_pos _)
    have rest : ∀ i < bs.length, s.chipByte (oc + 1 + i) = bs.getD i 0 := fun i hi => by
      have := h (i + 1) (Nat.succ_lt_succ hi)
      rwa [show oc + (i + 1) = oc + 1 + i by omega] at this
    rw [State.chipBytes, List.length_cons, span, List.map_cons]
    exact congrArg₂ List.cons first (ih rest)

/-- Two states that differ in nothing but scratchpads. -/
def ScratchOnly (s t : State) : Prop := t = { s with spad := t.spad }

theorem ScratchOnly.trans {s t u : State} (h : ScratchOnly s t) (h' : ScratchOnly t u) : ScratchOnly s u := by
  unfold ScratchOnly at *
  refine h'.trans ?_
  rw [h]

/-- What remains so when the groups and the counter of events go on. -/
theorem ScratchOnly.counted {s v u : State} {gs : AMap Group} (h : ScratchOnly s v)
    (hu : u = { v with groups := gs, next := v.next + 1 }) :
    u = { s with groups := u.groups, spad := u.spad, next := s.next + 1 } := by
  obtain ⟨m, rfl⟩ : ∃ m, v = { s with spad := m } := ⟨_, h⟩
  subst hu
  rfl

/-- Bytes of lanes written to the scratchpad in the order of a list. -/
def State.putLanes (s : State) (at_ : Nat → Nat) (data : Nat → List Byte) (ls : List Nat) : State :=
  ls.foldl (fun t l => t.setChipBytes (at_ l) (data l)) s

section PutLanes

variable {at_ : Nat → Nat} {data : Nat → List Byte} {ls : List Nat}

theorem State.putLanes_frame (s : State) (h : ∀ l ∈ ls, InScratch (at_ l) (data l).length) :
    ScratchOnly s (s.putLanes at_ data ls) := by
  induction ls generalizing s with
  | nil => rfl
  | cons l ls ih =>
    exact ScratchOnly.trans (State.setChipBytes_frame s (at_ l) (data l) (h l List.mem_cons_self))
      (ih _ fun k hk => h k (List.mem_cons_of_mem _ hk))

theorem State.putLanes_outside (s : State) (h : ∀ l ∈ ls, InScratch (at_ l) (data l).length) {x : Nat}
    (hx : ∀ l ∈ ls, x < at_ l ∨ at_ l + (data l).length ≤ x) : (s.putLanes at_ data ls).chipByte x = s.chipByte x := by
  induction ls generalizing s with
  | nil => rfl
  | cons l ls ih =>
    have hl := hx l List.mem_cons_self
    calc (State.putLanes _ at_ data ls).chipByte x = (s.setChipBytes (at_ l) (data l)).chipByte x :=
          ih _ (fun k hk => h k (List.mem_cons_of_mem _ hk)) fun k hk => hx k (List.mem_cons_of_mem _ hk)
      _ = s.chipByte x := by
          rw [State.chipByte_setChipBytes_any s (h l List.mem_cons_self), if_neg (by omega)]

/-- The bytes of a lane that no higher lane overlaps read back. -/
theorem State.putLanes_reads (s : State) (h : ∀ l ∈ ls, InScratch (at_ l) (data l).length)
    (hsorted : ls.Pairwise fun j k => j < k) {l : Nat} (hl : l ∈ ls)
    (hapart : ∀ k ∈ ls, l < k → at_ k + (data k).length ≤ at_ l ∨ at_ l + (data l).length ≤ at_ k) :
    (s.putLanes at_ data ls).chipBytes (at_ l) (data l).length = data l := by
  induction ls generalizing s with
  | nil => cases hl
  | cons k ls ih =>
    obtain ⟨hk, hsorted⟩ := List.pairwise_cons.1 hsorted
    have htail : ∀ j ∈ ls, InScratch (at_ j) (data j).length := fun j hj => h j (List.mem_cons_of_mem _ hj)
    rcases List.mem_cons.1 hl with rfl | hl
    · refine State.chipBytes_eq fun i hi => ?_
      have hlater : ∀ j ∈ ls, at_ l + i < at_ j ∨ at_ j + (data j).length ≤ at_ l + i := fun j hj => by
        have := hapart j (List.mem_cons_of_mem _ hj) (hk j hj)
        omega
      calc (State.putLanes _ at_ data ls).chipByte (at_ l + i) = (s.setChipBytes (at_ l) (data l)).chipByte (at_ l + i) :=
            State.putLanes_outside _ htail hlater
        _ = (data l).getD i 0 := by
            rw [State.chipByte_setChipBytes_any s (h l List.mem_cons_self), if_pos (by omega), Nat.add_sub_cancel_left]
    · exact ih (s.setChipBytes (at_ k) (data k)) htail hsorted hl fun j hj => hapart j (List.mem_cons_of_mem _ hj)

end PutLanes

theorem leBytes_length (n x : Nat) : (leBytes n x).length = n := by
  induction n generalizing x with
  | zero => rfl
  | succ n ih => rw [leBytes, List.length_cons, ih]

/-- A swizzle leaves the bits of an offset from bit 11 on (04 R87). -/
theorem swizzle_div (m a : Nat) {k : Nat} (hk : 11 ≤ k) : swizzle m a / 2 ^ k = a / 2 ^ k := by
  unfold swizzle
  split
  · rfl
  · have hlt : a / 2 ^ (10 + m) % 32 * 64 < 2 ^ k :=
      Nat.lt_of_lt_of_le (show _ < 2 ^ 11 by omega) (Nat.pow_le_pow_right (by decide) hk)
    rw [Nat.xor_div_two_pow, Nat.div_eq_of_lt hlt, Nat.xor_zero]

theorem swizzle_lt (m a : Nat) : swizzle m a < a + 2048 := by
  have hdiv := swizzle_div m a (Nat.le_refl 11)
  omega

/-- A place of an allocation that lies in the scratchpad of its core. -/
theorem inScratch_swizzle {core base size n a : Nat} (sw : Nat) (hcore : core < 1536) (hsize : base + size ≤ 2 ^ 21)
    (ha : a + n + 4096 ≤ size) : InScratch (spadChip core (base + swizzle sw a)) n := by
  have := swizzle_lt sw a
  unfold InScratch spadChip
  omega

theorem State.resolve_scratch {s : State} {c : Ctx} {sw a n : Nat} {sc : Scope} {attr : Nat → Bool} (halign : a % n = 0)
    (hroom : a + n + 4096 ≤ (s.stageOf c.b c.l).spadSize) :
    s.resolve c .l sw sc a { n, write := true } attr = (.ok (.chip (spadChip c.b.core (c.b.spadBase + swizzle sw a))), s) := by
  have hbound : ¬ (s.stageOf c.b c.l).spadSize < a + n := by omega
  have hpage : touchesPage (s.stageOf c.b c.l).spadSize a n = false := by
    unfold touchesPage
    rw [decide_eq_false_iff_not]
    omega
  simp [State.resolve, halign, State.resolveL, spadFault, hbound, hpage]

theorem State.resolveLanes_scratch {s : State} {c : Ctx} {m : MemRef} {sc : Scope} {n : Nat} {attr : Nat → Bool}
    {ls : List Nat} (hm : m.space = .l)
    (h : ∀ l ∈ ls, s.addrOf c l m % n = 0 ∧ s.addrOf c l m + n + 4096 ≤ (s.stageOf c.b c.l).spadSize) :
    s.resolveLanes c m sc { n, write := true } attr ls =
      (ls.map fun l => (l, .ok (.chip (spadChip c.b.core (c.b.spadBase + swizzle m.sw (s.addrOf c l m))))), s) := by
  induction ls with
  | nil => rfl
  | cons l ls ih =>
    obtain ⟨halign, hroom⟩ := h l List.mem_cons_self
    rw [State.resolveLanes, hm, State.resolve_scratch halign hroom]
    dsimp only
    rw [ih fun k hk => h k (List.mem_cons_of_mem _ hk)]
    rfl

theorem resolvedFaults_of_ok (ls : List Nat) (p : Nat → Place) : resolvedFaults (ls.map fun l => (l, .ok (p l))) = [] := by
  simp [resolvedFaults, List.filterMap_map]

theorem storePlaces_of_ok (as : List (Nat × Nat)) (sw : Nat) (ls : List Nat) (p : Nat → Place) :
    storePlaces as sw (ls.map fun l => (l, .ok (p l))) = ls.map fun l => (l, p l) := by
  simp [storePlaces, List.filterMap_map]

/-- Lane-stores to places in the scratchpad write their bytes there, in order. -/
theorem State.performStores_scratch (s : State) (gk : Nat) (g : Group) (p : Path) (b : Block) (l : Launch) {at_ : Nat → Nat}
    {data : Nat → List Byte} {ls : List Nat} {born : Nat} (h : ∀ k ∈ ls, InScratch (at_ k) (data k).length)
    (hp : p.gated = ls.map fun k => { lane := k, dst := .chip (at_ k), data := data k, born }) :
    s.performStores gk g p b l = s.putLanes at_ data ls := by
  unfold State.performStores
  rw [hp, List.foldl_map]
  clear hp
  induction ls generalizing s with
  | nil => rfl
  | cons k ls ih =>
    rw [List.foldl_cons]
    have first : s.performStore gk g p b l { lane := k, dst := .chip (at_ k), data := data k, born } =
        s.setChipBytes (at_ k) (data k) :=
      State.noteReserved_scratch _ (h k List.mem_cons_self)
    rw [first]
    exact ih _ fun j hj => h j (List.mem_cons_of_mem _ hj)

theorem span_sorted (lo n : Nat) : (span lo n).Pairwise fun j k => j < k := by
  induction n generalizing lo with
  | zero => exact List.Pairwise.nil
  | succ n ih => exact List.Pairwise.cons (fun k hk => ((mem_span _ _ _).1 hk).1) (ih (lo + 1))

/-- Lanes execute in rising order. -/
theorem State.exec_sorted {s : State} {gd : Guard} {c : Ctx} (hc : s.ctx gd = some c) : c.exec.Pairwise fun j k => j < k := by
  obtain ⟨-, -, -, -, -, hlanes, hexec⟩ := State.ctx_eq hc
  rw [hexec, hlanes]
  exact ((span_sorted 0 64).filter _).filter _

theorem scratchpadStoresChangeOnlyTheirBytes : ScratchpadStoresChangeOnlyTheirBytes := by
  intro s g ty sc m a w c hc he hn hrun hgated hm hpage hlanes n at_
  obtain ⟨hcore, -, hsize⟩ := hpage
  have hrs := State.resolveLanes_scratch (sc := sc) (attr := fun _ => true) hm hlanes
  obtain ⟨u, hexec, -, hu⟩ := storesPerformInLaneOrder s s g ty .rlx sc m a w c _ hc he hn hrs
    (resolvedFaults_of_ok ..) (.inl rfl)
  have hin : ∀ l ∈ c.exec, InScratch (at_ l) (leBytes n (s.bits c ty l a)).length := fun l hl => by
    rw [leBytes_length]
    exact inScratch_swizzle m.sw hcore hsize (hlanes l hl).2
  let v := s.putLanes at_ (fun l => leBytes n (s.bits c ty l a)) c.exec
  have hput : u = { v with groups := u.groups, next := v.next + 1 } := by
    have hstores := State.performStores_scratch (p := { c.p with gated := c.p.gated ++ _ }) (ls := c.exec) (born := s.next)
      s c.cur.grp c.g c.b c.l hin (by rw [hgated, List.nil_append])
    dsimp only at hu
    rw [storePlaces_of_ok, List.map_map, if_pos hrun] at hu
    exact hu.trans (hstores ▸ rfl)
  have hframe : ScratchOnly s v := State.putLanes_frame s hin
  have hbyte : ∀ x, u.chipByte x = v.chipByte x := fun x => by rw [hput]; rfl
  refine ⟨u, hexec, ?_, fun x hx => ?_, fun l hl hapart => ?_⟩
  · exact hframe.counted hput
  · rw [hbyte]
    exact State.putLanes_outside s hin fun l hl => by rw [leBytes_length]; exact hx l hl
  · have hreads := State.putLanes_reads s hin (State.exec_sorted hc) hl fun k hk hlk => by
      simp only [leBytes_length]
      exact hapart k hk hlk
    rw [leBytes_length] at hreads
    have hbytes : u.chipBytes (at_ l) n = v.chipBytes (at_ l) n := List.map_congr_left fun x _ => hbyte x
    rw [hbytes]
    exact hreads

/-- Settles O19: what performs at the end of the instruction is what was gated and then the lane-stores
(`State.finishTo_fleper`); in the scratchpad these are writes of bytes in lane order, of which the last one stays. -/
theorem storesPerformInLaneOrderAndChangeOnlyTheirBytes : Obligations.StoresPerformInLaneOrderAndChangeOnlyTheirBytes :=
  ⟨storesPerformInLaneOrder, scratchpadStoresChangeOnlyTheirBytes⟩

end Sys2Proof.Machine
end

section
/-! The end of a matrix region (03 R62; 10 R225, R238). -/

namespace Sys2Proof.Machine

open Sys2Proof.Safety Sys2Proof.Claims

/-! Which contexts a commit takes, and when it waits. -/

theorem waits_waitOn {s : State} {gd : Guard} {c : Ctx} (hc : s.ctx gd = some c) (w : Wait) : Waits s (s.waitOn c w) c w := by
  obtain ⟨-, hg, hp, -⟩ := State.ctx_eq hc
  refine ⟨?_, fun k hk => State.find_updCur_other hk _, rfl⟩
  rw [State.waitOn, State.find_updCur hg, updAt_eq_set _ _ _ _ hp]

/-- A context of the issuing path's group, as a path of the group at an index has it. -/
theorem State.ctx_at {s : State} {c d : Ctx} {j : Nat} (hc : s.ctx .always = some c)
    (hd : ({ s with cur := some { c.cur with path := j } } : State).ctx .always = some d) :
    d.cur.grp = c.cur.grp ∧ c.g.paths[j]? = some d.p ∧ d.b = c.b ∧ d.l = c.l := by
  obtain ⟨-, hg, -, hb, hl, -⟩ := State.ctx_eq hc
  obtain ⟨hcur, hg', hp', hb', hl', -⟩ := State.ctx_eq hd
  have hgrp : d.cur.grp = c.cur.grp := (congrArg Cur.grp (Option.some.inj hcur)).symm
  have hpath : d.cur.path = j := (congrArg Cur.path (Option.some.inj hcur)).symm
  rw [hgrp] at hg'
  have hgeq : d.g = c.g := Option.some.inj (hg'.symm.trans hg)
  rw [hgeq] at hb' hp'
  have hbeq : d.b = c.b := Option.some.inj (hb'.symm.trans hb)
  rw [hbeq] at hl'
  exact ⟨hgrp, hpath ▸ hp', hbeq, Option.some.inj (hl'.symm.trans hl)⟩

/-- The issuing path's own context, found at its index. -/
theorem State.ctx_at_own {s : State} {gd : Guard} {c : Ctx} (hc : s.ctx gd = some c) :
    ({ s with cur := some { c.cur with path := c.cur.path } } : State).ctx gd = some c := by
  obtain ⟨hcur, -⟩ := State.ctx_eq hc
  have : ({ s with cur := some { c.cur with path := c.cur.path } } : State) = s := by
    change ({ s with cur := some c.cur } : State) = s
    rw [← hcur]
  rw [this]
  exact hc

/-- A path whose region ends where the issuing one stands, and which neither waits nor has gone (02 R29; 03 R61). -/
def EndsAt (s : State) (c d : Ctx) : Prop :=
  d.p.pc = c.p.pc ∧ d.p.wait.blocking = false ∧ d.p.wait ≠ .fault ∧ d.p.mask ≠ 0 ∧ s.regionEnds d.b d.l d.p = true

theorem State.mem_endsHere {s : State} {c d : Ctx} : d ∈ s.endsHere c ↔ ∃ j < c.g.paths.length,
    ({ s with cur := some { c.cur with path := j } } : State).ctx .always = some d ∧ EndsAt s c d := by
  unfold State.endsHere EndsAt
  simp only [List.mem_filterMap, mem_span]
  refine exists_congr fun j => and_congr (by omega) ?_
  split
  · next e he =>
    rw [he]
    simp only [Bool.not_eq_true', Option.ite_none_right_eq_some, Option.some.injEq]
    constructor
    · rintro ⟨h, rfl⟩
      exact ⟨rfl, h⟩
    · rintro ⟨rfl, h⟩
      exact ⟨h, rfl⟩
  · next he => simp [he]

theorem State.own_mem_endsHere {s : State} {c : Ctx} (hc : s.ctx .always = some c) (h : EndsAt s c c) : c ∈ s.endsHere c := by
  obtain ⟨-, -, hp, -⟩ := State.ctx_eq hc
  exact State.mem_endsHere.2 ⟨c.cur.path, (List.getElem?_eq_some_iff.1 hp).1, State.ctx_at_own hc, h⟩

/-- Of a list in which one number alone gives anything, that is all that is given. -/
theorem filterMap_span_of_unique {α : Type} {f : Nat → Option α} {a : α} {lo n i : Nat} (hi : lo ≤ i ∧ i < lo + n)
    (ha : f i = some a) (h : ∀ j, lo ≤ j → j < lo + n → f j ≠ none → j = i) : (span lo n).filterMap f = [a] := by
  induction n generalizing lo with
  | zero => omega
  | succ n ih =>
    rw [span]
    by_cases hlo : lo = i
    · subst hlo
      have rest : (span (lo + 1) n).filterMap f = [] := by
        rw [List.filterMap_eq_nil_iff]
        intro j hj
        have hj := (mem_span _ _ _).1 hj
        by_contra hne
        have := h j (by omega) (by omega) hne
        omega
      rw [List.filterMap_cons, ha, rest]
    · have none : f lo = none := by
        by_contra hne
        exact hlo (h lo (Nat.le_refl _) (by omega) hne)
      rw [List.filterMap_cons, none]
      exact ih (by omega) fun j hj hj' => h j (by omega) (by omega)

/-- No other path's region ends here: the commit is the issuing path's own. -/
theorem State.endsHere_of_unique {s : State} {c : Ctx} (hc : s.ctx .always = some c) (h : EndsAt s c c)
    (hu : ∀ j q, c.g.paths[j]? = some q → q.pc = c.p.pc → s.regionEnds c.b c.l q = true → j = c.cur.path) :
    s.endsHere c = [c] := by
  obtain ⟨-, -, hp, -⟩ := State.ctx_eq hc
  obtain ⟨hlt, -⟩ := List.getElem?_eq_some_iff.1 hp
  unfold State.endsHere
  refine filterMap_span_of_unique (i := c.cur.path) ?_ ?_ fun j _ _ hj => ?_
  · omega
  · dsimp only
    rw [State.ctx_at_own hc]
    obtain ⟨hpc, hwait, hfault, hmask, hends⟩ := h
    exact if_pos ⟨hpc, by rw [hwait]; rfl, hfault, hmask, hends⟩
  · dsimp only at hj
    split at hj
    · next d hd =>
      obtain ⟨-, hp', hb, hl⟩ := State.ctx_at hc hd
      split at hj
      · next h =>
        obtain ⟨hpc, -, -, -, hends⟩ := h
        rw [hb, hl] at hends
        exact hu j d.p hp' hpc hends
      · exact absurd rfl hj
    · exact absurd rfl hj

theorem exec_regionCommit {s : State} {c : Ctx} (hc : s.ctx .always = some c) :
    exec .regionCommit s = .next (s.commitRegion c) := by
  change execRegionCommit s = _
  exact State.issue_of_ctx hc _

/-- The commit waits while a latch of the group's region is being filled (03 R62 step 1; 10 R225). -/
theorem State.commitRegion_waits {s : State} {c : Ctx} (hc : s.ctx .always = some c)
    (howner : (s.coreRegs c.b.core).owner = some c.cur.grp) (hrun : c.p.run ≠ 0) (h : EndsAt s c c)
    (hfill : ∃ l ∈ (s.coreRegs c.b.core).filling, l ≠ []) : s.commitRegion c = s.waitOn c (.latch 0) := by
  obtain ⟨-, hg, hp, -⟩ := State.ctx_eq hc
  obtain ⟨l, hl, hne⟩ := hfill
  have hpath : s.path c = c.p := State.path_of_find hg hp
  have hdue : s.fillsDue c = true := by
    simp only [State.fillsDue, howner, hpath, Bool.and_eq_true, beq_self_eq_true, bne_iff_ne, List.any_eq_true]
    exact ⟨⟨trivial, hrun⟩, l, hl, by simpa using hne⟩
  exact if_pos (List.any_eq_true.2 ⟨c, State.own_mem_endsHere hc h, hdue⟩)

theorem State.fillsDue_of_filled {s : State} {c : Ctx} (h : ∀ l ∈ (s.coreRegs c.b.core).filling, l = []) :
    s.fillsDue c = false := by
  have : ((s.coreRegs c.b.core).filling.any fun l => !l.isEmpty) = false :=
    List.any_eq_false.2 fun l hl => by simp [h l hl]
  simp [State.fillsDue, this]

/-! What the groups keep through a commit. -/

/-- Of two groups the second has the lanes of the first where they stood, its flags, and no region open that it has
not. -/
structure KeepsCommit (g h : Group) : Prop where
  sat : h.sat = g.sat
  inv : h.inv = g.inv
  run : (∀ p ∈ g.paths, p.run = 0) → ∀ p ∈ h.paths, p.run = 0
  stands : ∀ lane pc, standsAt h.paths lane pc ↔ standsAt g.paths lane pc

theorem KeepsCommit.refl (g : Group) : KeepsCommit g g := ⟨rfl, rfl, id, fun _ _ => Iff.rfl⟩

theorem KeepsCommit.trans {g h k : Group} (a : KeepsCommit g h) (b : KeepsCommit h k) : KeepsCommit g k :=
  ⟨b.sat.trans a.sat, b.inv.trans a.inv, fun hr => b.run (a.run hr), fun l pc => (b.stands l pc).trans (a.stands l pc)⟩

theorem Path.join_run {p q : Path} (hp : p.run = 0) (hq : q.run = 0) : (p.join q).run = 0 := by
  unfold Path.join
  dsimp only
  split
  · exact hp
  · exact hq

theorem addPath_run {p : Path} {ps : List Path} (hp : p.run = 0) (h : ∀ q ∈ ps, q.run = 0) :
    ∀ q ∈ addPath p ps, q.run = 0 := by
  induction ps with
  | nil => simpa [addPath] using hp
  | cons x xs ih =>
    obtain ⟨hx, hxs⟩ := List.forall_mem_cons.1 h
    unfold addPath
    split
    · exact List.forall_mem_cons.2 ⟨Path.join_run hx hp, hxs⟩
    · exact List.forall_mem_cons.2 ⟨hx, ih hxs⟩

theorem joinPaths_run {ps : List Path} (h : ∀ p ∈ ps, p.run = 0) : ∀ p ∈ joinPaths ps, p.run = 0 := by
  have fold : ∀ acc : List Path, (∀ p ∈ acc, p.run = 0) →
      ∀ p ∈ ps.foldl (fun acc p => if p.mask = 0 then acc else addPath p acc) acc, p.run = 0 := by
    induction ps with
    | nil => exact fun acc hacc => hacc
    | cons p ps ih =>
      obtain ⟨hp, hps⟩ := List.forall_mem_cons.1 h
      intro acc hacc
      rw [List.foldl_cons]
      refine ih hps _ ?_
      split
      · exact hacc
      · exact addPath_run hp hacc
  exact fold [] (by simp)

theorem forall_mem_updAt {P : Path → Prop} {f : Path → Path} (hf : ∀ p, P p → P (f p)) {ps : List Path} (i : Nat)
    (h : ∀ p ∈ ps, P p) : ∀ p ∈ updAt f ps i, P p := by
  induction ps generalizing i with
  | nil => simp [updAt]
  | cons x xs ih =>
    obtain ⟨hx, hxs⟩ := List.forall_mem_cons.1 h
    cases i with
    | zero => exact List.forall_mem_cons.2 ⟨hf x hx, hxs⟩
    | succ i => exact List.forall_mem_cons.2 ⟨hx, ih i hxs⟩

theorem giveEntries_run (n : Nat) {ps : List Path} (h : ∀ p ∈ ps, p.run = 0) : ∀ p ∈ giveEntries n ps, p.run = 0 := by
  induction n generalizing ps with
  | zero => exact h
  | succ n ih =>
    unfold giveEntries
    split
    · next e _ _ _ =>
      exact ih (forall_mem_updAt (P := fun p => p.run = 0) (f := fun p => { p with entry := some e }) (fun _ hp => hp) _ h)
    · exact h

theorem Group.regroup_keeps (g : Group) : KeepsCommit g g.regroup := by
  refine ⟨by rw [Group.regroup_eq], by rw [Group.regroup_eq], fun hr => ?_, g.standsAt_regroup⟩
  have hps := giveEntries_run 8 (joinPaths_run hr)
  unfold Group.regroup
  split
  · simp only [List.mem_map]
    rintro _ ⟨p, hp, rfl⟩
    split <;> exact hps p hp
  · exact hps

/-- The paths of a group that wait for the matrix unit look again (08 R204). -/
def Group.wokenMatrix (g : Group) : Group :=
  { g with paths := g.paths.map fun p => if p.wait == .matrix then p.retry else p }

theorem Group.wokenMatrix_keeps (g : Group) : KeepsCommit g g.wokenMatrix := by
  have stay : ∀ p : Path, (if p.wait == .matrix then p.retry else p).mask = p.mask ∧
      (if p.wait == .matrix then p.retry else p).pc = p.pc ∧ (if p.wait == .matrix then p.retry else p).run = p.run := by
    intro p
    split <;> exact ⟨rfl, rfl, rfl⟩
  refine ⟨rfl, rfl, fun hr => ?_, standsAt_map _ (fun p => (stay p).1) (fun p => (stay p).2.1) _⟩
  intro q hq
  obtain ⟨p, hp, rfl⟩ := List.mem_map.1 hq
  exact (stay p).2.2.trans (hr p hp)

/-- A change of some groups leaves in each what the change keeps. -/
theorem foldl_updGroup_keeps {f : Group → Group} (hf : ∀ g, KeepsCommit g (f g)) (l : List (Nat × Group)) {s : State}
    {gk : Nat} {g : Group} (hg : AMap.find? s.groups gk = some g) :
    ∃ h, AMap.find? (l.foldl (fun (u : State) (e : Nat × Group) => u.updGroup e.1 f) s).groups gk = some h ∧
      KeepsCommit g h := by
  induction l generalizing s g with
  | nil => exact ⟨g, hg, .refl g⟩
  | cons e l ih =>
    have next : ∃ h, AMap.find? (s.updGroup e.1 f).groups gk = some h ∧ KeepsCommit g h := by
      rw [State.updGroup_groups, AMap.find?_upd]
      split
      · next hk =>
        subst hk
        exact ⟨f g, by rw [hg]; rfl, hf g⟩
      · exact ⟨g, hg, .refl g⟩
    obtain ⟨h, hh, keeps⟩ := next
    obtain ⟨k, hk, keeps'⟩ := ih hh
    exact ⟨k, hk, keeps.trans keeps'⟩

theorem State.wakeMatrix_keeps {s : State} {gk : Nat} {g : Group} (core : Nat) (hg : AMap.find? s.groups gk = some g) :
    ∃ h, AMap.find? (s.wakeMatrix core).groups gk = some h ∧ KeepsCommit g h :=
  foldl_updGroup_keeps (f := Group.wokenMatrix) Group.wokenMatrix_keeps _ hg

theorem State.wakeMatrix_cores (s : State) (core : Nat) : (s.wakeMatrix core).cores = s.cores := by
  unfold State.wakeMatrix
  exact foldl_unchanged State.cores (f := fun (u : State) (e : Nat × Group) => u.updGroup e.1 Group.wokenMatrix)
    (fun _ _ => rfl) _ _

/-! The commit itself. -/

theorem performStore_cores (s : State) (gk : Nat) (g : Group) (p : Path) (b : Block) (l : Launch) (w : GStore) :
    (s.performStore gk g p b l w).cores = s.cores := by
  have storage {t u : State} (h : StorageOnly t u) : u.cores = t.cores := by rw [h]
  unfold State.performStore
  have target : ∀ t : State, t.cores = s.cores → (match t.storeTarget l w with
      | .ok dst => t.performAt gk g p b l w dst
      | .hold _ => t.addRemoteStore gk g p b l w (w.via.getD (0, 0)).1 (w.via.getD (0, 0)).2 true
      | .fault f => t.freeze g.block g.gid (t.vpcAt b l p) false { f with lanes := maskOf [w.lane] }).cores = s.cores := by
    intro t ht
    split
    · exact (storage (storage_performAt ..)).trans ht
    · exact ht
    · rw [freeze_frame]
      exact ht
  cases w.rel with
  | none => exact target s rfl
  | some sc => exact target _ (storage (storage_releaseCaches ..))

theorem performStores_cores (s : State) (gk : Nat) (g : Group) (p : Path) (b : Block) (l : Launch) :
    (s.performStores gk g p b l).cores = s.cores := by
  unfold State.performStores
  exact foldl_unchanged State.cores (fun t w => performStore_cores t gk g p b l w) _ _

theorem coreRegs_setCoreRegs (s : State) (core : Nat) (r : CoreRegs) : (s.setCoreRegs core r).coreRegs core = r := by
  unfold State.coreRegs State.setCoreRegs
  rw [AMap.find?_put_same]
  rfl

/-- Of a list in which one place alone passes a test, one element passes. -/
theorem length_filter_of_unique {α : Type} {p : α → Bool} {l : List α} {i : Nat} {a : α} (ha : l[i]? = some a)
    (hp : p a = true) (h : ∀ j b, l[j]? = some b → p b = true → j = i) : (l.filter p).length = 1 := by
  induction l generalizing i with
  | nil => simp at ha
  | cons x l ih =>
    cases i with
    | zero =>
      obtain rfl : x = a := by simpa using ha
      have rest : l.filter p = [] := List.filter_eq_nil_iff.2 fun b hb hpb => by
        obtain ⟨j, hj⟩ := List.mem_iff_getElem?.1 hb
        exact absurd (h (j + 1) b (by simpa using hj) hpb) (Nat.succ_ne_zero j)
      rw [List.filter_cons_of_pos hp, rest]
      rfl
    | succ i =>
      have hx : ¬ p x = true := fun hpx => absurd (h 0 x (by simp) hpx) (Nat.succ_ne_zero i).symm
      rw [List.filter_cons_of_neg hx]
      exact ih (by simpa using ha) fun j b hb hpb => Nat.succ.inj (h (j + 1) b (by simpa using hb) hpb)

/-- What the commit of a region leaves of a path (03 R62). -/
def Path.closed (p : Path) : Path :=
  { p with gated := [], aliases := [], sat := false, inv := false, clrSat := false, clrInv := false, run := 0, held := []
           reserved := 0, snap := none, oldRegs := [], oldPreds := [], mark := none }

/-- A path after the commit of its region: it waits for nothing, and it has no region open from which it could roll back
(03 R62, R67). -/
def Path.committed (p : Path) : Path := { p with wait := .none, conservative := true }

/-- The group's last matrix region closes: its flags join the group's, and the unit goes free (03 R62; 08 R204). -/
theorem State.closeRegion_lastRun {s : State} {gk i : Nat} {g : Group} {p : Path} {b : Block} {l : Launch}
    (hg : AMap.find? s.groups gk = some g) (hp : g.paths[i]? = some p) (hb : AMap.find? s.blocks g.block = some b)
    (hl : AMap.find? s.launches b.launch = some l) (hrun : p.run ≠ 0) (howner : (s.coreRegs b.core).owner = some gk)
    (hlast : ∀ j q, g.paths[j]? = some q → q.run ≠ 0 → j = i) :
    ((s.closeRegion gk i).coreRegs b.core).owner = none ∧
      AMap.find? (s.closeRegion gk i).groups gk = some { g with
        sat := (g.sat && !p.clrSat) || p.sat, inv := (g.inv && !p.clrInv) || p.inv
        paths := updAt Path.closed g.paths i } := by
  have hcores : (s.performStores gk g p b l).coreRegs b.core = s.coreRegs b.core := by
    unfold State.coreRegs
    rw [performStores_cores]
  have hone : (g.paths.filter fun q => q.run != 0).length = 1 :=
    length_filter_of_unique hp (by simpa using hrun) fun j q hq hr => hlast j q hq (by simpa using hr)
  have hgroups : (s.performStores gk g p b l).groups = s.groups := performStores_groups s gk g p b l
  unfold State.closeRegion
  simp only [hg, hp, hb, hl, hcores, howner, hone, beq_self_eq_true, Bool.and_true, Bool.true_and, bne_iff_ne, ne_eq, hrun,
    not_false_eq_true, if_true]
  constructor
  · exact congrArg CoreRegs.owner (coreRegs_setCoreRegs ..)
  · rw [State.updGroup_groups, State.setCoreRegs_groups, hgroups, AMap.find?_upd_same, hg]
    rfl

theorem State.landIf_nothing {s : State} {gk i : Nat} {g : Group} {p : Path} (hg : AMap.find? s.groups gk = some g)
    (hp : g.paths[i]? = some p) (hn : p.inflight = []) (test : InFlight → Bool) :
    (s.landIf gk i test).blocks = s.blocks ∧ (s.landIf gk i test).launches = s.launches ∧
      (s.landIf gk i test).cores = s.cores ∧ AMap.find? (s.landIf gk i test).groups gk = some g := by
  unfold State.landIf
  simp only [hg, hp, hn, List.filter_nil, List.foldl_nil]
  refine ⟨rfl, rfl, rfl, ?_⟩
  have hset : updAt (fun q : Path => { q with inflight := q.inflight.filter fun e => !test e }) g.paths i = g.paths := by
    rw [updAt_eq_set _ _ _ _ hp]
    refine List.ext_getElem? fun j => ?_
    rw [List.getElem?_set]
    split
    · next h =>
      subst h
      rw [if_pos (List.getElem?_eq_some_iff.1 hp).1, hp, Option.some.injEq]
      rw [hn, List.filter_nil, ← hn]
    · rfl
  rw [State.updPath, State.updGroup_groups, AMap.find?_upd_same, hg, Option.map_some, hset]

/-- A path that kept nothing and has nothing in flight commits its group's last matrix region: the unit goes free, and
the lanes stand where they stood. -/
theorem State.completeRegion_lastRun {s : State} {c : Ctx} (hc : s.ctx .always = some c)
    (howner : (s.coreRegs c.b.core).owner = some c.cur.grp) (hrun : c.p.run ≠ 0) (hheld : c.p.held = [])
    (hfrozen : ∀ e ∈ s.blocks, e.1 = c.g.block → e.2.st ≠ .frozen) (hinflight : c.p.inflight = [])
    (hlast : ∀ j q, c.g.paths[j]? = some q → q.run ≠ 0 → j = c.cur.path) (lands : InFlight → Bool) :
    ((s.completeRegion c lands).coreRegs c.b.core).owner = none ∧
      ∃ g, AMap.find? (s.completeRegion c lands).groups c.cur.grp = some g ∧
        g.sat = ((c.g.sat && !c.p.clrSat) || c.p.sat) ∧ g.inv = ((c.g.inv && !c.p.clrInv) || c.p.inv) ∧
        (∀ p ∈ g.paths, p.run = 0) ∧ ∀ lane pc, standsAt g.paths lane pc ↔ standsAt c.g.paths lane pc := by
  obtain ⟨-, hg, hp, hb, hl, -⟩ := State.ctx_eq hc
  have hpath : s.path c = c.p := State.path_of_find hg hp
  have hmine : ((s.coreRegs c.b.core).owner == some c.cur.grp && c.p.run != 0) = true := by simp [howner, hrun]
  let t := State.settleMatrix { s with cycle := c.p.lastDue s.cycle } c.b.core
  let u := t.landIf c.cur.grp c.cur.path lands
  obtain ⟨hub, hul, huc, hug⟩ : u.blocks = s.blocks ∧ u.launches = s.launches ∧ u.cores = s.cores ∧
      AMap.find? u.groups c.cur.grp = some c.g := State.landIf_nothing (s := t) hg hp hinflight lands
  have hthaw : (u.blocks.any fun e => e.1 == c.g.block && e.2.st == .frozen) = false := by
    rw [hub]
    exact List.any_eq_false.2 fun e he hfr => by
      simp only [Bool.and_eq_true, beq_iff_eq] at hfr
      exact hfrozen e he hfr.1 hfr.2
  let v := u.closeRegion c.cur.grp c.cur.path
  let w := v.updCur c Path.committed
  have hwhole : s.completeRegion c lands = w.wakeMatrix c.b.core := by
    unfold State.completeRegion
    rw [hpath]
    dsimp only
    rw [hheld]
    dsimp only [State.commitHeld]
    rw [if_pos hmine, if_pos hmine]
    exact if_neg (by rw [hthaw]; exact Bool.false_ne_true)
  obtain ⟨hfree, hvg⟩ := State.closeRegion_lastRun (s := u) hug hp (hub ▸ hb) (hul ▸ hl) hrun
    (by unfold State.coreRegs; rw [huc]; exact howner) hlast
  have hwg := State.find_updCur (c := c) hvg Path.committed
  obtain ⟨h, hh, keeps⟩ := State.wakeMatrix_keeps c.b.core hwg
  rw [hwhole]
  refine ⟨?_, h, hh, keeps.sat, keeps.inv, keeps.run ?_, fun lane pc => (keeps.stands lane pc).trans ?_⟩
  · unfold State.coreRegs
    rw [State.wakeMatrix_cores]
    exact hfree
  · refine forall_mem_updAt (P := fun p => p.run = 0) (f := Path.committed) (fun p hr => hr) _ fun q hq => ?_
    obtain ⟨j, hj⟩ := List.mem_iff_getElem?.1 hq
    rw [getElem?_updAt] at hj
    split at hj
    · obtain ⟨q', -, rfl⟩ := Option.map_eq_some_iff.1 hj
      rfl
    · next hne => exact Decidable.byContradiction fun hr => hne (hlast j q hj hr).symm
  · exact (standsAt_updAt Path.committed (fun _ => rfl) (fun _ => rfl) _ _ _ _).trans
      (standsAt_updAt Path.closed (fun _ => rfl) (fun _ => rfl) _ _ _ _)

theorem aMatrixRegionEndsWithItsFills (s : State) (c : Ctx) (hc : s.ctx .always = some c)
    (howner : (s.coreRegs c.b.core).owner = some c.cur.grp) (hrun : c.p.run ≠ 0)
    (hends : s.regionEnds c.b c.l c.p = true) (hblocking : c.p.wait.blocking = false) (hfault : c.p.wait ≠ .fault)
    (hmask : c.p.mask ≠ 0) :
    ((∃ l ∈ (s.coreRegs c.b.core).filling, l ≠ []) →
      ∃ t, exec .regionCommit s = .next t ∧ Waits s t c (.latch 0)) ∧
    ((∀ l ∈ (s.coreRegs c.b.core).filling, l = []) → c.p.held = [] →
      (∀ e ∈ s.blocks, e.1 = c.g.block → e.2.st ≠ .frozen) → c.p.inflight = [] →
      (∀ j q, c.g.paths[j]? = some q → q.run ≠ 0 → j = c.cur.path) →
      (∀ j q, c.g.paths[j]? = some q → q.pc = c.p.pc → s.regionEnds c.b c.l q = true → j = c.cur.path) →
      ∃ (t : State) (g : Group), exec .regionCommit s = .next (t.noteOverflow c.b.launch) ∧
        AMap.find? t.groups c.cur.grp = some g ∧ (t.coreRegs c.b.core).owner = none ∧
        g.sat = ((c.g.sat && !c.p.clrSat) || c.p.sat) ∧ g.inv = ((c.g.inv && !c.p.clrInv) || c.p.inv) ∧
        (∀ p ∈ g.paths, p.run = 0) ∧ ∀ lane pc, standsAt g.paths lane pc ↔ standsAt c.g.paths lane pc) := by
  have hown : EndsAt s c c := ⟨rfl, hblocking, hfault, hmask, hends⟩
  refine ⟨fun hfill => ⟨_, ?_, waits_waitOn hc (.latch 0)⟩, fun hfilled hheld hfrozen hinflight hlast hunique => ?_⟩
  · rw [exec_regionCommit hc, State.commitRegion_waits hc howner hrun hown hfill]
  · obtain ⟨hfree, g, hg, hsat, hinv, hclosed, hstands⟩ :=
      State.completeRegion_lastRun hc howner hrun hheld hfrozen hinflight hlast fun _ => true
    have keeps := g.regroup_keeps
    refine ⟨(s.completeRegion c fun _ => true).updGroup c.cur.grp Group.regroup, g.regroup, ?_, ?_, hfree,
      keeps.sat.trans hsat, keeps.inv.trans hinv, keeps.run hclosed,
      fun lane pc => (keeps.stands lane pc).trans (hstands lane pc)⟩
    · rw [exec_regionCommit hc, State.commitRegion, State.endsHere_of_unique hc hown hunique]
      simp only [List.any_cons, List.any_nil, State.fillsDue_of_filled hfilled, Bool.or_false, Bool.false_eq_true, if_false,
        List.foldl_cons, List.foldl_nil]
    · rw [State.updGroup_groups, AMap.find?_upd_same, hg]
      rfl

/-! What the region kept is handed over. -/

/-- A block that no fault stopped hands over the rest of what its region kept. -/
theorem State.commitHeld_goes_on {s t : State} {c : Ctx} {h : Held} (hs : List Held)
    (ht : s.commitHeld c (h :: hs) = if (t.blocks.any fun e => e.1 == c.g.block && e.2.fault.isSome) then t
      else t.commitHeld c hs)
    (hfault : ∀ e ∈ t.blocks, e.1 = c.g.block → e.2.fault = none) : s.commitHeld c (h :: hs) = t.commitHeld c hs := by
  rw [ht]
  refine if_neg fun hany => ?_
  obtain ⟨e, he, hf⟩ := List.any_eq_true.1 hany
  simp only [Bool.and_eq_true, beq_iff_eq] at hf
  rw [hfault e he hf.1] at hf
  cases hf.2

theorem whatARegionKeptIsHandedOver (s : State) (c : Ctx) (h : Held) (hs : List Held)
    (hfault : ∀ e ∈ s.blocks, e.1 = c.g.block → e.2.fault = none) :
    (∀ f p tk gl n idx col g, h.instr = .gatherTile g f p tk gl n idx col →
      s.commitHeld c (h :: hs) = (s.setDone c.cur.grp tk).commitHeld c hs) ∧
    (∀ f p tk gl sw off g, h.instr = .gatherSpad g f p tk gl sw off →
      s.commitHeld c (h :: hs) = (s.setDone c.cur.grp tk).commitHeld c hs) ∧
    (∀ g, h.instr = .satarm g →
      s.commitHeld c (h :: hs) = (s.updBlock c.g.block fun b => { b with armed := true }).commitHeld c hs) := by
  refine ⟨fun f p tk gl n idx col g hi => ?_, fun f p tk gl sw off g hi => ?_, fun g hi => ?_⟩
  · exact State.commitHeld_goes_on hs (by rw [State.commitHeld, hi]) hfault
  · exact State.commitHeld_goes_on hs (by rw [State.commitHeld, hi]) hfault
  · refine State.commitHeld_goes_on hs (by rw [State.commitHeld, hi]) fun e he hk => ?_
    rw [State.updBlock_blocks] at he
    unfold AMap.upd at he
    split at he
    · next b hb =>
      rcases AMap.mem_put he with rfl | he
      · exact hfault (c.g.block, b) (AMap.mem_of_find? hb) rfl
      · exact hfault e he hk
    · exact hfault e he hk

end Sys2Proof.Machine
end

section
/-! ACCRD at its region's commit: an accumulator tile is converted into the elements of a tile (09 R210, R213; 10 R231;
17 R345). -/

namespace Sys2Proof.Machine

open Sys2Proof.Safety Sys2Proof.Claims

/-! A conversion takes the rounding stream with RS alone (09 R218, R220). -/

theorem roundsUp_not_rs {mode : Rounding} (h : mode ≠ .rs) (neg odd : Bool) (frac sh u : Nat) :
    roundsUp mode neg odd frac sh u = roundsUp mode neg odd frac sh 0 := by
  cases mode with
  | rs => exact absurd rfl h
  | _ => rfl

theorem Fmt.convert_not_rs (f : Fmt) {mode : Rounding} (h : mode ≠ .rs) (u : Nat) (x : FVal) :
    f.convert mode u x = f.convert mode 0 x := by
  have mag : ∀ neg m e, f.roundMag mode neg m e u = f.roundMag mode neg m e 0 := fun neg m e => by
    simp only [Fmt.roundMag, roundsUp_not_rs h _ _ _ _ u]
  cases x <;> simp only [Fmt.convert, mag]

theorem convertInt_not_rs (lo hi : Int) (width : Nat) {mode : Rounding} (h : mode ≠ .rs) (u : Nat) (x : FVal) :
    convertInt lo hi width mode u x = convertInt lo hi width mode 0 x := by
  have int : ∀ neg m e, roundInt mode neg m e u = roundInt mode neg m e 0 := fun neg m e => by
    simp only [roundInt, roundsUp_not_rs h _ _ _ _ u]
  cases x <;> simp only [convertInt, int]

theorem convertE8m0_not_rs {mode : Rounding} (h : mode ≠ .rs) (u : Nat) (x : FVal) :
    convertE8m0 mode u x = convertE8m0 mode 0 x := by
  cases x <;> simp only [convertE8m0, roundsUp_not_rs h _ _ _ _ u]

theorem convertTo_not_rs (t : ETy) {mode : Rounding} (h : mode ≠ .rs) (u : Nat) (x : FVal) :
    convertTo t mode u x = convertTo t mode 0 x := by
  cases t <;> simp only [convertTo, Fmt.convert_not_rs _ h u, convertInt_not_rs _ _ _ h u, convertE8m0_not_rs h u]

/-- The value of an accumulator element, as an integer or as FP32 (10 R231). -/
def accValue (i32 : Bool) (a : Nat) : FVal := if i32 then intValue (signedOf 32 a) else fmtF32.value a

theorem accConvert_not_rs (f : ETy) (i32 : Bool) {rm : Rounding} (h : rm ≠ .rs) (xs : List Nat) (rs : BitVec 32) :
    (accConvert f i32 rm xs rs).1 = xs.map fun a => convertTo f rm 0 (accValue i32 a) := by
  induction xs generalizing rs with
  | nil => rfl
  | cons x xs ih =>
    rw [accConvert, List.map_cons]
    dsimp only
    rw [ih, convertTo_not_rs f h]
    rfl

/-! The bytes of an element: whole bytes, a nibble of E2M1, one bit in each of eight planes (09 R210, R213). -/

theorem length_span (lo n : Nat) : (span lo n).length = n := by
  induction n generalizing lo with
  | zero => rfl
  | succ n ih => rw [span, List.length_cons, ih]

/-- A format whose elements are whole bytes. -/
def wholeBytes : ETy → Bool
  | .bpi | .e2m1 => false
  | _ => true

section Element

variable {t : Tile} {f : ETy}

theorem tileBits_of (hf : ETy.ofCode t.fmt = some f) : tileBits t.fmt = elementBits f := by rw [tileBits, hf]

theorem elementBits_whole (hw : wholeBytes f = true) : elementBits f = 8 * (elementBits f / 8) := by
  cases f with
  | bpi | e2m1 => cases hw
  | _ => rfl

theorem elementBytes_whole (hf : ETy.ofCode t.fmt = some f) (hw : wholeBytes f = true) (r c : Nat) :
    t.elementBytes r c = (span 0 (elementBits f / 8)).map fun i =>
      (t.base + r * t.pitch * 64 + (c * (elementBits f / 8) + i), 0xFF) := by
  unfold Tile.elementBytes
  rw [tileBits_of hf, hf]
  simp only [Nat.add_assoc]
  cases f with
  | bpi | e2m1 => cases hw
  | _ => rfl

theorem elementBytes_nibble (hf : ETy.ofCode t.fmt = some .e2m1) (r c : Nat) :
    t.elementBytes r c = [(t.base + r * t.pitch * 64 + c / 2, if c % 2 = 0 then 0x0F else 0xF0)] := by
  unfold Tile.elementBytes
  rw [hf]

theorem elementBytes_planes (hf : ETy.ofCode t.fmt = some .bpi) (r c : Nat) :
    t.elementBytes r c = (span 0 8).map fun j =>
      (t.base + r * t.pitch * 64 + (c / 32 * 32 + 4 * j + c % 32 / 8), 1#8 <<< (c % 8)) := by
  unfold Tile.elementBytes
  rw [hf]
  simp only [Nat.add_assoc]

theorem scatter_whole (hf : ETy.ofCode t.fmt = some f) (hw : wholeBytes f = true) (c x : Nat) :
    t.scatter c x = leBytes (elementBits f / 8) x := by
  unfold Tile.scatter
  rw [tileBits_of hf, hf]
  cases f with
  | bpi | e2m1 => cases hw
  | _ => rfl

theorem gather_whole (hf : ETy.ofCode t.fmt = some f) (hw : wholeBytes f = true) (c : Nat) (bs : List Byte) :
    t.gather c bs = leNat bs := by
  unfold Tile.gather
  rw [hf]
  cases f with
  | bpi | e2m1 => cases hw
  | _ => rfl

end Element

/-! Bytes that agree under a mask hold the same fields within it. -/

theorem leNat_leBytes (n x : Nat) : leNat (leBytes n x) = x % 2 ^ (8 * n) := by
  induction n generalizing x with
  | zero => simp [leBytes, leNat, Nat.mod_one]
  | succ n ih =>
    rw [leBytes, leNat, ih, BitVec.toNat_ofNat, show 8 * (n + 1) = 8 + 8 * n by omega, Nat.pow_add, Nat.mod_mul]

theorem bitsOf_congr_mask {a b m : Byte} {lo n : Nat} (h : a &&& m = b &&& m) (hm : ∀ i < n, m.getLsbD (lo + i) = true) :
    bitsOf a.toNat lo n = bitsOf b.toNat lo n := by
  unfold bitsOf
  refine Nat.eq_of_testBit_eq fun i => ?_
  simp only [Nat.testBit_mod_two_pow, Nat.testBit_div_two_pow]
  by_cases hi : i < n
  · have hbit := congrArg (fun x : Byte => x.getLsbD (lo + i)) h
    simp only [BitVec.getLsbD_and, hm i hi, Bool.and_true] at hbit
    simpa [hi, BitVec.getLsbD, Nat.add_comm] using hbit
  · simp [hi]

theorem bitsOf_ofNat_shift {x k : Nat} (n : Nat) (hx : x < 2 ^ n) (hk : k + n ≤ 8) :
    bitsOf (BitVec.ofNat 8 (x * 2 ^ k)).toNat k n = x := by
  have hlt : x * 2 ^ k < 2 ^ 8 := by
    calc x * 2 ^ k < 2 ^ n * 2 ^ k := Nat.mul_lt_mul_of_pos_right hx (Nat.two_pow_pos k)
      _ = 2 ^ (n + k) := (Nat.pow_add ..).symm
      _ ≤ 2 ^ 8 := Nat.pow_le_pow_right (by decide) (by omega)
  rw [BitVec.toNat_ofNat, Nat.mod_eq_of_lt hlt, bitsOf, Nat.mul_div_cancel _ (Nat.two_pow_pos k), Nat.mod_eq_of_lt hx]

/-- Bits taken from the highest down make up the value. -/
theorem foldl_bits (x : Nat) {lo n hi : Nat} (acc : Nat) (h : hi + 1 = lo + n) :
    (span lo n).foldl (fun acc j => 2 * acc + bitsOf x (hi - j) 1) acc = acc * 2 ^ n + x % 2 ^ n := by
  induction n generalizing lo acc with
  | zero => simp [span, Nat.mod_one]
  | succ n ih =>
    rw [span, List.foldl_cons, ih _ (by omega), show hi - lo = n by omega, bitsOf, pow_one, Nat.mod_pow_succ, Nat.pow_succ]
    ring

theorem map_of_agree {as : List (Nat × Byte)} {bs : List Byte} {byte : Nat → Byte} (hlen : as.length = bs.length)
    (hmask : ∀ e ∈ as, e.2 = BitVec.allOnes 8) (h : ∀ w ∈ as.zip bs, byte w.1.1 &&& w.1.2 = w.2 &&& w.1.2) :
    as.map (fun e => byte e.1) = bs := by
  induction as generalizing bs with
  | nil => exact (List.length_eq_zero_iff.1 hlen.symm).symm
  | cons e as ih =>
    cases bs with
    | nil => cases hlen
    | cons x bs =>
      have first := h (e, x) List.mem_cons_self
      rw [hmask e List.mem_cons_self, BitVec.and_allOnes, BitVec.and_allOnes] at first
      exact congrArg₂ List.cons first (ih (Nat.succ.inj hlen) (fun k hk => hmask k (List.mem_cons_of_mem _ hk))
        fun w hw => h w (List.mem_cons_of_mem _ hw))

section Gather

variable {t : Tile} {r c x : Nat} {byte : Nat → Byte}

theorem Tile.gather_of_agree_whole {f : ETy} (hf : ETy.ofCode t.fmt = some f) (hw : wholeBytes f = true)
    (h : ∀ w ∈ (t.elementBytes r c).zip (t.scatter c x), byte w.1.1 &&& w.1.2 = w.2 &&& w.1.2) :
    t.gather c ((t.elementBytes r c).map fun e => byte e.1) = x % 2 ^ elementBits f := by
  rw [scatter_whole hf hw] at h
  have hbytes : ((t.elementBytes r c).map fun e => byte e.1) = leBytes (elementBits f / 8) x := by
    refine map_of_agree ?_ (fun e he => ?_) h
    · rw [elementBytes_whole hf hw, List.length_map, length_span, leBytes_length]
    · rw [elementBytes_whole hf hw] at he
      obtain ⟨i, -, rfl⟩ := List.mem_map.1 he
      rfl
  rw [gather_whole hf hw, hbytes, leNat_leBytes, ← elementBits_whole hw]

theorem Tile.gather_of_agree_nibble (hf : ETy.ofCode t.fmt = some .e2m1)
    (h : ∀ w ∈ (t.elementBytes r c).zip (t.scatter c x), byte w.1.1 &&& w.1.2 = w.2 &&& w.1.2) :
    t.gather c ((t.elementBytes r c).map fun e => byte e.1) = x % 2 ^ elementBits .e2m1 := by
  have hs : t.scatter c x = [BitVec.ofNat 8 (x % 16 * (if c % 2 = 0 then 1 else 16))] := by rw [Tile.scatter, hf]
  have hg : ∀ b : Byte, t.gather c [b] = bitsOf b.toNat (c % 2 * 4) 4 := fun b => by rw [Tile.gather, hf]; rfl
  rw [elementBytes_nibble hf] at h ⊢
  rw [hs] at h
  have agree := h _ List.mem_cons_self
  rw [List.map_cons, List.map_nil, hg]
  have hx : x % 16 < 2 ^ 4 := Nat.mod_lt _ (by decide)
  rcases Nat.mod_two_eq_zero_or_one c with hc | hc
  · simp only [hc, if_true] at agree ⊢
    rw [bitsOf_congr_mask (lo := 0) agree (by decide)]
    exact bitsOf_ofNat_shift (k := 0) 4 hx (by decide)
  · simp only [hc, Nat.one_ne_zero, if_false] at agree ⊢
    rw [bitsOf_congr_mask (lo := 4) agree (by decide)]
    exact bitsOf_ofNat_shift (k := 4) 4 hx (by decide)

theorem Tile.gather_of_agree_planes (hf : ETy.ofCode t.fmt = some .bpi)
    (h : ∀ w ∈ (t.elementBytes r c).zip (t.scatter c x), byte w.1.1 &&& w.1.2 = w.2 &&& w.1.2) :
    t.gather c ((t.elementBytes r c).map fun e => byte e.1) = x % 2 ^ elementBits .bpi := by
  have hs : t.scatter c x = (span 0 8).map fun j => BitVec.ofNat 8 (bitsOf x (7 - j) 1 * 2 ^ (c % 8)) := by
    rw [Tile.scatter, hf]
  have hg : ∀ bs : List Byte, t.gather c bs =
      (span 0 8).foldl (fun acc j => 2 * acc + bitsOf (bs.getD j 0).toNat (c % 8) 1) 0 := fun bs => by
    rw [Tile.gather, hf]
  rw [elementBytes_planes hf] at h ⊢
  rw [hs, List.zip_map'] at h
  have hc : c % 8 < 8 := Nat.mod_lt _ (by decide)
  have hmask : ∀ i < 1, (1#8 <<< (c % 8)).getLsbD (c % 8 + i) = true := fun i hi => by
    obtain rfl : i = 0 := by omega
    simp [hc]
  have plane : ∀ j ∈ span 0 8,
      bitsOf (byte (t.base + r * t.pitch * 64 + (c / 32 * 32 + 4 * j + c % 32 / 8))).toNat (c % 8) 1 =
        bitsOf x (7 - j) 1 := fun j hj => by
    rw [bitsOf_congr_mask (h _ (List.mem_map_of_mem hj)) hmask]
    exact bitsOf_ofNat_shift 1 (Nat.mod_lt _ (by decide)) (by omega)
  have hx := foldl_bits x (lo := 0) (n := 8) (hi := 7) 0 rfl
  rw [Nat.zero_mul, Nat.zero_add] at hx
  rw [hg, List.map_map]
  refine Eq.trans ?_ hx
  refine List.foldl_ext _ _ 0 fun acc j hj => ?_
  have hj8 : j < 8 := by have := (mem_span _ _ _).1 hj; omega
  rw [← plane j hj]
  interval_cases j <;> rfl

/-- An element reads back as what was scattered over its bits, whatever the other bits of its bytes hold. -/
theorem Tile.gather_of_agree {f : ETy} (hf : ETy.ofCode t.fmt = some f)
    (h : ∀ w ∈ (t.elementBytes r c).zip (t.scatter c x), byte w.1.1 &&& w.1.2 = w.2 &&& w.1.2) :
    t.gather c ((t.elementBytes r c).map fun e => byte e.1) = x % 2 ^ tileBits t.fmt := by
  rw [tileBits_of hf]
  by_cases hw : wholeBytes f = true
  · exact Tile.gather_of_agree_whole hf hw h
  · cases f with
    | e2m1 => exact Tile.gather_of_agree_nibble hf h
    | bpi => exact Tile.gather_of_agree_planes hf h
    | _ => exact absurd rfl hw

end Gather

/-! Where the elements of a tile lie: within its rows, apart from one another. -/

/-- Columns in whole groups of 32, and rows that do not run into one another. -/
def Tile.Spaced (t : Tile) : Prop := t.cols % 32 = 0 ∧ t.rowBytes ≤ t.pitch * 64

/-- An offset in row r of a tile. -/
def Tile.InRow (t : Tile) (r o : Nat) : Prop :=
  t.base + r * (t.pitch * 64) ≤ o ∧ o < t.base + r * (t.pitch * 64) + t.pitch * 64

section Spots

variable {t : Tile} {f : ETy} {r c : Nat}

theorem Tile.inRow_elementBytes (hf : ETy.ofCode t.fmt = some f) (hs : t.Spaced) (hc : c < t.cols) {e : Nat × Byte}
    (he : e ∈ t.elementBytes r c) : t.InRow r e.1 := by
  obtain ⟨hcols, hrow⟩ := hs
  have hassoc : r * t.pitch * 64 = r * (t.pitch * 64) := Nat.mul_assoc ..
  unfold Tile.rowBytes at hrow
  rw [tileBits_of hf] at hrow
  unfold Tile.InRow
  by_cases hw : wholeBytes f = true
  · rw [elementBytes_whole hf hw] at he
    obtain ⟨i, hi, rfl⟩ := List.mem_map.1 he
    have hi := ((mem_span _ _ _).1 hi).2
    have hbits := elementBits_whole hw
    generalize elementBits f / 8 = z at *
    have hfit : (c + 1) * z ≤ t.cols * z := Nat.mul_le_mul_right z hc
    have hsize : (t.cols * (8 * z) + 7) / 8 = t.cols * z := by
      rw [show t.cols * (8 * z) = 8 * (t.cols * z) by ring]
      omega
    rw [hbits, hsize] at hrow
    rw [Nat.succ_mul] at hfit
    dsimp only
    omega
  · cases f with
    | e2m1 =>
      rw [elementBytes_nibble hf] at he
      obtain rfl := List.mem_singleton.1 he
      have : (t.cols * 4 + 7) / 8 ≤ t.pitch * 64 := hrow
      dsimp only
      omega
    | bpi =>
      rw [elementBytes_planes hf] at he
      obtain ⟨j, hj, rfl⟩ := List.mem_map.1 he
      have hj := ((mem_span _ _ _).1 hj).2
      have : (t.cols * 8 + 7) / 8 ≤ t.pitch * 64 := hrow
      dsimp only
      omega
    | _ => exact absurd rfl hw

/-- Two bytes of elements leave one another untouched: they lie apart, or their masks do. -/
def Untouched (e e' : Nat × Byte) : Prop := e.1 ≠ e'.1 ∨ e.2 &&& e'.2 = 0

theorem shift_and_shift {a b : Nat} (h : a ≠ b) : (1#8 <<< a) &&& (1#8 <<< b) = 0 := by
  refine BitVec.eq_of_getLsbD_eq fun i hi => ?_
  simp
  omega

theorem Tile.elementBytes_apart_row (hf : ETy.ofCode t.fmt = some f) {c' : Nat} (hne : c ≠ c') {e e' : Nat × Byte}
    (he : e ∈ t.elementBytes r c) (he' : e' ∈ t.elementBytes r c') : Untouched e e' := by
  unfold Untouched
  by_cases hw : wholeBytes f = true
  · rw [elementBytes_whole hf hw] at he he'
    obtain ⟨i, hi, rfl⟩ := List.mem_map.1 he
    obtain ⟨i', hi', rfl⟩ := List.mem_map.1 he'
    have hi := ((mem_span _ _ _).1 hi).2
    have hi' := ((mem_span _ _ _).1 hi').2
    rw [Nat.zero_add] at hi hi'
    refine .inl fun heq => hne ?_
    have hsame : c * (elementBits f / 8) + i = c' * (elementBits f / 8) + i' := Nat.add_left_cancel heq
    calc c = (c * (elementBits f / 8) + i) / (elementBits f / 8) := by
          rw [Nat.mul_comm, Nat.mul_add_div (by omega), Nat.div_eq_of_lt hi, Nat.add_zero]
      _ = c' := by rw [hsame, Nat.mul_comm, Nat.mul_add_div (by omega), Nat.div_eq_of_lt hi', Nat.add_zero]
  · cases f with
    | e2m1 =>
      rw [elementBytes_nibble hf] at he he'
      obtain rfl := List.mem_singleton.1 he
      obtain rfl := List.mem_singleton.1 he'
      rcases Nat.mod_two_eq_zero_or_one c with h | h <;> rcases Nat.mod_two_eq_zero_or_one c' with h' | h'
      · exact .inl (by dsimp only; omega)
      · exact .inr (by simp [h, h'])
      · exact .inr (by simp [h, h'])
      · exact .inl (by dsimp only; omega)
    | bpi =>
      rw [elementBytes_planes hf] at he he'
      obtain ⟨j, hj, rfl⟩ := List.mem_map.1 he
      obtain ⟨j', hj', rfl⟩ := List.mem_map.1 he'
      have hj := ((mem_span _ _ _).1 hj).2
      have hj' := ((mem_span _ _ _).1 hj').2
      by_cases hmod : c % 8 = c' % 8
      · exact .inl (by dsimp only; omega)
      · exact .inr (shift_and_shift hmod)
    | _ => exact absurd rfl hw

/-- Elements do not touch one another. -/
theorem Tile.elementBytes_apart (hf : ETy.ofCode t.fmt = some f) (hs : t.Spaced) {r' c' : Nat} (hc : c < t.cols)
    (hc' : c' < t.cols) (hne : (r, c) ≠ (r', c')) {e e' : Nat × Byte} (he : e ∈ t.elementBytes r c)
    (he' : e' ∈ t.elementBytes r' c') : Untouched e e' := by
  obtain ⟨hlo, hhi⟩ := Tile.inRow_elementBytes hf hs hc he
  obtain ⟨hlo', hhi'⟩ := Tile.inRow_elementBytes hf hs hc' he'
  by_cases hr : r = r'
  · subst hr
    exact Tile.elementBytes_apart_row hf (fun h => hne (by rw [h])) he he'
  · refine .inl fun heq => hr ?_
    rw [heq] at hlo hhi
    exact Nat.le_antisymm
      (Nat.le_of_lt_succ (Nat.lt_of_mul_lt_mul_right (a := t.pitch * 64) (by rw [Nat.succ_mul]; omega)))
      (Nat.le_of_lt_succ (Nat.lt_of_mul_lt_mul_right (a := t.pitch * 64) (by rw [Nat.succ_mul]; omega)))

/-- The bytes of one element lie apart. -/
theorem Tile.elementBytes_distinct (hf : ETy.ofCode t.fmt = some f) :
    (t.elementBytes r c).Pairwise fun e e' => e.1 ≠ e'.1 := by
  by_cases hw : wholeBytes f = true
  · rw [elementBytes_whole hf hw, List.pairwise_map]
    exact (span_sorted _ _).imp fun h => by dsimp only; omega
  · cases f with
    | e2m1 => rw [elementBytes_nibble hf]; exact List.pairwise_singleton ..
    | bpi =>
      rw [elementBytes_planes hf, List.pairwise_map]
      exact (span_sorted _ _).imp fun h => by dsimp only; omega
    | _ => exact absurd rfl hw

end Spots

/-! What a byte holds under a mask after masked writes. -/

/-- A swizzle undoes itself, as it leaves the bits that it works from (04 R87). -/
theorem swizzle_swizzle (m a : Nat) : swizzle m (swizzle m a) = a := by
  by_cases hm : m = 0
  · simp [swizzle, hm]
  · have hdiv := swizzle_div m a (show 11 ≤ 10 + m by omega)
    rw [swizzle, if_neg hm, hdiv, swizzle, if_neg hm, Nat.xor_assoc, Nat.xor_self, Nat.xor_zero]

theorem spadChip_swizzle_injective {core base m a a' : Nat}
    (h : spadChip core (base + swizzle m a) = spadChip core (base + swizzle m a')) : a = a' := by
  have hsame : swizzle m a = swizzle m a' := by unfold spadChip at h; omega
  rw [← swizzle_swizzle m a, hsame, swizzle_swizzle]

theorem masked_write_same (x d m : Byte) : ((x &&& ~~~m) ||| (d &&& m)) &&& m = d &&& m := by
  ext i hi
  simp
  cases m[i] <;> simp

theorem masked_write_apart (x d : Byte) {m m' : Byte} (h : m &&& m' = 0) :
    ((x &&& ~~~m) ||| (d &&& m)) &&& m' = x &&& m' := by
  ext i hi
  have hbit := congrArg (fun b : Byte => b[i]) h
  simp at hbit ⊢
  cases hm : m[i] <;> simp [hm] at hbit ⊢
  simp [hbit]

section Elements

variable {b : Block} {t : Tile} {f : ETy}

/-- The place of an offset of a tile in the on-chip map. -/
def tileOc (b : Block) (t : Tile) (o : Nat) : Nat := spadChip b.core (b.spadBase + swizzle t.sw o)

/-- One byte of an element, under its mask. -/
def State.putMasked (s : State) (b : Block) (t : Tile) (w : (Nat × Byte) × Byte) : State :=
  s.setChipByte (tileOc b t w.1.1) ((s.chipByte (tileOc b t w.1.1) &&& ~~~w.1.2) ||| (w.2 &&& w.1.2))

theorem State.setTileElem_eq (s : State) (r c x : Nat) :
    s.setTileElem b t r c x =
      ((t.elementBytes r c).zip (t.scatter c x)).foldl (fun u w => u.putMasked b t w) s := rfl

/-- The rows 0 to n - 1 of a tile lie in the scratchpad of its core, with what a swizzle adds. -/
def TileInScratch (b : Block) (t : Tile) (n : Nat) : Prop :=
  b.core < 1536 ∧ b.spadBase + t.base + n * (t.pitch * 64) + 2048 ≤ 2 ^ 21

theorem tileOc_inScratch {n r o : Nat} (h : TileInScratch b t n) (hr : r < n) (ho : t.InRow r o) :
    InScratch (tileOc b t o) 1 := by
  obtain ⟨hcore, hend⟩ := h
  have hfit : (r + 1) * (t.pitch * 64) ≤ n * (t.pitch * 64) := Nat.mul_le_mul_right _ hr
  rw [Nat.succ_mul] at hfit
  have hsw := swizzle_lt t.sw o
  unfold Tile.InRow at ho
  unfold InScratch tileOc spadChip
  omega

theorem State.putMasked_frame (s : State) {w : (Nat × Byte) × Byte} (h : InScratch (tileOc b t w.1.1) 1) :
    ScratchOnly s (s.putMasked b t w) :=
  State.setChipBytes_frame s _ [_] h

theorem State.chipByte_putMasked_same (s : State) {w : (Nat × Byte) × Byte} (h : InScratch (tileOc b t w.1.1) 1) :
    (s.putMasked b t w).chipByte (tileOc b t w.1.1) &&& w.1.2 = w.2 &&& w.1.2 := by
  have := State.chipByte_setChipBytes_any s (bs := [(s.chipByte (tileOc b t w.1.1) &&& ~~~w.1.2) ||| (w.2 &&& w.1.2)]) h
    (tileOc b t w.1.1)
  rw [if_pos (by simp), Nat.sub_self] at this
  rw [← masked_write_same (s.chipByte (tileOc b t w.1.1)) w.2 w.1.2]
  exact congrArg (· &&& w.1.2) this

theorem State.chipByte_putMasked_apart (s : State) {w : (Nat × Byte) × Byte} (h : InScratch (tileOc b t w.1.1) 1)
    {e : Nat × Byte} (ha : Untouched w.1 e) :
    (s.putMasked b t w).chipByte (tileOc b t e.1) &&& e.2 = s.chipByte (tileOc b t e.1) &&& e.2 := by
  have hread := State.chipByte_setChipBytes_any s
    (bs := [(s.chipByte (tileOc b t w.1.1) &&& ~~~w.1.2) ||| (w.2 &&& w.1.2)]) h (tileOc b t e.1)
  by_cases ho : w.1.1 = e.1
  · have hmask : w.1.2 &&& e.2 = 0 := ha.resolve_left fun hne => hne ho
    rw [← ho] at hread ⊢
    rw [if_pos (by simp), Nat.sub_self] at hread
    rw [← masked_write_apart (s.chipByte (tileOc b t w.1.1)) w.2 hmask]
    exact congrArg (· &&& e.2) hread
  · have hne : tileOc b t e.1 ≠ tileOc b t w.1.1 := fun heq => ho (spadChip_swizzle_injective heq).symm
    rw [if_neg (by simp only [List.length_singleton]; omega)] at hread
    exact congrArg (· &&& e.2) hread

section Fold

variable {ws : List ((Nat × Byte) × Byte)}

theorem State.putAll_frame (s : State) (h : ∀ w ∈ ws, InScratch (tileOc b t w.1.1) 1) :
    ScratchOnly s (ws.foldl (fun u w => u.putMasked b t w) s) := by
  induction ws generalizing s with
  | nil => rfl
  | cons w ws ih =>
    exact ScratchOnly.trans (State.putMasked_frame s (h w List.mem_cons_self))
      (ih _ fun v hv => h v (List.mem_cons_of_mem _ hv))

theorem State.chipByte_putAll_apart (s : State) (h : ∀ w ∈ ws, InScratch (tileOc b t w.1.1) 1) {e : Nat × Byte}
    (ha : ∀ w ∈ ws, Untouched w.1 e) :
    (ws.foldl (fun u w => u.putMasked b t w) s).chipByte (tileOc b t e.1) &&& e.2 =
      s.chipByte (tileOc b t e.1) &&& e.2 := by
  induction ws generalizing s with
  | nil => rfl
  | cons w ws ih =>
    exact (ih _ (fun v hv => h v (List.mem_cons_of_mem _ hv)) fun v hv => ha v (List.mem_cons_of_mem _ hv)).trans
      (State.chipByte_putMasked_apart s (h w List.mem_cons_self) (ha w List.mem_cons_self))

theorem State.chipByte_putAll_same (s : State) (h : ∀ w ∈ ws, InScratch (tileOc b t w.1.1) 1)
    (hd : ws.Pairwise fun w v => Untouched v.1 w.1) {w : (Nat × Byte) × Byte} (hw : w ∈ ws) :
    (ws.foldl (fun u w => u.putMasked b t w) s).chipByte (tileOc b t w.1.1) &&& w.1.2 = w.2 &&& w.1.2 := by
  induction ws generalizing s with
  | nil => cases hw
  | cons v ws ih =>
    obtain ⟨hv, hd⟩ := List.pairwise_cons.1 hd
    have htail : ∀ w ∈ ws, InScratch (tileOc b t w.1.1) 1 := fun w hw => h w (List.mem_cons_of_mem _ hw)
    rcases List.mem_cons.1 hw with rfl | hw
    · exact (State.chipByte_putAll_apart _ htail hv).trans (State.chipByte_putMasked_same s (h _ List.mem_cons_self))
    · exact ih _ htail hd hw

end Fold

theorem pairwise_zip {α β : Type} {R : α → α → Prop} {as : List α} (h : as.Pairwise R) (bs : List β) :
    (as.zip bs).Pairwise fun w v => R w.1 v.1 := by
  induction h generalizing bs with
  | nil => exact List.Pairwise.nil
  | cons ha _ ih =>
    cases bs with
    | nil => exact List.Pairwise.nil
    | cons b bs => exact List.Pairwise.cons (fun v hv => ha _ (List.of_mem_zip hv).1) (ih bs)

/-- The bytes of an element hold a code. -/
def State.Holds (s : State) (b : Block) (t : Tile) (r c x : Nat) : Prop :=
  ∀ w ∈ (t.elementBytes r c).zip (t.scatter c x), s.chipByte (tileOc b t w.1.1) &&& w.1.2 = w.2 &&& w.1.2

theorem State.tileElem_of_holds {s : State} (hf : ETy.ofCode t.fmt = some f) {r c x : Nat} (h : s.Holds b t r c x) :
    s.tileElem b t r c = x % 2 ^ tileBits t.fmt :=
  Tile.gather_of_agree (byte := fun o => s.chipByte (tileOc b t o)) hf h

section SetElem

variable {n r c : Nat}

theorem zip_inScratch (hf : ETy.ofCode t.fmt = some f) (hs : t.Spaced) (hin : TileInScratch b t n) (hr : r < n)
    (hc : c < t.cols) (bs : List Byte) : ∀ w ∈ (t.elementBytes r c).zip bs, InScratch (tileOc b t w.1.1) 1 := fun _ hw =>
  tileOc_inScratch hin hr (Tile.inRow_elementBytes hf hs hc (List.of_mem_zip hw).1)

theorem State.setTileElem_frame (s : State) (hf : ETy.ofCode t.fmt = some f) (hs : t.Spaced) (hin : TileInScratch b t n)
    (hr : r < n) (hc : c < t.cols) (x : Nat) : ScratchOnly s (s.setTileElem b t r c x) :=
  State.putAll_frame s (zip_inScratch hf hs hin hr hc _)

theorem State.holds_setTileElem_same (s : State) (hf : ETy.ofCode t.fmt = some f) (hs : t.Spaced)
    (hin : TileInScratch b t n) (hr : r < n) (hc : c < t.cols) (x : Nat) :
    (s.setTileElem b t r c x).Holds b t r c x := by
  have hd : ((t.elementBytes r c).zip (t.scatter c x)).Pairwise fun w v => Untouched v.1 w.1 :=
    (pairwise_zip (Tile.elementBytes_distinct hf) _).imp fun hne => .inl hne.symm
  exact fun w hw => State.chipByte_putAll_same s (zip_inScratch hf hs hin hr hc _) hd hw

theorem State.holds_setTileElem_other {s : State} (hf : ETy.ofCode t.fmt = some f) (hs : t.Spaced)
    (hin : TileInScratch b t n) (hr : r < n) (hc : c < t.cols) (x : Nat) {r' c' y : Nat} (hc' : c' < t.cols)
    (hne : (r, c) ≠ (r', c')) (h : s.Holds b t r' c' y) : (s.setTileElem b t r c x).Holds b t r' c' y := fun w hw =>
  (State.chipByte_putAll_apart s (zip_inScratch hf hs hin hr hc _) fun _ hv =>
    Tile.elementBytes_apart hf hs hc hc' hne (List.of_mem_zip hv).1 (List.of_mem_zip hw).1).trans (h w hw)

end SetElem

end Elements

/-! The whole conversion: the elements of the tile, its state, and what keeps a tile from taking it. -/

theorem bitsOf_withState (w : Word) {st : Nat} (h : st < 4) : bitsOf (withState w st).toNat 62 2 = st := by
  have hmask : ∀ i < 2, (0x3FFFFFFFFFFFFFFF#64).getLsbD (62 + i) = false := by decide
  unfold bitsOf
  refine Nat.eq_of_testBit_eq fun i => ?_
  simp only [Nat.testBit_mod_two_pow, Nat.testBit_div_two_pow]
  by_cases hi : i < 2
  · have hbit : (withState w st).getLsbD (62 + i) = st.testBit i := by
      have hor : withState w st = (w &&& 0x3FFFFFFFFFFFFFFF#64) ||| (BitVec.ofNat 64 st <<< 62) := rfl
      rw [hor, BitVec.getLsbD_or, BitVec.getLsbD_and, hmask i hi, Bool.and_false, Bool.false_or, BitVec.getLsbD_shiftLeft,
        Nat.add_sub_cancel_left, BitVec.getLsbD_ofNat]
      simp [show 62 + i < 64 by omega, show i < 64 by omega]
    simpa [hi, BitVec.getLsbD, Nat.add_comm] using hbit
  · rw [Nat.testBit_lt_two_pow (Nat.lt_of_lt_of_le h (Nat.pow_le_pow_right (n := 2) (by decide) (Nat.le_of_not_lt hi)))]
    simp [hi]

theorem State.tile_setTileState (s : State) (bk n : Nat) {st : Nat} (h : st < 4) :
    ((s.setTileState bk n st).tile bk n).state = st := by
  have hword : (s.setTileState bk n st).tileWord bk n 0 = withState (s.tileWord bk n 0) st := Cells.get_set_same ..
  unfold State.tile tileOf
  rw [hword]
  exact bitsOf_withState _ h

theorem ETy.ofCode_code (f : ETy) : ETy.ofCode f.code = some f := by cases f <;> rfl

/-- Elements of a tile of 32 columns written in row-major order. -/
def State.putElems (s : State) (b : Block) (t : Tile) (code : Nat → Nat) (es : List Nat) : State :=
  es.foldl (fun u e => u.setTileElem b t (e / 32) (e % 32) (code e)) s

section PutElems

variable {b : Block} {t : Tile} {f : ETy} {n : Nat} {code : Nat → Nat} {es : List Nat}

theorem mod_lt_cols (hcols : t.cols = 32) (e : Nat) : e % 32 < t.cols := by
  rw [hcols]
  exact Nat.mod_lt _ (by decide)

theorem State.putElems_frame (s : State) (hf : ETy.ofCode t.fmt = some f) (hs : t.Spaced) (hin : TileInScratch b t n)
    (hcols : t.cols = 32) (hes : ∀ e ∈ es, e / 32 < n) : ScratchOnly s (s.putElems b t code es) := by
  induction es generalizing s with
  | nil => rfl
  | cons e es ih =>
    exact ScratchOnly.trans
      (State.setTileElem_frame s hf hs hin (hes e List.mem_cons_self) (mod_lt_cols hcols e) (code e))
      (ih _ fun k hk => hes k (List.mem_cons_of_mem _ hk))

theorem State.holds_putElems_other {s : State} (hf : ETy.ofCode t.fmt = some f) (hs : t.Spaced) (hin : TileInScratch b t n)
    (hcols : t.cols = 32) (hes : ∀ e ∈ es, e / 32 < n) {k x : Nat} (hk : ∀ e ∈ es, k ≠ e)
    (h : s.Holds b t (k / 32) (k % 32) x) : (s.putElems b t code es).Holds b t (k / 32) (k % 32) x := by
  induction es generalizing s with
  | nil => exact h
  | cons e es ih =>
    have hne : (e / 32, e % 32) ≠ (k / 32, k % 32) := fun heq => hk e List.mem_cons_self (by
      obtain ⟨hdiv, hmod⟩ := Prod.mk.inj heq
      omega)
    exact ih (fun j hj => hes j (List.mem_cons_of_mem _ hj)) (fun j hj => hk j (List.mem_cons_of_mem _ hj))
      (State.holds_setTileElem_other hf hs hin (hes e List.mem_cons_self) (mod_lt_cols hcols e) (code e)
        (mod_lt_cols hcols k) hne h)

theorem State.holds_putElems (s : State) (hf : ETy.ofCode t.fmt = some f) (hs : t.Spaced) (hin : TileInScratch b t n)
    (hcols : t.cols = 32) (hes : ∀ e ∈ es, e / 32 < n) (hsorted : es.Pairwise fun j k => j < k) {e : Nat} (he : e ∈ es) :
    (s.putElems b t code es).Holds b t (e / 32) (e % 32) (code e) := by
  induction es generalizing s with
  | nil => cases he
  | cons k es ih =>
    obtain ⟨hk, hsorted⟩ := List.pairwise_cons.1 hsorted
    have htail : ∀ j ∈ es, j / 32 < n := fun j hj => hes j (List.mem_cons_of_mem _ hj)
    rcases List.mem_cons.1 he with rfl | he
    · exact State.holds_putElems_other hf hs hin hcols htail (fun j hj => Nat.ne_of_lt (hk j hj))
        (State.holds_setTileElem_same s hf hs hin (hes _ List.mem_cons_self) (mod_lt_cols hcols e) (code e))
    · exact ih _ htail hsorted he

end PutElems

/-- An accumulator element that an ACCRD reads. -/
def State.accCode (s : State) (c : Ctx) (acc e : Nat) : Nat :=
  (Cells.get s.acc (accKey c.b.core (c.b.accBase + acc) e)).toNat

/-- The state of an ACCRD before it converts the elements of a list: the stream after it, its flags, and the tile in
transfer on its slot. -/
def State.accrdBegun (s : State) (c : Ctx) (h : Held) (f : ETy) (i32 : Bool) (rm : Rounding) (n acc k t : Nat)
    (es : List Nat) : State :=
  let tk := c.g.thread ((lanesOf h.lanes).headD 0)
  let r := accConvert f i32 rm (es.map (s.accCode c acc)) (s.thread tk).rs
  let u := (s.setThread tk { s.thread tk with rs := r.2 }).flag c (r.1.any fun x => x.sat) (r.1.any fun x => x.inv)
  let v := u.setTileState c.g.block n tileFilling
  { v with fills := AMap.put v.fills (c.g.block * 64 + n) (k, t) }

theorem foldl_zip_map {α β σ : Type} (F : σ → β → α → σ) (g : α → β) (s : σ) (l : List α) :
    ((l.map g).zip l).foldl (fun u e => F u e.1 e.2) s = l.foldl (fun u a => F u (g a) a) s := by
  induction l generalizing s with
  | nil => rfl
  | cons a l ih => exact ih _

/-- The elements of an ACCRD as the conversions give them. -/
def State.accrdElems (s : State) (c : Ctx) (h : Held) (f : ETy) (i32 : Bool) (rm : Rounding) (n acc k t : Nat)
    (es : List Nat) : State :=
  let r := accConvert f i32 rm (es.map (s.accCode c acc)) (s.thread (c.g.thread ((lanesOf h.lanes).headD 0))).rs
  (r.1.zip es).foldl (fun u e => u.setTileElem c.b (s.tile c.g.block n) (e.2 / 32) (e.2 % 32) e.1.code)
    (s.accrdBegun c h f i32 rm n acc k t es)

theorem State.accrdElems_eq {f : ETy} {i32 : Bool} {rm : Rounding} (hrm : rm ≠ .rs) (s : State) (c : Ctx) (h : Held)
    (n acc k t : Nat) (es : List Nat) :
    s.accrdElems c h f i32 rm n acc k t es = (s.accrdBegun c h f i32 rm n acc k t es).putElems c.b (s.tile c.g.block n)
      (fun e => (convertTo f rm 0 (accValue i32 (s.accCode c acc e))).code) es := by
  unfold State.accrdElems State.putElems
  dsimp only
  rw [accConvert_not_rs f i32 hrm, List.map_map]
  exact foldl_zip_map (fun (u : State) (x : Conv) e => u.setTileElem c.b (s.tile c.g.block n) (e / 32) (e % 32) x.code)
    ((fun a => convertTo f rm 0 (accValue i32 a)) ∘ s.accCode c acc) _ es

/-- What an ACCRD comes to when its bytes have arrived, or overrun. -/
def State.accrdAfter (s : State) (c : Ctx) (h : Held) (k t : Nat) (r : Option State) : State :=
  match r with
  | some v => v
  | none => s.freeze c.g.block c.g.gid h.vpc true { slotFault k t with lanes := h.lanes }

/-- The elements of an ACCRD stand in its tile, and their bytes arrive. -/
def State.accrdArrives (s : State) (c : Ctx) (h : Held) (f : ETy) (k t : Nat) : State :=
  s.accrdAfter c h k t (s.arriveBytes c.g.block c.b c.l k t (512 * elementBits f / 8))

/-- An ACCRD that its checks let pass. (The functions that compute addresses stand as variables while the definition
unfolds: the kernel would evaluate them.) -/
theorem State.commitAccrd_of_pass {s : State} {c : Ctx} {f : ETy} {n k t : Nat} (i32 : Bool) (rm : Rounding) (acc : Nat)
    (h : Held) (hfault : s.accrdFault c f n = none) (hlink : s.tileLink c.b c.l (s.tile c.g.block n) = .ok (k, t)) :
    s.commitAccrd c h f i32 rm n acc = (s.accrdElems c h f i32 rm n acc k t (span 0 512)).accrdArrives c h f k t := by
  obtain ⟨arrive, harrive⟩ : ∃ arrive, arrive = State.arriveBytes := ⟨_, rfl⟩
  obtain ⟨link, htileLink⟩ : ∃ link, link = State.tileLink := ⟨_, rfl⟩
  obtain ⟨es, hspan⟩ : ∃ es, es = span 0 512 := ⟨_, rfl⟩
  rw [← htileLink] at hlink
  unfold State.commitAccrd State.accrdArrives
  rw [← harrive, ← htileLink, ← hspan, hfault]
  dsimp only
  rw [hlink]
  rfl

theorem State.accrdFault_none {s : State} {c : Ctx} {f : ETy} {n k t : Nat} (hcfg : (s.tile c.g.block n).cfg = true)
    (hfilling : (s.tile c.g.block n).state ≠ tileFilling) (hdraining : (s.tile c.g.block n).state ≠ tileDraining)
    (hrows : (s.tile c.g.block n).rows = 16) (hcols : (s.tile c.g.block n).cols = 32)
    (hfmt : (s.tile c.g.block n).fmt = f.code) (hlink : s.tileLink c.b c.l (s.tile c.g.block n) = .ok (k, t)) :
    s.accrdFault c f n = none := by
  unfold State.accrdFault Tile.accrdFault
  dsimp only
  rw [if_neg (not_or.2 ⟨hfilling, hdraining⟩), hlink, hcfg, hrows, hcols, hfmt]
  simp

/-- A kept ACCRD leaves its converted elements in the tile, in transfer on its slot (10 R231; 17 R345). -/
theorem aKeptAccrdFillsItsTile (s : State) (c : Ctx) (h : Held) (f : ETy) (i32 : Bool) (rm : Rounding)
    (n acc k t : Nat) (hpage : PageInScratch s c.b c.l) (hrm : rm ≠ .rs) :
    let x := s.tile c.g.block n
    x.cfg = true → x.state ≠ tileFilling → x.state ≠ tileDraining → s.tileLink c.b c.l x = .ok (k, t) →
    x.fmt = f.code → x.rows = 16 → x.cols = 32 → x.rowBytes ≤ x.pitch * 64 →
    c.b.spadBase + x.base + 16 * (x.pitch * 64) + 2048 ≤ 2 ^ 21 →
    let code (e : Nat) : Nat := (convertTo f rm 0 (let a := (Cells.get s.acc (accKey c.b.core (c.b.accBase + acc) e)).toNat
      if i32 then intValue (signedOf 32 a) else fmtF32.value a)).code
    ∃ u : State, (∀ e < 512, u.tileElem c.b x (e / 32) (e % 32) = code e % 2 ^ tileBits x.fmt) ∧
      (u.tile c.g.block n).state = tileFilling ∧ AMap.find? u.fills (c.g.block * 64 + n) = some (k, t) ∧
      s.commitAccrd c h f i32 rm n acc = u.accrdArrives c h f k t := by
  intro x hcfg hfilling hdraining hlink hfmt hrows hcols hrow hend code
  obtain ⟨hcore, -, -⟩ := hpage
  have hf : ETy.ofCode x.fmt = some f := hfmt ▸ ETy.ofCode_code f
  have hs : x.Spaced := ⟨by rw [hcols], hrow⟩
  have hin : TileInScratch c.b x 16 := ⟨hcore, hend⟩
  obtain ⟨es, hspan⟩ : ∃ es, span 0 512 = es := ⟨_, rfl⟩
  have hmem : ∀ e, e ∈ es ↔ e < 512 := fun e => by rw [← hspan, mem_span]; omega
  have hsorted : es.Pairwise fun j k => j < k := hspan ▸ span_sorted 0 512
  have hes : ∀ e ∈ es, e / 32 < 16 := fun e he => by
    have := (hmem e).1 he
    omega
  obtain ⟨v, hv⟩ : ∃ v, v = s.accrdBegun c h f i32 rm n acc k t es := ⟨_, rfl⟩
  obtain ⟨m, hm⟩ : ∃ m, v.putElems c.b x code es = { v with spad := m } :=
    ⟨_, State.putElems_frame v hf hs hin hcols hes⟩
  refine ⟨v.putElems c.b x code es, fun e he => ?_, ?_, ?_, ?_⟩
  · exact State.tileElem_of_holds hf (State.holds_putElems v hf hs hin hcols hes hsorted ((hmem e).2 he))
  · rw [hm, hv]
    exact State.tile_setTileState _ c.g.block n (by decide)
  · rw [hm, hv]
    exact AMap.find?_put_same ..
  · rw [State.commitAccrd_of_pass i32 rm acc h (State.accrdFault_none hcfg hfilling hdraining hrows hcols hfmt hlink) hlink,
      State.accrdElems_eq hrm, hspan, ← hv]
    rfl

/-- Settles O39: the region's end hands over a list of kept instructions, of which each is judged and acts by itself; an
ACCRD's elements stay apart from one another, as a swizzle undoes itself (`swizzle_swizzle`) and rows do not overlap. -/
theorem aRegionCommitHandsOverWhatItKept : Obligations.ARegionCommitHandsOverWhatItKept := by
  refine ⟨fun s c hc howner hrun hends hblocking hfault hmask => ?_, fun s c h hs _ => whatARegionKeptIsHandedOver s c h hs,
    fun s gd c h f i32 rm n acc k t hc hpage hrm => ?_⟩
  · obtain ⟨hwait, hover⟩ := aMatrixRegionEndsWithItsFills s c hc howner hrun hends hblocking hfault hmask
    exact ⟨hwait, fun hfilling hheld hfrozen hinflight _ _ _ => hover hfilling hheld hfrozen hinflight⟩
  · intro x hcfg hfilling hdraining hlink hfmt hrows hcols hrow hend code
    obtain ⟨u, helems, hstate, hfill, hcommit⟩ := aKeptAccrdFillsItsTile s c h f i32 rm n acc k t hpage hrm hcfg hfilling
      hdraining hlink hfmt hrows hcols hrow hend
    refine ⟨u, helems, hstate, hfill, hcommit.trans ?_⟩
    unfold State.accrdArrives
    generalize u.arriveBytes c.g.block c.b c.l k t (512 * elementBits f / 8) = r
    cases r <;> rfl

end Sys2Proof.Machine
end

section
/-! Faults (04 R110; 12 R268 to R271, R279). -/

namespace Sys2Proof.Machine

open Sys2Proof.Safety Sys2Proof.Claims

/-- A launch that runs begins to abort; of the launches no other changes (12 R270, R279). -/
theorem State.find_beginAbort {s : State} {lk cause code stamp : Nat} {l : Launch}
    (hl : AMap.find? s.launches lk = some l) (hcause : cause ≠ 4) (hrun : l.st.running = true) :
    AMap.find? (s.beginAbort lk cause code stamp).launches lk =
      some { l with st := .aborting, cause, code, codeAt := stamp } := by
  have hkill : (l.killed || cause == 4) = l.killed := by simp [hcause]
  simp [State.beginAbort, hl, hrun, hkill]

theorem State.find_beginAbort_other (s : State) {lk k : Nat} (cause code stamp : Nat) (hk : k ≠ lk) :
    AMap.find? (s.beginAbort lk cause code stamp).launches k = AMap.find? s.launches k :=
  AMap.find?_upd_other _ _ hk

theorem State.beginAbort_frame (s : State) (lk cause code stamp : Nat) :
    s.beginAbort lk cause code stamp = { s with launches := (s.beginAbort lk cause code stamp).launches } := rfl

/-- A record goes to the fault queue of the launch's context, behind those that are due already (12 R269). -/
theorem State.deliver_deliveries (s : State) (lk : Nat) (l : Launch) (recoverable : Bool) (bytes : List Byte) :
    (s.deliver lk l recoverable bytes).deliveries = s.deliveries ++
      [{ vi := l.vi, ctx := l.ctx, cb := ((s.context l.vi l.ctx).map fun x => x.faultQ).getD 0, launch := lk
         attempt := l.attempt, recoverable, bytes }] := by
  unfold State.deliver
  cases s.context l.vi l.ctx <;> rfl

theorem State.path_of_ctx {s : State} {gd : Guard} {c : Ctx} (hc : s.ctx gd = some c) : s.path c = c.p := by
  obtain ⟨-, hg, hp, -⟩ := State.ctx_eq hc
  exact State.path_of_find hg hp

theorem State.raise_lost {s : State} {c : Ctx} {f : Flt} (hf : f.lost = true) :
    s.raise c f = s.beginAbort c.b.launch 2 0 (stampAt s.time c.b.core) := by
  simp [State.raise, hf]

/-- A fault taken where it stands: a page that is not there stops the path, before the first matrix slot of a region;
any other freezes the block (03 R64, R67; 04 R110). -/
theorem State.raise_takenHere {s : State} {gd : Guard} {c : Ctx} {f : Flt} (hc : s.ctx gd = some c) (ht : takenHere c)
    (hf : f.lost = false) : s.raise c f =
      if f.code = .pageNotPresent ∧ c.afterMatrix = false then
        (s.waitOn c (.page f.addr (stampAt s.time c.b.core))).deliver c.b.launch c.l true
          (s.faultRecord c.b c.l c.g.gid f.code.num (1 + if c.l.irrevocable then 4 else 0) (s.vpc c) f.addr f.detail f.lanes)
      else (s.freeze c.g.block c.g.gid (s.vpc c) false f).waitOn c .fault := by
  have hsnap : (if (c.p.conservative || c.afterMatrix) = true then none else c.p.snap) = none := by
    rcases ht with h | h | h <;> simp [h]
  unfold State.raise
  dsimp only
  rw [State.path_of_ctx hc, if_neg (by rw [hf]; exact Bool.false_ne_true), hsnap]
  simp only [Bool.not_eq_true']

/-- The first fault of a block freezes it with a record, and the launch begins to abort but where HOLD keeps it (12 R269,
R270). -/
theorem State.freeze_of_ctx {s : State} {gd : Guard} {c : Ctx} {f : Flt} (hc : s.ctx gd = some c) (hf : f.lost = false)
    (hfirst : c.b.fault = none) :
    s.freeze c.g.block c.g.gid (s.vpc c) false f =
      let t := (s.updBlock c.g.block fun b => { b with st := .frozen, fault := some f, faultAt := s.time }).deliver c.b.launch
        c.l false (s.faultRecord c.b c.l c.g.gid f.code.num (recordFlags s c) (s.vpc c) f.addr f.detail f.lanes)
      if holds s c then t else t.beginAbort c.b.launch 1 f.code.num (stampAt s.time c.b.core) := by
  obtain ⟨-, -, -, hb, hl, -⟩ := State.ctx_eq hc
  unfold State.freeze
  rw [hb]
  dsimp only
  rw [if_neg (by rw [hf]; exact Bool.false_ne_true), if_neg (by rw [hfirst]; exact Bool.false_ne_true), hl]
  simp only [Bool.false_eq_true, if_false, Nat.zero_add]
  rfl

/-- The issuing path after a wait, in a state whose groups are those of the issue. -/
theorem State.find_waitOn {s t : State} {gd : Guard} {c : Ctx} (hc : s.ctx gd = some c) (ht : t.groups = s.groups) (w : Wait) :
    AMap.find? (t.waitOn c w).groups c.cur.grp = some { c.g with
        paths := c.g.paths.set c.cur.path { c.p with wait := w, waiter := c.pos } } ∧
      ∀ k, k ≠ c.cur.grp → AMap.find? (t.waitOn c w).groups k = AMap.find? s.groups k := by
  obtain ⟨-, hg, hp, -⟩ := State.ctx_eq hc
  refine ⟨?_, fun k hk => ht ▸ State.find_updCur_other hk _⟩
  rw [State.waitOn, State.find_updCur (ht.symm ▸ hg), updAt_eq_set _ _ _ _ hp]

theorem aFaultFreezesItsBlockAndAbortsItsLaunch : AFaultFreezesItsBlockAndAbortsItsLaunch := by
  intro s gd c f hc ht hcode hf hfirst
  obtain ⟨-, -, -, hb, hl, -⟩ := State.ctx_eq hc
  have hpage : ¬ (f.code = .pageNotPresent ∧ c.afterMatrix = false) := by
    rintro ⟨h, h'⟩
    exact hcode.elim (fun hne => hne h) fun hm => Bool.false_ne_true (h'.symm.trans hm)
  rw [State.raise_takenHere hc ht hf, if_neg hpage, State.freeze_of_ctx hc hf hfirst]
  dsimp only
  have hblock : AMap.find? (AMap.upd s.blocks c.g.block fun b => { b with st := .frozen, fault := some f, faultAt := s.time })
      c.g.block = some { c.b with st := .frozen, fault := some f, faultAt := s.time } := by
    rw [AMap.find?_upd_same, hb]
    rfl
  have hblocks : ∀ k, k ≠ c.g.block → AMap.find? (AMap.upd s.blocks c.g.block fun b =>
      { b with st := .frozen, fault := some f, faultAt := s.time }) k = AMap.find? s.blocks k :=
    fun k hk => AMap.find?_upd_other _ _ hk
  cases hhold : holds s c with
  | true =>
    rw [if_pos rfl]
    exact ⟨hblock, hblocks, State.deliver_deliveries .., fun _ => rfl, fun h => absurd (h.symm.trans hhold) Bool.false_ne_true,
      fun _ _ => rfl, (State.find_waitOn hc rfl .fault).1, (State.find_waitOn hc rfl .fault).2, rfl⟩
  | false =>
    rw [if_neg Bool.false_ne_true]
    exact ⟨hblock, hblocks, State.deliver_deliveries .., fun h => absurd (hhold.symm.trans h) Bool.false_ne_true,
      fun _ hrun => State.find_beginAbort hl (by decide) hrun, fun k hk => State.find_beginAbort_other _ _ _ _ hk,
      (State.find_waitOn hc rfl .fault).1, (State.find_waitOn hc rfl .fault).2, rfl⟩

theorem aDestroyedLineAbortsTheLaunch : ADestroyedLineAbortsTheLaunch := by
  intro s gd c f hc hf
  obtain ⟨-, -, -, -, hl, -⟩ := State.ctx_eq hc
  exact ⟨_, (State.raise_lost hf).trans (State.beginAbort_frame ..), State.find_beginAbort hl (by decide),
    fun k hk => State.find_beginAbort_other _ _ _ _ hk⟩

theorem anAbsentPageStopsThePathAlone : AnAbsentPageStopsThePathAlone := by
  intro s gd c f hc ht hcode hm hf
  rw [State.raise_takenHere hc ht hf, if_pos ⟨hcode, hm⟩, hcode]
  exact ⟨⟨(State.find_waitOn hc rfl _).1, (State.find_waitOn hc rfl _).2, rfl⟩, State.deliver_deliveries ..⟩

/-- Settles O6: a fault taken where it stands has one of two outcomes (`State.raise_takenHere`), a destroyed line a third. -/
theorem faultsStopTheBlockOrThePathAlone : Obligations.FaultsStopTheBlockOrThePathAlone :=
  ⟨aFaultFreezesItsBlockAndAbortsItsLaunch, anAbsentPageStopsThePathAlone, aDestroyedLineAbortsTheLaunch⟩

end Sys2Proof.Machine
end

section
/-! The checks of an access, and one that fails them (04 Table 4.1, R85; 12 R279; 17 R340). -/

namespace Sys2Proof.Machine

open Sys2Proof.Safety Sys2Proof.Claims

theorem State.resolve_misaligned {c : Ctx} {a : Nat} {need : Need} (h : a % need.n ≠ 0) (s : State) (sp : Space) (sw : Nat)
    (sc : Scope) (attr : Nat → Bool) :
    s.resolve c sp sw sc a need attr = (.fault { code := .align, detail := need.n, addr := a }, s) := by
  unfold State.resolve
  exact if_pos h

/-- Past its alignment an access to the own scratchpad is judged by the bounds, then a write by the barrier page. -/
theorem State.resolve_l {c : Ctx} {a : Nat} {need : Need} (h : a % need.n = 0) (s : State) (sw : Nat) (sc : Scope)
    (attr : Nat → Bool) : let size := (s.stageOf c.b c.l).spadSize
    s.resolve c .l sw sc a need attr =
      (if size < a + need.n then .fault { code := .permission, detail := 3, addr := a }
       else if need.write = true ∧ size < a + need.n + 4096 then .fault { code := .permission, detail := 5, addr := a }
       else .ok (.chip (c.b.core * 0x800000 + (c.b.spadBase + swizzle sw a))), s) := by
  intro size
  rw [State.resolve, if_neg (not_not.2 h)]
  refine congrArg (·, s) ?_
  change (match spadFault size a need with
    | some f => Resolved.fault f
    | none => .ok (.chip (spadChip c.b.core (c.b.spadBase + swizzle sw a)))) = _
  by_cases hbound : size < a + need.n
  · simp [spadFault, hbound]
  · by_cases hpage : need.write = true ∧ size < a + need.n + 4096
    · simp [spadFault, touchesPage, hbound, hpage]
    · rw [spadFault, if_neg hbound, if_neg (by simpa [touchesPage] using hpage), if_neg hbound, if_neg hpage]
      rfl

theorem State.resolve_g {c : Ctx} {a : Nat} {need : Need} (h : a % need.n = 0) (s : State) (sw : Nat) (sc : Scope)
    (attr : Nat → Bool) : s.resolve c .g sw sc a need attr = s.resolveG c.b.core c.l sc a need attr := by
  rw [State.resolve, if_neg (not_not.2 h)]

/-- Past its translation an access to the global space is judged by the attributes, the read set, the write set and, for
a write, the control rows. -/
theorem State.resolveG_of_translated {s t : State} {core va pa : Nat} {l : Launch} {x : Context} {need : Need}
    (hx : s.context l.vi l.ctx = some x)
    (ht : s.translate core x.satp (s.iface l.vi).hgatp va need.write = .ok (pa, t)) (sc : Scope) (attr : Nat → Bool) :
    s.resolveG core l sc va need attr =
      (let f := attrFlags l.attrs va
       if attr f = false then .fault { code := .attrMismatch, detail := f % 65536, addr := va }
       else if (need.write = false ∨ need.atomic = true) ∧ claimed l.claims false va need.n = false then
         .fault { code := .regionUnclaimed, detail := 0, addr := va }
       else if need.write = true ∧ claimed l.claims true va need.n = false then
         .fault { code := .regionUnclaimed, detail := 1, addr := va }
       else if need.write = true ∧ isControlRow pa = true then .fault { code := .permission, detail := 6, addr := va }
       else .ok (l.place f va pa sc), t) := by
  unfold State.resolveG
  rw [hx]
  dsimp only
  rw [ht]
  simp only [Bool.not_eq_true', Bool.and_eq_true, Bool.or_eq_true]
  split
  · rfl
  · split
    · rfl
    · split
      · rfl
      · split <;> rfl

theorem State.resolveG_of_untranslated {s : State} {core va : Nat} {l : Launch} {x : Context} {need : Need} {f : Flt}
    (hx : s.context l.vi l.ctx = some x)
    (ht : s.translate core x.satp (s.iface l.vi).hgatp va need.write = .error f) (sc : Scope) (attr : Nat → Bool) :
    s.resolveG core l sc va need attr = (.fault f, s) := by
  unfold State.resolveG
  rw [hx]
  dsimp only
  rw [ht]

theorem accessesAreCheckedInOrder : AccessesAreCheckedInOrder := by
  intro s c sw sc a need attr
  refine ⟨fun sp h => State.resolve_misaligned h .., fun h => State.resolve_l h ..,
    fun x h hx => ⟨fun f ht => ?_, fun pa t ht => ?_⟩⟩
  · rw [State.resolve_g h, State.resolveG_of_untranslated hx ht]
  · rw [State.resolve_g h, State.resolveG_of_translated hx ht]

/-! One that is turned away. -/

section Access

variable {s t : State} {c : Ctx} {m : MemRef} {sc : Scope} {need : Need} {attr : Nat → Bool} {lanes : List Nat}
  {rs : List (Nat × Resolved)} (k : State → List (Nat × Place) → State)

theorem State.access_of_fault (hrs : s.resolveLanes c m sc need attr lanes = (rs, t)) (hf : resolvedFaults rs ≠ []) :
    s.access c m sc need attr lanes k = t.raiseLanes c (resolvedFaults rs) := by
  unfold State.access
  rw [hrs]
  dsimp only
  cases h : resolvedFaults rs with
  | nil => exact absurd h hf
  | cons f fs => cases resolvedHold rs <;> rfl

theorem State.access_of_held {h : Nat} (hrs : s.resolveLanes c m sc need attr lanes = (rs, t)) (hf : resolvedFaults rs = [])
    (hh : resolvedHold rs = some h) : s.access c m sc need attr lanes k = t.waitOn c (.window h) := by
  unfold State.access
  rw [hrs]
  dsimp only
  rw [hf, hh]

theorem State.access_of_poisoned (hrs : s.resolveLanes c m sc need attr lanes = (rs, t)) (hf : resolvedFaults rs = [])
    (hh : resolvedHold rs = none) (hp : ∃ e ∈ resolvedPlaces rs, t.poisonedAt e.2 = true) :
    s.access c m sc need attr lanes k = t.beginAbort c.b.launch 2 0 t.time := by
  unfold State.access
  rw [hrs]
  dsimp only
  rw [hf, hh]
  dsimp only
  rw [if_pos (List.any_eq_true.2 hp)]

end Access

theorem atomAttr_eq (m : MemRef) : atomAttr m = fun f => m.space != .g || isMside f := by
  unfold atomAttr
  cases h : m.space <;> rfl

/-- What an atomic does once its places are known: the release part, each lane's operation, the results, the acquire part
(17 R350, R351). -/
def State.atomicAt (c : Ctx) (ty : STy) (ord : MemOrder) (sc : Scope) (w : Toks) (f : Nat → Nat → Option Nat)
    (k : State → List (Nat × Nat) → State) (t : State) (ps : List (Nat × Place)) : State :=
  t.release c (releases ord) sc w fun u =>
    let r := u.rmw c.b.core (ty.width / 8) f ps
    (((k r.2 r.1).acquire c (acquires ord) sc).finish c).noteOverflow c.b.launch

theorem State.atomic_of_exec {c : Ctx} (he : c.exec ≠ []) (s : State) (ty : STy) (ord : MemOrder) (sc : Scope) (m : MemRef)
    (w : Toks) (f : Nat → Nat → Option Nat) (k : State → List (Nat × Nat) → State) :
    s.atomic c ty ord sc m w f k =
      s.access c m sc { n := ty.width / 8, write := true, atomic := true } (fun f => m.space != .g || isMside f) c.exec
        (State.atomicAt c ty ord sc w f k) := by
  unfold State.atomic
  rw [if_neg (by simpa using he), atomAttr_eq]
  rfl

/-- The instructions that hold their lanes at the checks go on from them. -/
theorem exec_of_holds {i : Instr} {a : Access} {s : State} {c : Ctx} (hi : accessOf i = some a) (ha : a.holds = true)
    (hc : s.ctx a.guard = some c) (he : c.exec ≠ []) :
    ∃ k, exec i s = .next (s.access c a.mem a.scope a.need a.attr (a.lanes c) k) := by
  have hne : ¬ c.exec.isEmpty = true := by simpa using he
  cases i with
  | ld g ty ord sc d m =>
    cases hi
    exact ⟨_, (State.issue_of_ctx hc _).trans (congrArg _ (if_neg hne))⟩
  | st => cases hi; cases ha
  | atom g op ty ord sc nr d m x w =>
    cases hi
    exact ⟨_, (State.issue_of_ctx hc _).trans (congrArg _ (State.atomic_of_exec he ..))⟩
  | atombadd g ty ord sc nr d q m x n w =>
    cases hi
    exact ⟨_, (State.issue_of_ctx hc _).trans (congrArg _ (State.atomic_of_exec he ..))⟩
  | atomcas g ty ord sc d m cmp new w =>
    cases hi
    exact ⟨_, (State.issue_of_ctx hc _).trans (congrArg _ (State.atomic_of_exec he ..))⟩
  | pollbk g sc d m =>
    cases hi
    exact ⟨_, (State.issue_of_ctx hc _).trans (congrArg _ (if_neg hne))⟩
  | _ => cases hi

/-- A store of which a lane fails its check takes the fault. -/
theorem exec_st_of_fault {s t : State} {g : Guard} {ty : STy} {ord : MemOrder} {sc : Scope} {m : MemRef} {a : Operand}
    {w : Toks} {c : Ctx} {rs : List (Nat × Resolved)} (hc : s.ctx g = some c) (he : c.exec ≠ [])
    (hrs : s.resolveLanes c m sc { n := ty.width / 8, write := true } (fun _ => true) c.exec = (rs, t))
    (hf : resolvedFaults rs ≠ []) : exec (.st g ty ord sc m a w) s = .next (t.raiseLanes c (resolvedFaults rs)) := by
  change execSt g ty ord sc m a w s = _
  unfold execSt
  rw [State.issue_of_ctx hc, if_neg (by simpa using he)]
  dsimp only
  unfold anyAttr
  rw [hrs]
  dsimp only
  cases h : resolvedFaults rs with
  | nil => exact absurd h hf
  | cons f fs => rfl

theorem accessesAreTurnedAwayWhole : AccessesAreTurnedAwayWhole := by
  intro i a s t c rs hi hc he hrs
  refine ⟨fun hf => ?_, fun h hf hholds hh => ?_, fun hf hholds hh hp => ?_⟩
  · cases ha : a.holds with
    | true =>
      obtain ⟨k, hk⟩ := exec_of_holds hi ha hc he
      rw [hk, State.access_of_fault k hrs hf]
    | false =>
      cases i with
      | st g ty ord sc m x w => cases hi; exact exec_st_of_fault hc he hrs hf
      | ld | atom | atombadd | atomcas | pollbk => cases hi; cases ha
      | _ => cases hi
  · obtain ⟨k, hk⟩ := exec_of_holds hi hholds hc he
    rw [hk, State.access_of_held k hrs hf hh]
  · obtain ⟨k, hk⟩ := exec_of_holds hi hholds hc he
    rw [hk, State.access_of_poisoned k hrs hf hh hp]

/-- Settles O20: the checks by the branches of `State.resolve`, the instructions by what all of them do with the lanes
resolved (`exec_of_holds`). -/
theorem accessesAreCheckedInOrderOrTurnedAwayWhole : Obligations.AccessesAreCheckedInOrderOrTurnedAwayWhole :=
  ⟨accessesAreCheckedInOrder, accessesAreTurnedAwayWhole⟩

end Sys2Proof.Machine
end

section
/-! The parts of a tensor request (04 R94, R95; 11 R248). -/

namespace Sys2Proof.Machine

open Sys2Proof.Safety Sys2Proof.Claims

/-- An operation that may act goes on with its block and its launch. -/
theorem State.acting_of {s : State} {key : Nat} {op : EngineOp} {b : Block} {l : Launch} (h : ActingOp s key op b l)
    (k : EngineOp → Block → Launch → State) : s.acting key k = k op b l := by
  obtain ⟨hop, hstarted, hstall, hb, hl⟩ := h
  simp [State.acting, hop, hb, hl, hstarted, hstall]

/-- Units that have their places, and hold no poisoned data where they are read, are gone on with. -/
theorem State.withPlaces_of_placed {s t : State} {op : EngineOp} {b : Block} {l : Launch} {sp : Space} {n : Nat}
    {write : Bool} {as : List Nat} {ps : List Place} (h : Claims.Placed s op b l sp n write as ps t) (key : Nat)
    (k : State → List Place → State) : s.withPlaces key op b l sp n write as k = k t ps := by
  obtain ⟨hps, hclean⟩ := h
  unfold State.withPlaces
  rw [hps]
  dsimp only
  refine if_neg fun hbad => ?_
  rw [Bool.and_eq_true, Bool.not_eq_true', List.any_eq_true] at hbad
  obtain ⟨hread, p, hp, hpoison⟩ := hbad
  exact Bool.false_ne_true ((hclean hread p hp).symm.trans hpoison)

/-- Settles O33: a part is the list of its elements, of which each is filled or stored by itself and leaves the rest of
the list. -/
theorem tensorPartsMoveTheirElements : Obligations.TensorPartsMoveTheirElements := by
  intro s key part op b l hact hpart q todo left landed done mine
  have hperform : op.kind = .tload ∨ op.kind = .tstore → exec (.tensorPartPerform key part) s =
      .next (if op.kind = .tload then s.fillElements key op b l q done mine
        else s.storeElements key op b l q done mine) := by
    intro hkind
    change Host.Outcome.next (s.tensorPart key part) = _
    unfold State.tensorPart
    have hacts : ¬ ((op.kind ≠ .tload ∧ op.kind ≠ .tstore) ∨ (!op.todo.contains part) = true) := by
      rintro (⟨hload, hstore⟩ | hgone)
      · exact hkind.elim hload hstore
      · simp [hpart] at hgone
    rw [State.acting_of hact, if_neg hacts]
  refine ⟨fun hk => ?_, fun hk => ?_, fun v e es he => ?_, fun v t e es i ps he => ⟨fun hps => ?_, fun hps => ?_⟩⟩
  · rw [hperform (.inl hk), if_pos hk]
  · rw [hperform (.inr hk), if_neg (by rw [hk]; decide)]
  · constructor
    · rw [State.fillElements, he]
    · rw [State.storeElements, he]
  · rw [State.fillElements, he]
    exact State.withPlaces_of_placed hps key _
  · rw [State.storeElements, he]
    exact State.withPlaces_of_placed hps key _

end Sys2Proof.Machine
end

section
/-! What paths wait for outside their core, and accesses under way (04 R85, R108; 05 R127; 07 R184; 14 R309). -/

namespace Sys2Proof.Machine

open Sys2Proof.Safety Sys2Proof.Claims

/-! The events of paths that wait. -/

/-- A change of a path is what it does to the path that stands there. -/
theorem State.updPath_congr {s : State} {gk i : Nat} {g : Group} {p : Path} (h : PathAt s gk i g p) {f f' : Path → Path}
    (hf : f p = f' p) : s.updPath gk i f = s.updPath gk i f' := by
  obtain ⟨hg, hp⟩ := h
  unfold State.updPath State.updGroup AMap.upd
  rw [hg]
  simp only [updAt_eq_set _ _ _ _ hp, hf]

/-- A path that leaves a blocking point notes that its condition is met (02 R45). -/
theorem retry_of_blocking {p : Path} (h : p.wait.blocking = true) : p.retry = { p with wait := .none, met := true } := by
  rw [Path.retry, h]

theorem wake_of_blocking {p : Path} (h : p.wait.blocking = true) :
    p.wake = { p with wait := .none, met := true, woken := p.waiter :: p.woken } := by
  rw [Path.wake, h]

theorem exec_remoteLoadReturn_remote {s : State} {gk i k : Nat} {g : Group} {p : Path} (h : PathAt s gk i g p)
    (hw : p.wait = .remote k) :
    let t : State := { s.peerRefuses.2 with remote := AMap.del s.remote k }
    exec (.remoteLoadReturn gk i) s = .next (if s.peerRefuses.1 = true then
        t.raiseAt gk i { code := .windowDenied, detail := 0x3FF, addr := ((AMap.find? s.remote k).map fun r => r.addr).getD 0
                         lanes := p.mask }
      else wokenUp t gk i) := by
  intro t
  have hwake : t.updPath gk i (fun p => p.wake) = wokenUp t gk i :=
    State.updPath_congr (s := t) h (wake_of_blocking (by rw [hw]; rfl))
  obtain ⟨hg, hp⟩ := h
  change execRemoteLoadReturn gk i s = _
  unfold execRemoteLoadReturn
  rw [hg]
  dsimp only
  rw [hp]
  dsimp only
  rw [hw, ← hwake]
  exact (apply_ite Host.Outcome.next _ _ _).symm

theorem State.launchOf_of_find {s : State} {gk : Nat} {g : Group} {b : Block} {l : Launch} (hg : AMap.find? s.groups gk = some g)
    (hb : AMap.find? s.blocks g.block = some b) (hl : AMap.find? s.launches b.launch = some l) : s.launchOf gk = some l := by
  rw [State.launchOf, hg]
  dsimp only
  rw [hb]
  exact hl

/-- A window lets its accesses go on once its target has retired, or stands on a core and is not being moved (04 R85; 08
R201). -/
theorem State.windowHeld_iff {s : State} {l : Launch} {h : Nat} {y : Block}
    (hy : AMap.find? s.blocks (blockKey l (grantAt (s.imageBytes l) h).stage (grantAt (s.imageBytes l) h).block) = some y) :
    s.windowHeld l h = true ↔ y.st ≠ .retired ∧ (y.onCore = false ∨ y.moving ≠ none) := by
  rw [State.windowHeld, hy]
  simp [Option.isSome_iff_ne_none]

theorem exec_remoteLoadReturn_window {s : State} {gk i h : Nat} {g : Group} {p : Path} {b : Block} {l : Launch}
    (hat : PathAt s gk i g p) (hw : p.wait = .window h) (hb : AMap.find? s.blocks g.block = some b)
    (hl : AMap.find? s.launches b.launch = some l) :
    exec (.remoteLoadReturn gk i) s = .next (if s.windowHeld l h = true then s else resumed s gk i) := by
  obtain ⟨hg, hp⟩ := hat
  change execRemoteLoadReturn gk i s = _
  unfold execRemoteLoadReturn
  rw [hg]
  dsimp only
  rw [hp]
  dsimp only
  rw [hw]
  dsimp only
  rw [State.launchOf_of_find hg hb hl]
  dsimp only
  rw [State.updPath_congr ⟨hg, hp⟩ (f' := fun p => { p with wait := .none, met := true })
    (retry_of_blocking (by rw [hw]; rfl))]
  rfl

theorem waitingPathsGoOnWithTheirEvent : WaitingPathsGoOnWithTheirEvent := by
  refine ⟨fun s gk i k g p h hw => ?_, fun s gk i h g p b l hat hw hb hl => ?_, fun s gk i t g p h hw => ?_,
    fun s t core lk va e write l x hl hx hcanon hlost hwalk => ?_⟩
  · have hexec := exec_remoteLoadReturn_remote h hw
    refine ⟨fun hbad => ?_, fun hbad => ?_⟩
    · exact hexec.trans (congrArg _ (if_neg fun h => Bool.false_ne_true (hbad.symm.trans h)))
    · exact hexec.trans (congrArg _ (if_pos hbad))
  · have hexec := exec_remoteLoadReturn_window hat hw hb hl
    refine ⟨fun y hy => ⟨fun hgo => ?_, fun hst hheld => ?_⟩, fun hnone => ?_⟩
    · rw [hexec, if_neg]
      rw [State.windowHeld_iff hy]
      rintro ⟨hst, hheld⟩
      rcases hgo with hret | ⟨hon, hmov⟩
      · exact hst hret
      · exact hheld.elim (fun h => Bool.false_ne_true (h.symm.trans hon)) fun h => h hmov
    · rw [hexec, if_pos ((State.windowHeld_iff hy).2 ⟨hst, hheld⟩)]
    · rw [hexec, if_pos (by rw [State.windowHeld, hnone])]
  · change Host.Outcome.next _ = _
    split
    · next hdue => exact congrArg _ (State.updPath_congr h (by rw [hw]; simp [Path.retry, hw, hdue, Wait.blocking]))
    · next hdue => exact congrArg _ (State.updPath_congr h (by rw [hw]; simp [hdue]))
  · change execPageWalk core lk va write s = _
    unfold execPageWalk
    rw [hl]
    dsimp only
    rw [hx]
    dsimp only
    rw [if_neg (by simp [hcanon, hlost]), hwalk]

/-! Accesses under way. -/

/-- An access that has performed is taken off, and paths of its block look again: nothing but groups and accesses under
way changes. -/
theorem State.performed_frame (s : State) (key : Nat) (r : Remote) :
    s.performed key r = { s with remote := AMap.del s.remote key, groups := (s.performed key r).groups } :=
  foldl_upd_frame _ _ _

/-- A group whose paths that wait for earlier accesses look again (05 R127). -/
def Group.landed (g : Group) : Group :=
  { g with paths := g.paths.map fun p => if p.wait == .landing then p.retry else p }

theorem Group.landed_eq (g : Group) :
    g.landed = { g with paths := g.paths.map fun p =>
      if p.wait = .landing then { p with wait := .none, met := false } else p } := by
  unfold Group.landed
  refine congrArg (fun l : List Path => { g with paths := l }) (List.map_congr_left fun p _ => ?_)
  by_cases h : p.wait = .landing
  · simp [h, Path.retry, Wait.blocking]
  · simp [h]

theorem State.find?_performed_groups {s : State} (hr : AMap.rising s.groups = true) (key : Nat) (r : Remote) {k : Nat}
    {g : Group} (hg : AMap.find? s.groups k = some g) (hb : g.block = r.block) :
    AMap.find? (s.performed key r).groups k = some g.landed := by
  let u : State := { s with remote := AMap.del s.remote key }
  have hn : ((u.groupsOf r.block).map Prod.fst).Nodup := risingFrom_keys_nodup (risingFrom_filter _ hr)
  have hm : k ∈ (u.groupsOf r.block).map Prod.fst := (State.mem_groupsOf (s := u) hr).2 ⟨g, hg, hb⟩
  refine (find?_foldl_updGroup Group.landed hn u k).trans ?_
  rw [if_pos hm]
  exact congrArg (Option.map Group.landed) hg

theorem State.performHeld_of_stands {s : State} {acc : Nat} {r : Remote} {b : Block} {l : Launch}
    (hb : AMap.find? s.blocks r.block = some b) (hl : AMap.find? s.launches b.launch = some l) :
    s.performHeld acc r = if s.windowHeld l (bitsOf r.addr 48 8) = true then s
      else match s.resolveW l r.sw r.addr { n := r.data.length, write := true } with
        | .ok p => (s.performed acc r).writePlace r.core p r.data
        | .fault f => (s.performed acc r).freeze r.block r.gid r.vpc r.op.isSome { f with lanes := r.lanes }
        | .hold _ => s := by
  rw [State.performHeld, hb]
  simp only [hl] <;> rfl

/-- A store performs: at the target of its window, or as its peer answers. -/
theorem exec_accessPerformed {s : State} {acc : Nat} {r : Remote} (hr : AMap.find? s.remote acc = some r)
    (hload : r.load = false) :
    exec (.accessPerformedAtPointOfService acc) s = .next (if r.window = true then s.performHeld acc r
      else
        let u := s.peerRefuses.2.performed acc r
        if s.peerRefuses.1 = true then u.freeze r.block r.gid r.vpc r.op.isSome (refusedFault r.addr r.lanes)
        else u.landRemote r) := by
  change execAccessPerformedAtPointOfService acc s = _
  unfold execAccessPerformedAtPointOfService
  rw [hr]
  dsimp only
  rw [if_neg (by simp [hload]), apply_ite Host.Outcome.next]
  split
  · rfl
  · exact (apply_ite Host.Outcome.next _ _ _).symm

theorem exec_fabricAccessTimeout {s : State} {acc : Nat} {r : Remote} {b : Block} (hr : AMap.find? s.remote acc = some r)
    (hb : AMap.find? s.blocks r.block = some b) (hwin : r.window = false) :
    exec (.fabricAccessTimeout acc) s = .next (if s.cycle < r.issued + 210000 then s
      else (s.performed acc r).beginAbort b.launch 2 0 s.time) := by
  have htime : (s.performed acc r).time = s.time :=
    (congrArg State.time (State.performed_frame s acc r)).trans rfl
  change execFabricAccessTimeout acc s = _
  unfold execFabricAccessTimeout
  rw [hr]
  simp only [hwin, Bool.false_or, decide_eq_true_eq, hb, htime]
  exact (apply_ite Host.Outcome.next _ _ _).symm

theorem State.landRemote_counts {s : State} {r : Remote} {k : Nat} {o : EngineOp} (hop : r.op = some k)
    (ho : AMap.find? s.engines k = some o) (hlink : o.link.isSome = true) :
    AMap.find? (s.landRemote r).engines k = some { o with landed := o.landed + r.data.length } := by
  rw [State.landRemote, hop]
  simp [ho, hlink]

theorem accessesUnderWayPerformOrFault : AccessesUnderWayPerformOrFault := by
  intro s acc r b l hr hb hl
  refine ⟨fun hload hwin => ?_, fun hload hwin => ?_, fun hwin => ?_, fun _ => ?_,
    fun k o n hop ho hlink => State.landRemote_counts hop ho (by rw [hlink]; rfl), fun hrise k g hg hgb => ?_⟩
  · have hexec := exec_accessPerformed hr hload
    rw [if_neg (by simp [hwin])] at hexec
    refine ⟨fun hbad => ?_, fun hbad => ?_⟩
    · exact hexec.trans (congrArg _ (if_neg fun h => Bool.false_ne_true (hbad.symm.trans h)))
    · exact hexec.trans (congrArg _ (if_pos hbad))
  · have hexec := exec_accessPerformed hr hload
    rw [if_pos hwin, State.performHeld_of_stands hb hl] at hexec
    refine ⟨fun hheld => ?_, fun hheld p hp => ?_, fun hheld f hf => ?_⟩
    · rw [hexec, if_pos hheld]
    · rw [hexec, if_neg (by simp [hheld]), hp]
    · rw [hexec, if_neg (by simp [hheld]), hf]
  · have hexec := exec_fabricAccessTimeout hr hb hwin
    refine ⟨fun hsoon => ?_, fun hlate => ?_⟩
    · rw [hexec, if_pos hsoon]
    · rw [hexec, if_neg (Nat.not_lt.2 hlate)]
  · rw [State.performed_frame]
    exact (AMap.find?_del _ acc acc).trans (if_pos rfl)
  · rw [State.find?_performed_groups hrise acc r hg hgb, Group.landed_eq]

/-- Settles O38: each wait and each access is judged by its event, which wakes, faults, performs or ends it. -/
theorem waitsAndAccessesUnderWayEnd : Obligations.WaitsAndAccessesUnderWayEnd :=
  ⟨waitingPathsGoOnWithTheirEvent, accessesUnderWayPerformOrFault⟩

end Sys2Proof.Machine
end

section
/-! The management commands that do not end at once (04 R106, R111; 06 R485; 08 R191; 14 R297, R298). -/

namespace Sys2Proof.Machine

open Sys2Proof.Safety Sys2Proof.Claims

/-- The command at the head of its queue is performed, and ends as its row says (14 R297). -/
theorem State.perform_head {s : State} {vi code : Nat} {c : Cmd} (h : s.headCommand vi = some c) (hcode : c.code = code)
    (f : Cmd → Ended) : s.perform vi code f = .next (match f c with
      | .done result t => t.complete c 1 result
      | .refused result => s.complete c 2 result
      | .denied => s.complete c 4 0
      | .waits t => t) := by
  unfold State.perform
  rw [h]
  dsimp only
  exact if_neg (not_not.2 hcode)

theorem State.withContext_of {s : State} {vi n : Nat} {x : Context} (h : ctxOf s vi n = some x) (k : Context → Ended) :
    s.withContext vi n k = k x := by
  unfold ctxOf at h
  rw [State.withContext, h]

/-- A control block that is not aligned, or not in an immediate memory-side range, has no address (07 R157). -/
theorem State.cbAddr_misplaced {s : State} {sp : Space2} {va : Nat}
    (h : va % 64 ≠ 0 ∨ isImmediate (attrFlags sp.attrs va) = false ∨ isMside (attrFlags sp.attrs va) = false) :
    ∃ f, s.cbAddr sp va = .error f := by
  unfold State.cbAddr
  dsimp only
  by_cases halign : va % 64 ≠ 0
  · exact ⟨_, if_pos halign⟩
  · have hattr : (!(isImmediate (attrFlags sp.attrs va) && isMside (attrFlags sp.attrs va))) = true := by
      rcases h.resolve_left halign with h | h <;> simp [h]
    exact ⟨_, (if_neg halign).trans (if_pos hattr)⟩

theorem registerLqRegistersAQueueThatIsRight (s t : State) (vi pa : Nat) (c : Cmd) (x : Context)
    (hc : s.headCommand vi = some c) (hcode : c.code = 3) (hx : ctxOf s vi c.ctx = some x) :
    (c.op 0 % 64 ≠ 0 ∨ isImmediate (attrFlags (s.contextSpace x).attrs (c.op 0)) = false ∨
        isMside (attrFlags (s.contextSpace x).attrs (c.op 0)) = false →
      exec (.registerLq vi) s = .next (s.complete c 2 0)) ∧
    (s.cbAddr (s.contextSpace x) (c.op 0) = .ok (pa, t) →
      t.corruption pa ≠ 0 ∨ (t.queue pa).esize ≠ 64 ∨ 7 < c.op 1 →
      exec (.registerLq vi) s = .next (s.complete c 2 0)) ∧
    (s.cbAddr (s.contextSpace x) (c.op 0) = .ok (pa, t) →
      t.corruption pa = 0 → (t.queue pa).esize = 64 → c.op 1 ≤ 7 →
      (∀ e ∈ t.queues, ¬ (e.2.vi = vi ∧ e.2.ctx = c.ctx ∧ e.2.cb = c.op 0)) →
      let n := ((t.queues.getLast?).map fun e => e.1).getD 0 + 1
      exec (.registerLq vi) s = .next ((State.fillSlots { t with
        queues := AMap.put t.queues n { vi, ctx := c.ctx, cb := c.op 0, prio := c.op 1 } }).complete c 1 n)) := by
  have hexec : exec (.registerLq vi) s = s.perform vi 3 fun c => s.withContext vi c.ctx _ := rfl
  rw [State.perform_head hc hcode, State.withContext_of hx] at hexec
  dsimp only at hexec
  refine ⟨fun hbad => ?_, fun hpa hbad => ?_, fun hpa hform hsize hprio hnew => ?_⟩
  · obtain ⟨f, hf⟩ := State.cbAddr_misplaced (s := s) hbad
    rw [hexec, hf]
  · rw [hexec, hpa]
    dsimp only
    rw [if_pos hbad]
  · have hnone : List.find? (fun (e : Nat × LaunchQueue) => e.2.vi == vi && e.2.ctx == c.ctx && e.2.cb == c.op 0) t.queues =
        none := by
      rw [List.find?_eq_none]
      intro e he
      simpa [and_assoc] using hnew e he
    rw [hexec, hpa]
    dsimp only
    rw [if_neg (by omega), hnone]

theorem contextDestroyWaitsForItsLaunchesAndRecords (s : State) (vi : Nat) (c : Cmd) (x : Context)
    (hc : s.headCommand vi = some c) (hcode : c.code = 5) (hx : ctxOf s vi (c.op 0) = some x) (hclosing : x.closing = true) :
    ((∃ e ∈ s.launches, e.2.vi = vi ∧ e.2.ctx = c.op 0) ∨ (∃ d ∈ s.deliveries, d.vi = vi ∧ d.ctx = c.op 0) →
      exec (.contextDestroy vi) s = .next s) ∧
    ((∀ e ∈ s.launches, ¬ (e.2.vi = vi ∧ e.2.ctx = c.op 0)) →
      (∀ d ∈ s.deliveries, ¬ (d.vi = vi ∧ d.ctx = c.op 0)) →
      (∀ e ∈ s.homes, ∀ r ∈ e.2.wake ++ e.2.polling, ∀ d, r.who = .delivery d → ¬ (d.vi = vi ∧ d.ctx = c.op 0)) →
      exec (.contextDestroy vi) s = .next (State.complete { s with
        contexts := AMap.del s.contexts (ctxKey vi (c.op 0))
        pins := AMap.keep (fun k _ => k / 2 ^ 38 != ctxKey vi (c.op 0)) s.pins } c 1 0)) := by
  have hexec : exec (.contextDestroy vi) s = s.perform vi 5 fun c => s.withContext vi (c.op 0) _ := rfl
  rw [State.perform_head hc hcode, State.withContext_of hx] at hexec
  dsimp only at hexec
  rw [if_pos hclosing] at hexec
  refine ⟨fun hleft => ?_, fun hlaunches hdeliveries hhomes => ?_⟩
  · rw [hexec, if_pos]
    rcases hleft with ⟨e, he, hctx⟩ | ⟨d, hd, hdue⟩
    · have hmem : e ∈ s.launchesOf vi (c.op 0) := List.mem_filter.2 ⟨he, by simpa using hctx⟩
      simp [List.isEmpty_eq_false_iff_exists_mem.2 ⟨e, hmem⟩]
    · have hany : (s.deliveries.any fun d => d.vi == vi && d.ctx == c.op 0) = true :=
        List.any_eq_true.2 ⟨d, hd, by simpa using hdue⟩
      simp [hany]
  · have hnone : s.launchesOf vi (c.op 0) = [] := List.filter_eq_nil_iff.2 fun e he => by simpa using hlaunches e he
    have hdue : (s.deliveries.any fun d => d.vi == vi && d.ctx == c.op 0) = false :=
      List.any_eq_false.2 fun d hd => by simpa using hdeliveries d hd
    rw [hexec, if_neg]
    rw [hnone, hdue]
    simp only [List.isEmpty_nil, Bool.not_true, Bool.or_self, Bool.false_or, List.any_eq_true, not_exists, not_and]
    intro e he r hr
    cases hwho : r.who with
    | delivery d => simpa using hhomes e he r hr d hwho
    | _ => exact Bool.false_ne_true

theorem shootdownRefusesANumberOutsideItsField (s : State) (vi : Nat) (c : Cmd) (hc : s.headCommand vi = some c)
    (hcode : c.code = 6) (hbad : 3 < c.op 0 ∨ (c.op 0 = 1 ∧ 2 ^ 8 ≤ c.op 1) ∨ (2 ≤ c.op 0 ∧ 2 ^ 16 ≤ c.op 1)) :
    exec (.shootdown vi) s = .next (s.complete c 2 0) := by
  change execShootdown vi s = _
  rw [execShootdown, State.perform_head hc hcode]
  dsimp only
  rw [if_pos hbad]

theorem shootdownDropsTheEntriesItNames (s t : State) (vi pa : Nat) (c : Cmd) (hc : s.headCommand vi = some c)
    (hcode : c.code = 6) (hkind : c.op 0 ≤ 3) (hvmid : c.op 0 = 1 → c.op 1 < 2 ^ 8)
    (hasid : 2 ≤ c.op 0 → c.op 1 < 2 ^ 16) :
    (c.op 0 = 1 → vi ≠ 0 → c.op 1 ≠ bitsOf (s.iface vi).hgatp 44 8 →
      exec (.shootdown vi) s = .next (s.complete c 4 0)) ∧
    ((c.op 0 = 1 → vi = 0 ∨ c.op 1 = bitsOf (s.iface vi).hgatp 44 8) → s.wordAddr c = some (pa, t) →
      let d : Shootdown := { vi, kind := c.op 0, ident := c.op 1, base := c.op 2, pages := c.op 3, word := pa }
      exec (.shootdown vi) s = .next (State.dropCommand { t.dropEntries d with
        shootdowns := AMap.put t.shootdowns t.next d, next := t.next + 1 } c)) := by
  have hgood : ¬ (3 < c.op 0 ∨ (c.op 0 = 1 ∧ 2 ^ 8 ≤ c.op 1) ∨ (2 ≤ c.op 0 ∧ 2 ^ 16 ≤ c.op 1)) := by omega
  refine ⟨fun hone hvi hforeign => ?_, fun hown hword => ?_⟩
  · change execShootdown vi s = _
    rw [execShootdown, State.perform_head hc hcode]
    dsimp only
    rw [if_neg hgood, if_pos ⟨hone, hvi, hforeign⟩]
  · have hmay : ¬ (c.op 0 = 1 ∧ vi ≠ 0 ∧ c.op 1 ≠ s.vmidOf vi) := fun ⟨h1, h2, h3⟩ => (hown h1).elim h2 h3
    change execShootdown vi s = _
    rw [execShootdown, State.perform_head hc hcode]
    dsimp only
    rw [if_neg hgood, if_neg hmay, hword]
    rfl

theorem unknownCommandEndsWithStatus3 (s : State) (vi : Nat) (c : Cmd) (hc : s.headCommand vi = some c) :
    (c.code = 0 ∨ 21 < c.code → exec (.unknownCommand vi) s = .next (s.complete c 3 0)) ∧
    (1 ≤ c.code → c.code ≤ 21 → exec (.unknownCommand vi) s = .next s) := by
  have hexec : exec (.unknownCommand vi) s = .next (if 1 ≤ c.code ∧ c.code ≤ 21 then s else s.complete c 3 0) := by
    change execUnknownCommand vi s = _
    rw [execUnknownCommand, hc]
  exact ⟨fun h => by rw [hexec, if_neg (by omega)], fun h h' => by rw [hexec, if_pos ⟨h, h'⟩]⟩

/-- Settles O53: each command by the branches of its own row (`State.perform_head`). -/
theorem longCommandsHoldTheirQueue : Obligations.LongCommandsHoldTheirQueue :=
  ⟨registerLqRegistersAQueueThatIsRight, contextDestroyWaitsForItsLaunchesAndRecords, shootdownRefusesANumberOutsideItsField,
    shootdownDropsTheEntriesItNames, unknownCommandEndsWithStatus3⟩

end Sys2Proof.Machine
end


section
/-! LOCK and UNLOCK (04 R100; 19 R419; 21 R468). -/

namespace Sys2Proof.Machine

open Sys2Proof.Safety Sys2Proof.Claims

/-! A slot that writes nothing. -/

/-- A result that lands changes the groups alike after a change of a path that changes nothing. -/
theorem State.land_updPath_self (s : State) (gk i : Nat) (e : InFlight) :
    (s.updPath gk i fun p => p).land gk i e = (s.land gk i e).updPath gk i fun p => p := by
  unfold State.land
  cases e.dst <;> dsimp only
  case pred t n =>
    change (if (AMap.find? s.threads t).isSome then _ else _) = _
    split <;> rfl
  all_goals
    unfold State.updPath State.updGroup
    simp only [AMap.upd_upd, updAt_updAt]

theorem State.landIf_updPath_self {s : State} {gk i : Nat} {g : Group} {p : Path} (h : PathAt s gk i g p)
    (test : InFlight → Bool) : (s.updPath gk i fun p => p).landIf gk i test = s.landIf gk i test := by
  have lands : ∀ (es : List InFlight) (t : State), es.foldl (fun t e => t.land gk i e) (t.updPath gk i fun p => p) =
      (es.foldl (fun t e => t.land gk i e) t).updPath gk i fun p => p := by
    intro es
    induction es with
    | nil => exact fun _ => rfl
    | cons e es ih => exact fun t => by rw [List.foldl_cons, State.land_updPath_self, ih]; rfl
  obtain ⟨hg, hp⟩ := h
  have hfind : AMap.find? (s.updPath gk i fun p => p).groups gk = some g := by
    simp [State.updPath, State.updGroup, hg, updAt_id]
  unfold State.landIf
  rw [hg, hfind]
  dsimp only
  rw [hp]
  dsimp only
  rw [lands]
  unfold State.updPath State.updGroup
  simp only [AMap.upd_upd, updAt_updAt]

/-- A slot that writes nothing ends as if it had written nothing. -/
theorem State.finish_write_nil {s : State} {gd : Guard} {c : Ctx} (hc : s.ctx gd = some c) (wide : Bool) (d : Operand) :
    (s.write c wide d []).finish c = s.finish c := by
  obtain ⟨-, hg, hp, -⟩ := State.ctx_eq hc
  cases hx : c.cur.slot with
  | none =>
    unfold State.write
    rw [hx]
    rfl
  | some x =>
    have hw : s.write c wide d [] = s.updCur c fun p => p := by
      unfold State.write
      rw [hx]
      unfold State.launchResults
      simp
    rw [hw]
    cases hs : c.p.sealed with
    | false => rw [State.finish_midBundle hx hs, State.finish_midBundle hx hs, State.updCur_updCur]
    | true =>
      rw [State.finish_sealed hx hs, State.finish_sealed hx hs]
      exact congrArg (State.finish · _) (State.landIf_updPath_self ⟨hg, hp⟩ _)

/-! The lines of a range, and their pins. -/

theorem walk_rangeLines {s t : State} {core satp hgatp : Nat} {ps ls : List (Nat × Nat)}
    (h : s.rangeLines core satp hgatp ps = .ok (ls, t)) : WalkOnly s t := by
  induction ps generalizing s ls t with
  | nil =>
    cases h
    exact .refl s
  | cons p ps ih =>
    unfold State.rangeLines at h
    split at h
    · cases h
    · next pa u htr =>
      split at h
      · cases h
      · next ls' v hr =>
        cases h
        exact (walk_translate htr).trans (ih hr)

theorem walk_checkRange {s t : State} {c : Ctx} {a n : Nat} {ls : List (Nat × Nat)}
    (h : s.checkRange c a n = .ok (ls, t)) : WalkOnly s t := by
  unfold State.checkRange at h
  split at h
  · cases h
  · split at h
    · cases h
    · split at h
      · cases h
      · split at h
        · cases h
        · next hr =>
          split at h
          · cases h
            exact walk_rangeLines hr
          · cases h

theorem rangeOf_sameIssue (s : State) (c : Ctx) (a cnt : Operand) : SameIssue s (rangeOf s c a cnt).2 := by
  unfold rangeOf
  split
  · exact .refl s
  · split
    · exact .refl s
    · next h => exact .of_walk (walk_checkRange h)

/-- The state with other pins. -/
def State.withPins (s : State) (m : Cells 1) : State := { s with pins := m }

/-- Lines of a context's range, fetched into the die cache of its core. -/
def State.fetchLines (s : State) (c : Ctx) (ls : List (Nat × Nat)) : State :=
  ls.foldl (fun (u : State) (e : Nat × Nat) =>
    (u.dieLine (dieOf c.b.core) (c.l.tag (attrFlags c.l.attrs e.1)) e.2).2) s

/-- Fetching a line into the die cache has nothing to do with pins. -/
theorem State.dieLine_withPins (s : State) (m : Cells 1) (die tag ln : Nat) :
    ((s.withPins m).dieLine die tag ln).2 = (s.dieLine die tag ln).2.withPins m := by
  have hbase : (s.withPins m).baseLine tag ln = s.baseLine tag ln := rfl
  have hdie : (s.withPins m).dieCache = s.dieCache := rfl
  unfold State.dieLine
  rw [hdie, hbase]
  cases AMap.find? s.dieCache (cacheKey tag die ln) <;> rfl

/-- Lines fetched and pinned one by one are lines fetched, and pins set. -/
theorem foldl_dieLine_pins (c : Ctx) (ls : List (Nat × Nat)) (s : State) (m : Cells 1) :
    ls.foldl (fun (u : State) (e : Nat × Nat) =>
      (u.dieLine (dieOf c.b.core) (c.l.tag (attrFlags c.l.attrs e.1)) e.2).2.withPins
        (Cells.set u.pins (pinKey c.l.vi c.l.ctx (dieOf c.b.core) e.2) 1)) (s.withPins m) =
    (s.fetchLines c ls).withPins (pinLines m c ls 1) := by
  induction ls generalizing s m with
  | nil => rfl
  | cons e ls ih =>
    rw [List.foldl_cons, State.dieLine_withPins]
    exact ih (s.dieLine _ _ e.2).2 (Cells.set m _ 1)

theorem fetchLines_sameIssue (s : State) (c : Ctx) (ls : List (Nat × Nat)) : SameIssue s (s.fetchLines c ls) := by
  induction ls generalizing s with
  | nil => exact .refl s
  | cons e ls ih => exact (SameIssue.of_storage (storage_dieLine s ..)).trans (ih _)

/-! The two instructions. -/

theorem rangeOf_of_idle (s : State) {c : Ctx} (he : c.exec = []) (a cnt : Operand) : rangeOf s c a cnt = ([], s) :=
  if_pos he

theorem rangeOf_of_ok {s : State} {c : Ctx} {a cnt : Operand} {r : List (Nat × Nat) × State} (he : c.exec ≠ [])
    (h : s.checkRange c (s.u64 c true c.lead a) (s.u32 c c.lead cnt) = .ok r) : rangeOf s c a cnt = r := by
  rw [rangeOf, if_neg he, h]

/-- Without a fault the check of the range has passed. -/
theorem checkRange_of_clear {s : State} {c : Ctx} {a cnt : Operand} (he : c.exec ≠ []) (h : rangeFault s c a cnt = none) :
    ∃ r, s.checkRange c (s.u64 c true c.lead a) (s.u32 c c.lead cnt) = .ok r := by
  rw [rangeFault, if_neg he] at h
  split at h
  · cases h
  · next r hr => exact ⟨r, hr⟩

/-- The fault of the instruction is that of the check, in every executing lane. -/
theorem checkRange_of_fault {s : State} {c : Ctx} {a cnt : Operand} {f : Flt} (h : rangeFault s c a cnt = some f) :
    c.exec ≠ [] ∧ ∃ e, s.checkRange c (s.u64 c true c.lead a) (s.u32 c c.lead cnt) = .error e ∧
      f = { e with lanes := maskOf c.exec } := by
  unfold rangeFault at h
  split at h
  · cases h
  · next he =>
    split at h
    · next e hr => exact ⟨he, e, hr, (Option.some.inj h).symm⟩
    · cases h

/-- What LOCK does to the caches and pins of its lines (04 R100). -/
def State.lockLines (s : State) (c : Ctx) (ls : List (Nat × Nat)) : State :=
  if s.lockStatus c ls = 0 then (s.fetchLines c ls).withPins (pinLines s.pins c ls 1) else s

theorem lockLines_sameIssue (s : State) (c : Ctx) (ls : List (Nat × Nat)) : SameIssue s (s.lockLines c ls) := by
  unfold State.lockLines
  split
  · exact fetchLines_sameIssue s c ls
  · exact .refl s

theorem exec_lock {s : State} {g : Guard} {d a cnt : Operand} {c : Ctx} {r : List (Nat × Nat) × State}
    (hc : s.ctx g = some c) (he : c.exec ≠ [])
    (h : s.checkRange c (s.u64 c true c.lead a) (s.u32 c c.lead cnt) = .ok r) :
    exec (.lock g d a cnt) s =
      .next (((r.2.lockLines c r.1).writeAll c false d (BitVec.ofNat 64 (r.2.lockStatus c r.1))).finish c) := by
  change execLock g d a cnt s = _
  rw [execLock, State.issue_of_ctx hc, if_neg (by simpa using he), h]
  have hlines : (if r.2.lockStatus c r.1 ≠ 0 then r.2 else
      r.1.foldl (fun (u : State) (e : Nat × Nat) =>
        (u.dieLine (dieOf c.b.core) (c.l.tag (attrFlags c.l.attrs e.1)) e.2).2.withPins
          (Cells.set u.pins (pinKey c.l.vi c.l.ctx (dieOf c.b.core) e.2) 1)) r.2) = r.2.lockLines c r.1 := by
    rw [State.lockLines, ite_not]
    exact congrArg (ite _ · _) (foldl_dieLine_pins c r.1 r.2 r.2.pins)
  exact congrArg (fun t : State => Host.Outcome.next ((t.writeAll c false d _).finish c)) hlines

theorem exec_unlock {s : State} {g : Guard} {d a cnt : Operand} {c : Ctx} {r : List (Nat × Nat) × State}
    (hc : s.ctx g = some c) (he : c.exec ≠ [])
    (h : s.checkRange c (s.u64 c true c.lead a) (s.u32 c c.lead cnt) = .ok r) :
    exec (.unlock g d a cnt) s = .next (((r.2.withPins (pinLines r.2.pins c r.1 0)).writeAll c false d
      (if r.1.all fun e => r.2.pinned c.l.vi c.l.ctx (dieOf c.b.core) e.2 then 0 else 4)).finish c) := by
  change execUnlock g d a cnt s = _
  rw [execUnlock, State.issue_of_ctx hc, if_neg (by simpa using he), h]
  rfl

/-- What the table says of LOCK. -/
theorem lockOp_lock {g : Guard} {d a cnt : Operand} {op : RegOp} (h : lockOp (.lock g d a cnt) = some op) :
    op.guard = g ∧ op.fault = (fun s c => rangeFault s c a cnt) ∧ op.wide = false ∧ op.dst = d ∧
    op.pre = (fun s c => (rangeOf s c a cnt).2.lockLines c (rangeOf s c a cnt).1) ∧
    op.vals = (fun s c => c.exec.map fun l =>
      (l, BitVec.ofNat 64 ((rangeOf s c a cnt).2.lockStatus c (rangeOf s c a cnt).1))) ∧
    op.sat = (fun _ _ => false) ∧ op.inv = fun _ _ => false := by
  cases h
  exact ⟨rfl, rfl, rfl, rfl, rfl, rfl, rfl, rfl⟩

/-- What the table says of UNLOCK. -/
theorem lockOp_unlock {g : Guard} {d a cnt : Operand} {op : RegOp} (h : lockOp (.unlock g d a cnt) = some op) :
    op.guard = g ∧ op.fault = (fun s c => rangeFault s c a cnt) ∧ op.wide = false ∧ op.dst = d ∧
    op.pre = (fun s c => let r := rangeOf s c a cnt; r.2.withPins (pinLines r.2.pins c r.1 0)) ∧
    op.vals = (fun s c => c.exec.map fun l => (l, let r := rangeOf s c a cnt
      if r.1.all fun e => r.2.pinned c.l.vi c.l.ctx (dieOf c.b.core) e.2 then 0 else 4)) ∧
    op.sat = (fun _ _ => false) ∧ op.inv = fun _ _ => false := by
  cases h
  exact ⟨rfl, rfl, rfl, rfl, rfl, rfl, rfl, rfl⟩

/-- Where no lane executes, no lines are pinned. -/
theorem State.lockLines_nil (s : State) (c : Ctx) : s.lockLines c [] = s := by
  unfold State.lockLines
  split <;> rfl

/-- LOCK and UNLOCK do what the table says, then write their status. -/
theorem exec_of_lockOp {i : Instr} {op : RegOp} {s : State} {c : Ctx} (hop : lockOp i = some op)
    (hc : s.ctx op.guard = some c) (hfault : op.fault s c = none) :
    exec i s = .next (((op.pre s c).write c op.wide op.dst (op.vals s c)).finish c) := by
  cases i with
  | lock g d a cnt =>
    obtain ⟨hg, hf, hw, hd, hp, hv, -⟩ := lockOp_lock hop
    rw [hg] at hc
    rw [hf] at hfault
    rw [hw, hd, hp, hv]
    dsimp only at hfault ⊢
    by_cases he : c.exec = []
    · rw [rangeOf_of_idle s he, State.lockLines_nil, he, List.map_nil, State.finish_write_nil hc]
      change execLock g d a cnt s = _
      rw [execLock, State.issue_of_ctx hc, if_pos (by simp [he])]
    · obtain ⟨r, h⟩ := checkRange_of_clear he hfault
      rw [rangeOf_of_ok he h]
      exact exec_lock hc he h
  | unlock g d a cnt =>
    obtain ⟨hg, hf, hw, hd, hp, hv, -⟩ := lockOp_unlock hop
    rw [hg] at hc
    rw [hf] at hfault
    rw [hw, hd, hp, hv]
    dsimp only at hfault ⊢
    by_cases he : c.exec = []
    · rw [rangeOf_of_idle s he, he, List.map_nil]
      refine Eq.trans ?_ (congrArg Host.Outcome.next (State.finish_write_nil hc false d).symm)
      change execUnlock g d a cnt s = _
      rw [execUnlock, State.issue_of_ctx hc, if_pos (by simp [he])]
    · obtain ⟨r, h⟩ := checkRange_of_clear he hfault
      rw [rangeOf_of_ok he h]
      exact exec_unlock hc he h
  | _ => cases hop

theorem lockOp_pre_sameIssue {i : Instr} {op : RegOp} (hop : lockOp i = some op) (s : State) (c : Ctx) :
    SameIssue s (op.pre s c) := by
  cases i with
  | lock g d a cnt =>
    obtain ⟨-, -, -, -, hp, -⟩ := lockOp_lock hop
    rw [hp]
    exact (rangeOf_sameIssue s c a cnt).trans (lockLines_sameIssue ..)
  | unlock g d a cnt =>
    obtain ⟨-, -, -, -, hp, -⟩ := lockOp_unlock hop
    rw [hp]
    exact rangeOf_sameIssue s c a cnt
  | _ => cases hop

/-- Neither sets a flag. -/
theorem lockOp_flags {i : Instr} {op : RegOp} (hop : lockOp i = some op) (s : State) (c : Ctx) :
    op.sat s c = false ∧ op.inv s c = false := by
  cases i with
  | lock g d a cnt =>
    obtain ⟨-, -, -, -, -, -, hsat, hinv⟩ := lockOp_lock hop
    rw [hsat, hinv]
    exact ⟨rfl, rfl⟩
  | unlock g d a cnt =>
    obtain ⟨-, -, -, -, -, -, hsat, hinv⟩ := lockOp_unlock hop
    rw [hsat, hinv]
    exact ⟨rfl, rfl⟩
  | _ => cases hop

theorem State.flag_none (s : State) (c : Ctx) : s.flag c false false = s := by
  simp [State.flag]

/-- A range that fails its checks is turned away with the fault. -/
theorem exec_of_lockOp_fault {i : Instr} {op : RegOp} {s : State} {c : Ctx} {f : Flt} (hop : lockOp i = some op)
    (hc : s.ctx op.guard = some c) (hfault : op.fault s c = some f) : exec i s = .next (s.raise c f) := by
  cases i with
  | lock g d a cnt =>
    obtain ⟨hg, hf, -⟩ := lockOp_lock hop
    rw [hg] at hc
    rw [hf] at hfault
    obtain ⟨he, e, h, rfl⟩ := checkRange_of_fault hfault
    change execLock g d a cnt s = _
    rw [execLock, State.issue_of_ctx hc, if_neg (by simpa using he), h]
    rfl
  | unlock g d a cnt =>
    obtain ⟨hg, hf, -⟩ := lockOp_unlock hop
    rw [hg] at hc
    rw [hf] at hfault
    obtain ⟨he, e, h, rfl⟩ := checkRange_of_fault hfault
    change execUnlock g d a cnt s = _
    rw [execUnlock, State.issue_of_ctx hc, if_neg (by simpa using he), h]
    rfl
  | _ => cases hop

theorem lockAndUnlockAnswerTheirStatus : LockAndUnlockAnswerTheirStatus := by
  refine ⟨fun i op s c hop hc hf hn => ⟨_, exec_of_lockOp hop hc hf, ?_⟩, fun i op s c x hop hc hf hx hs => ?_,
    fun i op s c x hop hc hf hx hs => ?_, fun i op s c f => exec_of_lockOp_fault⟩
  · obtain ⟨hsat, hinv⟩ := lockOp_flags hop s c
    obtain ⟨hg, hb, hl⟩ := lockOp_pre_sameIssue hop s c
    have h := State.settle_fleper hc hn (tweaked_of_groups hc hg) hb hl false false op.wide op.dst (op.vals s c)
    rw [State.flag_none] at h
    rw [hsat, hinv]
    exact h
  · obtain ⟨hsat, hinv⟩ := lockOp_flags hop s c
    have h := State.settle_native (u := op.pre s c) hx hs false false op.wide op.dst (op.vals s c)
    rw [State.flag_none] at h
    rw [exec_of_lockOp hop hc hf, h, hsat, hinv]
  · obtain ⟨hsat, hinv⟩ := lockOp_flags hop s c
    rw [exec_of_lockOp hop hc hf, hsat, hinv, State.flag_none]
    unfold State.write
    rw [hx]
    rfl

end Sys2Proof.Machine
end

section
/-! FENCE and DRAIN (05 R117, R118, R125, R127, R128; 18 R383, R393). -/

namespace Sys2Proof.Machine

open Sys2Proof.Safety Sys2Proof.Claims

/-- A release that need not wait writes the caches back and goes on, in a native slot too. -/
theorem State.release_ready {t : State} {c : Ctx} {on : Bool} {sc : Scope} {w : Toks} (h : ReleaseReady t c on w)
    (k : State → State) : t.release c on sc w k = k (released t c on sc) := by
  cases hn : c.cur.slot with
  | none => exact State.release_of_ready hn h k
  | some x =>
    unfold State.release released
    cases on with
    | false => rfl
    | true => simp [Ctx.native, hn]

theorem State.afterEarlier_of_clear {s : State} {c : Ctx} (h : s.remotePending c = false) (k : State → State) :
    s.afterEarlier c k = k s := if_neg (by simp [h])

theorem State.afterEarlier_of_pending {s : State} {c : Ctx} (h : s.remotePending c = true) (k : State → State) :
    s.afterEarlier c k = s.waitOn c .landing := if_pos h

theorem State.afterTokens_of_none {s : State} {c : Ctx} {w : Toks} {t : Nat} (h : (s.grp c).noneToken (tokList w) = some t)
    (k : State → State) : s.afterTokens c w k = s.raise c (whole c .tokenInvalid t) := by
  unfold State.afterTokens
  dsimp only
  rw [h]
  rfl

theorem State.afterTokens_of_named {s : State} {c : Ctx} {w : Toks} (h : (s.grp c).noneToken (tokList w) = none)
    (k : State → State) : s.afterTokens c w k =
      if (s.grp c).tokensDone (tokList w) = true then k s else s.waitOn c (s.tokenWait c (tokList w)) := by
  unfold State.afterTokens
  dsimp only
  rw [h]

theorem exec_fence {s : State} {g : Guard} {kind : FenceKind} {sc : Scope} {w : Toks} {c : Ctx} (hc : s.ctx g = some c)
    (he : c.exec ≠ []) : exec (.fence g kind sc w) s = .next (s.release c (kind != .acq) sc w fun t =>
      ((t.acquire c (kind != .rel) sc).finish c).noteOverflow c.b.launch) := by
  change execFence g kind sc w s = _
  rw [execFence, State.issue_of_ctx hc, if_neg (by simpa using he)]

/-- A DRAIN without tokens makes earlier accesses perform; one with tokens waits for them (18 R383). -/
theorem exec_drain {s : State} {g : Guard} {sc : Scope} {w : Toks} {c : Ctx} (hc : s.ctx g = some c)
    (he : c.exec ≠ []) : exec (.drain g sc w) s = .next (if tokList w = [] then
      s.afterEarlier c fun t => ((t.releaseCaches c.b.core sc).finish c).noteOverflow c.b.launch
    else s.afterTokens c w fun t => t.finish c) := by
  change execDrain g sc w s = _
  rw [execDrain, State.issue_of_ctx hc, if_neg (by simpa using he)]

theorem fencesAndDrainsOrderAccesses : FencesAndDrainsOrderAccesses := by
  intro s g sc w c hc he
  have hdrain := exec_drain (sc := sc) (w := w) hc he
  refine ⟨fun kind hr => ?_, fun hw hp => ?_, fun hw hp => ⟨_, ?_, waits_waitOn hc _⟩,
    fun hw hnone => ⟨fun hdone => ?_, fun hdone => ⟨_, ?_, waits_waitOn hc _⟩⟩, fun k hk => ?_⟩
  · rw [exec_fence hc he, State.release_ready hr]
  · rw [hdrain, if_pos hw, State.afterEarlier_of_clear hp]
  · rw [hdrain, if_pos hw, State.afterEarlier_of_pending hp]
  · rw [hdrain, if_neg hw, State.afterTokens_of_named hnone, if_pos hdone]
  · rw [hdrain, if_neg hw, State.afterTokens_of_named hnone, if_neg (by simp [hdone])]
  · have hw : tokList w ≠ [] := fun hw => by simp [hw, Group.noneToken] at hk
    rw [hdrain, if_neg hw, State.afterTokens_of_none hk]

end Sys2Proof.Machine
end

section
/-! What a release and an acquire leave in the caches (04 Table 4.7; 05 R117). -/

namespace Sys2Proof.Machine

open Sys2Proof.Safety Sys2Proof.Claims

/-- A cached line of which nothing is dirty any more. -/
def CLine.clean (x : CLine) : CLine := { x with dirty := 0 }

theorem CLine.clean_of_clean {x : CLine} (h : x.dirty = 0) : x.clean = x := by
  cases x
  cases h
  rfl

/-- A key is that of its tag, unit and line. -/
theorem cacheKey_parts (k : Nat) : cacheKey (keyTag k) (keyUnit k) (keyLine k) = k := by
  unfold cacheKey keyTag keyUnit keyLine
  omega

theorem State.setBaseLine_caches (s : State) (tag ln : Nat) (d : Line) (m : LaneMask) :
    (s.setBaseLine tag ln d m).coreCache = s.coreCache ∧ (s.setBaseLine tag ln d m).dieCache = s.dieCache := by
  have bytes (π : State → AMap CLine) (hπ : ∀ (t : State) a b, π (t.setMemByte a b) = π t) (t : State) :
      π ((span 0 64).foldl (fun (t : State) i =>
        if m.getLsbD i then t.setMemByte (ln * 64 + i) (lineByte d i) else t) t) = π t := by
    refine foldl_unchanged π (fun t i => ?_) _ _
    split
    · exact hπ ..
    · rfl
  unfold State.setBaseLine
  dsimp only
  split
  · exact ⟨bytes State.coreCache (by simp) _, bytes State.dieCache (by simp) _⟩
  · split <;> exact ⟨rfl, rfl⟩

theorem State.flushDieLine_coreCache (s : State) (die tag ln : Nat) : (s.flushDieLine die tag ln).coreCache = s.coreCache := by
  unfold State.flushDieLine
  split
  · rfl
  · split
    · rfl
    · exact (s.setBaseLine_caches ..).1

/-- Writing a line back leaves it in its die cache, clean, and the other lines there as they are. -/
theorem State.find_flushDieLine (s : State) (die tag ln k : Nat) : AMap.find? (s.flushDieLine die tag ln).dieCache k =
    if k = cacheKey tag die ln then (AMap.find? s.dieCache k).map CLine.clean else AMap.find? s.dieCache k := by
  unfold State.flushDieLine
  split
  · next h => split <;> simp_all
  · next x h =>
    split
    · next hd => split <;> simp_all [CLine.clean_of_clean]
    · refine (AMap.find?_put ..).trans ?_
      split
      · next hk => rw [hk, h]; rfl
      · rfl

theorem State.find_flushCoreLine (s : State) (core tag ln k : Nat) : AMap.find? (s.flushCoreLine core tag ln).coreCache k =
    if k = cacheKey tag core ln then (AMap.find? s.coreCache k).map CLine.clean else AMap.find? s.coreCache k := by
  have hdie : (s.dieLine (dieOf core) tag ln).2.coreCache = s.coreCache := by unfold State.dieLine; split <;> rfl
  unfold State.flushCoreLine
  split
  · next h => split <;> simp_all
  · next x h =>
    split
    · next hd => split <;> simp_all [CLine.clean_of_clean]
    · refine (AMap.find?_put ..).trans ?_
      rw [hdie]
      split
      · next hk => rw [hk, h]; rfl
      · rfl

/-- Once every line of a unit that a list names has been written back, a line of the unit is clean, or is dirty and stands
in none of the entries listed. -/
theorem clean_of_flushed {π : State → AMap CLine} {f : State → Nat → State} {unit : Nat}
    (hf : ∀ t n k, keyUnit n = unit → AMap.find? (π (f t n)) k =
      if k = n then (AMap.find? (π t) k).map CLine.clean else AMap.find? (π t) k)
    (l : AMap CLine) (s : State) {k : Nat} {x : CLine} (hu : keyUnit k = unit)
    (hk : ∀ y, AMap.find? (π s) k = some y → y.dirty = 0 ∨ k ∈ l.map Prod.fst)
    (h : AMap.find? (π (l.foldl (fun t e => if keyUnit e.1 = unit then f t e.1 else t) s)) k = some x) : x.dirty = 0 := by
  induction l generalizing s with
  | nil => exact (hk x h).resolve_right List.not_mem_nil
  | cons e l ih =>
    refine ih _ (fun y hy => ?_) h
    dsimp only at hy
    split at hy
    · next he =>
      rw [hf s e.1 k he] at hy
      split at hy
      · obtain ⟨z, -, rfl⟩ := Option.map_eq_some_iff.1 hy
        exact .inl rfl
      · next hne => exact (hk y hy).imp_right fun hm => (List.mem_cons.1 hm).resolve_left hne
    · next he =>
      exact (hk y hy).imp_right fun hm => (List.mem_cons.1 hm).resolve_left fun h => he ((congrArg keyUnit h).symm.trans hu)

theorem mem_keys_of_find? {α : Type} {m : AMap α} {k : Nat} {x : α} (h : AMap.find? m k = some x) : k ∈ m.map Prod.fst :=
  List.mem_map.2 ⟨(k, x), AMap.mem_of_find? h, rfl⟩

theorem State.flushCore_clean {s : State} {core k : Nat} {x : CLine} (hu : keyUnit k = core)
    (h : AMap.find? (s.flushCore core).coreCache k = some x) : x.dirty = 0 :=
  clean_of_flushed (π := State.coreCache) (f := fun t n => t.flushCoreLine core (keyTag n) (keyLine n))
    (fun t n j hn => by rw [State.find_flushCoreLine, ← hn, cacheKey_parts]) s.coreCache s hu
    (fun _ hy => .inr (mem_keys_of_find? hy)) h

theorem State.flushDie_clean {s : State} {die k : Nat} {x : CLine} (hu : keyUnit k = die)
    (h : AMap.find? (s.flushDie die).dieCache k = some x) : x.dirty = 0 :=
  clean_of_flushed (π := State.dieCache) (f := fun t n => t.flushDieLine die (keyTag n) (keyLine n))
    (fun t n j hn => by rw [State.find_flushDieLine, ← hn, cacheKey_parts]) s.dieCache s hu
    (fun _ hy => .inr (mem_keys_of_find? hy)) h

theorem State.flushDie_coreCache (s : State) (die : Nat) : (s.flushDie die).coreCache = s.coreCache := by
  refine foldl_unchanged State.coreCache (fun t e => ?_) _ _
  split
  · exact State.flushDieLine_coreCache ..
  · rfl

/-- Lines of a unit that an acquire drops are no longer found. -/
theorem find?_keep_other_units (m : AMap CLine) {unit k : Nat} (hu : keyUnit k = unit) :
    AMap.find? (AMap.keep (fun k _ => keyUnit k != unit) m) k = none := by
  rw [AMap.find?_keep m (fun k => keyUnit k != unit), if_neg (by simp [hu])]

theorem aReleaseLeavesNothingDirty : AReleaseLeavesNothingDirty := by
  intro s core sc _ _
  unfold State.releaseCaches State.acquireCaches
  refine ⟨fun hlevel k x hu => ?_, fun hlevel k x hu => ?_⟩
  · split
    · next h0 => omega
    · exact ⟨State.flushCore_clean hu, find?_keep_other_units _ hu⟩
    · rw [State.flushDie_coreCache]
      exact ⟨State.flushCore_clean hu, find?_keep_other_units _ hu⟩
  · rw [hlevel]
    exact ⟨State.flushDie_clean hu, find?_keep_other_units _ hu⟩

/-- Settles O23: LOCK and UNLOCK do what their table says, FENCE and DRAIN wait or write back, and every line of a unit is
written back before a release has ended. -/
theorem fencesDrainsAndLocksActOnTheCaches : Obligations.FencesDrainsAndLocksActOnTheCaches :=
  ⟨lockAndUnlockAnswerTheirStatus, fencesAndDrainsOrderAccesses, aReleaseLeavesNothingDirty⟩

end Sys2Proof.Machine
end


section
/-! LDT and STT (04 R89, R91; 19 R417; 21 R456). -/

namespace Sys2Proof.Machine

open Sys2Proof.Safety Sys2Proof.Claims

theorem exec_ldt {s : State} {g : Guard} {ty : STy} {d row col : Operand} {tile : Nat} {c : Ctx} (hc : s.ctx g = some c)
    (he : c.exec ≠ []) : exec (.ldt g ty d tile row col) s = .next (
      if (s.tile c.g.block tile).state ≠ tileReady then s.waitOn c (.tile tile)
      else match s.elementFault c (s.tile c.g.block tile) tile ty row col with
        | some f => s.raise c f
        | none => (s.write c (ty.width == 64) d (c.exec.map fun l =>
            (l, extendTo ty (elementRead s c (s.tile c.g.block tile) row col l)))).finish c) := by
  change execLdt g ty d tile row col s = _
  rw [execLdt, State.issue_of_ctx hc, if_neg (by simpa using he), State.path_of_ctx hc]
  rfl

theorem exec_stt {s : State} {g : Guard} {ty : STy} {a row col : Operand} {tile : Nat} {c : Ctx} (hc : s.ctx g = some c)
    (he : c.exec ≠ []) : exec (.stt g ty tile row col a) s = .next (
      let x := s.tile c.g.block tile
      if x.state = tileFilling ∨ x.state = tileDraining then s.raise c (whole c .tileBusy tile)
      else match s.elementFault c x tile ty row col with
        | some f => s.raise c f
        | none => (s.gate c (c.exec.flatMap fun l =>
            ((x.elementBytes (s.u32 c l row) (s.u32 c l col)).zip (x.scatter (s.u32 c l col) (s.bits c ty l a))).map
              fun e : (Nat × Byte) × Byte =>
                ({ lane := l, dst := tilePlace c.b x e.1.1, data := [e.2], mask := [e.1.2] } : GStore))).finish c) := by
  change execStt g ty tile row col a s = _
  rw [execStt, State.issue_of_ctx hc, if_neg (by simpa using he)]
  rfl

theorem tileElementsAreReadAndWritten : TileElementsAreReadAndWritten := by
  intro s g ty tile row col c hc he x vals
  have ldt (d : Operand) := exec_ldt (ty := ty) (d := d) (row := row) (col := col) (tile := tile) hc he
  have stt (a : Operand) := exec_stt (ty := ty) (a := a) (row := row) (col := col) (tile := tile) hc he
  have still : ∀ {st : Nat}, st = tileEmpty ∨ st = tileReady → ¬ (st = tileFilling ∨ st = tileDraining) := by
    rintro _ (rfl | rfl) <;> decide
  refine ⟨fun d hst => ⟨_, ?_, waits_waitOn hc _⟩, fun d f hst hf => ?_, fun d hst hf => ?_, fun a hst => ?_,
    fun a f hst hf => ?_, fun a hst hf => ?_⟩
  · rw [ldt, if_pos hst]
  · rw [ldt, if_neg (not_not.2 hst), hf]
  · have hexec : exec (.ldt g ty d tile row col) s = .next ((s.write c (ty.width == 64) d vals).finish c) := by
      rw [ldt, if_neg (not_not.2 hst), hf]
    refine ⟨fun hn => ⟨_, hexec, ?_⟩, fun y hy hs => ?_⟩
    · have h := State.settle_fleper hc hn (tweaked_of_groups hc rfl) rfl rfl false false (ty.width == 64) d vals
      rwa [State.flag_none] at h
    · have h := State.settle_native (u := s) hy hs false false (ty.width == 64) d vals
      rw [State.flag_none] at h
      rw [hexec, h]
  · rw [stt]
    exact congrArg _ (if_pos hst)
  · rw [stt]
    dsimp only
    rw [if_neg (still hst), hf]
  · rw [stt]
    dsimp only
    rw [if_neg (still hst), hf]

end Sys2Proof.Machine
end

section
/-! An element of a tile is its own (04 R87, R89; 09 R210, R213). -/

namespace Sys2Proof.Machine

open Sys2Proof.Safety Sys2Proof.Claims

/-- Columns in whole groups of 32 where an element spreads over planes, and rows that do not run into one another. -/
def Tile.Fits (t : Tile) : Prop := (t.fmt = 14 → t.cols % 32 = 0) ∧ t.rowBytes ≤ t.pitch * 64

section Spots

variable {t : Tile} {f : ETy} {r c : Nat}

theorem Tile.inRow_of_fits (hf : ETy.ofCode t.fmt = some f) (hs : t.Fits) (hc : c < t.cols) {e : Nat × Byte}
    (he : e ∈ t.elementBytes r c) : t.InRow r e.1 := by
  obtain ⟨hcols, hrow⟩ := hs
  have hassoc : r * t.pitch * 64 = r * (t.pitch * 64) := Nat.mul_assoc ..
  by_cases hw : wholeBytes f = true
  · rw [elementBytes_whole hf hw] at he
    obtain ⟨i, hi, rfl⟩ := List.mem_map.1 he
    have hi := ((mem_span _ _ _).1 hi).2
    have hsize : t.rowBytes = t.cols * (elementBits f / 8) := by
      have hbits := elementBits_whole hw
      rw [Tile.rowBytes, tileBits_of hf]
      generalize elementBits f / 8 = z at hbits ⊢
      rw [hbits, Nat.mul_left_comm]
      omega
    have hfit : (c + 1) * (elementBits f / 8) ≤ t.cols * (elementBits f / 8) := Nat.mul_le_mul_right _ hc
    rw [Nat.succ_mul] at hfit
    unfold Tile.InRow
    dsimp only
    omega
  · cases f with
    | e2m1 =>
      rw [elementBytes_nibble hf] at he
      obtain rfl := List.mem_singleton.1 he
      have hsize : t.rowBytes = (t.cols * 4 + 7) / 8 := by rw [Tile.rowBytes, tileBits_of hf]; rfl
      unfold Tile.InRow
      dsimp only
      omega
    | bpi =>
      have h14 : t.fmt = 14 := by
        unfold ETy.ofCode at hf
        split at hf <;> cases hf
        assumption
      exact Tile.inRow_elementBytes hf ⟨hcols h14, hrow⟩ hc he
    | _ => exact absurd rfl hw

theorem Tile.inRow_unique {r' o : Nat} (h : t.InRow r o) (h' : t.InRow r' o) : r = r' := by
  have le : ∀ {a b : Nat}, t.InRow a o → t.InRow b o → a ≤ b := by
    intro a b ha hb
    unfold Tile.InRow at ha hb
    exact Nat.le_of_lt_succ (Nat.lt_of_mul_lt_mul_right (a := t.pitch * 64) (by rw [Nat.succ_mul]; omega))
  exact Nat.le_antisymm (le h h') (le h' h)

theorem Tile.elementBytes_untouched (hf : ETy.ofCode t.fmt = some f) (hs : t.Fits) {r' c' : Nat} (hc : c < t.cols)
    (hc' : c' < t.cols) (hne : (r, c) ≠ (r', c')) {e e' : Nat × Byte} (he : e ∈ t.elementBytes r c)
    (he' : e' ∈ t.elementBytes r' c') : Untouched e e' := by
  have hin := Tile.inRow_of_fits hf hs hc he
  have hin' := Tile.inRow_of_fits hf hs hc' he'
  by_cases hr : r = r'
  · subst hr
    exact Tile.elementBytes_apart_row hf (fun h => hne (by rw [h])) he he'
  · exact .inl fun heq => hr (Tile.inRow_unique hin (heq ▸ hin'))

/-- Bytes that agree under the masks of an element make up the same element. -/
theorem Tile.gather_congr (hf : ETy.ofCode t.fmt = some f) {byte byte' : Nat → Byte}
    (h : ∀ e ∈ t.elementBytes r c, byte e.1 &&& e.2 = byte' e.1 &&& e.2) :
    t.gather c ((t.elementBytes r c).map fun e => byte e.1) = t.gather c ((t.elementBytes r c).map fun e => byte' e.1) := by
  by_cases hw : wholeBytes f = true
  · refine congrArg _ (List.map_congr_left fun e he => ?_)
    have hmask : e.2 = BitVec.allOnes 8 := by
      rw [elementBytes_whole hf hw] at he
      obtain ⟨i, -, rfl⟩ := List.mem_map.1 he
      rfl
    have := h e he
    rwa [hmask, BitVec.and_allOnes, BitVec.and_allOnes] at this
  · cases f with
    | e2m1 =>
      have hg : ∀ b : Byte, t.gather c [b] = bitsOf b.toNat (c % 2 * 4) 4 := fun b => by rw [Tile.gather, hf]; rfl
      rw [elementBytes_nibble hf] at h ⊢
      have agree := h _ List.mem_cons_self
      rw [List.map_cons, List.map_nil, List.map_cons, List.map_nil, hg, hg]
      refine bitsOf_congr_mask agree fun i hi => ?_
      rcases Nat.mod_two_eq_zero_or_one c with hc | hc <;> simp only [hc] <;> interval_cases i <;> rfl
    | bpi =>
      have hg : ∀ bs : List Byte, t.gather c bs =
          (span 0 8).foldl (fun acc j => 2 * acc + bitsOf (bs.getD j 0).toNat (c % 8) 1) 0 := fun bs => by
        rw [Tile.gather, hf]
      have hmask : ∀ i < 1, (1#8 <<< (c % 8)).getLsbD (c % 8 + i) = true := fun i hi => by
        obtain rfl : i = 0 := by omega
        have hc : c % 8 < 8 := Nat.mod_lt _ (by decide)
        simp [hc]
      rw [elementBytes_planes hf] at h ⊢
      rw [hg, hg, List.map_map, List.map_map]
      refine List.foldl_ext _ _ 0 fun acc j hj => ?_
      have hj8 : j < 8 := by have := (mem_span _ _ _).1 hj; omega
      have plane := bitsOf_congr_mask (h _ (List.mem_map_of_mem hj)) hmask
      refine congrArg (2 * acc + ·) (Eq.trans ?_ (plane.trans ?_)) <;> interval_cases j <;> rfl
    | _ => exact absurd rfl hw

end Spots

theorem ETy.ofCode_le {n : Nat} (h : n ≤ 14) : ∃ f, ETy.ofCode n = some f := by
  interval_cases n <;> exact ⟨_, rfl⟩

theorem aTileElementIsItsOwn : ATileElementIsItsOwn := by
  intro s b x r k v hfmt hr hk hrow hcols hcore hend t
  obtain ⟨f, hf⟩ := ETy.ofCode_le hfmt
  have hs : x.Fits := ⟨hcols, hrow⟩
  have hin : ∀ w ∈ (x.elementBytes r k).zip (x.scatter k v), InScratch (tileOc b x w.1.1) 1 := fun _ hw =>
    tileOc_inScratch ⟨hcore, hend⟩ hr (Tile.inRow_of_fits hf hs hk (List.of_mem_zip hw).1)
  refine ⟨State.putAll_frame s hin, State.tileElem_of_holds hf fun w hw => ?_, fun r' hr' k' hk' hne => ?_⟩
  · have hd : ((x.elementBytes r k).zip (x.scatter k v)).Pairwise fun w v => Untouched v.1 w.1 :=
      (pairwise_zip (Tile.elementBytes_distinct hf) _).imp fun hne => .inl hne.symm
    exact State.chipByte_putAll_same s hin hd hw
  · exact Tile.gather_congr (byte := fun o => t.chipByte (tileOc b x o)) (byte' := fun o => s.chipByte (tileOc b x o)) hf
      fun e he => State.chipByte_putAll_apart s hin fun w hw =>
        Tile.elementBytes_untouched hf hs hk hk' hne.symm (List.of_mem_zip hw).1 he

/-- Settles O25: LDT and STT read and write the bytes of their elements (`exec_ldt`, `exec_stt`), and the bytes of two
elements lie apart or their masks do (`Tile.elementBytes_untouched`). -/
theorem tileElementsAreReadWrittenAndTheirOwn : Obligations.TileElementsAreReadWrittenAndTheirOwn :=
  ⟨tileElementsAreReadAndWritten, aTileElementIsItsOwn⟩

end Sys2Proof.Machine
end


section
/-! Lines and their bytes (00 R4; 05 R116). -/

namespace Sys2Proof.Machine

open Sys2Proof.Safety Sys2Proof.Claims

theorem getLsbD_lineByte (d : Line) (i j : Nat) : (lineByte d i).getLsbD j = (decide (j < 8) && d.getLsbD (8 * i + j)) := by
  rw [lineByte, BitVec.getLsbD_setWidth, BitVec.getLsbD_ushiftRight]

theorem lineByte_setLineByte (d : Line) (b : Byte) {i j : Nat} (hi : i < 64) :
    lineByte (setLineByte d j b) i = if i = j then b else lineByte d i := by
  refine BitVec.eq_of_getLsbD_eq fun k hk => ?_
  have hff : ∀ n, (0xFF#512).getLsbD n = decide (n < 8) := fun n => by
    rw [BitVec.getLsbD_ofNat, show (0xFF : Nat) = 2 ^ 8 - 1 by rfl, Nat.testBit_two_pow_sub_one]
    by_cases h : n < 8
    · simp [h, show n < 512 by omega]
    · simp [h]
  have hin : 8 * i + k < 512 := by omega
  rw [getLsbD_lineByte, setLineByte]
  simp only [BitVec.getLsbD_or, BitVec.getLsbD_and, BitVec.getLsbD_not, BitVec.getLsbD_shiftLeft, BitVec.getLsbD_setWidth, hff,
    hk, hin, decide_true, Bool.true_and]
  split
  · next h =>
    subst h
    have hlt : ¬ 8 * i + k < 8 * i := by omega
    have hsub : 8 * i + k - 8 * i = k := by omega
    have hk' : k < 512 := by omega
    simp [hlt, hsub, hk, hk']
  · next h =>
    rw [getLsbD_lineByte]
    by_cases hlt : 8 * i + k < 8 * j
    · simp [hlt, hk]
    · have hge : ¬ 8 * i + k - 8 * j < 8 := by omega
      have hout : b.getLsbD (8 * i + k - 8 * j) = false := BitVec.getLsbD_of_ge _ _ (by omega)
      simp [hlt, hk, hge, hout]

theorem lineByte_mergeLine (old new : Line) (mask : LaneMask) {i : Nat} (hi : i < 64) :
    lineByte (mergeLine old new mask) i = if mask.getLsbD i then lineByte new i else lineByte old i := by
  have key : ∀ (l : List Nat) (d : Line),
      lineByte (l.foldl (fun d j => if mask.getLsbD j then setLineByte d j (lineByte new j) else d) d) i =
        if mask.getLsbD i = true ∧ i ∈ l then lineByte new i else lineByte d i := by
    intro l
    induction l with
    | nil => intro d; simp
    | cons j l ih =>
      intro d
      rw [List.foldl_cons, ih]
      by_cases hij : i = j
      · subst hij
        by_cases hm : mask.getLsbD i = true
        · simp [hm, lineByte_setLineByte _ _ hi]
        · simp [hm]
      · by_cases hm : mask.getLsbD j = true
        · simp [hm, lineByte_setLineByte _ _ hi, hij]
        · simp [hm, hij]
  have hmem : i ∈ span 0 64 := (mem_span _ _ _).2 ⟨Nat.zero_le i, by omega⟩
  rw [mergeLine, key]
  simp [hmem]

/-- Bytes put into a number one above the other stand there again. -/
theorem leNat_byte (bs : List Byte) (k : Nat) : leNat bs / 2 ^ (8 * k) % 2 ^ 8 = (bs.getD k 0).toNat := by
  induction bs generalizing k with
  | nil => simp [leNat]
  | cons b bs ih =>
    have hb : b.toNat < 256 := b.isLt
    cases k with
    | zero =>
      simp only [leNat, Nat.mul_zero, pow_zero, Nat.div_one, List.getD_cons_zero]
      omega
    | succ k =>
      rw [List.getD_cons_succ, ← ih k, Nat.mul_succ, Nat.add_comm, Nat.pow_add, ← Nat.div_div_eq_div_mul, leNat]
      congr 2
      omega

/-- Byte o + k of a line that takes bytes from byte o on is byte k of them. -/
theorem lineByte_placed (bs : List Byte) {o k : Nat} (h : o + k < 64) :
    lineByte (BitVec.ofNat 512 (leNat bs * 2 ^ (8 * o))) (o + k) = bs.getD k 0 := by
  refine BitVec.eq_of_getLsbD_eq fun j hj => ?_
  have hbit := congrArg (Nat.testBit · j) (leNat_byte bs k)
  simp only [Nat.testBit_mod_two_pow, hj, decide_true, Bool.true_and, Nat.testBit_div_two_pow] at hbit
  rw [getLsbD_lineByte, BitVec.getLsbD_ofNat, Nat.mul_comm (leNat bs), Nat.testBit_two_pow_mul, BitVec.getLsbD, ← hbit,
    show 8 * (o + k) + j - 8 * o = j + 8 * k by omega]
  simp [hj, show 8 * (o + k) + j < 512 by omega, show 8 * o ≤ 8 * (o + k) + j by omega]

theorem lineByte_lineOfBytes (bs : List Byte) {i : Nat} (h : i < 64) : lineByte (lineOfBytes bs) i = bs.getD i 0 := by
  have := lineByte_placed bs (o := 0) (k := i) (by omega)
  rwa [Nat.mul_zero, pow_zero, Nat.mul_one, Nat.zero_add] at this

/-- The mask of a slice of n bytes from byte o on. -/
theorem getLsbD_sliceMask {n o i : Nat} (h : o + n ≤ 64) :
    (BitVec.ofNat 64 ((2 ^ n - 1) * 2 ^ o)).getLsbD i = decide (o ≤ i ∧ i < o + n) := by
  rw [BitVec.getLsbD_ofNat, Nat.mul_comm, Nat.testBit_two_pow_mul, Nat.testBit_two_pow_sub_one]
  by_cases h1 : o ≤ i <;> by_cases h2 : i < o + n <;> simp [h1, h2] <;> omega

end Sys2Proof.Machine
end

section
/-! A line at the base dies (06 R147; 11 R259). -/

namespace Sys2Proof.Machine

open Sys2Proof.Safety Sys2Proof.Claims

/-- The bytes of a line reach the cells of one line, in order. -/
theorem cellOf_in_line (ln : Nat) {i : Nat} (hi : i < 64) : cellOf (ln * 64 + i) = cellLine ln * 64 + i := by
  unfold cellLine cellOf bitsOf
  split <;> split <;> omega

/-- A line lies in a control row as a whole. -/
theorem rowOf_in_line (ln : Nat) {i : Nat} (hi : i < 64) : rowOf (ln * 64 + i) = rowOf (ln * 64) := by
  have h0 := cellOf_in_line ln (i := 0) (by omega)
  rw [Nat.add_zero, Nat.add_zero] at h0
  rw [rowOf, rowOf, cellOf_in_line ln hi, h0]
  unfold bitsOf
  omega

theorem isControlRow_in_line (ln : Nat) {i : Nat} (hi : i < 64) : isControlRow (ln * 64 + i) = isControlRow (ln * 64) := by
  rw [isControlRow, isControlRow, rowOf_in_line ln hi]

theorem getElem?_span (lo n i : Nat) (h : i < n) : (span lo n)[i]? = some (lo + i) := by
  induction n generalizing lo i with
  | zero => omega
  | succ n ih =>
    cases i with
    | zero => rfl
    | succ i => rw [span, List.getElem?_cons_succ, ih (lo + 1) i (by omega)]; congr 1; omega

theorem lineByte_memLine (s : State) (ln : Nat) {i : Nat} (hi : i < 64) :
    lineByte (s.memLine ln) i = s.memByte (ln * 64 + i) := by
  rw [State.memLine, lineByte_lineOfBytes _ hi, State.memBytes, List.getD_eq_getElem?_getD, List.getElem?_map,
    getElem?_span _ _ _ hi]
  rfl

/-- A byte of committed memory reads as its cell does, and a cell changes with the bytes that reach it alone. -/
theorem State.memByte_setMemByte (s : State) (a x : Nat) (b : Byte) : (s.setMemByte a b).memByte x =
    if cellOf x = cellOf a ∧ isControlRow a = false then b else s.memByte x := by
  have hrow : cellOf x = cellOf a → isControlRow x = isControlRow a := fun h => by
    rw [isControlRow, isControlRow, rowOf, rowOf, h]
  unfold State.setMemByte State.memByte
  by_cases ha : isControlRow a = true
  · simp [ha]
  · rw [if_neg ha]
    by_cases hx : cellOf x = cellOf a
    · simp [hx, hrow hx, ha]
    · simp [hx, Cells.get_set]

/-- The bytes of a line written one by one. -/
def State.setLineBytes (s : State) (ln : Nat) (d : Line) (m : LaneMask) (l : List Nat) : State :=
  l.foldl (fun t i => if m.getLsbD i then t.setMemByte (ln * 64 + i) (lineByte d i) else t) s

theorem State.memByte_setLineBytes_same (s : State) (ln : Nat) (d : Line) (m : LaneMask) {i : Nat} (hi : i < 64)
    (l : List Nat) (hl : ∀ j ∈ l, j < 64) : (s.setLineBytes ln d m l).memByte (ln * 64 + i) =
      if i ∈ l ∧ m.getLsbD i = true ∧ isControlRow (ln * 64) = false then lineByte d i else s.memByte (ln * 64 + i) := by
  induction l generalizing s with
  | nil => simp [State.setLineBytes]
  | cons j l ih =>
    have hj := hl j List.mem_cons_self
    refine (ih _ fun k hk => hl k (List.mem_cons_of_mem _ hk)).trans ?_
    have hstep : (if m.getLsbD j = true then s.setMemByte (ln * 64 + j) (lineByte d j) else s).memByte (ln * 64 + i) =
        if i = j ∧ m.getLsbD i = true ∧ isControlRow (ln * 64) = false then lineByte d i else s.memByte (ln * 64 + i) := by
      by_cases hm : m.getLsbD j = true
      · rw [if_pos hm, State.memByte_setMemByte, cellOf_in_line ln hi, cellOf_in_line ln hj, isControlRow_in_line ln hj]
        by_cases hij : i = j
        · subst hij; simp [hm]
        · simp [hij]
      · rw [if_neg hm, if_neg]
        rintro ⟨rfl, h, -⟩
        exact hm h
    rw [hstep]
    by_cases hw : m.getLsbD i = true ∧ isControlRow (ln * 64) = false
    · simp only [hw, and_self, and_true, List.mem_cons]
      by_cases hil : i ∈ l <;> simp [hil]
    · rw [if_neg fun h => hw h.2, if_neg fun h => hw h.2, if_neg fun h => hw h.2]

theorem State.memByte_setLineBytes_other (s : State) (ln : Nat) (d : Line) (m : LaneMask) {ln' i : Nat} (hi : i < 64)
    (hne : cellLine ln' ≠ cellLine ln) (l : List Nat) (hl : ∀ j ∈ l, j < 64) :
    (s.setLineBytes ln d m l).memByte (ln' * 64 + i) = s.memByte (ln' * 64 + i) := by
  induction l generalizing s with
  | nil => rfl
  | cons j l ih =>
    have hj := hl j List.mem_cons_self
    refine (ih _ fun k hk => hl k (List.mem_cons_of_mem _ hk)).trans ?_
    dsimp only
    split
    · rw [State.memByte_setMemByte, cellOf_in_line ln' hi, cellOf_in_line ln hj, if_neg]
      omega
    · rfl

/-! A write at the base die. -/

/-- Whether a version's line takes writes at the base die: a control row takes none (11 R259), and there is no line outside
the 41 bits of physical addresses (01 R12). -/
def writable (tag ln : Nat) : Bool := if tag = 0 then !isControlRow (ln * 64) else decide (ln < 2 ^ 35)

/-- What lies off a line of a version as a core sees it, and committed memory behind a version. -/
structure SameOff (s t : State) (core tag ln : Nat) : Prop where
  inCore : ∀ k, k ≠ cacheKey tag core ln → AMap.find? t.coreCache k = AMap.find? s.coreCache k
  inDie : ∀ k, k ≠ cacheKey tag (dieOf core) ln → AMap.find? t.dieCache k = AMap.find? s.dieCache k
  base : ∀ ln', cellLine ln' ≠ cellLine ln → ∀ i < 64, lineByte (t.baseLine tag ln') i = lineByte (s.baseLine tag ln') i
  mem : tag ≠ 0 → t.mem = s.mem

theorem SameOff.refl (s : State) (core tag ln : Nat) : SameOff s s core tag ln :=
  ⟨fun _ _ => rfl, fun _ _ => rfl, fun _ _ _ _ => rfl, fun _ => rfl⟩

theorem SameOff.trans {s t u : State} {core tag ln : Nat} (h : SameOff s t core tag ln) (h' : SameOff t u core tag ln) :
    SameOff s u core tag ln :=
  ⟨fun k hk => (h'.inCore k hk).trans (h.inCore k hk), fun k hk => (h'.inDie k hk).trans (h.inDie k hk),
    fun ln' hne i hi => (h'.base ln' hne i hi).trans (h.base ln' hne i hi), fun ht => (h'.mem ht).trans (h.mem ht)⟩

/-- New entries of the line in the caches leave what lies off the line. -/
theorem SameOff.of_caches {s t : State} {core tag ln : Nat}
    (hcore : ∀ k, k ≠ cacheKey tag core ln → AMap.find? t.coreCache k = AMap.find? s.coreCache k)
    (hdie : ∀ k, k ≠ cacheKey tag (dieOf core) ln → AMap.find? t.dieCache k = AMap.find? s.dieCache k)
    (h : t = { s with coreCache := t.coreCache, dieCache := t.dieCache }) : SameOff s t core tag ln :=
  ⟨hcore, hdie, fun _ _ _ _ => by rw [h]; rfl, fun _ => by rw [h]⟩

theorem baseLine_committed (s : State) (ln : Nat) : s.baseLine 0 ln = s.memLine ln := rfl

theorem memByte_congr {s t : State} (h : t.mem = s.mem) (x : Nat) : t.memByte x = s.memByte x := by
  rw [State.memByte, h]
  rfl

theorem memLine_congr {s t : State} (h : t.mem = s.mem) (ln : Nat) : t.memLine ln = s.memLine ln := by
  rw [State.memLine, State.memBytes, funext (memByte_congr h)]
  rfl

theorem State.setBaseLine_committed (s : State) (ln : Nat) (d : Line) (m : LaneMask) :
    ∃ t : State, t.mem = s.mem ∧ s.setBaseLine 0 ln d m = t.setLineBytes ln d m (span 0 64) := by
  unfold State.setBaseLine
  dsimp only
  rw [if_pos rfl]
  let bad : BitVec 1 := if m ≠ BitVec.allOnes 64 ∧ s.poisoned 0 ln = true then 1 else 0
  exact ⟨{ s with poison := Cells.set s.poison (shadowKey 0 ln) bad }, rfl, rfl⟩

/-- A write to a version is a write to its shadow line, where there is such a line. -/
theorem State.setBaseLine_version (s : State) {tag : Nat} (ht : tag ≠ 0) (ln : Nat) (d : Line) (m : LaneMask) :
    (s.setBaseLine tag ln d m).mem = s.mem ∧ (s.setBaseLine tag ln d m).shadow =
      if ln < 2 ^ 35 then AMap.put s.shadow (shadowKey tag ln) (mergeLine (s.baseLine tag ln) d m) else s.shadow := by
  unfold State.setBaseLine
  dsimp only
  rw [if_neg ht]
  split
  · exact ⟨rfl, rfl⟩
  · exact ⟨rfl, rfl⟩

theorem baseLine_version (s : State) {tag : Nat} (ht : tag ≠ 0) (ln : Nat) :
    s.baseLine tag ln = (AMap.find? s.shadow (shadowKey tag ln)).getD (s.memLine ln) := by
  rw [State.baseLine, if_neg ht]
  cases AMap.find? s.shadow (shadowKey tag ln) <;> rfl

theorem span_lt {n j : Nat} (h : j ∈ span 0 n) : j < n := by
  have := (mem_span _ _ _).1 h
  omega

theorem lineByte_setBaseLine (s : State) (tag ln : Nat) (d : Line) (m : LaneMask) {i : Nat} (hi : i < 64) :
    lineByte ((s.setBaseLine tag ln d m).baseLine tag ln) i =
      if m.getLsbD i = true ∧ writable tag ln = true then lineByte d i else lineByte (s.baseLine tag ln) i := by
  by_cases ht : tag = 0
  · subst ht
    obtain ⟨t, hmem, ht⟩ := s.setBaseLine_committed ln d m
    have hspan : i ∈ span 0 64 := (mem_span _ _ _).2 ⟨Nat.zero_le i, by omega⟩
    rw [ht, baseLine_committed, baseLine_committed, lineByte_memLine _ _ hi, lineByte_memLine _ _ hi,
      State.memByte_setLineBytes_same _ ln d m hi _ fun j => span_lt, memByte_congr hmem]
    simp only [hspan, true_and, writable, if_true, Bool.not_eq_true']
  · obtain ⟨hmem, hshadow⟩ := s.setBaseLine_version ht ln d m
    rw [baseLine_version _ ht, hshadow]
    have hw : writable tag ln = decide (ln < 2 ^ 35) := if_neg ht
    by_cases hln : ln < 2 ^ 35
    · rw [if_pos hln, AMap.find?_put_same, Option.getD_some, lineByte_mergeLine _ _ _ hi]
      simp only [hw, hln, decide_true, and_true]
    · rw [if_neg hln, memLine_congr hmem, ← baseLine_version s ht, if_neg]
      exact fun h => hln (of_decide_eq_true (hw ▸ h.2))

theorem setBaseLine_sameOff (s : State) (core tag ln : Nat) (d : Line) (m : LaneMask) :
    SameOff s (s.setBaseLine tag ln d m) core tag ln := by
  obtain ⟨hcore, hdie⟩ := s.setBaseLine_caches tag ln d m
  refine ⟨fun k _ => by rw [hcore], fun k _ => by rw [hdie], fun ln' hne i hi => ?_,
    fun ht => (s.setBaseLine_version ht ln d m).1⟩
  by_cases ht : tag = 0
  · subst ht
    obtain ⟨t, hmem, ht⟩ := s.setBaseLine_committed ln d m
    rw [ht, baseLine_committed, baseLine_committed, lineByte_memLine _ _ hi, lineByte_memLine _ _ hi,
      State.memByte_setLineBytes_other _ ln d m hi hne _ fun j => span_lt, memByte_congr hmem]
  · obtain ⟨hmem, hshadow⟩ := s.setBaseLine_version ht ln d m
    have hkey : shadowKey tag ln' ≠ shadowKey tag ln := fun h => hne (Nat.add_left_cancel h)
    have hfind : AMap.find? (s.setBaseLine tag ln d m).shadow (shadowKey tag ln') =
        AMap.find? s.shadow (shadowKey tag ln') := by
      rw [hshadow]
      split
      · exact AMap.find?_put_other _ _ hkey
      · rfl
    rw [baseLine_version _ ht, baseLine_version _ ht, hfind, memLine_congr hmem]

end Sys2Proof.Machine
end


section
/-! A byte as its core sees it through the cache levels (04 R96, R97; 05 R114, R116). -/

namespace Sys2Proof.Machine

open Sys2Proof.Safety Sys2Proof.Claims

/-! The byte alone. -/

/-- A byte of a line of a version as a core sees it: what each level answers when asked for it, and whether a cached copy
holds it dirty. A level without a copy answers as the one below. -/
structure Seen where
  core : Byte
  coreDirty : Bool
  die : Byte
  dieDirty : Bool
  base : Byte

def Seen.flushCore (x : Seen) : Seen :=
  { x with coreDirty := false, die := if x.coreDirty then x.core else x.die, dieDirty := x.dieDirty || x.coreDirty }

theorem Seen.flushCore_of_clean {x : Seen} (h : x.coreDirty = false) : x.flushCore = x := by
  cases x
  cases h
  simp [Seen.flushCore]

/-- `w`: the base die takes writes of the line. -/
def Seen.flushDie (x : Seen) (w : Bool) : Seen :=
  { x with dieDirty := false, base := if x.dieDirty && w then x.die else x.base }

theorem Seen.flushDie_of_clean {x : Seen} (h : x.dieDirty = false) (w : Bool) : x.flushDie w = x := by
  cases x
  cases h
  rfl

/-- The byte as an access served at a level reads it. -/
def Seen.read (x : Seen) (w : Bool) : Nat → Byte
  | 0 => x.core
  | 1 => x.flushCore.die
  | _ => (x.flushCore.flushDie w).base

/-- The byte put at a level, once the levels above have been written back. -/
def Seen.putCore (x : Seen) (b : Byte) : Seen := { x with core := b, coreDirty := true }
def Seen.putDie (x : Seen) (b : Byte) : Seen := { x with core := b, coreDirty := false, die := b, dieDirty := true }
def Seen.putBase (b : Byte) : Seen := { core := b, coreDirty := false, die := b, dieDirty := false, base := b }

/-- A write served at a level, of the byte (`some`) or of others of its line (`none`). -/
def Seen.write (x : Seen) (w : Bool) (level : Nat) (o : Option Byte) : Seen :=
  match level with
  | 0 => o.elim x x.putCore
  | 1 => o.elim x.flushCore x.flushCore.putDie
  | _ => o.elim (x.flushCore.flushDie w) Seen.putBase

/-- A byte written is what every level reads; a write of other bytes changes nothing that is read. -/
theorem Seen.read_write (x : Seen) (l l' : Nat) (o : Option Byte) :
    (x.write true l o).read true l' = o.getD (x.read true l') := by
  obtain ⟨core, cd, die, dd, base⟩ := x
  cases o with
  | some b =>
    match l, l' with
    | 0, 0 | 0, 1 | 0, _ + 2 | 1, 0 | 1, 1 | 1, _ + 2 | _ + 2, 0 | _ + 2, 1 | _ + 2, _ + 2 =>
      simp [Seen.write, Seen.read, Seen.putCore, Seen.putDie, Seen.putBase, Seen.flushCore, Seen.flushDie]
  | none =>
    match l, l' with
    | 0, 0 | 0, 1 | 0, _ + 2 | 1, 0 | 1, 1 | 1, _ + 2 | _ + 2, 0 | _ + 2, 1 | _ + 2, _ + 2 =>
      cases cd <;> cases dd <;> rfl

/-! The byte in the state. -/

/-- What is seen of byte i with these copies in the caches and this byte below. -/
def seenOf (co di : Option CLine) (base : Byte) (i : Nat) : Seen :=
  let die := di.elim base fun x => lineByte x.data i
  { core := co.elim die fun x => lineByte x.data i
    coreDirty := co.elim false fun x => x.dirty.getLsbD i
    die
    dieDirty := di.elim false fun x => x.dirty.getLsbD i
    base }

def State.seen (s : State) (core tag ln i : Nat) : Seen :=
  seenOf (AMap.find? s.coreCache (cacheKey tag core ln)) (AMap.find? s.dieCache (cacheKey tag (dieOf core) ln))
    (lineByte (s.baseLine tag ln) i) i

/-- A copy with bytes put in, which are then dirty; and one refreshed, with the bytes clean. -/
def CLine.put (x : CLine) (d : Line) (m : LaneMask) : CLine := { data := mergeLine x.data d m, dirty := x.dirty ||| m }
def CLine.refreshed (x : CLine) (d : Line) (m : LaneMask) : CLine :=
  { data := mergeLine x.data d m, dirty := x.dirty &&& ~~~m }

section Copies

variable {i : Nat} (hi : i < 64) (co di : Option CLine) (x y : CLine) (base : Byte) (d : Line) (m : LaneMask)

/-- The byte of a write, if its mask takes it. -/
def maskedByte (d : Line) (m : LaneMask) (i : Nat) : Option Byte := if m.getLsbD i then some (lineByte d i) else none

/-- A line fetched clean from the level below reads as that level. -/
theorem seenOf_fetched_die (b : Line) :
    seenOf co (some { data := b, dirty := 0 }) (lineByte b i) i = seenOf co none (lineByte b i) i := by
  simp [seenOf]

theorem seenOf_fetched_core : seenOf (some { data := y.data, dirty := 0 }) (some y) base i = seenOf none (some y) base i := by
  simp [seenOf]

theorem seenOf_flushDie (w : Bool) : seenOf co (some x.clean)
    (if x.dirty.getLsbD i = true ∧ w = true then lineByte x.data i else base) i = (seenOf co (some x) base i).flushDie w := by
  cases hx : x.dirty.getLsbD i <;> cases w <;> simp [seenOf, CLine.clean, Seen.flushDie, hx]

include hi

theorem seenOf_flushCore :
    seenOf (some x.clean) (some (y.put x.data x.dirty)) base i = (seenOf (some x) (some y) base i).flushCore := by
  cases hx : x.dirty.getLsbD i <;> simp [seenOf, CLine.clean, CLine.put, Seen.flushCore, lineByte_mergeLine _ _ _ hi, hx]

theorem seenOf_putCore : seenOf (some (x.put d m)) di base i =
    (maskedByte d m i).elim (seenOf (some x) di base i) (seenOf (some x) di base i).putCore := by
  unfold maskedByte
  cases hm : m.getLsbD i <;> simp [seenOf, CLine.put, Seen.putCore, lineByte_mergeLine _ _ _ hi, hm]

theorem getLsbD_refreshed : (x.refreshed d m).dirty.getLsbD i = (x.dirty.getLsbD i && !m.getLsbD i) := by
  rw [CLine.refreshed, BitVec.getLsbD_and, BitVec.getLsbD_not, decide_eq_true hi, Bool.true_and]

theorem lineByte_refreshed : lineByte (x.refreshed d m).data i = if m.getLsbD i then lineByte d i else lineByte x.data i :=
  lineByte_mergeLine _ _ _ hi

theorem seenOf_putDie : seenOf (co.map fun x => x.refreshed d m) (some (y.put d m)) base i =
    (maskedByte d m i).elim (seenOf co (some y) base i) (seenOf co (some y) base i).putDie := by
  unfold maskedByte
  cases hm : m.getLsbD i <;> cases co <;>
    simp [seenOf, CLine.put, Seen.putDie, getLsbD_refreshed hi, lineByte_refreshed hi, lineByte_mergeLine _ _ _ hi, hm]

theorem seenOf_putBase : seenOf (co.map fun x => x.refreshed d m) (di.map fun x => x.refreshed d m)
      ((maskedByte d m i).getD base) i = (maskedByte d m i).elim (seenOf co di base i) Seen.putBase := by
  unfold maskedByte
  cases hm : m.getLsbD i <;> cases co <;> cases di <;>
    simp [seenOf, Seen.putBase, getLsbD_refreshed hi, lineByte_refreshed hi, hm]

end Copies

end Sys2Proof.Machine
end


section
/-! What an access does to the bytes that its core sees (05 R114, R116). -/

namespace Sys2Proof.Machine

open Sys2Proof.Safety Sys2Proof.Claims

/-! Fetches, write-backs, reads and writes of a line. -/

/-- A state that differs from another in its caches alone, and there in one line of one core's caches alone. -/
def Recached (s t : State) (core tag ln : Nat) : Prop :=
  t = { s with coreCache := t.coreCache, dieCache := t.dieCache } ∧
  (∀ k, k ≠ cacheKey tag core ln → AMap.find? t.coreCache k = AMap.find? s.coreCache k) ∧
  ∀ k, k ≠ cacheKey tag (dieOf core) ln → AMap.find? t.dieCache k = AMap.find? s.dieCache k

theorem Recached.refl (s : State) (core tag ln : Nat) : Recached s s core tag ln := ⟨rfl, fun _ _ => rfl, fun _ _ => rfl⟩

theorem Recached.trans {s t u : State} {core tag ln : Nat} (h : Recached s t core tag ln) (h' : Recached t u core tag ln) :
    Recached s u core tag ln := by
  obtain ⟨e, hc, hd⟩ := h
  obtain ⟨e', hc', hd'⟩ := h'
  refine ⟨e'.trans ?_, fun k hk => (hc' k hk).trans (hc k hk), fun k hk => (hd' k hk).trans (hd k hk)⟩
  rw [e]

theorem Recached.baseLine {s t : State} {core tag ln : Nat} (h : Recached s t core tag ln) (tag' ln' : Nat) :
    t.baseLine tag' ln' = s.baseLine tag' ln' := by
  obtain ⟨e, -⟩ := h
  rw [e]
  rfl

theorem Recached.sameOff {s t : State} {core tag ln : Nat} (h : Recached s t core tag ln) : SameOff s t core tag ln := by
  obtain ⟨e, hc, hd⟩ := h
  exact .of_caches hc hd e

/-- A new entry of the line in a cache. -/
theorem Recached.put_core (s : State) (core tag ln : Nat) (x : CLine) :
    Recached s { s with coreCache := AMap.put s.coreCache (cacheKey tag core ln) x } core tag ln :=
  ⟨rfl, fun _ hk => AMap.find?_put_other _ _ hk, fun _ _ => rfl⟩

theorem Recached.put_die (s : State) (core tag ln : Nat) (x : CLine) :
    Recached s { s with dieCache := AMap.put s.dieCache (cacheKey tag (dieOf core) ln) x } core tag ln :=
  ⟨rfl, fun _ _ => rfl, fun _ hk => AMap.find?_put_other _ _ hk⟩

theorem State.seen_of {t : State} {core tag ln i : Nat} {co di : Option CLine} {base : Byte}
    (hc : AMap.find? t.coreCache (cacheKey tag core ln) = co)
    (hd : AMap.find? t.dieCache (cacheKey tag (dieOf core) ln) = di) (hb : lineByte (t.baseLine tag ln) i = base) :
    t.seen core tag ln i = seenOf co di base i := by
  rw [State.seen, hc, hd, hb]

section Fetch

variable (s : State) (core tag ln : Nat)

theorem dieLine_recached : Recached s (s.dieLine (dieOf core) tag ln).2 core tag ln := by
  unfold State.dieLine
  split
  · exact .refl ..
  · exact .put_die ..

/-- A line fetched into the die cache stands there, and is seen as it was. -/
theorem find_dieLine : AMap.find? (s.dieLine (dieOf core) tag ln).2.dieCache (cacheKey tag (dieOf core) ln) =
    some (s.dieLine (dieOf core) tag ln).1 := by
  unfold State.dieLine
  split
  · next h => exact h
  · exact AMap.find?_put_same ..

theorem dieLine_coreCache : (s.dieLine (dieOf core) tag ln).2.coreCache = s.coreCache := by
  unfold State.dieLine
  split <;> rfl

theorem seen_dieLine (i : Nat) : (s.dieLine (dieOf core) tag ln).2.seen core tag ln i = s.seen core tag ln i := by
  rw [State.seen, (dieLine_recached s core tag ln).baseLine, dieLine_coreCache, find_dieLine, State.seen]
  unfold State.dieLine
  cases h : AMap.find? s.dieCache (cacheKey tag (dieOf core) ln) with
  | some x => rfl
  | none => exact seenOf_fetched_die ..

/-- What is seen once the line is in the die cache. -/
theorem seen_eq_of_dieLine (i : Nat) : s.seen core tag ln i =
    seenOf (AMap.find? s.coreCache (cacheKey tag core ln)) (some (s.dieLine (dieOf core) tag ln).1)
      (lineByte (s.baseLine tag ln) i) i := by
  rw [← seen_dieLine, State.seen, find_dieLine, dieLine_coreCache, (dieLine_recached s core tag ln).baseLine]

theorem lineByte_dieLine (i : Nat) : lineByte (s.dieLine (dieOf core) tag ln).1.data i = (s.seen core tag ln i).die := by
  rw [seen_eq_of_dieLine]
  rfl

theorem coreLine_recached : Recached s (s.coreLine core tag ln).2 core tag ln := by
  unfold State.coreLine
  split
  · exact .refl ..
  · exact (dieLine_recached s core tag ln).trans (.put_core ..)

theorem find_coreLine : AMap.find? (s.coreLine core tag ln).2.coreCache (cacheKey tag core ln) =
    some (s.coreLine core tag ln).1 := by
  unfold State.coreLine
  split
  · next h => exact h
  · exact AMap.find?_put_same ..

theorem seen_coreLine (i : Nat) : (s.coreLine core tag ln).2.seen core tag ln i = s.seen core tag ln i := by
  unfold State.coreLine
  split
  · rfl
  · next h =>
    rw [seen_eq_of_dieLine s, h, ← seenOf_fetched_core]
    exact State.seen_of (AMap.find?_put_same ..) (find_dieLine ..)
      (congrArg (lineByte · i) ((dieLine_recached s core tag ln).baseLine tag ln))

theorem lineByte_coreLine (i : Nat) : lineByte (s.coreLine core tag ln).1.data i = (s.seen core tag ln i).core := by
  rw [← seen_coreLine, State.seen, find_coreLine]
  rfl

end Fetch

section Line

variable (s : State) (core tag ln : Nat) {i : Nat} (hi : i < 64)

theorem flushCoreLine_recached : Recached s (s.flushCoreLine core tag ln) core tag ln := by
  unfold State.flushCoreLine
  split
  · exact .refl ..
  · split
    · exact .refl ..
    · exact (dieLine_recached s core tag ln).trans ((Recached.put_core ..).trans (.put_die ..))

theorem flushDieLine_sameOff : SameOff s (s.flushDieLine (dieOf core) tag ln) core tag ln := by
  unfold State.flushDieLine
  split
  · exact .refl ..
  · split
    · exact .refl ..
    · obtain ⟨hc, hd, hb, hm⟩ := setBaseLine_sameOff s core tag ln _ _
      exact ⟨hc, fun k hk => AMap.find?_put_other _ _ hk, hb, hm⟩

include hi

theorem seen_flushCoreLine : (s.flushCoreLine core tag ln).seen core tag ln i = (s.seen core tag ln i).flushCore := by
  unfold State.flushCoreLine
  split
  · next h => exact (Seen.flushCore_of_clean (by rw [State.seen, h]; rfl)).symm
  · next x h =>
    split
    · next hclean => exact (Seen.flushCore_of_clean (by rw [State.seen, h]; simp [seenOf, hclean])).symm
    · refine Eq.trans (b := seenOf (some x.clean) (some ((s.dieLine (dieOf core) tag ln).1.put x.data x.dirty))
        (lineByte (s.baseLine tag ln) i) i) (State.seen_of ?_ ?_ ?_) ?_
      · exact AMap.find?_put_same ..
      · exact AMap.find?_put_same ..
      · exact congrArg (lineByte · i) ((dieLine_recached s core tag ln).baseLine tag ln)
      · rw [seenOf_flushCore hi, seen_eq_of_dieLine s, h]

theorem seen_flushDieLine : (s.flushDieLine (dieOf core) tag ln).seen core tag ln i =
    (s.seen core tag ln i).flushDie (writable tag ln) := by
  unfold State.flushDieLine
  split
  · next h => exact (Seen.flushDie_of_clean (by rw [State.seen, h]; rfl) _).symm
  · next x h =>
    split
    · next hclean => exact (Seen.flushDie_of_clean (by rw [State.seen, h]; simp [seenOf, hclean]) _).symm
    · refine Eq.trans (b := seenOf (AMap.find? s.coreCache (cacheKey tag core ln)) (some x.clean)
        (if x.dirty.getLsbD i = true ∧ writable tag ln = true then lineByte x.data i else lineByte (s.baseLine tag ln) i) i)
        (State.seen_of ?_ ?_ ?_) ?_
      · exact congrArg (AMap.find? · _) (s.setBaseLine_caches tag ln x.data x.dirty).1
      · exact AMap.find?_put_same ..
      · exact lineByte_setBaseLine s tag ln x.data x.dirty hi
      · rw [seenOf_flushDie, State.seen, h]

omit hi in
theorem pushLine_sameOff (sc : Scope) : SameOff s (s.pushLine core tag ln sc) core tag ln := by
  unfold State.pushLine
  split
  · exact .refl ..
  · exact (flushCoreLine_recached s core tag ln).sameOff
  · exact (flushCoreLine_recached s core tag ln).sameOff.trans (flushDieLine_sameOff ..)

/-- A byte of a line as an access at a scope reads it. -/
theorem lineByte_readLine (sc : Scope) : lineByte (s.readLine core tag true sc ln).1 i =
    (s.seen core tag ln i).read (writable tag ln) (serviceLevel sc) := by
  unfold State.readLine State.pushLine
  rw [if_neg (by decide)]
  dsimp only
  match serviceLevel sc with
  | 0 => exact lineByte_coreLine ..
  | 1 => exact (lineByte_dieLine ..).trans (congrArg Seen.die (seen_flushCoreLine s core tag ln hi))
  | _ + 2 =>
    refine (congrArg Seen.base (seen_flushDieLine (s.flushCoreLine core tag ln) core tag ln hi)).trans ?_
    rw [seen_flushCoreLine s core tag ln hi]
    rfl

omit hi in
theorem find_refresh (m : AMap CLine) (k : Nat) (d : Line) (mask : LaneMask) :
    AMap.find? (refresh m k d mask) k = (AMap.find? m k).map fun x => x.refreshed d mask := AMap.find?_upd_same ..

/-- A byte of a line after a write of bytes of the line at a scope. -/
theorem seen_writeLine (sc : Scope) (d : Line) (m : LaneMask) (hw : writable tag ln = true) :
    (s.writeLine core tag true sc ln d m).seen core tag ln i =
      (s.seen core tag ln i).write (writable tag ln) (serviceLevel sc) (maskedByte d m i) := by
  unfold State.writeLine State.pushLine
  rw [if_neg (by decide)]
  dsimp only
  match serviceLevel sc with
  | 0 =>
    let u := (s.coreLine core tag ln).2
    have hs : u.seen core tag ln i = s.seen core tag ln i := seen_coreLine s core tag ln i
    rw [State.seen, find_coreLine] at hs
    refine Eq.trans (b := seenOf (some ((s.coreLine core tag ln).1.put d m))
      (AMap.find? u.dieCache (cacheKey tag (dieOf core) ln)) (lineByte (u.baseLine tag ln) i) i) (State.seen_of ?_ ?_ ?_) ?_
    · exact AMap.find?_put_same ..
    · rfl
    · rfl
    · rw [seenOf_putCore hi, hs]
      rfl
  | 1 =>
    let u := s.flushCoreLine core tag ln
    have hs : u.seen core tag ln i = (s.seen core tag ln i).flushCore := seen_flushCoreLine s core tag ln hi
    rw [seen_eq_of_dieLine u] at hs
    refine Eq.trans (b := seenOf ((AMap.find? u.coreCache (cacheKey tag core ln)).map fun x => x.refreshed d m)
      (some ((u.dieLine (dieOf core) tag ln).1.put d m)) (lineByte (u.baseLine tag ln) i) i) (State.seen_of ?_ ?_ ?_) ?_
    · rw [← dieLine_coreCache u core tag ln]
      exact find_refresh ..
    · exact AMap.find?_put_same ..
    · exact congrArg (lineByte · i) ((dieLine_recached u core tag ln).baseLine tag ln)
    · rw [seenOf_putDie hi, hs]
      rfl
  | _ + 2 =>
    let u := (s.flushCoreLine core tag ln).flushDieLine (dieOf core) tag ln
    have hs : u.seen core tag ln i = ((s.seen core tag ln i).flushCore).flushDie (writable tag ln) := by
      rw [← seen_flushCoreLine s core tag ln hi]
      exact seen_flushDieLine _ core tag ln hi
    obtain ⟨hcore, hdie⟩ := u.setBaseLine_caches tag ln d m
    refine Eq.trans (b := seenOf ((AMap.find? u.coreCache (cacheKey tag core ln)).map fun x => x.refreshed d m)
      ((AMap.find? u.dieCache (cacheKey tag (dieOf core) ln)).map fun x => x.refreshed d m)
      ((maskedByte d m i).getD (lineByte (u.baseLine tag ln) i)) i) (State.seen_of ?_ ?_ ?_) ?_
    · rw [← hcore]
      exact find_refresh ..
    · rw [← hdie]
      exact find_refresh ..
    · refine (lineByte_setBaseLine u tag ln d m hi).trans ?_
      unfold maskedByte
      cases m.getLsbD i <;> simp [hw]
    · rw [seenOf_putBase hi, ← State.seen, hs]
      rfl

omit hi in
theorem writeLine_sameOff (cached : Bool) (sc : Scope) (d : Line) (m : LaneMask) :
    SameOff s (s.writeLine core tag cached sc ln d m) core tag ln := by
  unfold State.writeLine
  cases cached with
  | false => exact setBaseLine_sameOff ..
  | true =>
    rw [if_neg (by decide)]
    have hpush := pushLine_sameOff s core tag ln sc
    match serviceLevel sc with
    | 0 => exact ((coreLine_recached s core tag ln).trans (.put_core ..)).sameOff
    | 1 =>
      exact ((flushCoreLine_recached s core tag ln).trans ((dieLine_recached _ core tag ln).trans
        ⟨rfl, fun k hk => AMap.find?_upd_other _ _ hk, fun k hk => AMap.find?_put_other _ _ hk⟩)).sameOff
    | _ + 2 =>
      exact (hpush.trans (setBaseLine_sameOff _ core tag ln d m)).trans
        (.of_caches (fun k hk => AMap.find?_upd_other _ _ hk) (fun k hk => AMap.find?_upd_other _ _ hk) rfl)

end Line

section Access

variable (s : State) (core tag : Nat) (cached : Bool) (sc sc' : Scope) (ln : Nat) (d : Line) (m : LaneMask) {i : Nat}
  (hi : i < 64)

include hi

/-- After a write of a line that takes writes, its bytes under the mask read as written, and the others as before. -/
theorem lineByte_readLine_writeLine (hw : writable tag ln = true) :
    lineByte ((s.writeLine core tag cached sc ln d m).readLine core tag cached sc' ln).1 i =
      (maskedByte d m i).getD (lineByte (s.readLine core tag cached sc' ln).1 i) := by
  cases cached with
  | true => rw [lineByte_readLine _ _ _ _ hi, lineByte_readLine _ _ _ _ hi, seen_writeLine _ _ _ _ hi _ _ _ hw, hw,
      Seen.read_write]
  | false =>
    have hread : (s.readLine core tag false sc' ln).1 = s.baseLine tag ln := rfl
    refine (lineByte_setBaseLine s tag ln d m hi).trans ?_
    rw [hread, maskedByte]
    cases m.getLsbD i <;> simp [hw]

/-- Lines of other cells read as before. -/
theorem lineByte_readLine_writeLine_other {ln' : Nat} (hne : cellLine ln' ≠ cellLine ln) :
    lineByte ((s.writeLine core tag cached sc ln d m).readLine core tag cached sc' ln').1 i =
      lineByte (s.readLine core tag cached sc' ln').1 i := by
  obtain ⟨hcore, hdie, hbase, -⟩ := writeLine_sameOff s core tag ln cached sc d m
  have hkey : ∀ n, cacheKey tag n ln' ≠ cacheKey tag n ln := fun n h => hne (by rw [Nat.add_left_cancel h])
  cases cached with
  | true =>
    rw [lineByte_readLine _ _ _ _ hi, lineByte_readLine _ _ _ _ hi,
      State.seen_of (hcore _ (hkey _)) (hdie _ (hkey _)) (hbase ln' hne i hi)]
    rfl
  | false => exact hbase ln' hne i hi

end Access

/-! Places. -/

theorem readPlace_line (s : State) (core x tag : Nat) (cached : Bool) (sc : Scope) (n : Nat) :
    (s.readPlace core (.g x tag cached sc) n).1 =
      (span (x % 64) n).map (lineByte (s.readLine core tag cached sc (x / 64)).1) := rfl

/-- What a slice of bytes puts at a byte of its line. -/
theorem maskedByte_lineSlice {o : Nat} {bs : List Byte} (h : o + bs.length ≤ 64) (i : Nat) :
    maskedByte (lineSlice o bs).1 (lineSlice o bs).2 i =
      if o ≤ i ∧ i < o + bs.length then some (bs.getD (i - o) 0) else none := by
  unfold maskedByte lineSlice
  rw [getLsbD_sliceMask h]
  by_cases hi : o ≤ i ∧ i < o + bs.length
  · have hplaced := lineByte_placed bs (o := o) (k := i - o) (by omega)
    rw [Nat.add_sub_cancel' hi.1] at hplaced
    simp [hi, hplaced]
  · simp [hi]

theorem writable_of_place {tag pa : Nat} (hpa : pa < 2 ^ 41) (hrow : isControlRow pa = false) :
    writable tag (pa / 64) = true := by
  unfold writable
  split
  · have hline := isControlRow_in_line (pa / 64) (i := pa % 64) (Nat.mod_lt _ (by decide))
    rw [Nat.div_add_mod' pa 64, hrow] at hline
    simp [← hline]
  · exact decide_eq_true (by omega)

theorem span_map_getD (bs : List Byte) (o : Nat) : (span o bs.length).map (fun i => bs.getD (i - o) 0) = bs := by
  refine List.ext_getElem? fun i => ?_
  by_cases hi : i < bs.length
  · rw [List.getElem?_map, getElem?_span _ _ _ hi, Option.map_some, Nat.add_sub_cancel_left, List.getD_eq_getElem?_getD,
      List.getElem?_eq_getElem hi, Option.getD_some]
  · rw [List.getElem?_eq_none (by rw [List.length_map, length_span]; omega), List.getElem?_eq_none (by omega)]

/-- Settles O21: of a byte, its core sees what each level of the caches answers (`Seen`), and a write at any level is what
every level then answers (`Seen.read_write`); lines of other cells keep their copies and their bytes at the base dies
(`SameOff`). -/
theorem aCoreReadsItsLatestWrite : Obligations.ACoreReadsItsLatestWrite := by
  intro s core tag pa cached sc sc' bs _ hpa hfit hrow t
  have hw : writable tag (pa / 64) = true := writable_of_place hpa hrow
  let d := (lineSlice (pa % 64) bs).1
  let m := (lineSlice (pa % 64) bs).2
  have ht : t = s.writeLine core tag cached sc (pa / 64) d m := rfl
  have own : ∀ i < 64, lineByte (t.readLine core tag cached sc' (pa / 64)).1 i =
      (if pa % 64 ≤ i ∧ i < pa % 64 + bs.length then some (bs.getD (i - pa % 64) 0) else none).getD
        (lineByte (s.readLine core tag cached sc' (pa / 64)).1 i) := fun i hi => by
    rw [ht, lineByte_readLine_writeLine s core tag cached sc sc' (pa / 64) d m hi hw, maskedByte_lineSlice hfit]
  refine ⟨?_, fun x hx hline => ?_, fun htag => ?_⟩
  · rw [readPlace_line]
    refine Eq.trans (List.map_congr_left fun i hi => ?_) (span_map_getD bs (pa % 64))
    have hi := (mem_span _ _ _).1 hi
    rw [own i (by omega), if_pos hi]
    rfl
  · have hbyte : lineByte (t.readLine core tag cached sc' (x / 64)).1 (x % 64) =
        lineByte (s.readLine core tag cached sc' (x / 64)).1 (x % 64) := by
      have hx64 : x % 64 < 64 := Nat.mod_lt _ (by decide)
      by_cases hsame : x / 64 = pa / 64
      · rw [hsame, own _ hx64, if_neg (by omega)]
        rfl
      · exact lineByte_readLine_writeLine_other s core tag cached sc sc' (pa / 64) d m hx64 (hline.resolve_left hsame)
    rw [readPlace_line, readPlace_line]
    exact congrArg (fun b : Byte => [b]) hbyte
  · obtain ⟨-, -, -, hmem⟩ := writeLine_sameOff s core tag (pa / 64) cached sc d m
    exact hmem htag

end Sys2Proof.Machine
end

section
/-! Atomics: each acts in the places of its lanes, and adds of one word accumulate (05 R115; 11 R250 to R253; 17 R349 to
R353). -/

namespace Sys2Proof.Machine

open Sys2Proof.Safety Sys2Proof.Claims

/-! What the three atomics do, as `atomicStep` and `atomicWrites` give it. -/

/-- An atomic whose checks pass, and whose release need not wait, acts in its lanes' places. -/
theorem State.atomic_of_clear {s t : State} {c : Ctx} {ty : STy} {ord : MemOrder} {sc : Scope} {m : MemRef} {w : Toks}
    {ps : List (Nat × Place)} (he : c.exec ≠ [])
    (hclear : Clear s c m sc { n := ty.width / 8, write := true, atomic := true } (fun x => m.space != .g || isMside x)
      c.exec t ps)
    (hready : ReleaseReady t c (releases ord) w) (f : Nat → Nat → Option Nat) (k : State → List (Nat × Nat) → State) :
    s.atomic c ty ord sc m w f k =
      let r := (released t c (releases ord) sc).rmw c.b.core (ty.width / 8) f ps
      (((k r.2 r.1).acquire c (acquires ord) sc).finish c).noteOverflow c.b.launch := by
  rw [State.atomic_of_exec he, State.access_of_clear hclear, State.atomicAt, State.release_ready hready]

/-- An atomic of no lane goes on. -/
theorem State.atomic_of_idle {c : Ctx} (he : c.exec = []) (s : State) (ty : STy) (ord : MemOrder) (sc : Scope) (m : MemRef)
    (w : Toks) (f : Nat → Nat → Option Nat) (k : State → List (Nat × Nat) → State) :
    s.atomic c ty ord sc m w f k = s.finish c := by
  unfold State.atomic
  exact if_pos (by rw [he]; rfl)

theorem atomicWrites_atom (g : Guard) (op : AtomOp) (ty : STy) (ord : MemOrder) (sc : Scope) (nr : Bool)
    (d : Option Operand) (m : MemRef) (a : Operand) (w : Toks) (s : State) (c : Ctx) (olds : List (Nat × Nat)) (t : State) :
    atomicWrites (.atom g op ty ord sc nr d m a w) s c olds t = t.writeOlds c ty (if nr then none else d) olds := by
  cases d <;> cases nr <;> rfl

theorem baddFits_iff (ty : STy) (old a bound : Nat) :
    baddFits ty old a bound = true ↔ old + a ≤ bound ∧ old + a < 2 ^ ty.width := by
  rw [baddFits, Bool.and_eq_true, decide_eq_true_iff, decide_eq_true_iff]

/-- A bounded add writes its success predicate too (11 R253). -/
theorem atomicWrites_atombadd (g : Guard) (ty : STy) (ord : MemOrder) (sc : Scope) (nr : Bool) (d : Option Operand) (q : Nat)
    (m : MemRef) (a n : Operand) (w : Toks) (s : State) (c : Ctx) (olds : List (Nat × Nat)) (t : State) :
    atomicWrites (.atombadd g ty ord sc nr d q m a n w) s c olds t =
      (t.writePred c q (olds.map fun e => (e.1, baddFits ty e.2 (s.bits c ty e.1 a) (s.bits c ty e.1 n)))).writeOlds c ty
        (if nr then none else d) olds := by
  simp only [State.writePred, List.map_map, Function.comp_def, baddFits_iff]
  cases d <;> cases nr <;> rfl

/-- Every atomic is `State.atomic` with the step and the writes of its kind. -/
theorem exec_of_atomicStep {i : Instr} {g : Guard} {ty : STy} {ord : MemOrder} {sc : Scope} {m : MemRef} {w : Toks}
    {f : State → Ctx → Nat → Nat → Option Nat} {s : State} {c : Ctx} (hi : atomicStep i = some (g, ty, ord, sc, m, w, f))
    (hc : s.ctx g = some c) :
    exec i s = .next (s.atomic c ty ord sc m w (f s c) fun t olds => atomicWrites i s c olds t) := by
  cases i with
  | atom g op ty ord sc nr d m a w =>
    cases hi
    simp only [atomicWrites_atom]
    exact State.issue_of_ctx hc _
  | atombadd g ty ord sc nr d q m a n w =>
    cases hi
    simp only [atomicWrites_atombadd, ← baddFits_iff]
    exact State.issue_of_ctx hc _
  | atomcas g ty ord sc d m cmp new w =>
    cases hi
    exact State.issue_of_ctx hc _
  | _ => cases hi

theorem atomicsActLaneByLane : AtomicsActLaneByLane := by
  intro i g ty ord sc m w f s t c ps hi hc
  have hexec := exec_of_atomicStep hi hc
  refine ⟨fun he => ?_, fun he hclear hready => ?_⟩
  · rw [hexec, State.atomic_of_idle he]
  · rw [hexec, State.atomic_of_clear he hclear hready]

/-! Adds of one scratchpad word. -/

theorem leNat_lt (bs : List Byte) : leNat bs < 2 ^ (8 * bs.length) := by
  induction bs with
  | nil => exact Nat.one_pos
  | cons b bs ih =>
    have hb := b.isLt
    rw [leNat, List.length_cons, Nat.mul_succ, Nat.pow_add]
    omega

theorem State.chipBytes_length (s : State) (oc n : Nat) : (s.chipBytes oc n).length = n := by
  rw [State.chipBytes, List.length_map, length_span]

/-- Bytes written to the scratchpad read back. -/
theorem State.chipBytes_setChipBytes_same (s : State) {oc : Nat} {bs : List Byte} (h : InScratch oc bs.length) :
    (s.setChipBytes oc bs).chipBytes oc bs.length = bs :=
  State.chipBytes_eq fun i hi => by
    rw [State.chipByte_setChipBytes_any s h, if_pos (by omega), Nat.add_sub_cancel_left]

/-- One lane's operation on a scratchpad word, and then those of the others. -/
theorem State.rmw_chip_cons (s : State) {core n oc l y : Nat} {f : Nat → Nat → Option Nat} (h : InScratch oc n)
    (hf : f l (leNat (s.chipBytes oc n)) = some y) (ps : List (Nat × Place)) :
    s.rmw core n f ((l, .chip oc) :: ps) =
      let r := (s.setChipBytes oc (leBytes n y)).rmw core n f ps
      ((l, leNat (s.chipBytes oc n)) :: r.1, r.2) := by
  have hw : InScratch oc (leBytes n y).length := by rwa [leBytes_length]
  simp only [State.rmw, State.readPlace, State.writePlace, hf, State.noteReserved_scratch _ h,
    State.noteReserved_scratch _ hw]

theorem State.leNat_setChipBytes (s : State) {oc n : Nat} (h : InScratch oc n) (y : Nat) :
    leNat ((s.setChipBytes oc (leBytes n y)).chipBytes oc n) = y % 2 ^ (8 * n) := by
  have hsame := s.chipBytes_setChipBytes_same (bs := leBytes n y) (oc := oc) (by rwa [leBytes_length])
  rw [leBytes_length] at hsame
  rw [hsame, leNat_leBytes]

theorem atomicAddsOfOneWordAccumulate : AtomicAddsOfOneWordAccumulate := by
  intro s core n oc x lanes hcore hoff
  have hin : InScratch oc n := ⟨hcore, hoff⟩
  induction lanes generalizing s with
  | nil =>
    have hlt := leNat_lt (s.chipBytes oc n)
    rw [State.chipBytes_length] at hlt
    exact ⟨(Nat.mod_eq_of_lt hlt).symm, fun i l h => nomatch h⟩
  | cons k lanes ih =>
    intro old r
    obtain ⟨hsum, hanswers⟩ := ih (s.setChipBytes oc (leBytes n ((old + x k) % 2 ^ (8 * n))))
    have hlt : old < 2 ^ (8 * n) := by simpa only [State.chipBytes_length] using leNat_lt (s.chipBytes oc n)
    have hr := s.rmw_chip_cons (core := core) (l := k) (f := fun l o => some ((o + x l) % 2 ^ (8 * n))) hin rfl
      (lanes.map fun l => (l, .chip oc))
    rw [State.leNat_setChipBytes s hin, Nat.mod_mod] at hsum hanswers
    have hacc : ∀ z, ((old + x k) % 2 ^ (8 * n) + z) % 2 ^ (8 * n) = (old + (x k + z)) % 2 ^ (8 * n) := fun z => by
      rw [Nat.mod_add_mod, Nat.add_assoc]
    constructor
    · rw [show r = _ from hr, List.map_cons, List.sum_cons, ← hacc]
      exact hsum
    · intro i l hl
      rw [show r = _ from hr]
      cases i with
      | zero =>
        cases hl
        simp [old, Nat.mod_eq_of_lt hlt]
      | succ i =>
        rw [List.take_succ_cons, List.map_cons, List.sum_cons, ← hacc]
        exact hanswers i l hl

/-- Settles O22: the three atomics are one operation with the step and the writes of each (`exec_of_atomicStep`); adds of
one word by induction on the lanes, each of which finds the sum of those before it. -/
theorem atomicsActLaneByLaneAndAccumulate : Obligations.AtomicsActLaneByLaneAndAccumulate :=
  ⟨atomicsActLaneByLane, atomicAddsOfOneWordAccumulate⟩

end Sys2Proof.Machine
end

section
/-! A hand-over makes its token PENDING, and an operation starts when those it waits for have ended (05 R125, R126; 11 R242,
R249; 13 R291). -/

namespace Sys2Proof.Machine

open Sys2Proof.Safety Sys2Proof.Claims

/-! What the end of an instruction keeps: the operations of the engines, and the tokens of its group. -/

theorem State.performStore_engines (s : State) (gk : Nat) (g : Group) (p : Path) (b : Block) (l : Launch) (w : GStore) :
    (s.performStore gk g p b l w).engines = s.engines := by
  have storage {t u : State} (h : StorageOnly t u) : u.engines = t.engines := by rw [h]
  have released : (match w.rel with
      | some sc => s.releaseCaches b.core sc
      | none => s).engines = s.engines := by
    split
    · exact storage (storage_releaseCaches ..)
    · rfl
  unfold State.performStore
  dsimp only
  split
  · exact (storage (storage_performAt ..)).trans released
  · exact released
  · rw [freeze_frame]
    exact released

theorem State.performStores_engines (s : State) (gk : Nat) (g : Group) (p : Path) (b : Block) (l : Launch) :
    (s.performStores gk g p b l).engines = s.engines := by
  unfold State.performStores
  exact foldl_unchanged State.engines (fun t w => State.performStore_engines t gk g p b l w) _ _

/-- The state `t` holds the engines' operations as `s` does, and of the group `gk` the tokens of `g`. -/
def KeepsTokens (s t : State) (gk : Nat) (g : Group) : Prop :=
  t.engines = s.engines ∧ ∃ h, AMap.find? t.groups gk = some h ∧ h.pend = g.pend ∧ h.done = g.done

section Finish

variable {s : State} {c : Ctx} {g : Group} {p : Path} {b : Block} {l : Launch}
  (hg : AMap.find? s.groups c.cur.grp = some g) (hp : g.paths[c.cur.path]? = some p)
  (hb : AMap.find? s.blocks g.block = some b) (hl : AMap.find? s.launches b.launch = some l)

include hg hp hb hl

theorem State.finish_keepsTokens_fleper (hn : c.cur.slot = none) : KeepsTokens s (s.finish c) c.cur.grp g := by
  obtain ⟨fleper, -, -⟩ := finishingMovesTheLanesOn s c g p b l hg hp hb hl
  obtain ⟨v, h, hv, hfin, -, hfind, hh, -⟩ := fleper hn
  refine ⟨?_, h, hfind, (congrArg Group.pend hh : _), (congrArg Group.done hh : _)⟩
  rw [hfin, hv]
  split
  · exact State.performStores_engines ..
  · rfl

theorem State.finish_keepsTokens : KeepsTokens s (s.finish c) c.cur.grp g := by
  obtain ⟨-, midBundle, sealed⟩ := finishingMovesTheLanesOn s c g p b l hg hp hb hl
  cases hx : c.cur.slot with
  | none => exact State.finish_keepsTokens_fleper hg hp hb hl hx
  | some x =>
    cases hs : c.p.sealed with
    | false =>
      rw [midBundle x hx hs]
      exact ⟨rfl, _, State.find_updCur hg _, rfl, rfl⟩
    | true =>
      rw [sealed x hx hs]
      have hland := State.landIf_landed s c.cur.grp c.cur.path fun _ => true
      obtain ⟨f, -, hfind⟩ := hland.path g hg
      obtain ⟨hengines, hgroup⟩ := State.finish_keepsTokens_fleper
        (c := { c with cur := { c.cur with slot := none } }) (p := f p) (b := b) (l := l) hfind
        (by simp [getElem?_updAt, hp]) (by rw [hland.frame]; exact hb) (by rw [hland.frame]; exact hl) rfl
      exact ⟨hengines.trans (by rw [hland.frame]), hgroup⟩

end Finish

/-! The hand-over. -/

theorem getLsbD_tokenBit {i : Nat} (tk : Nat) (hi : i < 16) : (1#16 <<< tk).getLsbD i = decide (i = tk) := by
  rw [← BitVec.twoPow_eq, BitVec.getLsbD_twoPow]
  by_cases h : i = tk
  · subst h
    simp [hi]
  · simp [h, Ne.symm h]

theorem getLsbD_clearToken {i : Nat} (m : BitVec 16) (tk : Nat) (hi : i < 16) :
    (m &&& ~~~(1#16 <<< tk)).getLsbD i = (m.getLsbD i && !decide (i = tk)) := by
  rw [BitVec.getLsbD_and, BitVec.getLsbD_not, getLsbD_tokenBit tk hi, decide_eq_true hi, Bool.true_and]

theorem getLsbD_setToken {i : Nat} (m : BitVec 16) (tk : Nat) (hi : i < 16) :
    (m ||| 1#16 <<< tk).getLsbD i = (m.getLsbD i || decide (i = tk)) := by
  rw [BitVec.getLsbD_or, getLsbD_tokenBit tk hi]

/-- The operations that a command of the issuing path waits for: those of its group whose tokens it consumes (05 R126). -/
def State.awaited (s : State) (c : Ctx) (w : Toks) : List Nat :=
  (s.engines.filter fun e => e.2.grp == c.cur.grp && !e.2.orphan && (tokList w).contains e.2.token).map fun e => e.1

theorem State.mem_awaited {s : State} (hr : AMap.rising s.engines = true) (c : Ctx) (w : Toks) (k : Nat) :
    k ∈ s.awaited c w ↔ ∃ y, AMap.find? s.engines k = some y ∧ y.grp = c.cur.grp ∧ y.orphan = false ∧
      y.token ∈ tokList w := by
  simp only [State.awaited, List.mem_map, List.mem_filter, Prod.exists, Bool.and_eq_true, beq_iff_eq, Bool.not_eq_true',
    List.contains_iff_mem, and_assoc]
  constructor
  · rintro ⟨k', y, hmem, hgrp, horphan, htoken, rfl⟩
    exact ⟨y, AMap.find?_of_mem hr hmem, hgrp, horphan, htoken⟩
  · rintro ⟨y, hfind, hgrp, horphan, htoken⟩
    exact ⟨k, y, AMap.mem_of_find? hfind, hgrp, horphan, htoken, rfl⟩

/-- The engines with one operation more, under a new key. -/
def State.withOrder (s : State) (c : Ctx) (tk : Nat) (w : Toks) (op : EngineOp) : State :=
  { s with engines := AMap.put s.engines s.next { op with token := tk, waits := s.awaited c w }, next := s.next + 1 }

/-- A group with a token PENDING (05 R125). -/
def Group.pending (tk : Nat) (g : Group) : Group :=
  { g with pend := g.pend ||| 1#16 <<< tk, done := g.done &&& ~~~(1#16 <<< tk) }

theorem State.handOver_nil (s : State) (c : Ctx) (tk : Nat) (w : Toks) (op : EngineOp) :
    s.handOver c tk w [] op = ((s.withOrder c tk w op).updGroup c.cur.grp (Group.pending tk)).finish c := rfl

theorem aHandOverMakesItsTokenPending : AHandOverMakesItsTokenPending := by
  intro s gd c tk w op hc htk hr t
  obtain ⟨-, hg, hp, hb, hl, -, -⟩ := State.ctx_eq hc
  have hgroup : AMap.find? ((s.withOrder c tk w op).updGroup c.cur.grp (Group.pending tk)).groups c.cur.grp =
      some (c.g.pending tk) := (AMap.find?_upd_same ..).trans (congrArg (Option.map _) hg)
  obtain ⟨hengines, h, hfind, hpend, hdone⟩ := State.finish_keepsTokens (c := c) (p := c.p) hgroup hp hb hl
  have hengines : t.engines = AMap.put s.engines s.next { op with token := tk, waits := s.awaited c w } := hengines
  refine ⟨s.awaited c w, ?_, State.mem_awaited hr c w, fun k hk => ?_, fun h' hfind' => ?_⟩
  · rw [hengines, AMap.find?_put_same]
  · rw [hengines, AMap.find?_put_other _ _ hk]
  · cases Option.some.inj (hfind.symm.trans hfind')
    have hp (i : Nat) (hi : i < 16) : h.pend.getLsbD i = (c.g.pend.getLsbD i || decide (i = tk)) := by
      rw [hpend, Group.pending, getLsbD_setToken _ _ hi]
    have hd (i : Nat) (hi : i < 16) : h.done.getLsbD i = (c.g.done.getLsbD i && !decide (i = tk)) := by
      rw [hdone, Group.pending, getLsbD_clearToken _ _ hi]
    refine ⟨?_, ?_, fun i hi hne => ⟨?_, ?_⟩⟩
    · simp [hp tk htk]
    · simp [hd tk htk]
    · simp [hp i hi, hne]
    · simp [hd i hi, hne]

/-! The start. -/

section Start

variable {s : State} {key : Nat} {op : EngineOp} {l : Launch} (hop : AMap.find? s.engines key = some op)
  (hl : AMap.find? s.launches op.launch = some l)

include hop hl

/-- An operation that has started, waits on a page, or waits for one that stands, is left alone. -/
theorem State.startEngine_of_unready
    (h : op.started = true ∨ op.stall ≠ none ∨ ∃ k ∈ op.waits, AMap.find? s.engines k ≠ none) : s.startEngine key = s := by
  unfold State.startEngine
  rw [hop]
  dsimp only
  rw [hl]
  refine if_pos ?_
  simp only [Bool.or_eq_true, Option.isSome_iff_ne_none, Bool.not_eq_true', State.waitsDone, List.all_eq_false,
    Bool.not_eq_true, Option.isNone_eq_false_iff]
  tauto

/-- One that is ready starts with what its kind has to perform. -/
theorem State.startEngine_of_ready (hs : op.started = false) (hstall : op.stall = none)
    (hw : ∀ k ∈ op.waits, AMap.find? s.engines k = none) :
    let v := s.setEngine key { op with started := true, todo := startsWith s op }
    (op.kind ∈ [.copy, .tload, .tstore, .reduce, .rowop] → s.startEngine key = v) ∧
    (op.kind = .trig → s.startEngine key = { v with
      sent := s.sent ++ [.treadle (treadleOf op.params)]
      agenda := s.agenda ++ [.treadleMessageReceive (treadleOf op.params)] }) ∧
    (op.kind ∈ [.flush, .inval] → ∀ x ls t, s.context l.vi l.ctx = some x →
      s.rangeLines op.core x.satp (s.iface l.vi).hgatp (pagesOf (field op.params 0 8) (field op.params 8 8)) = .ok (ls, t) →
      s.startEngine key =
        (t.maintain op.core (maintenanceDies op.core op.scope) l (op.kind == .inval) ls).setEngine key
          { op with started := true }) := by
  have hgo : ¬ (op.started || op.stall.isSome || !s.waitsDone op) = true := by
    simpa [hs, hstall, State.waitsDone] using hw
  unfold State.startEngine
  rw [hop]
  dsimp only
  rw [hl]
  dsimp only
  rw [if_neg hgo]
  refine ⟨fun hk => ?_, fun hk => ?_, fun hk x ls t hx hls => ?_⟩
  · unfold startsWith
    cases h : op.kind with
    | flush | inval | trig => simp [h] at hk
    | _ => rfl
  · unfold startsWith
    rw [hk]
  · rw [hx]
    dsimp only
    rw [hls]
    cases h : op.kind with
    | flush | inval => rfl
    | _ => simp [h] at hk

end Start

theorem anEngineOperationStartsAfterItsTokens : AnEngineOperationStartsAfterItsTokens := by
  intro s key op l hop hl
  refine ⟨fun h => congrArg _ (State.startEngine_of_unready hop hl h), fun hs hstall hw => ?_⟩
  obtain ⟨parts, trig, care⟩ := State.startEngine_of_ready hop hl hs hstall hw
  exact ⟨fun hk => congrArg _ (parts hk), fun hk => congrArg _ (trig hk), fun hk x ls t hx hls =>
    congrArg _ (care hk x ls t hx hls)⟩

/-- Settles O31: the end of the instruction keeps what the hand-over made (`State.finish_keepsTokens`); a start is judged by
what the operation waits for and acts by its kind. -/
theorem tokensOrderEngineOperations : Obligations.TokensOrderEngineOperations :=
  ⟨aHandOverMakesItsTokenPending, anEngineOperationStartsAfterItsTokens⟩

end Sys2Proof.Machine
end

section
/-! The arrival of an engine's bytes, and the end of its operation (05 R125; 07 R176; 11 R244). -/

namespace Sys2Proof.Machine

open Sys2Proof.Safety Sys2Proof.Claims

/-! The arrival. -/

/-- Bytes that overrun the slot do not arrive (07 R176). (The definition is replaced as a function: applied to a state, the
kernel would evaluate the slot's address.) -/
theorem State.arriveBytes_of_overrun {s : State} {b : Block} {l : Launch} {n t bytes : Nat}
    (h : (s.slotAt b l n t).bytes < bytes) (bk : Nat) : s.arriveBytes bk b l n t bytes = none := by
  have harrive : s.arrive bk b l n t 0 bytes = none := if_pos (.inr h)
  have body : @State.arriveBytes = delta% @State.arriveBytes := rfl
  rw [body]
  beta_reduce
  rw [harrive]

section Operation

variable {s : State} {key : Nat} {op : EngineOp} {b : Block} {l : Launch} (h : ActingOp s key op b l)

include h

/-- Landed bytes that are not counted are judged by the slot. -/
theorem State.landBytes_of_link {n t : Nat} (hlink : op.link = some (n, t)) (hcount : op.counted < op.landed) :
    s.landBytes key = ((s.arriveBytes op.block b l n t (op.landed - op.counted)).map fun u =>
      u.setEngine key { op with counted := op.landed }).getD (s.engineFault key op (slotFault n t)) := by
  obtain ⟨hop, -, -, hb, hl⟩ := h
  unfold State.landBytes
  rw [hop]
  dsimp only
  rw [hlink, hb, hl]
  dsimp only
  rw [if_neg (Nat.not_le.2 hcount)]
  cases s.arriveBytes op.block b l n t (op.landed - op.counted) <;> rfl

/-! The end. -/

theorem State.completeEngine_of_parts (htodo : op.todo ≠ []) : s.completeEngine key = s := by
  rw [State.completeEngine, State.acting_of h]
  refine if_pos ?_
  simp [State.engineDone, htodo]

/-- An operation that has nothing left to do is done (05 R125; 11 R244). -/
theorem State.engineDone_of_finished (htodo : op.todo = []) (hcount : op.link = none ∨ op.counted = op.landed)
    (hremote : ∀ e ∈ s.remote, e.2.op ≠ some key) : s.engineDone key op = true := by
  obtain ⟨-, hstarted, hstall, -, -⟩ := h
  simp only [State.engineDone, hstarted, hstall, htodo, Bool.and_eq_true, Bool.or_eq_true, Option.isNone_iff_eq_none,
    beq_iff_eq, List.all_eq_true, bne_iff_ne, List.isEmpty_nil, and_true, true_and]
  exact ⟨hcount, hremote⟩

theorem State.completeEngine_of_finished (hdone : s.engineDone key op = true)
    (hk : op.kind ∈ [.copy, .tload, .flush, .inval, .trig]) : s.completeEngine key = s.endEngine key op := by
  rw [State.completeEngine, State.acting_of h, if_neg (by simp [hdone])]
  cases hkind : op.kind with
  | copy | tload | flush | inval | trig => rfl
  | tstore | reduce | rowop => simp [hkind] at hk

end Operation

/-- A path that waits for tokens looks at them again; one that waited for a stalled transfer has met a blocking point. -/
def Path.pastToken (p : Path) : Path :=
  match p.wait with
  | .token _ => { p with wait := .none, met := false }
  | .stalled _ => { p with wait := .none, met := true }
  | _ => p

/-- A group of which an operation has ended: its token is DONE (05 R125). -/
def Group.tokenDone (tk : Nat) (g : Group) : Group :=
  { g with
    pend := g.pend &&& ~~~(1#16 <<< tk), done := g.done ||| 1#16 <<< tk
    paths := g.paths.map Path.pastToken }

theorem State.endEngine_of_owned (s : State) (key : Nat) {op : EngineOp} (ho : op.orphan = false) :
    s.endEngine key op = { s with engines := AMap.del s.engines key }.updGroup op.grp (Group.tokenDone op.token) := by
  unfold State.endEngine
  dsimp only
  rw [if_neg (by simp [ho])]
  unfold State.setDone State.updGroup
  dsimp only
  rw [AMap.upd_upd]
  refine congrArg (fun f => { s with engines := AMap.del s.engines key, groups := AMap.upd s.groups op.grp f }) ?_
  funext g
  refine congrArg (fun ps => { g with
    pend := g.pend &&& ~~~(1#16 <<< op.token), done := g.done ||| 1#16 <<< op.token, paths := ps }) ?_
  refine List.map_congr_left fun p _ => ?_
  unfold Path.pastToken Path.retry
  cases h : p.wait <;> rfl

/-- Settles O34: the slot judges what has landed and is not counted (`State.landBytes_of_link`); an operation with nothing left
to do ends, and of the groups only its own changes (`State.endEngine_of_owned`). -/
theorem anEngineOperationEndsWithItsToken : Obligations.AnEngineOperationEndsWithItsToken := by
  intro s key op b l h
  refine ⟨fun n t u hlink hcount harrive => ?_, fun n t hlink hcount hover => ?_,
    fun htodo => congrArg _ (State.completeEngine_of_parts h htodo), fun htodo hcount hremote hk ho g hg => ?_⟩
  · refine congrArg _ ((State.landBytes_of_link h hlink hcount).trans ?_)
    rw [harrive]
    rfl
  · refine congrArg _ ((State.landBytes_of_link h hlink hcount).trans ?_)
    rw [State.arriveBytes_of_overrun hover]
    rfl
  · have hend := State.completeEngine_of_finished h (State.engineDone_of_finished h htodo hcount hremote) hk
    rw [State.endEngine_of_owned s key ho] at hend
    refine ⟨_, (congrArg Host.Outcome.next hend : exec (.tokenDone key) s = _), rfl,
      fun k hk => AMap.find?_upd_other _ _ hk, ?_⟩
    rw [State.updGroup_groups, AMap.find?_upd_same, hg]
    rfl

end Sys2Proof.Machine
end

section
/-! The end of an attempt that aborts (06 R144, R152, R153). -/

namespace Sys2Proof.Machine

open Sys2Proof.Safety Sys2Proof.Claims

theorem State.runsOn_iff (s : State) (lk : Nat) (l : Launch) : s.runsOn lk l = true ↔
    (∃ e ∈ s.engines, e.2.launch = lk) ∨ ∃ e ∈ s.remote, e.2.window = false ∧ e.2.block / 2 ^ 36 = l.attempt := by
  simp only [State.runsOn, Bool.or_eq_true, List.any_eq_true, Bool.and_eq_true, beq_iff_eq, Bool.not_eq_true']

/-- The limit is the record's where bit 7 of its byte 26 is set, its interface's otherwise (06 Table 6.8, Table 6.10). -/
theorem State.replayLimit_eq (s : State) (l : Launch) : s.replayLimit l =
    if (field l.record 26 1).testBit 7 then field l.record 26 1 % 8
    else bitsOf (s.iface l.vi).ldrReplay.toNat 0 3 := by
  rw [State.replayLimit, bitsOf, Nat.testBit_eq_decide_div_mod_eq]
  simp

/-- Which aborted launches are replayed (06 R152, Table 6.11). -/
theorem State.replays_iff (s : State) (l : Launch) : s.replays l = true ↔
    l.irrevocable = false ∧ l.killed = false ∧ (l.cause = 6 ∨ (l.cause ∈ [1, 2, 3] ∧
      (s.iface l.vi).ldrReplay.getLsbD (3 + l.cause) = true ∧ l.replays < s.replayLimit l)) := by
  rw [State.replays, bitsOf_one_eq_getLsbD]
  cases l.irrevocable <;> cases l.killed <;> simp [and_assoc, or_assoc]

section Abort

variable {s : State} {lk : Nat} {l : Launch} (hl : AMap.find? s.launches lk = some l) (hst : l.st = .aborting)

include hl

theorem exec_launchAbort_of_running (h : s.runsOn lk l = true) : exec (.launchAbort lk) s = .next s := by
  change execLaunchAbort lk s = _
  rw [execLaunchAbort, hl]
  exact if_pos (.inr h)

include hst

/-- What the attempt had is dropped; a launch that is replayed takes the next LSN of its context (06 R152). -/
theorem exec_launchAbort_of_replays (h : s.runsOn lk l = false) (hr : s.replays l = true) {x : Context}
    (hx : ((s.discardBlocks lk l).dropVersion l.attempt).context l.vi l.ctx = some x) :
    exec (.launchAbort lk) s = .next
      (let u := ((s.discardBlocks lk l).dropVersion l.attempt).updContext l.vi l.ctx
        fun x => { x with nextLsn := x.nextLsn + 1 }
      { u.updLaunch lk fun l => l.again x.nextLsn u.next with next := u.next + 1 }) := by
  change execLaunchAbort lk s = _
  rw [execLaunchAbort, hl]
  dsimp only
  rw [if_neg (by simp [hst, h]), if_pos hr, hx]

theorem exec_launchAbort_of_ends (h : s.runsOn lk l = false) (hr : s.replays l = false) :
    exec (.launchAbort lk) s =
      let t := (s.discardBlocks lk l).dropVersion l.attempt
      if l.cause = 5 then .next (t.removeLaunch lk l)
      else .next ((t.writeCompletion l (if l.killed then 5 else 4)).removeLaunch lk l) := by
  change execLaunchAbort lk s = _
  rw [execLaunchAbort, hl]
  dsimp only
  rw [if_neg (by simp [hst, h]), if_neg (by simp [hr])]

end Abort

theorem cellLine_lt {ln : Nat} (h : ln < 2 ^ 35) : cellLine ln < 2 ^ 34 := by
  unfold cellLine cellOf bitsOf
  split <;> omega

theorem shadowKey_div (tag : Nat) {ln : Nat} (h : ln < 2 ^ 35) : shadowKey tag ln / 2 ^ 35 = tag := by
  have := cellLine_lt h
  unfold shadowKey
  omega

/-- A version that is dropped has no entry and no shadow line, and memory is as it was (06 R152). -/
theorem State.dropVersion_gone (s : State) (a k : Nat) : (∀ v ∈ (s.dropVersion a).versions, v.1 ≠ a) ∧
    AMap.find? (s.dropVersion a).shadow (shadowKey a (k % 2 ^ 35)) = none ∧ (s.dropVersion a).mem = s.mem := by
  refine ⟨fun v hv => ?_, ?_, rfl⟩
  · simpa using (List.mem_filter.1 hv).2
  · refine (AMap.find?_keep s.shadow (fun n => !(n / 2 ^ 35 == a)) _).trans (if_neg ?_)
    rw [shadowKey_div a (Nat.mod_lt k (by decide))]
    simp

/-- Settles O46: by what the abort waits for (`State.runsOn_iff`) and which launches are replayed (`State.replays_iff`). -/
theorem anAbortLeavesMemoryAndReplaysOrEnds : Obligations.AnAbortLeavesMemoryAndReplaysOrEnds := by
  intro s lk l hl hst
  have hruns := s.runsOn_iff lk l
  have hagain := s.replays_iff l
  rw [State.replayLimit_eq] at hagain
  refine ⟨fun hu => exec_launchAbort_of_running hl (hruns.2 hu), fun hu => ?_, fun k => s.dropVersion_gone l.attempt k⟩
  have hr : s.runsOn lk l = false := Bool.eq_false_iff.2 (mt hruns.1 hu)
  refine ⟨fun x ha hx => exec_launchAbort_of_replays hl hst hr (hagain.2 ha) hx, fun ha hc => ?_, fun ha hc => ?_⟩
  · exact (exec_launchAbort_of_ends hl hst hr (Bool.eq_false_iff.2 (mt hagain.1 ha))).trans (if_neg hc)
  · exact (exec_launchAbort_of_ends hl hst hr (Bool.eq_false_iff.2 (mt hagain.1 ha))).trans (if_pos hc)

end Sys2Proof.Machine
end

section
/-! The commit of a launch (06 R147, R148, R150, R156). -/

namespace Sys2Proof.Machine

open Sys2Proof.Safety Sys2Proof.Claims

/-! When a launch may commit. -/

theorem State.predecessorsEnded_iff (s : State) (l : Launch) : s.predecessorsEnded l = true ↔
    ∀ e ∈ s.launches, e.2.lq = l.lq → l.seq ≤ e.2.seq := by
  simp only [State.predecessorsEnded, List.all_eq_true, Bool.not_eq_true', Bool.and_eq_false_imp, beq_iff_eq,
    decide_eq_false_iff_not, Nat.not_lt]

theorem State.freeToCommit_iff (s : State) (l : Launch) (lk : Nat) : s.freeToCommit l lk = true ↔
    (l.st = .completed ∨ (l.st = .irrevocable ∧ s.allRetired l = true)) ∧
      (∀ e ∈ s.launches, e.2.lq = l.lq → l.seq ≤ e.2.seq) ∧ ∀ e ∈ s.engines, e.2.launch ≠ lk := by
  simp only [State.freeToCommit, Bool.and_eq_true, Bool.or_eq_true, beq_iff_eq, s.predecessorsEnded_iff, List.all_eq_true,
    bne_iff_ne, and_assoc]

theorem State.inTurn_iff (s : State) (lk : Nat) (l : Launch) : s.inTurn lk l = true ↔
    ∀ e ∈ s.launches, e.1 ≠ lk → e.2.st = .completed → ∀ k, e.2.freeAt = some k → l.freeAt.getD s.next ≤ k := by
  simp only [State.inTurn, List.all_eq_true, Bool.or_eq_true, beq_iff_eq, bne_iff_ne, or_assoc, Option.all_eq_true,
    decide_eq_true_eq, ← imp_iff_not_or]
  exact forall₂_congr fun e _ => or_iff_not_imp_left

theorem mayCommit_iff (s : State) (lk : Nat) (l : Launch) : MayCommit s lk l ↔
    s.freeToCommit l lk = true ∧ (l.irrevocable || s.inTurn lk l) = true := by
  rw [MayCommit, s.freeToCommit_iff, Bool.or_eq_true, s.inTurn_iff, and_assoc, and_assoc]

section Commit

variable {s : State} {lk : Nat} {l : Launch} (hl : AMap.find? s.launches lk = some l)

include hl

theorem State.endCommitted_of_committing (hst : l.st = .committing) : s.endCommitted lk =
    if l.deferred = [] then (s.writeCompletion l 1).removeLaunch lk l else s := by
  rw [State.endCommitted, hl]
  simp only [hst, true_and, List.isEmpty_iff]

theorem exec_launchCommit_of_committing (hst : l.st = .committing) :
    exec (.launchCommit lk) s = .next (s.endCommitted lk) := by
  change execLaunchCommit lk s = _
  rw [execLaunchCommit, hl]
  exact if_pos hst

theorem exec_launchCommit_of_not (hst : l.st ≠ .committing) (h : ¬ MayCommit s lk l) :
    exec (.launchCommit lk) s = .next s := by
  change execLaunchCommit lk s = _
  rw [execLaunchCommit, hl]
  dsimp only
  rw [if_neg hst, if_pos]
  rw [mayCommit_iff] at h
  simpa [imp_iff_not_or] using h

theorem exec_launchCommit_of_mayCommit (hst : l.st ≠ .committing) (h : MayCommit s lk l) :
    exec (.launchCommit lk) s =
      let v := if l.irrevocable then s else s.commitVersion l.attempt
      let t := (v.discardBlocks lk l).freeVersion l.attempt
      .next ((State.updLaunch { t with next := t.next + 1 } lk fun l => { l with
        st := .committing, stages := [], commitAt := some (l.commitAt.getD t.next) }).endCommitted lk) := by
  change execLaunchCommit lk s = _
  rw [execLaunchCommit, hl]
  dsimp only
  rw [if_neg hst, if_neg]
  rw [mayCommit_iff] at h
  simp [h.1, h.2]

end Commit

/-! Launches that become free to commit are stamped. -/

theorem AMap.find?_map {α β : Type} (f : Nat × α → β) (m : AMap α) (k : Nat) :
    AMap.find? (m.map fun e => (e.1, f e)) k = (AMap.find? m k).map fun v => f (k, v) := by
  induction m with
  | nil => rfl
  | cons e m ih =>
    simp only [List.map_cons, AMap.find?]
    split
    · next h => simp [← h]
    · exact ih

/-- A launch that has become free to commit in this step. -/
def State.newlyFree (s : State) (e : Nat × Launch) : Bool :=
  e.2.st == .completed && e.2.freeAt.isNone && s.freeToCommit e.2 e.1

theorem State.newlyFree_iff (s : State) (lk : Nat) (l : Launch) : s.newlyFree (lk, l) = true ↔
    l.st = .completed ∧ l.freeAt = none ∧ s.freeToCommit l lk = true := by
  simp only [State.newlyFree, Bool.and_eq_true, beq_iff_eq, Option.isNone_iff_eq_none, and_assoc]

theorem State.find?_noteFree {s : State} {lk : Nat} {l : Launch} (hl : AMap.find? s.launches lk = some l) :
    AMap.find? s.noteFree.launches lk = some
      { l with freeAt := if s.newlyFree (lk, l) then some s.next else l.freeAt } := by
  by_cases h : s.launches.any s.newlyFree = true
  · have hnote : s.noteFree.launches = s.launches.map fun e =>
        (e.1, if s.newlyFree e then { e.2 with freeAt := some s.next } else e.2) := congrArg State.launches (if_pos h)
    rw [hnote, AMap.find?_map, hl, Option.map_some]
    split <;> rfl
  · have hnote : s.noteFree = s := if_neg h
    rw [hnote, hl, if_neg fun hn => h (List.any_eq_true.2 ⟨_, AMap.mem_of_find? hl, hn⟩)]

/-! The version becomes memory. -/

/-- Committed memory at an address is what its cell holds. -/
theorem State.memByte_of_cellOf_eq (s : State) {x y : Nat} (h : cellOf x = cellOf y) : s.memByte x = s.memByte y := by
  rw [State.memByte, State.memByte, isControlRow, isControlRow, rowOf, rowOf, h]

theorem State.setMemBytes_span (a : Nat) (f : Nat → Byte) (lo n : Nat) (s : State) :
    s.setMemBytes (a + lo) ((span lo n).map f) = (span lo n).foldl (fun t i => t.setMemByte (a + i) (f i)) s := by
  induction n generalizing lo s with
  | zero => rfl
  | succ n ih => exact ih (lo + 1) _

/-- A whole line of memory is written as its bytes are. -/
theorem State.setMemBytes_line (s : State) (ln : Nat) (d : Line) :
    s.setMemBytes (ln * 64) ((span 0 64).map (lineByte d)) = s.setLineBytes ln d (BitVec.allOnes 64) (span 0 64) := by
  refine (State.setMemBytes_span (ln * 64) (lineByte d) 0 64 s).trans ?_
  refine List.foldl_ext _ _ s fun t i hi => (if_pos ?_).symm
  rw [BitVec.getLsbD_allOnes, decide_eq_true (span_lt hi)]

/-- One shadow line becomes committed memory, its poison with it. -/
def State.commitLine (t : State) (e : Nat × Line) : State :=
  { t.setMemBytes (e.1 % 2 ^ 35 * 64) ((span 0 64).map (lineByte e.2)) with
    poison := Cells.set (Cells.set t.poison (e.1 % 2 ^ 35) (Cells.get t.poison e.1)) e.1 0 }

theorem State.memByte_commitLine (t : State) (e : Nat × Line) (x : Nat) :
    (t.commitLine e).memByte x = (t.setLineBytes (e.1 % 2 ^ 35) e.2 (BitVec.allOnes 64) (span 0 64)).memByte x := by
  rw [← State.setMemBytes_line]
  exact memByte_congr rfl x

/-- A line of cells is its own (11 R259). -/
theorem cellLine_of_lt {ln : Nat} (h : ln < 2 ^ 34) : cellLine ln = ln := by
  unfold cellLine cellOf bitsOf
  split <;> omega

section Line

variable {pa : Nat} {e : Nat × Line} (hcell : e.1 % 2 ^ 35 < 2 ^ 34) (t : State)

include hcell

/-- A byte of the line that its shadow line stands for. -/
theorem State.memByte_commitLine_same (hrow : isControlRow pa = false)
    (hkey : e.1 % 2 ^ 35 = cellLine (pa / 64)) : (t.commitLine e).memByte pa = lineByte e.2 (pa % 64) := by
  have hi : pa % 64 < 64 := Nat.mod_lt _ (by decide)
  have hcellOf : cellOf pa = cellOf (e.1 % 2 ^ 35 * 64 + pa % 64) := by
    rw [cellOf_in_line _ hi, cellLine_of_lt hcell, hkey, ← cellOf_in_line _ hi, Nat.div_add_mod']
  have hline : isControlRow (e.1 % 2 ^ 35 * 64) = false := by
    rw [← isControlRow_in_line _ hi, isControlRow, rowOf, ← hcellOf]
    exact hrow
  rw [State.memByte_of_cellOf_eq _ hcellOf, State.memByte_commitLine,
    State.memByte_setLineBytes_same _ _ _ _ hi _ fun _ => span_lt, if_pos]
  exact ⟨(mem_span 0 64 _).2 (by omega), by rw [BitVec.getLsbD_allOnes, decide_eq_true hi], hline⟩

theorem State.memByte_commitLine_other (hkey : e.1 % 2 ^ 35 ≠ cellLine (pa / 64)) :
    (t.commitLine e).memByte pa = t.memByte pa := by
  have hne : cellLine (pa / 64) ≠ cellLine (e.1 % 2 ^ 35) := by rw [cellLine_of_lt hcell]; exact hkey.symm
  have h := State.memByte_setLineBytes_other t (e.1 % 2 ^ 35) e.2 (BitVec.allOnes 64) (i := pa % 64)
    (Nat.mod_lt _ (by decide)) hne (span 0 64) fun _ => span_lt
  rwa [Nat.div_add_mod', ← State.memByte_commitLine] at h

end Line

/-- The shadow lines of an attempt, each once, become memory: a byte of one of them is its own, any other as before. -/
theorem State.memByte_commitLines {a pa : Nat} (hpa : pa < 2 ^ 41) (hrow : isControlRow pa = false) (es : AMap Line)
    (hn : (es.map Prod.fst).Nodup) (hes : ∀ e ∈ es, e.1 % 2 ^ 35 < 2 ^ 34 ∧ e.1 / 2 ^ 35 = a) (t : State) :
    (es.foldl State.commitLine t).memByte pa =
      match AMap.find? es (shadowKey a (pa / 64)) with
      | some d => lineByte d (pa % 64)
      | none => t.memByte pa := by
  have hline := cellLine_lt (ln := pa / 64) (by omega)
  induction es generalizing t with
  | nil => rfl
  | cons e es ih =>
    obtain ⟨hnot, hn⟩ := List.nodup_cons.1 hn
    obtain ⟨hcell, ha⟩ := hes e List.mem_cons_self
    rw [List.foldl_cons, ih hn fun x hx => hes x (List.mem_cons_of_mem _ hx)]
    by_cases hkey : e.1 = shadowKey a (pa / 64)
    · have hrest : AMap.find? es (shadowKey a (pa / 64)) = none := by
        rw [Option.eq_none_iff_forall_not_mem]
        exact fun d hd => hnot (hkey ▸ mem_keys_of_find? hd)
      have hmod : e.1 % 2 ^ 35 = cellLine (pa / 64) := by rw [hkey, shadowKey]; omega
      simp only [hrest, AMap.find?, if_pos hkey, State.memByte_commitLine_same hcell t hrow hmod]
    · have hmod : e.1 % 2 ^ 35 ≠ cellLine (pa / 64) := fun h => hkey (by rw [shadowKey]; omega)
      simp only [AMap.find?, if_neg hkey, State.memByte_commitLine_other hcell t hmod]

/-- Every core data cache and every die cache written back, as a commit does first (06 R148). -/
def State.writtenBack (s : State) : State :=
  (span 0 8).foldl (fun (t : State) d => t.flushDie d)
    ((span 0 1536).foldl (fun (t : State) c => if t.coreCache.any fun e => keyUnit e.1 == c then t.flushCore c else t) s)

/-- What the caches hold of an attempt goes. -/
def State.uncached (s : State) (a : Nat) : State :=
  { s with coreCache := AMap.keep (fun k _ => keyTag k != a) s.coreCache
           dieCache := AMap.keep (fun k _ => keyTag k != a) s.dieCache }

theorem State.memByte_uncached (s : State) (a x : Nat) : (s.uncached a).memByte x = s.memByte x := memByte_congr rfl x

theorem State.commitVersion_eq (s : State) (a : Nat) : s.commitVersion a =
    ((s.writtenBack.shadowLines a).foldl State.commitLine s.writtenBack).uncached a := by
  unfold State.commitVersion
  rfl

theorem State.writtenBack_of_empty {s : State} (hc : s.coreCache = []) (hd : s.dieCache = []) : s.writtenBack = s := by
  have hcores : (span 0 1536).foldl (fun (t : State) c =>
      if t.coreCache.any fun e => keyUnit e.1 == c then t.flushCore c else t) s = s :=
    List.foldl_fixed' (fun c => if_neg (by simp [hc])) _
  rw [State.writtenBack, hcores]
  exact List.foldl_fixed' (fun d => by simp [State.flushDie, hd]) _

/-- Each byte of a shadow line of the attempt is memory once its version is committed, and every other byte as before. -/
theorem State.memBytes_commitVersion {s : State} {a pa : Nat} (hc : s.coreCache = []) (hd : s.dieCache = [])
    (hr : AMap.rising s.shadow = true) (hs : ∀ e ∈ s.shadow, e.1 % 2 ^ 35 < 2 ^ 34) (hpa : pa < 2 ^ 41)
    (hrow : isControlRow pa = false) : (s.commitVersion a).memBytes pa 1 =
      match AMap.find? s.shadow (shadowKey a (pa / 64)) with
      | some line => [lineByte line (pa % 64)]
      | none => s.memBytes pa 1 := by
  have hfind : AMap.find? (s.shadowLines a) (shadowKey a (pa / 64)) = AMap.find? s.shadow (shadowKey a (pa / 64)) := by
    refine (AMap.find?_filter s.shadow (fun k => k / 2 ^ 35 == a) _).trans (if_pos ?_)
    rw [shadowKey_div a (by omega)]
    exact beq_self_eq_true a
  have hn : ((s.shadowLines a).map Prod.fst).Nodup := risingFrom_keys_nodup (risingFrom_filter _ hr)
  have hes : ∀ e ∈ s.shadowLines a, e.1 % 2 ^ 35 < 2 ^ 34 ∧ e.1 / 2 ^ 35 = a := fun e he =>
    ⟨hs e (List.mem_filter.1 he).1, eq_of_beq (List.mem_filter.1 he).2⟩
  have h := State.memByte_commitLines hpa hrow (s.shadowLines a) hn hes s
  have hcommit := s.commitVersion_eq a
  rw [State.writtenBack_of_empty hc hd] at hcommit
  rw [hfind, ← State.memByte_uncached _ a, ← hcommit] at h
  rw [State.memBytes, State.memBytes, span, span, List.map_singleton, List.map_singleton, h]
  cases AMap.find? s.shadow (shadowKey a (pa / 64)) <;> rfl

/-- Settles O44: when a launch may commit (`mayCommit_iff`), what the commit leaves of it, and memory afterwards
(`State.memBytes_commitVersion`). -/
theorem aCommitMakesItsVersionMemory : Obligations.ACommitMakesItsVersionMemory := by
  refine ⟨fun s lk l hl hst => ⟨exec_launchCommit_of_not hl hst, exec_launchCommit_of_mayCommit hl hst⟩,
    fun s lk l hl hst => ?_, fun s lk l hr hl => ?_, fun s a pa hc hd hr hs hpa hrow => ?_⟩
  · rw [exec_launchCommit_of_committing hl hst, State.endCommitted_of_committing hl hst]
  · refine ⟨_, State.find?_noteFree hl, ?_⟩
    simp only [s.newlyFree_iff]
  · exact State.memBytes_commitVersion hc hd hr hs hpa hrow

end Sys2Proof.Machine
end

section
/-! What follows a commit: deferred enqueues, the write-back of shadow lines, irrevocable mode (06 R148, R150, R151, R154;
18 R386). -/

namespace Sys2Proof.Machine

open Sys2Proof.Safety Sys2Proof.Claims

/-! Deferred enqueues. -/

/-- A launch whose version was committed earlier owes an enqueue that must come first: any while it does not wait for room,
and one on the queue itself (06 R154). -/
theorem State.owedBefore_iff (s : State) (lk : Nat) (l : Launch) (pa : Nat) : s.owedBefore lk l pa = true ↔
    ∃ e ∈ s.launches, e.1 ≠ lk ∧ e.2.owesEnqueues = true ∧ e.2.commitAt.getD 0 < l.commitAt.getD 0 ∧
      (s.appendWaits e.1 = false ∨ ∃ x ∈ e.2.deferred, ∃ v, s.cbAddr (s.launchSpace e.2) x.cb = .ok (pa, v)) := by
  unfold State.owedBefore
  simp only [List.any_eq_true, Bool.and_eq_true, Bool.or_eq_true, bne_iff_ne, decide_eq_true_eq, Bool.not_eq_true', and_assoc]
  refine exists_congr fun e => and_congr_right fun _ => and_congr_right fun _ => and_congr_right fun _ =>
    and_congr_right fun _ => or_congr_right (exists_congr fun x => and_congr_right fun _ => ?_)
  cases s.cbAddr (s.launchSpace e.2) x.cb with
  | error f => simp
  | ok r => simp [Prod.ext_iff]

section Append

variable {s : State} {lk : Nat} {l : Launch} {d : Deferred} {ds : List Deferred}
  (hl : AMap.find? s.launches lk = some l) (hd : l.deferred = d :: ds)

/-- The launch after its oldest deferred enqueue, which was performed or dropped. -/
def State.appended (s : State) (lk : Nat) (ds : List Deferred) : State :=
  (s.updLaunch lk fun l => { l with deferred := ds }).afterAppend lk

include hl hd

theorem exec_deferredEnqueueAppend_of_idle (h : l.owesEnqueues = false ∨ s.appendWaits lk = true) :
    exec (.deferredEnqueueAppend lk) s = .next s := by
  change execDeferredEnqueueAppend lk s = _
  rw [execDeferredEnqueueAppend, hl]
  dsimp only
  rw [hd]
  exact if_pos (by simpa using h)

variable (ho : l.owesEnqueues = true) (hw : s.appendWaits lk = false)

include ho hw

theorem exec_deferredEnqueueAppend_of_error {f : Flt} (hcb : s.cbAddr (s.launchSpace l) d.cb = .error f) :
    exec (.deferredEnqueueAppend lk) s = .next (s.configEvent.appended lk ds) := by
  change execDeferredEnqueueAppend lk s = _
  rw [execDeferredEnqueueAppend, hl]
  dsimp only
  rw [hd]
  dsimp only
  rw [if_neg (by simp [ho, hw]), hcb]
  rfl

/-- What the home's answer makes of the launch and of its enqueue (18 R386). -/
def State.appendAnswer (lk pa : Nat) (d : Deferred) (ds : List Deferred) : HomeAns → State
  | .fault _ u | .lost u => u.configEvent.appended lk ds
  | .done _ u => u.appended lk ds
  | .turned u => u.addRequest pa d.cb (.append lk) true d.elems.length d.elems

theorem exec_deferredEnqueueAppend_of_ok {pa : Nat} {t : State} (hcb : s.cbAddr (s.launchSpace l) d.cb = .ok (pa, t)) :
    exec (.deferredEnqueueAppend lk) s = .next (if s.owedBefore lk l pa then s else State.appendAnswer lk pa d ds
      (t.homeTry pa (s.launchSpace l) (.agent l.vi) true d.elems.length d.esize false d.elems)) := by
  change execDeferredEnqueueAppend lk s = _
  rw [execDeferredEnqueueAppend, hl]
  dsimp only
  rw [hd]
  dsimp only
  rw [if_neg (by simp [ho, hw]), hcb]
  dsimp only
  split
  · rfl
  · cases t.homeTry pa (s.launchSpace l) (.agent l.vi) true d.elems.length d.esize false d.elems <;> rfl

end Append

theorem Launch.owesEnqueues_iff {l : Launch} {d : Deferred} {ds : List Deferred} (hd : l.deferred = d :: ds) :
    l.owesEnqueues = true ↔ l.st = .committing ∨ l.irrevocable = true := by
  simp [Launch.owesEnqueues, hd]

/-! The write-back of shadow lines. -/

theorem State.freeVersion_eq (s : State) (a : Nat) : s.freeVersion a = { s with
    versions := if ∀ e ∈ s.shadow, e.1 / 2 ^ 35 ≠ a then AMap.del s.versions a else s.versions } := by
  have hlines : (s.shadowLines a).isEmpty = true ↔ ∀ e ∈ s.shadow, e.1 / 2 ^ 35 ≠ a := by
    simp only [State.shadowLines, List.isEmpty_iff, List.filter_eq_nil_iff, beq_iff_eq, ne_eq]
  unfold State.freeVersion
  by_cases h : ∀ e ∈ s.shadow, e.1 / 2 ^ 35 ≠ a
  · rw [if_pos (hlines.2 h), if_pos h]
  · rw [if_neg (mt hlines.1 h), if_neg h]

/-- The lines of a version are its own until it is committed memory, by its commit or by its grant (06 R148, R150). -/
theorem exec_shadowWriteback_of_uncommitted {s : State} {a : Nat} (line : Nat)
    (h : ∃ e ∈ s.launches, e.2.attempt = a ∧ e.2.irrevocable = false ∧ e.2.st ≠ .committing) :
    exec (.shadowWriteback a line) s = .next s := by
  obtain ⟨e, he, ha, hirr, hst⟩ := h
  exact if_pos (List.any_eq_true.2 ⟨e, he, by simp [ha, hirr, hst]⟩)

theorem exec_shadowWriteback_of_committed {s : State} {a : Nat} (line : Nat)
    (h : ∀ e ∈ s.launches, e.2.attempt = a → e.2.irrevocable = true ∨ e.2.st = .committing) :
    exec (.shadowWriteback a line) s =
      .next ((s.dropShadow fun k => k == shadowKey a line).freeVersion a) := by
  refine if_neg fun hany => ?_
  obtain ⟨e, he, hx⟩ := List.any_eq_true.1 hany
  simp only [Bool.and_eq_true, beq_iff_eq, Bool.not_eq_true', bne_iff_ne] at hx
  obtain ⟨⟨ha, hirr⟩, hst⟩ := hx
  rcases h e he ha with h | h
  · exact absurd h (by simp [hirr])
  · exact hst h

/-! Irrevocable mode. -/

theorem exec_irrevocableGrant_of_find {s : State} {lk : Nat} {l : Launch} (hl : AMap.find? s.launches lk = some l) :
    exec (.irrevocableGrant lk) s =
      if l.st = .overflowed ∧ !l.irrevocable ∧ s.grantable l then
        let t := s.commitVersion l.attempt
        .next ((State.updLaunch { t with next := t.next + 1 } lk fun l =>
          { l with irrevocable := true, commitAt := some t.next }).resumeGranted lk)
      else .next s := by
  change execIrrevocableGrant lk s = _
  rw [execIrrevocableGrant, hl]

/-- Settles O45: the enqueues by the home's answers (`exec_deferredEnqueueAppend_of_ok`), the lines by what is left of the
version (`State.freeVersion_eq`). -/
theorem deferredWorkFollowsTheCommit : Obligations.DeferredWorkFollowsTheCommit := by
  refine ⟨fun s lk l d ds hl hd => ⟨fun hst hirr => ?_, fun howes => ⟨fun hw => ?_, fun hw => ?_⟩⟩,
    fun s a line => ⟨exec_shadowWriteback_of_uncommitted line, fun h => ?_⟩,
    fun s lk l hl => ⟨fun hst hirr hg => ?_, fun h => ?_⟩⟩
  · exact exec_deferredEnqueueAppend_of_idle hl hd (.inl (by simp [Launch.owesEnqueues, hst, hirr]))
  · exact exec_deferredEnqueueAppend_of_idle hl hd (.inr hw)
  · have ho := (Launch.owesEnqueues_iff hd).2 howes
    refine ⟨fun f hcb => exec_deferredEnqueueAppend_of_error hl hd ho hw hcb, fun pa t hcb => ?_⟩
    have hexec := exec_deferredEnqueueAppend_of_ok hl hd ho hw hcb
    refine ⟨fun howed => ?_, fun howed => ?_⟩
    · rw [hexec, if_pos ((s.owedBefore_iff lk l pa).2 howed)]
    · rw [if_neg (mt (s.owedBefore_iff lk l pa).1 howed)] at hexec
      refine ⟨fun f u hrun => ?_, fun u hrun => ?_, fun r u hrun => ?_, fun u hrun => ?_⟩ <;> rw [hexec, hrun] <;> rfl
  · rw [exec_shadowWriteback_of_committed line h, State.freeVersion_eq]
    rfl
  · exact (exec_irrevocableGrant_of_find hl).trans (if_pos ⟨hst, by simp [hirr], hg⟩)
  · refine (exec_irrevocableGrant_of_find hl).trans (if_neg ?_)
    rintro ⟨hst, hirr, hg⟩
    rcases h with h | h | h
    · exact h hst
    · simp [h] at hirr
    · simp [h] at hg

end Sys2Proof.Machine
end

section
/-! The queue instructions (06 R154; 07 R162 to R164, R166, R483; 12 R279; 18 R380 to R386). -/

namespace Sys2Proof.Machine

open Sys2Proof.Safety Sys2Proof.Claims

/-- What the table says of a queue instruction acts as `State.enqueue` or `State.dequeue`. -/
def State.runQueue (s : State) (c : Ctx) (x : QueueInstr) : State :=
  if x.full then s.enqueue c x.scope x.cb x.elem x.block fun t ok => x.status c ok t
  else s.dequeue c x.scope x.cb x.elem x.block fun t ok => x.status c ok t

theorem exec_queueInstr {i : Instr} {x : QueueInstr} {s : State} {c : Ctx} (hi : queueInstr i = some x)
    (hc : s.ctx x.guard = some c) : exec i s = .next (s.runQueue c x) := by
  cases i with
  | enq g sc cb e | enqtry g sc d cb e | deq g sc cb e =>
    cases hi
    exact State.issue_of_ctx hc _
  | deqtry g sc q cb e =>
    cases hi
    refine (State.issue_of_ctx hc _).trans (congrArg Host.Outcome.next ?_)
    simp only [State.writePred, List.map_map]
    rfl
  | _ => cases hi

section Run

variable {s t : State} {c : Ctx} {x : QueueInstr}

theorem State.runQueue_of_idle (he : c.exec = []) : s.runQueue c x = s.finish c := by
  unfold State.runQueue State.enqueue State.dequeue
  simp only [he, List.length_nil, if_true, ite_self]

/-! Woken, it ends with what the home answered. -/

/-- A dequeue that the home has performed gives each lane its element and acquires. -/
def State.taken (t : State) (c : Ctx) (x : QueueInstr) (es : List (List Byte)) : State :=
  (x.status c true (t.takeElems c x.elem es)).acquireCaches c.b.core (atLeastDevice x.scope)

theorem State.runQueue_of_woken (he : c.exec ≠ []) (hw : c.pos ∈ c.p.woken) :
    s.runQueue c x = s.wokenQueue c fun t es => (if x.full then t else t.taken c x es).finish c := by
  have hn : c.exec.length ≠ 0 := by simpa using he
  have hwoken : c.woken = true := List.contains_iff_mem.2 hw
  unfold State.runQueue State.enqueue State.dequeue
  dsimp only
  rw [if_neg hn, if_neg hn, if_pos hwoken, if_pos hwoken]
  cases x.full <;> rfl

/-! At the home. -/

/-- What the home's answer makes of the issuing path: an enqueue ends, a dequeue takes its elements; turned away, a form
that may sleep waits with its request, another answers 0. -/
def State.homeAnswered (s : State) (c : Ctx) (x : QueueInstr) (pa : Nat) (es : List (List Byte)) : HomeAns → State
  | .fault f u => u.raiseAll c f
  | .lost u => u.beginAbort c.b.launch 2 0 u.time
  | .done r u => (if x.full then x.status c true u else u.taken c x r).finish c
  | .turned u =>
    if x.block then
      (u.addRequest pa (s.u64 c true c.lead x.cb) (.group c.cur.grp (maskOf c.exec)) x.full c.exec.length es).waitOn c
        (.queue pa x.full c.exec.length)
    else (x.status c false u).finish c

/-- A deferred enqueue joins those of its launch (06 R154). -/
def State.deferring (s v : State) (c : Ctx) (x : QueueInstr) (pa : Nat) (es : List (List Byte)) : State :=
  (((x.status c true (((v.bindHome pa c.party).serve pa).updLaunch c.b.launch fun l =>
    { l with deferred := l.deferred ++
        [{ cb := s.u64 c true c.lead x.cb, esize := elemSize x.elem, elems := es }] })).finish c).noteOverflow c.b.launch)

variable {pa : Nat} (he : c.exec ≠ []) (hw : c.pos ∉ c.p.woken) (h : AtHome s c x pa t)

/-- The space in which a launch's operations are made does not change with the write-back. -/
theorem launchSpace_present (t : State) (c : Ctx) (x : QueueInstr) :
    (present t c x).launchSpace c.l = t.launchSpace c.l := by
  have hp : StorageOnly t (present t c x) := by
    unfold present
    split
    · exact storage_releaseCaches ..
    · exact .refl t
  rw [hp]
  rfl

include he hw h

theorem State.runQueue_of_performed (hd : defers s t c x pa = false) :
    s.runQueue c x = s.homeAnswered c x pa (presented s t c x pa) ((present t c x).homeTry pa (t.launchSpace c.l) c.party
      x.full c.exec.length (elemSize x.elem) x.block (presented s t c x pa)) := by
  obtain ⟨hcb, helem, hpend⟩ := h
  have hn : c.exec.length ≠ 0 := by simpa using he
  have hwoken : ¬ c.woken = true := fun hc => hw (List.contains_iff_mem.1 hc)
  rw [← launchSpace_present t c x, State.runQueue]
  cases hf : x.full with
  | true =>
    simp only [defers, present, hf, if_true, Bool.true_and] at hd
    rw [if_pos rfl, State.enqueue, if_neg hn, if_neg hwoken]
    dsimp only
    rw [hcb, helem]
    dsimp only
    rw [State.afterEarlier_of_clear (hpend hf), if_neg (Bool.eq_false_iff.1 hd)]
    simp only [present, presented, hf, if_true]
    cases State.homeTry _ pa _ _ _ _ _ _ _ <;> simp only [State.homeAnswered, hf, if_true]
  | false =>
    rw [if_neg Bool.false_ne_true, State.dequeue, if_neg hn, if_neg hwoken]
    dsimp only
    rw [hcb, helem]
    simp only [present, presented, hf, Bool.false_eq_true, if_false]
    cases State.homeTry _ pa _ _ _ _ _ _ _ <;>
      simp only [State.homeAnswered, hf, Bool.false_eq_true, if_false, State.taken]

theorem State.runQueue_of_deferred (hd : defers s t c x pa = true)
    (hsound : (present t c x).homeSound pa (t.launchSpace c.l) c.party = none)
    (hcount : ((present t c x).queue pa).countFault c.exec.length (elemSize x.elem) x.block = none) :
    s.runQueue c x = s.deferring (present t c x) c x pa (presented s t c x pa) := by
  obtain ⟨hcb, helem, hpend⟩ := h
  have hn : c.exec.length ≠ 0 := by simpa using he
  have hwoken : ¬ c.woken = true := fun hc => hw (List.contains_iff_mem.1 hc)
  have hf : x.full = true := by
    simp only [defers, Bool.and_eq_true, and_assoc] at hd
    exact hd.1
  rw [← launchSpace_present t c x] at hsound
  simp only [defers, present, hf, if_true, Bool.true_and] at hd hsound hcount
  rw [State.runQueue, if_pos hf, State.enqueue, if_neg hn, if_neg hwoken]
  dsimp only
  rw [hcb, helem]
  dsimp only
  rw [State.afterEarlier_of_clear (hpend hf), if_pos hd, hsound, hcount]
  simp only [State.deferring, present, presented, hf, if_true]

end Run

/-- Settles O26: `State.runQueue` by what the path waits for, by whether the enqueue is deferred, and by the home's answer
(`State.homeAnswered`). -/
theorem queueInstructionsActAtTheHome : Obligations.QueueInstructionsActAtTheHome := by
  intro i x s c hi hc
  rw [exec_queueInstr hi hc]
  refine ⟨fun he => congrArg _ (State.runQueue_of_idle he), fun he hw pa t h => ⟨fun hd => ?_, fun hd hsound hcount => ?_⟩,
    fun he hw => ⟨fun hf => ?_, fun f hf => ?_⟩⟩
  · rw [State.runQueue_of_performed he hw h hd]
    refine ⟨fun f u hrun => ?_, fun r u hrun => ?_, fun u hrun => ?_, fun u hrun => ?_⟩ <;> rw [hrun] <;> rfl
  · exact congrArg _ (State.runQueue_of_deferred he hw h hd hsound hcount)
  · rw [State.runQueue_of_woken he hw, State.wokenQueue, hf]
    cases x.full <;> rfl
  · rw [State.runQueue_of_woken he hw, State.wokenQueue, hf]
    rfl

end Sys2Proof.Machine
end

section
/-! The management commands that end at once (04 R106; 06 R136, R140, R153, R485; 07 R183; 12 R270, R271; 13 R287, R291,
R294; 14 R297 to R301, R307, R487). -/

namespace Sys2Proof.Machine

open Sys2Proof.Safety Sys2Proof.Claims

/-- How a command ends as a row of the table says: with its result and its effect, or turned away with status 2 and a
result, or with status 4. -/
inductive EndsAs : Ended → Option (Nat × Nat) → Nat × State → Prop
  | done (result : Nat) (t : State) : EndsAs (.done result t) none (result, t)
  | refused (result : Nat) (eff : Nat × State) : EndsAs (.refused result) (some (2, result)) eff
  | denied (eff : Nat × State) : EndsAs .denied (some (4, 0)) eff

/-- A command acts at the head of its queue alone, and there as its row says (14 R297). -/
def ActsAsRow (i : Instr) (x : Command) : Prop := ∀ s : State,
  ((∀ c, s.headCommand x.vi = some c → c.code ≠ x.code) → exec i s = .next s) ∧
  ∀ c, s.headCommand x.vi = some c → c.code = x.code →
    (∀ w, x.stops s c = some w → exec i s = .next (s.complete c w.1 w.2)) ∧
    (x.stops s c = none → exec i s = .next ((x.eff s c).2.complete c 1 (x.eff s c).1))

theorem State.perform_elsewhere {s : State} {vi code : Nat} (h : ∀ c, s.headCommand vi = some c → c.code ≠ code)
    (f : Cmd → Ended) : s.perform vi code f = .next s := by
  unfold State.perform
  cases hc : s.headCommand vi with
  | none => rfl
  | some c => exact if_pos (h c hc)

theorem State.headCommand_vi {s : State} {vi : Nat} {c : Cmd} (h : s.headCommand vi = some c) : c.vi = vi := by
  unfold State.headCommand at h
  dsimp only at h
  split at h
  · cases h
  · split at h
    · cases h
    · cases h
      rfl

/-- A command that performs and ends as its row says acts as its row says. -/
theorem actsAsRow_of_endsAs {i : Instr} {x : Command} {f : State → Cmd → Ended}
    (hi : ∀ s, exec i s = s.perform x.vi x.code (f s))
    (hf : ∀ s c, c.vi = x.vi → EndsAs (f s c) (x.stops s c) (x.eff s c)) : ActsAsRow i x := by
  refine fun s => ⟨fun h => (hi s).trans (State.perform_elsewhere h _), fun c hc hcode => ?_⟩
  rw [hi s, State.perform_head hc hcode]
  have h := hf s c (State.headCommand_vi hc)
  generalize f s c = e at h ⊢
  generalize x.stops s c = stop at h ⊢
  generalize x.eff s c = eff at h ⊢
  cases h with
  | done r t => exact ⟨fun w hw => (nomatch hw), fun _ => rfl⟩
  | refused r => exact ⟨fun w hw => by cases hw; rfl, fun hw => (nomatch hw)⟩
  | denied => exact ⟨fun w hw => by cases hw; rfl, fun hw => (nomatch hw)⟩

theorem publish_actsAsRow {vi : Nat} {x : Command} (h : commandOf (.publish vi) = some x) : ActsAsRow (.publish vi) x := by
  cases h
  refine actsAsRow_of_endsAs (fun s => rfl) fun s c hvi => ?_
  dsimp only
  unfold Cmd.reaching
  cases c.reach with
  | none => exact .refused ..
  | some r =>
    dsimp only
    cases s.publishAt vi r (c.op 0) with
    | error f => exact .refused ..
    | ok p => exact .done ..

theorem unpublish_actsAsRow {vi : Nat} {x : Command} (h : commandOf (.unpublish vi) = some x) :
    ActsAsRow (.unpublish vi) x := by
  cases h
  refine actsAsRow_of_endsAs (fun s => rfl) fun s c hvi => ?_
  dsimp only [AMap.upd]
  cases AMap.find? s.images (c.op 0) with
  | none => exact .refused ..
  | some i =>
    dsimp only
    by_cases hown : i.vi ≠ vi
    · rw [if_pos hown, if_pos hown]
      exact .denied _
    · rw [if_neg hown, if_neg hown]
      cases i.published
      · exact .refused ..
      · exact .done ..

theorem contextOf_eq_none_iff (vi n : Nat) (d : List Byte) : contextOf vi n d = none ↔ contextOf vi 0 d = none := by
  unfold contextOf
  split <;> simp

theorem contextCreate_actsAsRow {vi : Nat} {x : Command} (h : commandOf (.contextCreate vi) = some x) :
    ActsAsRow (.contextCreate vi) x := by
  cases h
  refine actsAsRow_of_endsAs (fun s => rfl) fun s c hvi => ?_
  dsimp only
  unfold Cmd.reaching Claims.read
  cases c.reach with
  | none => exact .refused ..
  | some r =>
    dsimp only
    cases s.reachRead r (c.op 0) 128 with
    | error o => exact .refused ..
    | ok p =>
      dsimp only
      cases hfree : (span 1 256).find? fun n => (s.context vi n).isNone with
      | none =>
        have hall : ∀ n ∈ span 1 256, s.context vi n ≠ none := by simpa using List.find?_eq_none.1 hfree
        rw [if_pos (.inl hall)]
        exact .refused ..
      | some n =>
        have hone : ¬ ∀ n ∈ span 1 256, s.context vi n ≠ none := fun hall =>
          hall n (List.mem_of_find?_eq_some hfree) (by simpa using List.find?_some hfree)
        dsimp only
        cases hx : contextOf vi n p.1 with
        | none =>
          rw [if_pos (.inr ((contextOf_eq_none_iff vi n p.1).1 hx))]
          exact .refused ..
        | some x =>
          rw [if_neg fun h => h.elim hone fun h0 => by simp [(contextOf_eq_none_iff vi n p.1).2 h0] at hx]
          exact .done ..

/-! Commands that name a context, and one of its launches. -/

theorem State.withContext_none {s : State} {vi n : Nat} (h : ctxOf s vi n = none) (k : Context → Ended) :
    s.withContext vi n k = .refused 0 := by
  unfold ctxOf at h
  rw [State.withContext, h]

theorem State.withLaunch_eq (s : State) (c : Cmd) (lsn : Nat) (k : Nat → Launch → Ended) :
    s.withLaunch c lsn k = (launchNamed s c lsn).elim (.refused 0) fun e => k e.1 e.2 := by
  unfold State.withLaunch launchNamed
  cases hx : ctxOf s c.vi c.ctx with
  | none => exact State.withContext_none hx _
  | some x =>
    rw [State.withContext_of hx, State.launchesOf, AMap.keep, List.find?_filter]
    simp only [Bool.decide_and, Bool.decide_eq_true, Option.isNone_some, Bool.false_eq_true, if_false]
    cases List.find? _ s.launches <;> rfl

theorem foldl_min_self (x : Nat × Nat) (xs : List (Nat × Nat)) :
    ((x :: xs).map fun p => p.2).foldl min x.2 = xs.foldl (fun m p => min m p.2) x.2 := by
  rw [List.map_cons, List.foldl_cons, Nat.min_self, List.foldl_map]

theorem service_actsAsRow {vi : Nat} {x : Command} (h : commandOf (.service vi) = some x) : ActsAsRow (.service vi) x := by
  cases h
  refine actsAsRow_of_endsAs (fun s => rfl) fun s c hvi => ?_
  dsimp only
  rw [State.withLaunch_eq]
  cases launchNamed s c (c.op 0) with
  | none => exact .refused ..
  | some e =>
    dsimp only [Option.elim]
    by_cases hbad : 1536 ≤ c.op 1 ∨ 64 ≤ c.op 2
    · rw [if_pos hbad, if_pos (.inr hbad)]
      exact .refused ..
    · rw [if_neg hbad, if_neg (by simpa using hbad)]
      cases s.waitedPages e.1 (c.op 1) (c.op 2) with
      | nil => exact .done ..
      | cons y ys =>
        dsimp only
        rw [if_neg (List.cons_ne_nil y ys)]
        split
        · exact .done ..
        · rw [List.head?_cons, Option.map_some, Option.getD_some, foldl_min_self]
          exact .done ..

theorem release_actsAsRow {vi : Nat} {x : Command} (h : commandOf (.release vi) = some x) : ActsAsRow (.release vi) x := by
  cases h
  refine actsAsRow_of_endsAs (fun s => rfl) fun s c hvi => ?_
  dsimp only
  rw [State.withLaunch_eq]
  cases launchNamed s c (c.op 0) with
  | none => exact .refused ..
  | some e =>
    dsimp only [Option.elim]
    rw [if_neg (by simp)]
    cases s.blocks.filterMap _ <;> exact .done ..

theorem killed_eq (s : State) (lk : Nat) (l : Launch) : killed s lk l = s.killLaunch lk l := by
  unfold killed State.killLaunch
  cases l.st <;> rfl

/-- The launches that KILL names. -/
def State.killedBy (s : State) (vi ctx lsn : Nat) : List (Nat × Launch) :=
  (s.launchesOf vi ctx).filter fun e => lsn == 0 || e.2.first == lsn || e.2.lsn == lsn

theorem State.killedBy_isEmpty_iff {s : State} {vi ctx lsn : Nat} (h : lsn ≠ 0) : (s.killedBy vi ctx lsn).isEmpty = true ↔
    ∀ e ∈ s.launches, e.2.vi = vi → e.2.ctx = ctx → e.2.first ≠ lsn ∧ e.2.lsn ≠ lsn := by
  simp only [State.killedBy, State.launchesOf, AMap.keep, List.filter_filter, List.isEmpty_iff, List.filter_eq_nil_iff,
    Bool.and_eq_true, Bool.or_eq_true, beq_iff_eq, h, false_or]
  exact forall₂_congr fun e _ => by tauto

theorem State.foldl_killLaunch (s : State) (vi ctx lsn : Nat) :
    (s.launches.filter fun e => e.2.vi == vi && e.2.ctx == ctx && (lsn == 0 || e.2.first == lsn || e.2.lsn == lsn)).foldl
      (fun t e => killed t e.1 e.2) s = (s.killedBy vi ctx lsn).foldl (fun t e => t.killLaunch e.1 e.2) s := by
  simp only [killed_eq, State.killedBy, State.launchesOf, AMap.keep, List.filter_filter]
  refine congrArg (List.foldl _ s) (List.filter_congr fun e _ => ?_)
  exact Bool.and_comm ..

theorem kill_actsAsRow {vi : Nat} {x : Command} (h : commandOf (.kill vi) = some x) : ActsAsRow (.kill vi) x := by
  cases h
  refine actsAsRow_of_endsAs (fun s => rfl) fun s c hvi => ?_
  dsimp only
  cases hx : ctxOf s vi c.ctx with
  | none =>
    rw [State.withContext_none hx]
    exact .refused ..
  | some y =>
    rw [State.withContext_of hx, if_neg (Option.some_ne_none y), State.foldl_killLaunch]
    change EndsAs (if c.op 0 ≠ 0 ∧ (s.killedBy vi c.ctx (c.op 0)).isEmpty then .refused 0
      else .done 0 ((s.killedBy vi c.ctx (c.op 0)).foldl (fun t e => t.killLaunch e.1 e.2) s)) _ _
    by_cases hlsn : c.op 0 = 0
    · rw [if_neg (by simp [hlsn]), if_neg (by simp [hlsn])]
      exact .done ..
    · simp only [State.killedBy_isEmpty_iff hlsn]
      split
      · exact .refused ..
      · exact .done ..

theorem stop_actsAsRow {vi : Nat} {x : Command} (h : commandOf (.stop vi) = some x) : ActsAsRow (.stop vi) x := by
  cases h
  refine actsAsRow_of_endsAs (fun s => rfl) fun s c hvi => ?_
  dsimp only
  rw [State.withLaunch_eq]
  cases launchNamed s c (c.op 0) with
  | none => exact .refused ..
  | some e =>
    dsimp only [Option.elim]
    split
    · exact .refused ..
    · exact .done ..

theorem debugResume_actsAsRow {vi : Nat} {x : Command} (h : commandOf (.debugResume vi) = some x) :
    ActsAsRow (.debugResume vi) x := by
  cases h
  refine actsAsRow_of_endsAs (fun s => rfl) fun s c hvi => ?_
  dsimp only
  rw [State.withLaunch_eq]
  cases launchNamed s c (c.op 0) with
  | none => exact .refused ..
  | some e =>
    dsimp only [Option.elim]
    split
    · exact .refused ..
    · exact .done ..

theorem debugDetach_actsAsRow {vi : Nat} {x : Command} (h : commandOf (.debugDetach vi) = some x) :
    ActsAsRow (.debugDetach vi) x := by
  cases h
  refine actsAsRow_of_endsAs (fun s => rfl) fun s c hvi => ?_
  dsimp only
  cases hx : ctxOf s vi (c.op 0) with
  | none =>
    rw [State.withContext_none hx]
    exact .refused ..
  | some y =>
    rw [State.withContext_of hx]
    exact .done ..

theorem debugAttach_actsAsRow {vi : Nat} {x : Command} (h : commandOf (.debugAttach vi) = some x) :
    ActsAsRow (.debugAttach vi) x := by
  cases h
  refine actsAsRow_of_endsAs (fun s => rfl) fun s c hvi => ?_
  dsimp only
  cases hx : ctxOf s vi (c.op 0) with
  | none =>
    rw [State.withContext_none hx]
    exact .refused ..
  | some y =>
    rw [State.withContext_of hx]
    dsimp only
    cases s.storeAddr (s.contextSpace y) (c.op 1) with
    | error f => exact .refused ..
    | ok p =>
      simp only [Bool.not_eq_true']
      split
      · exact .refused ..
      · exact .done ..

/-! Commands that read and write memory, and the tables of the interface. -/

theorem profile_actsAsRow {vi : Nat} {x : Command} (h : commandOf (.profile vi) = some x) : ActsAsRow (.profile vi) x := by
  cases h
  refine actsAsRow_of_endsAs (fun s => rfl) fun s c hvi => ?_
  dsimp only
  unfold Cmd.reaching Claims.read Claims.write
  cases c.reach with
  | none => exact .refused ..
  | some r =>
    dsimp only [Option.bind_some]
    cases s.reachRead r (c.op 0) 64 with
    | error o => exact .refused ..
    | ok p =>
      dsimp only
      cases p.2.draftOf p.1 with
      | none => exact .refused ..
      | some d =>
        dsimp only
        by_cases hbad : d.2.gen ≠ c.op 1 ∨ d.2.ready = false
        · rw [if_pos (by simpa using hbad), if_pos (hbad.imp_right .inl)]
          exact .refused ..
        · rw [if_neg (by simpa using hbad)]
          obtain hw | ⟨u, hw⟩ := Option.eq_none_or_eq_some (p.2.reachWrite r (c.op 2)
            ((p.2.recordsOf d.2).flatMap fun n => profileEntry n ((AMap.find? d.2.profiles n).getD {})))
          · rw [if_pos (.inr (.inr hw)), hw]
            exact .refused ..
          · rw [if_neg fun h => hbad (h.imp_right fun h => h.resolve_right (by simp [hw])), hw]
            exact .done ..

theorem notifyTarget_actsAsRow {vi : Nat} {x : Command} (h : commandOf (.notifyTarget vi) = some x) :
    ActsAsRow (.notifyTarget vi) x := by
  cases h
  refine actsAsRow_of_endsAs (fun s => rfl) fun s c hvi => ?_
  dsimp only
  unfold Cmd.reaching
  cases c.reach with
  | none => exact .refused ..
  | some r =>
    dsimp only [Option.bind_some]
    cases s.reachAddr r false (c.op 0) with
    | none => exact .refused ..
    | some p =>
      dsimp only
      split
      · exact .refused ..
      · exact .done ..

theorem enrolKey_actsAsRow {vi : Nat} {x : Command} (h : commandOf (.enrolKey vi) = some x) :
    ActsAsRow (.enrolKey vi) x := by
  cases h
  refine actsAsRow_of_endsAs (fun s => rfl) fun s c hvi => ?_
  dsimp only
  unfold Cmd.reaching Claims.read
  cases c.reach with
  | none => exact .refused ..
  | some r =>
    dsimp only
    cases s.reachRead r (c.op 1) 133 with
    | error o => exact .refused ..
    | ok p =>
      simp only [Option.isNone_iff_eq_none]
      split
      · exact .refused ..
      · exact .done ..

/-- The report of ATTEST is its body and the signature of that (14 R307, Table 14.7). -/
theorem reportOf_eq (s : State) (nonce : List Byte) : reportOf s nonce = s.reportBody nonce
    ++ (Config.enclaveSign (sha512 (s.reportBody nonce)) ++ leBytes 132 0).take 132 := rfl

theorem attest_actsAsRow {vi : Nat} {x : Command} (h : commandOf (.attest vi) = some x) : ActsAsRow (.attest vi) x := by
  cases h
  refine actsAsRow_of_endsAs (fun s => rfl) fun s c hvi => ?_
  dsimp only
  simp only [← reportOf_eq]
  generalize reportOf = report
  unfold Cmd.reaching Claims.read Claims.write
  cases c.reach with
  | none => exact .refused ..
  | some r =>
    dsimp only [Option.bind_some]
    by_cases hlife : s.life ≠ .provisioned ∧ s.life ≠ .deployed
    · rw [if_pos hlife, if_pos (.inr hlife)]
      exact .refused ..
    · rw [if_neg hlife, if_neg (by simpa using hlife)]
      cases s.reachRead r (c.op 0) 32 with
      | error o => exact .refused ..
      | ok p =>
        dsimp only
        obtain hw | ⟨u, hw⟩ := Option.eq_none_or_eq_some
          (p.2.reachWrite r (c.op 1) (report p.2 p.1 ++ Config.deviceChain))
        · rw [if_pos hw, hw]
          exact .refused ..
        · rw [if_neg (by simp [hw]), hw]
          exact .done ..

theorem treadle_actsAsRow {vi : Nat} {x : Command} (h : commandOf (.treadle vi) = some x) : ActsAsRow (.treadle vi) x := by
  cases h
  refine actsAsRow_of_endsAs (fun s => rfl) fun s c hvi => ?_
  dsimp only
  split
  · exact .refused ..
  · split
    · exact .denied _
    · exact .done ..

/-! The configuration of interfaces, and the control words. -/

theorem gStageOk_eq_false_iff (hgatp : Nat) : gStageOk hgatp = false ↔
    hgatp ≠ 0 ∧ (bitsOf hgatp 60 4 ≠ 10 ∨ bitsOf hgatp 52 8 ≠ 0) := by
  simp [gStageOk, imp_iff_not_or]

theorem viConfig_actsAsRow {vi : Nat} {x : Command} (h : commandOf (.viConfig vi) = some x) :
    ActsAsRow (.viConfig vi) x := by
  cases h
  refine actsAsRow_of_endsAs (fun s => rfl) fun s c hvi => ?_
  dsimp only
  simp only [Bool.not_eq_true', gStageOk_eq_false_iff]
  split
  · exact .denied _
  · split
    · exact .refused ..
    · by_cases hsame : (s.iface (field c.ops 0 2)).configured = true ∧ (s.iface (field c.ops 0 2)).quota = c.op 1
      · obtain ⟨hconf, hquota⟩ := hsame
        simp only [hconf, hquota, and_self, if_true, beq_self_eq_true, Bool.and_self, Bool.true_eq_false, ne_eq, not_true,
          or_self, false_and, if_false]
        exact .done ..
      · rw [if_neg hsame]
        cases hmem : s.findMemory (field c.ops 0 2) (c.op 1) with
        | none =>
          rw [if_pos ⟨by simpa [imp_iff_not_or] using hsame, rfl⟩]
          exact .refused ..
        | some base =>
          have hdiff : ((s.iface (field c.ops 0 2)).configured && (s.iface (field c.ops 0 2)).quota == c.op 1) = false := by
            simpa using hsame
          rw [if_neg (by simp)]
          simp only [hdiff, if_neg hsame, Option.getD_some, Bool.false_eq_true, if_false]
          exact .done ..

theorem controlStop_of {s : State} {c : Cmd} {w : ControlWord} (hrange : ¬ (63 < c.op 0 ∨ 65535 < c.op 1))
    (hw : controlWord (c.op 1) = some w) (write : Bool) :
    controlStop s c write = if w.permitted write c.vi (c.op 0) = false then denied
      else if (s.iface (c.op 0)).configured = false then invalid else none := by
  unfold controlStop
  rw [if_neg hrange, hw]
  cases w <;> rfl

/-- A control word is turned away as Table 14.10 says, or is used (14 R301). -/
theorem State.withControl_endsAs {s : State} {c : Cmd} {write : Bool} {k : Nat → ControlWord → Ended} {eff : Nat × State}
    (hk : ∀ w, controlWord (c.op 1) = some w → k (c.op 0) w = .done eff.1 eff.2) :
    EndsAs (s.withControl c write k) (controlStop s c write) eff := by
  unfold State.withControl
  dsimp only
  by_cases hrange : 63 < c.op 0 ∨ 65535 < c.op 1
  · unfold controlStop
    rw [if_pos hrange, if_pos hrange]
    exact .refused ..
  · rw [if_neg hrange]
    cases hw : controlWord (c.op 1) with
    | none =>
      unfold controlStop
      rw [if_neg hrange, hw]
      exact .refused ..
    | some w =>
      rw [controlStop_of hrange hw]
      dsimp only
      cases w.permitted write c.vi (c.op 0)
      · exact .denied _
      · cases (s.iface (c.op 0)).configured
        · exact .refused ..
        · rw [hk w hw]
          exact .done ..

theorem controlWrite_actsAsRow {vi : Nat} {x : Command} (h : commandOf (.controlWrite vi) = some x) :
    ActsAsRow (.controlWrite vi) x := by
  cases h
  refine actsAsRow_of_endsAs (fun s => rfl) fun s c hvi => State.withControl_endsAs fun w hw => ?_
  dsimp only
  rw [hw]

theorem controlRead_actsAsRow {vi : Nat} {x : Command} (h : commandOf (.controlRead vi) = some x) :
    ActsAsRow (.controlRead vi) x := by
  cases h
  refine actsAsRow_of_endsAs (fun s => rfl) fun s c hvi => State.withControl_endsAs fun w hw => ?_
  dsimp only
  rw [hw]

/-- Settles O52: each command ends as its row says (`EndsAs`), and only at the head of its queue. -/
theorem managementCommandsActAtTheHeadOfTheirQueue : Obligations.ManagementCommandsActAtTheHeadOfTheirQueue := by
  intro i x s h
  cases i with
  | publish vi => exact publish_actsAsRow h s
  | unpublish vi => exact unpublish_actsAsRow h s
  | contextCreate vi => exact contextCreate_actsAsRow h s
  | service vi => exact service_actsAsRow h s
  | release vi => exact release_actsAsRow h s
  | kill vi => exact kill_actsAsRow h s
  | stop vi => exact stop_actsAsRow h s
  | profile vi => exact profile_actsAsRow h s
  | treadle vi => exact treadle_actsAsRow h s
  | notifyTarget vi => exact notifyTarget_actsAsRow h s
  | enrolKey vi => exact enrolKey_actsAsRow h s
  | attest vi => exact attest_actsAsRow h s
  | viConfig vi => exact viConfig_actsAsRow h s
  | debugAttach vi => exact debugAttach_actsAsRow h s
  | debugResume vi => exact debugResume_actsAsRow h s
  | debugDetach vi => exact debugDetach_actsAsRow h s
  | controlWrite vi => exact controlWrite_actsAsRow h s
  | controlRead vi => exact controlRead_actsAsRow h s
  | _ => cases h

end Sys2Proof.Machine
end

section
/-! A launch record up to its binding: the dequeue, the conditional node and the checks (06 R142, R144, R155, R485). -/

namespace Sys2Proof.Machine

open Sys2Proof.Safety Sys2Proof.Claims

theorem bitsOf_one_eq_one_iff (w lo : Nat) : bitsOf w lo 1 = 1 ↔ w.testBit lo = true := by
  rw [bitsOf, Nat.pow_one, Nat.testBit_eq_decide_div_mod_eq, decide_eq_true_iff]

/-- What the loader leaves of a queue and its launches, by what the home answers its dequeue (06 R142, R485). -/
def dequeueLeaves (n : Nat) (q : LaunchQueue) (x : Context) : HomeAns → State
  | .fault _ u | .lost u => u.giveUp n
  | .turned u => u
  | .done es u =>
    { u.updContext q.vi q.ctx fun y => { y with nextLsn := y.nextLsn + 1 } with
      launches := AMap.put u.launches u.next (newLaunch u n q x.nextLsn (es.headD []))
      queues := AMap.upd u.queues n fun q => { q with nextSeq := q.nextSeq + 1, lastDeq := u.cycle }
      next := u.next + 2 }

theorem exec_launchDequeue_of {s t : State} {n slot pa : Nat} {q : LaunchQueue} {x : Context}
    (hq : AMap.find? s.queues n = some q) (hslot : q.slot = some slot) (hx : s.context q.vi q.ctx = some x)
    (ht : s.lqAddr q = .ok (pa, t)) : exec (.launchDequeue n) s =
      .next (dequeueLeaves n q x (t.homeTry pa (t.contextSpace x) (.agent q.vi) false 1 64 false [])) := by
  change execLaunchDequeue n s = _
  rw [execLaunchDequeue, hq]
  dsimp only
  rw [hslot, hx, ht]
  dsimp only
  cases t.homeTry pa (t.contextSpace x) (.agent q.vi) false 1 64 false [] <;> rfl

theorem newLaunch_eq (s : State) (n : Nat) (q : LaunchQueue) (lsn : Nat) (bs : List Byte) : newLaunch s n q lsn bs =
    { vi := q.vi, ctx := q.ctx, lq := n, seq := q.nextSeq, lsn, first := lsn
      attempt := s.next + 1, record := bs, dequeuedAt := s.cycle, image := field bs 0 4
      st := if (field bs 25 1).testBit 0 then .waitEligible else .checking } := by
  simp only [newLaunch, bitsOf_one_eq_one_iff]

theorem aRecordIsDequeuedWithTheNextLsn : ARecordIsDequeuedWithTheNextLsn := by
  intro s n q hq
  refine ⟨fun hslot => ?_, fun slot x hslot hx => ⟨fun f hf => ?_, fun pa t ht => ?_⟩⟩
  · change execLaunchDequeue n s = _
    rw [execLaunchDequeue, hq]
    dsimp only
    rw [hslot]
  · change execLaunchDequeue n s = _
    rw [execLaunchDequeue, hq]
    dsimp only
    rw [hslot, hx, hf]
    rfl
  · dsimp only
    have hexec := exec_launchDequeue_of hq hslot hx ht
    refine ⟨fun bs u hrun => ?_, fun u hrun => ?_, fun f u hrun => ?_, fun u hrun => ?_⟩ <;> rw [hexec, hrun]
    · rw [dequeueLeaves, List.headD_cons, newLaunch_eq]
    · rfl
    · rfl
    · rfl

/-- What the loader leaves of a conditional record, by the address of its word (06 R155). -/
def State.conditionalLeaves (s : State) (lk : Nat) (l : Launch) (attrs : List Attr) : Except Flt (Nat × State) → State
  | .error f => if f.lost then s.endUnbound lk { l with cause := 2 } 4
      else s.endUnbound lk { l with reason := 16, offset := 32 } 3
  | .ok (pa, t) =>
    let va := field l.record 32 8
    if !isImmediate (attrFlags attrs va) && t.launches.any (fun e =>
        e.2.vi == l.vi && e.2.ctx == l.ctx && e.2.st.inU && e.2.claims.any fun c =>
          c.wr && decide (c.lo < va / 64 * 64 + 64) && decide (va / 64 * 64 < c.hi)) then s
    else if t.poisoned 0 (pa / 64) then t.endUnbound lk { l with cause := 2 } 4
    else if (t.memWord pa == 0) == (field l.record 25 1).testBit 1 then t.updLaunch lk fun l => { l with st := .checking }
    else t.endUnbound lk l 2

theorem exec_conditionalNodeEval_of {s : State} {lk : Nat} {l : Launch} {x : Context}
    (hl : AMap.find? s.launches lk = some l) (hst : l.st = .waitEligible) (hx : s.context l.vi l.ctx = some x)
    (hfirst : s.predecessorsEnded l = true) : exec (.conditionalNodeEval lk) s = .next
      (s.conditionalLeaves lk l (s.contextSpace x).attrs (s.homeAddr (s.contextSpace x) (field l.record 32 8))) := by
  have hbit : (bitsOf (field l.record 25 1) 1 1 == 1) = (field l.record 25 1).testBit 1 :=
    Bool.eq_iff_iff.2 (by rw [beq_iff_eq, bitsOf_one_eq_one_iff])
  change execConditionalNodeEval lk s = _
  rw [execConditionalNodeEval, hl]
  dsimp only
  rw [if_neg (by simp [hst, hfirst]), hx, hbit]
  dsimp only
  cases s.homeAddr (s.contextSpace x) (field l.record 32 8) with
  | error f => rfl
  | ok r => simp only [State.conditionalLeaves, apply_ite Host.Outcome.next]

/-- A launch in U of a context claims to write a line of a transactional word (06 R155). -/
theorem writesLine_iff (t : State) (l : Launch) (va : Nat) : (t.launches.any fun e =>
      e.2.vi == l.vi && e.2.ctx == l.ctx && e.2.st.inU && e.2.claims.any fun c =>
        c.wr && decide (c.lo < va / 64 * 64 + 64) && decide (va / 64 * 64 < c.hi)) = true ↔
    ∃ e ∈ t.launches, e.2.vi = l.vi ∧ e.2.ctx = l.ctx ∧ e.2.st.inU = true ∧
      ∃ c ∈ e.2.claims, c.wr = true ∧ c.lo < va / 64 * 64 + 64 ∧ va / 64 * 64 < c.hi := by
  simp only [List.any_eq_true, Bool.and_eq_true, beq_iff_eq, decide_eq_true_eq, and_assoc]

theorem aConditionalRecordRunsOrIsSkipped : AConditionalRecordRunsOrIsSkipped := by
  intro s lk l x hl hst hx
  dsimp only
  refine ⟨fun ⟨e, he, hlq, hseq⟩ => ?_, fun hfirst => ?_⟩
  · have hheld : ¬ s.predecessorsEnded l = true := fun h => by
      have := (s.predecessorsEnded_iff l).1 h e he hlq
      omega
    change execConditionalNodeEval lk s = _
    rw [execConditionalNodeEval, hl]
    dsimp only
    rw [if_pos (.inr (by simpa using hheld))]
  · have hexec := exec_conditionalNodeEval_of hl hst hx ((s.predecessorsEnded_iff l).2 hfirst)
    refine ⟨fun f hf => ?_, fun pa t ht => ?_⟩
    · rw [hexec, hf, State.conditionalLeaves]
      rfl
    · rw [hexec, ht, State.conditionalLeaves]
      rw [← writesLine_iff]
      refine ⟨fun hword hw => ?_, fun hword hp => ?_, fun hword hp => ⟨fun hrun => ?_, fun hrun => ?_⟩⟩
      · rw [if_pos (by simp [hword, hw])]
      all_goals rw [if_neg (by simpa [imp_iff_not_or] using hword)]
      · rw [if_pos hp]
        rfl
      · rw [if_neg (by simp [hp]), if_pos hrun]
      · rw [if_neg (by simp [hp]), if_neg (by simp [hrun])]
        rfl

/-- A launch after its bind-time checks: refused, or waiting for its binding (06 R144). -/
def State.afterChecks (s : State) (lk : Nat) (l : Launch) : Except Refused Launch → State
  | .error (reason, offset) => s.endUnbound lk { l with reason, offset } 3
  | .ok m => (s.updLaunch lk fun _ => { m with st := .waiting }).tryBind lk { m with st := .waiting }

theorem exec_launchBind_lost {s : State} {lk : Nat} {l : Launch} (hl : AMap.find? s.launches lk = some l)
    (hst : l.st = .checking) (hlost : s.bindLost l = true) :
    exec (.launchBind lk) s = .next (s.endUnbound lk { l with cause := 2 } 4) := by
  change execLaunchBind lk s = _
  rw [execLaunchBind, hl]
  dsimp only
  rw [hst]
  exact if_pos hlost

theorem exec_launchBind_checking {s : State} {lk : Nat} {l : Launch} (hl : AMap.find? s.launches lk = some l)
    (hst : l.st = .checking) (hlost : s.bindLost l = false) :
    exec (.launchBind lk) s = .next (s.afterChecks lk l (s.checkLaunch l)) := by
  change execLaunchBind lk s = _
  rw [execLaunchBind, hl]
  dsimp only
  rw [hst]
  dsimp only
  rw [if_neg (by simp [hlost])]
  rfl

theorem exec_launchBind_rechecking {s : State} {lk : Nat} {l : Launch} (hl : AMap.find? s.launches lk = some l)
    (hst : l.st = .waiting) (hck : l.checked = false) :
    exec (.launchBind lk) s = .next (s.afterChecks lk l (s.recheckLaunch l)) := by
  change execLaunchBind lk s = _
  rw [execLaunchBind, hl]
  dsimp only
  rw [hst]
  dsimp only
  rw [if_neg (by simp [hck])]
  rfl

theorem exec_launchBind_checked {s : State} {lk : Nat} {l : Launch} (hl : AMap.find? s.launches lk = some l)
    (hst : l.st = .waiting) (hck : l.checked = true) : exec (.launchBind lk) s = .next (s.tryBind lk l) := by
  change execLaunchBind lk s = _
  rw [execLaunchBind, hl]
  dsimp only
  rw [hst]
  dsimp only
  rw [if_pos hck]

theorem State.recheckLaunch_ok {s : State} {l m : Launch} (h : s.recheckLaunch l = .ok m) : m = { l with checked := true } := by
  unfold State.recheckLaunch at h
  split at h
  · split at h
    · cases h
    · cases h
      rfl
  · cases h

theorem aRecordIsCheckedBeforeEachBinding : ARecordIsCheckedBeforeEachBinding := by
  intro s lk l hl
  dsimp only
  refine ⟨fun hst => ⟨exec_launchBind_lost hl hst, fun hlost => ⟨fun reason offset hr => ?_, fun m hm => ?_⟩⟩,
    fun hst hck => ⟨fun reason offset hr => ?_, fun m hm => ⟨?_, State.recheckLaunch_ok hm⟩⟩⟩
  · rw [exec_launchBind_checking hl hst hlost, hr]
    rfl
  · rw [exec_launchBind_checking hl hst hlost, hm]
    rfl
  · rw [exec_launchBind_rechecking hl hst hck, hr]
    rfl
  · rw [exec_launchBind_rechecking hl hst hck, hm]
    rfl

end Sys2Proof.Machine
end

section
/-! What the loader leaves of the launches while it binds one of them (06 R145, R152; 07 R171; 08 R187 to R190). -/

namespace Sys2Proof.Machine

open Sys2Proof.Safety Sys2Proof.Claims

/-- Two maps of the same keys, the entries of the first related to those of the second. -/
structure AMap.Related {α : Type} (R : α → α → Prop) (m m' : AMap α) : Prop where
  found : ∀ k v', AMap.find? m' k = some v' → ∃ v, AMap.find? m k = some v ∧ R v v'
  forth : ∀ e ∈ m, ∃ e' ∈ m', e'.1 = e.1 ∧ R e.2 e'.2
  back : ∀ e' ∈ m', ∃ e ∈ m, e.1 = e'.1 ∧ R e.2 e'.2

theorem AMap.Related.refl {α : Type} {R : α → α → Prop} (hR : ∀ a, R a a) (m : AMap α) : AMap.Related R m m :=
  ⟨fun _ v h => ⟨v, h, hR v⟩, fun e h => ⟨e, h, rfl, hR _⟩, fun e h => ⟨e, h, rfl, hR _⟩⟩

theorem AMap.Related.trans {α : Type} {R : α → α → Prop} (hR : ∀ a b c, R a b → R b c → R a c) {m₁ m₂ m₃ : AMap α}
    (h : AMap.Related R m₁ m₂) (h' : AMap.Related R m₂ m₃) : AMap.Related R m₁ m₃ where
  found k v₃ h₃ := by
    obtain ⟨v₂, h₂, r₂⟩ := h'.found k v₃ h₃
    obtain ⟨v₁, h₁, r₁⟩ := h.found k v₂ h₂
    exact ⟨v₁, h₁, hR _ _ _ r₁ r₂⟩
  forth e₁ h₁ := by
    obtain ⟨e₂, h₂, k₂, r₁⟩ := h.forth e₁ h₁
    obtain ⟨e₃, h₃, k₃, r₂⟩ := h'.forth e₂ h₂
    exact ⟨e₃, h₃, k₃.trans k₂, hR _ _ _ r₁ r₂⟩
  back e₃ h₃ := by
    obtain ⟨e₂, h₂, k₂, r₂⟩ := h'.back e₃ h₃
    obtain ⟨e₁, h₁, k₁, r₁⟩ := h.back e₂ h₂
    exact ⟨e₁, h₁, k₁.trans k₂, hR _ _ _ r₁ r₂⟩

/-- Setting the entry of a key loses no entry but the one that was found there. -/
theorem AMap.mem_put_of_mem {α : Type} {m : AMap α} {n : Nat} {v : α} {e : Nat × α} (h : e ∈ m)
    (hne : e.1 = n → AMap.find? m n ≠ some e.2) : e ∈ AMap.put m n v := by
  induction m with
  | nil => cases h
  | cons x m ih =>
    obtain ⟨k, y⟩ := x
    rw [AMap.put]
    rw [AMap.find?] at hne
    split
    · next hk =>
      rw [if_pos hk] at hne
      obtain h | h := List.mem_cons.1 h
      · subst h
        exact absurd rfl (hne hk)
      · exact List.mem_cons_of_mem _ h
    · next hk =>
      rw [if_neg hk] at hne
      split
      · exact List.mem_cons_of_mem _ h
      · obtain h | h := List.mem_cons.1 h
        · exact h ▸ List.mem_cons_self
        · exact List.mem_cons_of_mem _ (ih h hne)

theorem AMap.put_mem_self {α : Type} (m : AMap α) (n : Nat) (v : α) : (n, v) ∈ AMap.put m n v :=
  AMap.mem_of_find? (AMap.find?_put_same m n v)

theorem AMap.related_upd {α : Type} {R : α → α → Prop} {f : α → α} (hR : ∀ a, R a a) (hf : ∀ a, R a (f a)) (m : AMap α)
    (n : Nat) : AMap.Related R m (AMap.upd m n f) := by
  unfold AMap.upd
  cases hx : AMap.find? m n with
  | none => exact .refl hR m
  | some x =>
    refine ⟨fun k v' h => ?_, fun e h => ?_, fun e' h => ?_⟩
    · rw [AMap.find?_put] at h
      split at h
      · next hk =>
        cases h
        exact ⟨x, hk ▸ hx, hf x⟩
      · exact ⟨v', h, hR v'⟩
    · by_cases he : e.1 = n ∧ x = e.2
      · exact ⟨_, AMap.put_mem_self m n (f x), he.1.symm, he.2 ▸ hf x⟩
      · exact ⟨e, AMap.mem_put_of_mem h fun hk h => he ⟨hk, by simpa [hx] using h⟩, rfl, hR _⟩
    · obtain h | h := AMap.mem_put h
      · exact ⟨(n, x), AMap.mem_of_find? hx, by rw [h], by rw [h]; exact hf x⟩
      · exact ⟨e', h, rfl, hR _⟩

/-- What stays of a launch that does not bind: its place and its claims; it is not newly bound, its claims stay in U, and
its stages stay as they are where `stays`. -/
structure Launch.Kept (stays : Prop) (l m : Launch) : Prop where
  vi : m.vi = l.vi
  ctx : m.ctx = l.ctx
  lq : m.lq = l.lq
  seq : m.seq = l.seq
  claims : m.claims = l.claims
  image : m.image = l.image
  bound : m.st = .bound → l.st = .bound
  inU : l.st.inU = true → m.st.inU = true
  stages : stays → m.stages = l.stages

theorem Launch.Kept.refl (p : Prop) (l : Launch) : l.Kept p l := ⟨rfl, rfl, rfl, rfl, rfl, rfl, id, id, fun _ => rfl⟩

theorem Launch.Kept.trans {p : Prop} (l m n : Launch) (h : l.Kept p m) (h' : m.Kept p n) : l.Kept p n :=
  ⟨h'.vi.trans h.vi, h'.ctx.trans h.ctx, h'.lq.trans h.lq, h'.seq.trans h.seq, h'.claims.trans h.claims,
    h'.image.trans h.image, h.bound ∘ h'.bound, h'.inU ∘ h.inU, fun hp => (h'.stages hp).trans (h.stages hp)⟩

theorem Launch.Kept.of_stages (l : Launch) (stages : List StageRun) : l.Kept False { l with stages } :=
  ⟨rfl, rfl, rfl, rfl, rfl, rfl, id, id, False.elim⟩

/-- What the loader keeps of the launches, of the version table and of the images until a launch binds. -/
structure Keeps (stays : Prop) (s t : State) : Prop where
  versions : t.versions = s.versions
  images : t.images = s.images
  launches : AMap.Related (Launch.Kept stays) s.launches t.launches

variable {p : Prop} {s t u : State}

theorem Keeps.of_eq (hv : t.versions = s.versions) (hi : t.images = s.images) (hl : t.launches = s.launches) : Keeps p s t :=
  ⟨hv, hi, hl ▸ .refl (Launch.Kept.refl p) _⟩

theorem Keeps.refl (s : State) : Keeps p s s := .of_eq rfl rfl rfl

theorem Keeps.trans (h : Keeps p s t) (h' : Keeps p t u) : Keeps p s u :=
  ⟨h'.versions.trans h.versions, h'.images.trans h.images, h.launches.trans Launch.Kept.trans h'.launches⟩

theorem Keeps.foldl {α : Type} {f : State → α → State} (hf : ∀ t a, Keeps p t (f t a)) (l : List α) (s : State) :
    Keeps p s (l.foldl f s) := by
  induction l generalizing s with
  | nil => exact .refl s
  | cons a l ih => exact (hf s a).trans (ih _)

theorem Keeps.of_storage (h : StorageOnly s t) : Keeps p s t := by
  unfold StorageOnly at h
  exact .of_eq (by rw [h]) (by rw [h]) (by rw [h])

theorem Keeps.of_walk (h : WalkOnly s t) : Keeps p s t := by
  unfold WalkOnly at h
  exact .of_eq (by rw [h]) (by rw [h]) (by rw [h])

theorem State.updLaunch_keeps {f : Launch → Launch} (hf : ∀ l : Launch, l.Kept p (f l)) (s : State) (k : Nat) :
    Keeps p s (s.updLaunch k f) := ⟨rfl, rfl, AMap.related_upd (Launch.Kept.refl p) hf _ k⟩

/-- What is found of a launch is not bound. -/
def State.Unbound (s : State) (lk : Nat) : Prop := ∀ m, AMap.find? s.launches lk = some m → m.st ≠ .bound

theorem State.unbound_of_find {lk : Nat} {l : Launch} (hl : AMap.find? s.launches lk = some l) (hst : l.st ≠ .bound) :
    s.Unbound lk := fun m hm => by
  rw [hl] at hm
  cases hm
  exact hst

/-- A launch that is kept is not bound where it was not. -/
theorem Keeps.unbound {lk : Nat} (h : Keeps p s t) (hs : s.Unbound lk) : t.Unbound lk := fun m hm hb => by
  obtain ⟨l, hl, hk⟩ := h.launches.found lk m hm
  exact hs l hl (hk.bound hb)

/-- A launch that waits for another in U goes on to wait for it. -/
theorem Keeps.mustWait {l : Launch} (h : Keeps p s t) {a b : Launch} (hk : a.Kept p b) (hw : s.mustWait l a = true) :
    t.mustWait l b = true := by
  have hi (l : Launch) : t.imageBytes l = s.imageBytes l := by rw [State.imageBytes, h.images]; rfl
  have hb : s.imageBytes b = s.imageBytes a := by rw [State.imageBytes, hk.image]; rfl
  unfold State.mustWait State.handleClash Launch.follows at *
  rw [hi, hi, hb, hk.vi, hk.ctx, hk.claims, hk.lq, hk.seq]
  simp only [Bool.and_eq_true] at *
  exact ⟨⟨hw.1.1, hk.inU hw.1.2⟩, hw.2⟩

/-! The steps of the loader that keep the launches. -/

theorem State.beginAbort_keeps (s : State) (lk cause code stamp : Nat) : Keeps p s (s.beginAbort lk cause code stamp) := by
  refine s.updLaunch_keeps (fun l => ?_) lk
  have hin : LState.inU .aborting = true := rfl
  split
  · exact ⟨rfl, rfl, rfl, rfl, rfl, rfl, fun h => (nomatch h), fun _ => hin, fun _ => rfl⟩
  · split
    · dsimp only
      split <;> split <;> exact ⟨rfl, rfl, rfl, rfl, rfl, rfl, id, id, fun _ => rfl⟩
    · exact .refl p l

theorem State.assignDrafting_keeps (s : State) : Keeps p s s.assignDrafting := by
  rw [State.assignDrafting_eq]
  refine Keeps.foldl (fun t core => ?_) _ _
  unfold State.assignCore
  split
  · exact .refl t
  · split
    · exact .refl t
    · exact .of_eq rfl rfl rfl

theorem State.requestDraft_keeps (s : State) (vi : Nat) (img key : List Byte) : Keeps p s (s.requestDraft vi img key) := by
  unfold State.requestDraft
  split
  · exact .refl s
  · refine Keeps.trans ?_ (State.assignDrafting_keeps _)
    exact .of_eq rfl rfl rfl

theorem State.requestDrafts_keeps (s : State) (l : Launch) : Keeps p s (s.requestDrafts l) :=
  Keeps.foldl (fun t k => t.requestDraft_keeps _ _ k) _ _

theorem State.markCores_keeps (s : State) (lk : Nat) (cs : List Nat) : Keeps p s (s.markCores lk cs) := .of_eq rfl rfl rfl

theorem State.updStage_keeps (s : State) (lk i : Nat) (f : StageRun → StageRun) : Keeps False s (s.updStage lk i f) :=
  s.updLaunch_keeps (fun l => .of_stages l _) lk

theorem State.dropLeaving_keeps (s : State) (lk : Nat) : Keeps False s (s.dropLeaving lk) :=
  s.updLaunch_keeps (fun l => .of_stages l _) lk

theorem State.deschedule_keeps (s : State) (lk : Nat) : Keeps False s (s.deschedule lk) := by
  unfold State.deschedule
  split
  · exact .refl s
  · refine ((s.markCores_keeps lk _).trans (State.updLaunch_keeps (fun l => ?_) _ lk)).trans (State.dropLeaving_keeps _ lk)
    exact ⟨rfl, rfl, rfl, rfl, rfl, rfl, id, id, False.elim⟩

theorem State.takeCore_keeps (s : State) (lk : Nat) (l : Launch) : Keeps False s (s.takeCore lk l) := by
  unfold State.takeCore
  dsimp only
  split
  · exact s.deschedule_keeps lk
  · split
    · exact .refl s
    · exact ((s.markCores_keeps lk _).trans (State.updStage_keeps ..)).trans (State.dropLeaving_keeps ..)

theorem State.shed_keeps (s : State) (vi ctx n : Nat) : Keeps False s (s.shed vi ctx n) := by
  induction n generalizing s with
  | zero => exact .refl s
  | succ n ih =>
    rw [State.shed]
    split
    · split
      · exact .refl s
      · exact (s.takeCore_keeps _ _).trans (ih _)
    · exact .refl s

theorem State.updContext_keeps (s : State) (vi ctx : Nat) (f : Context → Context) : Keeps p s (s.updContext vi ctx f) :=
  .of_eq rfl rfl rfl

theorem State.updIface_keeps (s : State) (vi : Nat) (f : Iface → Iface) : Keeps p s (s.updIface vi f) := .of_eq rfl rfl rfl

theorem State.moveGrant_keeps (s : State) (v x : Context) (k : Nat) : Keeps p s (s.moveGrant v x k) := by
  have hctx := (s.updContext_keeps (p := p) v.vi v.num fun c => { c with grant := c.grant - k }).trans
    (State.updContext_keeps _ x.vi x.num fun c => { c with grant := c.grant + k })
  unfold State.moveGrant
  dsimp only
  split
  · exact hctx
  · exact (hctx.trans (State.updIface_keeps ..)).trans (State.updIface_keeps ..)

theorem State.takeUnused_keeps (s : State) (x : Context) (n : Nat) : Keeps p s (s.takeUnused x n).1 := by
  unfold State.takeUnused
  refine List.foldlRecOn (motive := fun acc : State × Nat => Keeps p s acc.1) _ _ (.refl s) fun acc h e _ => ?_
  exact h.trans (State.moveGrant_keeps ..)

theorem State.reallocate_keeps (s : State) (x : Context) (n f : Nat) : Keeps False s (s.reallocate x n f) := by
  induction f generalizing s n with
  | zero => exact .refl s
  | succ f ih =>
    rw [State.reallocate]
    split
    · exact .refl s
    · split
      · exact .refl s
      · exact ((s.moveGrant_keeps _ _ _).trans (State.shed_keeps ..)).trans (ih _ _)

theorem State.demandCores_keeps (s : State) (l : Launch) : Keeps False s (s.demandCores l) := by
  unfold State.demandCores
  split
  · exact .refl s
  · refine Keeps.trans ?_ (State.reallocate_keeps ..)
    refine Keeps.trans ?_ (State.takeUnused_keeps ..)
    exact (State.updIface_keeps ..).trans (State.updContext_keeps ..)

/-! Binding itself: the tensor entries and the internal queues (06 R144). -/

theorem State.storeAddr_keeps {sp : Space2} {va pa : Nat} (h : s.storeAddr sp va = .ok (pa, t)) : Keeps p s t := by
  unfold State.storeAddr at h
  split at h
  · cases h
  · split at h
    · cases h
    · split at h
      · cases h
      · cases h
        exact .of_walk (walk_setPtes s _)

theorem State.storeVa_keeps {sp : Space2} {va : Nat} {bs : List Byte} (h : s.storeVa sp va bs = .ok t) : Keeps p s t := by
  unfold State.storeVa at h
  dsimp only at h
  split at h
  · cases h
  · next pas u hfold =>
    cases h
    have hwalk : Keeps p s u := by
      refine List.foldlRecOn (motive := fun acc : Except Flt (List Nat × State) => ∀ pas u, acc = .ok (pas, u) → Keeps p s u)
        _ _ (fun pas u h => ?_) (fun acc ih a _ pas u h => ?_) pas u hfold
      · cases h
        exact .refl s
      · split at h
        · cases h
        · next pas' t' =>
          split at h
          · cases h
          · next ha =>
            cases h
            exact (ih pas' t' rfl).trans (State.storeAddr_keeps ha)
    exact hwalk.trans (Keeps.foldl (fun v e => .of_storage (storage_setBaseLine v 0 _ _ _)) _ _)

theorem State.homeAddr_keeps {sp : Space2} {va pa : Nat} (h : s.homeAddr sp va = .ok (pa, t)) : Keeps p s t := by
  unfold State.homeAddr at h
  split at h
  · cases h
  · split at h
    · cases h
    · split at h
      · cases h
      · cases h
        exact .of_walk (walk_setPtes s _)

theorem State.homeOf_keeps {sp : Space2} {va pa : Nat} (h : s.homeOf sp va = .ok (pa, t)) : Keeps p s t := by
  unfold State.homeOf at h
  split at h
  · cases h
  · next ha =>
    cases h
    exact State.homeAddr_keeps ha

theorem State.dropOps_keeps (s : State) (test : Nat → EngineOp → Bool) : Keeps p s (s.dropOps test) := .of_eq rfl rfl rfl

theorem State.failDelivery_keeps (s : State) (d : Delivery) : Keeps p s (s.failDelivery d) := by
  have hevent : Keeps p s s.configEvent := .of_storage (storage_configEvent s)
  unfold State.failDelivery State.failPage
  dsimp only
  split
  · split
    · exact hevent.trans ((State.dropOps_keeps ..).trans (State.beginAbort_keeps ..))
    · exact hevent
  · exact hevent

theorem State.answer_keeps (s : State) (who : Asker) (r : Except Flt (List (List Byte))) : Keeps p s (s.answer who r) := by
  have hdrop : ∀ l : Launch, l.Kept p { l with deferred := l.deferred.drop 1 } :=
    fun l => ⟨rfl, rfl, rfl, rfl, rfl, rfl, id, id, fun _ => rfl⟩
  cases who with
  | group gk lanes => exact .of_eq rfl rfl rfl
  | append lk =>
    cases r with
    | ok es => exact s.updLaunch_keeps hdrop lk
    | error f => exact (Keeps.of_storage (storage_configEvent s)).trans (State.updLaunch_keeps hdrop _ lk)
  | delivery d =>
    cases r with
    | ok es => exact .refl s
    | error f => exact s.failDelivery_keeps d

theorem State.initQueue_keeps (s : State) (cb : Nat) (bytes : List Byte) : Keeps p s (s.initQueue cb bytes) := by
  have hput : Keeps p s ((s.putBytes cb bytes).setHome cb {}) :=
    Keeps.trans (.of_storage (storage_setBaseLine s 0 _ _ _)) (.of_eq rfl rfl rfl)
  have hask := hput.trans (Keeps.foldl (p := p) (fun t (r : Request) => t.answer_keeps r.who (.error (corruptFault 4)))
    ((s.home cb).wake ++ (s.home cb).polling) _)
  exact hask.trans (.of_eq rfl rfl rfl)

theorem State.bindSpace_keeps (s : State) (satp hgatp : Nat) : Keeps p s (s.bindSpace satp hgatp) := by
  unfold State.bindSpace
  dsimp only
  split <;> exact .of_eq rfl rfl rfl

theorem State.prepareLaunch_keeps {l : Launch} {x : Context} (h : s.prepareLaunch l x = .ok t) : Keeps p s t := by
  unfold State.prepareLaunch at h
  dsimp only at h
  refine List.foldlRecOn (motive := fun acc : Except Refused State => ∀ u, acc = .ok u → Keeps p s u)
    _ _ (fun u hu => ?_) (fun acc ih d _ u hu => ?_) t h
  · refine List.foldlRecOn (motive := fun acc : Except Refused State => ∀ u, acc = .ok u → Keeps p s u)
      _ _ (fun u hu => ?_) (fun acc ih e _ u hu => ?_) u hu
    · cases hu
      exact .refl s
    · split at hu
      · cases hu
      · next v =>
        split at hu
        · next hs =>
          cases hu
          exact (ih v rfl).trans (State.storeVa_keeps hs)
        · cases hu
  · cases acc with
    | error f => cases hu
    | ok v =>
      dsimp only at hu
      split at hu
      · cases hu
        exact ih _ rfl
      · split at hu
        · next hh =>
          cases hu
          exact ((ih v rfl).trans (State.homeOf_keeps hh)).trans (State.initQueue_keeps ..)
        · cases hu

end Sys2Proof.Machine
end

section
/-! The cores that the stages of a launch receive (08 R193 to R195). -/

namespace Sys2Proof.Machine

open Sys2Proof.Safety Sys2Proof.Claims

/-- A fold that collects one result for each element, and keeps an invariant. -/
theorem foldl_collects {α β σ : Type} {f : σ → α → σ} {out : σ → List β} {I : σ → Prop} {P : α → β → Prop}
    {l : List α} (hstep : ∀ a ∈ l, ∀ acc, I acc → I (f acc a) ∧ ∃ b, P a b ∧ out (f acc a) = out acc ++ [b]) {acc : σ}
    (hI : I acc) : ∃ bs, List.Forall₂ P l bs ∧ out (l.foldl f acc) = out acc ++ bs ∧ I (l.foldl f acc) := by
  induction l generalizing acc with
  | nil => exact ⟨[], .nil, (List.append_nil _).symm, hI⟩
  | cons a l ih =>
    obtain ⟨hI', b, hb, hout⟩ := hstep a List.mem_cons_self acc hI
    obtain ⟨bs, hbs, hrest, hlast⟩ := ih (fun a' ha' => hstep a' (List.mem_cons_of_mem a ha')) hI'
    exact ⟨b :: bs, .cons hb hbs, by rw [List.foldl_cons, hrest, hout, List.append_assoc, List.singleton_append], hlast⟩

theorem forall₂_getElem? {α β : Type} {P : α → β → Prop} {l : List α} {bs : List β} (h : List.Forall₂ P l bs) {i : Nat}
    {b : β} (hb : bs[i]? = some b) : ∃ a, l[i]? = some a ∧ P a b := by
  induction h generalizing i with
  | nil => simp at hb
  | cons hab _ ih =>
    cases i with
    | zero =>
      cases hb
      exact ⟨_, rfl, hab⟩
    | succ i => exact ih hb

/-- One stage's turn in a round of 08 R194. -/
def roundStep (acc : List Nat × Nat) (e : (Nat × Nat × Nat × Bool) × Nat) : List Nat × Nat :=
  let k := if e.1.2.2.2 then 4 else 1
  if k ≤ acc.2 ∧ e.2 + k ≤ e.1.2.1 then (acc.1 ++ [e.2 + k], acc.2 - k) else (acc.1 ++ [e.2], acc.2)

theorem roundRobin_succ (ns : List (Nat × Nat × Nat × Bool)) (f : Nat) (cs : List Nat) (left : Nat) :
    roundRobin ns (f + 1) cs left = if ((ns.zip cs).foldl roundStep ([], left)).2 = left then cs
      else roundRobin ns f ((ns.zip cs).foldl roundStep ([], left)).1 ((ns.zip cs).foldl roundStep ([], left)).2 := rfl

/-- The round robin only adds to what each stage has (08 R194). -/
theorem roundRobin_le (ns : List (Nat × Nat × Nat × Bool)) (f : Nat) {cs : List Nat} {left i v : Nat}
    (h : (roundRobin ns f cs left)[i]? = some v) : ∃ c, cs[i]? = some c ∧ c ≤ v := by
  induction f generalizing cs left v with
  | zero => exact ⟨v, h, le_refl v⟩
  | succ f ih =>
    rw [roundRobin_succ] at h
    split at h
    · exact ⟨v, h, le_refl v⟩
    · obtain ⟨w, hw, hwv⟩ := ih h
      have hstep : ∀ e ∈ ns.zip cs, ∀ acc, True → True ∧ ∃ b, e.2 ≤ b ∧ (roundStep acc e).1 = acc.1 ++ [b] := by
        intro e _ acc _
        refine ⟨trivial, ?_⟩
        unfold roundStep
        dsimp only
        generalize (if e.1.2.2.2 then 4 else 1) = k
        split
        · exact ⟨_, Nat.le_add_right .., rfl⟩
        · exact ⟨_, le_refl _, rfl⟩
      obtain ⟨bs, hbs, hout, _⟩ := foldl_collects (out := Prod.fst) (I := fun _ => True)
        (P := fun (e : (Nat × Nat × Nat × Bool) × Nat) b => e.2 ≤ b) hstep (acc := ([], left)) trivial
      rw [hout, List.nil_append] at hw
      obtain ⟨e, he, hle⟩ := forall₂_getElem? hbs hw
      exact ⟨e.2, (List.getElem?_zip_eq_some.1 he).2, hle.trans hwv⟩

/-- Every stage receives at least its minimum (08 R194). -/
theorem stageShares_ge {ns : List (Nat × Nat × Nat × Bool)} {n i v : Nat} (h : (stageShares ns n)[i]? = some v) :
    ∃ e, ns[i]? = some e ∧ e.1 ≤ v := by
  obtain ⟨c, hc, hcv⟩ := roundRobin_le _ _ h
  rw [List.getElem?_map, Option.map_eq_some_iff] at hc
  obtain ⟨e, he, rfl⟩ := hc
  exact ⟨e, he, (Nat.le_add_right ..).trans hcv⟩

theorem takeClusters_subset (free : List Nat) (n : Nat) : takeClusters free n ⊆ free := by
  intro c hc
  simp only [takeClusters, List.mem_flatMap] at hc
  obtain ⟨k, hk, hck⟩ := hc
  have hwhole := (List.mem_filter.1 (List.mem_of_mem_take hk)).2
  simpa using List.all_eq_true.1 hwhole c hck

/-- One stage's turn at the free cores, in whole clusters first and singly then (08 R195). -/
def quadStep (acc : List Nat × List (List Nat)) (w : Nat × Bool) : List Nat × List (List Nat) :=
  let cs := if w.2 then takeClusters acc.1 w.1 else []
  (acc.1.filter fun c => !cs.contains c, acc.2 ++ [cs])
def singleStep (acc : List Nat × List (List Nat)) (w : (Nat × Bool) × List Nat) : List Nat × List (List Nat) :=
  if w.1.2 then (acc.1, acc.2 ++ [w.2]) else (acc.1.drop w.1.1, acc.2 ++ [acc.1.take w.1.1])

theorem quadStep_free {free : List Nat} {acc : List Nat × List (List Nat)} (w : Nat × Bool) (h : acc.1 ⊆ free) :
    (quadStep acc w).1 ⊆ free ∧ ∃ cs, cs ⊆ free ∧ (quadStep acc w).2 = acc.2 ++ [cs] := by
  refine ⟨fun c hc => h (List.mem_filter.1 hc).1, _, ?_, rfl⟩
  split
  · exact List.Subset.trans (takeClusters_subset _ _) h
  · exact List.nil_subset _

theorem singleStep_free {free : List Nat} {acc : List Nat × List (List Nat)} {w : (Nat × Bool) × List Nat} (hw : w.2 ⊆ free)
    (h : acc.1 ⊆ free) : (singleStep acc w).1 ⊆ free ∧ ∃ cs, cs ⊆ free ∧ (singleStep acc w).2 = acc.2 ++ [cs] := by
  unfold singleStep
  split
  · exact ⟨h, _, hw, rfl⟩
  · exact ⟨List.Subset.trans (List.drop_subset _ _) h, _, List.Subset.trans (List.take_subset _ _) h, rfl⟩

/-- The cores that each stage is given, before it is seen whether they are enough. -/
def givenCores (free : List Nat) (wants : List (Nat × Bool)) : List (List Nat) :=
  ((wants.zip (wants.foldl quadStep (free, [])).2).foldl singleStep ((wants.foldl quadStep (free, [])).1, [])).2

theorem assignCores_eq (free : List Nat) (wants : List (Nat × Bool)) : assignCores free wants =
    if (wants.zip (givenCores free wants)).all fun w => w.2.length == w.1.1 then some (givenCores free wants) else none := rfl

theorem givenCores_spec (free : List Nat) (wants : List (Nat × Bool)) {i : Nat} {cs : List Nat}
    (h : (givenCores free wants)[i]? = some cs) : (∃ w, wants[i]? = some w) ∧ cs ⊆ free := by
  obtain ⟨qs, hqs, hquad, hleft⟩ := foldl_collects (out := Prod.snd)
    (I := fun (acc : List Nat × List (List Nat)) => acc.1 ⊆ free) (P := fun _ cs => cs ⊆ free)
    (fun w (_ : w ∈ wants) acc hacc => quadStep_free w hacc) (acc := (free, [])) (List.Subset.refl free)
  have hgiven : ∀ w ∈ wants.zip (wants.foldl quadStep (free, [])).2, w.2 ⊆ free := by
    intro w hw
    obtain ⟨j, hj⟩ := List.getElem?_of_mem (List.of_mem_zip hw).2
    rw [hquad, List.nil_append] at hj
    obtain ⟨_, _, hsub⟩ := forall₂_getElem? hqs hj
    exact hsub
  obtain ⟨bs, hbs, hout, _⟩ := foldl_collects (out := Prod.snd)
    (I := fun (acc : List Nat × List (List Nat)) => acc.1 ⊆ free) (P := fun _ cs => cs ⊆ free)
    (fun w hw acc hacc => singleStep_free (hgiven w hw) hacc) (acc := ((wants.foldl quadStep (free, [])).1, [])) hleft
  rw [givenCores, hout, List.nil_append] at h
  obtain ⟨w, hw, hsub⟩ := forall₂_getElem? hbs h
  exact ⟨⟨w.1, (List.getElem?_zip_eq_some.1 hw).1⟩, hsub⟩

/-- Each stage's cores are as many as it asks for, and free (08 R195). -/
theorem assignCores_spec {free : List Nat} {wants : List (Nat × Bool)} {css : List (List Nat)}
    (h : assignCores free wants = some css) {i : Nat} {cs : List Nat} (hcs : css[i]? = some cs) :
    (∃ w, wants[i]? = some w ∧ cs.length = w.1) ∧ cs ⊆ free := by
  rw [assignCores_eq] at h
  split at h
  · next hlen =>
    cases h
    obtain ⟨⟨w, hw⟩, hsub⟩ := givenCores_spec free wants hcs
    have hmem := List.mem_of_getElem? (List.getElem?_zip_eq_some (z := (w, cs)).2 ⟨hw, hcs⟩)
    exact ⟨⟨w, hw, by simpa using List.all_eq_true.1 hlen _ hmem⟩, hsub⟩
  · cases h

theorem State.not_mem_allCores_of_free {s : State} {c : Nat} (h : c ∈ s.freeCores) {e : Nat × Launch} (he : e ∈ s.launches) :
    c ∉ e.2.allCores := by
  intro hc
  unfold State.freeCores at h
  simp only [List.mem_filter, Bool.not_eq_true', List.contains_eq_mem, decide_eq_false_iff_not] at h
  exact h.2 (List.mem_flatMap.2 ⟨e, he, hc⟩)

/-- A launch that can bind has at least the minimum of each stage, of free cores (08 R193 to R195). -/
theorem State.coresFor_spec {s : State} {l : Launch} {css : List (List Nat)} (h : s.coresFor l = some css) {i : Nat}
    {cs : List Nat} (hcs : css[i]? = some cs) :
    (stageAt (s.imageBytes l) i).minCores ≤ cs.length ∧ cs ⊆ s.freeCores := by
  unfold State.coresFor at h
  split at h
  · cases h
  · dsimp only at h
    split at h
    · cases h
    · obtain ⟨⟨w, hw, hlen⟩, hfree⟩ := assignCores_spec h hcs
      refine ⟨?_, hfree⟩
      obtain ⟨e, he, hle⟩ := stageShares_ge (List.getElem?_zip_eq_some.1 hw).1
      rw [State.stageNeeds, List.getElem?_map, Option.map_eq_some_iff] at he
      obtain ⟨k, hk, rfl⟩ := he
      have hi : k = i := by
        obtain ⟨hlt, hki⟩ := List.getElem?_eq_some_iff.1 hk
        rw [length_span] at hlt
        simpa [getElem?_span 0 _ i hlt] using hk.symm
      subst hi
      exact hlen ▸ hle

end Sys2Proof.Machine
end

section
/-! The binding of a checked record (06 R143 to R145, R152; 08 R193). -/

namespace Sys2Proof.Machine

open Sys2Proof.Safety Sys2Proof.Claims

/-- The later bound launches of a replay's queue that it conflicts with yield (06 R152). -/
def State.yieldTo (s : State) (l : Launch) : State :=
  (s.launches.filter fun e => e.2.follows l && s.mustWait l e.2 && e.2.st != .aborting).foldl
    (fun t e => t.beginAbort e.1 6 0 t.time) s

/-- Step 7 of 06 R144: a launch binds where its stages can have their minima, or where its demand has found them cores. -/
def State.bindIfCores (s : State) (lk : Nat) (l : Launch) (x : Context) : State :=
  match s.coresFor l with
  | some cs => s.bindStages lk l x cs
  | none => s
def State.bindOrDemand (s : State) (lk : Nat) (l : Launch) (x : Context) : State :=
  match s.coresFor l with
  | some cs => s.bindStages lk l x cs
  | none => (s.demandCores l).bindIfCores lk l x

theorem State.bindIfCores_of_some {s : State} {lk : Nat} {l : Launch} {x : Context} {css : List (List Nat)}
    (h : s.coresFor l = some css) : s.bindIfCores lk l x = s.bindStages lk l x css := by rw [State.bindIfCores, h]

theorem State.bindIfCores_of_none {s : State} {lk : Nat} {l : Launch} {x : Context} (h : s.coresFor l = none) :
    s.bindIfCores lk l x = s := by rw [State.bindIfCores, h]

theorem State.bindOrDemand_of_some {s : State} {lk : Nat} {l : Launch} {x : Context} {css : List (List Nat)}
    (h : s.coresFor l = some css) : s.bindOrDemand lk l x = s.bindStages lk l x css := by rw [State.bindOrDemand, h]

theorem State.bindOrDemand_of_none {s : State} {lk : Nat} {l : Launch} {x : Context} (h : s.coresFor l = none) :
    s.bindOrDemand lk l x = (s.demandCores l).bindIfCores lk l x := by rw [State.bindOrDemand, h]

/-- Steps 5 to 7 of 06 R144 for a launch whose drafts are there, unless one in U or the loader's order holds it. -/
def State.bindInTurn (s : State) (lk : Nat) (l : Launch) : State :=
  if s.launches.any fun e => e.1 != lk && s.mustWait l e.2 then s.lendPrio lk l
  else if decide (4096 ≤ s.versions.length)
      || s.launches.any fun e => e.1 != lk && s.takenBefore e (lk, l) && s.ready e.2 then s
  else
    match s.context l.vi l.ctx with
    | none => s
    | some x => s.bindOrDemand lk l x

theorem State.tryBind_eq (s : State) (lk : Nat) (l : Launch) : s.tryBind lk l =
    if s.heldBack l then s
    else if !(s.requestDrafts l).draftsReady l then s.requestDrafts l
    else ((s.requestDrafts l).yieldTo l).bindInTurn lk l := rfl

theorem State.heldBack_iff (s : State) (l : Launch) : s.heldBack l = true ↔
    ∃ e ∈ s.launches, e.2.lq = l.lq ∧ e.2.seq < l.seq ∧ e.2.st ∈ [LState.waitEligible, .checking, .waiting] := by
  simp only [State.heldBack, List.any_eq_true, Bool.and_eq_true, Bool.or_eq_true, beq_iff_eq, decide_eq_true_eq, and_assoc,
    or_assoc, List.mem_cons, List.not_mem_nil, or_false]

theorem State.yieldTo_of_none {s : State} {l : Launch}
    (h : ∀ e ∈ s.launches, e.2.follows l = true → s.mustWait l e.2 = true → e.2.st = .aborting) : s.yieldTo l = s := by
  have hnone : (s.launches.filter fun e => e.2.follows l && s.mustWait l e.2 && e.2.st != .aborting) = [] :=
    List.filter_eq_nil_iff.2 fun e he hn => by
      simp only [Bool.and_eq_true, bne_iff_ne] at hn
      exact hn.2 (h e he hn.1.1 hn.1.2)
  rw [State.yieldTo, hnone]
  rfl

theorem State.yieldTo_keeps {p : Prop} (s : State) (l : Launch) : Keeps p s (s.yieldTo l) :=
  Keeps.foldl (fun t _ => t.beginAbort_keeps ..) _ _

/-- Aborts of several launches reach each of them that runs. -/
theorem find_foldl_beginAbort {es : AMap Launch} (hnodup : (es.map Prod.fst).Nodup) {s : State} {k : Nat} {u : Launch}
    (hmem : (k, u) ∈ es) (hfind : AMap.find? s.launches k = some u) (hrun : u.st.running = true) :
    ∃ m, AMap.find? (es.foldl (fun t e => t.beginAbort e.1 6 0 t.time) s).launches k = some m ∧
      m.st = .aborting ∧ m.cause = 6 := by
  have hother (es : AMap Launch) (h : k ∉ es.map Prod.fst) (s : State) :
      AMap.find? (es.foldl (fun t e => t.beginAbort e.1 6 0 t.time) s).launches k = AMap.find? s.launches k :=
    List.foldlRecOn (motive := fun t : State => AMap.find? t.launches k = AMap.find? s.launches k) _ _ rfl
      fun t ih e he => (State.find_beginAbort_other t _ _ _ fun hk => h (List.mem_map.2 ⟨e, he, hk.symm⟩)).trans ih
  induction es generalizing s with
  | nil => cases hmem
  | cons e es ih =>
    obtain ⟨hfresh, hrest⟩ := List.nodup_cons.1 hnodup
    rw [List.foldl_cons]
    obtain rfl | htail := List.mem_cons.1 hmem
    · exact ⟨_, (hother es hfresh _).trans (State.find_beginAbort hfind (by decide) hrun), rfl, rfl⟩
    · have hne : k ≠ e.1 := fun hk => hfresh (hk ▸ List.mem_map_of_mem htail)
      exact ih hrest htail ((State.find_beginAbort_other _ _ _ _ hne).trans hfind)

theorem State.find_yieldTo {s : State} {k : Nat} {l u : Launch} (hr : AMap.rising s.launches = true)
    (hu : AMap.find? s.launches k = some u) (hfollows : u.follows l = true) (hwait : s.mustWait l u = true)
    (hst : u.st ≠ .aborting) :
    ∃ m, AMap.find? (s.yieldTo l).launches k = some m ∧ m.st = .aborting ∧ m.cause = 6 := by
  refine find_foldl_beginAbort ?_ (List.mem_filter.2 ⟨AMap.mem_of_find? hu, ?_⟩) hu ?_
  · exact (risingFrom_keys_nodup hr).sublist (List.filter_sublist.map _)
  · simp [hfollows, hwait, hst]
  · simp only [State.mustWait, Bool.and_eq_true] at hwait
    have hin := hwait.1.2
    revert hin hst
    cases u.st <;> decide

theorem State.find_lendPrio (s : State) (lk k : Nat) (l : Launch) : AMap.find? (s.lendPrio lk l).launches k =
    (AMap.find? s.launches k).map fun u =>
      if k ≠ lk ∧ s.mustWait l u ∧ s.launchPrio u < s.launchPrio l then { u with prio := s.launchPrio l } else u :=
  AMap.find?_map _ s.launches k

/-- What a launch lends another is its priority alone (08 R190). -/
theorem State.exists_of_find_lendPrio {s : State} {lk k : Nat} {l m : Launch}
    (h : AMap.find? (s.lendPrio lk l).launches k = some m) : ∃ u, AMap.find? s.launches k = some u ∧ m.st = u.st := by
  rw [s.find_lendPrio, Option.map_eq_some_iff] at h
  obtain ⟨u, hu, rfl⟩ := h
  refine ⟨u, hu, ?_⟩
  split <;> rfl

theorem State.bindInTurn_of_conflict {s : State} {lk : Nat} {l : Launch}
    (h : ∃ e ∈ s.launches, e.1 ≠ lk ∧ s.mustWait l e.2 = true) : s.bindInTurn lk l = s.lendPrio lk l :=
  if_pos (by simpa using h)

/-- What a launch does that no launch in U holds, whose drafts are there and whose turn it is (06 R144; 08 R193). -/
theorem State.bindInTurn_of_free {s : State} {lk : Nat} {l : Launch} {x : Context}
    (hfree : ∀ e ∈ s.launches, s.mustWait l e.2 = false) (hroom : s.versions.length < 4096)
    (hturn : ∀ e ∈ s.launches, e.1 ≠ lk → s.takenBefore e (lk, l) = true → s.ready e.2 = false)
    (hx : s.context l.vi l.ctx = some x) : s.bindInTurn lk l = s.bindOrDemand lk l x := by
  unfold State.bindInTurn
  rw [if_neg (by simpa using fun a b h _ => hfree (a, b) h), if_neg ?_, hx]
  simpa [hroom] using fun a b h hne hb => hturn (a, b) h hne hb

theorem State.bindInTurn_of_held {s : State} {lk : Nat} {l : Launch} (hfree : ∀ e ∈ s.launches, s.mustWait l e.2 = false)
    (hheld : 4096 ≤ s.versions.length ∨
      ∃ e ∈ s.launches, e.1 ≠ lk ∧ s.takenBefore e (lk, l) = true ∧ s.ready e.2 = true) : s.bindInTurn lk l = s := by
  unfold State.bindInTurn
  rw [if_neg (by simpa using fun a b h _ => hfree (a, b) h), if_pos ?_]
  simpa [and_assoc] using hheld

theorem exec_launchBind_inTurn {s : State} {lk : Nat} {l : Launch} (hl : AMap.find? s.launches lk = some l)
    (hst : l.st = .waiting) (hck : l.checked = true) (hhead : s.heldBack l = false)
    (hdrafts : (s.requestDrafts l).draftsReady l = true) :
    exec (.launchBind lk) s = .next (((s.requestDrafts l).yieldTo l).bindInTurn lk l) := by
  rw [exec_launchBind_checked hl hst hck, State.tryBind_eq, if_neg (by simp [hhead]), if_neg (by simp [hdrafts])]

/-! What a bound launch holds. -/

theorem AMap.length_put_le {α : Type} (m : AMap α) (n : Nat) (v : α) : (AMap.put m n v).length ≤ m.length + 1 := by
  induction m with
  | nil => exact le_refl _
  | cons e m ih =>
    obtain ⟨k, x⟩ := e
    rw [AMap.put]
    split
    · exact Nat.le_succ _
    · split
      · exact le_refl _
      · exact Nat.succ_le_succ ih

theorem State.assignSlots_launches (s : State) (n : Nat) : (s.assignSlots n).launches = s.launches := by
  induction n generalizing s with
  | zero => rfl
  | succ n ih =>
    rw [State.assignSlots]
    split
    · exact ih _
    · rfl

/-- A record that has ended is gone. -/
theorem State.find_endUnbound (s : State) (lk : Nat) (l : Launch) (status : Nat) :
    AMap.find? (s.endUnbound lk l status).launches lk = none := by
  unfold State.endUnbound State.removeLaunch State.fillSlots
  dsimp only
  rw [State.assignSlots_launches, AMap.find?_del, if_pos rfl]

/-- What a launch that has just bound has: its version entry, and its cores, which no other launch holds (06 R144). -/
structure Binds (s t : State) (lk : Nat) (l m : Launch) : Prop where
  version : AMap.find? t.versions m.attempt = some (ctxKey l.vi l.ctx)
  entries : t.versions.length ≤ s.versions.length + 1
  minima : ∀ (i : Nat) (r : StageRun), m.stages[i]? = some r → (stageAt (s.imageBytes l) i).minCores ≤ r.cores.length
  alone : ∀ (i : Nat) (r : StageRun), m.stages[i]? = some r →
    ∀ core ∈ r.cores, ∀ e ∈ t.launches, e.1 ≠ lk → core ∉ e.2.allCores

theorem AMap.mem_of_mem_upd {α : Type} {m : AMap α} {n : Nat} {f : α → α} {e : Nat × α} (h : e ∈ AMap.upd m n f)
    (hne : e.1 ≠ n) : e ∈ m := by
  unfold AMap.upd at h
  split at h
  · exact (AMap.mem_put h).resolve_left fun he => hne (he ▸ rfl)
  · exact h

theorem AMap.mem_upd_of_mem {α : Type} {m : AMap α} {n : Nat} {f : α → α} {e : Nat × α} (h : e ∈ m) (hne : e.1 ≠ n) :
    e ∈ AMap.upd m n f := by
  unfold AMap.upd
  split
  · exact AMap.mem_put_of_mem h fun he => absurd he hne
  · exact h

/-- A launch whose stages can have cores binds with them, or is refused and gone (06 R144). -/
theorem State.bindStages_binds {s : State} {lk : Nat} {l m : Launch} {x : Context} {css : List (List Nat)}
    (hcss : s.coresFor l = some css) (hm : AMap.find? (s.bindStages lk l x css).launches lk = some m) :
    Binds s (s.bindStages lk l x css) lk l m := by
  unfold State.bindStages at hm ⊢
  cases hprep : s.prepareLaunch l x with
  | error f =>
    rw [hprep] at hm
    exact absurd (hm.symm.trans (State.find_endUnbound ..)) (Option.some_ne_none m)
  | ok t =>
    rw [hprep] at hm
    dsimp only at hm ⊢
    have hkeep : Keeps True s (t.bindSpace x.satp (s.iface l.vi).hgatp) :=
      (State.prepareLaunch_keeps hprep).trans (t.bindSpace_keeps ..)
    generalize t.bindSpace x.satp (s.iface l.vi).hgatp = u at hkeep hm ⊢
    rw [State.updLaunch_launches, AMap.find?_upd_same, Option.map_eq_some_iff] at hm
    obtain ⟨_, _, rfl⟩ := hm
    have hstage (i : Nat) (r : StageRun) (hr : (css.map fun cs => ({ cores := cs } : StageRun))[i]? = some r) :
        (stageAt (s.imageBytes l) i).minCores ≤ r.cores.length ∧ r.cores ⊆ s.freeCores := by
      rw [List.getElem?_map, Option.map_eq_some_iff] at hr
      obtain ⟨cs, hcs, rfl⟩ := hr
      exact State.coresFor_spec hcss hcs
    refine ⟨AMap.find?_put_same .., hkeep.versions ▸ AMap.length_put_le .., fun i r hr => (hstage i r hr).1,
      fun i r hr core hcore e he hne => ?_⟩
    obtain ⟨e', he', _, hkept⟩ := hkeep.launches.back e (AMap.mem_of_mem_upd he hne)
    rw [Launch.allCores, hkept.stages trivial]
    exact State.not_mem_allCores_of_free ((hstage i r hr).2 hcore) he'

/-- A launch that is bound after this binds with the cores that are found for it, at once or after its demand. -/
theorem State.bindOrDemand_binds {s : State} {lk : Nat} {l m : Launch} {x : Context} (hs : s.Unbound lk)
    (hm : AMap.find? (s.bindOrDemand lk l x).launches lk = some m) (hb : m.st = .bound) :
    ∃ u, Keeps False s u ∧ Binds u (s.bindOrDemand lk l x) lk l m := by
  cases hcs : s.coresFor l with
  | some css =>
    rw [State.bindOrDemand_of_some hcs] at hm ⊢
    exact ⟨s, .refl s, State.bindStages_binds hcs hm⟩
  | none =>
    rw [State.bindOrDemand_of_none hcs] at hm ⊢
    have hkeep := s.demandCores_keeps l
    cases hcs' : (s.demandCores l).coresFor l with
    | some css =>
      rw [State.bindIfCores_of_some hcs'] at hm ⊢
      exact ⟨_, hkeep, State.bindStages_binds hcs' hm⟩
    | none =>
      rw [State.bindIfCores_of_none hcs'] at hm
      exact absurd hb (hkeep.unbound hs m hm)

/-- A launch binds in its turn where none in U holds it and a version entry is free. -/
theorem State.bindInTurn_binds {s : State} {lk : Nat} {l m : Launch} (hs : s.Unbound lk)
    (hm : AMap.find? (s.bindInTurn lk l).launches lk = some m) (hb : m.st = .bound) :
    (∀ e ∈ s.launches, e.1 ≠ lk → s.mustWait l e.2 = false) ∧
      ∃ u, Keeps False s u ∧ u.versions.length < 4096 ∧ Binds u (s.bindInTurn lk l) lk l m := by
  by_cases hwait : (s.launches.any fun e => e.1 != lk && s.mustWait l e.2) = true
  · have heq : s.bindInTurn lk l = s.lendPrio lk l := if_pos hwait
    obtain ⟨u, hu, hst⟩ := State.exists_of_find_lendPrio (heq ▸ hm)
    exact absurd (hst.symm.trans hb) (hs u hu)
  by_cases hheld : (decide (4096 ≤ s.versions.length)
      || s.launches.any fun e => e.1 != lk && s.takenBefore e (lk, l) && s.ready e.2) = true
  · have heq : s.bindInTurn lk l = s := (if_neg hwait).trans (if_pos hheld)
    exact absurd hb (hs m (heq ▸ hm))
  cases hx : s.context l.vi l.ctx with
  | none =>
    have heq : s.bindInTurn lk l = s := by rw [State.bindInTurn, if_neg hwait, if_neg hheld, hx]
    exact absurd hb (hs m (heq ▸ hm))
  | some x =>
    have heq : s.bindInTurn lk l = s.bindOrDemand lk l x := by rw [State.bindInTurn, if_neg hwait, if_neg hheld, hx]
    rw [heq] at hm ⊢
    obtain ⟨u, hu, hbinds⟩ := State.bindOrDemand_binds hs hm hb
    have hroom : s.versions.length < 4096 := by
      simp only [Bool.or_eq_true, decide_eq_true_eq, not_or] at hheld
      exact Nat.lt_of_not_le hheld.1
    exact ⟨by simpa using hwait, u, hu, hu.versions ▸ hroom, hbinds⟩

theorem State.tryBind_binds {s : State} {lk : Nat} {l m : Launch} (hs : s.Unbound lk)
    (hm : AMap.find? (s.tryBind lk l).launches lk = some m) (hb : m.st = .bound) :
    (∀ e ∈ s.launches, e.1 ≠ lk → s.mustWait l e.2 = false) ∧
      ∃ u, Keeps False s u ∧ u.versions.length < 4096 ∧ Binds u (s.tryBind lk l) lk l m := by
  rw [State.tryBind_eq] at hm ⊢
  have hdrafts : Keeps False s (s.requestDrafts l) := s.requestDrafts_keeps l
  split at hm
  · exact absurd hb (hs m hm)
  split at hm
  · exact absurd hb (hdrafts.unbound hs m hm)
  next h1 h2 =>
  rw [if_neg h1, if_neg h2]
  have hkeep := hdrafts.trans ((s.requestDrafts l).yieldTo_keeps l)
  obtain ⟨hfree, u, hu, hroom, hbinds⟩ := State.bindInTurn_binds (hkeep.unbound hs) hm hb
  refine ⟨fun e he hne => Bool.eq_false_iff.2 fun hw => ?_, u, hkeep.trans hu, hroom, hbinds⟩
  obtain ⟨e', he', hk, hkept⟩ := hkeep.launches.forth e he
  exact Bool.false_ne_true ((hfree e' he' (hk ▸ hne)).symm.trans (hkeep.mustWait hkept hw))

/-- A launch that waited, with its checks due or done, and is bound after LAUNCH_BIND. -/
theorem exec_launchBind_binds {s t : State} {lk : Nat} {l m : Launch} (hl : AMap.find? s.launches lk = some l)
    (hst : l.st = .waiting) (ht : exec (.launchBind lk) s = .next t) (hm : AMap.find? t.launches lk = some m)
    (hb : m.st = .bound) : (∀ e ∈ s.launches, e.1 ≠ lk → s.mustWait l e.2 = false) ∧
      ∃ u, u.images = s.images ∧ u.versions.length < 4096 ∧ Binds u t lk l m := by
  cases hck : l.checked with
  | true =>
    rw [exec_launchBind_checked hl hst hck] at ht
    cases ht
    have hs : s.Unbound lk := State.unbound_of_find hl (by simp [hst])
    obtain ⟨hfree, u, hu, hroom, hbinds⟩ := State.tryBind_binds hs hm hb
    exact ⟨hfree, u, hu.images, hroom, hbinds⟩
  | false =>
    rw [exec_launchBind_rechecking hl hst hck] at ht
    injection ht with ht
    subst ht
    cases hr : s.recheckLaunch l with
    | error f =>
      rw [hr] at hm
      exact absurd (hm.symm.trans (State.find_endUnbound ..)) (Option.some_ne_none m)
    | ok l' =>
      rw [hr] at hm
      obtain rfl := State.recheckLaunch_ok hr
      have hs : (s.updLaunch lk fun _ => { l with checked := true, st := .waiting }).Unbound lk :=
        State.unbound_of_find (l := { l with checked := true, st := .waiting }) (by simp [hl]) (by simp)
      obtain ⟨hfree, u, hu, hroom, hbinds⟩ := State.tryBind_binds hs hm hb
      exact ⟨fun e he hne => hfree e (AMap.mem_upd_of_mem he hne) hne, u, hu.images, hroom,
        hbinds.version, hbinds.entries, hbinds.minima, hbinds.alone⟩

theorem aRecordBindsInItsTurn : ARecordBindsInItsTurn := by
  refine ⟨fun s lk l hl hst hck => ?_, fun s t lk l m hl hst ht hm hb => ?_⟩
  · refine ⟨fun hheld => ?_, fun hfirst => ?_⟩
    · rw [exec_launchBind_checked hl hst hck, State.tryBind_eq, if_pos ((s.heldBack_iff l).2 hheld)]
    have hhead : s.heldBack l = false := by
      refine Bool.eq_false_iff.2 fun h => ?_
      obtain ⟨e, he, hlq, hseq, hin⟩ := (s.heldBack_iff l).1 h
      exact hfirst e he hlq hseq hin
    dsimp only
    refine ⟨fun hdrafts => ?_, fun hdrafts => ?_⟩
    · rw [exec_launchBind_checked hl hst hck, State.tryBind_eq, if_neg (by simp [hhead]), if_pos (by simp [hdrafts])]
    rw [exec_launchBind_inTurn hl hst hck hhead hdrafts]
    generalize s.requestDrafts l = t
    refine ⟨fun hnone hconflict => ?_, fun hr k u hu hk hfollows hwait hrun => ?_, fun hfree => ?_⟩
    · rw [State.yieldTo_of_none hnone, State.bindInTurn_of_conflict hconflict]
    · obtain ⟨m, hm, hmst, hcause⟩ := State.find_yieldTo hr hu hfollows hwait hrun
      have hkeep : Keeps True t (t.yieldTo l) := t.yieldTo_keeps l
      obtain ⟨u', hu', hkept⟩ := hkeep.launches.found k m hm
      rw [hu] at hu'
      cases hu'
      refine ⟨_, _, congrArg _ (State.bindInTurn_of_conflict ⟨(k, m), AMap.mem_of_find? hm, hk, hkeep.mustWait hkept hwait⟩),
        ((t.yieldTo l).find_lendPrio lk k l).trans (congrArg _ hm), ?_⟩
      dsimp only
      split <;> exact ⟨hmst, hcause⟩
    · rw [State.yieldTo_of_none fun e he _ hw => by simp [hfree e he] at hw]
      refine ⟨fun hheld => by rw [State.bindInTurn_of_held hfree hheld], fun hroom hturn x hx => ?_⟩
      rw [State.bindInTurn_of_free hfree hroom hturn hx]
      exact ⟨fun cs hcs => congrArg _ (State.bindOrDemand_of_some hcs), fun hcs => congrArg _ (State.bindOrDemand_of_none hcs)⟩
  · obtain ⟨hfree, u, himages, hroom, hversion, hentries, hminima, halone⟩ := exec_launchBind_binds hl hst ht hm hb
    refine ⟨hversion, by omega, hfree, fun i r hr => ⟨?_, halone i r hr⟩⟩
    have himage : u.imageBytes l = s.imageBytes l := by rw [State.imageBytes, himages]; rfl
    exact himage ▸ hminima i r hr

/-- Settles O43: the dequeue, the condition, the checks and the binding, each by what its step leaves. -/
theorem aLaunchIsDequeuedCheckedAndBound : Obligations.ALaunchIsDequeuedCheckedAndBound :=
  ⟨aRecordIsDequeuedWithTheNextLsn, aConditionalRecordRunsOrIsSkipped, aRecordIsCheckedBeforeEachBinding,
    aRecordBindsInItsTurn⟩

end Sys2Proof.Machine
end

section
/-! POLLBK (07 R184; 20 R431, R432). -/

namespace Sys2Proof.Machine

open Sys2Proof.Safety Sys2Proof.Claims

/-! What the lanes of an access read. -/

theorem resolveLanes_lanes (s : State) (c : Ctx) (m : MemRef) (sc : Scope) (need : Need) (attr : Nat → Bool)
    (ls : List Nat) : (s.resolveLanes c m sc need attr ls).1.map Prod.fst = ls := by
  induction ls generalizing s with
  | nil => rfl
  | cons l ls ih => exact congrArg (List.cons l) (ih _)

theorem resolvedPlaces_lanes (rs : List (Nat × Resolved)) :
    ((resolvedPlaces rs).map Prod.fst).Sublist (rs.map Prod.fst) := by
  induction rs with
  | nil => exact List.Sublist.slnil
  | cons e rs ih =>
    obtain ⟨l, r⟩ := e
    cases r with
    | ok p => exact ih.cons_cons l
    | fault f => exact ih.cons l
    | hold h => exact ih.cons l

/-- Each lane has one place at most. -/
theorem lanes_nodup_of_clear {s t : State} {c : Ctx} {m : MemRef} {sc : Scope} {need : Need} {attr : Nat → Bool}
    {lanes : List Nat} {ps : List (Nat × Place)} (h : Clear s c m sc need attr lanes t ps) (hl : lanes.Nodup) :
    (ps.map Prod.fst).Nodup := by
  obtain ⟨rs, hrs, -, -, rfl, -⟩ := h
  have hlanes := resolveLanes_lanes s c m sc need attr lanes
  rw [hrs] at hlanes
  exact ((resolvedPlaces_lanes rs).nodup (hlanes.symm ▸ hl))

theorem readPlace_length (s : State) (core : Nat) (p : Place) (n : Nat) : (s.readPlace core p n).1.length = n := by
  cases p with
  | g pa tag cached sc => exact (List.length_map _).trans (length_span _ _)
  | chip oc => exact s.chipBytes_length oc n
  | peer dev va => exact leBytes_length n _
  | held addr sw => exact leBytes_length n 0

theorem overlay_length (p : Place) (bs : List Byte) (lane : Nat) (gs : List GStore) :
    (overlay p bs lane gs).length = bs.length := by
  unfold overlay
  induction gs generalizing bs with
  | nil => rfl
  | cons w gs ih =>
    rw [List.foldl_cons, ih]
    dsimp only
    split
    · rw [List.length_map, length_span]
    · rfl

theorem readLanes_lanes (s : State) (c : Ctx) (n : Nat) (ps : List (Nat × Place)) :
    (s.readLanes c n ps).1.map Prod.fst = ps.map Prod.fst := by
  induction ps generalizing s with
  | nil => rfl
  | cons e ps ih => exact congrArg (List.cons e.1) (ih _)

theorem readLanes_length (s : State) (c : Ctx) (n : Nat) (ps : List (Nat × Place)) :
    ∀ e ∈ (s.readLanes c n ps).1, e.2.length = n := by
  induction ps generalizing s with
  | nil => exact fun _ h => nomatch h
  | cons x ps ih =>
    exact List.forall_mem_cons.2 ⟨(overlay_length ..).trans (readPlace_length ..), ih _⟩

/-! The words that lanes keep. -/

/-- The non-zero words of a poll kept for the lanes that read them. -/
def polled (pos : Nat) (got : AMap Word) (vs : List (Nat × List Byte)) : AMap Word :=
  vs.foldl (fun m e => if leNat e.2 = 0 then m else AMap.put m (pos * 64 + e.1) (BitVec.ofNat 64 (leNat e.2))) got

/-- The word of a lane, where it is not zero. -/
def wordRead (vs : List (Nat × List Byte)) (l : Nat) : Option Word :=
  ((vs.find? fun e => e.1 == l).map fun e => BitVec.ofNat 64 (leNat e.2)).filter fun x => x != 0

theorem wordRead_eq_none {vs : List (Nat × List Byte)} {l : Nat} (h : l ∉ vs.map Prod.fst) : wordRead vs l = none := by
  have hfind : (vs.find? fun e => e.1 == l) = none := List.find?_eq_none.2 fun e he hl =>
    h (beq_iff_eq.1 hl ▸ List.mem_map_of_mem he)
  rw [wordRead, hfind]
  rfl

theorem wordRead_cons (e : Nat × List Byte) (vs : List (Nat × List Byte)) (l : Nat) : wordRead (e :: vs) l =
    if e.1 = l then (some (BitVec.ofNat 64 (leNat e.2))).filter fun x => x != 0 else wordRead vs l := by
  unfold wordRead
  by_cases h : e.1 = l <;> simp [h]

theorem ofNat_leNat_eq_zero {bs : List Byte} (h : bs.length = 8) : BitVec.ofNat 64 (leNat bs) = 0 ↔ leNat bs = 0 := by
  have hlt := leNat_lt bs
  rw [h] at hlt
  rw [← BitVec.toNat_inj, BitVec.toNat_ofNat, Nat.mod_eq_of_lt hlt]
  rfl

theorem find?_polled {vs : List (Nat × List Byte)} (hlanes : (vs.map Prod.fst).Nodup) (hlen : ∀ e ∈ vs, e.2.length = 8)
    (pos : Nat) (got : AMap Word) (l : Nat) :
    AMap.find? (polled pos got vs) (pos * 64 + l) = (wordRead vs l).or (AMap.find? got (pos * 64 + l)) := by
  induction vs generalizing got with
  | nil => rfl
  | cons e vs ih =>
    obtain ⟨he, hrest⟩ := List.nodup_cons.1 hlanes
    obtain ⟨hlen0, hlen'⟩ := List.forall_mem_cons.1 hlen
    refine (ih hrest hlen' _).trans ?_
    have hzero := ofNat_leNat_eq_zero hlen0
    by_cases hl : e.1 = l
    · subst hl
      rw [wordRead_eq_none he, Option.none_or, wordRead_cons, if_pos rfl, Option.filter_some]
      by_cases h0 : leNat e.2 = 0
      · simp [h0]
      · have hword : BitVec.ofNat 64 (leNat e.2) ≠ 0 := fun h => h0 (hzero.1 h)
        rw [if_pos (bne_iff_ne.2 hword), Option.some_or]
        exact (congrArg (AMap.find? · _) (if_neg h0)).trans (AMap.find?_put_same ..)
    · have hother : AMap.find? (if leNat e.2 = 0 then got else
          AMap.put got (pos * 64 + e.1) (BitVec.ofNat 64 (leNat e.2))) (pos * 64 + l) = AMap.find? got (pos * 64 + l) := by
        split
        · rfl
        · exact AMap.find?_put_other _ _ (by omega)
      rw [hother, wordRead_cons, if_neg hl]

/-- A poll keeps what a lane has, and adds to it the non-zero word of a lane that had none. -/
theorem find?_polled_of_unsatisfied {vs : List (Nat × List Byte)} (hlanes : (vs.map Prod.fst).Nodup)
    (hlen : ∀ e ∈ vs, e.2.length = 8) {pos : Nat} {got : AMap Word}
    (hnew : ∀ l ∈ vs.map Prod.fst, AMap.find? got (pos * 64 + l) = none) (l : Nat) :
    AMap.find? (polled pos got vs) (pos * 64 + l) = (AMap.find? got (pos * 64 + l)).or (wordRead vs l) := by
  rw [find?_polled hlanes hlen]
  by_cases hl : l ∈ vs.map Prod.fst
  · rw [hnew l hl, Option.or_none, Option.none_or]
  · rw [wordRead_eq_none hl, Option.or_none, Option.none_or]

/-! The instruction. -/

/-- The end of one poll (20 R432): every lane has its value, or the path backs off. -/
def State.endPoll (u : State) (s : State) (c : Ctx) (d : Operand) (got : AMap Word) : State :=
  let v := u.updCur c fun p => { p with got }
  let key (l : Nat) : Nat := c.pos * 64 + l
  if c.exec.all fun l => (AMap.find? got (key l)).isSome then
    ((v.updGroup c.cur.grp fun g => { g with backoff := 0 }).write c true d
      (c.exec.map fun l => (l, (AMap.find? got (key l)).getD 0))).finish c
  else
    let b := min ((s.grp c).backoff + 1) 7
    (v.updGroup c.cur.grp fun g => { g with backoff := b }).waitOn c (.backoff (s.cycle + 2 ^ b * 64))

theorem exec_pollbk {s t : State} {g : Guard} {sc : Scope} {d : Operand} {m : MemRef} {c : Ctx} {ps : List (Nat × Place)}
    (hc : s.ctx g = some c) (he : c.exec ≠ []) (hclear : Clear s c m (atLeastDevice sc) { n := 8 } isMside c.exec t ps) :
    exec (.pollbk g sc d m) s =
      let r := (t.acquireCaches c.b.core (atLeastDevice sc)).readLanes c 8
        (ps.filter fun e => (AMap.find? c.p.got (c.pos * 64 + e.1)).isNone)
      .next (r.2.endPoll s c d (polled c.pos c.p.got r.1)) := by
  refine (State.issue_of_ctx hc _).trans (congrArg _ ((if_neg (by simpa using he)).trans ?_))
  exact State.access_of_clear hclear _

/-- Settles O24: what a poll keeps is what the lanes had and the non-zero words of the others
(`find?_polled_of_unsatisfied`). -/
theorem pollbkBacksOffUntilEveryLaneSucceeds : Obligations.PollbkBacksOffUntilEveryLaneSucceeds := by
  intro s t g sc d m c ps hc he hclear key r val
  have hnodup : c.exec.Nodup := (State.exec_sorted hc).imp fun h => Nat.ne_of_lt h
  have hlanes : r.1.map Prod.fst = (ps.filter fun e => (AMap.find? c.p.got (key e.1)).isNone).map Prod.fst :=
    readLanes_lanes ..
  have hdistinct : (r.1.map Prod.fst).Nodup := by
    rw [hlanes]
    exact (List.filter_sublist.map _).nodup (lanes_nodup_of_clear hclear hnodup)
  have hnew : ∀ l ∈ r.1.map Prod.fst, AMap.find? c.p.got (key l) = none := fun l hl => by
    rw [hlanes] at hl
    obtain ⟨e, he, rfl⟩ := List.mem_map.1 hl
    exact Option.isNone_iff_eq_none.1 (List.mem_filter.1 he).2
  have hval : ∀ l, AMap.find? (polled c.pos c.p.got r.1) (key l) = val l :=
    find?_polled_of_unsatisfied hdistinct (readLanes_length _ _ _ _) hnew
  obtain ⟨-, hg, -⟩ := State.ctx_eq hc
  have hgrp : s.grp c = c.g := by rw [State.grp, hg]; rfl
  have hrun : exec (.pollbk g sc d m) s = .next (r.2.endPoll s c d (polled c.pos c.p.got r.1)) :=
    exec_pollbk hc he hclear
  have hend : ∀ l, AMap.find? (polled c.pos c.p.got r.1) (c.pos * 64 + l) = val l := hval
  refine ⟨polled c.pos c.p.got r.1, fun l _ => hval l, fun hall => ?_, fun hmiss => ?_⟩
  · rw [hrun, State.endPoll]
    simp only [hend]
    rw [if_pos (List.all_eq_true.2 fun l hl => Option.isSome_iff_ne_none.2 (hall l hl))]
  · obtain ⟨l, hl, hnone⟩ := hmiss
    rw [hrun, State.endPoll]
    simp only [hend, hgrp]
    rw [if_neg, Nat.mul_comm 64]
    intro hall
    have := List.all_eq_true.1 hall l hl
    rw [hnone] at this
    cases this

end Sys2Proof.Machine
end

section
/-! The home of a queue judges an operation (07 R159 to R164, R166, R486; 12 R279). -/

namespace Sys2Proof.Machine

open Sys2Proof.Safety Sys2Proof.Claims

/-- An operation must wait while its condition does not hold, or an earlier request waits for it. -/
theorem mustWait_iff (q : Queue) (h : Home) (full : Bool) (n : Nat) :
    (!q.holds full n || (h.wake ++ h.polling).any fun r => r.full == full) = true ↔
      q.holds full n = false ∨ ∃ r ∈ h.wake ++ h.polling, r.full = full := by
  simp only [Bool.or_eq_true, Bool.not_eq_true', List.any_eq_true, beq_iff_eq]

section Judged

variable {s : State} {cb : Nat} {sp : Space2} {who : Party}

theorem State.homeAllows_iff (s : State) (cb : Nat) (who : Party) : s.homeAllows cb who = true ↔ match who with
    | .agent vi => s.ownsQueue vi cb = true
    | .device vi ctx => s.ownsQueue vi cb = true ∧ ((s.queue cb).owner = 0 ∨ (s.queue cb).owner = ctx)
    | .core vi ctx die => s.ownsQueue vi cb = true ∧ ((s.queue cb).owner = 0 ∨ (s.queue cb).owner = ctx) ∧
        ((s.queue cb).mdie = true ∨ (s.home cb).bound = none ∨ (s.home cb).bound = some die) := by
  cases who with
  | agent vi => exact Iff.rfl
  | device vi ctx => simp only [State.homeAllows, Bool.and_eq_true, Bool.or_eq_true, beq_iff_eq]
  | core vi ctx die =>
    simp only [State.homeAllows, Bool.and_eq_true, Bool.or_eq_true, beq_iff_eq, and_assoc]
    cases (s.home cb).bound <;> simp

/-! What stops an operation: the right, what an error has destroyed, the control block, its area. -/

theorem State.homeSound_of_denied (h : s.homeAllows cb who = false) :
    s.homeSound cb sp who = some (.fault (permFault 4 0) (s.serve cb)) := by
  rw [State.homeSound, if_pos (by rw [h]; rfl)]

section Allowed

variable (ha : s.homeAllows cb who = true)

include ha

theorem State.homeSound_of_destroyed (hc : (s.home cb).corrupt = 0) (hp : s.poisoned 0 (cb / 64) = true) :
    s.homeSound cb sp who = some (.lost ((s.loseQueue cb).serve cb)) := by
  rw [State.homeSound, if_neg (by simp [ha]), if_pos ⟨hc, hp⟩]

variable (hd : (s.home cb).corrupt ≠ 0 ∨ s.poisoned 0 (cb / 64) = false)

include hd

theorem State.homeSound_of_corrupt (hk : s.corruption cb ≠ 0) :
    s.homeSound cb sp who = some (.fault (corruptFault (s.corruption cb))
      ((s.setCorrupt cb (s.corruption cb)).serve cb)) := by
  rw [State.homeSound, if_neg (by simp [ha]), if_neg (fun h => hd.elim (fun hn => hn h.1) (by simp [h.2]))]
  split
  · next h => exact absurd h hk
  · rfl

variable (hk : s.corruption cb = 0)

include hk

theorem State.homeSound_of_badArea {f : Flt}
    (hf : areaFlags sp.attrs (s.queue cb).base ((s.queue cb).cap * (s.queue cb).esize) = .error f) :
    s.homeSound cb sp who = some (.fault f (s.serve cb)) := by
  rw [State.homeSound, if_neg (by simp [ha]), if_neg (fun h => hd.elim (fun hn => hn h.1) (by simp [h.2]))]
  simp only [hk, hf]

theorem State.homeSound_of_sound
    (hf : areaFlags sp.attrs (s.queue cb).base ((s.queue cb).cap * (s.queue cb).esize) = .ok ()) :
    s.homeSound cb sp who = none := by
  rw [State.homeSound, if_neg (by simp [ha]), if_neg (fun h => hd.elim (fun hn => hn h.1) (by simp [h.2]))]
  simp only [hk, hf]

end Allowed

variable {full block : Bool} {n size : Nat} {es : List (List Byte)}

theorem State.homeTry_of_stopped {a : HomeAns} (h : s.homeSound cb sp who = some a) :
    s.homeTry cb sp who full n size block es = a := by rw [State.homeTry, h]

section Sound

variable (h : s.homeSound cb sp who = none)

include h

theorem State.homeTry_of_badCount {f : Flt} (hf : (s.queue cb).countFault n size block = some f) :
    s.homeTry cb sp who full n size block es = .fault f (s.serve cb) := by
  rw [State.homeTry, h]
  dsimp only
  rw [hf]

variable (hf : (s.queue cb).countFault n size block = none)

include hf

/-! An operation that passes every check is turned away while it must wait; else it meets what is destroyed, or performs. -/

theorem State.homeTry_of_waits (hw : (s.queue cb).holds full n = false ∨
    ∃ r ∈ (s.home cb).wake ++ (s.home cb).polling, r.full = full) :
    s.homeTry cb sp who full n size block es = .turned ((s.bindHome cb who).serve cb) := by
  rw [State.homeTry, h]
  dsimp only
  rw [hf]
  exact if_pos ((mustWait_iff _ _ full n).2 hw)

variable (hgo : ¬ ((s.queue cb).holds full n = false ∨ ∃ r ∈ (s.home cb).wake ++ (s.home cb).polling, r.full = full))

include hgo

theorem State.homeTry_of_lost (hl : s.queueLost cb sp full n = true) :
    s.homeTry cb sp who full n size block es = .lost ((s.loseQueue cb).serve cb) := by
  rw [State.homeTry, h]
  dsimp only
  rw [hf]
  exact (if_neg (mt (mustWait_iff _ _ full n).1 hgo)).trans (if_pos hl)

variable (hl : s.queueLost cb sp full n = false)

include hl

theorem State.homeTry_of_failed {f : Flt} (hp : s.homePerform cb sp full n es = .error f) :
    s.homeTry cb sp who full n size block es = .fault f (s.serve cb) := by
  rw [State.homeTry, h]
  dsimp only
  rw [hf]
  refine (if_neg (mt (mustWait_iff _ _ full n).1 hgo)).trans ((if_neg (by simp [hl])).trans ?_)
  rw [hp]

theorem State.homeTry_of_performed {r : List (List Byte)} {u : State} (hp : s.homePerform cb sp full n es = .ok (r, u)) :
    s.homeTry cb sp who full n size block es = .done r ((u.bindHome cb who).serve cb) := by
  rw [State.homeTry, h]
  dsimp only
  rw [hf]
  refine (if_neg (mt (mustWait_iff _ _ full n).1 hgo)).trans ((if_neg (by simp [hl])).trans ?_)
  rw [hp]

end Sound

end Judged

theorem Queue.holds_eq_false_iff (q : Queue) (full : Bool) (n : Nat) :
    q.holds full n = false ↔ (if full then q.free else q.count) < n := by
  cases full <;> simp [Queue.holds]

section Count

variable {q : Queue} {n size : Nat} {block : Bool}

theorem Queue.countFault_of_size (h : size ≠ q.esize) :
    q.countFault n size block = some { code := .queueElementSize, detail := size } := if_pos h

theorem Queue.countFault_of_form (hs : size = q.esize) (h : q.cap < n ∨ (block = true ∧ q.blk = false)) :
    q.countFault n size block = some { code := .illegalOperand, detail := 1 } := by
  rw [Queue.countFault, if_neg (not_not.2 hs)]
  by_cases hn : q.cap < n
  · rw [if_pos hn]
  · obtain ⟨hb, hq⟩ := h.resolve_left hn
    rw [if_neg hn, if_pos ⟨hb, by rw [hq]; rfl⟩]

theorem Queue.countFault_of_good (hs : size = q.esize) (hn : n ≤ q.cap) (hb : block = true → q.blk = true) :
    q.countFault n size block = none := by
  rw [Queue.countFault, if_neg (not_not.2 hs), if_neg (Nat.not_lt.2 hn), if_neg]
  rintro ⟨h, hq⟩
  rw [hb h] at hq
  cases hq

end Count

/-- Settles O27: what stops an operation in order (`State.homeSound`), its counts (`Queue.countFault`), and what one that
passes meets (`State.homeTry_of_waits` and those after it). -/
theorem theHomeJudgesAnOperationInOrder : Obligations.TheHomeJudgesAnOperationInOrder := by
  intro s cb sp who full block n size es run q h
  refine ⟨s.homeAllows_iff cb who, fun hdenied => State.homeTry_of_stopped (State.homeSound_of_denied hdenied), fun ha =>
    ⟨fun hc hp => State.homeTry_of_stopped (State.homeSound_of_destroyed ha hc hp), fun hd => ⟨fun hk =>
      State.homeTry_of_stopped (State.homeSound_of_corrupt ha hd hk), fun hk => ?_⟩⟩⟩
  refine ⟨fun f hf => State.homeTry_of_stopped (State.homeSound_of_badArea ha hd hk hf), fun harea => ?_⟩
  have hnone := State.homeSound_of_sound ha hd hk harea
  refine ⟨fun hs => State.homeTry_of_badCount hnone (Queue.countFault_of_size hs),
    fun hs hform => State.homeTry_of_badCount hnone (Queue.countFault_of_form hs hform), fun hs hn hb => ?_⟩
  have hcount := Queue.countFault_of_good hs hn hb
  refine ⟨fun hwait => State.homeTry_of_waits hnone hcount (hwait.imp_left (Queue.holds_eq_false_iff _ _ _).2),
    fun hroom hfirst => ?_⟩
  have hgo : ¬ (q.holds full n = false ∨ ∃ r ∈ h.wake ++ h.polling, r.full = full) := by
    rintro (hhold | ⟨r, hr, hsame⟩)
    · exact Nat.not_lt.2 hroom ((Queue.holds_eq_false_iff _ _ _).1 hhold)
    · exact hfirst r hr hsame
  exact ⟨State.homeTry_of_lost hnone hcount hgo, fun hl =>
    ⟨fun f => State.homeTry_of_failed hnone hcount hgo hl, fun r u => State.homeTry_of_performed hnone hcount hgo hl⟩⟩

end Sys2Proof.Machine
end

section
/-! The barrier instructions: BARARM, BARARR and BARROT (07 R174, R175, R178; 17 R355 to R357). -/

namespace Sys2Proof.Machine

open Sys2Proof.Safety Sys2Proof.Claims

/-- What an instruction that acts once for its path makes of the state. -/
def outcomeOf (e : Effect) (s : State) (c : Ctx) : State :=
  if c.exec = [] then s.finish c
  else
    match e.fault s c with
    | some f => s.raise c f
    | none => (e.eff s c).finish c

section Outcome

variable {e : Effect} {s : State} {c : Ctx}

theorem outcomeOf_idle (he : c.exec = []) : outcomeOf e s c = s.finish c := if_pos he

theorem outcomeOf_fault (he : c.exec ≠ []) {f : Flt} (hf : e.fault s c = some f) : outcomeOf e s c = s.raise c f := by
  rw [outcomeOf, if_neg he, hf]

theorem outcomeOf_effect (he : c.exec ≠ []) (hf : e.fault s c = none) : outcomeOf e s c = (e.eff s c).finish c := by
  rw [outcomeOf, if_neg he, hf]

end Outcome

/-- A table of effects holds of its instructions where each ends as its row says. -/
theorem acts_of_outcome {table : Instr → Option Effect}
    (h : ∀ (i : Instr) (e : Effect) (s : State) (c : Ctx), table i = some e → s.ctx e.guard = some c →
      exec i s = .next (outcomeOf e s c)) : Acts table := by
  intro i e s c hi hc
  rw [h i e s c hi hc]
  exact ⟨fun he => congrArg _ (outcomeOf_idle he), fun he hf => congrArg _ (outcomeOf_effect he hf),
    fun f he hf => congrArg _ (outcomeOf_fault he hf)⟩

theorem laneFaults_of_test (ls : List Nat) (p : Nat → Prop) [DecidablePred p] (f : Flt) :
    (laneFaults ls fun l => if p l then some f else none) = (ls.filter fun l => decide (p l)).map fun l => (l, f) := by
  induction ls with
  | nil => rfl
  | cons l ls ih =>
    have hcons : (laneFaults (l :: ls) fun l => if p l then some f else none) =
        (if p l then [(l, f)] else []) ++ laneFaults ls fun l => if p l then some f else none := by
      by_cases hp : p l <;> simp [laneFaults, hp]
    rw [hcons, ih]
    by_cases hp : p l <;> simp [hp]

/-- Lanes that raise one fault are all named in its record (17 R340). -/
theorem State.raiseLanes_same (s : State) (c : Ctx) {f : Flt} (hf : f.lost = false) {ls : List Nat} (hls : ls ≠ []) :
    s.raiseLanes c (ls.map fun l => (l, f)) = s.raise c { f with lanes := maskOf ls } := by
  obtain ⟨l, ls, rfl⟩ := List.exists_cons_of_ne_nil hls
  have hlost : ((l :: ls).map fun l => (l, f)).any (fun e => e.2.lost) = f.lost := by
    rw [hf, List.any_eq_false]
    simp [hf]
  have hall : (((l :: ls).map fun l => (l, f)).filter fun e => e.2.code == f.code && e.2.detail == f.detail).map
      (fun e => e.1) = l :: ls := by
    rw [List.filter_eq_self.2 (by simp), List.map_map]
    exact List.map_id _
  unfold State.raiseLanes
  simp only [List.map_cons] at hlost hall ⊢
  rw [hlost, hall]

/-! BARARR, by what each of its checks answers. -/

theorem ends_lanes_iff {fs : List (Nat × Flt)} {t u : State} {bad : List (Nat × Flt) → State} :
    (match fs with | [] => t | fs => bad fs) = u ↔ (fs = [] → t = u) ∧ (fs ≠ [] → bad fs = u) := by
  cases fs <;> simp

theorem ends_slot_iff {r : Except Flt Nat} {u : State} {bad : Flt → State} {good : Nat → State} :
    (match r with | .error f => bad f | .ok t => good t) = u ↔
      (∀ f, r = .error f → bad f = u) ∧ ∀ t, r = .ok t → good t = u := by
  cases r <;> simp

theorem ends_arrival_iff {r : Option State} {u bad : State} {good : State → State} :
    (match r with | some t => good t | none => bad) = u ↔ (∀ t, r = some t → good t = u) ∧ (r = none → bad = u) := by
  cases r <;> simp

theorem State.arrive_none_iff {s : State} {bk : Nat} {b : Block} {l : Launch} {n t a : Nat} :
    s.arrive bk b l n t a 0 = none ↔ (s.slotAt b l n t).arrivals < a := by
  simp [State.arrive]

/-- What arrivals make of a slot that they do not overrun (07 R175). -/
theorem State.arrive_eq_some {s u : State} {bk : Nat} {b : Block} {l : Launch} {n t a : Nat}
    (h : s.arrive bk b l n t a 0 = some u) : a ≤ (s.slotAt b l n t).arrivals ∧
      (let x := s.slotAt b l n t
       let done := x.complete || (x.arrivals - a == 0 && x.bytes == 0)
       let v := s.setSlot b l n t { arrivals := x.arrivals - a, complete := done, bytes := x.bytes }
       if done then v.wakeSlot bk n t else v) = u := by
  have hle : a ≤ (s.slotAt b l n t).arrivals := Nat.not_lt.1 fun hlt =>
    Option.some_ne_none u (h.symm.trans (State.arrive_none_iff.2 hlt))
  have hzero : ((s.slotAt b l n t).arrivals == a) = ((s.slotAt b l n t).arrivals - a == 0) := by
    rw [Bool.eq_iff_iff, beq_iff_eq, beq_iff_eq]
    omega
  unfold State.arrive at h
  dsimp only at h
  rw [if_neg (by omega), hzero] at h
  exact ⟨hle, Option.some.inj h⟩

theorem State.barSlot_of_lt {s : State} {b : Block} {l : Launch} {n k : Nat} (h : k < s.barDepth b l n) :
    s.barSlot b l n k = .ok ((s.barBase b l n + k) % s.barDepth b l n) := if_neg (Nat.not_le.2 h)

theorem State.barSlot_of_le {s : State} {b : Block} {l : Launch} {n k : Nat} (h : s.barDepth b l n ≤ k) :
    s.barSlot b l n k = .error { code := .barrierOverrun, detail := n + k * 256 + 2048 } := if_pos h

theorem State.barSlot_eq_ok {s : State} {b : Block} {l : Launch} {n k t : Nat} (h : s.barSlot b l n k = .ok t) :
    k < s.barDepth b l n ∧ (s.barBase b l n + k) % s.barDepth b l n = t := by
  by_cases hk : k < s.barDepth b l n
  · exact ⟨hk, Except.ok.inj ((State.barSlot_of_lt hk).symm.trans h)⟩
  · cases (State.barSlot_of_le (Nat.not_lt.1 hk)).symm.trans h

theorem State.barSlot_eq_error {s : State} {b : Block} {l : Launch} {n k : Nat} {f : Flt}
    (h : s.barSlot b l n k = .error f) :
    s.barDepth b l n ≤ k ∧ { code := .barrierOverrun, detail := n + k * 256 + 2048 } = f := by
  by_cases hk : k < s.barDepth b l n
  · cases (State.barSlot_of_lt hk).symm.trans h
  · exact ⟨Nat.not_lt.1 hk, Except.error.inj ((State.barSlot_of_le (Nat.not_lt.1 hk)).symm.trans h)⟩

theorem State.updBlock_of_find {u : State} {k : Nat} {b : Block} (h : AMap.find? u.blocks k = some b) (f : Block → Block) :
    u.updBlock k f = { u with blocks := AMap.put u.blocks k (f b) } := by rw [State.updBlock, AMap.upd, h]

theorem storage_setSlot (s : State) (b : Block) (l : Launch) (n t : Nat) (x : BarSlot) :
    StorageOnly s (s.setSlot b l n t x) := storage_setChipBytes ..

theorem storage_setBarField (s : State) (b : Block) (l : Launch) (n off w x : Nat) :
    StorageOnly s (s.setBarField b l n off w x) := storage_setChipBytes ..

theorem blocks_setSlot_setBarField (s : State) (b : Block) (l : Launch) (n t : Nat) (x : BarSlot) (m off w y : Nat) :
    ((s.setSlot b l n t x).setBarField b l m off w y).blocks = s.blocks :=
  (SameIssue.of_storage ((storage_setSlot s b l n t x).trans (storage_setBarField _ b l m off w y))).2.1

section Instructions

variable {s : State} {g : Guard} {c : Ctx} (hc : s.ctx g = some c) {e : Effect} {n : Nat}

theorem fault_bararm {depth arrivals bytes : Operand} (hrow : barrierEffect (.bararm g n depth arrivals bytes) = some e) :
    e.fault s c = if s.u32 c c.lead depth < 1 ∨ 8 < s.u32 c c.lead depth then some (whole c .illegalOperand 1)
      else if 65535 < s.u32 c c.lead arrivals then some (whole c .illegalOperand 2)
      else if s.barWaiter c.g.block n = true ∨ s.transferDue c.g.block n = true then
        some (whole c .barrierOverrun (n + 2048))
      else none := by
  cases hrow
  rfl

theorem fault_bararr {k : Nat} {count : Operand} (hrow : barrierEffect (.bararr g n k count) = some e) :
    e.fault s c = if (c.exec.filter fun l => decide (65535 < s.u32 c l count)) ≠ [] then
        some { code := .illegalOperand, detail := 1
               lanes := maskOf (c.exec.filter fun l => decide (65535 < s.u32 c l count)) }
      else if s.barDepth c.b c.l n ≤ k then some (whole c .barrierOverrun (n + k * 256 + 2048))
      else if (s.slotAt c.b c.l n ((s.barBase c.b c.l n + k) % s.barDepth c.b c.l n)).arrivals <
          (c.exec.map fun l => s.u32 c l count).sum then
        some (whole c .barrierOverrun (n + (s.barBase c.b c.l n + k) % s.barDepth c.b c.l n * 256))
      else none := by
  cases hrow
  rfl

theorem fault_barrot (hrow : barrierEffect (.barrot g n) = some e) :
    e.fault s c = if s.barDepth c.b c.l n = 0 then some (whole c .barrierOverrun (n + 2048))
      else if (s.slotAt c.b c.l n (s.barBase c.b c.l n)).complete = false then
        some (whole c .barrierOverrun (n + s.barBase c.b c.l n * 256))
      else none := by
  cases hrow
  rfl

include hc

theorem exec_bararm {depth arrivals bytes : Operand} (hrow : barrierEffect (.bararm g n depth arrivals bytes) = some e) :
    exec (.bararm g n depth arrivals bytes) s = .next (outcomeOf e s c) := by
  have hfault := fault_bararm (s := s) (c := c) hrow
  refine (State.issue_of_ctx hc _).trans (congrArg _ ?_)
  by_cases he : c.exec = []
  · exact (if_pos (List.isEmpty_iff.2 he)).trans (outcomeOf_idle he).symm
  refine (if_neg (mt List.isEmpty_iff.1 he)).trans ?_
  by_cases hd : s.u32 c c.lead depth < 1 ∨ 8 < s.u32 c c.lead depth
  · rw [if_pos hd] at hfault
    exact (if_pos hd).trans (outcomeOf_fault he hfault).symm
  rw [if_neg hd] at hfault
  refine (if_neg hd).trans ?_
  by_cases ha : 65535 < s.u32 c c.lead arrivals
  · rw [if_pos ha] at hfault
    exact (if_pos ha).trans (outcomeOf_fault he hfault).symm
  rw [if_neg ha] at hfault
  refine (if_neg ha).trans ?_
  by_cases hbusy : s.barWaiter c.g.block n = true ∨ s.transferDue c.g.block n = true
  · rw [if_pos hbusy] at hfault
    exact (if_pos (Bool.or_eq_true_iff.2 hbusy)).trans (outcomeOf_fault he hfault).symm
  · rw [if_neg hbusy] at hfault
    cases hrow
    exact (if_neg (mt Bool.or_eq_true_iff.1 hbusy)).trans (outcomeOf_effect he hfault).symm

theorem exec_bararr {k : Nat} {count : Operand} (hrow : barrierEffect (.bararr g n k count) = some e) :
    exec (.bararr g n k count) s = .next (outcomeOf e s c) := by
  have hfault := fault_bararr (s := s) (c := c) hrow
  have hlanes := laneFaults_of_test c.exec (fun l => 65535 < s.u32 c l count) { code := .illegalOperand, detail := 1 }
  refine (State.issue_of_ctx hc _).trans (congrArg _ ?_)
  by_cases he : c.exec = []
  · exact (if_pos (List.isEmpty_iff.2 he)).trans (outcomeOf_idle he).symm
  refine (if_neg (mt List.isEmpty_iff.1 he)).trans (ends_lanes_iff.2 ⟨fun hnil => ?_, fun hne => ?_⟩)
  · rw [if_neg (not_not.2 (List.map_eq_nil_iff.1 (hlanes.symm.trans hnil)))] at hfault
    -- The slot named and what an arrival leaves stand as variables, so that the cases are those of the two answers.
    obtain ⟨r, hr⟩ : ∃ r, s.barSlot c.b c.l n k = r := ⟨_, rfl⟩
    obtain ⟨arrive, harrive⟩ : ∃ F : Nat → Nat → Option State, ∀ t a, s.arrive c.g.block c.b c.l n t a 0 = F t a :=
      ⟨_, fun _ _ => rfl⟩
    simp only [hr, harrive, ← List.sum_eq_foldl]
    refine ends_slot_iff.2 ⟨fun f hf => ?_, fun t ht => ?_⟩
    · obtain ⟨hk, rfl⟩ := State.barSlot_eq_error (hr.trans hf)
      rw [if_pos hk] at hfault
      exact (outcomeOf_fault he hfault).symm
    · obtain ⟨hk, rfl⟩ := State.barSlot_eq_ok (hr.trans ht)
      rw [if_neg (Nat.not_le.2 hk)] at hfault
      refine ends_arrival_iff.2 ⟨fun u hu => ?_, fun hnone => ?_⟩
      · obtain ⟨hle, rfl⟩ := State.arrive_eq_some ((harrive _ _).trans hu)
        rw [if_neg (Nat.not_lt.2 hle)] at hfault
        rw [outcomeOf_effect he hfault]
        cases hrow
        rfl
      · rw [if_pos (State.arrive_none_iff.1 ((harrive _ _).trans hnone))] at hfault
        exact (outcomeOf_fault he hfault).symm
  · have hbad : (c.exec.filter fun l => decide (65535 < s.u32 c l count)) ≠ [] := fun h =>
      hne (hlanes.trans (congrArg (List.map _) h))
    rw [if_pos hbad] at hfault
    rw [outcomeOf_fault he hfault]
    exact (congrArg (s.raiseLanes c) hlanes).trans (s.raiseLanes_same c rfl hbad)

theorem exec_barrot (hrow : barrierEffect (.barrot g n) = some e) :
    exec (.barrot g n) s = .next (outcomeOf e s c) := by
  have hfault := fault_barrot (s := s) (c := c) hrow
  obtain ⟨-, -, -, hb, -⟩ := State.ctx_eq hc
  refine (State.issue_of_ctx hc _).trans (congrArg _ ?_)
  by_cases he : c.exec = []
  · exact (if_pos (List.isEmpty_iff.2 he)).trans (outcomeOf_idle he).symm
  refine (if_neg (mt List.isEmpty_iff.1 he)).trans ?_
  by_cases hd : s.barDepth c.b c.l n = 0
  · rw [if_pos hd] at hfault
    exact (if_pos hd).trans (outcomeOf_fault he hfault).symm
  rw [if_neg hd] at hfault
  refine (if_neg hd).trans ?_
  by_cases hs : (s.slotAt c.b c.l n (s.barBase c.b c.l n)).complete = false
  · rw [if_pos hs] at hfault
    exact (if_pos (by simp [hs])).trans (outcomeOf_fault he hfault).symm
  · rw [if_neg hs] at hfault
    refine (if_neg (by simpa using hs)).trans (Eq.trans ?_ (outcomeOf_effect he hfault).symm)
    have hfind := (congrArg (AMap.find? · c.g.block) (blocks_setSlot_setBarField s c.b c.l n (s.barBase c.b c.l n)
      (armedSlot (s.barField c.b c.l n 2 2) (s.barField c.b c.l n 4 4)) n 1 1
      ((s.barBase c.b c.l n + 1) % s.barDepth c.b c.l n))).trans hb
    cases hrow
    exact congrArg (State.finish · c) (State.updBlock_of_find hfind _)

end Instructions

theorem barrierInstructionsActOnTheirObject : BarrierInstructionsActOnTheirObject := by
  refine acts_of_outcome fun i e s c hi hc => ?_
  cases i with
  | bararm g n depth arrivals bytes =>
    obtain rfl : e.guard = g := by cases hi; rfl
    exact exec_bararm hc hi
  | bararr g n k count =>
    obtain rfl : e.guard = g := by cases hi; rfl
    exact exec_bararr hc hi
  | barrot g n =>
    obtain rfl : e.guard = g := by cases hi; rfl
    exact exec_barrot hc hi
  | _ => cases hi

end Sys2Proof.Machine
end

section
/-! The slots of a barrier object (07 R173, Table 7.5; 17 R355). -/

namespace Sys2Proof.Machine

open Sys2Proof.Safety Sys2Proof.Claims

theorem State.chipBytes_congr {s t : State} {oc n : Nat} (h : ∀ i < n, t.chipByte (oc + i) = s.chipByte (oc + i)) :
    t.chipBytes oc n = s.chipBytes oc n := by
  refine List.map_congr_left fun x hx => ?_
  obtain ⟨hlo, hhi⟩ := (mem_span _ _ _).1 hx
  have := h (x - oc) (by omega)
  rwa [Nat.add_sub_cancel' hlo] at this

/-- Bytes that were written read back, whole or in part. -/
theorem State.chipBytes_setChipBytes_within (s : State) {oc k w : Nat} {bs : List Byte} (h : InScratch oc bs.length)
    (hw : k + w ≤ bs.length) : (s.setChipBytes oc bs).chipBytes (oc + k) w = (bs.drop k).take w := by
  have hlen : ((bs.drop k).take w).length = w := by
    rw [List.length_take, List.length_drop]
    omega
  have hread := State.chipBytes_eq (s := s.setChipBytes oc bs) (oc := oc + k) (bs := (bs.drop k).take w) fun i hi => by
    rw [hlen] at hi
    rw [State.chipByte_setChipBytes_any s h, if_pos (by omega), show oc + k + i - oc = k + i by omega]
    simp [List.getD_eq_getElem?_getD, hi]
  rwa [hlen] at hread

theorem State.chipBytes_setChipBytes_apart (s : State) {oc x w : Nat} {bs : List Byte} (h : InScratch oc bs.length)
    (hx : x + w ≤ oc ∨ oc + bs.length ≤ x) : (s.setChipBytes oc bs).chipBytes x w = s.chipBytes x w :=
  State.chipBytes_congr fun i hi => by rw [State.chipByte_setChipBytes_any s h, if_neg (by omega)]

section Object

variable {s t : State} {b : Block} {l : Launch} {n m off w : Nat}

theorem ScratchOnly.barAddr_eq (h : ScratchOnly s t) : t.barAddr b l n off = s.barAddr b l n off := by
  rw [h]
  rfl

theorem ScratchOnly.pageInScratch (h : ScratchOnly s t) (hp : PageInScratch s b l) : PageInScratch t b l := by
  rw [h]
  exact hp

theorem barAddr_add (s : State) (b : Block) (l : Launch) (n off : Nat) :
    s.barAddr b l n off = s.barAddr b l 0 0 + n * 128 + off := by
  unfold State.barAddr spadChip
  omega

variable (hp : PageInScratch s b l)

include hp

/-- An object lies in the scratchpad of its core. -/
theorem inScratch_barAddr (hn : n < 32) (hoff : off + w ≤ 128) : InScratch (s.barAddr b l n off) w := by
  obtain ⟨hcore, hsize, hend⟩ := hp
  unfold InScratch State.barAddr spadChip
  omega

/-- The scratchpad alone changes where bytes of an object are written. -/
theorem setChipBytes_barAddr_frame {bs : List Byte} (hn : n < 32) (hoff : off + bs.length ≤ 128) :
    ScratchOnly s (s.setChipBytes (s.barAddr b l n off) bs) :=
  State.setChipBytes_frame s _ bs (inScratch_barAddr hp hn hoff)

/-- A field within the bytes of an object that were written. -/
theorem barField_setChipBytes_within {o : Nat} {bs : List Byte} (hn : n < 32) (hlen : o + bs.length ≤ 128) (hlo : o ≤ off)
    (hhi : off + w ≤ o + bs.length) :
    (s.setChipBytes (s.barAddr b l n o) bs).barField b l n off w = field bs (off - o) w := by
  have hat : s.barAddr b l n off = s.barAddr b l n o + (off - o) := by
    rw [barAddr_add s b l n off, barAddr_add s b l n o]
    omega
  rw [State.barField, (setChipBytes_barAddr_frame hp hn hlen).barAddr_eq, hat,
    State.chipBytes_setChipBytes_within s (inScratch_barAddr hp hn hlen) (by omega)]
  rfl

/-- A field apart from the bytes that were written, of the same object or of another. -/
theorem barField_setChipBytes_apart {o : Nat} {bs : List Byte} (hn : n < 32) (hlen : o + bs.length ≤ 128)
    (hw : off + w ≤ 128) (h : m ≠ n ∨ off + w ≤ o ∨ o + bs.length ≤ off) :
    (s.setChipBytes (s.barAddr b l n o) bs).barField b l m off w = s.barField b l m off w := by
  rw [State.barField, (setChipBytes_barAddr_frame hp hn hlen).barAddr_eq,
    State.chipBytes_setChipBytes_apart s (inScratch_barAddr hp hn hlen)]
  · rfl
  · rw [barAddr_add s b l m off, barAddr_add s b l n o]
    omega

end Object

section Slot

variable {s : State} {b : Block} {l : Launch} {n t : Nat} (hp : PageInScratch s b l) (hn : n < 32) (ht : t < 8) (x : BarSlot)

include hp hn ht

theorem setSlot_scratchOnly : ScratchOnly s (s.setSlot b l n t x) :=
  setChipBytes_barAddr_frame hp hn (by simp only [List.length_append, leBytes_length, List.length_singleton]; omega)

/-- A field that no byte of a slot lies in stays when the slot is written. -/
theorem barField_setSlot {m off w : Nat} (hw : off + w ≤ 128)
    (h : m ≠ n ∨ off + w ≤ 16 + 8 * t ∨ 24 + 8 * t ≤ off) :
    (s.setSlot b l n t x).barField b l m off w = s.barField b l m off w := by
  have hlen : (leBytes 2 x.arrivals ++ leBytes 1 x.complete.toNat ++ [0] ++ leBytes 4 x.bytes).length = 8 := rfl
  exact barField_setChipBytes_apart hp hn (by omega) hw (by omega)

theorem slotAt_setSlot_other {n' t' : Nat} (ht' : t' < 8) (h : (n', t') ≠ (n, t)) :
    (s.setSlot b l n t x).slotAt b l n' t' = s.slotAt b l n' t' := by
  have hne : n' ≠ n ∨ t' ≠ t := by
    by_contra hboth
    obtain ⟨rfl, rfl⟩ := not_or.1 hboth |>.imp not_not.1 not_not.1
    exact h rfl
  unfold State.slotAt
  rw [barField_setSlot hp hn ht x (by omega) (by omega), barField_setSlot hp hn ht x (by omega) (by omega),
    barField_setSlot hp hn ht x (by omega) (by omega)]

theorem slotAt_setSlot_same (hx : SlotFits x) : (s.setSlot b l n t x).slotAt b l n t = x := by
  obtain ⟨harrivals, hbytes⟩ := hx
  obtain ⟨a, d, y⟩ := x
  have read : ∀ off w, 16 + 8 * t ≤ off → off + w ≤ 24 + 8 * t →
      (s.setSlot b l n t ⟨a, d, y⟩).barField b l n off w =
        field (leBytes 2 a ++ leBytes 1 d.toNat ++ [0] ++ leBytes 4 y) (off - (16 + 8 * t)) w := fun off w hlo hhi =>
    barField_setChipBytes_within hp hn
      (by simp only [List.length_append, leBytes_length, List.length_singleton]; omega) hlo
      (by simp only [List.length_append, leBytes_length, List.length_singleton]; omega)
  have first : (s.setSlot b l n t ⟨a, d, y⟩).barField b l n (16 + 8 * t) 2 = a := by
    rw [read _ _ (by omega) (by omega), Nat.sub_self]
    exact (leNat_leBytes 2 a).trans (Nat.mod_eq_of_lt harrivals)
  have second : (s.setSlot b l n t ⟨a, d, y⟩).barField b l n (18 + 8 * t) 1 = d.toNat := by
    rw [read _ _ (by omega) (by omega), show 18 + 8 * t - (16 + 8 * t) = 2 by omega]
    exact (leNat_leBytes 1 d.toNat).trans (by cases d <;> rfl)
  have third : (s.setSlot b l n t ⟨a, d, y⟩).barField b l n (20 + 8 * t) 4 = y := by
    rw [read _ _ (by omega) (by omega), show 20 + 8 * t - (16 + 8 * t) = 4 by omega]
    exact (leNat_leBytes 4 y).trans (Nat.mod_eq_of_lt hbytes)
  unfold State.slotAt
  rw [first, second, third]
  cases d <;> rfl

end Slot

/-- Slots of an object written in the order of a list. -/
def State.setSlots (s : State) (b : Block) (l : Launch) (n : Nat) (f : Nat → BarSlot) (ts : List Nat) : State :=
  ts.foldl (fun u i => u.setSlot b l n i (f i)) s

section Slots

variable {b : Block} {l : Launch} {n : Nat} {f : Nat → BarSlot} {ts : List Nat} (hn : n < 32) (hts : ∀ i ∈ ts, i < 8)

include hn hts

theorem setSlots_scratchOnly {s : State} (hp : PageInScratch s b l) : ScratchOnly s (s.setSlots b l n f ts) := by
  induction ts generalizing s with
  | nil => rfl
  | cons i ts ih =>
    have first := setSlot_scratchOnly hp hn (hts i List.mem_cons_self) (f i)
    exact first.trans (ih (fun j hj => hts j (List.mem_cons_of_mem _ hj)) (first.pageInScratch hp))

/-- The header and the other objects stay when slots are written. -/
theorem barField_setSlots {s : State} (hp : PageInScratch s b l) {m off w : Nat} (hw : off + w ≤ 128)
    (h : m ≠ n ∨ off + w ≤ 16) : (s.setSlots b l n f ts).barField b l m off w = s.barField b l m off w := by
  induction ts generalizing s with
  | nil => rfl
  | cons i ts ih =>
    have hi := hts i List.mem_cons_self
    exact (ih (fun j hj => hts j (List.mem_cons_of_mem _ hj)) ((setSlot_scratchOnly hp hn hi (f i)).pageInScratch hp)).trans
      (barField_setSlot hp hn hi (f i) hw (by omega))

theorem slotAt_setSlots {s : State} (hp : PageInScratch s b l) (hf : ∀ i, SlotFits (f i)) {t : Nat} (ht : t < 8) :
    (s.setSlots b l n f ts).slotAt b l n t = if t ∈ ts then f t else s.slotAt b l n t := by
  induction ts generalizing s with
  | nil => rfl
  | cons i ts ih =>
    have hi := hts i List.mem_cons_self
    refine (ih (fun j hj => hts j (List.mem_cons_of_mem _ hj))
      ((setSlot_scratchOnly hp hn hi (f i)).pageInScratch hp)).trans ?_
    by_cases hmem : t ∈ ts
    · rw [if_pos hmem, if_pos (List.mem_cons_of_mem i hmem)]
    · rw [if_neg hmem]
      by_cases hti : t = i
      · subst hti
        rw [slotAt_setSlot_same hp hn hi (f t) (hf t), if_pos List.mem_cons_self]
      · rw [slotAt_setSlot_other hp hn hi (f i) ht fun h => hti (Prod.mk.inj h).2, if_neg]
        exact fun h => (List.mem_cons.1 h).elim hti hmem

end Slots

/-- The slots of an armed object: those below its depth hold the expected counts, the others nothing (17 R355). -/
def armedSlots (depth arrivals bytes i : Nat) : BarSlot := if i < depth then armedSlot arrivals bytes else ⟨0, false, 0⟩

theorem armedSlots_fits {arrivals bytes : Nat} (ha : arrivals < 2 ^ 16) (hb : bytes < 2 ^ 32) (depth i : Nat) :
    SlotFits (armedSlots depth arrivals bytes i) := by
  unfold armedSlots
  split
  · exact ⟨ha, hb⟩
  · exact ⟨by decide, by decide⟩

theorem barrierObjectsHoldTheirSlots : BarrierObjectsHoldTheirSlots := by
  refine ⟨fun s b l n t x hp hn ht hx => ⟨setSlot_scratchOnly hp hn ht x, slotAt_setSlot_same hp hn ht x hx,
    fun n' _ t' ht' h => slotAt_setSlot_other hp hn ht x ht' h,
    fun n' _ off w hw => barField_setSlot hp hn ht x (by omega) (.inr (.inl (by omega)))⟩, ?_⟩
  intro s b l n depth arrivals bytes hp hn hd hd' ha hb
  let header : List Byte := leBytes 1 depth ++ [0] ++ leBytes 2 arrivals ++ leBytes 4 bytes
  have hlen : 0 + header.length ≤ 128 := show 0 + 8 ≤ 128 by decide
  have hspan : ∀ i ∈ span 0 8, i < 8 := fun i => span_lt
  have hframe : ScratchOnly s (s.setChipBytes (s.barAddr b l n 0) header) := setChipBytes_barAddr_frame hp hn hlen
  have hp' := hframe.pageInScratch hp
  have head : ∀ off w, off + w ≤ 8 → (s.armBarrier b l n depth arrivals bytes).barField b l n off w = field header off w :=
    fun off w hw => (barField_setSlots hn hspan hp' (by omega) (.inr (by omega))).trans
      (barField_setChipBytes_within hp hn hlen (Nat.zero_le off) (show off + w ≤ 0 + 8 by omega))
  refine ⟨hframe.trans (setSlots_scratchOnly hn hspan hp'), ?_, ?_, ?_, ?_, fun i hi => ?_, fun m hm hne off w hw => ?_⟩
  · exact (head 0 1 (by omega)).trans ((leNat_leBytes 1 depth).trans (Nat.mod_eq_of_lt (by omega)))
  · exact head 1 1 (by omega)
  · exact (head 2 2 (by omega)).trans ((leNat_leBytes 2 arrivals).trans (Nat.mod_eq_of_lt ha))
  · exact (head 4 4 (by omega)).trans ((leNat_leBytes 4 bytes).trans (Nat.mod_eq_of_lt hb))
  · refine (slotAt_setSlots hn hspan hp' (armedSlots_fits ha hb depth) hi).trans ?_
    rw [if_pos ((mem_span _ _ _).2 (by omega))]
    rfl
  · exact (barField_setSlots hn hspan hp' hw (.inl hne)).trans (barField_setChipBytes_apart hp hn hlen hw (.inl hne))

/-- Settles O15: the instructions by their checks in order (`acts_of_outcome`), the object by the bytes of its page that a
write reaches. -/
theorem barrierInstructionsActOnTheSlotsOfTheirObject : Obligations.BarrierInstructionsActOnTheSlotsOfTheirObject :=
  ⟨barrierInstructionsActOnTheirObject, barrierObjectsHoldTheirSlots⟩

end Sys2Proof.Machine
end

section
/-! BARWAIT, and the waiters of a slot (07 R175, R177; 17 R360). -/

namespace Sys2Proof.Machine

open Sys2Proof.Safety Sys2Proof.Claims

section Barwait

variable {s : State} {gd : Guard} {n k : Nat} {c : Ctx} (hc : s.ctx gd = some c)

include hc

/-- BARWAIT of a path that is not woken, by what its slot is. -/
theorem exec_barwait_of_asleep (he : c.exec ≠ []) (hw : c.pos ∉ c.p.woken) :
    exec (.barwait gd n k) s = .next
      (match s.barSlot c.b c.l n k with
      | .error f => s.raiseAll c f
      | .ok t => if (s.slotAt c.b c.l n t).complete then s.finish c else s.waitOn c (.bar n t)) := by
  refine (State.issue_of_ctx hc _).trans (congrArg _ (if_neg ?_))
  simp only [Bool.or_eq_true, List.isEmpty_iff, not_or]
  exact ⟨he, fun h => hw (List.contains_iff_mem.1 h)⟩

theorem exec_barwait_of_free (h : c.exec = [] ∨ c.pos ∈ c.p.woken) : exec (.barwait gd n k) s = .next (s.finish c) := by
  refine (State.issue_of_ctx hc _).trans (congrArg _ (if_pos ?_))
  simp only [Bool.or_eq_true, List.isEmpty_iff]
  exact h.imp_right List.contains_iff_mem.2

end Barwait

/-- A group whose paths that wait for a slot go on. -/
def Group.wokenAt (n t : Nat) (g : Group) : Group :=
  { g with paths := g.paths.map fun p => if p.wait == Wait.bar n t then p.wake else p }

theorem State.wakeSlot_eq (s : State) (bk n t : Nat) : s.wakeSlot bk n t =
    (s.groupsOf bk).foldl (fun (u : State) (e : Nat × Group) => u.updGroup e.1 (Group.wokenAt n t)) s := rfl

theorem Group.wokenAt_eq (n t : Nat) (g : Group) : g.wokenAt n t =
    { g with paths := g.paths.map fun p => if p.wait = .bar n t then
        { p with wait := .none, met := true, woken := p.waiter :: p.woken } else p } := by
  refine congrArg (fun ps => { g with paths := ps }) (List.map_congr_left fun p _ => ?_)
  by_cases h : p.wait = .bar n t
  · rw [if_pos h, if_pos (beq_iff_eq.2 h), Path.wake, h]
    rfl
  · rw [if_neg h, if_neg (fun hb => h (beq_iff_eq.1 hb))]

theorem State.find?_wakeSlot {s : State} (hr : AMap.rising s.groups = true) (bk n t k : Nat) :
    AMap.find? (s.wakeSlot bk n t).groups k =
      (AMap.find? s.groups k).map fun g => if g.block = bk then g.wokenAt n t else g := by
  have hkeys : ((s.groupsOf bk).map Prod.fst).Nodup := risingFrom_keys_nodup (risingFrom_filter _ hr)
  rw [State.wakeSlot_eq, find?_foldl_updGroup _ hkeys]
  simp only [State.mem_groupsOf hr]
  cases AMap.find? s.groups k with
  | none => split <;> rfl
  | some g =>
    simp only [Option.some.injEq, exists_eq_left', Option.map_some]
    split <;> rfl

/-- Settles O16: BARWAIT by the slot that its offset names, the waiters by the one change of each group of the block. -/
theorem barwaitPassesACompleteSlot : Obligations.BarwaitPassesACompleteSlot := by
  refine ⟨fun s gd n k c hc => ⟨fun h => ?_, fun he hw hd => ?_, fun he hw hk hs => ?_⟩, fun s bk n t hr => ⟨?_, fun k => ?_⟩⟩
  · by_cases hfree : c.exec = [] ∨ c.pos ∈ c.p.woken
    · exact exec_barwait_of_free hc hfree
    · obtain ⟨he, hw⟩ := not_or.1 hfree
      obtain ⟨hk, hs⟩ := (h.resolve_left he).resolve_left hw
      rw [exec_barwait_of_asleep hc he hw, State.barSlot_of_lt hk]
      exact congrArg _ (if_pos hs)
  · rw [exec_barwait_of_asleep hc he hw, State.barSlot_of_le hd]
    rfl
  · refine ⟨_, ?_, waits_waitOn hc _⟩
    rw [exec_barwait_of_asleep hc he hw, State.barSlot_of_lt hk]
    exact congrArg _ (if_neg (Bool.eq_false_iff.1 hs))
  · rw [State.wakeSlot_eq]
    exact foldl_upd_frame _ _ _
  · simp only [State.find?_wakeSlot hr, Group.wokenAt_eq]

end Sys2Proof.Machine
end

section
/-! QINIT and QSTAT (07 R157 to R159, R165, R171; 20 R434, R435). -/

namespace Sys2Proof.Machine

open Sys2Proof.Safety Sys2Proof.Claims

/-! The block that QINIT writes. -/

theorem leNat_leBytes_of_lt {n x : Nat} (h : x < 2 ^ (8 * n)) : leNat (leBytes n x) = x :=
  (leNat_leBytes n x).trans (Nat.mod_eq_of_lt h)

theorem crcBit_lt (crc : Nat) (b : Bool) : crcBit crc b < 2 ^ 16 := by
  have hshift : crc * 2 % 65536 < 2 ^ 16 := Nat.mod_lt _ (by decide)
  unfold crcBit
  dsimp only
  split
  · exact Nat.xor_lt_two_pow hshift (by decide)
  · exact hshift

theorem crcByte_lt {crc : Nat} (h : crc < 2 ^ 16) (x : Byte) : crcByte crc x < 2 ^ 16 :=
  List.foldlRecOn (motive := (· < 2 ^ 16)) _ _ h fun c _ _ _ => crcBit_lt c _

theorem crc16_lt (bs : List Byte) : crc16 bs < 2 ^ 16 :=
  List.foldlRecOn (motive := (· < 2 ^ 16)) _ _ (by decide) fun _ h x _ => crcByte_lt h x

/-! A field of a block that is put together of parts. -/

theorem field_append_of_le {xs ys : List Byte} {off n : Nat} (h : xs.length ≤ off) :
    field (xs ++ ys) off n = field ys (off - xs.length) n := by
  rw [field, List.drop_append, List.drop_of_length_le h, List.nil_append]
  rfl

theorem field_append_first {xs ys : List Byte} {n : Nat} (h : xs.length = n) : field (xs ++ ys) 0 n = leNat xs := by
  rw [field, List.drop_zero, List.take_left' h]

section Fresh

variable {base log2 flags esize owner : Nat}

/-- The block, a part for each field. -/
theorem freshBlock_eq : freshBlock base log2 flags esize owner =
    leBytes 8 0 ++ (leBytes 8 0 ++ (leBytes 8 base ++ (leBytes 1 log2 ++ (leBytes 1 flags ++ (leBytes 2 esize ++
      (leBytes 4 (2 ^ log2) ++ (leBytes 8 0 ++ (leBytes 4 owner ++ (leBytes 2 (crc16 (leBytes 8 base ++ (leBytes 1 log2 ++
        (leBytes 1 flags ++ (leBytes 2 esize ++ leBytes 4 owner))))) ++ (leBytes 18 0 ++ [])))))))))) := by
  have hzeros : leBytes 16 0 = leBytes 8 0 ++ leBytes 8 0 := rfl
  simp only [freshBlock, hzeros, List.append_assoc, List.append_nil]

theorem freshBlock_length : (freshBlock base log2 flags esize owner).length = 64 := by
  simp [freshBlock]

/-- The code lies over the fields that stay (07 R158). -/
theorem checkCode_freshBlock : checkCode (freshBlock base log2 flags esize owner) =
    crc16 (leBytes 8 base ++ (leBytes 1 log2 ++ (leBytes 1 flags ++ (leBytes 2 esize ++ leBytes 4 owner)))) := by
  rw [checkCode, freshBlock_eq]
  rfl

theorem queueOf_freshBlock (hbase : base < 2 ^ 64) (hlog : log2 ≤ 20) (hflags : flags < 16) (hsize : esize ≤ 256)
    (howner : owner < 2 ^ 32) :
    queueOf (freshBlock base log2 flags esize owner) =
      { head := 0, tail := 0, base, log2, flags, esize, free := 2 ^ log2, owner
        code := checkCode (freshBlock base log2 flags esize owner), rest := 0 } := by
  have hcap : 2 ^ log2 < 2 ^ 32 := Nat.pow_lt_pow_right (by decide) (by omega)
  have zeros : ∀ n, leNat (leBytes n 0) = 0 := fun n => (leNat_leBytes n 0).trans (Nat.zero_mod _)
  rw [checkCode_freshBlock, freshBlock_eq]
  simp only [queueOf, field_append_of_le, field_append_first, leBytes_length, Nat.reduceLeDiff, Nat.reduceSub, zeros]
  rw [leNat_leBytes_of_lt hbase, leNat_leBytes_of_lt (n := 1) (x := log2) (by omega),
    leNat_leBytes_of_lt (n := 1) (x := flags) (by omega), leNat_leBytes_of_lt (n := 2) (x := esize) (by omega),
    leNat_leBytes_of_lt hcap, leNat_leBytes_of_lt howner, leNat_leBytes_of_lt (crc16_lt _)]

end Fresh

/-- A queue whose ends are equal holds nothing. -/
theorem Queue.count_of_empty {q : Queue} (h : q.tail = q.head) : q.count = 0 := by
  rw [Queue.count, h, sub_self]
  rfl

/-- A block whose code holds, whose fields are in range and whose free slots and elements fill it passes (07 R159). -/
theorem failedCheck_of_sound {bs : List Byte} (hcode : (queueOf bs).code = checkCode bs)
    (hrange : (queueOf bs).rest = 0 ∧ 1 ≤ (queueOf bs).log2 ∧ (queueOf bs).log2 ≤ 20 ∧ (queueOf bs).flags < 16 ∧
      8 ≤ (queueOf bs).esize ∧ (queueOf bs).esize ≤ 256 ∧ (queueOf bs).esize % 8 = 0)
    (hslots : (queueOf bs).free + (queueOf bs).count = (queueOf bs).cap) : failedCheck bs = 0 :=
  (if_neg (not_not.2 hcode)).trans ((if_neg (by omega)).trans (if_neg (by omega)))

theorem aFreshQueueIsSoundAndEmpty : AFreshQueueIsSoundAndEmpty := by
  intro base log2 flags esize owner hbase hlog hlog' hflags hsize hsize' hunits howner
  have hq := queueOf_freshBlock hbase hlog' hflags hsize' howner
  refine ⟨freshBlock_length, failedCheck_of_sound ?_ ?_ ?_, hq⟩
  · rw [hq]
  · rw [hq]
    exact ⟨rfl, hlog, hlog', hflags, hsize, hsize', hunits⟩
  · rw [hq, Queue.count_of_empty (by rfl)]
    rfl

/-! QINIT. -/

theorem homes_configEvent (s : State) : s.configEvent.homes = s.homes :=
  (congrArg State.homes (storage_configEvent s) : State.homes _ = State.homes _)

theorem homes_updLaunch (s : State) (lk : Nat) (f : Launch → Launch) : (s.updLaunch lk f).homes = s.homes := rfl

theorem homes_dropOps (s : State) (test : Nat → EngineOp → Bool) : (s.dropOps test).homes = s.homes := rfl

theorem homes_failPage (s : State) (lk time core : Nat) : (s.failPage lk time core).homes = s.homes :=
  (homes_updLaunch ..).trans (homes_dropOps ..)

theorem homes_failDelivery (s : State) (d : Delivery) : (s.failDelivery d).homes = s.homes := by
  unfold State.failDelivery
  dsimp only
  split
  · split
    · exact (homes_failPage ..).trans (homes_configEvent s)
    · exact homes_configEvent s
  · exact homes_configEvent s

theorem homes_answer (s : State) (who : Asker) (r : Except Flt (List (List Byte))) : (s.answer who r).homes = s.homes := by
  cases who with
  | group gk lanes => rfl
  | append lk =>
    cases r with
    | ok es => exact homes_updLaunch ..
    | error f => exact (homes_updLaunch ..).trans (homes_configEvent s)
  | delivery d =>
    cases r with
    | ok es => rfl
    | error f => exact homes_failDelivery s d

theorem homes_foldl_answer (s : State) (rs : List Request) (r : Except Flt (List (List Byte))) :
    (rs.foldl (fun (t : State) (q : Request) => t.answer q.who r) s).homes = s.homes :=
  List.foldlRecOn (motive := fun t : State => t.homes = s.homes) _ _ rfl fun t h q _ => (homes_answer t q.who r).trans h

/-- QINIT leaves no waiters and nothing bound (07 R165, R171). -/
theorem State.home_initQueue (s : State) (cb : Nat) (bs : List Byte) : (s.initQueue cb bs).home cb = {} := by
  have hhomes : (s.initQueue cb bs).homes = ((s.putBytes cb bs).setHome cb {}).homes :=
    homes_foldl_answer _ ((s.home cb).wake ++ (s.home cb).polling) _
  rw [State.home, hhomes, State.setHome, AMap.find?_put_same]
  rfl

section Qinit

variable {s t : State} {g : Guard} {sc : Scope} {cb base shape : Operand} {c : Ctx} {pa : Nat} (hc : s.ctx g = some c)
  (he : c.exec ≠ [])

include hc he

theorem exec_qinit_of_fault {f : Flt}
    (hf : s.qinitFault c (s.u64 c true c.lead cb) (s.u64 c true c.lead base) (s.u64 c true c.lead shape) = some f) :
    exec (.qinit g sc cb base shape) s = .next (s.raise c { f with lanes := maskOf c.exec }) := by
  refine (State.issue_of_ctx hc _).trans (congrArg _ ((if_neg (mt List.isEmpty_iff.1 he)).trans ?_))
  rw [hf]
  rfl

theorem exec_qinit_of_sound
    (hf : s.qinitFault c (s.u64 c true c.lead cb) (s.u64 c true c.lead base) (s.u64 c true c.lead shape) = none)
    (hcb : s.controlBlock c (s.u64 c true c.lead cb) (areaFlags c.l.attrs (s.u64 c true c.lead base)
      (2 ^ bitsOf (s.u64 c true c.lead shape) 0 8 * bitsOf (s.u64 c true c.lead shape) 16 16)) = .ok (pa, t))
    (hp : t.remotePending c = false)
    (howner : (t.releaseCaches c.b.core (atLeastDevice sc)).corruption pa ≠ 0 ∨
      ((t.releaseCaches c.b.core (atLeastDevice sc)).queue pa).owner = 0 ∨
      ((t.releaseCaches c.b.core (atLeastDevice sc)).queue pa).owner = c.l.ctx) :
    exec (.qinit g sc cb base shape) s = .next
      (((t.releaseCaches c.b.core (atLeastDevice sc)).initQueue pa (freshBlock (s.u64 c true c.lead base)
        (bitsOf (s.u64 c true c.lead shape) 0 8) (bitsOf (s.u64 c true c.lead shape) 8 4)
        (bitsOf (s.u64 c true c.lead shape) 16 16) (bitsOf (s.u64 c true c.lead shape) 32 32))).finish c) := by
  refine (State.issue_of_ctx hc _).trans (congrArg _ ((if_neg (mt List.isEmpty_iff.1 he)).trans ?_))
  rw [hf, hcb]
  refine (State.afterEarlier_of_clear hp _).trans (if_neg ?_)
  tauto

end Qinit

/-! QSTAT. -/

theorem exec_qstat_of_sound {s t : State} {g : Guard} {sc : Scope} {d cb : Operand} {c : Ctx} {pa : Nat}
    (hc : s.ctx g = some c) (he : c.exec ≠ []) (hcb : s.controlBlock c (s.u64 c true c.lead cb) = .ok (pa, t))
    (hsound : t.homeSound pa (t.launchSpace c.l) c.party = none) :
    exec (.qstat g sc d cb) s = .next (((((t.bindHome pa c.party).serve pa).writeAll c true d (BitVec.ofNat 64
      ((t.queue pa).count % 2 ^ 24 + (t.queue pa).free % 2 ^ 24 * 2 ^ 24 + (t.queue pa).flags * 2 ^ 48))).acquireCaches
        c.b.core sc).finish c) := by
  refine (State.issue_of_ctx hc _).trans (congrArg _ ((if_neg (mt List.isEmpty_iff.1 he)).trans ?_))
  rw [hcb]
  dsimp only
  rw [hsound]

theorem qinitAndQstatActOnTheControlBlock : QinitAndQstatActOnTheControlBlock := by
  refine ⟨fun s t g sc cb base shape c pa hc he => ⟨fun f hf => exec_qinit_of_fault hc he hf,
    fun hf hcb hp howner => ⟨exec_qinit_of_sound hc he hf hcb hp howner, State.home_initQueue _ _ _⟩⟩,
    fun s t g sc d cb c pa hc he hcb hsound => ?_⟩
  rw [exec_qstat_of_sound hc he hcb hsound, Nat.mul_comm (_ % 2 ^ 24), Nat.mul_comm (Queue.flags _)]
  rfl

/-- Settles O29: the bytes of the block field by field, the two instructions by what their checks answer. -/
theorem qinitAndQstatActOnASoundControlBlock : Obligations.QinitAndQstatActOnASoundControlBlock :=
  ⟨aFreshQueueIsSoundAndEmpty, qinitAndQstatActOnTheControlBlock⟩

end Sys2Proof.Machine
end

section
/-! Bytes written to committed memory, and what is read of them (04 R96; 11 R259). -/

namespace Sys2Proof.Machine

open Sys2Proof.Safety Sys2Proof.Claims

/-! The cells of a line. -/

section Line

variable {a i : Nat} (h : a % 64 + i < 64)

include h

theorem cellOf_add_in_line : cellOf (a + i) = cellLine (a / 64) * 64 + (a % 64 + i) := by
  rw [← cellOf_in_line (a / 64) h]
  congr 1
  omega

theorem isControlRow_add_in_line : isControlRow (a + i) = isControlRow a := by
  have hfirst := isControlRow_in_line (a / 64) (i := a % 64) (by omega)
  have hthis := isControlRow_in_line (a / 64) (i := a % 64 + i) h
  rwa [← hfirst, Nat.div_add_mod', show a / 64 * 64 + (a % 64 + i) = a + i by omega] at hthis

end Line

/-- Memory that reads as before but for the bytes written from an address on. -/
structure Wrote (s t : State) (a : Nat) (bs : List Byte) : Prop where
  inside : ∀ i < bs.length, t.memByte (a + i) = bs.getD i 0
  outside : ∀ x, (∀ i < bs.length, cellOf x ≠ cellOf (a + i)) → t.memByte x = s.memByte x

theorem State.memBytes_congr {s t : State} {a n : Nat} (h : ∀ i < n, t.memByte (a + i) = s.memByte (a + i)) :
    t.memBytes a n = s.memBytes a n := by
  refine List.map_congr_left fun x hx => ?_
  have hrange := (mem_span _ _ _).1 hx
  have hbyte := h (x - a) (by omega)
  rwa [Nat.add_sub_cancel' hrange.1] at hbyte

theorem State.memBytes_length (s : State) (a n : Nat) : (s.memBytes a n).length = n := by
  rw [State.memBytes, List.length_map, length_span]

theorem Wrote.memBytes_same {s t : State} {a : Nat} {bs : List Byte} (h : Wrote s t a bs) : t.memBytes a bs.length = bs := by
  refine (List.map_congr_left fun x hx => ?_).trans (span_map_getD bs a)
  have hrange := (mem_span _ _ _).1 hx
  have hbyte := h.inside (x - a) (by omega)
  rwa [Nat.add_sub_cancel' hrange.1] at hbyte

theorem Wrote.memBytes_apart {s t : State} {a x n : Nat} {bs : List Byte} (h : Wrote s t a bs)
    (hapart : ∀ j < n, ∀ i < bs.length, cellOf (x + j) ≠ cellOf (a + i)) : t.memBytes x n = s.memBytes x n :=
  State.memBytes_congr fun j hj => h.outside _ (hapart j hj)

theorem State.wrote_setMemBytes (s : State) {a : Nat} {bs : List Byte} (hrow : isControlRow a = false)
    (hline : a % 64 + bs.length ≤ 64) : Wrote s (s.setMemBytes a bs) a bs := by
  induction bs generalizing s a with
  | nil => exact ⟨fun i hi => absurd hi (Nat.not_lt_zero i), fun _ _ => rfl⟩
  | cons b bs ih =>
    rw [List.length_cons] at hline
    have hrest : bs = [] ∨ ((a + 1) % 64 = a % 64 + 1 ∧ isControlRow (a + 1) = false) := by
      cases bs with
      | nil => exact .inl rfl
      | cons _ _ =>
        rw [List.length_cons] at hline
        exact .inr ⟨by omega, (isControlRow_add_in_line (by omega)).trans hrow⟩
    have tail : Wrote (s.setMemByte a b) (s.setMemBytes a (b :: bs)) (a + 1) bs := by
      obtain rfl | ⟨hmod, hrow'⟩ := hrest
      · exact ⟨fun i hi => absurd hi (Nat.not_lt_zero i), fun _ _ => rfl⟩
      · exact ih _ hrow' (by omega)
    constructor
    · intro i hi
      rw [List.length_cons] at hi
      cases i with
      | zero =>
        rw [tail.outside _ fun j hj => ?_, State.memByte_setMemByte, if_pos ⟨rfl, hrow⟩, List.getD_cons_zero]
        rw [Nat.add_assoc, cellOf_add_in_line (by omega), cellOf_add_in_line (by omega)]
        omega
      | succ i =>
        rw [List.getD_cons_succ, ← tail.inside i (by omega), Nat.add_assoc, Nat.add_comm 1 i]
    · intro x hx
      have hhere := hx 0 (by rw [List.length_cons]; omega)
      rw [tail.outside x fun j hj => ?_, State.memByte_setMemByte, if_neg fun h => hhere h.1]
      have := hx (j + 1) (by rw [List.length_cons]; omega)
      rwa [Nat.add_comm j 1, ← Nat.add_assoc] at this

/-- A byte of the line that bytes are put into. -/
theorem State.memByte_putBytes_line (s : State) {a i : Nat} {bs : List Byte}
    (hrow : ∀ j < bs.length, isControlRow (a + j) = false) (hline : a % 64 + bs.length ≤ 64) (hi : i < 64) :
    (s.putBytes a bs).memByte (a / 64 * 64 + i) =
      if a % 64 ≤ i ∧ i < a % 64 + bs.length then bs.getD (i - a % 64) 0 else s.memByte (a / 64 * 64 + i) := by
  obtain ⟨t, hmem, ht⟩ := s.setBaseLine_committed (a / 64) (lineSlice (a % 64) bs).1 (lineSlice (a % 64) bs).2
  have hput : s.putBytes a bs = s.setBaseLine 0 (a / 64) (lineSlice (a % 64) bs).1 (lineSlice (a % 64) bs).2 := rfl
  rw [hput, ht, State.memByte_setLineBytes_same _ _ _ _ hi _ fun j => span_lt, memByte_congr hmem, lineSlice,
    getLsbD_sliceMask hline]
  by_cases hin : a % 64 ≤ i ∧ i < a % 64 + bs.length
  · have hplaced := lineByte_placed bs (o := a % 64) (k := i - a % 64) (by omega)
    rw [Nat.add_sub_cancel' hin.1] at hplaced
    have hrow' := isControlRow_in_line (a / 64) hi
    rw [show a / 64 * 64 + i = a + (i - a % 64) by omega, hrow _ (by omega)] at hrow'
    rw [if_pos hin, if_pos ⟨(mem_span _ _ _).2 (by omega), decide_eq_true hin, hrow'.symm⟩, hplaced]
  · rw [if_neg hin, if_neg fun h => hin (of_decide_eq_true h.2.1)]

theorem State.wrote_putBytes (s : State) {a : Nat} {bs : List Byte} (hrow : ∀ j < bs.length, isControlRow (a + j) = false)
    (hline : a % 64 + bs.length ≤ 64) : Wrote s (s.putBytes a bs) a bs := by
  constructor
  · intro i hi
    have hbyte := s.memByte_putBytes_line hrow hline (i := a % 64 + i) (by omega)
    rwa [if_pos (by omega), Nat.add_sub_cancel_left, ← Nat.add_assoc, Nat.div_add_mod'] at hbyte
  · intro x hx
    have hcell := cellOf_in_line (x / 64) (i := x % 64) (by omega)
    rw [Nat.div_add_mod'] at hcell
    by_cases hsame : cellLine (x / 64) = cellLine (a / 64)
    · have hmirror : cellOf x = cellOf (a / 64 * 64 + x % 64) := by
        rw [hcell, hsame, cellOf_in_line _ (by omega)]
      rw [State.memByte_of_cellOf_eq _ hmirror, s.memByte_putBytes_line hrow hline (by omega), if_neg,
        State.memByte_of_cellOf_eq s hmirror]
      intro hin
      refine hx (x % 64 - a % 64) (by omega) (hmirror.trans (congrArg cellOf ?_))
      omega
    · obtain ⟨t, hmem, ht⟩ := s.setBaseLine_committed (a / 64) (lineSlice (a % 64) bs).1 (lineSlice (a % 64) bs).2
      have hother := t.memByte_setLineBytes_other (a / 64) (lineSlice (a % 64) bs).1 (lineSlice (a % 64) bs).2
        (i := x % 64) (by omega) hsame (span 0 64) fun j => span_lt
      rw [Nat.div_add_mod', memByte_congr hmem, ← ht] at hother
      exact hother

/-! Bytes written in runs. -/

/-- The addresses of the bytes of some runs. -/
def runBytes (runs : List (Nat × Nat)) : List Nat := runs.flatMap fun e => span e.1 e.2

/-- Runs that memory can take: each in one line, none in a control row, their cells apart. -/
structure Takes (runs : List (Nat × Nat)) : Prop where
  inLine : ∀ e ∈ runs, e.1 % 64 + e.2 ≤ 64
  noControl : ∀ a ∈ runBytes runs, isControlRow a = false
  apart : ((runBytes runs).map cellOf).Nodup

theorem runBytes_cons (e : Nat × Nat) (runs : List (Nat × Nat)) : runBytes (e :: runs) = span e.1 e.2 ++ runBytes runs :=
  List.flatMap_cons

theorem Takes.tail {e : Nat × Nat} {runs : List (Nat × Nat)} (h : Takes (e :: runs)) : Takes runs := by
  obtain ⟨hline, hrow, hapart⟩ := h
  rw [runBytes_cons] at hrow hapart
  rw [List.map_append] at hapart
  exact ⟨fun e he => hline e (List.mem_cons_of_mem _ he), fun a ha => hrow a (List.mem_append_right _ ha),
    hapart.of_append_right⟩

theorem Takes.wrote_head {e : Nat × Nat} {runs : List (Nat × Nat)} (h : Takes (e :: runs)) (s : State) {bs : List Byte}
    (hlen : bs.length = e.2) : Wrote s (s.putBytes e.1 bs) e.1 bs := by
  refine s.wrote_putBytes (fun j hj => h.noControl _ ?_) (hlen ▸ h.inLine e List.mem_cons_self)
  rw [runBytes_cons]
  exact List.mem_append_left _ ((mem_span _ _ _).2 (by omega))

/-- A cell that no byte of the runs reaches stays. -/
theorem State.memByte_putRuns_outside {s : State} {runs : List (Nat × Nat)} {bs : List Byte} (h : Takes runs)
    (hlen : bs.length = (runs.map Prod.snd).sum) {x : Nat} (hx : ∀ a ∈ runBytes runs, cellOf x ≠ cellOf a) :
    (s.putRuns runs bs).memByte x = s.memByte x := by
  induction runs generalizing s bs with
  | nil => rfl
  | cons e runs ih =>
    rw [runBytes_cons] at hx
    rw [List.map_cons, List.sum_cons] at hlen
    have hfirst : (bs.take e.2).length = e.2 := by rw [List.length_take]; omega
    refine (ih h.tail (by rw [List.length_drop]; omega) fun a ha => hx a (List.mem_append_right _ ha)).trans
      ((h.wrote_head s hfirst).outside x fun i hi => hx _ (List.mem_append_left _ ((mem_span _ _ _).2 ?_)))
    omega

/-- Runs read back what was written to them, in order. -/
theorem State.memBytes_putRuns {s : State} {runs : List (Nat × Nat)} {bs : List Byte} (h : Takes runs)
    (hlen : bs.length = (runs.map Prod.snd).sum) :
    runs.flatMap (fun e => (s.putRuns runs bs).memBytes e.1 e.2) = bs := by
  induction runs generalizing s bs with
  | nil => exact (List.eq_nil_of_length_eq_zero hlen).symm
  | cons e runs ih =>
    rw [List.map_cons, List.sum_cons] at hlen
    have hfirst : (bs.take e.2).length = e.2 := by rw [List.length_take]; omega
    have hrest : (bs.drop e.2).length = (runs.map Prod.snd).sum := by rw [List.length_drop]; omega
    have hapart := h.apart
    rw [runBytes_cons, List.map_append, List.nodup_append] at hapart
    have hkept : ((s.putBytes e.1 (bs.take e.2)).putRuns runs (bs.drop e.2)).memBytes e.1 e.2 = bs.take e.2 := by
      refine (State.memBytes_congr fun i hi => State.memByte_putRuns_outside h.tail hrest fun a ha => ?_).trans ?_
      · exact hapart.2.2 _ (List.mem_map_of_mem ((mem_span _ _ _).2 (by omega))) _ (List.mem_map_of_mem ha)
      · have hread := (h.wrote_head s hfirst).memBytes_same
        rwa [hfirst] at hread
    rw [List.flatMap_cons, State.putRuns, hkept, ih h.tail hrest, List.take_append_drop]

end Sys2Proof.Machine
end

section
/-! The elements and the control block of a queue (07 R157, R160, R162, R163). -/

namespace Sys2Proof.Machine

open Sys2Proof.Safety Sys2Proof.Claims

/-! The parts of the elements. -/

/-- Where the part of a range that lies below line `k` ends. -/
def clip (a n k : Nat) : Nat := min (a + n) (max a (k * 64))

theorem sum_clips (a n lo m : Nat) :
    ((span lo m).map fun k => min (a + n) (k * 64 + 64) - max a (k * 64)).sum = clip a n (lo + m) - clip a n lo := by
  induction m generalizing lo with
  | zero => rw [Nat.add_zero, Nat.sub_self]; rfl
  | succ m ih =>
    have hstep : min (a + n) (lo * 64 + 64) - max a (lo * 64) = clip a n (lo + 1) - clip a n lo := by
      unfold clip
      omega
    rw [span, List.map_cons, List.sum_cons, ih, hstep, show lo + 1 + m = lo + (m + 1) by omega]
    unfold clip
    omega

theorem sum_lineParts (a n : Nat) : ((lineParts a n).map Prod.snd).sum = n := by
  unfold lineParts
  split
  · next h => exact h.symm
  · rw [List.map_map]
    refine (sum_clips a n _ _).trans ?_
    unfold clip
    omega

theorem sum_parts (q : Queue) (full : Bool) (n : Nat) : ((q.parts full n).map Prod.snd).sum = n * q.esize := by
  have key : ∀ (f : Nat → Nat) (js : List Nat),
      ((js.flatMap fun j => lineParts (f j) q.esize).map Prod.snd).sum = js.length * q.esize := by
    intro f js
    induction js with
    | nil => rw [List.length_nil, Nat.zero_mul]; rfl
    | cons j js ih =>
      rw [List.flatMap_cons, List.map_append, List.sum_append, ih, sum_lineParts, List.length_cons, Nat.succ_mul, Nat.add_comm]
  exact (key _ (span 0 n)).trans (by rw [length_span])

/-- Translation keeps the lengths of parts. -/
theorem State.partAddrs_lengths {s t : State} {sp : Space2} {ps pas : List (Nat × Nat)}
    (h : s.partAddrs sp ps = .ok (pas, t)) : pas.map Prod.snd = ps.map Prod.snd := by
  induction ps generalizing s t pas with
  | nil => cases h; rfl
  | cons e ps ih =>
    obtain ⟨va, n⟩ := e
    rw [State.partAddrs] at h
    split at h
    · cases h
    · split at h
      · cases h
      · next hrest => cases h; rw [List.map_cons, List.map_cons, ih hrest]

theorem length_flatMap_memBytes (s : State) (pas : List (Nat × Nat)) :
    (pas.flatMap fun e => s.memBytes e.1 e.2).length = (pas.map Prod.snd).sum := by
  rw [List.length_flatMap]
  exact congrArg List.sum (List.map_congr_left fun e _ => s.memBytes_length e.1 e.2)

/-- Bytes cut into pieces of one size are the pieces one after another. -/
theorem flatMap_pieces (bs : List Byte) (m lo n : Nat) :
    ((span lo n).flatMap fun j => (bs.drop (m * j)).take m) = (bs.drop (m * lo)).take (m * n) := by
  induction n generalizing lo with
  | zero => rw [Nat.mul_zero, List.take_zero]; rfl
  | succ n ih =>
    rw [span, List.flatMap_cons, ih, Nat.mul_succ m n, Nat.add_comm (m * n), List.take_add, List.drop_drop, Nat.mul_succ]

theorem flatMap_take_of_length {es : List (List Byte)} {m : Nat} (h : ∀ e ∈ es, e.length = m) :
    es.flatMap (fun e => e.take m) = es.flatMap id :=
  List.flatMap_congr fun e he => List.take_of_length_le (h e he).le

theorem length_flatMap_id {es : List (List Byte)} {m : Nat} (h : ∀ e ∈ es, e.length = m) :
    (es.flatMap id).length = es.length * m := by
  rw [List.length_flatMap]
  refine (congrArg List.sum (List.map_congr_left h)).trans ?_
  rw [List.map_const', List.sum_replicate, smul_eq_mul]

/-! The fields of a control block. -/

theorem field_memBytes (s : State) {cb off n : Nat} (h : off + n ≤ 64) :
    field (s.memBytes cb 64) off n = leNat (s.memBytes (cb + off) n) := by
  rw [field, State.memBytes, State.memBytes, ← List.map_drop, ← List.map_take]
  have hsplit : span cb 64 = span cb off ++ (span (cb + off) n ++ span (cb + off + n) (64 - off - n)) := by
    rw [← span_split, ← span_split]
    congr 1
    omega
  rw [hsplit, List.drop_left' (length_span _ _), List.take_left' (length_span _ _)]

section Block

variable {cb o : Nat} {bs : List Byte} (halign : cb % 64 = 0) (hrow : isControlRow cb = false) (hlen : o + bs.length ≤ 64)

include halign hrow hlen

theorem wrote_block (s : State) : Wrote s (s.setMemBytes (cb + o) bs) (cb + o) bs := by
  cases bs with
  | nil => exact ⟨fun i hi => absurd hi (Nat.not_lt_zero i), fun _ _ => rfl⟩
  | cons b bs =>
    rw [List.length_cons] at hlen
    exact s.wrote_setMemBytes ((isControlRow_add_in_line (by omega)).trans hrow) (by rw [List.length_cons]; omega)

theorem field_setMemBytes_same (s : State) : field ((s.setMemBytes (cb + o) bs).memBytes cb 64) o bs.length = leNat bs := by
  rw [field_memBytes _ hlen, (wrote_block halign hrow hlen s).memBytes_same]

theorem field_setMemBytes_apart (s : State) {off n : Nat} (hoff : off + n ≤ 64) (h : off + n ≤ o ∨ o + bs.length ≤ off) :
    field ((s.setMemBytes (cb + o) bs).memBytes cb 64) off n = field (s.memBytes cb 64) off n := by
  rw [field_memBytes _ hoff, field_memBytes _ hoff, (wrote_block halign hrow hlen s).memBytes_apart fun j hj i hi => ?_]
  rw [Nat.add_assoc, Nat.add_assoc, cellOf_add_in_line (by omega), cellOf_add_in_line (by omega)]
  omega

end Block

theorem State.setMemBytes_append (s : State) (a : Nat) (xs ys : List Byte) :
    s.setMemBytes a (xs ++ ys) = (s.setMemBytes a xs).setMemBytes (a + xs.length) ys := by
  induction xs generalizing s a with
  | nil => rfl
  | cons x xs ih =>
    rw [List.cons_append, State.setMemBytes, ih, State.setMemBytes, List.length_cons, Nat.add_assoc, Nat.add_comm 1]

/-- Memory after the counts of a block are written. -/
def State.withCounts (s : State) (cb : Nat) (q : Queue) : State :=
  ((s.setMemBytes (cb + 0) (leBytes 8 q.head)).setMemBytes (cb + 8) (leBytes 8 q.tail)).setMemBytes (cb + 28)
    (leBytes 4 q.free)

theorem State.mem_putCounts (s : State) (cb : Nat) (q : Queue) : (s.putCounts cb q).mem = (s.withCounts cb q).mem := by
  have hends := s.setMemBytes_append cb (leBytes 8 q.head) (leBytes 8 q.tail)
  rw [leBytes_length] at hends
  rw [State.putCounts, hends]
  rfl

theorem memBytes_of_mem {s t : State} (h : t.mem = s.mem) (a n : Nat) : t.memBytes a n = s.memBytes a n :=
  State.memBytes_congr fun _ _ => memByte_congr h _

theorem State.queue_of_mem {s t : State} (h : t.mem = s.mem) (cb : Nat) : t.queue cb = s.queue cb :=
  congrArg queueOf (memBytes_of_mem h cb 64)

section Counts

variable {s : State} {cb : Nat} {q : Queue} (halign : cb % 64 = 0) (hrow : isControlRow cb = false)

include halign hrow

/-- A field that is no count stays. -/
theorem field_withCounts_other {off n : Nat} (h : 16 ≤ off ∧ off + n ≤ 64 ∧ (off + n ≤ 28 ∨ 32 ≤ off)) :
    field ((s.withCounts cb q).memBytes cb 64) off n = field (s.memBytes cb 64) off n := by
  obtain ⟨hlo, hoff, hfree⟩ := h
  unfold State.withCounts
  rw [field_setMemBytes_apart halign hrow (by rw [leBytes_length]; omega) _ hoff (by rw [leBytes_length]; omega),
    field_setMemBytes_apart halign hrow (by rw [leBytes_length]; omega) _ hoff (by rw [leBytes_length]; omega),
    field_setMemBytes_apart halign hrow (by rw [leBytes_length]; omega) _ hoff (by rw [leBytes_length]; omega)]

theorem field_withCounts_head (h : q.head < 2 ^ 64) : field ((s.withCounts cb q).memBytes cb 64) 0 8 = q.head := by
  unfold State.withCounts
  rw [field_setMemBytes_apart halign hrow (by rw [leBytes_length]; omega) _ (by omega) (.inl (by omega)),
    field_setMemBytes_apart halign hrow (by rw [leBytes_length]; omega) _ (by omega) (.inl (by omega))]
  exact (field_setMemBytes_same halign hrow (by rw [leBytes_length]; omega) s).trans (leNat_leBytes_of_lt h)

theorem field_withCounts_tail (h : q.tail < 2 ^ 64) : field ((s.withCounts cb q).memBytes cb 64) 8 8 = q.tail := by
  unfold State.withCounts
  rw [field_setMemBytes_apart halign hrow (by rw [leBytes_length]; omega) _ (by omega) (.inl (by omega))]
  exact (field_setMemBytes_same halign hrow (by rw [leBytes_length]; omega) _).trans (leNat_leBytes_of_lt h)

theorem field_withCounts_free (h : q.free < 2 ^ 32) : field ((s.withCounts cb q).memBytes cb 64) 28 4 = q.free :=
  (field_setMemBytes_same halign hrow (by rw [leBytes_length]; omega) _).trans (leNat_leBytes_of_lt h)

/-- The counts of a block read back, and its other fields stay. -/
theorem State.queue_putCounts (hhead : q.head < 2 ^ 64) (htail : q.tail < 2 ^ 64) (hfree : q.free < 2 ^ 32) :
    (s.putCounts cb q).queue cb = { s.queue cb with head := q.head, tail := q.tail, free := q.free } := by
  have other := fun {off n : Nat} => field_withCounts_other (s := s) (q := q) (off := off) (n := n) halign hrow
  rw [State.queue, memBytes_of_mem (s.mem_putCounts cb q), queueOf, Queue.mk.injEq]
  exact ⟨field_withCounts_head halign hrow hhead, field_withCounts_tail halign hrow htail, other (by omega),
    other (by omega), other (by omega), other (by omega), field_withCounts_free halign hrow hfree, other (by omega),
    other (by omega), other (by omega)⟩

/-- Bytes apart from the block stay. -/
theorem State.memByte_putCounts_apart {x : Nat} (hx : ∀ i < 64, cellOf x ≠ cellOf (cb + i)) :
    (s.putCounts cb q).memByte x = s.memByte x := by
  have away : ∀ {o : Nat} {bs : List Byte} (t : State), o + bs.length ≤ 64 →
      (t.setMemBytes (cb + o) bs).memByte x = t.memByte x := fun t hlen =>
    (wrote_block halign hrow hlen t).outside x fun i hi => by
      rw [Nat.add_assoc]
      exact hx _ (by omega)
  rw [memByte_congr (s.mem_putCounts cb q), State.withCounts, away _ (by rw [leBytes_length]; omega),
    away _ (by rw [leBytes_length]; omega), away _ (by rw [leBytes_length]; omega)]

end Counts

theorem State.head_lt (s : State) (cb : Nat) : (s.queue cb).head < 2 ^ 64 := by
  have hlt := leNat_lt (((s.memBytes cb 64).drop 0).take 8)
  rwa [List.length_take, List.length_drop, State.memBytes_length] at hlt

theorem State.tail_lt (s : State) (cb : Nat) : (s.queue cb).tail < 2 ^ 64 := by
  have hlt := leNat_lt (((s.memBytes cb 64).drop 8).take 8)
  rwa [List.length_take, List.length_drop, State.memBytes_length] at hlt

theorem State.free_lt (s : State) (cb : Nat) : (s.queue cb).free < 2 ^ 32 := by
  have hlt := leNat_lt (((s.memBytes cb 64).drop 28).take 4)
  rwa [List.length_take, List.length_drop, State.memBytes_length] at hlt

theorem State.mem_notifyFor (s : State) (cb : Nat) (q : Queue) (n : Nat) : (s.notifyFor cb q n).mem = s.mem := by
  unfold State.notifyFor
  split
  · split
    · rfl
    · obtain ⟨x, y, h⟩ := State.countError_eq (s := s) 10 3 0 0xFF 0xFFFF 0 0
      rw [State.configEvent, h]
  · rfl

/-! An operation at the home. -/

section Perform

variable {s t : State} {cb n : Nat} {sp : Space2} {pas : List (Nat × Nat)}

/-- An enqueue of elements that are whole. -/
theorem State.homePerform_enqueue (hparts : s.partAddrs sp ((s.queue cb).parts true n) = .ok (pas, t))
    {es : List (List Byte)} (hes : ∀ e ∈ es, e.length = (s.queue cb).esize) (hz : (s.queue cb).esize ≠ 0) :
    s.homePerform cb sp true n es = .ok ([], ((t.putRuns pas (es.flatMap id)).putCounts cb
      { s.queue cb with tail := ((s.queue cb).tail + n) % 2 ^ 64, free := (s.queue cb).free - n }).notifyFor cb
        (s.queue cb) n) := by
  have hwhole : es.any List.isEmpty = false := by
    rw [List.any_eq_false]
    intro e he hempty
    rw [List.isEmpty_iff] at hempty
    have := hes e he
    rw [hempty, List.length_nil] at this
    exact hz this.symm
  unfold State.homePerform
  dsimp only
  rw [hparts]
  dsimp only
  rw [if_pos rfl, flatMap_take_of_length hes, hwhole, if_neg Bool.false_ne_true]

theorem State.homePerform_dequeue (hparts : s.partAddrs sp ((s.queue cb).parts false n) = .ok (pas, t)) :
    s.homePerform cb sp false n [] =
      .ok ((span 0 n).map fun j =>
          ((pas.flatMap fun e => s.memBytes e.1 e.2).drop ((s.queue cb).esize * j)).take (s.queue cb).esize,
        t.putCounts cb { s.queue cb with head := ((s.queue cb).head + n) % 2 ^ 64, free := (s.queue cb).free + n }) := by
  unfold State.homePerform
  dsimp only
  rw [hparts]
  rfl

end Perform

/-- Settles O28: elements are bytes in runs, which read back what is put into them; the counts are fields of the block. -/
theorem aQueueIsFirstInFirstOut : Obligations.AQueueIsFirstInFirstOut := by
  intro s t cb n sp full pas q slot bytes halign hrow _ hz hfree hparts hblock hnodup hline haway
  have hq : t.queue cb = q := congrArg queueOf hblock
  have htakes : Takes pas := ⟨hline, fun a ha => (haway a ha).1, hnodup⟩
  have hsum : (pas.map Prod.snd).sum = n * q.esize :=
    (congrArg List.sum (State.partAddrs_lengths hparts)).trans (sum_parts q full n)
  refine ⟨fun hfull hroom es hn hes => ?_, fun hfull => ?_⟩
  · subst hfull
    have hlen : (es.flatMap id).length = (pas.map Prod.snd).sum := by rw [length_flatMap_id hes, hn, hsum]
    let v := t.putRuns pas (es.flatMap id)
    have hv : v.queue cb = q := (congrArg queueOf (State.memBytes_congr fun i hi =>
      State.memByte_putRuns_outside htakes hlen fun a ha => ((haway a ha).2 i hi).symm)).trans hq
    refine ⟨_, State.homePerform_enqueue hparts hes hz, ?_, ?_⟩
    · have htail : (q.tail + n) % 2 ^ 64 < 2 ^ 64 := Nat.mod_lt _ (Nat.two_pow_pos 64)
      have hcounts := State.queue_putCounts (s := v) (q := { q with tail := (q.tail + n) % 2 ^ 64, free := q.free - n })
        halign hrow (s.head_lt cb) htail ((Nat.sub_le _ _).trans_lt (s.free_lt cb))
      rw [hv] at hcounts
      exact (State.queue_of_mem (State.mem_notifyFor _ _ _ _) cb).trans hcounts
    · refine (List.flatMap_congr fun e he => ?_).trans (State.memBytes_putRuns (s := t) htakes hlen)
      rw [memBytes_of_mem (State.mem_notifyFor _ _ _ _)]
      exact State.memBytes_congr fun i hi => State.memByte_putCounts_apart halign hrow
        (haway _ (List.mem_flatMap.2 ⟨e, he, (mem_span _ _ _).2 (by omega)⟩)).2
  · subst hfull
    refine ⟨_, _, State.homePerform_dequeue hparts, ?_, ?_, fun e he => ?_, ?_⟩
    · have hhead : (q.head + n) % 2 ^ 64 < 2 ^ 64 := Nat.mod_lt _ (Nat.two_pow_pos 64)
      have hcounts := State.queue_putCounts (s := t) (q := { q with head := (q.head + n) % 2 ^ 64, free := q.free + n })
        halign hrow hhead (s.tail_lt cb) hfree
      rwa [hq] at hcounts
    · rw [List.length_map, length_span]
    · obtain ⟨j, hj, rfl⟩ := List.mem_map.1 he
      have hroom : q.esize * j + q.esize ≤ n * q.esize := by
        rw [← Nat.mul_succ, Nat.mul_comm]
        exact Nat.mul_le_mul_right _ (span_lt hj)
      rw [List.length_take, List.length_drop, length_flatMap_memBytes, hsum]
      exact Nat.min_eq_left (Nat.le_sub_of_add_le' hroom)
    · rw [List.flatMap_id, ← List.flatMap_def, flatMap_pieces, Nat.mul_zero, List.drop_zero]
      refine List.take_of_length_le ?_
      rw [length_flatMap_memBytes, hsum, Nat.mul_comm]

end Sys2Proof.Machine
end
